-- ==== Sys2Proof/Word.lean ====
section
/-! DEFINITION. The text the console line carries: a word is a run of characters (R169). -/

namespace Sys2Proof

/-- A run of characters: a word of a command line, a field of a reply, or a whole line. -/
abbrev Text := List Char

/-- The characters of a name that the spec spells. -/
abbrev txt (s : String) : Text := s.toList

end Sys2Proof
end

