-- ==== Sys2Proof/Syntax.lean ====
section
/-! DEFINITION. The commands the 3100 takes: one constructor of `Instr` for each row of spec/opcode_table.json.
A field event carries what its field line shows; a console command carries its operand words. -/

namespace Sys2Proof

/-- The four machines (0.2). Lamps, shutters, cue decoders and gate sensors carry the number of their machine. -/
inductive MachineId | m1 | m2 | m3 | m4
  deriving DecidableEq, Repr

/-- The two screens (0.2). -/
inductive ScreenId | s1 | s2
  deriving DecidableEq, Repr

/-- The light circuits of one auditorium (7.1). -/
inductive CircuitId | house | aisle | stage
  deriving DecidableEq, Repr

/-- The two switches of a port shutter (8.4). -/
inductive ShutterSwitch | openSwitch | closedSwitch
  deriving DecidableEq, Repr

/-- One value for each machine. -/
structure Quad (α : Type) where
  m1 : α
  m2 : α
  m3 : α
  m4 : α
  deriving DecidableEq, Repr

/-- One value for each screen. -/
structure Pair (α : Type) where
  s1 : α
  s2 : α
  deriving DecidableEq, Repr

/-- One value for each circuit of a screen. -/
structure Triple (α : Type) where
  house : α
  aisle : α
  stage : α
  deriving DecidableEq, Repr

/-- A polarity strap (R175). -/
inductive Polarity | normal | invert
  deriving DecidableEq, Repr

/-- The strap field (10.1, Table 10-1). Each baud link is made (true) or open. -/
structure Straps where
  baud300 : Bool
  baud1200 : Bool
  baud2400 : Bool
  screen2Fitted : Bool
  loopSwitch : Quad Polarity
  contactorSense : Quad Polarity
  foil : Quad Polarity
  encoderDirection : Quad Polarity
  shutterOpen : Quad Polarity
  shutterClosed : Quad Polarity
  fireLoop : Polarity
  deriving DecidableEq, Repr

/-- The levels of the sense lines as they stand at power-on (R177): current flowing or not, before polarity.
`receiveSpace` is the console receive line standing at space. -/
structure Lines where
  loopSwitch : Quad Bool
  contactorSense : Quad Bool
  shutterOpen : Quad Bool
  shutterClosed : Quad Bool
  fireLoop : Bool
  receiveSpace : Bool
  deriving DecidableEq, Repr

/-- The commands. `dt` is the time in microseconds of the timebase since the command before (log entry 1);
`flowing` says whether current flows in the sense line, before its polarity strap (R175, log entry 4);
`ops` are the words of a console line after its verb (R169). -/
inductive Instr
  /-- FRAME_PULSE, R4; `foil`: current in the foil sense line at the pulse (R43). -/
  | framePulse (m : MachineId) (dt : Nat) (foil : Bool)
  /-- LOOP_SWITCH_OPEN, R11: the loop switch line is read; OPEN acts in a running state. -/
  | loopSwitchOpen (m : MachineId) (flowing : Bool)
  /-- CONTACTOR_SENSE_CHANGE, R3. -/
  | contactorSenseChange (m : MachineId) (flowing : Bool)
  /-- CONTACTOR_FAILURE, R3: the 500 ms contactor measure expires. -/
  | contactorFailure (m : MachineId)
  /-- STALL, R12: the 3 s start measure or the 500 ms pulse measure expires. -/
  | stall (m : MachineId)
  /-- NO_PULSE_TIMER_EXPIRY, R33. -/
  | noPulseTimerExpiry (m : MachineId)
  /-- ARC_GATE, R63: a 100 ms arc voltage gate completes with `count`. -/
  | arcGate (m : MachineId) (count : Nat)
  /-- TOUCH_MEASURE_EXPIRY, R65. -/
  | touchMeasureExpiry (m : MachineId)
  /-- RETRACT_MEASURE_EXPIRY, R66. -/
  | retractMeasureExpiry (m : MachineId)
  /-- PAUSE_MEASURE_EXPIRY, R67. -/
  | pauseMeasureExpiry (m : MachineId)
  /-- SHORT_GAP_RETRACT_EXPIRY, R70. -/
  | shortGapRetractExpiry (m : MachineId)
  /-- FEED_ENCODER_PULSE, R74; `flowing`: current in the direction line, which a NORMAL strap reads as FWD (DESIGN CHOICE, log
entry 4). -/
  | feedEncoderPulse (m : MachineId) (flowing : Bool)
  /-- BUCKET_MEASURE_EXPIRY, R76. -/
  | bucketMeasureExpiry (m : MachineId)
  /-- CLOCK_ADVANCE, R101. -/
  | clockAdvance (dt : Nat)
  /-- INTERVAL_EXPIRY, R125. -/
  | intervalExpiry (sc : ScreenId)
  /-- DARK_HOLD_EXPIRY, R124. -/
  | darkHoldExpiry (sc : ScreenId)
  /-- FADE_STEP, R136. -/
  | fadeStep (sc : ScreenId) (c : CircuitId)
  /-- ZERO_CROSSING, R141. -/
  | zeroCrossing (dt : Nat)
  /-- FIRING_DELAY_EXPIRY, R143. -/
  | firingDelayExpiry (sc : ScreenId) (c : CircuitId)
  /-- LOOP_INPUT_CHANGE, R151. -/
  | loopInputChange (flowing : Bool)
  /-- LOOP_OPEN_MEASURE_EXPIRY, R151. -/
  | loopOpenMeasureExpiry
  /-- GATE_COUNT, R153: a 100 ms gate temperature count completes with `count`. -/
  | gateCount (m : MachineId) (count : Nat)
  /-- SHUTTER_SWITCH_CHANGE, R156. -/
  | shutterSwitchChange (m : MachineId) (sw : ShutterSwitch) (flowing : Bool)
  /-- CONFIRM_MEASURE_EXPIRY, R157. -/
  | confirmMeasureExpiry (m : MachineId)
  /-- RECEIVED_CHARACTER, R167: seven data bits; `badParity`, `badStop`: parity bad, stop bit found at space. -/
  | receivedCharacter (code : BitVec 7) (badParity badStop : Bool)
  /-- LINE_SENT, R170. -/
  | lineSent
  /-- BREAK_MEASURE_EXPIRY, R174. -/
  | breakMeasureExpiry
  /-- POWER_ON, R177: the strap field and the sense lines as they stand. -/
  | powerOn (straps : Straps) (lines : Lines)
  /-- MOTOR, R23. -/
  | motor (ops : List Text)
  /-- DOUSE, R24. -/
  | douse (ops : List Text)
  /-- MSTAT, R25. -/
  | mstat (ops : List Text)
  /-- CUEMAP, R55. -/
  | cuemap (ops : List Text)
  /-- STRIKE, R64. -/
  | strike (ops : List Text)
  /-- ARCOFF, R72. -/
  | arcoff (ops : List Text)
  /-- TRIM, R81. -/
  | trim (ops : List Text)
  /-- LAMPSET, R82. -/
  | lampset (ops : List Text)
  /-- LSTAT, R83. -/
  | lstat (ops : List Text)
  /-- REEL, R91. -/
  | reel (ops : List Text)
  /-- PLANCOPY, R92. -/
  | plancopy (ops : List Text)
  /-- PLANCLR, R93. -/
  | planclr (ops : List Text)
  /-- PSTAT, R94. -/
  | pstat (ops : List Text)
  /-- THREAD, R95. -/
  | thread (ops : List Text)
  /-- UNTHREAD, R96. -/
  | unthread (ops : List Text)
  /-- TIME, R101. -/
  | time (ops : List Text)
  /-- SHOWAT, R102. -/
  | showat (ops : List Text)
  /-- START, R106. -/
  | start (ops : List Text)
  /-- SWAPNOW, R112. -/
  | swapnow (ops : List Text)
  /-- SOUND, R116. -/
  | sound (ops : List Text)
  /-- RESUME, R125. -/
  | resume (ops : List Text)
  /-- ABORT, R126. -/
  | abort (ops : List Text)
  /-- SCREENSET, R129. -/
  | screenset (ops : List Text)
  /-- SSTAT, R129. -/
  | sstat (ops : List Text)
  /-- SCENEDEF, R132. -/
  | scenedef (ops : List Text)
  /-- LEVEL, R145. -/
  | level (ops : List Text)
  /-- SCENE, R145. -/
  | scene (ops : List Text)
  /-- RELEASE, R146. -/
  | release (ops : List Text)
  /-- HLSTAT, R147. -/
  | hlstat (ops : List Text)
  /-- RESET m, R160: the words after RESET. -/
  | resetM (ops : List Text)
  /-- RESET BOOTH, R161: the words after RESET BOOTH. -/
  | resetBooth (ops : List Text)
  /-- INCIDENT, R164. -/
  | incident (ops : List Text)
  /-- INCLEAR, R164. -/
  | inclear (ops : List Text)
  /-- FSTAT, R165. -/
  | fstat (ops : List Text)
  /-- FIRESET, R165. -/
  | fireset (ops : List Text)
  /-- IDENT, R173. -/
  | ident (ops : List Text)
  /-- STATUS, R173. -/
  | status (ops : List Text)
  /-- RESTART, R178. -/
  | restart (ops : List Text)
  /-- RECEIVE_LINE_LEVEL_CHANGE, R174: the receive line goes to space (true) or to mark. -/
  | receiveLineLevelChange (space : Bool)
  /-- POWER_REMOVED, R175. -/
  | powerRemoved
  deriving DecidableEq, Repr

/-- The operand words of a console command, none for a field event. -/
def Instr.operands? : Instr → Option (List Text)
  | .framePulse _ _ _ | .loopSwitchOpen _ _ | .contactorSenseChange _ _ | .contactorFailure _ | .stall _
  | .noPulseTimerExpiry _ | .arcGate _ _ | .touchMeasureExpiry _ | .retractMeasureExpiry _ | .pauseMeasureExpiry _
  | .shortGapRetractExpiry _ | .feedEncoderPulse _ _ | .bucketMeasureExpiry _ | .clockAdvance _ | .intervalExpiry _
  | .darkHoldExpiry _ | .fadeStep _ _ | .zeroCrossing _ | .firingDelayExpiry _ _ | .loopInputChange _
  | .loopOpenMeasureExpiry | .gateCount _ _ | .shutterSwitchChange _ _ _ | .confirmMeasureExpiry _
  | .receivedCharacter _ _ _ | .lineSent | .breakMeasureExpiry | .powerOn _ _ | .receiveLineLevelChange _
  | .powerRemoved => none
  | .motor w | .douse w | .mstat w | .cuemap w | .strike w | .arcoff w | .trim w | .lampset w | .lstat w | .reel w
  | .plancopy w | .planclr w | .pstat w | .thread w | .unthread w | .time w | .showat w | .start w | .swapnow w
  | .sound w | .resume w | .abort w | .screenset w | .sstat w | .scenedef w | .level w | .scene w | .release w
  | .hlstat w | .resetM w | .resetBooth w | .incident w | .inclear w | .fstat w | .fireset w | .ident w | .status w
  | .restart w => some w

end Sys2Proof
end

