-- ==== Sys2Proof/Decode.lean ====
section
/-! DEFINITION. The 3100 has no instruction words: its commands are events and console lines, and spec/opcode_table.json
gives no bits for any of its rows, so no word spells a command. -/

namespace Sys2Proof

/-- The command that a word of `nbits` bits spells by the table's bits: none, since no row has bits. -/
def decodeTableWord (_nbits _w : Nat) : Option Instr := none

end Sys2Proof
end

