-- ==== Sys2Proof/Config.lean ====
section
/-! DEFINITION. The figures the spec fixes. The spec leaves no figure to an implementation and calls no result
undefined, so there is no opaque constant here. -/

namespace Sys2Proof.Config

/-- Frame count and frames since motor on stop here (R4). -/
abbrev maxFrames : Nat := 99999
/-- Frame periods the ring holds (Table 2-1). -/
abbrev ringSize : Nat := 8
/-- Limits of a frame period in microseconds (R28). -/
abbrev minPeriod : Nat := 20000
abbrev maxPeriod : Nat := 1000000
/-- The nominal frame period in microseconds (0.6, R35). -/
abbrev nominalPeriod : Nat := 41667
/-- The at-speed band in cfps, both ends included (R31). -/
abbrev bandLow : Nat := 2352
abbrev bandHigh : Nat := 2448
/-- Consecutive evaluations that change the speed status (R32). -/
abbrev bandRun : Nat := 8
/-- The acceleration timer stops here (Table 2-1). -/
abbrev maxAccelTimer : Nat := 99999999
/-- The acceleration allowance: greatest value and value at power-on (R39, R26). -/
abbrev maxAllowance : Nat := 3000000
abbrev firstAllowance : Nat := 1200000
/-- Measures of the machine unit in microseconds (R3, R12, R33). -/
abbrev contactorLimit : Nat := 500000
abbrev startLimit : Nat := 3000000
abbrev pulseLimit : Nat := 500000
abbrev noPulseLimit : Nat := 500000
/-- The runout tail begins this many frames before L (R11). -/
abbrev tailFrames : Nat := 100
/-- The rejected cue count stops here (R52). -/
abbrev maxRejected : Nat := 255
/-- Cue decoding (R44 to R46, R57, R51). -/
abbrev splicePatch : Nat := 25
abbrev closingGap : Nat := 8
abbrev maxPatches : Nat := 7
abbrev deferredSize : Nat := 2
abbrev motorWindow : Nat := 240
/-- Lamp counts and measures (R63, R65, R66, R67, R70, R71, R76). -/
abbrev maxArcCount : Nat := 1500
abbrev touchCount : Nat := 50
abbrev arcOutCount : Nat := 1000
abbrev shortGapCount : Nat := 200
abbrev gateLimit : Nat := 100000
abbrev touchLimit : Nat := 5000000
abbrev retractLimit : Nat := 300000
abbrev pauseLimit : Nat := 2000000
abbrev bucketLimit : Nat := 10000000
abbrev maxConsumed : Nat := 11600
abbrev maxBucket : Nat := 9999
abbrev bucketCount : Nat := 6
abbrev maxForecast : Nat := 65535
abbrev pulsesPerMm : Nat := 20
/-- Plan (5.1) and booth clock (R101). -/
abbrev slotCount : Nat := 24
abbrev secondsPerDay : Nat := 86400
abbrev second : Nat := 1000000
/-- Changeover controller (R107, R119, R124, R125). -/
abbrev sceneFade : Nat := 50
abbrev faultScene : Nat := 4
abbrev faultFade : Nat := 30
abbrev intervalScene : Nat := 3
abbrev intervalFade : Nat := 100
abbrev darkHoldLimit : Nat := 5000000
/-- House lights (R136, R141, R142, R148). -/
abbrev fullLevel : Nat := 255
abbrev stepLimit : Nat := 20000
abbrev stepsPerTenth : Nat := 5
abbrev maxFade : Nat := 600
abbrev maxCrossing : Nat := 65535
abbrev crossingRing : Nat := 4
abbrev minHalfCycle : Nat := 7500
abbrev maxHalfCycle : Nat := 11000
abbrev firstHalfCycle : Nat := 10000
abbrev minDelay : Nat := 100
abbrev endMargin : Nat := 300
abbrev levelSquare : Nat := 65025
/-- Fire unit (R151, R153, R157, R161, R163, R166). -/
abbrev loopOpenLimit : Nat := 50000
abbrev maxHealthy : Nat := 65535
abbrev healthyNeeded : Nat := 5
abbrev maxGateCount : Nat := 4095
abbrev hotGates : Nat := 2
abbrev firstTrip : Nat := 900
abbrev firstReset : Nat := 600
abbrev confirmLimit : Nat := 2000000
abbrev logSize : Nat := 8
abbrev sequenceCount : Nat := 65536
/-- Console line (R167, R168, R171, R174). -/
abbrev lineLength : Nat := 72
abbrev lineBuffers : Nat := 2
abbrev queueSize : Nat := 32
abbrev breakLimit : Nat := 1000000
/-- Sound level (Table 6-1). -/
abbrev maxSound : Nat := 15

end Sys2Proof.Config
end

