-- ==== Sys2Proof/Machine/State.lean ====
section
/-! DEFINITION. The records the spec gives the 3100, as plain data, and the machine right after power-on. -/

namespace Sys2Proof.Machine

open Sys2Proof

/-- No rule of the spec stops the 3100: every failure of the booth is a state, a latch or a report. Nothing raises a
fault (safe: nothing ends a run). -/
inductive Fault
  deriving DecidableEq, Repr

/-- Why a command has no meaning. -/
inductive Refusal
  /-- Raised by exec's arm of a command that is not modelled yet; no arm raises it. Safe: the run stops. -/
  | notModelled (mnemonic : String)
  deriving DecidableEq, Repr

/-- A timer or measure in microseconds: stopped, or running at a value. -/
abbrev Timer := Option Nat

/-- A slot number, 0 to 23 (0.6). -/
abbrev SlotIx := Fin Config.slotCount

/-! ### Chapter 1 and 2: the machine unit -/

/-- Machine states (Table 1-2). -/
inductive MachineState
  | empty | threaded | armed | starting | runup | onScreen | runout | stopped | broken | tripped
  deriving DecidableEq, Repr

/-- Speed status (Table 2-3). -/
inductive SpeedStatus | stopped | accel | atSpeed | offSpeed
  deriving DecidableEq, Repr

/-- A douser, or what is asked of it (Table 1-1). -/
inductive Douser | opened | closed
  deriving DecidableEq, Repr

/-- Reasons a douser must stay closed (Table 1-4). -/
inductive HoldReason | speed | lamp | brk | fire | console
  deriving DecidableEq, Repr

/-- The douser hold set (R14): each member present or absent. -/
structure HoldSet where
  speed : Bool
  lamp : Bool
  brk : Bool
  fire : Bool
  console : Bool
  deriving DecidableEq, Repr

/-- Why a machine broke (Table 1-1). -/
inductive BreakCause | loop | stall | contactor
  deriving DecidableEq, Repr

/-- The machine record (Table 1-1), the speed records (Table 2-1), the unit's measures (R3, R12) and its two sense
inputs as read after their polarity straps. -/
structure MachineRec where
  state : MachineState
  reelId : Option Text
  boundSlot : Option SlotIx
  frameCount : Nat
  saturated : Bool
  motor : Bool
  laceUp : Bool
  speed : SpeedStatus
  douserRequest : Douser
  douser : Douser
  holds : HoldSet
  armedPosting : Bool
  breakCause : Option BreakCause
  stateBeforeTrip : Option MachineState
  motorOnTime : Nat
  framesSinceOn : Nat
  atSpeedReached : Bool
  accelAllowance : Nat
  pictureLost : Option Nat
  rejected : Nat
  ring : List Nat
  pulseRef : Bool
  periodTimer : Timer
  average : Option Nat
  cfps : Option Nat
  lastAverage : Option Nat
  inBandRun : Nat
  outBandRun : Nat
  noPulseTimer : Timer
  accelTimer : Timer
  contactorMeasure : Timer
  startMeasure : Timer
  pulseMeasure : Timer
  loopSwitchClosed : Bool
  contactorClosed : Bool
  deriving DecidableEq, Repr

/-! ### Chapter 3: the cue decoder -/

/-- Decode states (Table 3-2). -/
inductive DecodeState | idle | patch | gap | skip
  deriving DecidableEq, Repr

/-- Effect codes, 3 to 6 (Table 3-1). -/
inductive EffectCode | c3 | c4 | c5 | c6
  deriving DecidableEq, Repr

/-- An entry of the deferred queue (Table 3-2). -/
structure DeferredCue where
  code : EffectCode
  frame : Nat
  deriving DecidableEq, Repr

/-- The cue decoder record (Table 3-2). -/
structure DecoderRec where
  decode : DecodeState
  patchCount : Nat
  patchLength : Nat
  gapFrames : Nat
  deferred : List DeferredCue
  deriving DecidableEq, Repr

/-- An action of the cue action table (3.5); `level` names no circuit for ALL. -/
inductive CueAction
  | scene (n : Fin 8) (fade : Nat)
  | level (circuit : Option CircuitId) (level fade : Nat)
  | sound (level : Nat)
  | note
  deriving DecidableEq, Repr

/-- The cue action table: one list for each effect code (3.5). -/
structure CueTable where
  c3 : List CueAction
  c4 : List CueAction
  c5 : List CueAction
  c6 : List CueAction
  deriving DecidableEq, Repr

/-! ### Chapter 4: the lamp unit -/

/-- Lamp states (Table 4-2). -/
inductive LampState | dark | striking | burning | fault | exhausted
  deriving DecidableEq, Repr

/-- Why a lamp is in FAULT (Table 4-1). -/
inductive LampFault | strike | arcOut
  deriving DecidableEq, Repr

/-- Strike phases (Table 4-1). -/
inductive StrikePhase | feed | retract | prove | pause
  deriving DecidableEq, Repr

/-- The lamp record (Table 4-1) and the unit's gate and measures (R63, R65 to R67, R70, R76). `lateGate` is the
model's own: no time has passed since a touch measure ended with a gate in progress (R65, log entry 33). -/
structure LampRec where
  state : LampState
  faultCause : Option LampFault
  phase : Option StrikePhase
  attempt : Nat
  restrike : Bool
  proveGates : Nat
  trim : Nat
  stub : Nat
  consumed : Nat
  buckets : List Nat
  openBucket : Option Int
  completed : Nat
  nominalRate : Nat
  setpoint : Nat
  holdingDuty : Nat
  gain : Nat
  strikeLead : Nat
  reserve : Nat
  boundLength : Option Nat
  forecast : Nat
  carbonOk : Option Bool
  shortfallReported : Bool
  arcCount : Nat
  arcOutRun : Nat
  shortGapRun : Nat
  feedForward : Bool
  feedDuty : Nat
  contactorClosed : Bool
  gate : Timer
  touchMeasure : Timer
  retractMeasure : Timer
  pauseMeasure : Timer
  shortGapRetract : Timer
  bucketMeasure : Timer
  lateGate : Bool
  deriving DecidableEq, Repr

/-! ### Chapter 5: the plan store -/

/-- Slot statuses (Table 5-2). -/
inductive SlotStatus | empty | loaded | bound | shown | cut
  deriving DecidableEq, Repr

/-- Cue modes (Table 5-1). -/
inductive CueMode | film | foot
  deriving DecidableEq, Repr

/-- The entry of a slot (Table 5-1). -/
structure SlotEntry where
  reel : Text
  length : Nat
  co : Option Nat
  window : Nat
  runUp : Nat
  mode : CueMode
  scene : Option (Fin 8)
  last : Bool
  int : Option Nat
  note : Bool
  deriving DecidableEq, Repr

/-- A plan slot (Table 5-1). -/
structure Slot where
  status : SlotStatus
  bound : Option MachineId
  entry : Option SlotEntry
  deriving DecidableEq, Repr

/-- A plan table (5.1). -/
abbrev PlanTable := Vector Slot Config.slotCount

/-- The plan store: tables, SHOWAT times, booth clock and the last ARMED posting of each machine (Table 5-4). The
other items of Table 5-4 stand in their owners' records (log entry 8). -/
structure PlanStore where
  tables : Pair PlanTable
  showAt : Pair (Option Nat)
  clock : Option Nat
  clockSecond : Nat
  lastPosting : Quad Bool
  deriving DecidableEq, Repr

/-! ### Chapter 6: the changeover controller -/

/-- Screen states (Table 6-2). -/
inductive ScreenState | idle | opening | showing | runup | swapDue | dark | interval | halted
  deriving DecidableEq, Repr

/-- How the changeover point was reached (Table 6-1). -/
inductive PointCause | cue | footage | fallback | console
  deriving DecidableEq, Repr

/-- The sound mixer (Table 6-1). -/
inductive MixerMode
  | mute
  | machine (m : MachineId)
  | both
  deriving DecidableEq, Repr

/-- Interval remaining (Table 6-1). -/
inductive IntervalLeft
  | wait
  | seconds (n : Nat)
  deriving DecidableEq, Repr

/-- The dark hold timer (Table 6-1); `ranOut` once its 5 s have been acted on and its condition still holds. -/
inductive DarkHold
  | stopped
  | running (t : Nat)
  | ranOut
  deriving DecidableEq, Repr

/-- The FAULT claim a screen has placed (Table 6-1). -/
inductive FaultClaim | none | picture | dark
  deriving DecidableEq, Repr

/-- The screen record (Table 6-1) and the figures of the start timing (R34, R36, R37). -/
structure ScreenRec where
  state : ScreenState
  current : Option SlotIx
  onScreen : Option MachineId
  startGiven : Bool
  startPending : Bool
  point : Option PointCause
  mixer : MixerMode
  sound : Nat
  overlap : Nat
  overlapLeft : Nat
  margin : Nat
  interval : Option IntervalLeft
  intervalSub : Nat
  darkHold : DarkHold
  faultClaim : FaultClaim
  cueTable : CueTable
  framesToGo : Option Nat
  nStart : Option Nat
  strikeFrames : Option Nat
  deriving DecidableEq, Repr

/-! ### Chapter 7: the house-light unit -/

/-- Ranks of claims, highest first (Table 7-1a). -/
inductive Rank | safety | fault | cue | console
  deriving DecidableEq, Repr

/-- What a claim holds only while it governs (Table 7-1a). -/
structure Fade where
  start : Nat
  k : Nat
  n : Nat
  deriving DecidableEq, Repr

/-- A claim (Table 7-1a); its rank is its place in the claim table. -/
structure Claim where
  target : Nat
  fade : Nat
  governing : Option Fade
  deriving DecidableEq, Repr

/-- The claim table of a circuit: at most one claim of each rank (R134). -/
structure ClaimTable where
  safety : Option Claim
  fault : Option Claim
  cue : Option Claim
  console : Option Claim
  deriving DecidableEq, Repr

/-- A light circuit (Table 7-1). `armed` holds the delay a due firing was armed at; `fired` says that the firing
pulse was given since the last crossing (log entry 24). -/
structure Circuit where
  claims : ClaimTable
  output : Nat
  delay : Option Nat
  stepMeasure : Timer
  armed : Option Nat
  fired : Bool
  deriving DecidableEq, Repr

/-- A scene: a level for each circuit (7.2). -/
abbrev SceneLevels := Triple Nat

/-- The house-light unit (Tables 7-1 and 7-2). -/
structure HouseLights where
  circuits : Pair (Triple Circuit)
  scenes : Pair (Vector SceneLevels 8)
  crossingRef : Bool
  crossingTimer : Timer
  crossings : List Nat
  halfCycle : Nat
  valid : Bool
  deriving DecidableEq, Repr

/-! ### Chapter 8: the fire protection unit -/

/-- Causes of the booth latch (Table 8-1). -/
inductive BoothCause | power | loop
  deriving DecidableEq, Repr

/-- Causes of a machine latch (Table 8-1). -/
inductive LatchCause | gateHeat | booth
  deriving DecidableEq, Repr

/-- Shutter states (8.4). -/
inductive ShutterState | opened | dropping | closed | stuck
  deriving DecidableEq, Repr

/-- A machine snapshot (8.6). -/
structure MachineSnapshot where
  machine : MachineId
  state : MachineState
  reelId : Option Text
  boundSlot : Option SlotIx
  frameCount : Nat
  cfps : Option Nat
  lamp : LampState
  carbonMm : Nat
  deriving DecidableEq, Repr

/-- A shutter record (8.4) with its two switches as read. -/
structure ShutterRec where
  magnet : Bool
  state : ShutterState
  confirm : Timer
  dropSequence : Option Nat
  dropSnapshot : Option MachineSnapshot
  openMade : Bool
  closedMade : Bool
  deriving DecidableEq, Repr

/-- Gate sensing of one machine (Table 8-1). -/
structure GateRec where
  count : Nat
  hotRun : Nat
  tripThreshold : Nat
  resetThreshold : Nat
  deriving DecidableEq, Repr

/-- Causes of an incident record (Table 8-2). -/
inductive IncidentCause | loop | gateHeat | shutterStuck
  deriving DecidableEq, Repr

/-- Scope of an incident record (Table 8-2). -/
inductive IncidentScope
  | booth
  | machine (m : MachineId)
  deriving DecidableEq, Repr

/-- What a shutter did (Table 8-2). -/
inductive ShutterOutcome | pending | closed | stuck
  deriving DecidableEq, Repr

/-- A level of a light snapshot (Table 8-2). -/
structure LightLevel where
  screen : ScreenId
  circuit : CircuitId
  level : Nat
  deriving DecidableEq, Repr

/-- An incident record (Table 8-2). -/
structure IncidentRec where
  sequence : Nat
  timeOfDay : Option Nat
  cause : IncidentCause
  scope : IncidentScope
  machines : List MachineSnapshot
  lights : List LightLevel
  outcomes : List (MachineId × ShutterOutcome)
  related : Option Nat
  deriving DecidableEq, Repr

/-- The fire protection unit (Table 8-1). -/
structure FireUnit where
  boothLatch : Option BoothCause
  machineLatch : Quad (Option LatchCause)
  loopClosed : Bool
  loopOpenMeasure : Timer
  loopHealthy : Option Nat
  loopHealthySub : Nat
  gates : Quad GateRec
  shutters : Quad ShutterRec
  log : List IncidentRec
  nextSequence : Nat
  deriving DecidableEq, Repr

/-! ### Chapter 9: the console line unit -/

/-- Reasons of a NO reply (Table 9-2). -/
inductive Reason | verb | form | range | state | frozen | trip | notFound | long | char
  deriving DecidableEq, Repr

/-- Why a cue was rejected (Table 3-5). -/
inductive RejectReason | splice | invalid | full | source | noSucc | foot | window
  deriving DecidableEq, Repr

/-- The code of a *CUE report: a code number, or SPLICE or INVALID in a lace-up run (R48). -/
inductive CueName
  | code (n : Nat)
  | splice
  | invalid
  deriving DecidableEq, Repr

/-- Dispositions of a *CUE report (Table 9-4). -/
inductive CueDisposition | accept | defer | note | test
  deriving DecidableEq, Repr

/-- Causes of *DARK (R119, R124). -/
inductive DarkCause | runout | brk | picture
  deriving DecidableEq, Repr

/-- Causes of *MISSED (R108, R110, R122). -/
inductive MissedCause | armed | cut
  deriving DecidableEq, Repr

/-- Words of *SHOWLATE (R103). -/
inductive ShowLateCause | busy | empty | armed | trip
  deriving DecidableEq, Repr

/-- Causes of *MOTOR (R107, R109). -/
inductive MotorCause | opening | pending | point | cue | change | console
  deriving DecidableEq, Repr

/-- Report lines (Table 9-4). -/
inductive Report
  | trip (cause : IncidentCause) (scope : IncidentScope) (sequence : Nat)
  | shutterStuck (m : MachineId) (sequence : Nat) (related : Option Nat)
  | shutterSag (m : MachineId)
  | dark (sc : ScreenId) (cause : DarkCause) (m : MachineId) (frame : Option Nat)
  | missed (sc : ScreenId) (slot : Option SlotIx) (cause : MissedCause)
  | broke (m : MachineId) (cause : BreakCause) (frame : Nat)
  | arcOut (m : MachineId) (cause : LampFault)
  | exhaust (m : MachineId)
  | carbon (m : MachineId) (forecast remaining : Nat)
  | showLate (sc : ScreenId) (cause : ShowLateCause)
  | lateFallback (sc : ScreenId) (slot : Option SlotIx) (frame : Nat)
  | lateArmed (sc : ScreenId) (slot : Option SlotIx)
  | cue (sc : ScreenId) (m : MachineId) (name : CueName) (frame : Nat) (d : CueDisposition)
  | reject (sc : ScreenId) (m : MachineId) (code : Option Nat) (frame : Nat) (reason : RejectReason)
  | motor (sc : ScreenId) (m : MachineId) (slot : Option SlotIx) (cause : MotorCause)
  | swap (sc : ScreenId) (out inc : MachineId) (slot : Option SlotIx) (lost : Nat) (cause : Option PointCause)
  | recover (sc : ScreenId) (m : MachineId) (slot : Option SlotIx) (lost : Nat) (cause : Option PointCause)
  | reelEnd (sc : ScreenId) (slot : SlotIx) (reel : Text)
  | planEnd (sc : ScreenId) (slot : Option SlotIx)
  /-- No attempt number stands for the word RESTRIKE. -/
  | strike (m : MachineId) (attempt : Option Nat) (forecast : Nat)
  | speed (m : MachineId) (at_ : Bool) (cfps : Option Nat)
  | interval (sc : ScreenId) (slot : Option SlotIx) (minutes : Nat)
  | resetMachine (m : MachineId)
  | resetBooth
  | ready
  deriving DecidableEq, Repr

/-- Report classes (Table 9-3). -/
inductive ReportClass | alarm | info
  deriving DecidableEq, Repr

/-- A reply line: OK with its fields as written, or NO with a reason (R169). -/
inductive Reply
  | ok (fields : List Text)
  | no (reason : Reason)
  deriving DecidableEq, Repr

/-- A completed line with its marks (R168). -/
structure ReceivedLine where
  text : Text
  charMark : Bool
  longMark : Bool
  deriving DecidableEq, Repr

/-- The reply place (Table 9-1): reserved from the dispatch until the reply is made (R169). -/
inductive ReplyPlace
  | empty
  | reserved
  | full (reply : Reply) (order : Nat)
  deriving DecidableEq, Repr

/-- A report in the queue with its making order (Table 9-1). -/
structure QueuedReport where
  report : Report
  order : Nat
  deriving DecidableEq, Repr

/-- What the transmitter sends. -/
inductive SentLine
  | reply (r : Reply)
  | report (r : Report)
  deriving DecidableEq, Repr

/-- The line now leaving the 3100 with its making order (R170). -/
structure Transmission where
  content : SentLine
  order : Nat
  deriving DecidableEq, Repr

/-- What the line unit reads of the other blocks at the moment of dispatch: the fields of STATUS (R173), and for RESTART
whether both screens are IDLE (R178). -/
inductive DispatchReading
  | status (fields : List Text)
  | bothIdle (yes : Bool)
  deriving DecidableEq, Repr

/-- The console line unit (Table 9-1). `handed` is the command handed to its owner and not yet taken (R169) and
`reading` what was read for it at its dispatch (R173, R178, log entry 3);
`breakHeld` says that a break reset has been made and the line is still at space (R174). -/
structure LineUnit where
  assembly : Text
  charMark : Bool
  longMark : Bool
  buffers : List ReceivedLine
  replyPlace : ReplyPlace
  handed : Option Instr
  reading : Option DispatchReading
  queue : List QueuedReport
  transmitter : Option Transmission
  nextOrder : Nat
  breakMeasure : Timer
  atSpace : Bool
  breakHeld : Bool
  deriving DecidableEq, Repr

/-! ### The whole machine -/

/-- The state of the 3100. `pending` is the queue of commands that wait, first in, first out. -/
structure State where
  powered : Bool
  straps : Straps
  timebase : Nat
  machines : Quad MachineRec
  decoders : Quad DecoderRec
  lamps : Quad LampRec
  plan : PlanStore
  screens : Pair ScreenRec
  lights : HouseLights
  fire : FireUnit
  line : LineUnit
  pending : List Instr
  deriving DecidableEq, Repr

/-! ### Values after power-on -/

/-- The same value for each machine. -/
def Quad.same {α : Type} (a : α) : Quad α := ⟨a, a, a, a⟩

/-- The same value for each screen. -/
def Pair.same {α : Type} (a : α) : Pair α := ⟨a, a⟩

/-- The same value for each circuit. -/
def Triple.same {α : Type} (a : α) : Triple α := ⟨a, a, a⟩

/-- The machine record after power-on, the power-on trip and the LAMP request taken (R26, R42, R84). The two sense
inputs are the levels present (R177). -/
def MachineRec.atPowerOn (loopSwitchClosed contactorClosed : Bool) : MachineRec where
  state := .tripped
  reelId := none
  boundSlot := none
  frameCount := 0
  saturated := false
  motor := false
  laceUp := false
  speed := .stopped
  douserRequest := .closed
  douser := .closed
  holds := { speed := false, lamp := true, brk := false, fire := true, console := false }
  armedPosting := false
  breakCause := none
  stateBeforeTrip := some .empty
  motorOnTime := 0
  framesSinceOn := 0
  atSpeedReached := false
  accelAllowance := Config.firstAllowance
  pictureLost := none
  rejected := 0
  ring := []
  pulseRef := false
  periodTimer := none
  average := none
  cfps := none
  lastAverage := none
  inBandRun := 0
  outBandRun := 0
  noPulseTimer := none
  accelTimer := none
  contactorMeasure := none
  startMeasure := none
  pulseMeasure := none
  loopSwitchClosed := loopSwitchClosed
  contactorClosed := contactorClosed

/-- The cue decoder after power-on (R60). -/
def DecoderRec.atPowerOn : DecoderRec where
  decode := .idle
  patchCount := 0
  patchLength := 0
  gapFrames := 0
  deferred := []

/-- The lamp record after power-on (R84). -/
def LampRec.atPowerOn : LampRec where
  state := .dark
  faultCause := none
  phase := none
  attempt := 0
  restrike := false
  proveGates := 0
  trim := 0
  stub := 40
  consumed := 0
  buckets := []
  openBucket := none
  completed := 0
  nominalRate := 140
  setpoint := 550
  holdingDuty := 96
  gain := 8
  strikeLead := 60
  reserve := 60
  boundLength := none
  forecast := 0
  carbonOk := none
  shortfallReported := false
  arcCount := 0
  arcOutRun := 0
  shortGapRun := 0
  feedForward := true
  feedDuty := 0
  contactorClosed := false
  gate := none
  touchMeasure := none
  retractMeasure := none
  pauseMeasure := none
  shortGapRetract := none
  bucketMeasure := none
  lateGate := false

/-- An EMPTY slot (Table 5-2). -/
def Slot.cleared : Slot where
  status := .empty
  bound := none
  entry := none

/-- A table of EMPTY slots (R104). -/
def PlanTable.cleared : PlanTable := Vector.replicate Config.slotCount Slot.cleared

/-- The plan store after power-on (R104). -/
def PlanStore.atPowerOn : PlanStore where
  tables := Pair.same PlanTable.cleared
  showAt := Pair.same none
  clock := none
  clockSecond := 0
  lastPosting := Quad.same false

/-- The cue action table after power-on and RESTART (R56, Table 3-6). -/
def CueTable.atPowerOn : CueTable where
  c3 := [.scene 2 80]
  c4 := [.scene 1 50]
  c5 := [.note]
  c6 := [.scene 3 100]

/-- The screen record after power-on and RESTART (R130). -/
def ScreenRec.atPowerOn : ScreenRec where
  state := .idle
  current := none
  onScreen := none
  startGiven := false
  startPending := false
  point := none
  mixer := .mute
  sound := 12
  overlap := 2
  overlapLeft := 0
  margin := 250000
  interval := none
  intervalSub := 0
  darkHold := .stopped
  faultClaim := .none
  cueTable := CueTable.atPowerOn
  framesToGo := none
  nStart := none
  strikeFrames := none

/-- The scenes after power-on and RESTART (Table 7-3). -/
def scenesAtPowerOn : Vector SceneLevels 8 :=
  #v[⟨255, 255, 255⟩, ⟨180, 255, 200⟩, ⟨0, 40, 0⟩, ⟨160, 255, 120⟩, ⟨128, 255, 0⟩, ⟨255, 255, 255⟩, ⟨255, 255, 255⟩,
    ⟨255, 255, 255⟩]

/-- A circuit after power-on: one SAFETY claim, governing at full (R148). -/
def Circuit.atPowerOn : Circuit where
  claims := { safety := some ⟨255, 0, some ⟨255, 0, 0⟩⟩, fault := none, cue := none, console := none }
  output := 255
  delay := some 100
  stepMeasure := none
  armed := none
  fired := false

/-- The house-light unit after power-on (R148). -/
def HouseLights.atPowerOn : HouseLights where
  circuits := Pair.same (Triple.same Circuit.atPowerOn)
  scenes := Pair.same scenesAtPowerOn
  crossingRef := false
  crossingTimer := none
  crossings := []
  halfCycle := Config.firstHalfCycle
  valid := false

/-- A shutter record after power-on (R166), its switches as they stand (R177). -/
def ShutterRec.atPowerOn (openMade closedMade : Bool) : ShutterRec where
  magnet := false
  state := .closed
  confirm := none
  dropSequence := none
  dropSnapshot := none
  openMade := openMade
  closedMade := closedMade

/-- Gate sensing after power-on (R166). -/
def GateRec.atPowerOn : GateRec where
  count := 0
  hotRun := 0
  tripThreshold := Config.firstTrip
  resetThreshold := Config.firstReset

/-- The fire unit after power-on (R166). -/
def FireUnit.atPowerOn (loopClosed : Bool) (shutters : Quad ShutterRec) : FireUnit where
  boothLatch := some .power
  machineLatch := Quad.same (some .booth)
  loopClosed := loopClosed
  loopOpenMeasure := none
  loopHealthy := if loopClosed then some 0 else none
  loopHealthySub := 0
  gates := Quad.same GateRec.atPowerOn
  shutters := shutters
  log := []
  nextSequence := 0

/-- The line unit after power-on: *READY was its only report and the idle transmitter has taken it (R177, R170, log
entry 20). A line at space has its break measure running. -/
def LineUnit.atPowerOn (atSpace : Bool) : LineUnit where
  assembly := []
  charMark := false
  longMark := false
  buffers := []
  replyPlace := .empty
  handed := none
  reading := none
  queue := []
  transmitter := some ⟨.report .ready, 0⟩
  nextOrder := 1
  breakMeasure := if atSpace then some 0 else none
  atSpace := atSpace
  breakHeld := false

/-- The straps of State.reset: 2,400 baud, screen 2 fitted, every polarity NORMAL (DESIGN CHOICE, log entry 5). -/
def Straps.atReset : Straps where
  baud300 := false
  baud1200 := false
  baud2400 := true
  screen2Fitted := true
  loopSwitch := Quad.same .normal
  contactorSense := Quad.same .normal
  foil := Quad.same .normal
  encoderDirection := Quad.same .normal
  shutterOpen := Quad.same .normal
  shutterClosed := Quad.same .normal
  fireLoop := .normal

/-- The 3100 right after power-on with `Straps.atReset`, no current in any sense line and the receive line at mark
(R177; DESIGN CHOICE for the straps and lines, log entry 5). -/
def State.reset : State where
  powered := true
  straps := Straps.atReset
  timebase := 0
  machines := Quad.same (MachineRec.atPowerOn false false)
  decoders := Quad.same DecoderRec.atPowerOn
  lamps := Quad.same LampRec.atPowerOn
  plan := PlanStore.atPowerOn
  screens := Pair.same ScreenRec.atPowerOn
  lights := HouseLights.atPowerOn
  fire := FireUnit.atPowerOn false (Quad.same (ShutterRec.atPowerOn false false))
  line := LineUnit.atPowerOn false
  pending := []

end Sys2Proof.Machine
end

