-- ==== Sys2Proof/Machine/Ops.lean ====
section
/-! DEFINITION. Named operations over the records: reading and writing one machine's, lamp's, screen's or circuit's
record, the postings that follow a machine's change (R1, R15, R47, R62, R99), reports and replies (R169 to R171), and
the passing of time. -/

namespace Sys2Proof

/-! ### Indexed records -/

/-- The value of one machine. -/
def Quad.get {α : Type} (q : Quad α) : MachineId → α
  | .m1 => q.m1
  | .m2 => q.m2
  | .m3 => q.m3
  | .m4 => q.m4

/-- Replace the value of one machine. -/
def Quad.set {α : Type} (q : Quad α) (m : MachineId) (a : α) : Quad α :=
  match m with
  | .m1 => { q with m1 := a }
  | .m2 => { q with m2 := a }
  | .m3 => { q with m3 := a }
  | .m4 => { q with m4 := a }

/-- Apply a function to each machine's value. -/
def Quad.map {α β : Type} (f : α → β) (q : Quad α) : Quad β := ⟨f q.m1, f q.m2, f q.m3, f q.m4⟩

/-- The value of one screen. -/
def Pair.get {α : Type} (p : Pair α) : ScreenId → α
  | .s1 => p.s1
  | .s2 => p.s2

/-- Replace the value of one screen. -/
def Pair.set {α : Type} (p : Pair α) (sc : ScreenId) (a : α) : Pair α :=
  match sc with
  | .s1 => { p with s1 := a }
  | .s2 => { p with s2 := a }

/-- Apply a function to each screen's value. -/
def Pair.map {α β : Type} (f : α → β) (p : Pair α) : Pair β := ⟨f p.s1, f p.s2⟩

/-- The value of one circuit. -/
def Triple.get {α : Type} (t : Triple α) : CircuitId → α
  | .house => t.house
  | .aisle => t.aisle
  | .stage => t.stage

/-- Replace the value of one circuit. -/
def Triple.set {α : Type} (t : Triple α) (c : CircuitId) (a : α) : Triple α :=
  match c with
  | .house => { t with house := a }
  | .aisle => { t with aisle := a }
  | .stage => { t with stage := a }

/-- Apply a function to each circuit's value. -/
def Triple.map {α β : Type} (f : α → β) (t : Triple α) : Triple β := ⟨f t.house, f t.aisle, f t.stage⟩

/-- The reading of a sense line after its polarity: true is the active value of Table 10-1 (R175). -/
def Polarity.read (p : Polarity) (flowing : Bool) : Bool :=
  match p with
  | .normal => flowing
  | .invert => !flowing

end Sys2Proof

namespace Sys2Proof.Machine

open Sys2Proof

/-- The screen a machine serves (0.2). -/
def screenOf : MachineId → ScreenId
  | .m1 | .m2 => .s1
  | .m3 | .m4 => .s2

/-- The other machine of the pair (0.2). -/
def partnerOf : MachineId → MachineId
  | .m1 => .m2
  | .m2 => .m1
  | .m3 => .m4
  | .m4 => .m3

/-- The machine of a screen with the lower number (0.2). -/
def lowerOf : ScreenId → MachineId
  | .s1 => .m1
  | .s2 => .m3

/-- The machine of a screen with the higher number (0.2). -/
def upperOf : ScreenId → MachineId
  | .s1 => .m2
  | .s2 => .m4

/-- The record of machine `m`. -/
def State.machine (s : State) (m : MachineId) : MachineRec := s.machines.get m

/-- The cue decoder record of machine `m`. -/
def State.decoder (s : State) (m : MachineId) : DecoderRec := s.decoders.get m

/-- The lamp record of machine `m`. -/
def State.lamp (s : State) (m : MachineId) : LampRec := s.lamps.get m

/-- The screen record of `sc`. -/
def State.screen (s : State) (sc : ScreenId) : ScreenRec := s.screens.get sc

/-- One light circuit. -/
def State.circuit (s : State) (sc : ScreenId) (c : CircuitId) : Circuit := (s.lights.circuits.get sc).get c

/-- One plan slot. -/
def State.slot (s : State) (sc : ScreenId) (n : SlotIx) : Slot := (s.plan.tables.get sc)[n]

/-! ### Reports and replies (Chapter 9) -/

/-- The class of a report (Table 9-3). -/
def Report.class_ : Report → ReportClass
  | .trip _ _ _ | .shutterStuck _ _ _ | .shutterSag _ | .dark _ _ _ _ | .missed _ _ _ | .broke _ _ _ | .arcOut _ _
  | .exhaust _ | .carbon _ _ _ | .showLate _ _ | .lateFallback _ _ _ | .lateArmed _ _ => .alarm
  | .cue _ _ _ _ _ | .reject _ _ _ _ _ | .motor _ _ _ _ | .swap _ _ _ _ _ _ | .recover _ _ _ _ _ | .reelEnd _ _ _
  | .planEnd _ _ | .strike _ _ _ | .speed _ _ _ | .interval _ _ _ | .resetMachine _ | .resetBooth | .ready => .info

/-- Whether a queued report is INFO. -/
def QueuedReport.isInfo (q : QueuedReport) : Bool := q.report.class_ == .info

/-- A new report joins the queue, displaces the oldest INFO report, or is discarded (R171). -/
def queueJoin (q : List QueuedReport) (new : QueuedReport) : List QueuedReport :=
  if q.length < Config.queueSize then q ++ [new]
  else if new.isInfo then q
  else if q.any QueuedReport.isInfo then (q.eraseP QueuedReport.isInfo) ++ [new]
  else q

/-- The idle transmitter takes the earlier made of the reply and the oldest report; a report leaves the queue, a
reply stays in its place until it has been sent (R170). -/
def LineUnit.pump (l : LineUnit) : LineUnit :=
  match l.transmitter with
  | some _ => l
  | none =>
    match l.replyPlace, l.queue with
    | .full r o, [] => { l with transmitter := some ⟨.reply r, o⟩ }
    | .full r o, q :: qs =>
      if o < q.order then { l with transmitter := some ⟨.reply r, o⟩ }
      else { l with transmitter := some ⟨.report q.report, q.order⟩, queue := qs }
    | _, q :: qs => { l with transmitter := some ⟨.report q.report, q.order⟩, queue := qs }
    | _, [] => l

/-- Make a report (R170, R171). -/
def LineUnit.report (r : Report) (l : LineUnit) : LineUnit :=
  LineUnit.pump { l with queue := queueJoin l.queue ⟨r, l.nextOrder⟩, nextOrder := l.nextOrder + 1 }

/-- Make a reply: it is placed in the reply place (R169). -/
def LineUnit.answer (r : Reply) (l : LineUnit) : LineUnit :=
  LineUnit.pump { l with replyPlace := .full r l.nextOrder, nextOrder := l.nextOrder + 1 }

/-- Change the line unit's records. -/
def State.modLine (f : LineUnit → LineUnit) (s : State) : State := { s with line := f s.line }

/-- A block makes a report. -/
def State.report (r : Report) (s : State) : State := s.modLine (LineUnit.report r)

/-- The owner of a command makes its reply. -/
def State.answer (r : Reply) (s : State) : State := s.modLine (LineUnit.answer r)

/-- Make a report where the condition holds. -/
def State.reportIf (b : Bool) (r : Report) (s : State) : State := if b then s.report r else s

/-! ### The machine unit's record and its postings -/

/-- Whether the hold set is empty. -/
def HoldSet.isEmpty (h : HoldSet) : Bool := !(h.speed || h.lamp || h.brk || h.fire || h.console)

/-- Whether a reason is in the hold set. -/
def HoldSet.has (h : HoldSet) : HoldReason → Bool
  | .speed => h.speed
  | .lamp => h.lamp
  | .brk => h.brk
  | .fire => h.fire
  | .console => h.console

/-- Add or remove a member; adding a present or removing an absent one changes nothing (R14). -/
def HoldSet.put (h : HoldSet) (r : HoldReason) (present : Bool) : HoldSet :=
  match r with
  | .speed => { h with speed := present }
  | .lamp => { h with lamp := present }
  | .brk => { h with brk := present }
  | .fire => { h with fire := present }
  | .console => { h with console := present }

/-- The running states (1.2). -/
def MachineState.running : MachineState → Bool
  | .starting | .runup | .onScreen | .runout => true
  | .empty | .threaded | .armed | .stopped | .broken | .tripped => false

/-- The states in which ARMED is judged (R98, R99). -/
def MachineState.judged : MachineState → Bool
  | .threaded | .armed => true
  | .empty | .starting | .runup | .onScreen | .runout | .stopped | .broken | .tripped => false

/-- The states at whose entry the cue decoder empties its deferred queue (R1, R47). -/
def MachineState.emptiesQueue : MachineState → Bool
  | .broken | .tripped | .empty => true
  | .threaded | .armed | .starting | .runup | .onScreen | .runout | .stopped => false

/-- The douser is open exactly while the state is ON_SCREEN, the request OPEN and the hold set empty (R15). -/
def MachineRec.settleDouser (r : MachineRec) : MachineRec :=
  { r with
    douser := if r.state = .onScreen ∧ r.douserRequest = .opened ∧ r.holds.isEmpty = true then .opened else .closed }

/-- The decode state is set to IDLE and its counts to 0 (R47). -/
def DecoderRec.clearGroup (d : DecoderRec) : DecoderRec :=
  { d with decode := .idle, patchCount := 0, patchLength := 0, gapFrames := 0 }

/-- What the cue decoder does at the machine unit's postings (R47): the motor going on or off, and entry to BROKEN,
TRIPPED or EMPTY. -/
def DecoderRec.follow (old new : MachineRec) (d : DecoderRec) : DecoderRec :=
  let d1 := if new.motor = old.motor then d else d.clearGroup
  if (old.motor && !new.motor) || (new.state != old.state && new.state.emptiesQueue) then { d1 with deferred := [] }
  else d1

/-- The plan store sets its last posting to no for a machine posted in a state it does not judge (R99). -/
def PlanStore.noteMachine (m : MachineId) (st : MachineState) (p : PlanStore) : PlanStore :=
  if st.judged then p else { p with lastPosting := p.lastPosting.set m false }

/-- Change the record of machine `m`: the douser follows (R15), and the decoder and the plan store take the postings
within the event (R1). -/
def State.modMachine (m : MachineId) (f : MachineRec → MachineRec) (s : State) : State :=
  let old := s.machine m
  let new := (f old).settleDouser
  { s with
    machines := s.machines.set m new
    decoders := s.decoders.set m ((s.decoder m).follow old new)
    plan := s.plan.noteMachine m new.state }

/-- Change the cue decoder of machine `m`. -/
def State.modDecoder (m : MachineId) (f : DecoderRec → DecoderRec) (s : State) : State :=
  { s with decoders := s.decoders.set m (f (s.decoder m)) }

/-- A request to add a hold to machine `m` or remove it (R14). -/
def State.holdRequest (m : MachineId) (r : HoldReason) (present : Bool) (s : State) : State :=
  s.modMachine m fun x => { x with holds := x.holds.put r present }

/-- Change the record of lamp `m`; where the lamp enters or leaves BURNING, LAMP is removed or added (R62). -/
def State.modLamp (m : MachineId) (f : LampRec → LampRec) (s : State) : State :=
  let old := s.lamp m
  let new := f old
  let s1 := { s with lamps := s.lamps.set m new }
  if (old.state == .burning) = (new.state == .burning) then s1
  else s1.holdRequest m .lamp (new.state != .burning)

/-- Change the plan store's records. -/
def State.modPlan (f : PlanStore → PlanStore) (s : State) : State := { s with plan := f s.plan }

/-- Replace one plan slot. -/
def PlanStore.putSlot (sc : ScreenId) (n : SlotIx) (x : Slot) (p : PlanStore) : PlanStore :=
  { p with tables := p.tables.set sc ((p.tables.get sc).set n x) }

/-- Change one plan slot. -/
def State.modSlot (sc : ScreenId) (n : SlotIx) (f : Slot → Slot) (s : State) : State :=
  s.modPlan (PlanStore.putSlot sc n (f (s.slot sc n)))

/-- Change the record of screen `sc`. -/
def State.modScreen (sc : ScreenId) (f : ScreenRec → ScreenRec) (s : State) : State :=
  { s with screens := s.screens.set sc (f (s.screen sc)) }

/-- Change the house-light unit's records. -/
def State.modLights (f : HouseLights → HouseLights) (s : State) : State := { s with lights := f s.lights }

/-- Change one circuit; the function is given the half-cycle in use. -/
def State.modCircuit (sc : ScreenId) (c : CircuitId) (f : Nat → Circuit → Circuit) (s : State) : State :=
  s.modLights fun h =>
    { h with
      circuits := h.circuits.set sc ((h.circuits.get sc).set c (f h.halfCycle ((h.circuits.get sc).get c))) }

/-- Change the fire unit's records. -/
def State.modFire (f : FireUnit → FireUnit) (s : State) : State := { s with fire := f s.fire }

/-- Change the shutter record of machine `m`. -/
def State.modShutter (m : MachineId) (f : ShutterRec → ShutterRec) (s : State) : State :=
  s.modFire fun u => { u with shutters := u.shutters.set m (f (u.shutters.get m)) }

/-! ### Sense inputs (R175, R176) -/

/-- Whether the field lines of machine `m` are wired (R176). -/
def State.wired (s : State) (m : MachineId) : Bool := screenOf m == .s1 || s.straps.screen2Fitted

/-- A sense line of machine `m`, read through its strap; an unwired line carries no current (R176). -/
def State.sense (s : State) (m : MachineId) (p : Quad Polarity) (flowing : Bool) : Bool :=
  (p.get m).read (flowing && s.wired m)

/-- A counted-frequency input of machine `m`: an unwired one gives a count of 0 (R176). -/
def State.counted (s : State) (m : MachineId) (count : Nat) : Nat := if s.wired m then count else 0

/-! ### The passing of time (0.6, log entry 1) -/

/-- A running timer advances and stops counting at its limit. -/
def Timer.advance (limit dt : Nat) (t : Timer) : Timer := t.map fun v => min limit (v + dt)

/-- Whole seconds counted, and what is left of the present one, after `dt` more microseconds. -/
def secondsPassed (sub dt : Nat) : Nat × Nat := ((sub + dt) / Config.second, (sub + dt) % Config.second)

/-- The machine unit's timers (Table 2-1, R3, R12). -/
def MachineRec.elapse (dt : Nat) (r : MachineRec) : MachineRec :=
  { r with
    periodTimer := Timer.advance Config.maxPeriod dt r.periodTimer
    noPulseTimer := Timer.advance Config.noPulseLimit dt r.noPulseTimer
    accelTimer := Timer.advance Config.maxAccelTimer dt r.accelTimer
    contactorMeasure := Timer.advance Config.contactorLimit dt r.contactorMeasure
    startMeasure := Timer.advance Config.startLimit dt r.startMeasure
    pulseMeasure := Timer.advance Config.pulseLimit dt r.pulseMeasure }

/-- The lamp unit's gate and measures (R63, R65 to R67, R70, R76); once time passes no gate is late (log entry 33). -/
def LampRec.elapse (dt : Nat) (l : LampRec) : LampRec :=
  { l with
    gate := Timer.advance Config.gateLimit dt l.gate
    touchMeasure := Timer.advance Config.touchLimit dt l.touchMeasure
    retractMeasure := Timer.advance Config.retractLimit dt l.retractMeasure
    pauseMeasure := Timer.advance Config.pauseLimit dt l.pauseMeasure
    shortGapRetract := Timer.advance Config.retractLimit dt l.shortGapRetract
    bucketMeasure := Timer.advance Config.bucketLimit dt l.bucketMeasure
    lateGate := l.lateGate && dt == 0 }

/-- The dark hold timer (Table 6-1). -/
def DarkHold.advance (dt : Nat) : DarkHold → DarkHold
  | .running t => .running (min Config.darkHoldLimit (t + dt))
  | .stopped => .stopped
  | .ranOut => .ranOut

/-- The screen's dark hold timer and interval: interval remaining falls by 1 at each second (R125). -/
def ScreenRec.elapse (dt : Nat) (x : ScreenRec) : ScreenRec :=
  let y := { x with darkHold := x.darkHold.advance dt }
  match x.interval with
  | some (.seconds n) =>
    { y with
      interval := some (.seconds (n - (secondsPassed x.intervalSub dt).1))
      intervalSub := (secondsPassed x.intervalSub dt).2 }
  | _ => y

/-- The step measure of a circuit (Table 7-1). -/
def Circuit.elapse (dt : Nat) (c : Circuit) : Circuit :=
  { c with stepMeasure := Timer.advance Config.stepLimit dt c.stepMeasure }

/-- The house-light unit's timers (Tables 7-1, 7-2). -/
def HouseLights.elapse (dt : Nat) (h : HouseLights) : HouseLights :=
  { h with
    circuits := h.circuits.map (Triple.map (Circuit.elapse dt))
    crossingTimer := Timer.advance Config.maxCrossing dt h.crossingTimer }

/-- A shutter's confirm measure (8.4). -/
def ShutterRec.elapse (dt : Nat) (x : ShutterRec) : ShutterRec :=
  { x with confirm := Timer.advance Config.confirmLimit dt x.confirm }

/-- The fire unit's measures; the loop healthy time counts seconds and stops at 65,535 (Table 8-1, R151). -/
def FireUnit.elapse (dt : Nat) (u : FireUnit) : FireUnit :=
  let v := { u with
    loopOpenMeasure := Timer.advance Config.loopOpenLimit dt u.loopOpenMeasure
    shutters := u.shutters.map (ShutterRec.elapse dt) }
  match u.loopHealthy with
  | some n =>
    { v with
      loopHealthy := some (min Config.maxHealthy (n + (secondsPassed u.loopHealthySub dt).1))
      loopHealthySub := (secondsPassed u.loopHealthySub dt).2 }
  | none => v

/-- The present second of the booth clock, while it holds a time (R101). -/
def PlanStore.elapse (dt : Nat) (p : PlanStore) : PlanStore :=
  match p.clock with
  | some _ => { p with clockSecond := min Config.second (p.clockSecond + dt) }
  | none => p

/-- The break measure (Table 9-1). -/
def LineUnit.elapse (dt : Nat) (l : LineUnit) : LineUnit :=
  { l with breakMeasure := Timer.advance Config.breakLimit dt l.breakMeasure }

/-- `dt` microseconds of the timebase pass: every running timer and measure advances and nothing else changes. What a
measure's end does is the event of its own row (log entries 1 and 2). -/
def State.elapse (dt : Nat) (s : State) : State :=
  { s with
    timebase := s.timebase + dt
    machines := s.machines.map (MachineRec.elapse dt)
    lamps := s.lamps.map (LampRec.elapse dt)
    plan := s.plan.elapse dt
    screens := s.screens.map (ScreenRec.elapse dt)
    lights := s.lights.elapse dt
    fire := s.fire.elapse dt
    line := s.line.elapse dt }

/-- An event is taken only while the 3100 has power (log entry 6). -/
def State.whenPowered (f : State → State) (s : State) : State := if s.powered then f s else s

/-- Command `i` is no longer handed and waiting, and what was read for it is used up (R169, log entry 3). -/
def LineUnit.unhand (i : Instr) (l : LineUnit) : LineUnit :=
  if l.handed = some i then { l with handed := none, reading := none } else l

/-- The owner takes a console command, and acts on it (R169, log entry 3). -/
def State.takeCommand (i : Instr) (f : State → State) (s : State) : State :=
  s.whenPowered fun t => f (t.modLine (LineUnit.unhand i))

/-- What was read for command `i` at its dispatch, where it is the command handed. -/
def State.readingFor (i : Instr) (s : State) : Option DispatchReading :=
  if s.line.handed = some i then s.line.reading else none

end Sys2Proof.Machine
end

