-- ==== Sys2Proof/Machine/Flags.lean ====
section
/-! DEFINITION. What the rules read off the records: speed and timing figures (Chapter 2), carbon figures (4.6), slots
(5.2), the conditions ARMED (R98), swap readiness (6.1) and the claims' order (7.3). -/

namespace Sys2Proof.Machine

open Sys2Proof

/-- A quotient rounded up. -/
def ceilDiv (a b : Nat) : Nat := (a + b - 1) / b

/-! ### Chapter 2 -/

/-- The timing period P_t (R35). -/
def MachineRec.timingPeriod (r : MachineRec) : Nat := r.average.getD (r.lastAverage.getD Config.nominalPeriod)

/-- The speed in cfps of an average period (R30). -/
def cfpsOf (average : Nat) : Nat := 100000000 / average

/-- Whether a speed is in the at-speed band (R31). -/
def inBand (cfps : Nat) : Bool := Config.bandLow ≤ cfps && cfps ≤ Config.bandHigh

/-- The allowance learned from one start (R39). -/
def learnedAllowance (allowance tAcc fAcc : Nat) : Nat :=
  min Config.maxAllowance ((3 * allowance + (tAcc - fAcc * Config.nominalPeriod)) / 4)

/-- The lead time (R36). -/
def leadTime (allowance runUp margin : Nat) : Nat := allowance + runUp * Config.nominalPeriod + margin

/-! ### Chapter 4 -/

/-- The remaining pulses Q (R75). -/
def LampRec.remaining (l : LampRec) : Nat := (l.trim - l.stub) * Config.pulsesPerMm - l.consumed

/-- The carbon remaining in millimetres (4.1, R73). -/
def LampRec.carbonMm (l : LampRec) : Nat := l.remaining / Config.pulsesPerMm

/-- Whether the rate in use is the bucket sum (R76). -/
def LampRec.rateMeasured (l : LampRec) : Bool := l.completed == Config.bucketCount && 0 < l.buckets.sum

/-- The rate in use in pulses per minute (R76). -/
def LampRec.rateInUse (l : LampRec) : Nat := if l.rateMeasured then l.buckets.sum else l.nominalRate

/-- The forecast (R77). -/
def LampRec.forecastNow (l : LampRec) : Nat := min Config.maxForecast (l.remaining * 60 / l.rateInUse)

/-- The need of a slot of length `len` in seconds (R78). -/
def LampRec.need (l : LampRec) (len : Nat) : Nat := l.strikeLead + ceilDiv len 24 + l.reserve

/-- The feed duty of the regulation law (R69). -/
def LampRec.regulationDuty (l : LampRec) : Nat :=
  let e : Int := (l.arcCount : Int) - l.setpoint
  if -15 ≤ e ∧ e ≤ 15 then l.holdingDuty
  else (max 0 (min 255 ((l.holdingDuty : Int) + (e * l.gain).tdiv 16))).toNat

/-! ### Chapter 5 -/

/-- Every slot number, lowest first. -/
def allSlots : List SlotIx :=
  [0, 1, 2, 3, 4, 5, 6, 7, 8, 9, 10, 11, 12, 13, 14, 15, 16, 17, 18, 19, 20, 21, 22, 23]

/-- A status of a slot that can be shown (R88). -/
def SlotStatus.showable : SlotStatus → Bool
  | .loaded | .bound => true
  | .empty | .shown | .cut => false

/-- The lowest LOADED or BOUND slot of a screen (R88). -/
def State.lowestShowable (s : State) (sc : ScreenId) : Option SlotIx :=
  allSlots.find? fun n => (s.slot sc n).status.showable

/-- The lowest LOADED or BOUND slot above `c` (R88). -/
def State.showableAbove (s : State) (sc : ScreenId) (c : SlotIx) : Option SlotIx :=
  allSlots.find? fun n => decide (c < n) && (s.slot sc n).status.showable

/-- The on-deck slot (R88). -/
def State.onDeck (s : State) (sc : ScreenId) : Option SlotIx :=
  match (s.screen sc).state, (s.screen sc).current with
  | .idle, _ => none
  | _, none => none
  | _, some c => s.showableAbove sc c

/-- The next slot (R88). -/
def State.nextSlot (s : State) (sc : ScreenId) : Option SlotIx :=
  match (s.screen sc).state with
  | .idle | .halted => s.lowestShowable sc
  | .opening => (s.screen sc).current
  | .showing | .runup | .swapDue | .dark | .interval => s.onDeck sc

/-- Whether slot `n` is the current slot of a screen that is not IDLE (R86). -/
def State.isCurrent (s : State) (sc : ScreenId) (n : SlotIx) : Bool :=
  (s.screen sc).state != .idle && (s.screen sc).current == some n

/-- Whether slot `n` is frozen (R89). -/
def State.frozen (s : State) (sc : ScreenId) (n : SlotIx) : Bool :=
  match (s.screen sc).state, (s.screen sc).current with
  | .idle, _ => false
  | _, none => false
  | _, some c =>
    match s.onDeck sc with
    | none => n == c
    | some d => decide (c ≤ n) && decide (n ≤ d)

/-- The machine a BOUND slot is bound to (R97). -/
def Slot.machine? (x : Slot) : Option MachineId := if x.status = .bound then x.bound else none

/-- The entry of the current slot. -/
def State.currentEntry (s : State) (sc : ScreenId) : Option SlotEntry :=
  match (s.screen sc).current with
  | none => none
  | some n => (s.slot sc n).entry

/-- The entry of the on-deck slot. -/
def State.onDeckEntry (s : State) (sc : ScreenId) : Option SlotEntry :=
  match s.onDeck sc with
  | none => none
  | some n => (s.slot sc n).entry

/-- The entry of the slot a machine is bound to. -/
def State.boundEntry (s : State) (m : MachineId) : Option SlotEntry :=
  match (s.machine m).boundSlot with
  | none => none
  | some n => (s.slot (screenOf m) n).entry

/-- The length L of the slot a machine is bound to (R1). -/
def State.boundLength (s : State) (m : MachineId) : Option Nat := (s.boundEntry m).map SlotEntry.length

/-- The reel time remaining of an ON_SCREEN machine, in seconds (R41). -/
def State.reelTime (s : State) (m : MachineId) : Option Nat :=
  if (s.machine m).state = .onScreen then
    (s.boundLength m).map fun len =>
      ceilDiv ((len - (s.machine m).frameCount) * (s.machine m).timingPeriod) Config.second
  else none

/-- The ARMED condition of a machine (R98). -/
def State.armedCondition (s : State) (m : MachineId) : Bool :=
  let r := s.machine m
  r.state.judged && r.boundSlot.isSome && r.boundSlot == s.nextSlot (screenOf m)
    && (s.lamp m).carbonOk == some true
    && (s.fire.shutters.get m).state == .opened
    && !r.holds.fire && !r.holds.brk
    && (s.lamp m).state != .fault && (s.lamp m).state != .exhausted

/-! ### Chapter 6 -/

/-- The successor: the machine bound to the on-deck slot (6.1). -/
def State.successor (s : State) (sc : ScreenId) : Option MachineId :=
  match s.onDeck sc with
  | none => none
  | some n => (s.slot sc n).machine?

/-- The machine waited on: the current slot's in OPENING, else the successor (6.1). -/
def State.waitedOn (s : State) (sc : ScreenId) : Option MachineId :=
  if (s.screen sc).state = .opening then
    match (s.screen sc).current with
    | none => none
    | some n => (s.slot sc n).machine?
  else s.successor sc

/-- The slot waited on: the current slot in OPENING, else the on-deck slot (6.1). -/
def State.waitedSlot (s : State) (sc : ScreenId) : Option SlotIx :=
  if (s.screen sc).state = .opening then (s.screen sc).current else s.onDeck sc

/-- The run-up U of the slot a machine is bound to; 0 where it is bound to none. -/
def State.boundRunUp (s : State) (m : MachineId) : Nat :=
  match s.boundEntry m with
  | none => 0
  | some e => e.runUp

/-- RUNUP, AT_SPEED, at or beyond U, with the hold set empty (R107). -/
def State.openReady (s : State) (m : MachineId) : Bool :=
  let r := s.machine m
  r.state == .runup && r.speed == .atSpeed && s.boundRunUp m ≤ r.frameCount && r.holds.isEmpty

/-- Swap readiness (6.1). -/
def State.swapReady (s : State) (m : MachineId) : Bool := s.openReady m && (s.lamp m).state == .burning

/-- A successor with CO is present: the current slot carries CO and there is an on-deck slot (R50). -/
def State.successorWithCo (s : State) (sc : ScreenId) : Bool :=
  (match s.currentEntry sc with
    | none => false
    | some e => e.co.isSome) && (s.onDeck sc).isSome

/-- The ON_SCREEN machine's picture is lost to its lamp or its speed (R124). -/
def State.pictureLostTo (s : State) (m : MachineId) : Bool :=
  let r := s.machine m
  r.douser == .closed && (r.holds.lamp || r.holds.speed)

/-- A set booth latch, or a set latch of either machine of the screen (R106). -/
def State.startBlocked (s : State) (sc : ScreenId) : Bool :=
  s.fire.boothLatch.isSome || (s.fire.machineLatch.get (lowerOf sc)).isSome
    || (s.fire.machineLatch.get (upperOf sc)).isSome

/-! ### Chapter 7 -/

/-- The claim of a rank. -/
def ClaimTable.get (t : ClaimTable) : Rank → Option Claim
  | .safety => t.safety
  | .fault => t.fault
  | .cue => t.cue
  | .console => t.console

/-- Place, replace or remove the claim of a rank. -/
def ClaimTable.set (t : ClaimTable) (r : Rank) (c : Option Claim) : ClaimTable :=
  match r with
  | .safety => { t with safety := c }
  | .fault => { t with fault := c }
  | .cue => { t with cue := c }
  | .console => { t with console := c }

/-- The highest rank present (R134). -/
def ClaimTable.top (t : ClaimTable) : Option Rank :=
  if t.safety.isSome then some .safety
  else if t.fault.isSome then some .fault
  else if t.cue.isSome then some .cue
  else if t.console.isSome then some .console
  else none

/-- The firing delay of level `level` at half-cycle `h` (R142). -/
def firingDelay (h level : Nat) : Option Nat :=
  if level = 0 then none
  else some (max Config.minDelay (min (h - Config.endMargin) (h - h * level * level / Config.levelSquare)))

/-- The level of fade step `k` of `n` from `start` to `target`, truncated toward zero (R136). -/
def fadeLevel (start target k n : Nat) : Nat :=
  ((start : Int) + (((target : Int) - start) * k).tdiv n).toNat

end Sys2Proof.Machine
end

