-- ==== Sys2Proof/Machine/Lights.lean ====
section
/-! DEFINITION. The house-light unit: claims, fades, mains capture and firing of a circuit, and placing and releasing
claims on a screen's circuits (Chapter 7). -/

namespace Sys2Proof.Machine

open Sys2Proof

/-! ### One circuit; `h` is the half-cycle in use -/

/-- The output level is set: the delay follows (R142), and level 0 abandons an armed firing (R143). -/
def Circuit.setOutput (h level : Nat) (c : Circuit) : Circuit :=
  { c with output := level, delay := firingDelay h level, armed := if level = 0 then none else c.armed }

/-- A claim that does not govern holds no start level, step or steps (R133). -/
def Claim.waiting (x : Claim) : Claim := { x with governing := none }

/-- No claim of the table governs. -/
def ClaimTable.allWaiting (t : ClaimTable) : ClaimTable :=
  { safety := t.safety.map Claim.waiting, fault := t.fault.map Claim.waiting, cue := t.cue.map Claim.waiting,
    console := t.console.map Claim.waiting }

/-- The claim of rank `r` begins to govern from the present output level (R134). -/
def Circuit.govern (h : Nat) (r : Rank) (c : Circuit) : Circuit :=
  match c.claims.get r with
  | none => c
  | some x =>
    let n := x.fade * Config.stepsPerTenth
    let t := c.claims.allWaiting.set r (some { x with governing := some ⟨c.output, 0, n⟩ })
    if n = 0 then { c.setOutput h x.target with claims := t, stepMeasure := none }
    else { c with claims := t, stepMeasure := some 0 }

/-- A claim is placed (R133). -/
def Circuit.place (h : Nat) (r : Rank) (target fade : Nat) (c : Circuit) : Circuit :=
  let d := { c with claims := c.claims.set r (some ⟨target, fade, none⟩) }
  if d.claims.top = some r then d.govern h r else d

/-- The claim of a rank is released (R135). -/
def Circuit.release (h : Nat) (r : Rank) (c : Circuit) : Circuit :=
  match c.claims.get r with
  | none => c
  | some _ =>
    let d := { c with claims := c.claims.set r none }
    if c.claims.top = some r then
      match d.claims.top with
      | some r2 => d.govern h r2
      | none => { d.setOutput h Config.fullLevel with stepMeasure := none }
    else d

/-- A step of the governing claim's fade (R136). -/
def Circuit.fadeStep (h : Nat) (c : Circuit) : Circuit :=
  match c.stepMeasure, c.claims.top with
  | some _, some r =>
    match c.claims.get r with
    | some ⟨target, fade, some f⟩ =>
      if f.k < f.n then
        { c.setOutput h (fadeLevel f.start target (f.k + 1) f.n) with
          claims := c.claims.set r (some ⟨target, fade, some { f with k := f.k + 1 }⟩)
          stepMeasure := if f.k + 1 < f.n then some 0 else none }
      else c
    | _ => c
  | _, _ => c

/-- The step measure has reached 20 ms (R136). -/
def Circuit.stepDue (c : Circuit) : Bool := c.stepMeasure == some Config.stepLimit

/-- FADE_STEP on its circuit: a step where the measure has reached 20 ms. A step that waited behind a placement or a
release by which another claim began to govern does not follow, that claim's measure having started from 0 (R137). -/
def Circuit.dueStep (h : Nat) (c : Circuit) : Circuit := if c.stepDue then c.fadeStep h else c

/-- The delay is formed anew for a half-cycle in use that has changed (R141, R142). -/
def Circuit.newHalfCycle (h : Nat) (c : Circuit) : Circuit := { c with delay := firingDelay h c.output }

/-- A zero crossing arms a circuit whose output level is 1 or more, at its delay as it stands; a firing still armed is
abandoned (R143). -/
def Circuit.cross (c : Circuit) : Circuit := { c with armed := if c.output = 0 then none else c.delay, fired := false }

/-- The firing delay of an armed circuit passes: its pulse is given (R143). -/
def Circuit.fire (c : Circuit) : Circuit :=
  match c.armed with
  | none => c
  | some _ => { c with armed := none, fired := true }

/-! ### A screen's circuits -/

/-- A claim of one rank is placed on each of a screen's three circuits, over one fade (R131, R132). -/
def State.placeThree (sc : ScreenId) (r : Rank) (levels : SceneLevels) (fade : Nat) (s : State) : State :=
  ((s.modCircuit sc .house fun h => Circuit.place h r levels.house fade).modCircuit sc .aisle
      fun h => Circuit.place h r levels.aisle fade).modCircuit sc .stage
    fun h => Circuit.place h r levels.stage fade

/-- The levels of a stored scene as they stand (R132). -/
def State.sceneLevels (s : State) (sc : ScreenId) (n : Fin 8) : SceneLevels := (s.lights.scenes.get sc)[n]

/-- A scene is placed (R132). -/
def State.placeScene (sc : ScreenId) (r : Rank) (n : Fin 8) (fade : Nat) (s : State) : State :=
  s.placeThree sc r (s.sceneLevels sc n) fade

/-- The claims of one rank are released on each of a screen's three circuits (R131, R135). -/
def State.releaseThree (sc : ScreenId) (r : Rank) (s : State) : State :=
  ((s.modCircuit sc .house fun h => Circuit.release h r).modCircuit sc .aisle
      fun h => Circuit.release h r).modCircuit sc .stage
    fun h => Circuit.release h r

/-- A claim is placed on one circuit, or on all three for ALL (R54, R145). -/
def State.placeLevel (sc : ScreenId) (r : Rank) (c : Option CircuitId) (level fade : Nat) (s : State) : State :=
  match c with
  | some k => s.modCircuit sc k fun h => Circuit.place h r level fade
  | none => s.placeThree sc r ⟨level, level, level⟩ fade

/-- The claims of one rank are released on one circuit, or on all three for ALL (R146). -/
def State.releaseLevel (sc : ScreenId) (r : Rank) (c : Option CircuitId) (s : State) : State :=
  match c with
  | some k => s.modCircuit sc k fun h => Circuit.release h r
  | none => s.releaseThree sc r

/-- A SAFETY claim at full is placed on a screen's circuits by a trip order (R139). -/
def State.placeSafety (sc : ScreenId) (s : State) : State :=
  s.placeThree sc .safety ⟨Config.fullLevel, Config.fullLevel, Config.fullLevel⟩ 0

/-- The light snapshot of a screen's circuits (R139). -/
def State.lightLevels (s : State) (sc : ScreenId) : List LightLevel :=
  [⟨sc, .house, (s.circuit sc .house).output⟩, ⟨sc, .aisle, (s.circuit sc .aisle).output⟩,
    ⟨sc, .stage, (s.circuit sc .stage).output⟩]

/-! ### Mains capture -/

/-- The newest interval joins the ring; of five the oldest is removed (R141). -/
def crossingJoin (ring : List Nat) (i : Nat) : List Nat :=
  if ring.length < Config.crossingRing then ring ++ [i] else ring.drop (ring.length + 1 - Config.crossingRing) ++ [i]

/-- A ring of four intervals gives an average; one within 7,500 to 11,000 becomes H in use (R141). -/
def HouseLights.formHalfCycle (h : HouseLights) : HouseLights :=
  if h.crossings.length = Config.crossingRing then
    let a := h.crossings.sum / Config.crossingRing
    if Config.minHalfCycle ≤ a ∧ a ≤ Config.maxHalfCycle then { h with halfCycle := a, valid := true }
    else { h with valid := false }
  else h

/-- A zero crossing is timed into the interval ring (R141). -/
def HouseLights.timeCrossing (h : HouseLights) : HouseLights :=
  if h.crossingRef then
    { h with crossings := crossingJoin h.crossings (h.crossingTimer.getD 0), crossingTimer := some 0 }.formHalfCycle
  else { h with crossingRef := true, crossingTimer := some 0 }

/-- A zero crossing: the timing, the delays where H in use has changed, then the firings armed (R141, R143). The
crossing that sets the reference arms nothing: the circuits are fired from the second crossing (R148, log entry 31). -/
def HouseLights.cross (h : HouseLights) : HouseLights :=
  let t := h.timeCrossing
  let delayed := if t.halfCycle = h.halfCycle then t.circuits
    else t.circuits.map (Triple.map (Circuit.newHalfCycle t.halfCycle))
  { t with circuits := if h.crossingRef then delayed.map (Triple.map Circuit.cross) else delayed }

/-- RESTART on one circuit: CUE, FAULT and CONSOLE claims are removed, SAFETY is kept (R149). -/
def Circuit.restart (h : Nat) (c : Circuit) : Circuit :=
  ((c.release h .console).release h .cue).release h .fault

/-- RESTART of the house-light unit (R149). -/
def HouseLights.restart (h : HouseLights) : HouseLights :=
  { h with
    circuits := h.circuits.map (Triple.map (Circuit.restart h.halfCycle))
    scenes := Pair.same scenesAtPowerOn }

end Sys2Proof.Machine
end

