-- ==== Sys2Proof/Machine/Units.lean ====
section
/-! DEFINITION. What a machine unit, a cue decoder and a lamp unit do to their own record when they take an order, a
pulse, a sample or a gate (Chapters 1 to 4). The postings that follow are made by the operations of Ops. -/

namespace Sys2Proof.Machine

open Sys2Proof

/-! ### The machine unit -/

/-- The period ring is emptied, the pulse reference cleared, the period timer stopped and both runs set to 0 (R29). -/
def MachineRec.clearRing (r : MachineRec) : MachineRec :=
  { r with ring := [], pulseRef := false, periodTimer := none, average := none, cfps := none, inBandRun := 0,
           outBandRun := 0 }

/-- The motor goes on at timebase `t` (R2, R12, R39); an order that matches the contactor's changes nothing. The
contactor measure runs while the sense reads OPEN (R3). -/
def MachineRec.motorOn (t : Nat) (r : MachineRec) : MachineRec :=
  if r.motor then r
  else
    { r.clearRing with
      motor := true
      motorOnTime := t
      framesSinceOn := 0
      atSpeedReached := false
      speed := .accel
      holds := r.holds.put .speed true
      noPulseTimer := none
      accelTimer := some 0
      contactorMeasure := if r.contactorClosed then none else some 0
      startMeasure := some 0
      pulseMeasure := none }

/-- The motor goes off (R2, R3, R12, R33, R39); an order that matches the contactor's changes nothing. -/
def MachineRec.motorOff (r : MachineRec) : MachineRec :=
  if r.motor then
    { r with
      motor := false
      laceUp := false
      holds := r.holds.put .speed false
      noPulseTimer := some 0
      accelTimer := none
      contactorMeasure := none
      startMeasure := none
      pulseMeasure := none }
  else r

/-- The contactor sense changes: with the motor ordered ON, CLOSED abandons the measure and OPEN starts it (R3). -/
def MachineRec.takeContactorSense (closed : Bool) (r : MachineRec) : MachineRec :=
  { r with
    contactorClosed := closed
    contactorMeasure := if r.motor && !closed then (if r.contactorClosed then some 0 else r.contactorMeasure) else none }

/-- A start order is taken in ARMED and declined in any other state (R5). -/
def MachineRec.startOrder (t : Nat) (r : MachineRec) : MachineRec :=
  if r.state = .armed then { r with state := .starting }.motorOn t else r

/-- A take-screen request is taken in RUNUP; at a swap it carries the picture lost (R7). -/
def MachineRec.takeScreen (lost : Option Nat) (r : MachineRec) : MachineRec :=
  if r.state = .runup then
    { r with
      state := .onScreen
      douserRequest := .opened
      pictureLost := match lost with | none => r.pictureLost | some n => some n }
  else r

/-- A give-up request is taken in ON_SCREEN (R8). -/
def MachineRec.giveUp (r : MachineRec) : MachineRec :=
  if r.state = .onScreen then { r with state := .runout, douserRequest := .closed } else r

/-- Entry to STOPPED: motor OFF, douser request CLOSED, ring emptied (R9, R10, R29). -/
def MachineRec.enterStopped (r : MachineRec) : MachineRec :=
  ({ r with state := .stopped, douserRequest := .closed }.motorOff).clearRing

/-- A stop order acts in the running states (R9). -/
def MachineRec.stopOrder (r : MachineRec) : MachineRec := if r.state.running then r.enterStopped else r

/-- Entry to BROKEN (R13). -/
def MachineRec.enterBroken (cause : BreakCause) (r : MachineRec) : MachineRec :=
  ({ r with
      state := .broken
      breakCause := some cause
      holds := r.holds.put .brk true
      douserRequest := .closed }).motorOff

/-- The reel is accepted (R16); `n` is the slot the plan store writes (R95). -/
def MachineRec.acceptReel (id : Text) (n : SlotIx) (r : MachineRec) : MachineRec :=
  { r with
    reelId := some id
    frameCount := 0
    saturated := false
    rejected := 0
    armedPosting := false
    state := .threaded
    boundSlot := some n }

/-- An ARMED posting is stored, and moves the machine between THREADED and ARMED (R17). -/
def MachineRec.takePosting (yes : Bool) (r : MachineRec) : MachineRec :=
  { r with
    armedPosting := yes
    state :=
      if r.state = .threaded ∧ yes = true then .armed
      else if r.state = .armed ∧ yes = false then .threaded
      else r.state }

/-- Removing BREAK and the break cause on leaving BROKEN (R13). -/
def MachineRec.leaveBroken (r : MachineRec) : MachineRec :=
  if r.state = .broken then { r with holds := r.holds.put .brk false, breakCause := none } else r

/-- The reel is removed; in EMPTY the record is left as it stands (R18). -/
def MachineRec.unthread (r : MachineRec) : MachineRec :=
  if r.state = .empty then r
  else
    ({ r.leaveBroken with
        state := .empty
        reelId := none
        frameCount := 0
        saturated := false
        armedPosting := false }).motorOff

/-- A trip order; a machine already TRIPPED is unchanged (R19). -/
def MachineRec.trip (r : MachineRec) : MachineRec :=
  if r.state = .tripped then r
  else
    ({ r.leaveBroken with
        stateBeforeTrip := some r.state
        holds := r.leaveBroken.holds.put .fire true
        douserRequest := .closed
        state := .tripped }).motorOff

/-- A release with film kept: the first row of R20's table that applies; the entry to STOPPED empties the ring (R29). Frames
counted while TRIPPED from EMPTY, and saturated, are kept at the return to EMPTY as R20 keeps them, though R4 has both at 0
and no in EMPTY (DESIGN CHOICE, log entry 37). -/
def MachineRec.releaseKept (r : MachineRec) : MachineRec :=
  let x := { r with holds := r.holds.put .fire false, stateBeforeTrip := none }
  if r.stateBeforeTrip = some .broken then
    { x with state := .broken, holds := x.holds.put .brk true, breakCause := some .loop }
  else if r.reelId = none then { x with state := .empty }
  else if r.boundSlot.isSome then { x with state := .threaded, armedPosting := false }
  else { x.clearRing with state := .stopped }

/-- A release with film lost (R21); the plan store clears the binding (R97). -/
def MachineRec.releaseLost (r : MachineRec) : MachineRec :=
  { r with
    holds := r.holds.put .fire false
    state := .empty
    reelId := none
    stateBeforeTrip := none
    frameCount := 0
    saturated := false
    armedPosting := false }

/-- RESTART, by the state of the machine's latch (R27, R42). -/
def MachineRec.restart (latched : Bool) (r : MachineRec) : MachineRec :=
  { (r.motorOff).clearRing with
    accelTimer := none
    reelId := none
    boundSlot := none
    frameCount := 0
    saturated := false
    armedPosting := false
    rejected := 0
    pictureLost := none
    breakCause := none
    douserRequest := .closed
    holds := ((r.motorOff).holds.put .console false).put .brk false
    state := if latched then .tripped else .empty
    stateBeforeTrip := if latched then some .empty else none }

/-- The frame count part of a frame pulse (R4). -/
def MachineRec.countFrame (r : MachineRec) : MachineRec :=
  if r.state = .empty then r
  else if r.frameCount < Config.maxFrames then { r with frameCount := r.frameCount + 1 }
  else { r with saturated := true }

/-- The newest period joins the ring; of nine the oldest is removed (R28). -/
def ringJoin (ring : List Nat) (p : Nat) : List Nat :=
  if ring.length < Config.ringSize then ring ++ [p] else ring.drop (ring.length + 1 - Config.ringSize) ++ [p]

/-- The first AT_SPEED of a run; a STARTING machine goes to RUNUP and learns its allowance (R6, R39). -/
def MachineRec.firstAtSpeed (r : MachineRec) : MachineRec :=
  let x := { r with speed := .atSpeed, holds := r.holds.put .speed false, atSpeedReached := true,
                    pulseMeasure := some 0, inBandRun := 0, outBandRun := 0 }
  if r.state = .starting then
    { x with
      state := .runup
      accelAllowance := learnedAllowance r.accelAllowance (r.accelTimer.getD 0) r.framesSinceOn }
  else x

/-- A speed evaluation finds the speed in band or not, and may change the status (R31, R32, R14). -/
def MachineRec.judgeSpeed (isIn : Bool) (r : MachineRec) : MachineRec :=
  let a := if isIn then min Config.bandRun (r.inBandRun + 1) else 0
  let b := if isIn then 0 else min Config.bandRun (r.outBandRun + 1)
  let x := { r with inBandRun := a, outBandRun := b }
  match r.speed with
  | .accel => if a = Config.bandRun then x.firstAtSpeed else x
  | .atSpeed =>
    if b = Config.bandRun then
      { x with speed := .offSpeed, holds := r.holds.put .speed true, inBandRun := 0, outBandRun := 0 }
    else x
  | .offSpeed =>
    if a = Config.bandRun then
      { x with speed := .atSpeed, holds := r.holds.put .speed false, inBandRun := 0, outBandRun := 0 }
    else x
  | .stopped => x

/-- The average and cfps are formed where the ring is full, and the speed is judged (R30, R31). -/
def MachineRec.formAverage (r : MachineRec) : MachineRec :=
  if r.ring.length = Config.ringSize then
    let p := r.ring.sum / Config.ringSize
    ({ r with average := some p, cfps := some (cfpsOf p), lastAverage := some p }).judgeSpeed (inBand (cfpsOf p))
  else r

/-- The period entry of a frame pulse taken with the motor ON (R28). -/
def MachineRec.enterPeriod (r : MachineRec) : MachineRec :=
  if r.pulseRef then
    let p := max Config.minPeriod (min Config.maxPeriod (r.periodTimer.getD 0))
    ({ r with ring := ringJoin r.ring p, periodTimer := some 0 }).formAverage
  else { r with pulseRef := true, periodTimer := some 0 }

/-- A frame pulse (R4, R12, R28, R33). -/
def MachineRec.pulse (r : MachineRec) : MachineRec :=
  let x := r.countFrame
  if r.motor then
    ({ x with
        framesSinceOn := min Config.maxFrames (r.framesSinceOn + 1)
        startMeasure := none
        pulseMeasure := if r.atSpeedReached then some 0 else r.pulseMeasure }).enterPeriod
  else { x with noPulseTimer := r.noPulseTimer.map fun _ => 0 }

/-- The no-pulse timer reaches 500 ms: the status becomes STOPPED and the ring is emptied (R33, R29). -/
def MachineRec.noPulse (r : MachineRec) : MachineRec :=
  { r.clearRing with speed := .stopped, noPulseTimer := none }

/-- A cue code of this machine was rejected (R52). -/
def MachineRec.countRejected (r : MachineRec) : MachineRec :=
  { r with rejected := min Config.maxRejected (r.rejected + 1) }

/-! ### The cue decoder -/

/-- What a sample made of the present group (R44 to R46). -/
inductive GroupNews
  | quiet
  | closed (patches : Nat)
  | splice
  deriving DecidableEq, Repr

/-- A foil sample is applied to the decode state (Table 3-3, R45, R46). -/
def DecoderRec.sample (foil : Bool) (d : DecoderRec) : DecoderRec × GroupNews :=
  match d.decode, foil with
  | .idle, false => (d, .quiet)
  | .idle, true => ({ d with decode := .patch, patchCount := 1, patchLength := 1, gapFrames := 0 }, .quiet)
  | .patch, true =>
    if Config.splicePatch ≤ d.patchLength + 1 then ({ d.clearGroup with decode := .skip }, .splice)
    else ({ d with patchLength := d.patchLength + 1 }, .quiet)
  | .patch, false => ({ d with decode := .gap, patchLength := 0, gapFrames := 1 }, .quiet)
  | .gap, false =>
    if Config.closingGap ≤ d.gapFrames + 1 then (d.clearGroup, .closed d.patchCount)
    else ({ d with gapFrames := d.gapFrames + 1 }, .quiet)
  | .gap, true =>
    ({ d with decode := .patch, patchCount := min Config.maxPatches (d.patchCount + 1), patchLength := 1,
              gapFrames := 0 }, .quiet)
  | .skip, true => (d, .quiet)
  | .skip, false => ({ d with decode := .idle }, .quiet)

/-! ### The lamp unit -/

/-- The forecast and carbon_ok are recomputed (R77, R78). -/
def LampRec.recompute (l : LampRec) : LampRec :=
  { l with
    forecast := l.forecastNow
    carbonOk := l.boundLength.map fun len => decide (l.need len ≤ l.forecastNow) }

/-- Every measure of a strike or a short-gap retract is stopped (R68, R70). -/
def LampRec.stopMeasures (l : LampRec) : LampRec :=
  { l with touchMeasure := none, retractMeasure := none, pauseMeasure := none, shortGapRetract := none }

/-- The contactor opens and the feed duty is 0; no gate is counted (R63, R67, R72). -/
def LampRec.openContactor (l : LampRec) : LampRec :=
  { l with contactorClosed := false, gate := none, feedDuty := 0, lateGate := false }

/-- The open bucket and its measure are discarded (R76). -/
def LampRec.discardBucket (l : LampRec) : LampRec := { l with openBucket := none, bucketMeasure := none }

/-- An attempt begins in its FEED phase (R65). -/
def LampRec.beginAttempt (l : LampRec) : LampRec :=
  { l.stopMeasures with
    contactorClosed := true
    gate := some 0
    state := .striking
    phase := some .feed
    proveGates := 0
    feedForward := true
    feedDuty := 255
    touchMeasure := some 0
    lateGate := false }

/-- A strike request is taken: attempt 1 begins (R64). -/
def LampRec.beginStrike (l : LampRec) : LampRec := { l with restrike := false, attempt := 1 }.beginAttempt

/-- What came of a gate or a measure (R66, R67). No attempt number stands for a re-strike. -/
inductive LampNews
  | quiet
  | struck (attempt : Option Nat)
  | failed (cause : LampFault)
  deriving DecidableEq, Repr

/-- Touch is found: the strike enters its RETRACT phase, in which no gate runs (R65, R63). -/
def LampRec.touchFound (l : LampRec) : LampRec :=
  { l with touchMeasure := none, feedForward := false, feedDuty := 255, phase := some .retract,
           retractMeasure := some 0, gate := none }

/-- An attempt fails (R67). -/
def LampRec.attemptFails (l : LampRec) : LampRec × LampNews :=
  let x := l.stopMeasures.openContactor
  if l.restrike then
    ({ x with state := .fault, faultCause := some .arcOut, phase := none, restrike := false, attempt := 0 },
      .failed .arcOut)
  else if l.attempt < 3 then ({ x with phase := some .pause, pauseMeasure := some 0 }, .quiet)
  else ({ x with state := .fault, faultCause := some .strike, phase := none, attempt := 0 }, .failed .strike)

/-- The arc is established (R66, R76). -/
def LampRec.established (l : LampRec) : LampRec × LampNews :=
  (({ l with
      state := .burning
      phase := none
      attempt := 0
      restrike := false
      arcOutRun := 0
      shortGapRun := 0
      buckets := []
      completed := 0
      openBucket := some 0
      bucketMeasure := some 0 }).recompute,
    .struck (if l.restrike then none else some l.attempt))

/-- A gate of the PROVE phase (R66, R69). -/
def LampRec.proveGate (l : LampRec) : LampRec × LampNews :=
  let x := { l with feedForward := true, feedDuty := l.regulationDuty, proveGates := l.proveGates + 1 }
  if Config.arcOutCount ≤ l.arcCount then x.attemptFails
  else if 3 ≤ l.proveGates + 1 then x.established
  else (x, .quiet)

/-- Three arc-out gates: a single re-strike begins, the contactor staying CLOSED (R71). -/
def LampRec.arcGoesOut (l : LampRec) : LampRec :=
  ({ l.discardBucket with arcOutRun := 0, shortGapRun := 0, restrike := true, attempt := 1 }.beginAttempt).recompute

/-- Three short-gap gates: a 300 ms retract, in which no gate runs (R70). -/
def LampRec.retractShortGap (l : LampRec) : LampRec :=
  { l with shortGapRun := 0, feedForward := false, feedDuty := 255, shortGapRetract := some 0, gate := none }

/-- A gate of BURNING: regulation, then the short-gap and arc-out tests (R69 to R71). -/
def LampRec.burningGate (l : LampRec) : LampRec :=
  let x := { l with
    feedForward := true
    feedDuty := l.regulationDuty
    shortGapRun := if l.arcCount ≤ Config.shortGapCount then l.shortGapRun + 1 else 0
    arcOutRun := if Config.arcOutCount ≤ l.arcCount then l.arcOutRun + 1 else 0 }
  if 3 ≤ x.shortGapRun then x.retractShortGap
  else if 3 ≤ x.arcOutRun then x.arcGoesOut
  else x

/-- A gate that completed at the moment the touch measure expired is taken after the measure: its count is written to
the arc count without effect (R65, log entry 33). With none such, no gate is counted while none runs (R63). -/
def LampRec.takeLateGate (count : Nat) (l : LampRec) : LampRec :=
  if l.lateGate then { l with arcCount := min Config.maxArcCount count, lateGate := false } else l

/-- A gate completes with `count`: the next begins at once, and the rule of the state and phase is applied (R63). -/
def LampRec.takeGate (count : Nat) (l : LampRec) : LampRec × LampNews :=
  match l.gate with
  | none => (l.takeLateGate count, .quiet)
  | some _ =>
    let x := { l with arcCount := min Config.maxArcCount count, gate := some 0 }
    match l.state, l.phase with
    | .striking, some .feed => if x.arcCount ≤ Config.touchCount then (x.touchFound, .quiet) else (x, .quiet)
    | .striking, some .prove => x.proveGate
    | .burning, _ => (x.burningGate, .quiet)
    | _, _ => (x, .quiet)

/-- The touch measure expires before touch is found (R65); a gate in progress may have completed at the same moment. -/
def LampRec.touchExpires (l : LampRec) : LampRec × LampNews :=
  if l.state = .striking ∧ l.phase = some .feed ∧ l.touchMeasure.isSome = true then
    ({ l.attemptFails.1 with lateGate := l.gate.isSome }, l.attemptFails.2)
  else (l, .quiet)

/-- The strike's retract ends and its PROVE phase begins (R66). -/
def LampRec.retractExpires (l : LampRec) : LampRec :=
  if l.state = .striking ∧ l.phase = some .retract ∧ l.retractMeasure.isSome = true then
    { l with retractMeasure := none, gate := some 0, feedForward := true, feedDuty := l.holdingDuty,
             phase := some .prove }
  else l

/-- The pause ends and the next attempt begins (R67). -/
def LampRec.pauseExpires (l : LampRec) : LampRec :=
  if l.state = .striking ∧ l.phase = some .pause ∧ l.pauseMeasure.isSome = true then
    { l with attempt := l.attempt + 1 }.beginAttempt
  else l

/-- The short-gap retract ends (R70). -/
def LampRec.shortGapExpires (l : LampRec) : LampRec :=
  if l.state = .burning ∧ l.shortGapRetract.isSome = true then
    { l with shortGapRetract := none, gate := some 0, feedForward := true, feedDuty := l.holdingDuty }
  else l

/-- A feed encoder pulse: consumed pulses and, in BURNING, the open bucket (R74). -/
def LampRec.encoderPulse (forward : Bool) (l : LampRec) : LampRec :=
  { l with
    consumed := if forward then min Config.maxConsumed (l.consumed + 1) else l.consumed - 1
    openBucket :=
      if l.state = .burning then
        l.openBucket.map fun b => max (-Config.maxBucket) (min Config.maxBucket (if forward then b + 1 else b - 1))
      else l.openBucket }

/-- Q is 0 while the lamp is BURNING or STRIKING (R75). -/
def LampRec.exhaustDue (l : LampRec) : Bool := l.remaining == 0 && (l.state == .burning || l.state == .striking)

/-- The lamp is exhausted (R75). -/
def LampRec.exhaust (l : LampRec) : LampRec :=
  ({ l.stopMeasures.openContactor.discardBucket with
      state := .exhausted, phase := none, attempt := 0, restrike := false }).recompute

/-- The bucket measure expires in BURNING: the open bucket is completed (R76). -/
def LampRec.bucketExpires (l : LampRec) : LampRec :=
  let all := l.buckets ++ [(max 0 (l.openBucket.getD 0)).toNat]
  ({ l with
      buckets := all.drop (all.length - Config.bucketCount)
      completed := min Config.bucketCount (l.completed + 1)
      openBucket := some 0
      bucketMeasure := some 0 }).recompute

/-- The lamp is put out from BURNING or STRIKING; in any other state nothing changes (R72, R68). -/
def LampRec.putOut (l : LampRec) : LampRec :=
  match l.state with
  | .burning =>
    ({ l.stopMeasures.openContactor.discardBucket with state := .dark }).recompute
  | .striking =>
    ({ l.stopMeasures.openContactor with state := .dark, phase := none, attempt := 0, restrike := false }).recompute
  | .dark | .fault | .exhausted => l

/-- ARCOFF: as `putOut`, and a FAULT is acknowledged (R72). -/
def LampRec.arcOff (l : LampRec) : LampRec :=
  match l.state with
  | .fault => { l with state := .dark, faultCause := none }
  | .burning | .striking | .dark | .exhausted => l.putOut

/-- A new carbon of `mm` (R81). -/
def LampRec.newTrim (mm : Nat) (l : LampRec) : LampRec :=
  ({ l with
      trim := mm
      consumed := 0
      buckets := []
      completed := 0
      state := if l.state = LampState.fault ∨ l.state = LampState.exhausted then LampState.dark else l.state
      faultCause := if l.state = LampState.fault then none else l.faultCause }).recompute

/-- The machine is bound to a slot of length `len` (R78). -/
def LampRec.bind (len : Nat) (l : LampRec) : LampRec :=
  { l with boundLength := some len, shortfallReported := false }.recompute

/-- The machine is unbound (R78). -/
def LampRec.unbind (l : LampRec) : LampRec := { l with boundLength := none }.recompute

/-- RESTART: every arc is put out, the settings take their defaults, the carbon account is kept (R85). -/
def LampRec.restart (l : LampRec) : LampRec :=
  ({ l.stopMeasures.openContactor.discardBucket with
      state := if l.state = LampState.exhausted then LampState.exhausted else LampState.dark
      faultCause := none
      phase := none
      attempt := 0
      restrike := false
      setpoint := 550
      holdingDuty := 96
      gain := 8
      nominalRate := 140
      stub := 40
      strikeLead := 60
      reserve := 60
      boundLength := none
      shortfallReported := false }).recompute

/-- Why the lamp unit declines a strike request (R64). -/
inductive StrikeDecline
  | trip
  | lampState (st : LampState)
  | noCarbon
  deriving DecidableEq, Repr

/-- The tests of a strike request, in order (R64). -/
def strikeDecline (fireHeld : Bool) (l : LampRec) : Option StrikeDecline :=
  if fireHeld then some .trip
  else if l.state ≠ .dark then some (.lampState l.state)
  else if l.remaining = 0 then some .noCarbon
  else none

end Sys2Proof.Machine
end

