-- ==== Sys2Proof/Machine/Controller.lean ====
section
/-! DEFINITION. The changeover controller and the blocks it calls on: strikes, starts, the ARMED evaluation and its
posting, opening, the swap, dark screens, the end of a reel and the cues (Chapters 3, 5 and 6). Each operation takes the
whole state, since one event reaches several blocks (R1, R61, R105). -/

namespace Sys2Proof.Machine

open Sys2Proof

/-! ### Lamp requests and the binding notice -/

/-- A strike request of the controller: taken where R64's tests pass, else declined with no change. -/
def State.strikeRequest (m : MachineId) (s : State) : State :=
  match strikeDecline (s.machine m).holds.fire (s.lamp m) with
  | none => s.modLamp m LampRec.beginStrike
  | some _ => s

/-- The shortfall test, made at a recomputation of the forecast (R79). -/
def State.shortfallTest (m : MachineId) (s : State) : State :=
  match s.reelTime m with
  | none => s
  | some t =>
    if (s.lamp m).state = .burning ∧ (s.lamp m).forecast < t ∧ (s.lamp m).shortfallReported = false then
      (s.report (.carbon m (s.lamp m).forecast t)).modLamp m fun l => { l with shortfallReported := true }
    else s

/-- A slot leaves BOUND or LOADED for `st`; its binding, where it has one, ends on both sides and the lamp unit is sent
the unbind notice (R86, R97, R78). Any other status is left as it stands. -/
def State.slotNotice (sc : ScreenId) (n : SlotIx) (st : SlotStatus) (s : State) : State :=
  match (s.slot sc n).status with
  | .bound =>
    let s1 := s.modSlot sc n fun x => { x with status := st, bound := none }
    match (s.slot sc n).bound with
    | none => s1
    | some m => (s1.modMachine m fun r => { r with boundSlot := none }).modLamp m LampRec.unbind
  | .loaded => s.modSlot sc n fun x => { x with status := st, bound := none }
  | .empty | .shown | .cut => s

/-- The binding of a machine ends, its slot becoming `st` (R97). -/
def State.endBinding (m : MachineId) (st : SlotStatus) (s : State) : State :=
  match (s.machine m).boundSlot with
  | none => s
  | some n =>
    (((s.modSlot (screenOf m) n fun x => { x with status := st, bound := none }).modMachine m
        fun r => { r with boundSlot := none })).modLamp m LampRec.unbind

/-! ### Starting a machine -/

/-- The screen states in which the machine waited on may have been started (R108, R120, R123, R128). -/
def ScreenState.awaits : ScreenState → Bool
  | .opening | .runup | .swapDue | .dark => true
  | .idle | .showing | .interval | .halted => false

/-- The successor, or the machine of an opening, is lost after its start: start given no, start pending yes; RUNUP and
SWAP_DUE return to SHOWING (R108, R120, R123, R128). -/
def State.successorLost (sc : ScreenId) (s : State) : State :=
  s.modScreen sc fun x =>
    { x with
      startGiven := false
      startPending := true
      state := if x.state = .runup ∨ x.state = .swapDue then .showing else x.state }

/-- A machine enters BROKEN and *BREAK is reported (R13). -/
def State.breakMachine (m : MachineId) (cause : BreakCause) (s : State) : State :=
  (s.modMachine m (MachineRec.enterBroken cause)).report (.broke m cause (s.machine m).frameCount)

/-- A machine that enters STARTING with its loop switch reading OPEN breaks at once (R11). The break comes after all else
that its start order does, and then acts as R123 (in OPENING and DARK, R108 and R120) states (DESIGN CHOICE, log entry 39). -/
def State.loopCheck (m : MachineId) (s : State) : State :=
  if (s.machine m).state = .starting ∧ (s.machine m).loopSwitchClosed = false then
    (s.breakMachine m .loop).successorLost (screenOf m)
  else s

/-- The start order, taken by an ARMED machine (R5), with the screen's flags and *MOTOR (R109). -/
def State.giveStart (m : MachineId) (cause : MotorCause) (s : State) : State :=
  ((s.modMachine m (MachineRec.startOrder s.timebase)).modScreen (screenOf m)
      fun x => { x with startGiven := true, startPending := false }).report
    (.motor (screenOf m) m (s.waitedSlot (screenOf m)) cause)

/-- A start order outside OPENING: SHOWING goes to RUNUP, or to SWAP_DUE where the point has been reached, and a DARK
lamp is asked to strike (R109), both before a loop switch already OPEN breaks the machine and returns the screen to SHOWING
(R11, R123; DESIGN CHOICE, log entry 39). -/
def State.startSuccessor (m : MachineId) (cause : MotorCause) (s : State) : State :=
  let s1 := (s.giveStart m cause).modScreen (screenOf m) fun x =>
    { x with state := if x.state = .showing then (if x.point.isSome then .swapDue else .runup) else x.state }
  let s2 := if (s1.lamp m).state = .dark then s1.strikeRequest m else s1
  s2.loopCheck m

/-- OPENING with start given no and the machine waited on posted ARMED: a DARK lamp is asked to strike, a BURNING lamp
brings the start order and the slot's scene (R107), before a loop switch already OPEN breaks the machine (R11; DESIGN
CHOICE, log entry 39). -/
def State.openingStep (sc : ScreenId) (s : State) : State :=
  match s.waitedOn sc with
  | none => s
  | some m =>
    if (s.screen sc).state = .opening ∧ (s.screen sc).startGiven = false ∧ (s.machine m).state = .armed then
      match (s.lamp m).state with
      | .dark => s.strikeRequest m
      | .burning =>
        let s1 := s.giveStart m (if (s.screen sc).startPending then .pending else .opening)
        let s2 := match s.currentEntry sc with
          | some ⟨_, _, _, _, _, _, some n, _, _, _⟩ => s1.placeScene sc .cue n Config.sceneFade
          | _ => s1
        s2.loopCheck m
      | .striking | .fault | .exhausted => s
    else s

/-! ### The ARMED evaluation and its posting -/

/-- The controller takes the posting of ARMED: a pending start is given, an opening proceeds (R109, R107). -/
def State.onArmed (m : MachineId) (s : State) : State :=
  let sc := screenOf m
  if s.waitedOn sc = some m then
    match (s.screen sc).state with
    | .opening => s.openingStep sc
    | .showing | .runup | .swapDue | .dark =>
      if (s.screen sc).startPending then s.startSuccessor m .pending else s
    | .idle | .interval | .halted => s
  else s

/-- The controller takes the posting from ARMED back to THREADED: an opening not yet started sets start pending
(R108). -/
def State.onDisarmed (m : MachineId) (s : State) : State :=
  let sc := screenOf m
  if s.waitedOn sc = some m ∧ (s.screen sc).state = .opening ∧ (s.screen sc).startGiven = false then
    s.modScreen sc fun x => { x with startPending := true }
  else s

/-- The plan store evaluates the ARMED condition of a machine posted THREADED or ARMED, and posts a result that differs
from the last (R99); the machine unit and then the controller take it (R17). -/
def State.evaluate (m : MachineId) (s : State) : State :=
  if (s.machine m).state.judged then
    let yes := s.armedCondition m
    if yes = s.plan.lastPosting.get m then s
    else
      let s1 := (s.modPlan fun p => { p with lastPosting := p.lastPosting.set m yes }).modMachine m
        (MachineRec.takePosting yes)
      if yes then s1.onArmed m else s1.onDisarmed m
  else s

/-- The plan store evaluates both machines of a screen: its next slot or a slot of it has changed (R99). -/
def State.evaluateScreen (sc : ScreenId) (s : State) : State := (s.evaluate (lowerOf sc)).evaluate (upperOf sc)

/-! ### Giving a machine the screen -/

/-- One action of an action list (R54). -/
def State.execAction (sc : ScreenId) (m : MachineId) (code frame : Nat) (a : CueAction) (s : State) : State :=
  match a with
  | .scene n fade => s.placeScene sc .cue n fade
  | .level c level fade => s.placeLevel sc .cue c level fade
  | .sound level => s.modScreen sc fun x => { x with sound := min Config.maxSound level }
  | .note => s.report (.cue sc m (.code code) frame .note)

/-- The actions of a list, in the order written (R54). -/
def State.execActions (sc : ScreenId) (m : MachineId) (code frame : Nat) : List CueAction → State → State
  | [], s => s
  | a :: as, s => State.execActions sc m code frame as (s.execAction sc m code frame a)

/-- The list of an effect code. -/
def CueTable.get (t : CueTable) : EffectCode → List CueAction
  | .c3 => t.c3
  | .c4 => t.c4
  | .c5 => t.c5
  | .c6 => t.c6

/-- Replace the list of an effect code (R55). -/
def CueTable.set (t : CueTable) (c : EffectCode) (l : List CueAction) : CueTable :=
  match c with
  | .c3 => { t with c3 := l }
  | .c4 => { t with c4 := l }
  | .c5 => { t with c5 := l }
  | .c6 => { t with c6 := l }

/-- The number of an effect code. -/
def EffectCode.number : EffectCode → Nat
  | .c3 => 3
  | .c4 => 4
  | .c5 => 5
  | .c6 => 6

/-- The list of an effect code is executed, as it stands at this moment (R54). -/
def State.execEffect (sc : ScreenId) (m : MachineId) (c : EffectCode) (frame : Nat) (s : State) : State :=
  State.execActions sc m c.number frame ((s.screen sc).cueTable.get c) s

/-- Entries of a deferred queue are executed in the order handed (R58). -/
def State.execDeferred (sc : ScreenId) (m : MachineId) : List DeferredCue → State → State
  | [], s => s
  | d :: ds, s => State.execDeferred sc m ds (s.execEffect sc m d.code d.frame)

/-- The machine's deferred queue is handed over, is then empty, and is executed (R58). -/
def State.handOver (sc : ScreenId) (m : MachineId) (s : State) : State :=
  State.execDeferred sc m (s.decoder m).deferred (s.modDecoder m fun d => { d with deferred := [] })

/-- The screen's FAULT claim, where one stands, is released and fault claim set to NONE. -/
def State.releaseFault (sc : ScreenId) (s : State) : State :=
  (s.releaseThree sc .fault).modScreen sc fun x => { x with faultClaim := .none }

/-- The scene of an entry, where it has one, is issued as a CUE claim with fade 50 (R114, R121). -/
def State.issueScene (sc : ScreenId) (e : Option SlotEntry) (s : State) : State :=
  match e with
  | some ⟨_, _, _, _, _, _, some n, _, _, _⟩ => s.placeScene sc .cue n Config.sceneFade
  | _ => s

/-- Frames to go is discarded (R34), and with it the start point and strike frames formed from it, for which R36 and R37
state no end (DESIGN CHOICE, log entry 38). -/
def ScreenRec.discardTiming (x : ScreenRec) : ScreenRec :=
  { x with framesToGo := none, nStart := none, strikeFrames := none }

/-- The lamp off order of the controller (R72). -/
def State.lampOff (m : MachineId) (s : State) : State := s.modLamp m LampRec.putOut

/-- Entry to DARK (R119): the ON_SCREEN machine is cleared, sound muted, scene 4 issued as a FAULT claim. `m` and `f`
are the machine and frame count *DARK gives. -/
def State.enterDark (sc : ScreenId) (cause : DarkCause) (m : MachineId) (f : Nat) (s : State) : State :=
  let s1 := s.modScreen sc fun x =>
    { x.discardTiming with onScreen := none, mixer := .mute, overlapLeft := 0, darkHold := .stopped }
  let s2 := s1.placeScene sc .fault 4 Config.faultFade
  let s3 := s2.modScreen sc fun x => { x with faultClaim := .dark, state := .dark }
  (s3.report (.dark sc cause m (some f))).evaluateScreen sc

/-- Picture lost of an incoming machine (R40). -/
def State.pictureLostNow (s : State) (m : MachineId) : Nat := (s.machine m).frameCount - s.boundRunUp m

/-- The opened machine takes the screen (R107). -/
def State.openingTake (sc : ScreenId) (s : State) : State :=
  match s.waitedOn sc with
  | none => s
  | some m =>
    if (s.screen sc).state = .opening ∧ s.openReady m = true then
      let s1 := s.modMachine m (MachineRec.takeScreen none)
      let s2 := s1.modScreen sc fun x => { x.discardTiming with onScreen := some m, mixer := .machine m }
      let s3 := (s2.releaseFault sc).handOver sc m
      let s4 := s3.modScreen sc fun x => { x with state := .showing, startGiven := false }
      s4.evaluateScreen sc
    else s

/-- The swap, its steps in the order of R114. `out` is the outgoing machine and `m` the successor. A declined give-up
ends it; a declined take-screen sends the screen DARK. A PICTURE claim is released as the screen is given (R124). -/
def State.swap (sc : ScreenId) (out m : MachineId) (s : State) : State :=
  if (s.machine out).state = .onScreen then
    let deck := s.onDeck sc
    let entry := s.onDeckEntry sc
    let lost := s.pictureLostNow m
    let s1 := (s.modMachine out MachineRec.giveUp).lampOff out
    if (s1.machine m).state = .runup then
      let s2 := s1.modMachine m (MachineRec.takeScreen (some lost))
      let s3 := s2.modScreen sc fun x =>
        { x.discardTiming with
          onScreen := some m
          darkHold := .stopped
          mixer := if x.overlap = 0 then .machine m else .both
          overlapLeft := x.overlap }
      let s4 := if (s3.screen sc).faultClaim = .picture then s3.releaseFault sc else s3
      let s5 := (s4.issueScene sc entry).handOver sc m
      let s6 := s5.modScreen sc fun x =>
        { x with current := deck, point := none, startGiven := false, startPending := false, state := .showing }
      (s6.evaluateScreen sc).report (.swap sc out m deck lost (s.screen sc).point)
    else s1.enterDark sc .brk m (s.machine m).frameCount
  else s

/-- The recovery of a DARK screen (R121). -/
def State.recover (sc : ScreenId) (m : MachineId) (s : State) : State :=
  if (s.machine m).state = .runup then
    let deck := s.onDeck sc
    let entry := s.onDeckEntry sc
    let lost := s.pictureLostNow m
    let s1 := s.modMachine m (MachineRec.takeScreen (some lost))
    let s2 := s1.modScreen sc fun x => { x.discardTiming with onScreen := some m, mixer := .machine m }
    let s3 := ((s2.releaseFault sc).issueScene sc entry).handOver sc m
    let s4 := s3.modScreen sc fun x =>
      { x with current := deck, point := none, startGiven := false, startPending := false, state := .showing }
    (s4.evaluateScreen sc).report (.recover sc m deck lost (s.screen sc).point)
  else s

/-- Swap readiness is tested in SWAP_DUE and DARK (R113, R120, R121). -/
def State.testReady (sc : ScreenId) (s : State) : State :=
  match s.successor sc with
  | none => s
  | some m =>
    if s.swapReady m then
      match (s.screen sc).state, (s.screen sc).onScreen with
      | .swapDue, some out => s.swap sc out m
      | .dark, _ => s.recover sc m
      | _, _ => s
    else s

/-! ### Postings the controller takes -/

/-- The dark hold timer and the PICTURE claim at a posting of the ON_SCREEN machine (R124). -/
def State.watchPicture (sc : ScreenId) (s : State) : State :=
  match (s.screen sc).onScreen with
  | none => s
  | some m =>
    let lost := s.pictureLostTo m
    let timed := match (s.screen sc).state with
      | .showing | .runup | .swapDue => true
      | .idle | .opening | .dark | .interval | .halted => false
    let s1 := s.modScreen sc fun x =>
      { x with
        darkHold :=
          if timed && lost then (match x.darkHold with | .stopped => .running 0 | t => t) else .stopped }
    if (s.machine m).douser = .opened ∧ (s.screen sc).faultClaim = .picture then s1.releaseFault sc else s1

/-- The controller takes a posting of machine `m`: hold set, douser, speed status or frame notice (R107, R113, R120,
R124). -/
def State.machinePosted (m : MachineId) (s : State) : State :=
  let sc := screenOf m
  let s1 := if (s.screen sc).onScreen = some m then s.watchPicture sc else s
  let s2 := if s1.waitedOn sc = some m then s1.openingTake sc else s1
  if s2.successor sc = some m then s2.testReady sc else s2

/-- The controller takes a lamp state: a started machine's DARK lamp is asked to strike (R109), an opening proceeds
(R107), and readiness and the picture are watched. -/
def State.lampPosted (m : MachineId) (s : State) : State :=
  let sc := screenOf m
  let s1 :=
    if s.waitedOn sc = some m ∧ (s.screen sc).startGiven = true ∧ (s.lamp m).state = .dark then s.strikeRequest m
    else s
  let s2 := if s1.waitedOn sc = some m then s1.openingStep sc else s1
  s2.machinePosted m

/-- A lamp's record has changed from state `before`: a change of state is posted to the controller, and then the plan store
evaluates ARMED (R61, R99). A start order that the lamp's state brings is thus taken before a lapse of carbon_ok in the same
event (R5, R100, R107; DESIGN CHOICE, log entry 36). -/
def State.lampSettled (m : MachineId) (before : LampState) (s : State) : State :=
  (if (s.lamp m).state = before then s else s.lampPosted m).evaluate m

/-! ### The changeover in action -/

/-- A start falls due outside OPENING (R109). Where the successor is not ARMED, start pending is set, and *MISSED is
reported where the rule that made the start due says so (R110, R111). -/
def State.startDue (sc : ScreenId) (cause : MotorCause) (missed : Bool) (s : State) : State :=
  if (s.screen sc).startGiven = false ∧ (s.screen sc).startPending = false then
    let armed := match s.successor sc with
      | none => none
      | some m => if (s.machine m).state = .armed then some m else none
    match armed with
    | some m => s.startSuccessor m cause
    | none =>
      (s.modScreen sc fun x => { x with startPending := true }).reportIf missed (.missed sc (s.onDeck sc) .armed)
  else s

/-- The changeover point is reached (R111): in SHOWING or RUNUP with a successor with CO, where it stands absent. SWAP_DUE
is entered before the start that falls due is given, so a machine that breaks at that start (R11) returns the screen to
SHOWING with the point kept (R123; DESIGN CHOICE, log entry 39). -/
def State.reachPoint (sc : ScreenId) (cause : PointCause) (frame : Nat) (s : State) : State :=
  let x := s.screen sc
  if (x.state = .showing ∨ x.state = .runup) ∧ s.successorWithCo sc = true ∧ x.point = none then
    let s1 := s.modScreen sc fun y => { y with point := some cause, state := .swapDue }
    let s2 := s1.reportIf (cause == .fallback) (.lateFallback sc x.current frame)
    (s2.startDue sc .change true).testReady sc
  else s

/-- The start point, in frames (R36). -/
def State.startPoint (s : State) (sc : ScreenId) (on : MachineId) : Option Nat :=
  (s.onDeckEntry sc).map fun e =>
    ceilDiv (leadTime (s.machine (partnerOf on)).accelAllowance e.runUp (s.screen sc).margin)
      (s.machine on).timingPeriod

/-- The strike frames (R37). -/
def State.strikeFramesNow (s : State) (on : MachineId) : Nat :=
  ceilDiv ((s.lamp (partnerOf on)).strikeLead * 1000000) (s.machine on).timingPeriod

/-- G, N_start and S_f are formed at a frame notice of the ON_SCREEN machine at frame `f` (R34, R36, R37). -/
def State.formTiming (sc : ScreenId) (on : MachineId) (f : Nat) (s : State) : State :=
  match s.currentEntry sc with
  | some ⟨_, _, some co, _, _, _, _, _, _, _⟩ =>
    s.modScreen sc fun x =>
      { x with
        framesToGo := some (co - f)
        nStart := s.startPoint sc on
        strikeFrames := (s.startPoint sc on).map fun _ => s.strikeFramesNow on }
  | _ => s.modScreen sc ScreenRec.discardTiming

/-- The strike condition, acted on (R37, R110). -/
def State.strikePoint (sc : ScreenId) (on : MachineId) (s : State) : State :=
  match (s.screen sc).framesToGo, (s.screen sc).nStart, (s.screen sc).strikeFrames with
  | some g, some n, some f =>
    if g ≤ n + f ∧ (s.machine (partnerOf on)).state = .armed ∧ (s.lamp (partnerOf on)).state = .dark then
      s.strikeRequest (partnerOf on)
    else s
  | _, _, _ => s

/-- The start condition, acted on (R36, R110). -/
def State.startPointReached (sc : ScreenId) (s : State) : State :=
  match (s.screen sc).framesToGo, (s.screen sc).nStart with
  | some g, some n => if g ≤ n then s.startDue sc .point true else s
  | _, _ => s

/-- The FOOTAGE and FALLBACK points, at a frame notice of the ON_SCREEN machine (R111). -/
def State.footagePoint (sc : ScreenId) (f : Nat) (s : State) : State :=
  match s.currentEntry sc with
  | some ⟨_, _, some co, _, _, .foot, _, _, _, _⟩ => if co ≤ f then s.reachPoint sc .footage f else s
  | some ⟨_, _, some co, w, _, .film, _, _, _, _⟩ => if co + w ≤ f then s.reachPoint sc .fallback f else s
  | _ => s

/-- BOTH stands for no more than the overlap's incoming frames (R115). -/
def State.overlapStep (sc : ScreenId) (on : MachineId) (s : State) : State :=
  s.modScreen sc fun x =>
    if x.mixer = .both then
      { x with
        overlapLeft := x.overlapLeft - 1
        mixer := if x.overlapLeft ≤ 1 then .machine on else .both }
    else x

/-- The controller takes a frame notice of machine `m` (R34, R110, R111, R113, R115): the overlap step, the figures of the
start timing, the strike, the start, the FOOTAGE or FALLBACK point, and then the tests that every posting of the machine
brings, in this order (DESIGN CHOICE, log entry 35). The pulse's own postings of R32 are taken with those tests (DESIGN
CHOICE, log entry 42). -/
def State.frameNotice (m : MachineId) (s : State) : State :=
  let sc := screenOf m
  let f := (s.machine m).frameCount
  let s1 :=
    if (s.screen sc).onScreen = some m ∧ (s.machine m).state = .onScreen then
      let t := s.overlapStep sc m
      match (t.screen sc).state with
      | .showing | .runup | .swapDue =>
        (((t.formTiming sc m f).strikePoint sc m).startPointReached sc).footagePoint sc f
      | .idle | .opening | .dark | .interval | .halted => t
    else s
  s1.machinePosted m

/-! ### The end of a reel -/

/-- A machine that left RUNOUT ends the outgoing reel (R117). -/
def State.outgoingReelEnds (m : MachineId) (s : State) : State :=
  match (s.machine m).boundSlot with
  | none => s
  | some n =>
    let s1 := s.slotNotice (screenOf m) n .shown
    match (s.slot (screenOf m) n).entry with
    | none => s1
    | some e => s1.reportIf e.note (.reelEnd (screenOf m) n e.reel)

/-- The screen goes IDLE: current slot, changeover point, start given and start pending are cleared and the sound muted
(R108, R115, R118). -/
def ScreenRec.goIdle (x : ScreenRec) : ScreenRec :=
  { x.discardTiming with
    state := .idle
    current := none
    onScreen := none
    point := none
    startGiven := false
    startPending := false
    mixer := .mute
    overlapLeft := 0
    interval := none
    darkHold := .stopped }

/-- A programme ends, as at a LAST reel: CUE and FAULT claims are released, *PLANEND is reported (R118, R125). -/
def State.endProgramme (sc : ScreenId) (s : State) : State :=
  let n := (s.screen sc).current
  let s1 := ((s.releaseThree sc .cue).releaseFault sc).modScreen sc ScreenRec.goIdle
  (s1.evaluateScreen sc).report (.planEnd sc n)

/-- The screen enters INTERVAL for `minutes` minutes, 0 waiting for RESUME (R125). -/
def State.enterInterval (sc : ScreenId) (minutes : Nat) (s : State) : State :=
  let n := (s.screen sc).current
  let s1 := s.modScreen sc fun x => { x with mixer := .mute, overlapLeft := 0 }
  let s2 := (s1.releaseFault sc).placeScene sc .cue 3 Config.intervalFade
  let s3 := s2.modScreen sc fun x =>
    { x with
      interval := some (if minutes = 0 then .wait else .seconds (minutes * 60))
      intervalSub := 0
      state := .interval }
  (s3.evaluateScreen sc).report (.interval sc n minutes)

/-- The reel of the ON_SCREEN machine `m` ends (R118). -/
def State.onScreenReelEnds (sc : ScreenId) (m : MachineId) (s : State) : State :=
  match (s.screen sc).current with
  | none => s
  | some n =>
    let s1 := s.slotNotice sc n .shown
    let e := (s.slot sc n).entry
    let s2 := match e with
      | none => s1
      | some e => s1.reportIf e.note (.reelEnd sc n e.reel)
    let s3 := s2.modScreen sc fun x => { x.discardTiming with onScreen := none, darkHold := .stopped }
    match e with
    | none => s3.enterDark sc .runout m (s.machine m).frameCount
    | some e =>
      if e.last then s3.endProgramme sc
      else
        match e.int with
        | some k => s3.enterInterval sc k
        | none => s3.enterDark sc .runout m (s.machine m).frameCount

/-- The machine of an opening runs its reel without the screen: the opening ends (R108). -/
def State.openingReelEnds (sc : ScreenId) (s : State) : State :=
  match (s.screen sc).current with
  | none => s
  | some n =>
    let s1 := (s.slotNotice sc n .cut).report (.missed sc (some n) .cut)
    ((s1.releaseFault sc).modScreen sc ScreenRec.goIdle).evaluateScreen sc

/-- The successor runs its reel behind a closed douser (R122). -/
def State.successorReelEnds (sc : ScreenId) (s : State) : State :=
  match s.onDeck sc with
  | none => s
  | some n =>
    let s1 := s.slotNotice sc n .cut
    let s2 := s1.modScreen sc fun x =>
      { x with
        startGiven := false
        point := none
        state := if x.state = .runup ∨ x.state = .swapDue then .showing else x.state }
    (s2.report (.missed sc (some n) .cut)).evaluateScreen sc

/-- The controller takes a reel-end notice naming the state the machine left (R108, R117, R118, R122). -/
def State.reelEndNotice (m : MachineId) (left : MachineState) (s : State) : State :=
  let sc := screenOf m
  if left = .runout then (s.outgoingReelEnds m).evaluateScreen sc
  else if (s.screen sc).onScreen = some m then s.onScreenReelEnds sc m
  else if s.waitedOn sc = some m then
    if (s.screen sc).state = .opening then s.openingReelEnds sc else s.successorReelEnds sc
  else s

/-- A machine reaches its reel end (R10): it stops, the controller takes the notice, and entry to STOPPED puts the lamp
out (R1, R72; the order is log entry 11). -/
def State.reelEnd (m : MachineId) (s : State) : State :=
  let left := (s.machine m).state
  let s1 := (s.modMachine m MachineRec.enterStopped).reelEndNotice m left
  (s1.lampOff m).lampSettled m (s1.lamp m).state

/-- The controller takes entry to BROKEN, with the state left (R108, R117, R119, R120, R123). -/
def State.breakNotice (m : MachineId) (left : MachineState) (s : State) : State :=
  let sc := screenOf m
  if left = .runout then (s.outgoingReelEnds m).evaluateScreen sc
  else if (s.screen sc).onScreen = some m then
    let s1 := match (s.screen sc).current with
      | none => s
      | some n => s.slotNotice sc n .cut
    s1.enterDark sc .brk m (s.machine m).frameCount
  else if s.waitedOn sc = some m ∧ (s.screen sc).state.awaits = true then (s.successorLost sc).evaluateScreen sc
  else s

/-- A running machine breaks (R13). -/
def State.breakRun (m : MachineId) (cause : BreakCause) (s : State) : State :=
  (s.breakMachine m cause).breakNotice m (s.machine m).state

/-! ### Cues -/

/-- A code is rejected: the rejected cue count is raised and *REJECT reported (R52). -/
def State.rejectCue (m : MachineId) (code : Option Nat) (frame : Nat) (reason : RejectReason) (s : State) : State :=
  (s.modMachine m MachineRec.countRejected).report (.reject (screenOf m) m code frame reason)

/-- An effect cue joins the deferred queue, or is rejected FULL (R57). -/
def State.deferCue (m : MachineId) (c : EffectCode) (frame : Nat) (s : State) : State :=
  if (s.decoder m).deferred.length < Config.deferredSize then
    (s.modDecoder m fun d => { d with deferred := d.deferred ++ [⟨c, frame⟩] }).report
      (.cue (screenOf m) m (.code c.number) frame .defer)
  else s.rejectCue m (some c.number) frame .full

/-- An effect code is disposed of by the source machine's state (Table 3-4). -/
def State.effectCue (m : MachineId) (c : EffectCode) (frame : Nat) (s : State) : State :=
  match (s.machine m).state with
  | .onScreen => s.execEffect (screenOf m) m c frame
  | .runup => s.deferCue m c frame
  | .empty | .threaded | .armed | .starting | .runout | .stopped | .broken | .tripped =>
    s.rejectCue m (some c.number) frame .source

/-- Whether a MOTOR cue at `frame` is in its window (R51). -/
def State.motorInWindow (s : State) (sc : ScreenId) (m : MachineId) (co frame : Nat) : Bool :=
  match s.startPoint sc m with
  | none => false
  | some n => decide (0 < co - frame) && decide (co - frame ≤ n + Config.motorWindow)

/-- Whether a CHANGEOVER cue at `frame` is in its window (R51). -/
def changeoverInWindow (co w frame : Nat) : Bool := decide (co - w ≤ frame) && decide (frame ≤ co + w)

/-- MOTOR and CHANGEOVER codes of the ON_SCREEN machine: NOSUCC, FOOT, then the window test (Table 3-4, R51, R53). -/
def State.changeoverCue (m : MachineId) (isMotor : Bool) (frame : Nat) (s : State) : State :=
  let sc := screenOf m
  let code := if isMotor then 1 else 2
  match s.successorWithCo sc, s.currentEntry sc with
  | true, some ⟨_, _, some co, w, _, mode, _, _, _, _⟩ =>
    if mode = .foot then s.rejectCue m (some code) frame .foot
    else if isMotor then
      if s.motorInWindow sc m co frame then
        let s1 := s.report (.cue sc m (.code code) frame .accept)
        match (s.screen sc).state with
        | .showing | .runup | .swapDue => s1.startDue sc .cue true
        | .idle | .opening | .dark | .interval | .halted => s1
      else s.rejectCue m (some code) frame .window
    else if changeoverInWindow co w frame then
      (s.report (.cue sc m (.code code) frame .accept)).reachPoint sc .cue frame
    else s.rejectCue m (some code) frame .window
  | _, _ => s.rejectCue m (some code) frame .noSucc

/-- The controller disposes of a code of 1 to 6 (R50); 7 patches are an invalid group (R46). -/
def State.disposeCode (m : MachineId) (patches frame : Nat) (s : State) : State :=
  match patches with
  | 1 => if (s.machine m).state = .onScreen then s.changeoverCue m true frame else s.rejectCue m (some 1) frame .source
  | 2 => if (s.machine m).state = .onScreen then s.changeoverCue m false frame else s.rejectCue m (some 2) frame .source
  | 3 => s.effectCue m .c3 frame
  | 4 => s.effectCue m .c4 frame
  | 5 => s.effectCue m .c5 frame
  | 6 => s.effectCue m .c6 frame
  | _ => s.rejectCue m none frame .invalid

/-- What a sample made of a group is reported or disposed of; in a lace-up run it is reported TEST (R45, R46, R48). -/
def State.groupNews (m : MachineId) (news : GroupNews) (s : State) : State :=
  let r := s.machine m
  let sc := screenOf m
  match news with
  | .quiet => s
  | .splice =>
    if r.laceUp then s.report (.cue sc m .splice r.framesSinceOn .test) else s.rejectCue m none r.frameCount .splice
  | .closed n =>
    if r.laceUp then
      s.report (.cue sc m (if n < Config.maxPatches then .code n else .invalid) r.framesSinceOn .test)
    else s.disposeCode m n r.frameCount

/-- The cue decoder takes a frame notice: with the motor ON it samples the foil sense (R43). -/
def State.decoderNotice (m : MachineId) (foil : Bool) (s : State) : State :=
  if (s.machine m).motor then
    let out := (s.decoder m).sample foil
    (s.modDecoder m fun _ => out.1).groupNews m out.2
  else s

/-! ### Opening -/

/-- Entry to OPENING for slot `n` (R106). -/
def ScreenRec.enterOpening (n : SlotIx) (x : ScreenRec) : ScreenRec :=
  { x.discardTiming with
    state := .opening
    current := some n
    startGiven := false
    startPending := false
    point := none
    interval := none }

/-- Whether the machine of slot `n` is found ARMED as its screen takes the slot: it is ARMED in `t`, or the posting of
OPENING armed it from `s` and has started it within the event. -/
def State.armedFor (s t : State) (sc : ScreenId) (n : SlotIx) : Bool :=
  match (t.slot sc n).machine? with
  | none => false
  | some m =>
    (t.machine m).state == .armed || (t.screen sc).startGiven
      || ((s.machine m).state.judged && (t.machine m).state == .broken)

/-- The screen opens slot `n` (R106): OPENING is posted, ARMED evaluated, and the opening proceeds where the slot's
machine is ARMED; else start pending is set. The second value says whether it was. -/
def State.openSlot (sc : ScreenId) (n : SlotIx) (s : State) : State × Bool :=
  let s1 := (s.modScreen sc (ScreenRec.enterOpening n)).evaluateScreen sc
  if s.armedFor s1 sc n then (s1.openingStep sc, false)
  else (s1.modScreen sc fun x => { x with startPending := true }, true)

end Sys2Proof.Machine
end

