-- ==== Sys2Proof/Machine/Operands.lean ====
section
/-! DEFINITION. Operand words read, and fields of replies and reports written, as the console line spells them
(0.6 Console text, R169, R172, Table 9-4). -/

namespace Sys2Proof.Machine

open Sys2Proof

/-! ### Reading operand words -/

/-- An unsigned decimal number (0.6). -/
def number? (w : Text) : Option Nat :=
  if !w.isEmpty && w.all Char.isDigit then some (w.foldl (fun n c => 10 * n + (c.toNat - 48)) 0) else none

/-- The text before the first `c`, and the text after it where there is one. -/
def cutAt (c : Char) : Text → Text × Option Text
  | [] => ([], none)
  | x :: xs => if x = c then ([], some xs) else (x :: (cutAt c xs).1, (cutAt c xs).2)

/-- The words of a line: runs of characters other than space (R169). `acc` holds the present word backwards. -/
def wordsFrom (acc : Text) : Text → List Text
  | [] => if acc.isEmpty then [] else [acc.reverse]
  | x :: xs =>
    if x = ' ' then (if acc.isEmpty then wordsFrom [] xs else acc.reverse :: wordsFrom [] xs)
    else wordsFrom (x :: acc) xs

/-- The words of a line (R169). -/
def wordsOf (t : Text) : List Text := wordsFrom [] t

/-- A reel id: 1 to 8 upper-case letters and digits (0.7, R91, R95). -/
def isReelId (w : Text) : Bool := !w.isEmpty && w.length ≤ 8 && w.all fun c => c.isUpper || c.isDigit

/-- An operand keyword=value (R82, R91, R129, R165). -/
def keyValue? (w : Text) : Option (Text × Text) :=
  match cutAt '=' w with
  | (k, some v) => some (k, v)
  | (_, none) => none

/-- A machine number (0.6). -/
def machineOf? : Nat → Option MachineId
  | 1 => some .m1
  | 2 => some .m2
  | 3 => some .m3
  | 4 => some .m4
  | _ => none

/-- A screen number (0.6). -/
def screenOf? : Nat → Option ScreenId
  | 1 => some .s1
  | 2 => some .s2
  | _ => none

/-- A slot number, 0 to 23 (R90). -/
def slotOf? (n : Nat) : Option SlotIx := if h : n < Config.slotCount then some ⟨n, h⟩ else none

/-- A scene number, 0 to 7 (7.2). -/
def sceneOf? (n : Nat) : Option (Fin 8) := if h : n < 8 then some ⟨n, h⟩ else none

/-- An effect code, 3 to 6 (R55). -/
def effectOf? : Nat → Option EffectCode
  | 3 => some .c3
  | 4 => some .c4
  | 5 => some .c5
  | 6 => some .c6
  | _ => none

/-- A machine operand: outside 1 to 4, or M3 or M4 with screen 2 not fitted, is out of range (R22, R176). -/
def machineOperand (s : State) (n : Nat) : Except Reason MachineId :=
  match machineOf? n with
  | none => .error .range
  | some m => if screenOf m = .s2 ∧ s.straps.screen2Fitted = false then .error .range else .ok m

/-- A screen operand: other than 1 or 2, or 2 with screen 2 not fitted, is out of range (R90, R106, R176). -/
def screenOperand (s : State) (n : Nat) : Except Reason ScreenId :=
  match screenOf? n with
  | none => .error .range
  | some sc => if sc = .s2 ∧ s.straps.screen2Fitted = false then .error .range else .ok sc

/-- A slot operand above 23 is out of range (R90). -/
def slotOperand (n : Nat) : Except Reason SlotIx :=
  match slotOf? n with
  | none => .error .range
  | some k => .ok k

/-- A scene operand above 7 is out of range (R132, R145). -/
def sceneOperand (n : Nat) : Except Reason (Fin 8) :=
  match sceneOf? n with
  | none => .error .range
  | some k => .ok k

/-- An operand of the wrong kind is malformed. -/
def formOf {α : Type} (x : Option α) : Except Reason α :=
  match x with
  | none => .error .form
  | some a => .ok a

/-- A test that gives its reason where it fails. -/
def need (b : Bool) (r : Reason) : Except Reason Unit := if b then .ok () else .error r

/-- An operand given for the first time takes its value; one given twice is malformed (R82, R91, R129, R165). -/
def once {α : Type} (old : Option α) (v : α) : Except Reason (Option α) :=
  match old with
  | none => .ok (some v)
  | some _ => .error .form

/-- A value, where one is given, lies in its range. -/
def within (lo hi : Nat) (v : Option Nat) : Bool :=
  match v with
  | none => true
  | some n => decide (lo ≤ n) && decide (n ≤ hi)

/-- The single operand m of a machine's command (R22, R64, R72, R80, R159). -/
def onlyMachine (s : State) : List Text → Except Reason MachineId
  | [w] => do machineOperand s (← formOf (number? w))
  | _ => .error .form

/-- The single operand s of a screen's command. -/
def onlyScreen (s : State) : List Text → Except Reason ScreenId
  | [w] => do screenOperand s (← formOf (number? w))
  | _ => .error .form

/-- No operand may be given (R164, R165, R173, R178). -/
def noOperand : List Text → Except Reason Unit
  | [] => .ok ()
  | _ => .error .form

/-- Two digits, as in hh:mm (R101, R102; log entry 12). -/
def twoDigits? (w : Text) : Option Nat := if w.length = 2 then number? w else none

/-- hh:mm (R102). -/
def hoursMinutes? (w : Text) : Option (Nat × Nat) :=
  match cutAt ':' w with
  | (h, some m) => do some ((← twoDigits? h), (← twoDigits? m))
  | (_, none) => none

/-- hh:mm:ss (R101). -/
def hoursMinutesSeconds? (w : Text) : Option (Nat × Nat × Nat) :=
  match cutAt ':' w with
  | (h, some r) =>
    match cutAt ':' r with
    | (m, some x) => do some ((← twoDigits? h), (← twoDigits? m), (← twoDigits? x))
    | (_, none) => none
  | (_, none) => none

/-- A circuit operand; `some none` is ALL (R144). -/
def circuitOperand? (w : Text) : Option (Option CircuitId) :=
  if w = txt "HOUSE" then some (some .house)
  else if w = txt "AISLE" then some (some .aisle)
  else if w = txt "STAGE" then some (some .stage)
  else if w = txt "ALL" then some none
  else none

/-! ### Writing fields (R172) -/

/-- A number: unsigned decimal, no leading zeros. -/
def fNum (n : Nat) : Text := Nat.toDigits 10 n

/-- An absent field: a hyphen. -/
def fAbsent : Text := txt "-"

/-- A field that may be absent. -/
def fOpt {α : Type} (f : α → Text) (x : Option α) : Text :=
  match x with
  | none => fAbsent
  | some a => f a

/-- YES or NO. -/
def fYesNo (b : Bool) : Text := if b then txt "YES" else txt "NO"

/-- M1 to M4. -/
def fMachine : MachineId → Text
  | .m1 => txt "M1"
  | .m2 => txt "M2"
  | .m3 => txt "M3"
  | .m4 => txt "M4"

/-- 1 or 2. -/
def fScreen : ScreenId → Text
  | .s1 => txt "1"
  | .s2 => txt "2"

/-- The name of a circuit. -/
def fCircuit : CircuitId → Text
  | .house => txt "HOUSE"
  | .aisle => txt "AISLE"
  | .stage => txt "STAGE"

/-- A slot number. -/
def fSlot (n : SlotIx) : Text := fNum n.val

/-- Two digits of a time of day. -/
def fTwo (n : Nat) : Text := if n < 10 then '0' :: fNum n else fNum n

/-- hh:mm:ss. -/
def fTime (t : Nat) : Text := fTwo (t / 3600) ++ [':'] ++ fTwo (t / 60 % 60) ++ [':'] ++ fTwo (t % 60)

/-- A time of day, or UNSET. -/
def fClock (t : Option Nat) : Text :=
  match t with
  | none => txt "UNSET"
  | some t => fTime t

/-- hh:mm of a SHOWAT time. -/
def fHourMinute (t : Nat) : Text := fTwo (t / 3600) ++ [':'] ++ fTwo (t / 60 % 60)

/-- Words joined by a character. -/
def joinBy (c : Char) : List Text → Text
  | [] => []
  | [w] => w
  | w :: ws => w ++ c :: joinBy c ws

/-- A hold set: members in their order of definition, joined by commas, or NONE. -/
def fHolds (h : HoldSet) : Text :=
  let ws := (if h.speed then [txt "SPEED"] else []) ++ (if h.lamp then [txt "LAMP"] else []) ++
    (if h.brk then [txt "BREAK"] else []) ++ (if h.fire then [txt "FIRE"] else []) ++
    (if h.console then [txt "CONSOLE"] else [])
  if ws.isEmpty then txt "NONE" else joinBy ',' ws

/-- The name of a machine state. -/
def fMachineState : MachineState → Text
  | .empty => txt "EMPTY"
  | .threaded => txt "THREADED"
  | .armed => txt "ARMED"
  | .starting => txt "STARTING"
  | .runup => txt "RUNUP"
  | .onScreen => txt "ON_SCREEN"
  | .runout => txt "RUNOUT"
  | .stopped => txt "STOPPED"
  | .broken => txt "BROKEN"
  | .tripped => txt "TRIPPED"

/-- The name of a break cause. -/
def fBreakCause : BreakCause → Text
  | .loop => txt "LOOP"
  | .stall => txt "STALL"
  | .contactor => txt "CONTACTOR"

/-- The name of a speed status. -/
def fSpeed : SpeedStatus → Text
  | .stopped => txt "STOPPED"
  | .accel => txt "ACCEL"
  | .atSpeed => txt "AT_SPEED"
  | .offSpeed => txt "OFF_SPEED"

/-- OPEN or CLOSED. -/
def fDouser : Douser → Text
  | .opened => txt "OPEN"
  | .closed => txt "CLOSED"

/-- ON or OFF. -/
def fOnOff (b : Bool) : Text := if b then txt "ON" else txt "OFF"

/-- CLOSED or OPEN, for a contactor or a loop. -/
def fClosed (b : Bool) : Text := if b then txt "CLOSED" else txt "OPEN"

/-- The name of a lamp state. -/
def fLampState : LampState → Text
  | .dark => txt "DARK"
  | .striking => txt "STRIKING"
  | .burning => txt "BURNING"
  | .fault => txt "FAULT"
  | .exhausted => txt "EXHAUSTED"

/-- The name of a fault cause. -/
def fLampFault : LampFault → Text
  | .strike => txt "STRIKE"
  | .arcOut => txt "ARCOUT"

/-- The name of a strike phase. -/
def fPhase : StrikePhase → Text
  | .feed => txt "FEED"
  | .retract => txt "RETRACT"
  | .prove => txt "PROVE"
  | .pause => txt "PAUSE"

/-- The name of a slot status. -/
def fSlotStatus : SlotStatus → Text
  | .empty => txt "EMPTY"
  | .loaded => txt "LOADED"
  | .bound => txt "BOUND"
  | .shown => txt "SHOWN"
  | .cut => txt "CUT"

/-- The name of a cue mode. -/
def fCueMode : CueMode → Text
  | .film => txt "FILM"
  | .foot => txt "FOOT"

/-- The name of a screen state. -/
def fScreenState : ScreenState → Text
  | .idle => txt "IDLE"
  | .opening => txt "OPENING"
  | .showing => txt "SHOWING"
  | .runup => txt "RUNUP"
  | .swapDue => txt "SWAP_DUE"
  | .dark => txt "DARK"
  | .interval => txt "INTERVAL"
  | .halted => txt "HALTED"

/-- The name of a changeover point's cause. -/
def fPointCause : PointCause → Text
  | .cue => txt "CUE"
  | .footage => txt "FOOTAGE"
  | .fallback => txt "FALLBACK"
  | .console => txt "CONSOLE"

/-- The mixer mode. -/
def fMixer : MixerMode → Text
  | .mute => txt "MUTE"
  | .machine m => fMachine m
  | .both => txt "BOTH"

/-- Interval remaining. -/
def fInterval : IntervalLeft → Text
  | .wait => txt "WAIT"
  | .seconds n => fNum n

/-- The FAULT claim of a screen. -/
def fFaultClaim : FaultClaim → Text
  | .none => txt "NONE"
  | .picture => txt "PICTURE"
  | .dark => txt "DARK"

/-- The name of a rank. -/
def fRank : Rank → Text
  | .safety => txt "SAFETY"
  | .fault => txt "FAULT"
  | .cue => txt "CUE"
  | .console => txt "CONSOLE"

/-- The cause of the booth latch. -/
def fBoothCause : BoothCause → Text
  | .power => txt "POWER"
  | .loop => txt "LOOP"

/-- The cause of a machine latch. -/
def fLatchCause : LatchCause → Text
  | .gateHeat => txt "GATE_HEAT"
  | .booth => txt "BOOTH"

/-- The name of a shutter state. -/
def fShutterState : ShutterState → Text
  | .opened => txt "OPEN"
  | .dropping => txt "DROPPING"
  | .closed => txt "CLOSED"
  | .stuck => txt "STUCK"

/-- The cause of an incident. -/
def fIncidentCause : IncidentCause → Text
  | .loop => txt "LOOP"
  | .gateHeat => txt "GATE_HEAT"
  | .shutterStuck => txt "SHUTTER_STUCK"

/-- The scope of an incident. -/
def fScope : IncidentScope → Text
  | .booth => txt "BOOTH"
  | .machine m => fMachine m

/-- A shutter outcome. -/
def fOutcome : ShutterOutcome → Text
  | .pending => txt "PENDING"
  | .closed => txt "CLOSED"
  | .stuck => txt "STUCK"

/-- The reason of a NO reply (Table 9-2). -/
def fReason : Reason → Text
  | .verb => txt "VERB"
  | .form => txt "FORM"
  | .range => txt "RANGE"
  | .state => txt "STATE"
  | .frozen => txt "FROZEN"
  | .trip => txt "TRIP"
  | .notFound => txt "NOTFOUND"
  | .long => txt "LONG"
  | .char => txt "CHAR"

/-- The reason of a *REJECT (Table 3-5). -/
def fRejectReason : RejectReason → Text
  | .splice => txt "SPLICE"
  | .invalid => txt "INVALID"
  | .full => txt "FULL"
  | .source => txt "SOURCE"
  | .noSucc => txt "NOSUCC"
  | .foot => txt "FOOT"
  | .window => txt "WINDOW"

/-- The code of a *CUE. -/
def fCueName : CueName → Text
  | .code n => fNum n
  | .splice => txt "SPLICE"
  | .invalid => txt "INVALID"

/-- The disposition of a *CUE. -/
def fDisposition : CueDisposition → Text
  | .accept => txt "ACCEPT"
  | .defer => txt "DEFER"
  | .note => txt "NOTE"
  | .test => txt "TEST"

/-- The cause of a *DARK. -/
def fDarkCause : DarkCause → Text
  | .runout => txt "RUNOUT"
  | .brk => txt "BREAK"
  | .picture => txt "PICTURE"

/-- The cause of a *MISSED. -/
def fMissedCause : MissedCause → Text
  | .armed => txt "ARMED"
  | .cut => txt "CUT"

/-- The word of a *SHOWLATE. -/
def fShowLate : ShowLateCause → Text
  | .busy => txt "BUSY"
  | .empty => txt "EMPTY"
  | .armed => txt "ARMED"
  | .trip => txt "TRIP"

/-- The cause of a *MOTOR. -/
def fMotorCause : MotorCause → Text
  | .opening => txt "OPEN"
  | .pending => txt "PENDING"
  | .point => txt "POINT"
  | .cue => txt "CUE"
  | .change => txt "CHANGE"
  | .console => txt "CONSOLE"

/-- The fields of a report, its name first (Table 9-4). -/
def Report.fields : Report → List Text
  | .trip c sc n => [txt "*TRIP", fIncidentCause c, fScope sc, fNum n]
  | .shutterStuck m n r => [txt "*SHUTTER", fMachine m, txt "STUCK", fNum n, fOpt fNum r]
  | .shutterSag m => [txt "*SHUTTER", fMachine m, txt "SAG"]
  | .dark sc c m f =>
    [txt "*DARK", fScreen sc, fDarkCause c, fMachine m, fOpt fNum f]
  | .missed sc n c => [txt "*MISSED", fScreen sc, fOpt fSlot n, fMissedCause c]
  | .broke m c f => [txt "*BREAK", fMachine m, fBreakCause c, fNum f]
  | .arcOut m c => [txt "*ARCOUT", fMachine m, fLampFault c]
  | .exhaust m => [txt "*EXHAUST", fMachine m]
  | .carbon m f r => [txt "*CARBON", fMachine m, fNum f, fNum r]
  | .showLate sc c => [txt "*SHOWLATE", fScreen sc, fShowLate c]
  | .lateFallback sc n f => [txt "*LATE", fScreen sc, fOpt fSlot n, txt "FALLBACK", fNum f]
  | .lateArmed sc n => [txt "*LATE", fScreen sc, fOpt fSlot n, txt "ARMED"]
  | .cue sc m n f d => [txt "*CUE", fScreen sc, fMachine m, fCueName n, fNum f, fDisposition d]
  | .reject sc m c f r => [txt "*REJECT", fScreen sc, fMachine m, fOpt fNum c, fNum f, fRejectReason r]
  | .motor sc m n c => [txt "*MOTOR", fScreen sc, fMachine m, fOpt fSlot n, fMotorCause c]
  | .swap sc o i n l c =>
    [txt "*SWAP", fScreen sc, fMachine o, fMachine i, fOpt fSlot n, fNum l, fOpt fPointCause c]
  | .recover sc m n l c => [txt "*RECOVER", fScreen sc, fMachine m, fOpt fSlot n, fNum l, fOpt fPointCause c]
  | .reelEnd sc n id => [txt "*REELEND", fScreen sc, fSlot n, id]
  | .planEnd sc n => [txt "*PLANEND", fScreen sc, fOpt fSlot n]
  | .strike m a f => [txt "*STRIKE", fMachine m, (match a with | none => txt "RESTRIKE" | some n => fNum n), fNum f]
  | .speed m b c => [txt "*SPEED", fMachine m, (if b then txt "AT" else txt "OFF"), fOpt fNum c]
  | .interval sc n k => [txt "*INTERVAL", fScreen sc, fOpt fSlot n, fNum k]
  | .resetMachine m => [txt "*RESET", fMachine m]
  | .resetBooth => [txt "*RESET", txt "BOOTH"]
  | .ready => [txt "*READY"]

/-- The fields of a reply (R169, R172). -/
def Reply.fields : Reply → List Text
  | .ok fs => txt "OK" :: fs
  | .no r => [txt "NO", fReason r]

/-- A line the 3100 sends, less its carriage return and line feed: fields separated by single spaces (R172). -/
def SentLine.text : SentLine → Text
  | .reply r => joinBy ' ' r.fields
  | .report r => joinBy ' ' r.fields

/-- A carriage return and a line feed end each line sent (R170). -/
def Transmission.characters (t : Transmission) : Text := t.content.text ++ ['\r', '\n']

end Sys2Proof.Machine
end

