-- ==== Sys2Proof/Machine/Changeover.lean ====
section
/-! DEFINITION. The commands of the changeover controller: START, SWAPNOW, SOUND, RESUME, ABORT, SCREENSET, SSTAT and
the expiry of an interval and of the dark hold timer (Chapter 6). -/

namespace Sys2Proof.Machine

open Sys2Proof Host

/-! ### START -/

/-- The slot a START without n opens (R106). -/
def slotOr (n : Option SlotIx) : Except Reason SlotIx :=
  match n with
  | none => .error .state
  | some k => .ok k

/-- START's operands: the screen, and the slot where one is named (R106). -/
def startOperands (s : State) : List Text → Except Reason (ScreenId × Option SlotIx)
  | [a] => do
    let n ← formOf (number? a)
    return (← screenOperand s n, none)
  | [a, b] => do
    let n ← formOf (number? a)
    let k ← formOf (number? b)
    return (← screenOperand s n, some (← slotOperand k))
  | _ => .error .form

/-- The state in which START is taken: IDLE, or HALTED with a slot named (R106). -/
def startStateTest (st : ScreenState) (named : Bool) : Except Reason Unit :=
  match st, named with
  | .idle, _ => .ok ()
  | .halted, true => .ok ()
  | .halted, false => .error .form
  | .opening, _ | .showing, _ | .runup, _ | .swapDue, _ | .dark, _ | .interval, _ => .error .state

/-- START's tests, in order (R106). -/
def parseStart (s : State) (ops : List Text) : Except Reason (ScreenId × SlotIx) := do
  let (sc, named) ← startOperands s ops
  startStateTest (s.screen sc).state named.isSome
  need (!s.startBlocked sc) .trip
  match named with
  | some n =>
    need (s.slot sc n).status.showable .state
    return (sc, n)
  | none => return (sc, ← slotOr (s.lowestShowable sc))

/-- START (R106). -/
def execStart (ops : List Text) (s : State) : Outcome State Fault Refusal :=
  .next (s.takeCommand (.start ops) fun s =>
    match parseStart s ops with
    | .error r => s.answer (.no r)
    | .ok (sc, n) =>
      (s.openSlot sc n).1.answer (.ok (if (s.openSlot sc n).2 then [txt "PENDING"] else [])))

/-! ### SWAPNOW and SOUND -/

/-- SWAPNOW's operand and tests (R112). -/
def parseSwapnow (s : State) (ops : List Text) : Except Reason ScreenId := do
  let sc ← onlyScreen s ops
  match (s.screen sc).state with
  | .showing | .runup =>
    need (s.successorWithCo sc) .state
    return sc
  | .dark =>
    need ((s.successor sc).isSome && !(s.screen sc).startGiven && !(s.screen sc).startPending) .state
    return sc
  | .idle | .opening | .swapDue | .interval | .halted => .error .state

/-- An accepted SWAPNOW: the point is reached, or the start of a DARK screen falls due with the point recorded
(R112). -/
def State.swapNow (sc : ScreenId) (s : State) : State :=
  if (s.screen sc).state = .dark then
    (s.modScreen sc fun x => { x with point := some .console }).startDue sc .console false
  else s.reachPoint sc .console 0

/-- SWAPNOW (R112). -/
def execSwapnow (ops : List Text) (s : State) : Outcome State Fault Refusal :=
  .next (s.takeCommand (.swapnow ops) fun s =>
    match parseSwapnow s ops with
    | .error r => s.answer (.no r)
    | .ok sc => (s.swapNow sc).answer (.ok []))

/-- SOUND's operands: the screen, and the level where one is given (R116). -/
def parseSound (s : State) : List Text → Except Reason (ScreenId × Option Nat)
  | [a] => do
    let n ← formOf (number? a)
    return (← screenOperand s n, none)
  | [a, b] => do
    let n ← formOf (number? a)
    let k ← formOf (number? b)
    return (← screenOperand s n, some k)
  | _ => .error .form

/-- SOUND (R116). -/
def execSound (ops : List Text) (s : State) : Outcome State Fault Refusal :=
  .next (s.takeCommand (.sound ops) fun s =>
    match parseSound s ops with
    | .error r => s.answer (.no r)
    | .ok (sc, none) => s.answer (.ok [fNum (s.screen sc).sound])
    | .ok (sc, some k) => (s.modScreen sc fun x => { x with sound := min Config.maxSound k }).answer (.ok []))

/-! ### Intervals -/

/-- The screen opens its on-deck slot at the end of an interval; *LATE where start pending is set (R125). -/
def State.openOnDeck (sc : ScreenId) (n : SlotIx) (s : State) : State :=
  (s.openSlot sc n).1.reportIf (s.openSlot sc n).2 (.lateArmed sc (some n))

/-- RESUME's operand and tests (R125). -/
def parseResume (s : State) (ops : List Text) : Except Reason (ScreenId × SlotIx) := do
  let sc ← onlyScreen s ops
  need ((s.screen sc).state == .interval) .state
  return (sc, ← slotOr (s.onDeck sc))

/-- RESUME (R125). -/
def execResume (ops : List Text) (s : State) : Outcome State Fault Refusal :=
  .next (s.takeCommand (.resume ops) fun s =>
    match parseResume s ops with
    | .error r => s.answer (.no r)
    | .ok (sc, n) => (s.openOnDeck sc n).answer (.ok []))

/-- A timed interval ends: the on-deck slot is opened, or the programme ends (R125). -/
def State.intervalEnds (sc : ScreenId) (s : State) : State :=
  match (s.screen sc).state, (s.screen sc).interval with
  | .interval, some (.seconds _) =>
    match s.onDeck sc with
    | some n => s.openOnDeck sc n
    | none => s.endProgramme sc
  | _, _ => s

/-- INTERVAL_EXPIRY (R125). -/
def execIntervalExpiry (sc : ScreenId) (s : State) : Outcome State Fault Refusal :=
  .next (s.whenPowered (State.intervalEnds sc))

/-! ### The dark hold timer -/

/-- The dark hold timer reaches 5 s: scene 4 as a PICTURE claim, and *DARK (R124). -/
def State.darkHoldEnds (sc : ScreenId) (s : State) : State :=
  match (s.screen sc).darkHold, (s.screen sc).onScreen with
  | .running _, some m =>
    ((s.placeScene sc .fault 4 Config.faultFade).modScreen sc fun x =>
      { x with faultClaim := .picture, darkHold := .ranOut }).report (.dark sc .picture m none)
  | _, _ => s

/-- DARK_HOLD_EXPIRY (R124). -/
def execDarkHoldExpiry (sc : ScreenId) (s : State) : Outcome State Fault Refusal :=
  .next (s.whenPowered (State.darkHoldEnds sc))

/-! ### ABORT -/

/-- ABORT's operand and test (R126). -/
def parseAbort (s : State) (ops : List Text) : Except Reason ScreenId := do
  let sc ← onlyScreen s ops
  need ((s.screen sc).state != .idle) .state
  return sc

/-- A machine is stopped, its lamp put out and its deferred queue emptied; a RUNOUT machine's reel ends (R126). -/
def State.abortMachine (m : MachineId) (s : State) : State :=
  let left := (s.machine m).state
  let s1 := ((s.modMachine m MachineRec.stopOrder).lampOff m).modDecoder m fun d => { d with deferred := [] }
  if left = .runout then s1.outgoingReelEnds m else s1

/-- The cut notice for the current slot. -/
def State.cutCurrent (sc : ScreenId) (s : State) : State :=
  match (s.screen sc).current with
  | none => s
  | some n => s.slotNotice sc n .cut

/-- An accepted ABORT (R126). -/
def State.abort (sc : ScreenId) (s : State) : State :=
  let s1 := ((s.abortMachine (lowerOf sc)).abortMachine (upperOf sc)).cutCurrent sc
  (((s1.releaseThree sc .cue).releaseFault sc).modScreen sc ScreenRec.goIdle).evaluateScreen sc

/-- ABORT (R126). -/
def execAbort (ops : List Text) (s : State) : Outcome State Fault Refusal :=
  .next (s.takeCommand (.abort ops) fun s =>
    match parseAbort s ops with
    | .error r => s.answer (.no r)
    | .ok sc => (s.abort sc).answer (.ok []))

/-! ### SCREENSET and SSTAT -/

/-- The settings a SCREENSET names (R129). -/
structure ScreenSettings where
  margin : Option Nat
  ovl : Option Nat
  deriving DecidableEq, Repr

/-- One operand of SCREENSET (R129). -/
def ScreenSettings.take (x : ScreenSettings) (w : Text) : Except Reason ScreenSettings := do
  let (k, t) ← formOf (keyValue? w)
  let v ← formOf (number? t)
  if k = txt "MARGIN" then return { x with margin := ← once x.margin v }
  else if k = txt "OVL" then return { x with ovl := ← once x.ovl v }
  else .error .form

/-- All the operands of SCREENSET. -/
def ScreenSettings.takeAll (x : ScreenSettings) : List Text → Except Reason ScreenSettings
  | [] => .ok x
  | w :: ws => do ScreenSettings.takeAll (← x.take w) ws

/-- SCREENSET's operands (R129). -/
def parseScreenset (s : State) : List Text → Except Reason (ScreenId × ScreenSettings)
  | a :: b :: rest => do
    let n ← formOf (number? a)
    let x ← ScreenSettings.takeAll ⟨none, none⟩ (b :: rest)
    let sc ← screenOperand s n
    need (within 0 1000 x.margin && within 0 12 x.ovl) .range
    return (sc, x)
  | _ => .error .form

/-- A new overlap: overlap remaining is lowered to it at once, and a remaining count that comes to 0 ends BOTH
(R129, R115). -/
def ScreenRec.setOverlap (n : Nat) (x : ScreenRec) : ScreenRec :=
  { x with
    overlap := n
    overlapLeft := min n x.overlapLeft
    mixer :=
      match x.mixer, x.onScreen with
      | .both, some m => if min n x.overlapLeft = 0 then .machine m else .both
      | y, _ => y }

/-- The settings named are written (R129). -/
def ScreenRec.withSettings (x : ScreenSettings) (r : ScreenRec) : ScreenRec :=
  let y := match x.margin with
    | none => r
    | some ms => { r with margin := ms * 1000 }
  match x.ovl with
  | none => y
  | some n => y.setOverlap n

/-- SCREENSET (R129). -/
def execScreenset (ops : List Text) (s : State) : Outcome State Fault Refusal :=
  .next (s.takeCommand (.screenset ops) fun s =>
    match parseScreenset s ops with
    | .error r => s.answer (.no r)
    | .ok (sc, x) => (s.modScreen sc (ScreenRec.withSettings x)).answer (.ok []))

/-- The fields of SSTAT (R129). -/
def State.sstatFields (s : State) (sc : ScreenId) : List Text :=
  let x := s.screen sc
  [fScreen sc, fScreenState x.state, fOpt fSlot x.current, fOpt fSlot (s.onDeck sc), fOpt fMachine (s.successor sc),
    fOpt fMachine x.onScreen, fYesNo x.startGiven, fYesNo x.startPending, fOpt fPointCause x.point,
    fOpt fNum x.framesToGo, fOpt fNum x.nStart, fMixer x.mixer, fNum x.sound, fNum x.overlap, fNum (x.margin / 1000),
    fOpt fInterval x.interval, fFaultClaim x.faultClaim]

/-- SSTAT (R129). -/
def execSstat (ops : List Text) (s : State) : Outcome State Fault Refusal :=
  .next (s.takeCommand (.sstat ops) fun s =>
    match onlyScreen s ops with
    | .error r => s.answer (.no r)
    | .ok sc => s.answer (.ok (s.sstatFields sc)))

end Sys2Proof.Machine
end

