-- ==== Sys2Proof/Machine/Line.lean ====
section
/-! DEFINITION. The console line unit: characters, completed lines, dispatch, sending and breaks (Chapter 9). -/

namespace Sys2Proof.Machine

open Sys2Proof

/-- The command that a verb and its operands spell (Table 9-5); RESET is RESET BOOTH where its first operand is BOOTH
(log entry 3). -/
def commandOf? (verb : Text) (ops : List Text) : Option Instr :=
  if verb = txt "MOTOR" then some (.motor ops)
  else if verb = txt "DOUSE" then some (.douse ops)
  else if verb = txt "MSTAT" then some (.mstat ops)
  else if verb = txt "CUEMAP" then some (.cuemap ops)
  else if verb = txt "STRIKE" then some (.strike ops)
  else if verb = txt "ARCOFF" then some (.arcoff ops)
  else if verb = txt "TRIM" then some (.trim ops)
  else if verb = txt "LAMPSET" then some (.lampset ops)
  else if verb = txt "LSTAT" then some (.lstat ops)
  else if verb = txt "REEL" then some (.reel ops)
  else if verb = txt "PLANCOPY" then some (.plancopy ops)
  else if verb = txt "PLANCLR" then some (.planclr ops)
  else if verb = txt "PSTAT" then some (.pstat ops)
  else if verb = txt "THREAD" then some (.thread ops)
  else if verb = txt "UNTHREAD" then some (.unthread ops)
  else if verb = txt "TIME" then some (.time ops)
  else if verb = txt "SHOWAT" then some (.showat ops)
  else if verb = txt "START" then some (.start ops)
  else if verb = txt "SWAPNOW" then some (.swapnow ops)
  else if verb = txt "SOUND" then some (.sound ops)
  else if verb = txt "RESUME" then some (.resume ops)
  else if verb = txt "ABORT" then some (.abort ops)
  else if verb = txt "SCREENSET" then some (.screenset ops)
  else if verb = txt "SSTAT" then some (.sstat ops)
  else if verb = txt "SCENEDEF" then some (.scenedef ops)
  else if verb = txt "LEVEL" then some (.level ops)
  else if verb = txt "SCENE" then some (.scene ops)
  else if verb = txt "RELEASE" then some (.release ops)
  else if verb = txt "HLSTAT" then some (.hlstat ops)
  else if verb = txt "RESET" then
    match ops with
    | w :: rest => if w = txt "BOOTH" then some (.resetBooth rest) else some (.resetM ops)
    | [] => some (.resetM ops)
  else if verb = txt "INCIDENT" then some (.incident ops)
  else if verb = txt "INCLEAR" then some (.inclear ops)
  else if verb = txt "FSTAT" then some (.fstat ops)
  else if verb = txt "FIRESET" then some (.fireset ops)
  else if verb = txt "IDENT" then some (.ident ops)
  else if verb = txt "STATUS" then some (.status ops)
  else if verb = txt "RESTART" then some (.restart ops)
  else none

/-- What a line taken from the buffers comes to: a reply by the line unit, or a command for its owner (R169). -/
def ReceivedLine.test (l : ReceivedLine) : Reason ⊕ Instr :=
  if l.charMark then .inl .char
  else if l.longMark then .inl .long
  else
    match wordsOf l.text with
    | [] => .inl .verb
    | verb :: ops =>
      match commandOf? verb ops with
      | none => .inl .verb
      | some i => .inr i

/-- With the reply place empty and no command waiting for its owner, the oldest buffered line is taken out and tested;
a command is handed to its owner and the reply place reserved (R169). -/
def LineUnit.dispatch (l : LineUnit) : LineUnit :=
  match l.replyPlace, l.handed, l.buffers with
  | .empty, none, b :: bs =>
    match b.test with
    | .inl r => { l with buffers := bs }.answer (.no r)
    | .inr i => { l with buffers := bs, replyPlace := .reserved, handed := some i }
  | _, _, _ => l

/-- A carriage return completes the line (R168). -/
def LineUnit.complete (l : LineUnit) : LineUnit :=
  let done : ReceivedLine := ⟨l.assembly, l.charMark, l.longMark⟩
  let x := { l with assembly := [], charMark := false, longMark := false }
  if (wordsOf done.text).isEmpty && !done.charMark && !done.longMark then x
  else if l.buffers.length < Config.lineBuffers then { x with buffers := l.buffers ++ [done] }.dispatch
  else x

/-- A printable character joins the assembly, or sets the LONG mark (R167). -/
def LineUnit.join (c : Char) (l : LineUnit) : LineUnit :=
  if l.assembly.length < Config.lineLength then { l with assembly := l.assembly ++ [c] } else { l with longMark := true }

/-- A received character is applied to the assembly (R167); one received while the line stays at space after a break
reset is not taken (R174). -/
def LineUnit.receive (code : BitVec 7) (bad : Bool) (l : LineUnit) : LineUnit :=
  if l.breakHeld then l
  else if bad then { l with charMark := true }
  else if code.toNat = 13 then l.complete
  else if code.toNat < 32 ∨ code.toNat = 127 then l
  else l.join (Char.ofNat code.toNat)

/-- The reply just sent leaves the reply place; a reply made since, or a reserved place, stays (R170, R174). -/
def ReplyPlace.afterSending (t : Transmission) (p : ReplyPlace) : ReplyPlace :=
  match t.content, p with
  | .reply _, .full r o => if o = t.order then .empty else .full r o
  | _, q => q

/-- The transmitter ends a line: the reply place empties where the line was its reply, the next buffered line is
dispatched, and the next line in making order is taken (R169, R170). -/
def LineUnit.lineSent (l : LineUnit) : LineUnit :=
  match l.transmitter with
  | none => l
  | some t => { l with transmitter := none, replyPlace := l.replyPlace.afterSending t }.dispatch.pump

/-- A reply in the reply place is lost at a break reset; a reserved place stays reserved (R174). -/
def ReplyPlace.afterBreak : ReplyPlace → ReplyPlace
  | .empty | .full _ _ => .empty
  | .reserved => .reserved

/-- The break measure reaches 1 s: the line unit resets itself, and *READY is its only report (R174). The measure stops here
and not first at the return to mark (DESIGN CHOICE, log entry 41); that the reset was made is remembered until then (log
entry 23). -/
def LineUnit.breakReset (l : LineUnit) : LineUnit :=
  match l.breakMeasure with
  | none => l
  | some _ =>
    { l with
      assembly := []
      charMark := false
      longMark := false
      buffers := []
      queue := []
      replyPlace := l.replyPlace.afterBreak
      breakMeasure := none
      breakHeld := true }.report .ready

/-- The receive line goes to space or to mark (R174). -/
def LineUnit.levelChange (space : Bool) (l : LineUnit) : LineUnit :=
  if l.atSpace = space then l
  else if space then { l with atSpace := true, breakMeasure := some 0 }
  else { l with atSpace := false, breakMeasure := none, breakHeld := false }

end Sys2Proof.Machine
end

