-- ==== Sys2Proof/Machine/Console.lean ====
section
/-! DEFINITION. The commands of the console line unit: characters, lines sent and breaks, IDENT and STATUS
(Chapter 9). -/

namespace Sys2Proof.Machine

open Sys2Proof Host

/-! ### What is read at a dispatch -/

/-- The fields of one screen in STATUS: all hyphens for a screen not fitted (R173). -/
def State.screenFields (s : State) (sc : ScreenId) : List Text :=
  let x := s.screen sc
  if sc = .s2 ∧ s.straps.screen2Fitted = false then List.replicate 7 fAbsent
  else if x.state = .idle then [fScreen sc, fScreenState x.state] ++ List.replicate 5 fAbsent
  else
    [fScreen sc, fScreenState x.state, fOpt fSlot x.current, fOpt fMachine x.onScreen,
      fOpt fNum (x.onScreen.map fun m => (s.machine m).frameCount), fOpt fNum (x.onScreen.bind s.reelTime),
      fYesNo x.startPending]

/-- A machine and its latch cause, or CLEAR (R173). -/
def State.latchWord (s : State) (m : MachineId) : List Text :=
  [fMachine m, match s.fire.machineLatch.get m with | none => txt "CLEAR" | some c => fLatchCause c]

/-- The fields of STATUS (R173). -/
def State.statusFields (s : State) : List Text :=
  fClock s.plan.clock :: s.screenFields .s1 ++ s.screenFields .s2
    ++ [match s.fire.boothLatch with | none => txt "CLEAR" | some c => fBoothCause c]
    ++ s.latchWord .m1 ++ s.latchWord .m2 ++ s.latchWord .m3 ++ s.latchWord .m4
    ++ [txt "Q", fNum s.line.queue.length]

/-- Both screens are IDLE (R178). -/
def State.bothIdle (s : State) : Bool := (s.screen .s1).state == .idle && (s.screen .s2).state == .idle

/-- What the line unit reads of the other blocks when it dispatches command `i` (R173, R178). -/
def State.readAtDispatch (s : State) (i : Instr) : Option DispatchReading :=
  match i with
  | .status _ => some (.status s.statusFields)
  | .restart _ => some (.bothIdle s.bothIdle)
  | _ => none

/-- A command newly handed to its owner takes its reading with it. -/
def LineUnit.noteReading (before : Option Instr) (read : Instr → Option DispatchReading) (l : LineUnit) : LineUnit :=
  match before, l.handed with
  | none, some i => { l with reading := read i }
  | _, _ => l

/-- An event of the line unit that may dispatch a line; a dispatch reads the blocks as the event finds them, before the
transmitter takes its next line (R169, R173, log entry 34). -/
def State.lineEvent (f : LineUnit → LineUnit) (s : State) : State :=
  s.modLine fun l => (f l).noteReading l.handed s.readAtDispatch

/-! ### Characters, lines sent and breaks -/

/-- RECEIVED_CHARACTER (R167 to R169). -/
def execReceivedCharacter (code : BitVec 7) (badParity badStop : Bool) (s : State) : Outcome State Fault Refusal :=
  .next (s.whenPowered (State.lineEvent (LineUnit.receive code (badParity || badStop))))

/-- LINE_SENT (R170). -/
def execLineSent (s : State) : Outcome State Fault Refusal := .next (s.whenPowered (State.lineEvent LineUnit.lineSent))

/-- BREAK_MEASURE_EXPIRY (R174). -/
def execBreakMeasureExpiry (s : State) : Outcome State Fault Refusal :=
  .next (s.whenPowered (State.modLine LineUnit.breakReset))

/-- RECEIVE_LINE_LEVEL_CHANGE (R174). -/
def execReceiveLineLevelChange (space : Bool) (s : State) : Outcome State Fault Refusal :=
  .next (s.whenPowered (State.modLine (LineUnit.levelChange space)))

/-- The baud rate as strapped: 300 with no position or more than one made (R175). -/
def baudRate (p : Straps) : Nat :=
  match p.baud300, p.baud1200, p.baud2400 with
  | false, true, false => 1200
  | false, false, true => 2400
  | true, false, false => 300
  | _, _, _ => 300

/-- The fields of IDENT (R173). -/
def identFields (p : Straps) : List Text :=
  [txt "PINDROW", txt "WOLSETT", txt "3100", txt "REV", txt "C", fNum (baudRate p),
    (if p.screen2Fitted then txt "S2" else txt "NOS2")]

/-- IDENT (R173). -/
def execIdent (ops : List Text) (s : State) : Outcome State Fault Refusal :=
  .next (s.takeCommand (.ident ops) fun s =>
    match noOperand ops with
    | .error r => s.answer (.no r)
    | .ok _ => s.answer (.ok (identFields s.straps)))

/-- The fields STATUS is answered with: as read at its dispatch, and as they stand where it was given directly (log
entry 3). -/
def State.statusRead (s : State) (ops : List Text) : List Text :=
  match s.readingFor (.status ops) with
  | some (.status fields) => fields
  | _ => s.statusFields

/-- STATUS (R173). -/
def execStatus (ops : List Text) (s : State) : Outcome State Fault Refusal :=
  .next (s.takeCommand (.status ops) fun t =>
    match noOperand ops with
    | .error r => t.answer (.no r)
    | .ok _ => t.answer (.ok (s.statusRead ops)))

end Sys2Proof.Machine
end

