-- ==== Sys2Proof/Machine/Fire.lean ====
section
/-! DEFINITION. The fire protection unit: trips, shutters, incident records and resets (Chapter 8), with what the other
blocks do at a trip order (R19, R73, R127, R128, R139). -/

namespace Sys2Proof.Machine

open Sys2Proof

/-! ### Snapshots and incident records -/

/-- The machine snapshot handed before an order is acted on (R19, R73, 8.6). -/
def State.snapshot (s : State) (m : MachineId) : MachineSnapshot where
  machine := m
  state := (s.machine m).state
  reelId := (s.machine m).reelId
  boundSlot := (s.machine m).boundSlot
  frameCount := (s.machine m).frameCount
  cfps := (s.machine m).cfps
  lamp := (s.lamp m).state
  carbonMm := (s.lamp m).carbonMm

/-- The outcome a shutter state gives a new record: one that has not been confirmed is PENDING (R163). -/
def ShutterState.outcome : ShutterState → ShutterOutcome
  | .opened | .dropping => .pending
  | .closed => .closed
  | .stuck => .stuck

/-- The shutter outcome entry of a machine (R163). -/
def State.outcomeOf (s : State) (m : MachineId) : MachineId × ShutterOutcome :=
  (m, (s.fire.shutters.get m).state.outcome)

/-- A record joins the log as its newest; of nine the oldest is removed; next sequence is raised (R163). -/
def FireUnit.record (r : IncidentRec) (u : FireUnit) : FireUnit :=
  { u with log := (r :: u.log).take Config.logSize, nextSequence := (u.nextSequence + 1) % Config.sequenceCount }

/-- The outcome of a shutter's drop is written over PENDING for its machine (R157). -/
def IncidentRec.confirm (m : MachineId) (o : ShutterOutcome) (r : IncidentRec) : IncidentRec :=
  { r with outcomes := r.outcomes.map fun e => if e.1 = m ∧ e.2 = .pending then (m, o) else e }

/-- The outcome is written into every record of the log that holds PENDING for the machine (R157). -/
def FireUnit.confirm (m : MachineId) (o : ShutterOutcome) (u : FireUnit) : FireUnit :=
  { u with log := u.log.map (IncidentRec.confirm m o) }

/-! ### Latches, magnets and shutters -/

/-- The latch of a machine is set or cleared. -/
def FireUnit.putLatch (m : MachineId) (l : Option LatchCause) (u : FireUnit) : FireUnit :=
  { u with machineLatch := u.machineLatch.set m l }

/-- A machine latch at a booth trip: GATE_HEAT keeps its cause (R152). -/
def boothLatched : Option LatchCause → Option LatchCause
  | some .gateHeat => some .gateHeat
  | some .booth | none => some .booth

/-- A BOOTH latch is cleared by RESET BOOTH; GATE_HEAT stands (R161). -/
def boothReleased : Option LatchCause → Option LatchCause
  | some .gateHeat => some .gateHeat
  | some .booth | none => none

/-- A trip de-energizes the magnet; a shutter that stood OPEN goes to DROPPING (R157). -/
def ShutterRec.drop (sequence : Nat) (snap : MachineSnapshot) (x : ShutterRec) : ShutterRec :=
  if x.state = .opened then
    { x with magnet := false, state := .dropping, confirm := some 0, dropSequence := some sequence,
             dropSnapshot := some snap }
  else { x with magnet := false }

/-- The shutter takes a settled state; its measure is stopped and its drop cleared (R156, R157). -/
def ShutterRec.settle (st : ShutterState) (x : ShutterRec) : ShutterRec :=
  { x with state := st, confirm := none, dropSequence := none, dropSnapshot := none }

/-- A reset energizes the magnet (R160, R161). -/
def ShutterRec.energize (x : ShutterRec) : ShutterRec := { x with magnet := true }

/-- The readings of the two switches. -/
def ShutterRec.switch (x : ShutterRec) : ShutterSwitch → Bool
  | .openSwitch => x.openMade
  | .closedSwitch => x.closedMade

/-- A switch is read. -/
def ShutterRec.readSwitch (sw : ShutterSwitch) (made : Bool) (x : ShutterRec) : ShutterRec :=
  match sw with
  | .openSwitch => { x with openMade := made }
  | .closedSwitch => { x with closedMade := made }

/-- What a switch change does to the shutter (the table of R156). -/
inductive SwitchOutcome
  | none
  | opens
  | sags
  | confirms
  | frees
  deriving DecidableEq, Repr

/-- The row of R156's table that applies. -/
def switchOutcome (st : ShutterState) (magnet : Bool) (sw : ShutterSwitch) (made : Bool) : SwitchOutcome :=
  match st, magnet, sw, made with
  | .closed, true, .openSwitch, true => .opens
  | .stuck, true, .openSwitch, true => .opens
  | .opened, true, .openSwitch, false => .sags
  | .dropping, false, .closedSwitch, true => .confirms
  | .stuck, _, .closedSwitch, true => .frees
  | _, _, _, _ => .none

/-- A shutter switch changes: the table of R156. -/
def State.switchChange (m : MachineId) (sw : ShutterSwitch) (made : Bool) (s : State) : State :=
  let x := s.fire.shutters.get m
  if x.switch sw = made then s
  else
    let s1 := s.modShutter m (ShutterRec.readSwitch sw made)
    match switchOutcome x.state x.magnet sw made with
    | .none => s1
    | .opens => (s1.modShutter m (ShutterRec.settle .opened)).evaluate m
    | .sags => ((s1.modShutter m (ShutterRec.settle .closed)).report (.shutterSag m)).evaluate m
    | .confirms => (s1.modShutter m (ShutterRec.settle .closed)).modFire (FireUnit.confirm m .closed)
    | .frees => s1.modShutter m (ShutterRec.settle .closed)

/-- The confirm measure of a DROPPING shutter reaches 2 s: STUCK, with its record (R157, R158). -/
def State.confirmExpires (m : MachineId) (s : State) : State :=
  let x := s.fire.shutters.get m
  match x.state, x.confirm, x.dropSnapshot with
  | .dropping, some _, some snap =>
    let n := s.fire.nextSequence
    let s1 := s.modShutter m fun y => { y with state := .stuck, confirm := none }
    let s2 := s1.modFire (FireUnit.confirm m .stuck)
    let s3 := s2.modFire (FireUnit.record
      { sequence := n, timeOfDay := s.plan.clock, cause := .shutterStuck, scope := .machine m, machines := [snap],
        lights := [], outcomes := [(m, .stuck)], related := x.dropSequence })
    s3.report (.shutterStuck m n x.dropSequence)
  | _, _, _ => s

/-! ### Trip orders as the receivers take them -/

/-- The machine unit and the lamp unit take a trip order (R19, R73). -/
def State.tripOrder (m : MachineId) (s : State) : State := (s.modMachine m MachineRec.trip).modLamp m LampRec.putOut

/-- The screen's record is halted (R127): current slot, claims and fault claim are kept. -/
def ScreenRec.halt (x : ScreenRec) : ScreenRec :=
  { x.discardTiming with
    state := .halted
    onScreen := none
    point := none
    startGiven := false
    startPending := false
    mixer := .mute
    overlapLeft := 0
    interval := none
    darkHold := .stopped }

/-- A machine that was in RUNOUT has left it (R117). -/
def State.leftRunout (m : MachineId) (left : MachineState) (s : State) : State :=
  if left = .runout then s.outgoingReelEnds m else s

/-- A screen takes a booth trip order (R127); `a` and `b` are the states its machines left. -/
def State.boothHalt (sc : ScreenId) (a b : MachineState) (s : State) : State :=
  let s1 := (s.leftRunout (lowerOf sc) a).leftRunout (upperOf sc) b
  if (s1.screen sc).state = .idle ∨ (s1.screen sc).state = .halted then s1 else s1.modScreen sc ScreenRec.halt

/-- The states in which a reel is on the screen. -/
def ScreenState.shows : ScreenState → Bool
  | .showing | .runup | .swapDue => true
  | .idle | .opening | .dark | .interval | .halted => false

/-- A screen takes a machine trip order by the machine's role (R128); `left` is the state the machine left. -/
def State.machineHalt (m : MachineId) (left : MachineState) (s : State) : State :=
  let sc := screenOf m
  if (s.screen sc).onScreen = some m ∧ (s.screen sc).state.shows = true then
    let before := (s.machine (partnerOf m)).state
    let s1 := (s.modMachine (partnerOf m) MachineRec.stopOrder).lampOff (partnerOf m)
    (s1.leftRunout (partnerOf m) before).modScreen sc ScreenRec.halt
  else if left = .runout then s.outgoingReelEnds m
  else if s.waitedOn sc = some m ∧ (s.screen sc).state.awaits = true then s.successorLost sc
  else s

/-! ### Trips -/

/-- Steps 1, 2 and 3 of a booth trip, and the order as the machine, lamp and house-light units take it (R152, R19, R73,
R139); `n` is the sequence of its incident. -/
def State.boothTripOrders (n : Nat) (s : State) : State :=
  let s1 := s.modFire fun u =>
    { u with
      boothLatch := some .loop
      machineLatch := u.machineLatch.map boothLatched
      shutters := ⟨u.shutters.m1.drop n (s.snapshot .m1), u.shutters.m2.drop n (s.snapshot .m2),
        u.shutters.m3.drop n (s.snapshot .m3), u.shutters.m4.drop n (s.snapshot .m4)⟩ }
  let s2 := (((s1.tripOrder .m1).tripOrder .m2).tripOrder .m3).tripOrder .m4
  (s2.placeSafety .s1).placeSafety .s2

/-- A booth trip (R152). -/
def State.boothTrip (s : State) : State :=
  let n := s.fire.nextSequence
  let s1 := s.boothTripOrders n
  let s2 := (s1.boothHalt .s1 (s.machine .m1).state (s.machine .m2).state).boothHalt .s2 (s.machine .m3).state
    (s.machine .m4).state
  let s3 := s2.modFire (FireUnit.record
    { sequence := n, timeOfDay := s.plan.clock, cause := .loop, scope := .booth,
      machines := [s.snapshot .m1, s.snapshot .m2, s.snapshot .m3, s.snapshot .m4],
      lights := s.lightLevels .s1 ++ s.lightLevels .s2,
      outcomes := [s1.outcomeOf .m1, s1.outcomeOf .m2, s1.outcomeOf .m3, s1.outcomeOf .m4], related := none })
  s3.report (.trip .loop .booth n)

/-- Steps 1 and 2 of a machine trip, and the order as the machine, lamp and house-light units take it (R154, R19, R73,
R139). -/
def State.machineTripOrders (m : MachineId) (n : Nat) (s : State) : State :=
  let s1 := (s.modFire (FireUnit.putLatch m (some .gateHeat))).modShutter m (ShutterRec.drop n (s.snapshot m))
  (s1.tripOrder m).placeSafety (screenOf m)

/-- A machine trip (R154). -/
def State.machineTrip (m : MachineId) (s : State) : State :=
  let n := s.fire.nextSequence
  let s1 := s.machineTripOrders m n
  let s2 := (s1.machineHalt m (s.machine m).state).modFire (FireUnit.record
    { sequence := n, timeOfDay := s.plan.clock, cause := .gateHeat, scope := .machine m, machines := [s.snapshot m],
      lights := s.lightLevels (screenOf m), outcomes := [s1.outcomeOf m], related := none })
  (s2.report (.trip .gateHeat (.machine m) n)).evaluateScreen (screenOf m)

/-! ### The loop and the gates -/

/-- The loop input changes (R151). -/
def FireUnit.loopChange (closed : Bool) (u : FireUnit) : FireUnit :=
  if u.loopClosed = closed then u
  else if closed then
    { u with loopClosed := true, loopOpenMeasure := none, loopHealthy := some 0, loopHealthySub := 0 }
  else
    { u with
      loopClosed := false
      loopHealthy := none
      loopOpenMeasure := if u.boothLatch = some .loop then none else some 0 }

/-- The loop open measure reaches 50 ms (R151). -/
def State.loopOpenExpires (s : State) : State :=
  match s.fire.loopOpenMeasure with
  | none => s
  | some _ => (s.modFire fun u => { u with loopOpenMeasure := none }).boothTrip

/-- A gate completes with `count` (R153). -/
def GateRec.take (count : Nat) (g : GateRec) : GateRec :=
  { g with
    count := min Config.maxGateCount count
    hotRun := if g.tripThreshold ≤ min Config.maxGateCount count then min Config.hotGates (g.hotRun + 1) else 0 }

/-- A gate temperature count is taken, and trips the machine where the hot run is 2 and its latch does not stand with cause
GATE_HEAT (R153). So a hot run still at 2 when RESET m clears the latch trips at the next hot gate (DESIGN CHOICE, log entry
40). -/
def State.takeGateCount (m : MachineId) (count : Nat) (s : State) : State :=
  let s1 := s.modFire fun u => { u with gates := u.gates.set m ((u.gates.get m).take count) }
  if (s1.fire.gates.get m).hotRun = Config.hotGates ∧ s1.fire.machineLatch.get m ≠ some .gateHeat then
    s1.machineTrip m
  else s1

/-! ### Resets -/

/-- Whether a machine's latch is clear. -/
def State.latchClear (s : State) (m : MachineId) : Bool := (s.fire.machineLatch.get m).isNone

/-- A SAFETY release is sent for a screen both of whose machine latches are clear (R140, R160, R161). -/
def State.releaseSafety (sc : ScreenId) (s : State) : State :=
  if s.latchClear (lowerOf sc) && s.latchClear (upperOf sc) then s.releaseThree sc .safety else s

/-- The tests of RESET m, in order (R160). -/
def State.resetTests (s : State) (m : MachineId) : Except Reason Unit := do
  need s.fire.boothLatch.isNone .trip
  need (s.fire.machineLatch.get m).isSome .state
  need ((s.fire.shutters.get m).state != .dropping) .state
  need ((s.fire.gates.get m).count < (s.fire.gates.get m).resetThreshold) .state

/-- The slot status a release with film lost leaves (R86, R97). -/
def State.lostStatus (s : State) (m : MachineId) : SlotStatus :=
  match (s.machine m).boundSlot with
  | none => .loaded
  | some n =>
    if s.isCurrent (screenOf m) n && (s.screen (screenOf m)).state != .opening then .cut else .loaded

/-- The latch of `m` is cleared, its magnet energized, its film given up and its screen's lights released (R160, R21). -/
def State.resetMachineOrders (m : MachineId) (s : State) : State :=
  let s1 := (s.modFire (FireUnit.putLatch m none)).modShutter m ShutterRec.energize
  ((s1.endBinding m (s.lostStatus m)).modMachine m MachineRec.releaseLost).releaseSafety (screenOf m)

/-- An accepted RESET m, less its reply and report (R160). -/
def State.resetMachine (m : MachineId) (s : State) : State :=
  (s.resetMachineOrders m).evaluateScreen (screenOf m)

/-- Five seconds healthy (R161). -/
def State.loopHealthyEnough (s : State) : Bool :=
  match s.fire.loopHealthy with
  | none => false
  | some t => decide (Config.healthyNeeded ≤ t)

/-- Whether some shutter is in DROPPING. -/
def State.anyDropping (s : State) : Bool :=
  s.fire.shutters.m1.state == .dropping || s.fire.shutters.m2.state == .dropping
    || s.fire.shutters.m3.state == .dropping || s.fire.shutters.m4.state == .dropping

/-- The tests of RESET BOOTH, in order (R161). -/
def State.resetBoothTests (s : State) : Except Reason Unit := do
  need s.fire.boothLatch.isSome .state
  need s.loopHealthyEnough .state
  need (!s.anyDropping) .state

/-- A machine whose BOOTH latch is cleared takes its release with film kept (R161, R20); `before` is its latch as it
stood. -/
def State.releaseKept (m : MachineId) (before : Option LatchCause) (s : State) : State :=
  if before = some .booth then s.modMachine m MachineRec.releaseKept else s

/-- A machine whose latch is clear has its magnet energized (R161). -/
def State.energizeClear (m : MachineId) (s : State) : State :=
  if s.latchClear m then s.modShutter m ShutterRec.energize else s

/-- Steps 1 to 4 of RESET BOOTH (R161). -/
def State.resetBoothOrders (s : State) : State :=
  let l := s.fire.machineLatch
  let s1 := s.modFire fun u => { u with boothLatch := none, machineLatch := u.machineLatch.map boothReleased }
  let s2 := (((s1.releaseKept .m1 l.m1).releaseKept .m2 l.m2).releaseKept .m3 l.m3).releaseKept .m4 l.m4
  let s3 := (((s2.energizeClear .m1).energizeClear .m2).energizeClear .m3).energizeClear .m4
  (s3.releaseSafety .s1).releaseSafety .s2

/-- An accepted RESET BOOTH, less its reply and report (R161); the machines returned to THREADED are evaluated (R17). -/
def State.resetBooth (s : State) : State := (s.resetBoothOrders.evaluateScreen .s1).evaluateScreen .s2

end Sys2Proof.Machine
end

