-- ==== Sys2Proof/Machine/FireProtection.lean ====
section
/-! DEFINITION. The commands of the fire protection unit: the loop, the gates and the shutters, RESET m, RESET BOOTH,
INCIDENT, INCLEAR, FSTAT and FIRESET (Chapter 8). -/

namespace Sys2Proof.Machine

open Sys2Proof Host

/-! ### Events at the fire unit's wiring -/

/-- LOOP_INPUT_CHANGE (R151). -/
def execLoopInputChange (flowing : Bool) (s : State) : Outcome State Fault Refusal :=
  .next (s.whenPowered fun s => s.modFire (FireUnit.loopChange (s.straps.fireLoop.read flowing)))

/-- LOOP_OPEN_MEASURE_EXPIRY (R151, R152). -/
def execLoopOpenMeasureExpiry (s : State) : Outcome State Fault Refusal := .next (s.whenPowered State.loopOpenExpires)

/-- GATE_COUNT (R153). -/
def execGateCount (m : MachineId) (count : Nat) (s : State) : Outcome State Fault Refusal :=
  .next (s.whenPowered fun s => s.takeGateCount m (s.counted m count))

/-- The polarity straps of a shutter switch (Table 10-1). -/
def shutterStraps (p : Straps) : ShutterSwitch → Quad Polarity
  | .openSwitch => p.shutterOpen
  | .closedSwitch => p.shutterClosed

/-- SHUTTER_SWITCH_CHANGE (R156). -/
def execShutterSwitchChange (m : MachineId) (sw : ShutterSwitch) (flowing : Bool) (s : State) :
    Outcome State Fault Refusal :=
  .next (s.whenPowered fun s => s.switchChange m sw (s.sense m (shutterStraps s.straps sw) flowing))

/-- CONFIRM_MEASURE_EXPIRY (R157, R158). -/
def execConfirmMeasureExpiry (m : MachineId) (s : State) : Outcome State Fault Refusal :=
  .next (s.whenPowered (State.confirmExpires m))

/-! ### The resets -/

/-- RESET m's operand and tests (R159, R160). -/
def parseReset (s : State) (ops : List Text) : Except Reason MachineId := do
  let m ← onlyMachine s ops
  s.resetTests m
  return m

/-- RESET m (R160): *RESET, and OK last, R160 giving no order of the two (R159, R170). -/
def execResetM (ops : List Text) (s : State) : Outcome State Fault Refusal :=
  .next (s.takeCommand (.resetM ops) fun s =>
    match parseReset s ops with
    | .error r => s.answer (.no r)
    | .ok m => ((s.resetMachine m).report (.resetMachine m)).answer (.ok []))

/-- RESET BOOTH's operands and tests (R159, R161). -/
def parseResetBooth (s : State) (ops : List Text) : Except Reason Unit := do
  noOperand ops
  s.resetBoothTests

/-- RESET BOOTH (R161): OK, then *RESET BOOTH. -/
def execResetBooth (ops : List Text) (s : State) : Outcome State Fault Refusal :=
  .next (s.takeCommand (.resetBooth ops) fun s =>
    match parseResetBooth s ops with
    | .error r => s.answer (.no r)
    | .ok _ => (s.resetBooth.answer (.ok [])).report .resetBooth)

/-! ### The log -/

/-- A machine snapshot (8.6). -/
def MachineSnapshot.fields (x : MachineSnapshot) : List Text :=
  [fMachine x.machine, fMachineState x.state, fOpt id x.reelId, fOpt fSlot x.boundSlot, fNum x.frameCount,
    fOpt fNum x.cfps, fLampState x.lamp, fNum x.carbonMm]

/-- A level, named by screen and circuit (Table 8-2). -/
def LightLevel.fields (x : LightLevel) : List Text := [fScreen x.screen, fCircuit x.circuit, fNum x.level]

/-- The light snapshot of a record: each of its levels, or one hyphen where it is absent (Table 8-2, R164). -/
def lightFields : List LightLevel → List Text
  | [] => [fAbsent]
  | x :: xs => (x :: xs).flatMap LightLevel.fields

/-- The fields of INCIDENT (R164). -/
def IncidentRec.fields (r : IncidentRec) : List Text :=
  [fNum r.sequence, fClock r.timeOfDay, fIncidentCause r.cause, fScope r.scope, fOpt fNum r.related]
    ++ r.machines.flatMap MachineSnapshot.fields ++ lightFields r.lights
    ++ r.outcomes.flatMap fun e => [fMachine e.1, fOutcome e.2]

/-- INCIDENT's operand and tests (R164). -/
def parseIncident (s : State) : List Text → Except Reason IncidentRec
  | [a] => do
    let n ← formOf (number? a)
    need (1 ≤ n && n ≤ Config.logSize) .range
    match s.fire.log[n - 1]? with
    | none => .error .state
    | some r => return r
  | _ => .error .form

/-- INCIDENT (R164). -/
def execIncident (ops : List Text) (s : State) : Outcome State Fault Refusal :=
  .next (s.takeCommand (.incident ops) fun s =>
    match parseIncident s ops with
    | .error r => s.answer (.no r)
    | .ok r => s.answer (.ok r.fields))

/-- Whether some latch is set. -/
def FireUnit.anyLatch (u : FireUnit) : Bool :=
  u.boothLatch.isSome || u.machineLatch.m1.isSome || u.machineLatch.m2.isSome || u.machineLatch.m3.isSome
    || u.machineLatch.m4.isSome

/-- INCLEAR's tests (R164). -/
def parseInclear (s : State) (ops : List Text) : Except Reason Unit := do
  noOperand ops
  need (!s.fire.anyLatch) .trip

/-- INCLEAR (R164). -/
def execInclear (ops : List Text) (s : State) : Outcome State Fault Refusal :=
  .next (s.takeCommand (.inclear ops) fun s =>
    match parseInclear s ops with
    | .error r => s.answer (.no r)
    | .ok _ => (s.modFire fun u => { u with log := [] }).answer (.ok []))

/-! ### FSTAT and FIRESET -/

/-- A latch and its cause, or CLEAR (R165). -/
def latchFields {α : Type} (f : α → Text) (l : Option α) : List Text :=
  match l with
  | none => [txt "CLEAR"]
  | some c => [txt "SET", f c]

/-- The fields of one machine in FSTAT (R165), its name written before its latch (DESIGN CHOICE, log entry 22). -/
def FireUnit.machineFields (u : FireUnit) (m : MachineId) : List Text :=
  fMachine m :: latchFields fLatchCause (u.machineLatch.get m)
    ++ [fOnOff (u.shutters.get m).magnet, fShutterState (u.shutters.get m).state, fNum (u.gates.get m).count,
      fNum (u.gates.get m).hotRun, fNum (u.gates.get m).tripThreshold, fNum (u.gates.get m).resetThreshold]

/-- The fields of FSTAT (R165). -/
def FireUnit.fields (u : FireUnit) : List Text :=
  latchFields fBoothCause u.boothLatch ++ [fClosed u.loopClosed, fOpt fNum u.loopHealthy]
    ++ u.machineFields .m1 ++ u.machineFields .m2 ++ u.machineFields .m3 ++ u.machineFields .m4
    ++ [fNum u.log.length, fNum u.nextSequence]

/-- FSTAT (R165). -/
def execFstat (ops : List Text) (s : State) : Outcome State Fault Refusal :=
  .next (s.takeCommand (.fstat ops) fun s =>
    match noOperand ops with
    | .error r => s.answer (.no r)
    | .ok _ => s.answer (.ok s.fire.fields))

/-- The thresholds a FIRESET names (R165). -/
structure Thresholds where
  trip : Option Nat
  reset : Option Nat
  deriving DecidableEq, Repr

/-- One operand of FIRESET (R165). -/
def Thresholds.take (x : Thresholds) (w : Text) : Except Reason Thresholds := do
  let (k, t) ← formOf (keyValue? w)
  let v ← formOf (number? t)
  if k = txt "TRIP" then return { x with trip := ← once x.trip v }
  else if k = txt "RESET" then return { x with reset := ← once x.reset v }
  else .error .form

/-- All the operands of FIRESET. -/
def Thresholds.takeAll (x : Thresholds) : List Text → Except Reason Thresholds
  | [] => .ok x
  | w :: ws => do Thresholds.takeAll (← x.take w) ws

/-- The thresholds named are written (R165). -/
def GateRec.withThresholds (x : Thresholds) (g : GateRec) : GateRec :=
  { g with tripThreshold := x.trip.getD g.tripThreshold, resetThreshold := x.reset.getD g.resetThreshold }

/-- FIRESET's operands: the machine operand is tested before the others (R165). -/
def parseFireset (s : State) : List Text → Except Reason (MachineId × Thresholds)
  | a :: rest => do
    let m ← machineOperand s (← formOf (number? a))
    need (!rest.isEmpty) .form
    let x ← Thresholds.takeAll ⟨none, none⟩ rest
    need (within 1 4095 x.trip && within 0 4094 x.reset) .range
    need (((s.fire.gates.get m).withThresholds x).resetThreshold < ((s.fire.gates.get m).withThresholds x).tripThreshold)
      .range
    return (m, x)
  | [] => .error .form

/-- FIRESET (R165). -/
def execFireset (ops : List Text) (s : State) : Outcome State Fault Refusal :=
  .next (s.takeCommand (.fireset ops) fun s =>
    match parseFireset s ops with
    | .error r => s.answer (.no r)
    | .ok (m, x) =>
      (s.modFire fun u => { u with gates := u.gates.set m ((u.gates.get m).withThresholds x) }).answer (.ok []))

end Sys2Proof.Machine
end

