-- ==== Sys2Proof/Machine/HouseLights.lean ====
section
/-! DEFINITION. The commands of the house-light unit: fade steps, zero crossings and firings, SCENEDEF, LEVEL, SCENE,
RELEASE and HLSTAT (Chapter 7). -/

namespace Sys2Proof.Machine

open Sys2Proof Host

/-- FADE_STEP (R136, R137). -/
def execFadeStep (sc : ScreenId) (c : CircuitId) (s : State) : Outcome State Fault Refusal :=
  .next (s.whenPowered (State.modCircuit sc c Circuit.dueStep))

/-- ZERO_CROSSING (R141, R143). -/
def execZeroCrossing (dt : Nat) (s : State) : Outcome State Fault Refusal :=
  .next (s.whenPowered fun s => (s.elapse dt).modLights HouseLights.cross)

/-- FIRING_DELAY_EXPIRY (R143). -/
def execFiringDelayExpiry (sc : ScreenId) (c : CircuitId) (s : State) : Outcome State Fault Refusal :=
  .next (s.whenPowered (State.modCircuit sc c fun _ => Circuit.fire))

/-! ### Scenes and levels from the console -/

/-- SCENEDEF's operands: the screen, the scene, and the levels where they are given (R132). -/
def parseScenedef (s : State) : List Text → Except Reason (ScreenId × Fin 8 × Option SceneLevels)
  | [a, b] => do
    let n ← formOf (number? a)
    let k ← formOf (number? b)
    return (← screenOperand s n, ← sceneOperand k, none)
  | [a, b, c, d, e] => do
    let n ← formOf (number? a)
    let k ← formOf (number? b)
    let h ← formOf (number? c)
    let ai ← formOf (number? d)
    let st ← formOf (number? e)
    return (← screenOperand s n, ← sceneOperand k,
      some ⟨min Config.fullLevel h, min Config.fullLevel ai, min Config.fullLevel st⟩)
  | _ => .error .form

/-- A scene is written. -/
def HouseLights.putScene (sc : ScreenId) (n : Fin 8) (l : SceneLevels) (h : HouseLights) : HouseLights :=
  { h with scenes := h.scenes.set sc ((h.scenes.get sc).set n l) }

/-- SCENEDEF (R132). -/
def execScenedef (ops : List Text) (s : State) : Outcome State Fault Refusal :=
  .next (s.takeCommand (.scenedef ops) fun s =>
    match parseScenedef s ops with
    | .error r => s.answer (.no r)
    | .ok (sc, n, none) =>
      let l := s.sceneLevels sc n
      s.answer (.ok [fNum l.house, fNum l.aisle, fNum l.stage])
    | .ok (sc, n, some l) => (s.modLights (HouseLights.putScene sc n l)).answer (.ok []))

/-- LEVEL's operands: a level above 255 is taken as 255 and a fade above 600 as 600 (R144, R145). -/
def parseLevel (s : State) : List Text → Except Reason (ScreenId × Option CircuitId × Nat × Nat)
  | [a, b, c, d] => do
    let n ← formOf (number? a)
    let k ← formOf (circuitOperand? b)
    let level ← formOf (number? c)
    let fade ← formOf (number? d)
    return (← screenOperand s n, k, min Config.fullLevel level, min Config.maxFade fade)
  | _ => .error .form

/-- LEVEL (R145). -/
def execLevel (ops : List Text) (s : State) : Outcome State Fault Refusal :=
  .next (s.takeCommand (.level ops) fun s =>
    match parseLevel s ops with
    | .error r => s.answer (.no r)
    | .ok (sc, c, level, fade) => (s.placeLevel sc .console c level fade).answer (.ok []))

/-- SCENE's operands (R144, R145). -/
def parseScene (s : State) : List Text → Except Reason (ScreenId × Fin 8 × Nat)
  | [a, b, c] => do
    let n ← formOf (number? a)
    let k ← formOf (number? b)
    let fade ← formOf (number? c)
    return (← screenOperand s n, ← sceneOperand k, min Config.maxFade fade)
  | _ => .error .form

/-- SCENE (R145). -/
def execScene (ops : List Text) (s : State) : Outcome State Fault Refusal :=
  .next (s.takeCommand (.scene ops) fun s =>
    match parseScene s ops with
    | .error r => s.answer (.no r)
    | .ok (sc, n, fade) => (s.placeScene sc .console n fade).answer (.ok []))

/-- RELEASE's operands (R144, R146). -/
def parseRelease (s : State) : List Text → Except Reason (ScreenId × Option CircuitId)
  | [a, b] => do
    let n ← formOf (number? a)
    let k ← formOf (circuitOperand? b)
    return (← screenOperand s n, k)
  | _ => .error .form

/-- RELEASE (R146). -/
def execRelease (ops : List Text) (s : State) : Outcome State Fault Refusal :=
  .next (s.takeCommand (.release ops) fun s =>
    match parseRelease s ops with
    | .error r => s.answer (.no r)
    | .ok (sc, c) => (s.releaseLevel sc .console c).answer (.ok []))

/-! ### HLSTAT -/

/-- A claim: rank, target and fade, and for the governing claim k and N (R147). -/
def claimFields (r : Rank) (c : Option Claim) : List Text :=
  match c with
  | none => []
  | some x =>
    [fRank r, fNum x.target, fNum x.fade] ++ (match x.governing with | none => [] | some f => [fNum f.k, fNum f.n])

/-- The fields of one circuit (R147). -/
def circuitFields (c : CircuitId) (x : Circuit) : List Text :=
  [fCircuit c, fNum x.output, fOpt fNum x.delay, (match x.claims.top with | none => txt "NONE" | some r => fRank r)]
    ++ claimFields .safety x.claims.safety ++ claimFields .fault x.claims.fault ++ claimFields .cue x.claims.cue
    ++ claimFields .console x.claims.console

/-- The fields of HLSTAT (R147). -/
def State.hlstatFields (s : State) (sc : ScreenId) : List Text :=
  circuitFields .house (s.circuit sc .house) ++ circuitFields .aisle (s.circuit sc .aisle)
    ++ circuitFields .stage (s.circuit sc .stage) ++ [fNum s.lights.halfCycle, fYesNo s.lights.valid]

/-- HLSTAT (R147). -/
def execHlstat (ops : List Text) (s : State) : Outcome State Fault Refusal :=
  .next (s.takeCommand (.hlstat ops) fun s =>
    match onlyScreen s ops with
    | .error r => s.answer (.no r)
    | .ok sc => s.answer (.ok (s.hlstatFields sc)))

end Sys2Proof.Machine
end

