-- ==== Sys2Proof/Machine/Lamps.lean ====
section
/-! DEFINITION. The commands of the lamp unit: gates, measures and the feed encoder, STRIKE, ARCOFF, TRIM, LAMPSET and
LSTAT (Chapter 4). -/

namespace Sys2Proof.Machine

open Sys2Proof Host

/-! ### Events at a lamphouse -/

/-- What came of a gate or a measure is reported; an arc established is a recomputation of the forecast (R66, R67,
R79). -/
def State.lampNews (m : MachineId) (news : LampNews) (s : State) : State :=
  match news with
  | .quiet => s
  | .struck attempt => (s.shortfallTest m).report (.strike m attempt (s.lamp m).forecast)
  | .failed cause => s.report (.arcOut m cause)

/-- The lamp unit takes an event on its record, reports it, and posts the change (R61). -/
def State.lampEvent (m : MachineId) (f : LampRec → LampRec × LampNews) (s : State) : State :=
  let out := f (s.lamp m)
  ((s.modLamp m fun _ => out.1).lampNews m out.2).lampSettled m (s.lamp m).state

/-- ARC_GATE (R63). -/
def execArcGate (m : MachineId) (count : Nat) (s : State) : Outcome State Fault Refusal :=
  .next (s.whenPowered fun s => s.lampEvent m (LampRec.takeGate (s.counted m count)))

/-- TOUCH_MEASURE_EXPIRY (R65, R67). -/
def execTouchMeasureExpiry (m : MachineId) (s : State) : Outcome State Fault Refusal :=
  .next (s.whenPowered (State.lampEvent m LampRec.touchExpires))

/-- RETRACT_MEASURE_EXPIRY (R66). -/
def execRetractMeasureExpiry (m : MachineId) (s : State) : Outcome State Fault Refusal :=
  .next (s.whenPowered (State.lampEvent m fun l => (l.retractExpires, .quiet)))

/-- PAUSE_MEASURE_EXPIRY (R67). -/
def execPauseMeasureExpiry (m : MachineId) (s : State) : Outcome State Fault Refusal :=
  .next (s.whenPowered (State.lampEvent m fun l => (l.pauseExpires, .quiet)))

/-- SHORT_GAP_RETRACT_EXPIRY (R70). -/
def execShortGapRetractExpiry (m : MachineId) (s : State) : Outcome State Fault Refusal :=
  .next (s.whenPowered (State.lampEvent m fun l => (l.shortGapExpires, .quiet)))

/-- A lamp whose Q has come to 0 in BURNING or STRIKING is exhausted and reported (R75). -/
def State.exhaustTest (m : MachineId) (s : State) : State :=
  if (s.lamp m).exhaustDue then (s.modLamp m LampRec.exhaust).report (.exhaust m) else s

/-- A feed encoder pulse (R74, R75). -/
def State.encoderPulse (m : MachineId) (forward : Bool) (s : State) : State :=
  ((s.modLamp m (LampRec.encoderPulse forward)).exhaustTest m).lampSettled m (s.lamp m).state

/-- FEED_ENCODER_PULSE (R74). An unwired pulse input gives no pulses (R176). That current flowing in the direction line
reads FWD under NORMAL is a DESIGN CHOICE (log entry 4). -/
def execFeedEncoderPulse (m : MachineId) (flowing : Bool) (s : State) : Outcome State Fault Refusal :=
  .next (s.whenPowered fun s =>
    if s.wired m then s.encoderPulse m (s.sense m s.straps.encoderDirection flowing) else s)

/-- BUCKET_MEASURE_EXPIRY (R76). -/
def execBucketMeasureExpiry (m : MachineId) (s : State) : Outcome State Fault Refusal :=
  .next (s.whenPowered fun s =>
    if (s.lamp m).state = .burning ∧ (s.lamp m).bucketMeasure.isSome = true then
      ((s.modLamp m LampRec.bucketExpires).shortfallTest m).lampSettled m .burning
    else s)

/-! ### STRIKE, ARCOFF and TRIM -/

/-- STRIKE's tests (R64, R80). -/
def parseStrike (s : State) (ops : List Text) : Except Reason MachineId := do
  let m ← onlyMachine s ops
  match strikeDecline (s.machine m).holds.fire (s.lamp m) with
  | none => return m
  | some .trip => .error .trip
  | some (.lampState _) => .error .state
  | some .noCarbon => .error .state

/-- STRIKE (R64). -/
def execStrike (ops : List Text) (s : State) : Outcome State Fault Refusal :=
  .next (s.takeCommand (.strike ops) fun s =>
    match parseStrike s ops with
    | .error r => s.answer (.no r)
    | .ok m => ((s.modLamp m LampRec.beginStrike).lampSettled m (s.lamp m).state).answer (.ok []))

/-- ARCOFF (R72). -/
def execArcoff (ops : List Text) (s : State) : Outcome State Fault Refusal :=
  .next (s.takeCommand (.arcoff ops) fun s =>
    match onlyMachine s ops with
    | .error r => s.answer (.no r)
    | .ok m => ((s.modLamp m LampRec.arcOff).lampSettled m (s.lamp m).state).answer (.ok []))

/-- TRIM's operands and tests (R80, R81). -/
def parseTrim (s : State) : List Text → Except Reason (MachineId × Nat)
  | [a, b] => do
    let n ← formOf (number? a)
    let mm ← formOf (number? b)
    let m ← machineOperand s n
    need (50 ≤ mm && mm ≤ 600) .range
    need (!(s.lamp m).contactorClosed && (s.lamp m).state != .striking) .state
    return (m, mm)
  | _ => .error .form

/-- TRIM (R81). -/
def execTrim (ops : List Text) (s : State) : Outcome State Fault Refusal :=
  .next (s.takeCommand (.trim ops) fun s =>
    match parseTrim s ops with
    | .error r => s.answer (.no r)
    | .ok (m, mm) =>
      (((s.modLamp m (LampRec.newTrim mm)).shortfallTest m).lampSettled m (s.lamp m).state).answer (.ok []))

/-! ### LAMPSET and LSTAT -/

/-- The settings a LAMPSET names (R82). -/
structure LampSettings where
  set : Option Nat
  hold : Option Nat
  gain : Option Nat
  rate : Option Nat
  stub : Option Nat
  lead : Option Nat
  res : Option Nat
  deriving DecidableEq, Repr

/-- No setting named. -/
def LampSettings.empty : LampSettings := ⟨none, none, none, none, none, none, none⟩

/-- One operand keyword=value of LAMPSET (R82). -/
def LampSettings.take (x : LampSettings) (w : Text) : Except Reason LampSettings := do
  let (k, t) ← formOf (keyValue? w)
  let v ← formOf (number? t)
  if k = txt "SET" then return { x with set := ← once x.set v }
  else if k = txt "HOLD" then return { x with hold := ← once x.hold v }
  else if k = txt "GAIN" then return { x with gain := ← once x.gain v }
  else if k = txt "RATE" then return { x with rate := ← once x.rate v }
  else if k = txt "STUB" then return { x with stub := ← once x.stub v }
  else if k = txt "LEAD" then return { x with lead := ← once x.lead v }
  else if k = txt "RES" then return { x with res := ← once x.res v }
  else .error .form

/-- All the operands of a LAMPSET. -/
def LampSettings.takeAll (x : LampSettings) : List Text → Except Reason LampSettings
  | [] => .ok x
  | w :: ws => do LampSettings.takeAll (← x.take w) ws

/-- Every value named is in its range (R82). -/
def LampSettings.inRange (x : LampSettings) : Bool :=
  within 400 800 x.set && within 0 255 x.hold && within 1 32 x.gain && within 20 600 x.rate && within 20 100 x.stub
    && within 20 180 x.lead && within 0 300 x.res

/-- A word of the form keyword=number (R82). -/
def settingForm (w : Text) : Bool := ((keyValue? w).bind fun p => number? p.2).isSome

/-- LAMPSET's operands: R80's tests, a malformed operand and m, go before R82's tests of the keywords and their
values (log entry 12). -/
def parseLampset (s : State) : List Text → Except Reason (MachineId × LampSettings)
  | a :: b :: rest => do
    let n ← formOf (number? a)
    need ((b :: rest).all settingForm) .form
    let m ← machineOperand s n
    let x ← LampSettings.empty.takeAll (b :: rest)
    need x.inRange .range
    return (m, x)
  | _ => .error .form

/-- The settings named are written and the forecast recomputed (R82). -/
def LampRec.withSettings (x : LampSettings) (l : LampRec) : LampRec :=
  { l with
    setpoint := x.set.getD l.setpoint
    holdingDuty := x.hold.getD l.holdingDuty
    gain := x.gain.getD l.gain
    nominalRate := x.rate.getD l.nominalRate
    stub := x.stub.getD l.stub
    strikeLead := x.lead.getD l.strikeLead
    reserve := x.res.getD l.reserve }.recompute

/-- LAMPSET (R82). -/
def execLampset (ops : List Text) (s : State) : Outcome State Fault Refusal :=
  .next (s.takeCommand (.lampset ops) fun s =>
    match parseLampset s ops with
    | .error r => s.answer (.no r)
    | .ok (m, x) =>
      ((((s.modLamp m (LampRec.withSettings x)).shortfallTest m).exhaustTest m).lampSettled m
        (s.lamp m).state).answer (.ok []))

/-- The state of a lamp and what follows it (R83). -/
def lampStateFields (l : LampRec) : List Text :=
  match l.state with
  | .fault => [fLampState .fault, fOpt fLampFault l.faultCause]
  | .striking =>
    [fLampState .striking, fOpt fPhase l.phase, fNum l.attempt] ++ (if l.restrike then [txt "RESTRIKE"] else [])
  | .dark => [fLampState .dark]
  | .burning => [fLampState .burning]
  | .exhausted => [fLampState .exhausted]

/-- The fields of LSTAT (R83). -/
def lstatFields (m : MachineId) (l : LampRec) : List Text :=
  fMachine m :: lampStateFields l
    ++ [fClosed l.contactorClosed, (if l.feedForward then txt "FWD" else txt "REV"), fNum l.feedDuty, fNum l.arcCount,
      fNum l.trim, fNum l.stub, fNum l.consumed, fNum l.carbonMm, fNum l.rateInUse,
      (if l.rateMeasured then txt "MEAS" else txt "NOM"), fNum l.completed, fNum l.forecast, fOpt fNum l.boundLength,
      fOpt fYesNo l.carbonOk, fNum l.setpoint, fNum l.holdingDuty, fNum l.gain, fNum l.nominalRate, fNum l.strikeLead,
      fNum l.reserve]

/-- LSTAT (R83). -/
def execLstat (ops : List Text) (s : State) : Outcome State Fault Refusal :=
  .next (s.takeCommand (.lstat ops) fun s =>
    match onlyMachine s ops with
    | .error r => s.answer (.no r)
    | .ok m => s.answer (.ok (lstatFields m (s.lamp m))))

end Sys2Proof.Machine
end

