-- ==== Sys2Proof/Machine/Plan.lean ====
section
/-! DEFINITION. The commands of the plan store: REEL, PLANCOPY, PLANCLR, PSTAT, THREAD, UNTHREAD, TIME, SHOWAT and the
booth clock's advance (Chapter 5). -/

namespace Sys2Proof.Machine

open Sys2Proof Host

/-! ### REEL -/

/-- The optional operands of REEL (R91). -/
structure ReelOptions where
  co : Option Nat
  win : Option Nat
  run : Option Nat
  mode : Option CueMode
  scene : Option Nat
  last : Bool
  int : Option Nat
  note : Bool
  deriving DecidableEq, Repr

/-- No optional operand given. -/
def ReelOptions.empty : ReelOptions := ⟨none, none, none, none, none, false, none, false⟩

/-- FILM or FOOT (R91). -/
def cueMode? (w : Text) : Option CueMode :=
  if w = txt "FILM" then some .film else if w = txt "FOOT" then some .foot else none

/-- One optional operand (R91). -/
def ReelOptions.take (x : ReelOptions) (w : Text) : Except Reason ReelOptions :=
  if w = txt "LAST" then if x.last then .error .form else .ok { x with last := true }
  else if w = txt "NOTE" then if x.note then .error .form else .ok { x with note := true }
  else do
    let (k, t) ← formOf (keyValue? w)
    if k = txt "MODE" then return { x with mode := ← once x.mode (← formOf (cueMode? t)) }
    else
      let v ← formOf (number? t)
      if k = txt "CO" then return { x with co := ← once x.co v }
      else if k = txt "WIN" then return { x with win := ← once x.win v }
      else if k = txt "RUN" then return { x with run := ← once x.run v }
      else if k = txt "SCENE" then return { x with scene := ← once x.scene v }
      else if k = txt "INT" then return { x with int := ← once x.int v }
      else .error .form

/-- All the optional operands. -/
def ReelOptions.takeAll (x : ReelOptions) : List Text → Except Reason ReelOptions
  | [] => .ok x
  | w :: ws => do ReelOptions.takeAll (← x.take w) ws

/-- CO is present exactly when neither LAST nor INT is present, and LAST and INT are not both present (R91). -/
def ReelOptions.agree (x : ReelOptions) : Bool :=
  (x.co.isSome == (!x.last && x.int.isNone)) && !(x.last && x.int.isSome)

/-- The ranges of L and the optional operands (R91). -/
def ReelOptions.inRange (x : ReelOptions) (len : Nat) : Bool :=
  decide (1 ≤ len) && decide (len ≤ Config.maxFrames) && within 1 (len - 1) x.co && within 0 480 x.win
    && within 0 480 x.run && within 0 7 x.scene && within 0 30 x.int

/-- The entry written: operands omitted take the defaults of Table 5-1 (R91). -/
def ReelOptions.entry (x : ReelOptions) (id : Text) (len : Nat) : SlotEntry where
  reel := id
  length := len
  co := x.co
  window := x.win.getD 48
  runUp := x.run.getD 192
  mode := x.mode.getD .film
  scene := x.scene.bind sceneOf?
  last := x.last
  int := x.int
  note := x.note

/-- REEL's operands and tests, in order (R91). -/
def parseReel (s : State) : List Text → Except Reason (ScreenId × SlotIx × SlotEntry)
  | a :: b :: id :: d :: rest => do
    let sn ← formOf (number? a)
    let kn ← formOf (number? b)
    let len ← formOf (number? d)
    need (isReelId id) .form
    let x ← ReelOptions.empty.takeAll rest
    need x.agree .form
    let sc ← screenOperand s sn
    let k ← slotOperand kn
    need (x.inRange len) .range
    need (!s.frozen sc k) .frozen
    need ((s.slot sc k).status != .bound) .state
    return (sc, k, x.entry id len)
  | _ => .error .form

/-- A slot holding an entry and no binding (R86). -/
def Slot.loadedWith (e : SlotEntry) : Slot := ⟨.loaded, none, some e⟩

/-- REEL (R91). -/
def execReel (ops : List Text) (s : State) : Outcome State Fault Refusal :=
  .next (s.takeCommand (.reel ops) fun s =>
    match parseReel s ops with
    | .error r => s.answer (.no r)
    | .ok (sc, k, e) => ((s.modSlot sc k fun _ => Slot.loadedWith e).evaluateScreen sc).answer (.ok []))

/-! ### PLANCOPY and PLANCLR -/

/-- What a copied slot becomes: the source's entry, LOADED, or EMPTY (R92). -/
def Slot.copied (x : Slot) : Slot :=
  match x.entry with
  | none => Slot.cleared
  | some e => Slot.loadedWith e

/-- Slot `n` of a table, an EMPTY slot above 23. -/
def PlanTable.at (t : PlanTable) (n : Nat) : Slot := t.toList.getD n Slot.cleared

/-- `count` slots of a table from `f` are written from a function of their places; the rest stand. -/
def PlanTable.writeRange (f count : Nat) (g : Nat → Slot) (t : PlanTable) : PlanTable :=
  Vector.ofFn fun i : SlotIx => if f ≤ i.val ∧ i.val < f + count then g i.val else t[i]

/-- Whether some slot of a range satisfies a test. -/
def anyInRange (f count : Nat) (p : SlotIx → Bool) : Bool :=
  allSlots.any fun n => decide (f ≤ n.val) && decide (n.val < f + count) && p n

/-- The plan table of a screen is replaced. -/
def State.putTable (sc : ScreenId) (t : PlanTable) (s : State) : State :=
  s.modPlan fun p => { p with tables := p.tables.set sc t }

/-- A range of slots that may be written: none frozen, then none BOUND (R92, R93). -/
def writableRange (s : State) (sc : ScreenId) (f count : Nat) : Except Reason Unit := do
  need (!anyInRange f count (s.frozen sc)) .frozen
  need (!anyInRange f count fun n => (s.slot sc n).status == .bound) .state

/-- The slots and count of a range lie within a table (R92). -/
def rangeFits (f count : Nat) : Bool :=
  decide (f < Config.slotCount) && decide (count ≤ Config.slotCount) && decide (f + count ≤ Config.slotCount)

/-- What PLANCOPY copies. -/
structure CopyOrder where
  source : ScreenId
  from_ : Nat
  target : ScreenId
  to_ : Nat
  count : Nat
  deriving DecidableEq, Repr

/-- PLANCOPY's operands and tests, in order (R92). -/
def parsePlancopy (s : State) : List Text → Except Reason CopyOrder
  | [a, b, c, d, e] => do
    let s1 ← formOf (number? a)
    let f1 ← formOf (number? b)
    let s2 ← formOf (number? c)
    let f2 ← formOf (number? d)
    let count ← formOf (number? e)
    let sc1 ← screenOperand s s1
    let sc2 ← screenOperand s s2
    need (rangeFits f1 count && rangeFits f2 count) .range
    if count = 0 then return ⟨sc1, f1, sc2, f2, 0⟩
    else
      writableRange s sc2 f2 count
      return ⟨sc1, f1, sc2, f2, count⟩
  | _ => .error .form

/-- Every source slot is read before any destination slot is written (R92). -/
def State.planCopy (o : CopyOrder) (s : State) : State :=
  let src := s.plan.tables.get o.source
  s.putTable o.target
    (PlanTable.writeRange o.to_ o.count (fun i => (PlanTable.at src (o.from_ + (i - o.to_))).copied)
      (s.plan.tables.get o.target))

/-- PLANCOPY (R92). -/
def execPlancopy (ops : List Text) (s : State) : Outcome State Fault Refusal :=
  .next (s.takeCommand (.plancopy ops) fun s =>
    match parsePlancopy s ops with
    | .error r => s.answer (.no r)
    | .ok o =>
      if o.count = 0 then s.answer (.ok []) else ((s.planCopy o).evaluateScreen o.target).answer (.ok []))

/-- PLANCLR's operands and tests, in order (R93). -/
def parsePlanclr (s : State) : List Text → Except Reason (ScreenId × Nat × Nat)
  | [a, b, c] => do
    let sn ← formOf (number? a)
    let f ← formOf (number? b)
    let count ← formOf (number? c)
    let sc ← screenOperand s sn
    need (rangeFits f count) .range
    if count = 0 then return (sc, f, 0)
    else
      writableRange s sc f count
      return (sc, f, count)
  | _ => .error .form

/-- PLANCLR (R93). -/
def execPlanclr (ops : List Text) (s : State) : Outcome State Fault Refusal :=
  .next (s.takeCommand (.planclr ops) fun s =>
    match parsePlanclr s ops with
    | .error r => s.answer (.no r)
    | .ok (sc, f, count) =>
      if count = 0 then s.answer (.ok [])
      else
        ((s.putTable sc (PlanTable.writeRange f count (fun _ => Slot.cleared) (s.plan.tables.get sc))).evaluateScreen
          sc).answer (.ok []))

/-! ### PSTAT -/

/-- The operands s and n (R90). -/
def screenAndSlot (s : State) : List Text → Except Reason (ScreenId × SlotIx)
  | [a, b] => do
    let sn ← formOf (number? a)
    let kn ← formOf (number? b)
    return (← screenOperand s sn, ← slotOperand kn)
  | _ => .error .form

/-- The role of a slot (R94). On a HALTED screen one slot may be both the on-deck slot and the next slot, and R94 gives no
order of the two words: it is given ONDECK (DESIGN CHOICE, log entry 13). -/
def State.slotRole (s : State) (sc : ScreenId) (n : SlotIx) : Text :=
  if s.isCurrent sc n then txt "CURRENT"
  else if s.onDeck sc = some n then txt "ONDECK"
  else if ((s.screen sc).state = .idle ∨ (s.screen sc).state = .halted) ∧ s.nextSlot sc = some n then txt "NEXT"
  else if s.frozen sc n then txt "FROZEN"
  else fAbsent

/-- The fields of an entry (R94). -/
def entryFields (e : Option SlotEntry) : List Text :=
  match e with
  | none => List.replicate 10 fAbsent
  | some e =>
    [e.reel, fNum e.length, fOpt fNum e.co, fNum e.window, fNum e.runUp,
      (match e.mode with | .film => txt "FILM" | .foot => txt "FOOT"), fOpt (fun n => fNum n.val) e.scene,
      (if e.last then txt "LAST" else fAbsent), fOpt fNum e.int, (if e.note then txt "NOTE" else fAbsent)]

/-- The fields of PSTAT (R94). -/
def State.pstatFields (s : State) (sc : ScreenId) (n : SlotIx) : List Text :=
  [fScreen sc, fSlot n, fSlotStatus (s.slot sc n).status, s.slotRole sc n, fOpt fMachine (s.slot sc n).bound]
    ++ entryFields (s.slot sc n).entry

/-- PSTAT (R94). -/
def execPstat (ops : List Text) (s : State) : Outcome State Fault Refusal :=
  .next (s.takeCommand (.pstat ops) fun s =>
    match screenAndSlot s ops with
    | .error r => s.answer (.no r)
    | .ok (sc, n) => s.answer (.ok (s.pstatFields sc n)))

/-! ### THREAD and UNTHREAD -/

/-- The lowest LOADED slot of a screen that names a reel (R95). -/
def State.slotNamed (s : State) (sc : ScreenId) (id : Text) : Option (SlotIx × SlotEntry) :=
  allSlots.findSome? fun n =>
    match (s.slot sc n).status, (s.slot sc n).entry with
    | .loaded, some e => if e.reel = id then some (n, e) else none
    | _, _ => none

/-- The state test of THREAD (R95). -/
def threadTest : MachineState → Except Reason Unit
  | .empty => .ok ()
  | .tripped => .error .trip
  | .threaded | .armed | .starting | .runup | .onScreen | .runout | .stopped | .broken => .error .state

/-- THREAD's operands and tests, in order (R95). -/
def parseThread (s : State) : List Text → Except Reason (MachineId × Text × SlotIx × SlotEntry)
  | [a, id] => do
    let n ← formOf (number? a)
    need (isReelId id) .form
    let m ← machineOperand s n
    threadTest (s.machine m).state
    match s.slotNamed (screenOf m) id with
    | none => .error .notFound
    | some (k, e) =>
      need (!(s.machine m).motor) .state
      return (m, id, k, e)
  | _ => .error .form

/-- The binding is made on both sides, the lamp unit takes its notice, and ARMED is evaluated (R95, R16, R78). -/
def State.threadReel (m : MachineId) (id : Text) (k : SlotIx) (e : SlotEntry) (s : State) : State :=
  (((s.modSlot (screenOf m) k fun x => { x with status := .bound, bound := some m }).modMachine m
      (MachineRec.acceptReel id k)).modLamp m (LampRec.bind e.length)).evaluate m

/-- THREAD (R95). -/
def execThread (ops : List Text) (s : State) : Outcome State Fault Refusal :=
  .next (s.takeCommand (.thread ops) fun s =>
    match parseThread s ops with
    | .error r => s.answer (.no r)
    | .ok (m, id, k, e) => (s.threadReel m id k e).answer (.ok []))

/-- The state test of UNTHREAD (R96). -/
def unthreadTest : MachineState → Except Reason Unit
  | .empty | .threaded | .armed | .stopped | .broken => .ok ()
  | .tripped => .error .trip
  | .starting | .runup | .onScreen | .runout => .error .state

/-- UNTHREAD's operand and tests (R96). -/
def parseUnthread (s : State) (ops : List Text) : Except Reason MachineId := do
  let m ← onlyMachine s ops
  unthreadTest (s.machine m).state
  return m

/-- UNTHREAD (R96, R18). The ARMED condition is evaluated once, after the binding has ended and the machine is EMPTY,
and not between the two (R99, R100; DESIGN CHOICE, log entry 32). -/
def execUnthread (ops : List Text) (s : State) : Outcome State Fault Refusal :=
  .next (s.takeCommand (.unthread ops) fun s =>
    match parseUnthread s ops with
    | .error r => s.answer (.no r)
    | .ok m =>
      (((s.endBinding m .loaded).modMachine m MachineRec.unthread).evaluateScreen (screenOf m)).answer (.ok []))

/-! ### TIME and SHOWAT -/

/-- What TIME asks: the clock, or a new time of day (R101). -/
def parseTime : List Text → Except Reason (Option Nat)
  | [] => .ok none
  | [w] => do
    let (h, m, x) ← formOf (hoursMinutesSeconds? w)
    need (h ≤ 23 && m ≤ 59 && x ≤ 59) .range
    return some (h * 3600 + m * 60 + x)
  | _ => .error .form

/-- TIME (R101). -/
def execTime (ops : List Text) (s : State) : Outcome State Fault Refusal :=
  .next (s.takeCommand (.time ops) fun s =>
    match parseTime ops with
    | .error r => s.answer (.no r)
    | .ok none => s.answer (.ok [fClock s.plan.clock])
    | .ok (some t) => (s.modPlan fun p => { p with clock := some t, clockSecond := 0 }).answer (.ok []))

/-- What SHOWAT asks of a screen (R102). -/
inductive ShowAtOrder
  | read
  | off
  | set (t : Nat)
  deriving DecidableEq, Repr

/-- SHOWAT's operands and tests (R102). -/
def parseShowat (s : State) : List Text → Except Reason (ScreenId × ShowAtOrder)
  | [a] => do
    let n ← formOf (number? a)
    return (← screenOperand s n, .read)
  | [a, w] => do
    let n ← formOf (number? a)
    if w = txt "OFF" then return (← screenOperand s n, .off)
    else
      let (h, m) ← formOf (hoursMinutes? w)
      let sc ← screenOperand s n
      need (h ≤ 23 && m ≤ 59) .range
      need s.plan.clock.isSome .state
      return (sc, .set (h * 3600 + m * 60))
  | _ => .error .form

/-- The SHOWAT time of a screen is set or cleared. -/
def State.putShowAt (sc : ScreenId) (t : Option Nat) (s : State) : State :=
  s.modPlan fun p => { p with showAt := p.showAt.set sc t }

/-- SHOWAT (R102). -/
def execShowat (ops : List Text) (s : State) : Outcome State Fault Refusal :=
  .next (s.takeCommand (.showat ops) fun s =>
    match parseShowat s ops with
    | .error r => s.answer (.no r)
    | .ok (sc, .read) =>
      s.answer (.ok [match s.plan.showAt.get sc with | none => txt "OFF" | some t => fHourMinute t])
    | .ok (sc, .off) => (s.putShowAt sc none).answer (.ok [])
    | .ok (sc, .set t) => (s.putShowAt sc (some t)).answer (.ok []))

/-! ### The booth clock -/

/-- A SHOWAT time fires: the screen is opened, or *SHOWLATE says why not (R103). -/
def State.fireShowAt (sc : ScreenId) (s : State) : State :=
  if (s.screen sc).state ≠ .idle then s.report (.showLate sc .busy)
  else
    match s.nextSlot sc with
    | none => s.report (.showLate sc .empty)
    | some n =>
      if s.startBlocked sc then s.report (.showLate sc .trip)
      else (s.openSlot sc n).1.reportIf (s.openSlot sc n).2 (.showLate sc .armed)

/-- A screen whose SHOWAT time is the clock's new time fires it (R103). -/
def State.showAtDue (sc : ScreenId) (t : Nat) (s : State) : State :=
  if s.plan.showAt.get sc = some t then (s.putShowAt sc none).fireShowAt sc else s

/-- The clock advances by one second (R101, R103). Of two SHOWAT times met at one advance the model fires screen 1's first
(DESIGN CHOICE, log entry 10). -/
def State.clockTick (s : State) : State :=
  match s.plan.clock with
  | none => s
  | some t =>
    let u := (t + 1) % Config.secondsPerDay
    ((s.modPlan fun p => { p with clock := some u, clockSecond := 0 }).showAtDue .s1 u).showAtDue .s2 u

/-- CLOCK_ADVANCE (R101). -/
def execClockAdvance (dt : Nat) (s : State) : Outcome State Fault Refusal :=
  .next (s.whenPowered fun s => (s.elapse dt).clockTick)

end Sys2Proof.Machine
end

