-- ==== Sys2Proof/Machine/Projection.lean ====
section
/-! DEFINITION. The commands of the machine unit and the cue action table: frame pulses, the loop switch, the contactor
sense and the stall measures, MOTOR, DOUSE, MSTAT and CUEMAP (Chapters 1 to 3). -/

namespace Sys2Proof.Machine

open Sys2Proof Host

/-! ### Events at a machine's wiring -/

/-- A return to AT_SPEED or a fall to OFF_SPEED is reported with the cfps of that evaluation (R14). -/
def State.speedReport (m : MachineId) (before : SpeedStatus) (s : State) : State :=
  match before, (s.machine m).speed with
  | .atSpeed, .offSpeed => s.report (.speed m false (s.machine m).cfps)
  | .offSpeed, .atSpeed => s.report (.speed m true (s.machine m).cfps)
  | _, _ => s

/-- A running machine whose frame count is at or beyond L has reached its reel end (R10). -/
def State.atReelEnd (s : State) (m : MachineId) : Bool :=
  (s.machine m).state.running &&
    match s.boundLength m with
    | none => false
    | some len => decide (len ≤ (s.machine m).frameCount)

/-- A frame pulse (R4): the count, the period and the speed, then the reel end, then the frame notice to the cue
decoder and to the controller (the order is log entry 9). The controller takes the postings of this pulse's speed evaluation
(R32) together with the frame notice, after the decoder's sample (DESIGN CHOICE, log entry 42). -/
def State.framePulse (m : MachineId) (foil : Bool) (s : State) : State :=
  let s1 := (s.modMachine m MachineRec.pulse).speedReport m (s.machine m).speed
  let s2 := if s1.atReelEnd m then s1.reelEnd m else s1
  (s2.decoderNotice m foil).frameNotice m

/-- FRAME_PULSE (R4, R28, R43). An unwired pulse input gives no pulses (R176). -/
def execFramePulse (m : MachineId) (dt : Nat) (foil : Bool) (s : State) : Outcome State Fault Refusal :=
  .next (s.whenPowered fun s =>
    let t := s.elapse dt
    if t.wired m then t.framePulse m (t.sense m t.straps.foil foil) else t)

/-- The runout-tail test (R11). -/
def State.tailDue (s : State) (m : MachineId) : Bool :=
  match s.boundEntry m with
  | none => false
  | some e =>
    ((s.machine m).state == .runout || ((s.machine m).state == .onScreen && (e.last || e.int.isSome)))
      && decide (e.length ≤ (s.machine m).frameCount + Config.tailFrames)

/-- The loop switch of a running machine reads OPEN (R11). -/
def State.loopOpened (m : MachineId) (s : State) : State :=
  if (s.machine m).state.running then (if s.tailDue m then s.reelEnd m else s.breakRun m .loop) else s

/-- LOOP_SWITCH_OPEN (R11): the loop switch is read, and OPEN acts in a running state. -/
def execLoopSwitchOpen (m : MachineId) (flowing : Bool) (s : State) : Outcome State Fault Refusal :=
  .next (s.whenPowered fun s =>
    let closed := s.sense m s.straps.loopSwitch flowing
    let s1 := s.modMachine m fun r => { r with loopSwitchClosed := closed }
    if closed then s1 else s1.loopOpened m)

/-- CONTACTOR_SENSE_CHANGE (R3). -/
def execContactorSenseChange (m : MachineId) (flowing : Bool) (s : State) : Outcome State Fault Refusal :=
  .next (s.whenPowered fun s =>
    s.modMachine m (MachineRec.takeContactorSense (s.sense m s.straps.contactorSense flowing)))

/-- The contactor measure reaches 500 ms (R3). -/
def State.contactorFails (m : MachineId) (s : State) : State :=
  if (s.machine m).contactorMeasure.isSome then
    if (s.machine m).state.running then s.breakRun m .contactor
    else if (s.machine m).state = .empty ∧ (s.machine m).laceUp = true then
      (s.modMachine m MachineRec.motorOff).report (.broke m .contactor (s.machine m).frameCount)
    else s
  else s

/-- CONTACTOR_FAILURE (R3). -/
def execContactorFailure (m : MachineId) (s : State) : Outcome State Fault Refusal :=
  .next (s.whenPowered (State.contactorFails m))

/-- Whether one of the stall measures runs (R12). -/
def MachineRec.stallMeasured (r : MachineRec) : Bool := r.startMeasure.isSome || (r.atSpeedReached && r.pulseMeasure.isSome)

/-- STALL (R12). -/
def execStall (m : MachineId) (s : State) : Outcome State Fault Refusal :=
  .next (s.whenPowered fun s =>
    if (s.machine m).state.running && (s.machine m).stallMeasured then s.breakRun m .stall else s)

/-- NO_PULSE_TIMER_EXPIRY (R33): the status becomes STOPPED and the change is posted to the controller. -/
def execNoPulseTimerExpiry (m : MachineId) (s : State) : Outcome State Fault Refusal :=
  .next (s.whenPowered fun s =>
    if (s.machine m).noPulseTimer.isSome then (s.modMachine m MachineRec.noPulse).machinePosted m else s)

/-! ### MOTOR, DOUSE and MSTAT -/

/-- One of two words, as true or false. -/
def eitherWord? (yes no w : Text) : Option Bool :=
  if w = yes then some true else if w = no then some false else none

/-- The operands m and one of two words (R22 to R24). -/
def machineAndWord (s : State) (yes no : Text) : List Text → Except Reason (MachineId × Bool)
  | [w, v] => do
    let n ← formOf (number? w)
    let b ← formOf (eitherWord? yes no v)
    return (← machineOperand s n, b)
  | _ => .error .form

/-- A lace-up run begins; one already on is left (R23). -/
def MachineRec.laceUpOn (t : Nat) (r : MachineRec) : MachineRec :=
  if r.motor then r else { r.motorOn t with laceUp := true }

/-- The state tests of MOTOR (R23). -/
def motorTest : MachineState → Except Reason Unit
  | .empty => .ok ()
  | .tripped => .error .trip
  | .threaded | .armed | .starting | .runup | .onScreen | .runout | .stopped | .broken => .error .state

/-- MOTOR's operands and tests (R22, R23). -/
def parseMotor (s : State) (ops : List Text) : Except Reason (MachineId × Bool) := do
  let (m, on) ← machineAndWord s (txt "ON") (txt "OFF") ops
  motorTest (s.machine m).state
  return (m, on)

/-- MOTOR (R23). -/
def execMotor (ops : List Text) (s : State) : Outcome State Fault Refusal :=
  .next (s.takeCommand (.motor ops) fun s =>
    match parseMotor s ops with
    | .error r => s.answer (.no r)
    | .ok (m, on) =>
      (s.modMachine m fun r => if on then r.laceUpOn s.timebase else r.motorOff).answer (.ok []))

/-- DOUSE (R24). The hold change is posted to the controller (R1). -/
def execDouse (ops : List Text) (s : State) : Outcome State Fault Refusal :=
  .next (s.takeCommand (.douse ops) fun s =>
    match machineAndWord s (txt "CLOSE") (txt "OPEN") ops with
    | .error r => s.answer (.no r)
    | .ok (m, close) => ((s.holdRequest m .console close).machinePosted m).answer (.ok []))

/-- The fields of MSTAT (R25). -/
def mstatFields (m : MachineId) (r : MachineRec) : List Text :=
  [fMachine m, fMachineState r.state]
    ++ (if r.state = .broken then [fOpt fBreakCause r.breakCause] else [])
    ++ (if r.state = .tripped then [fOpt fMachineState r.stateBeforeTrip] else [])
    ++ [fOpt id r.reelId, fOpt fSlot r.boundSlot, fNum r.frameCount]
    ++ (if r.saturated then [txt "SAT"] else [])
    ++ [fOnOff r.motor, fSpeed r.speed, fOpt fNum r.cfps, fDouser r.douser, fHolds r.holds, fNum r.accelAllowance,
      fOpt fNum r.pictureLost, fNum r.rejected]

/-- MSTAT (R25). -/
def execMstat (ops : List Text) (s : State) : Outcome State Fault Refusal :=
  .next (s.takeCommand (.mstat ops) fun s =>
    match onlyMachine s ops with
    | .error r => s.answer (.no r)
    | .ok m => s.answer (.ok (mstatFields m (s.machine m))))

/-! ### CUEMAP -/

/-- An action as written, before its scene number is judged (R55). -/
inductive ActionWords
  | scene (n fade : Nat)
  | level (circuit : Option CircuitId) (level fade : Nat)
  | sound (level : Nat)
  | note
  deriving DecidableEq, Repr

/-- The next action written and the words after it (R55, 3.5). -/
def nextAction? : List Text → Option (ActionWords × List Text)
  | [] => none
  | w :: ws =>
    if w = txt "NOTE" then some (.note, ws)
    else if w = txt "SOUND" then
      match ws with
      | a :: rest => do some (.sound (← number? a), rest)
      | _ => none
    else if w = txt "SCENE" then
      match ws with
      | a :: b :: rest => do some (.scene (← number? a) (← number? b), rest)
      | _ => none
    else if w = txt "LEVEL" then
      match ws with
      | a :: b :: c :: rest => do some (.level (← circuitOperand? a) (← number? b) (← number? c), rest)
      | _ => none
    else none

/-- Up to `n` actions written one after another (R55). -/
def actionsWritten? : Nat → List Text → Option (List ActionWords)
  | _, [] => some []
  | 0, _ :: _ => none
  | n + 1, ws =>
    match nextAction? ws with
    | none => none
    | some (a, rest) => (actionsWritten? n rest).map (a :: ·)

/-- The action stored: limits are applied, a scene number above 7 is out of range (R55). -/
def storedAction : ActionWords → Except Reason CueAction
  | .scene n fade => do return .scene (← sceneOperand n) (min Config.maxFade fade)
  | .level c level fade => .ok (.level c (min Config.fullLevel level) (min Config.maxFade fade))
  | .sound level => .ok (.sound (min Config.maxSound level))
  | .note => .ok .note

/-- The actions stored, in the order written. -/
def storedActions : List ActionWords → Except Reason (List CueAction)
  | [] => .ok []
  | a :: as => do return (← storedAction a) :: (← storedActions as)

/-- CUEMAP's operands: the screen, the code, and the list to write where one is given (R55). -/
def parseCuemap (s : State) : List Text → Except Reason (ScreenId × EffectCode × Option (List CueAction))
  | a :: b :: rest => do
    let n ← formOf (number? a)
    let k ← formOf (number? b)
    let list ←
      if rest = [] then pure none
      else if rest = [txt "NONE"] then pure (some [])
      else do pure (some (← formOf (actionsWritten? 3 rest)))
    let sc ← screenOperand s n
    let code ← match effectOf? k with
      | none => .error .range
      | some c => .ok c
    match list with
    | none => return (sc, code, none)
    | some as => return (sc, code, some (← storedActions as))
  | _ => .error .form

/-- An action as CUEMAP reads it back (R55). -/
def CueAction.fields : CueAction → List Text
  | .scene n fade => [txt "SCENE", fNum n.val, fNum fade]
  | .level c l fade =>
    [txt "LEVEL", (match c with | none => txt "ALL" | some k => fCircuit k), fNum l, fNum fade]
  | .sound l => [txt "SOUND", fNum l]
  | .note => [txt "NOTE"]

/-- A list as CUEMAP reads it back (R55). -/
def actionListFields (l : List CueAction) : List Text :=
  if l.isEmpty then [txt "NONE"] else l.flatMap CueAction.fields

/-- CUEMAP (R55). -/
def execCuemap (ops : List Text) (s : State) : Outcome State Fault Refusal :=
  .next (s.takeCommand (.cuemap ops) fun s =>
    match parseCuemap s ops with
    | .error r => s.answer (.no r)
    | .ok (sc, code, none) => s.answer (.ok (actionListFields ((s.screen sc).cueTable.get code)))
    | .ok (sc, code, some l) =>
      (s.modScreen sc fun x => { x with cueTable := x.cueTable.set code l }).answer (.ok []))

end Sys2Proof.Machine
end

