-- ==== Sys2Proof/Machine/StartUp.lean ====
section
/-! DEFINITION. Power and RESTART (Chapter 10). -/

namespace Sys2Proof.Machine

open Sys2Proof Host

/-! ### Power -/

/-- A sense line of machine `m` as it stands at power-on, through its strap; an unwired one carries no current (R175 to
R177). -/
def lineReading (p : Straps) (pol : Quad Polarity) (line : Quad Bool) (m : MachineId) : Bool :=
  (pol.get m).read (line.get m && (screenOf m == .s1 || p.screen2Fitted))

/-- A value formed for each machine. -/
def Quad.each {α : Type} (f : MachineId → α) : Quad α := ⟨f .m1, f .m2, f .m3, f .m4⟩

/-- POWER_ON (R177): every block takes its starting values (R26, R42, R60, R84, R104, R130, R148, R166); the straps and
the inputs are read as they stand. Commands still waiting wait on. -/
def execPowerOn (straps : Straps) (lines : Lines) (s : State) : Outcome State Fault Refusal :=
  .next
    { State.reset with
      straps := straps
      machines := Quad.each fun m =>
        MachineRec.atPowerOn (lineReading straps straps.loopSwitch lines.loopSwitch m)
          (lineReading straps straps.contactorSense lines.contactorSense m)
      fire := FireUnit.atPowerOn (straps.fireLoop.read lines.fireLoop)
        (Quad.each fun m =>
          ShutterRec.atPowerOn (lineReading straps straps.shutterOpen lines.shutterOpen m)
            (lineReading straps straps.shutterClosed lines.shutterClosed m))
      line := LineUnit.atPowerOn lines.receiveSpace
      pending := s.pending }

/-- POWER_REMOVED (R175, 10.4): every output at its inactive value and nothing held but the commands that wait (log
entry 6). -/
def execPowerRemoved (s : State) : Outcome State Fault Refusal :=
  .next
    { State.reset with
      powered := false
      line := { LineUnit.atPowerOn false with transmitter := none }
      pending := s.pending }

/-! ### RESTART -/

/-- The machine unit, cue decoder and lamp unit of a machine take RESTART (R27, R42, R60, R85). -/
def State.restartMachine (m : MachineId) (s : State) : State :=
  ((s.modMachine m (MachineRec.restart (s.fire.machineLatch.get m).isSome)).modDecoder m fun _ =>
    DecoderRec.atPowerOn).modLamp m LampRec.restart

/-- The plan store takes RESTART; the booth clock is kept (R104). -/
def PlanStore.restart (p : PlanStore) : PlanStore :=
  { p with
    tables := Pair.same PlanTable.cleared
    showAt := Pair.same none
    lastPosting := Quad.same false }

/-- Every block takes RESTART by its own rule (R178). The fire unit's records stand (R166). -/
def State.restartBlocks (s : State) : State :=
  let s1 := (((s.restartMachine .m1).restartMachine .m2).restartMachine .m3).restartMachine .m4
  { (s1.modPlan PlanStore.restart).modLights HouseLights.restart with screens := Pair.same ScreenRec.atPowerOn }

/-- Whether RESTART found both screens IDLE: as read at its dispatch, and as they stand where it was given directly
(R178, log entry 3). -/
def State.idleRead (s : State) (ops : List Text) : Bool :=
  match s.readingFor (.restart ops) with
  | some (.bothIdle yes) => yes
  | _ => s.bothIdle

/-- RESTART's tests (R178). -/
def parseRestart (idle : Bool) (ops : List Text) : Except Reason Unit := do
  noOperand ops
  need idle .state

/-- RESTART (R178, R179): the reply is made, the queue emptied, and *READY placed. -/
def execRestart (ops : List Text) (s : State) : Outcome State Fault Refusal :=
  .next (s.takeCommand (.restart ops) fun t =>
    match parseRestart (s.idleRead ops) ops with
    | .error r => t.answer (.no r)
    | .ok _ =>
      ((t.restartBlocks.answer (.ok [])).modLine fun l => { l with queue := [] }).report .ready)

end Sys2Proof.Machine
end

