-- ==== Sys2Proof/Machine/Dispatch.lean ====
section
/-! DEFINITION. The meaning of each command: one arm per constructor, one direct call of its meaning. -/

namespace Sys2Proof.Machine

open Sys2Proof

def exec (i : Instr) (s : State) : Host.Outcome State Fault Refusal :=
  match i with
  | .framePulse m dt foil => Sys2Proof.Machine.execFramePulse m dt foil s
  | .loopSwitchOpen m flowing => Sys2Proof.Machine.execLoopSwitchOpen m flowing s
  | .contactorSenseChange m flowing => Sys2Proof.Machine.execContactorSenseChange m flowing s
  | .contactorFailure m => Sys2Proof.Machine.execContactorFailure m s
  | .stall m => Sys2Proof.Machine.execStall m s
  | .noPulseTimerExpiry m => Sys2Proof.Machine.execNoPulseTimerExpiry m s
  | .arcGate m count => Sys2Proof.Machine.execArcGate m count s
  | .touchMeasureExpiry m => Sys2Proof.Machine.execTouchMeasureExpiry m s
  | .retractMeasureExpiry m => Sys2Proof.Machine.execRetractMeasureExpiry m s
  | .pauseMeasureExpiry m => Sys2Proof.Machine.execPauseMeasureExpiry m s
  | .shortGapRetractExpiry m => Sys2Proof.Machine.execShortGapRetractExpiry m s
  | .feedEncoderPulse m flowing => Sys2Proof.Machine.execFeedEncoderPulse m flowing s
  | .bucketMeasureExpiry m => Sys2Proof.Machine.execBucketMeasureExpiry m s
  | .clockAdvance dt => Sys2Proof.Machine.execClockAdvance dt s
  | .intervalExpiry sc => Sys2Proof.Machine.execIntervalExpiry sc s
  | .darkHoldExpiry sc => Sys2Proof.Machine.execDarkHoldExpiry sc s
  | .fadeStep sc c => Sys2Proof.Machine.execFadeStep sc c s
  | .zeroCrossing dt => Sys2Proof.Machine.execZeroCrossing dt s
  | .firingDelayExpiry sc c => Sys2Proof.Machine.execFiringDelayExpiry sc c s
  | .loopInputChange flowing => Sys2Proof.Machine.execLoopInputChange flowing s
  | .loopOpenMeasureExpiry => Sys2Proof.Machine.execLoopOpenMeasureExpiry s
  | .gateCount m count => Sys2Proof.Machine.execGateCount m count s
  | .shutterSwitchChange m sw flowing => Sys2Proof.Machine.execShutterSwitchChange m sw flowing s
  | .confirmMeasureExpiry m => Sys2Proof.Machine.execConfirmMeasureExpiry m s
  | .receivedCharacter code badParity badStop => Sys2Proof.Machine.execReceivedCharacter code badParity badStop s
  | .lineSent => Sys2Proof.Machine.execLineSent s
  | .breakMeasureExpiry => Sys2Proof.Machine.execBreakMeasureExpiry s
  | .powerOn straps lines => Sys2Proof.Machine.execPowerOn straps lines s
  | .motor ops => Sys2Proof.Machine.execMotor ops s
  | .douse ops => Sys2Proof.Machine.execDouse ops s
  | .mstat ops => Sys2Proof.Machine.execMstat ops s
  | .cuemap ops => Sys2Proof.Machine.execCuemap ops s
  | .strike ops => Sys2Proof.Machine.execStrike ops s
  | .arcoff ops => Sys2Proof.Machine.execArcoff ops s
  | .trim ops => Sys2Proof.Machine.execTrim ops s
  | .lampset ops => Sys2Proof.Machine.execLampset ops s
  | .lstat ops => Sys2Proof.Machine.execLstat ops s
  | .reel ops => Sys2Proof.Machine.execReel ops s
  | .plancopy ops => Sys2Proof.Machine.execPlancopy ops s
  | .planclr ops => Sys2Proof.Machine.execPlanclr ops s
  | .pstat ops => Sys2Proof.Machine.execPstat ops s
  | .thread ops => Sys2Proof.Machine.execThread ops s
  | .unthread ops => Sys2Proof.Machine.execUnthread ops s
  | .time ops => Sys2Proof.Machine.execTime ops s
  | .showat ops => Sys2Proof.Machine.execShowat ops s
  | .start ops => Sys2Proof.Machine.execStart ops s
  | .swapnow ops => Sys2Proof.Machine.execSwapnow ops s
  | .sound ops => Sys2Proof.Machine.execSound ops s
  | .resume ops => Sys2Proof.Machine.execResume ops s
  | .abort ops => Sys2Proof.Machine.execAbort ops s
  | .screenset ops => Sys2Proof.Machine.execScreenset ops s
  | .sstat ops => Sys2Proof.Machine.execSstat ops s
  | .scenedef ops => Sys2Proof.Machine.execScenedef ops s
  | .level ops => Sys2Proof.Machine.execLevel ops s
  | .scene ops => Sys2Proof.Machine.execScene ops s
  | .release ops => Sys2Proof.Machine.execRelease ops s
  | .hlstat ops => Sys2Proof.Machine.execHlstat ops s
  | .resetM ops => Sys2Proof.Machine.execResetM ops s
  | .resetBooth ops => Sys2Proof.Machine.execResetBooth ops s
  | .incident ops => Sys2Proof.Machine.execIncident ops s
  | .inclear ops => Sys2Proof.Machine.execInclear ops s
  | .fstat ops => Sys2Proof.Machine.execFstat ops s
  | .fireset ops => Sys2Proof.Machine.execFireset ops s
  | .ident ops => Sys2Proof.Machine.execIdent ops s
  | .status ops => Sys2Proof.Machine.execStatus ops s
  | .restart ops => Sys2Proof.Machine.execRestart ops s
  | .receiveLineLevelChange space => Sys2Proof.Machine.execReceiveLineLevelChange space s
  | .powerRemoved => Sys2Proof.Machine.execPowerRemoved s

end Sys2Proof.Machine
end

