-- ==== Sys2Proof/Machine/Step.lean ====
section
/-! DEFINITION. One step: the command at the front of the queue is taken; with none waiting, a command handed to its
owner is taken, and else a microsecond passes (log entries 1 and 3). -/

namespace Sys2Proof.Machine

open Sys2Proof

/-- One step of the 3100. -/
def step (s : State) : Host.Outcome State Fault Refusal :=
  match s.pending with
  | i :: rest => exec i { s with pending := rest }
  | [] =>
    match s.line.handed with
    | some i => exec i s
    | none => .next (s.whenPowered (State.elapse 1))

/-- The command that a table word spells is put at the front of the queue. -/
def State.withFetchWord (s : State) (nbits w : Nat) : State :=
  match decodeTableWord nbits w with
  | none => s
  | some i => { s with pending := i :: s.pending }

end Sys2Proof.Machine
end

