-- ==== Sys2Proof/WellFormed.lean ====
section
/-! DEFINITION. Which commands the outside world can send: operand words a received line can hold (R167, R169), and
counts a 100 ms gate of a 50 kHz input can reach (10.5). The meanings do not need these checks; they say what a
sender may assume to be sendable. -/

namespace Sys2Proof

/-- A character that joins the assembly: printable, seven bits (R167). -/
def printable (c : Char) : Bool := 32 ≤ c.toNat && c.toNat < 127

/-- A word: at least one character, each printable and none a space (R169). -/
def wellFormedWord (w : Text) : Bool := !w.isEmpty && w.all fun c => printable c && c != ' '

/-- The length of the words of a line with one space before each. -/
def spacedLength (ws : List Text) : Nat := (ws.map fun w => w.length + 1).sum

/-- The verb of a console command as Table 9-5 writes it; RESET BOOTH is written with both its words. -/
def Instr.verbWords : Instr → List Text
  | .motor _ => [txt "MOTOR"]
  | .douse _ => [txt "DOUSE"]
  | .mstat _ => [txt "MSTAT"]
  | .cuemap _ => [txt "CUEMAP"]
  | .strike _ => [txt "STRIKE"]
  | .arcoff _ => [txt "ARCOFF"]
  | .trim _ => [txt "TRIM"]
  | .lampset _ => [txt "LAMPSET"]
  | .lstat _ => [txt "LSTAT"]
  | .reel _ => [txt "REEL"]
  | .plancopy _ => [txt "PLANCOPY"]
  | .planclr _ => [txt "PLANCLR"]
  | .pstat _ => [txt "PSTAT"]
  | .thread _ => [txt "THREAD"]
  | .unthread _ => [txt "UNTHREAD"]
  | .time _ => [txt "TIME"]
  | .showat _ => [txt "SHOWAT"]
  | .start _ => [txt "START"]
  | .swapnow _ => [txt "SWAPNOW"]
  | .sound _ => [txt "SOUND"]
  | .resume _ => [txt "RESUME"]
  | .abort _ => [txt "ABORT"]
  | .screenset _ => [txt "SCREENSET"]
  | .sstat _ => [txt "SSTAT"]
  | .scenedef _ => [txt "SCENEDEF"]
  | .level _ => [txt "LEVEL"]
  | .scene _ => [txt "SCENE"]
  | .release _ => [txt "RELEASE"]
  | .hlstat _ => [txt "HLSTAT"]
  | .resetM _ => [txt "RESET"]
  | .resetBooth _ => [txt "RESET", txt "BOOTH"]
  | .incident _ => [txt "INCIDENT"]
  | .inclear _ => [txt "INCLEAR"]
  | .fstat _ => [txt "FSTAT"]
  | .fireset _ => [txt "FIRESET"]
  | .ident _ => [txt "IDENT"]
  | .status _ => [txt "STATUS"]
  | .restart _ => [txt "RESTART"]
  | .framePulse _ _ _ | .loopSwitchOpen _ _ | .contactorSenseChange _ _ | .contactorFailure _ | .stall _
  | .noPulseTimerExpiry _ | .arcGate _ _ | .touchMeasureExpiry _ | .retractMeasureExpiry _ | .pauseMeasureExpiry _
  | .shortGapRetractExpiry _ | .feedEncoderPulse _ _ | .bucketMeasureExpiry _ | .clockAdvance _ | .intervalExpiry _
  | .darkHoldExpiry _ | .fadeStep _ _ | .zeroCrossing _ | .firingDelayExpiry _ _ | .loopInputChange _
  | .loopOpenMeasureExpiry | .gateCount _ _ | .shutterSwitchChange _ _ _ | .confirmMeasureExpiry _
  | .receivedCharacter _ _ _ | .lineSent | .breakMeasureExpiry | .powerOn _ _ | .receiveLineLevelChange _
  | .powerRemoved => []

/-- The greatest count of a counted-frequency input over a 100 ms gate: 50 kHz (10.5). -/
abbrev maxCountedGate : Nat := 5000

/-- The operand words that a verb leaves to its command: RESET with a first operand BOOTH is RESET BOOTH (R161). -/
def Instr.operandsFit (i : Instr) (ws : List Text) : Bool :=
  match i with
  | .resetM _ => ws.head? != some (txt "BOOTH")
  | _ => true

/-- A command that can arrive at the 3100: its verb and operand words, one space between them, fit a line of 72
characters. -/
def Instr.wellFormed (i : Instr) : Bool :=
  match i with
  | .arcGate _ n => n ≤ maxCountedGate
  | .gateCount _ n => n ≤ maxCountedGate
  | _ =>
    match i.operands? with
    | none => true
    | some ws =>
      ws.all wellFormedWord && i.operandsFit ws && spacedLength (i.verbWords ++ ws) ≤ Config.lineLength + 1

end Sys2Proof
end

