-- ==== Sys2Proof/Safety.lean ====
section
/-! DEFINITION. What holds of the 3100 at every moment, in the spec's own words: the laws of the machine, lamp, plan,
house-light, fire and line records. And what a command leaves unchanged: the frames the statements use. -/

namespace Sys2Proof.Machine

open Sys2Proof

/-! ### The booth: machines, lamps and latches -/

/-- One machine's record beside its lamp's (Table 1-1, R2, R3, R13, R14, R15, R19, R33, R62). -/
structure MachineLaw (r : MachineRec) (l : LampRec) : Prop where
  /-- R15: open exactly while ON_SCREEN with the request OPEN and the hold set empty. -/
  douser : r.douser = .opened ↔ r.state = .onScreen ∧ r.douserRequest = .opened ∧ r.holds.isEmpty = true
  /-- Table 1-4: SPEED is held while the motor is ON and the status is not AT_SPEED. -/
  speedHold : r.holds.speed = (r.motor && r.speed != .atSpeed)
  /-- R62: LAMP is held while the lamp is not BURNING. -/
  lampHold : r.holds.lamp = (l.state != .burning)
  /-- R13: BREAK is held in BROKEN. -/
  breakHold : r.holds.brk = (r.state == .broken)
  /-- Table 1-1: the break cause is present only in BROKEN. -/
  breakCause : r.breakCause.isSome = (r.state == .broken)
  /-- Table 1-1: the state before trip is present only in TRIPPED. -/
  beforeTrip : r.stateBeforeTrip.isSome = (r.state == .tripped)
  /-- Table 1-2: the motor is ON in the running states and in a lace-up run. -/
  motor : r.motor = (r.state.running || r.laceUp)
  /-- Table 1-2: a lace-up run is made in EMPTY. -/
  laceUp : r.laceUp = true → r.state = .empty
  /-- R2: with the motor ON the status is not STOPPED, and the no-pulse timer is stopped (R33). -/
  turning : r.motor = true → r.speed ≠ .stopped ∧ r.noPulseTimer = none
  /-- R3: the contactor measure runs while the motor is ON and the sense reads OPEN. -/
  contactor : r.contactorMeasure.isSome = (r.motor && !r.contactorClosed)
  /-- R12: the stall measures run only with the motor ON. -/
  stall : r.motor = false → r.startMeasure = none ∧ r.pulseMeasure = none

/-- One lamp's record (Table 4-1, R63, R65 to R67, R76, R78). -/
structure LampLaw (l : LampRec) : Prop where
  /-- The contactor is CLOSED in BURNING, and in STRIKING but for the PAUSE phase. -/
  contactor : l.contactorClosed = (l.state == .burning || (l.state == .striking && l.phase != some .pause))
  /-- The phase is present only in STRIKING. -/
  phase : l.phase.isSome = (l.state == .striking)
  /-- The fault cause is present only in FAULT. -/
  faultCause : l.faultCause.isSome = (l.state == .fault)
  /-- No gate is counted while the contactor is OPEN. -/
  gate : l.gate.isSome = true → l.contactorClosed = true
  /-- The open bucket is kept in BURNING alone. -/
  openBucket : l.openBucket.isSome = (l.state == .burning)
  bucketMeasure : l.bucketMeasure.isSome = (l.state == .burning)
  /-- The re-strike flag belongs to a strike. -/
  restrike : l.restrike = true → l.state = .striking
  /-- A strike makes at most three attempts, and pauses only before another. -/
  attempt : l.attempt ≤ 3 ∧ (0 < l.attempt ↔ l.state = .striking)
  pause : l.phase = some .pause → l.attempt < 3
  /-- carbon_ok is present while the machine is bound. -/
  carbonOk : l.carbonOk.isSome = l.boundLength.isSome
  /-- A gate can be late only on an OPEN contactor (log entry 33). -/
  lateGate : l.lateGate = true → l.contactorClosed = false

/-- A machine whose latch is set (R155). -/
structure Latched (r : MachineRec) (l : LampRec) (x : ShutterRec) : Prop where
  tripped : r.state = .tripped
  motorOff : r.motor = false
  fireHeld : r.holds.fire = true
  arcOpen : l.contactorClosed = false
  arcOut : l.state ≠ .burning ∧ l.state ≠ .striking
  magnetOff : x.magnet = false

/-- A machine whose latch is clear: nothing of the fire holds it (R20, R21). -/
structure Unlatched (r : MachineRec) : Prop where
  notTripped : r.state ≠ .tripped
  fireFree : r.holds.fire = false

/-- The law of the booth's machines, lamps and latches (R15, R155). -/
structure BoothLaw (s : State) : Prop where
  machine : ∀ m, MachineLaw (s.machine m) (s.lamp m)
  lamp : ∀ m, LampLaw (s.lamp m)
  latched : ∀ m, (s.fire.machineLatch.get m).isSome = true →
    Latched (s.machine m) (s.lamp m) (s.fire.shutters.get m)
  unlatched : ∀ m, s.fire.machineLatch.get m = none → Unlatched (s.machine m)
  /-- R152, R161: with the booth latch set every machine latch is set. -/
  booth : s.fire.boothLatch.isSome = true → ∀ m, (s.fire.machineLatch.get m).isSome = true

/-! ### The house lights -/

/-- The present level of a governing claim (R134, R136). -/
def Claim.level (x : Claim) (f : Fade) : Nat := if f.k = f.n then x.target else fadeLevel f.start x.target f.k f.n

/-- One circuit, with the half-cycle `h` in use (R134, R136, R142, R143). -/
structure CircuitLaw (h : Nat) (c : Circuit) : Prop where
  /-- The output level is that of the highest-ranked claim. -/
  governed : ∀ r x, c.claims.top = some r → c.claims.get r = some x →
    ∃ f, x.governing = some f ∧ f.n = x.fade * 5 ∧ f.k ≤ f.n ∧ c.output = x.level f
      ∧ (c.stepMeasure.isSome = true ↔ f.k < f.n)
  /-- Or 255 where there is none. -/
  full : c.claims.top = none → c.output = 255 ∧ c.stepMeasure = none
  /-- A waiting claim holds no start level, step or steps. -/
  waiting : ∀ r x, c.claims.top ≠ some r → c.claims.get r = some x → x.governing = none
  delay : c.delay = firingDelay h c.output
  armed : c.armed.isSome = true → c.output ≠ 0
  /-- A SAFETY claim has target 255 and fade 0 (R139). -/
  safety : ∀ x, c.claims.safety = some x → x.target = 255 ∧ x.fade = 0

/-- Whether some latch of a screen's two machines is set. -/
def State.screenLatched (s : State) (sc : ScreenId) : Bool :=
  (s.fire.machineLatch.get (lowerOf sc)).isSome || (s.fire.machineLatch.get (upperOf sc)).isSome

/-- The law of the house lights (R134, R139, R140, R141, R142). -/
structure LightsLaw (s : State) : Prop where
  halfCycle : 7500 ≤ s.lights.halfCycle ∧ s.lights.halfCycle ≤ 11000
  circuit : ∀ sc c, CircuitLaw s.lights.halfCycle (s.circuit sc c)
  /-- SAFETY stands on a screen's circuits exactly while a latch of its machines is set. -/
  safety : ∀ sc c, (s.circuit sc c).claims.safety.isSome = s.screenLatched sc
  booth : s.fire.boothLatch.isSome = true → ∀ m, (s.fire.machineLatch.get m).isSome = true

/-! ### The fire unit -/

/-- One shutter and its magnet (8.4, R156, R157). -/
structure ShutterLaw (x : ShutterRec) : Prop where
  /-- The confirm measure runs in DROPPING alone. -/
  confirm : x.confirm.isSome = (x.state == .dropping)
  /-- The drop is kept in DROPPING and STUCK. -/
  dropSequence : x.dropSequence.isSome = (x.state == .dropping || x.state == .stuck)
  dropSnapshot : x.dropSnapshot.isSome = (x.state == .dropping || x.state == .stuck)
  /-- A shutter stands OPEN on an energized magnet alone, and drops from a dead one. -/
  opened : x.state = .opened → x.magnet = true
  dropping : x.state = .dropping → x.magnet = false

/-- One machine's gate sensing (Table 8-1, R153, R165). -/
structure GateLaw (g : GateRec) : Prop where
  count : g.count ≤ 4095
  hotRun : g.hotRun ≤ 2
  thresholds : g.resetThreshold < g.tripThreshold ∧ g.tripThreshold ≤ 4095

/-- The fire unit's records (Table 8-1, R151, R152, R163). -/
structure FireLaw (u : FireUnit) : Prop where
  shutter : ∀ m, ShutterLaw (u.shutters.get m)
  gate : ∀ m, GateLaw (u.gates.get m)
  logSize : u.log.length ≤ 8
  next : u.nextSequence < 65536
  /-- The log stands newest first, its sequences counting down from next sequence. -/
  sequence : ∀ i r, u.log[i]? = some r → r.sequence = (u.nextSequence + 65535 - i) % 65536
  healthy : u.loopHealthy.isSome = u.loopClosed
  /-- The loop open measure runs on an open loop, and not under a LOOP latch. -/
  openMeasure : u.loopOpenMeasure.isSome = true → u.loopClosed = false ∧ u.boothLatch ≠ some .loop
  booth : u.boothLatch.isSome = true → ∀ m, (u.machineLatch.get m).isSome = true

/-! ### The console line -/

/-- The law of the line unit (Table 9-1, R168, R170, R171). -/
structure LineLaw (l : LineUnit) : Prop where
  queueSize : l.queue.length ≤ 32
  assembly : l.assembly.length ≤ 72
  buffers : l.buffers.length ≤ 2
  /-- The queue stands in making order. -/
  queueOrder : l.queue.Pairwise fun a b => a.order < b.order
  queueMade : ∀ q ∈ l.queue, q.order < l.nextOrder
  replyMade : ∀ r o, l.replyPlace = .full r o → o < l.nextOrder
  sentMade : ∀ t, l.transmitter = some t → t.order < l.nextOrder
  /-- What is being sent was made before every report that waits. -/
  sentFirst : ∀ t, l.transmitter = some t → ∀ q ∈ l.queue, t.order < q.order
  /-- An idle transmitter has nothing to take. -/
  idle : l.transmitter = none → l.queue = [] ∧ ∀ r o, l.replyPlace ≠ .full r o

/-! ### The plan -/

/-- One slot (Table 5-1, Table 5-2, R91). -/
structure SlotLaw (x : Slot) : Prop where
  entry : x.entry.isSome = (x.status != .empty)
  bound : x.bound.isSome = (x.status == .bound)

/-- The law of the plan: every binding stands on both sides and on one screen, and the lamp holds the bound length
(R78, R97). -/
structure PlanLaw (s : State) : Prop where
  slot : ∀ sc n, SlotLaw (s.slot sc n)
  toMachine : ∀ sc n m, (s.slot sc n).bound = some m → screenOf m = sc ∧ (s.machine m).boundSlot = some n
  toSlot : ∀ m n, (s.machine m).boundSlot = some n → (s.slot (screenOf m) n).bound = some m
  length : ∀ m, (s.lamp m).boundLength = s.boundLength m
  /-- R16, R95: a bound machine carries a reel. -/
  reel : ∀ m, (s.machine m).boundSlot.isSome = true → (s.machine m).reelId.isSome = true
  /-- R18, R21: an EMPTY machine carries none and is bound to nothing. -/
  empty : ∀ m, (s.machine m).state = .empty → (s.machine m).boundSlot = none ∧ (s.machine m).reelId = none

/-- The law of the ARMED condition (R98, R99): a machine is ARMED exactly while it is THREADED or ARMED and every item of
the condition stands in the records, and the last posting is in step with it on both sides. -/
structure ArmedLaw (s : State) : Prop where
  /-- R98, its six items. -/
  condition : ∀ m, (s.machine m).state = .armed ↔
    ((s.machine m).state = .threaded ∨ (s.machine m).state = .armed)
      ∧ (∃ n, (s.machine m).boundSlot = some n ∧ s.nextSlot (screenOf m) = some n)
      ∧ (s.lamp m).carbonOk = some true ∧ (s.fire.shutters.get m).state = .opened
      ∧ (s.machine m).holds.fire = false ∧ (s.machine m).holds.brk = false
      ∧ (s.lamp m).state ≠ .fault ∧ (s.lamp m).state ≠ .exhausted
  /-- R99: the plan store's last posting for each machine. -/
  posting : ∀ m, s.plan.lastPosting.get m = ((s.machine m).state == .armed)
  /-- R17: the machine unit's copy, while the machine is THREADED or ARMED. -/
  copy : ∀ m, (s.machine m).state = .threaded ∨ (s.machine m).state = .armed →
    (s.machine m).armedPosting = ((s.machine m).state == .armed)

/-- An entry satisfies Table 5-1 (R87): its ranges, and CO exactly where there is neither LAST nor INT. -/
structure EntryLaw (e : SlotEntry) : Prop where
  reel : isReelId e.reel = true
  length : 1 ≤ e.length ∧ e.length ≤ 99999
  co : ∀ c, e.co = some c → 1 ≤ c ∧ c ≤ e.length - 1
  window : e.window ≤ 480
  runUp : e.runUp ≤ 480
  int : ∀ k, e.int = some k → k ≤ 30
  coPresent : e.co.isSome = (!e.last && e.int.isNone)
  notBoth : e.last = true → e.int = none

/-- Every entry of the plan satisfies Table 5-1 (R87). -/
def EntriesLaw (s : State) : Prop := ∀ sc n e, (s.slot sc n).entry = some e → EntryLaw e

/-! ### Cue decoders and screens -/

/-- One cue decoder's record (Table 3-2, Table 3-3, R57): its counts within their ranges, each 0 outside the states that
count it, and at most two deferred cues. -/
structure DecoderLaw (d : DecoderRec) : Prop where
  patches : d.patchCount ≤ 7 ∧ (0 < d.patchCount ↔ d.decode = .patch ∨ d.decode = .gap)
  length : d.patchLength ≤ 24 ∧ (0 < d.patchLength ↔ d.decode = .patch)
  gap : d.gapFrames ≤ 7 ∧ (0 < d.gapFrames ↔ d.decode = .gap)
  deferred : d.deferred.length ≤ 2

/-- Every cue decoder's record is within its law. -/
def DecodersLaw (s : State) : Prop := ∀ m, DecoderLaw (s.decoder m)

/-- One screen's record (Table 6-1, Table 6-2, R115). -/
structure ScreenLaw (sc : ScreenId) (x : ScreenRec) : Prop where
  /-- Table 6-2: a machine has the screen in SHOWING, RUNUP and SWAP_DUE, and in no other state. -/
  onScreen : x.onScreen.isSome = x.state.shows
  pair : ∀ m, x.onScreen = some m → screenOf m = sc
  /-- Table 6-1: the current slot is absent in IDLE alone. -/
  current : x.current = none ↔ x.state = .idle
  /-- Table 6-1: interval remaining is absent outside INTERVAL, and at most 1,800 s. -/
  interval : x.interval.isSome = (x.state == .interval)
  intervalTime : ∀ n, x.interval = some (.seconds n) → n ≤ 1800
  /-- R115: MUTE without an ON_SCREEN machine, else that machine or BOTH; BOTH while overlap remaining is not 0. -/
  muted : x.mixer = .mute ↔ x.onScreen = none
  selected : ∀ m, x.mixer = .machine m → x.onScreen = some m
  both : x.mixer = .both ↔ 0 < x.overlapLeft
  overlapLeft : x.overlapLeft ≤ 12
  /-- Table 6-1: the dark hold timer measures the ON_SCREEN machine. -/
  darkHold : x.onScreen = none → x.darkHold = .stopped
  /-- Table 6-1: the settings' ranges. -/
  settings : x.overlap ≤ 12 ∧ x.margin ≤ 1000000 ∧ x.sound ≤ 15
  /-- Table 6-2: in SHOWING the successor is not started, in RUNUP it is; in SWAP_DUE the point has been reached. -/
  showing : x.state = .showing → x.startGiven = false
  runup : x.state = .runup → x.startGiven = true
  swapDue : x.state = .swapDue → x.point.isSome = true
  /-- R118, R126, R127: nothing of a changeover is left in IDLE and HALTED. -/
  ended : x.state = .idle ∨ x.state = .halted → x.point = none ∧ x.startGiven = false ∧ x.startPending = false
  /-- R119: a DARK screen holds the DARK claim. -/
  dark : x.state = .dark → x.faultClaim = .dark

/-- The law of the screens: each record, the ON_SCREEN machine on both sides (R7, R105), so that no two machines of a screen
are ON_SCREEN together, and the FAULT claims the screens have placed (Table 6-1). -/
structure ScreensLaw (s : State) : Prop where
  screen : ∀ sc, ScreenLaw sc (s.screen sc)
  machine : ∀ m, (s.machine m).state = .onScreen ↔ (s.screen (screenOf m)).onScreen = some m
  fault : ∀ sc c, (s.circuit sc c).claims.fault.isSome = true ↔ (s.screen sc).faultClaim ≠ .none

/-! ### Frames -/

/-- The state as the owner of console command `c` takes it: `c` is no longer handed and waiting, nor what was read for
it at its dispatch (R169, R173). -/
def State.taken (s : State) (c : Instr) : State :=
  s.modLine (LineUnit.unhand c)

/-- Only the line unit's records differ. -/
structure LineOnly (s t : State) : Prop where
  powered : t.powered = s.powered
  straps : t.straps = s.straps
  timebase : t.timebase = s.timebase
  machines : t.machines = s.machines
  decoders : t.decoders = s.decoders
  lamps : t.lamps = s.lamps
  plan : t.plan = s.plan
  screens : t.screens = s.screens
  lights : t.lights = s.lights
  fire : t.fire = s.fire
  pending : t.pending = s.pending

/-- The states from which no order of the show moves a machine: only the console, a trip, a release, the film's own
pulses and RESTART reach it there (R5, R7 to R9, R13, R17). -/
def MachineState.resting : MachineState → Bool
  | .empty | .stopped | .broken | .tripped => true
  | .threaded | .armed | .starting | .runup | .onScreen | .runout => false

/-- A machine's fields that no reaction of the show writes. -/
structure MachineKept (r x : MachineRec) : Prop where
  reelId : x.reelId = r.reelId
  frameCount : x.frameCount = r.frameCount
  saturated : x.saturated = r.saturated
  console : x.holds.console = r.holds.console
  fire : x.holds.fire = r.holds.fire
  allowance : x.accelAllowance = r.accelAllowance
  lastAverage : x.lastAverage = r.lastAverage
  loopSwitch : x.loopSwitchClosed = r.loopSwitchClosed
  contactorSense : x.contactorClosed = r.contactorClosed

/-- A resting machine is left but for its binding, its rejected cues, its LAMP hold and the douser that follows. -/
def MachineRested (r x : MachineRec) : Prop :=
  r.state.resting = true →
    x = { r with boundSlot := x.boundSlot, rejected := x.rejected, douser := x.douser,
                 holds := { r.holds with lamp := x.holds.lamp } }

/-- A lamp's fields that no reaction of the show writes: its settings and its carbon account. -/
structure LampKept (l x : LampRec) : Prop where
  trim : x.trim = l.trim
  stub : x.stub = l.stub
  consumed : x.consumed = l.consumed
  buckets : x.buckets = l.buckets
  completed : x.completed = l.completed
  nominalRate : x.nominalRate = l.nominalRate
  setpoint : x.setpoint = l.setpoint
  holdingDuty : x.holdingDuty = l.holdingDuty
  gain : x.gain = l.gain
  strikeLead : x.strikeLead = l.strikeLead
  reserve : x.reserve = l.reserve
  arcCount : x.arcCount = l.arcCount

/-- A lamp in FAULT or EXHAUSTED is left but for its binding and its forecast (R64, R68, R72). -/
def LampRested (l x : LampRec) : Prop :=
  l.state = .fault ∨ l.state = .exhausted →
    x = { l with boundLength := x.boundLength, forecast := x.forecast, carbonOk := x.carbonOk,
                 shortfallReported := x.shortfallReported }

/-- A slot is as it was, or a slot that could be shown has been shown or cut (R86). -/
structure SlotKept (a b : Slot) : Prop where
  entry : b.entry = a.entry
  status : b = a ∨ (a.status.showable = true ∧ (b.status = .shown ∨ b.status = .cut) ∧ b.bound = none)

/-- A claim of a rank is the same claim, whether it governs or waits. -/
def sameClaim (a b : Option Claim) : Prop := a.map (fun x => (x.target, x.fade)) = b.map fun x => (x.target, x.fade)

/-- The line unit's receiving side, which no report or reply touches. -/
structure ReceiverKept (l x : LineUnit) : Prop where
  assembly : x.assembly = l.assembly
  charMark : x.charMark = l.charMark
  longMark : x.longMark = l.longMark
  buffers : x.buffers = l.buffers
  handed : x.handed = l.handed
  reading : x.reading = l.reading
  breakMeasure : x.breakMeasure = l.breakMeasure
  atSpace : x.atSpace = l.atSpace
  breakHeld : x.breakHeld = l.breakHeld

/-- What no reaction of the show reaches: the fire unit, the straps and the time, the settings, the film counted and
the carbon burnt, what the plan says is to be shown, the mains record, and the SAFETY and CONSOLE claims. -/
structure ShowFrame (s t : State) : Prop where
  powered : t.powered = s.powered
  straps : t.straps = s.straps
  timebase : t.timebase = s.timebase
  pending : t.pending = s.pending
  fire : t.fire = s.fire
  machine : ∀ m, MachineKept (s.machine m) (t.machine m)
  lamp : ∀ m, LampKept (s.lamp m) (t.lamp m)
  machineRested : ∀ m, MachineRested (s.machine m) (t.machine m)
  lampRested : ∀ m, LampRested (s.lamp m) (t.lamp m)
  slots : ∀ sc n, SlotKept (s.slot sc n) (t.slot sc n)
  showAt : t.plan.showAt = s.plan.showAt
  clock : t.plan.clock = s.plan.clock ∧ t.plan.clockSecond = s.plan.clockSecond
  settings : ∀ sc, (t.screen sc).overlap = (s.screen sc).overlap ∧ (t.screen sc).margin = (s.screen sc).margin
    ∧ (t.screen sc).cueTable = (s.screen sc).cueTable
  scenes : t.lights.scenes = s.lights.scenes
  mains : t.lights.crossingRef = s.lights.crossingRef ∧ t.lights.crossingTimer = s.lights.crossingTimer
    ∧ t.lights.crossings = s.lights.crossings ∧ t.lights.halfCycle = s.lights.halfCycle
    ∧ t.lights.valid = s.lights.valid
  safety : ∀ sc c, sameClaim (t.circuit sc c).claims.safety (s.circuit sc c).claims.safety
  console : ∀ sc c, sameClaim (t.circuit sc c).claims.console (s.circuit sc c).claims.console
  receiver : ReceiverKept s.line t.line

/-- What a trip reaches nothing of: the film counted, the carbon burnt, the settings, what the plan says is to be shown,
the clock, the mains, the CONSOLE holds and claims, the loop's record, and the receiving side of the line (R152, R154). -/
structure TripFrame (s t : State) : Prop where
  powered : t.powered = s.powered
  straps : t.straps = s.straps
  timebase : t.timebase = s.timebase
  pending : t.pending = s.pending
  machine : ∀ m, MachineKept { s.machine m with holds := { (s.machine m).holds with fire := (t.machine m).holds.fire } }
    (t.machine m)
  lamp : ∀ m, LampKept (s.lamp m) (t.lamp m)
  slots : ∀ sc n, SlotKept (s.slot sc n) (t.slot sc n)
  showAt : t.plan.showAt = s.plan.showAt
  clock : t.plan.clock = s.plan.clock ∧ t.plan.clockSecond = s.plan.clockSecond
  settings : ∀ sc, (t.screen sc).overlap = (s.screen sc).overlap ∧ (t.screen sc).margin = (s.screen sc).margin
    ∧ (t.screen sc).sound = (s.screen sc).sound ∧ (t.screen sc).cueTable = (s.screen sc).cueTable
  scenes : t.lights.scenes = s.lights.scenes
  mains : t.lights.crossingRef = s.lights.crossingRef ∧ t.lights.crossingTimer = s.lights.crossingTimer
    ∧ t.lights.crossings = s.lights.crossings ∧ t.lights.halfCycle = s.lights.halfCycle
    ∧ t.lights.valid = s.lights.valid
  console : ∀ sc c, sameClaim (t.circuit sc c).claims.console (s.circuit sc c).claims.console
  loop : t.fire.loopClosed = s.fire.loopClosed ∧ t.fire.loopHealthy = s.fire.loopHealthy
    ∧ t.fire.loopHealthySub = s.fire.loopHealthySub
  receiver : ReceiverKept s.line t.line

/-! ### The words of a command and its answer -/

/-- Word `w` is the number of machine `m`, and `m` is served (R22, R176). -/
def State.namesMachine (s : State) (w : Text) (m : MachineId) : Prop :=
  (number? w).bind machineOf? = some m ∧ s.wired m = true

/-- Word `w` is the number of screen `sc`, and `sc` is fitted (R90, R106, R176). -/
def State.namesScreen (s : State) (w : Text) (sc : ScreenId) : Prop :=
  (number? w).bind screenOf? = some sc ∧ (sc = .s2 → s.straps.screen2Fitted = true)

/-- Word `w` is a slot number, 0 to 23. -/
def namesSlot (w : Text) (n : SlotIx) : Prop := (number? w).bind slotOf? = some n

/-- Word `w` is a scene number, 0 to 7. -/
def namesScene (w : Text) (n : Fin 8) : Prop := (number? w).bind sceneOf? = some n

/-- Machine `m` is found ARMED as screen `sc` enters OPENING at its slot `n` (R106): the plan store's evaluation there posts
ARMED or its lapse where the condition is not as last posted, and else the machine stays as it was (R99, R17). -/
def State.foundArmed (s : State) (sc : ScreenId) (n : SlotIx) (m : MachineId) : Prop :=
  let yes := (s.modScreen sc (ScreenRec.enterOpening n)).armedCondition m
  ((s.machine m).state = .threaded ∨ (s.machine m).state = .armed)
  ∧ if yes = s.plan.lastPosting.get m then (s.machine m).state = .armed else yes = true

/-- The circuits of screen `sc` are in `u` those of `s` with the scene of slot `n`, where it has one, issued as a CUE claim
with fade 50 (R107). -/
def State.sceneIssued (s u : State) (sc : ScreenId) (n : SlotIx) : Prop :=
  ∀ c, u.circuit sc c = match (s.slot sc n).entry.bind (·.scene) with
    | some k => (s.circuit sc c).place s.lights.halfCycle .cue (((s.lights.scenes.get sc)[k]).get c) 50
    | none => s.circuit sc c

/-- The reel of machine `m` ends as it leaves RUNOUT (R117): what line `l` then holds, *REELEND where the slot carries
NOTE. -/
def State.reelEnded (s : State) (m : MachineId) (l : LineUnit) : LineUnit :=
  match (s.machine m).state, (s.machine m).boundSlot, s.boundEntry m with
  | .runout, some n, some e => if e.note = true then l.report (.reelEnd (screenOf m) n e.reel) else l
  | _, _, _ => l

/-- Command `c` is taken and answered, and nothing else is done. -/
def State.answered (s : State) (c : Instr) (r : Reply) : State := (s.taken c).answer r

/-! ### What one record's event may write -/

/-- Only machine `m`, and what follows it within the event (its decoder and its last ARMED posting, R1, R47, R99), and
the line unit may differ. -/
structure OnlyMachine (m : MachineId) (s t : State) : Prop where
  rest : t = { s with machines := t.machines, decoders := t.decoders, plan := t.plan, line := t.line }
  plan : t.plan = { s.plan with lastPosting := t.plan.lastPosting }
  others : ∀ j, j ≠ m → t.machine j = s.machine j ∧ t.decoder j = s.decoder j
    ∧ t.plan.lastPosting.get j = s.plan.lastPosting.get j

/-- The lamp record is `l` but for the shortfall reported flag, which R79 may set. -/
def LampIs (l x : LampRec) : Prop := x = { l with shortfallReported := x.shortfallReported }

/-- One screen's machines, decoders, lamps, shutters, slots, settings, circuits and scenes are as they were. -/
structure ScreenKept (sc : ScreenId) (s t : State) : Prop where
  machine : ∀ m, screenOf m = sc → t.machine m = s.machine m ∧ t.decoder m = s.decoder m ∧ t.lamp m = s.lamp m
    ∧ t.plan.lastPosting.get m = s.plan.lastPosting.get m
  fire : ∀ m, screenOf m = sc → t.fire.machineLatch.get m = s.fire.machineLatch.get m
    ∧ t.fire.shutters.get m = s.fire.shutters.get m ∧ t.fire.gates.get m = s.fire.gates.get m
  slot : ∀ n, t.slot sc n = s.slot sc n
  showAt : t.plan.showAt.get sc = s.plan.showAt.get sc
  screen : t.screen sc = s.screen sc
  circuit : ∀ c, t.circuit sc c = s.circuit sc c
  scenes : t.lights.scenes.get sc = s.lights.scenes.get sc

/-! ### Groups of patches -/

/-- The samples of a run of frames are applied one after another (R43, R44). -/
def DecoderRec.read (d : DecoderRec) : List Bool → DecoderRec × List GroupNews
  | [] => (d, [])
  | b :: bs => (((d.sample b).1.read bs).1, (d.sample b).2 :: ((d.sample b).1.read bs).2)

/-- The samples of one group: a patch of `first` foil frames, then clear stretches each followed by a patch, then the
eight clear frames that close it (3.1, R44, R45). -/
def groupSamples (first : Nat) (rest : List (Nat × Nat)) : List Bool :=
  List.replicate first true ++ rest.flatMap (fun p => List.replicate p.1 false ++ List.replicate p.2 true)
    ++ List.replicate 8 false

/-! ### Received text -/

/-- A line's characters reach the assembly one by one (R167). -/
def LineUnit.receiveAll (l : LineUnit) : Text → LineUnit
  | [] => l
  | c :: cs => (l.receive (BitVec.ofNat 7 c.toNat) false).receiveAll cs

end Sys2Proof.Machine

namespace Sys2Proof

open Machine

/-! ### Console commands -/

/-- The reason of a refused parse. -/
def reasonOf {α : Type} (x : Except Reason α) : Option Reason :=
  match x with
  | .error r => some r
  | .ok _ => none

/-- Why a console command is answered NO (the tests of R22, R55, R80, R90, R95, R96, R101, R102, R106, R112, R116,
R125, R126, R129, R132, R144, R159 to R161, R164, R165, R173 and R178). -/
def Instr.refusal? (s : State) (i : Instr) : Option Reason :=
  match i with
  | .motor w => reasonOf (parseMotor s w)
  | .douse w => reasonOf (machineAndWord s (txt "CLOSE") (txt "OPEN") w)
  | .mstat w | .arcoff w | .lstat w => reasonOf (onlyMachine s w)
  | .cuemap w => reasonOf (parseCuemap s w)
  | .strike w => reasonOf (parseStrike s w)
  | .trim w => reasonOf (parseTrim s w)
  | .lampset w => reasonOf (parseLampset s w)
  | .reel w => reasonOf (parseReel s w)
  | .plancopy w => reasonOf (parsePlancopy s w)
  | .planclr w => reasonOf (parsePlanclr s w)
  | .pstat w => reasonOf (screenAndSlot s w)
  | .thread w => reasonOf (parseThread s w)
  | .unthread w => reasonOf (parseUnthread s w)
  | .time w => reasonOf (parseTime w)
  | .showat w => reasonOf (parseShowat s w)
  | .start w => reasonOf (parseStart s w)
  | .swapnow w => reasonOf (parseSwapnow s w)
  | .sound w => reasonOf (parseSound s w)
  | .resume w => reasonOf (parseResume s w)
  | .abort w => reasonOf (parseAbort s w)
  | .screenset w => reasonOf (parseScreenset s w)
  | .sstat w | .hlstat w => reasonOf (onlyScreen s w)
  | .scenedef w => reasonOf (parseScenedef s w)
  | .level w => reasonOf (parseLevel s w)
  | .scene w => reasonOf (parseScene s w)
  | .release w => reasonOf (parseRelease s w)
  | .resetM w => reasonOf (parseReset s w)
  | .resetBooth w => reasonOf (parseResetBooth s w)
  | .incident w => reasonOf (parseIncident s w)
  | .inclear w => reasonOf (parseInclear s w)
  | .fstat w | .ident w | .status w => reasonOf (noOperand w)
  | .fireset w => reasonOf (parseFireset s w)
  | .restart w => reasonOf (parseRestart (s.idleRead w) w)
  | .framePulse _ _ _ | .loopSwitchOpen _ _ | .contactorSenseChange _ _ | .contactorFailure _ | .stall _
  | .noPulseTimerExpiry _ | .arcGate _ _ | .touchMeasureExpiry _ | .retractMeasureExpiry _ | .pauseMeasureExpiry _
  | .shortGapRetractExpiry _ | .feedEncoderPulse _ _ | .bucketMeasureExpiry _ | .clockAdvance _ | .intervalExpiry _
  | .darkHoldExpiry _ | .fadeStep _ _ | .zeroCrossing _ | .firingDelayExpiry _ _ | .loopInputChange _
  | .loopOpenMeasureExpiry | .gateCount _ _ | .shutterSwitchChange _ _ _ | .confirmMeasureExpiry _
  | .receivedCharacter _ _ _ | .lineSent | .breakMeasureExpiry | .powerOn _ _ | .receiveLineLevelChange _
  | .powerRemoved => none

/-- The screen of a field event that names a machine, a screen or a circuit. -/
def Instr.fieldScreen? : Instr → Option ScreenId
  | .framePulse m _ _ | .loopSwitchOpen m _ | .contactorSenseChange m _ | .contactorFailure m | .stall m
  | .noPulseTimerExpiry m | .arcGate m _ | .touchMeasureExpiry m | .retractMeasureExpiry m | .pauseMeasureExpiry m
  | .shortGapRetractExpiry m | .feedEncoderPulse m _ | .bucketMeasureExpiry m | .gateCount m _
  | .shutterSwitchChange m _ _ | .confirmMeasureExpiry m => some (screenOf m)
  | .intervalExpiry sc | .darkHoldExpiry sc | .fadeStep sc _ | .firingDelayExpiry sc _ => some sc
  | .clockAdvance _ | .zeroCrossing _ | .loopInputChange _ | .loopOpenMeasureExpiry | .receivedCharacter _ _ _
  | .lineSent | .breakMeasureExpiry | .powerOn _ _ | .receiveLineLevelChange _ | .powerRemoved => none
  | .motor _ | .douse _ | .mstat _ | .cuemap _ | .strike _ | .arcoff _ | .trim _ | .lampset _ | .lstat _ | .reel _
  | .plancopy _ | .planclr _ | .pstat _ | .thread _ | .unthread _ | .time _ | .showat _ | .start _ | .swapnow _
  | .sound _ | .resume _ | .abort _ | .screenset _ | .sstat _ | .scenedef _ | .level _ | .scene _ | .release _
  | .hlstat _ | .resetM _ | .resetBooth _ | .incident _ | .inclear _ | .fstat _ | .fireset _ | .ident _ | .status _
  | .restart _ => none

/-! ### Lines that spell commands -/

/-- The line that spells a console command: its verb and its operand words, one space between them (R169). -/
def Instr.line (i : Instr) : Text := joinBy ' ' (i.verbWords ++ i.operands?.getD [])

end Sys2Proof
end

