-- ==== Sys2Proof/Certificates/Slice0/Obligations.lean ====
section
/-! DEFINITION. The statements for the provers, from the numbered rules of spec/; `State`-wide helpers stand in
Sys2Proof/Safety.lean. -/

open Sys2Proof Sys2Proof.Machine Host

/-! ### The machine as a whole -/

/-- A step takes the command at the front of the queue and runs it with the queue's rest. -/
def Obligations.StepTakesTheFrontCommand : Prop :=
  ∀ (c : Instr) (q : List Instr) (s : State),
    step { s with pending := c :: q } = exec c { s with pending := q }

/-- With nothing waiting, a step takes the command handed to its owner (R169), and with none handed lets a microsecond
pass (log entries 1 and 3). A command never writes the queue, and without power only POWER_ON and POWER_REMOVED act (log
entry 6). -/
def Obligations.IdleStepsAndTheQueue : Prop :=
  (∀ (c : Instr) (s : State), s.pending = [] → s.line.handed = some c → step s = exec c s)
  ∧ (∀ s : State, s.pending = [] → s.line.handed = none → s.powered = true → step s = .next (s.elapse 1))
  ∧ (∀ (c : Instr) (s t : State), exec c s = .next t → t.pending = s.pending)
  ∧ (∀ (c : Instr) (s : State), s.powered = false → (∀ p l, c ≠ .powerOn p l) → c ≠ .powerRemoved →
      exec c s = .next s)

/-- A console command that fails a test of its owner is answered NO with that test's reason and changes nothing else. -/
def Obligations.RefusedCommandChangesNothing : Prop :=
  ∀ (c : Instr) (r : Reason) (s : State), s.powered = true → Instr.refusal? s c = some r →
    ∃ t, exec c s = .next t ∧ t = { s with line := t.line } ∧ t.line = (s.taken c).line.answer (.no r)

/-- The laws hold of the 3100 right after power-on (State.reset). -/
def Obligations.ResetMeetsTheLaws : Prop :=
  BoothLaw State.reset ∧ LightsLaw State.reset ∧ FireLaw State.reset.fire ∧ LineLaw State.reset.line
    ∧ PlanLaw State.reset ∧ EntriesLaw State.reset ∧ ArmedLaw State.reset ∧ DecodersLaw State.reset
    ∧ ScreensLaw State.reset

/-- The law of machines, lamps and latches holds after every step from a state it holds of. -/
def Obligations.BoothLawKept : Prop :=
  ∀ s t : State, BoothLaw s → step s = .next t → BoothLaw t

/-- The laws of the house lights, of the fire unit's records, of the line unit and of the cue decoders (the counts within the
ranges of Table 3-3, each 0 outside the states that count it, at most two deferred cues) hold after every step from a state
they hold of. -/
def Obligations.UnitLawsKept : Prop :=
  (∀ s t : State, LightsLaw s → step s = .next t → LightsLaw t)
  ∧ (∀ s t : State, FireLaw s.fire → step s = .next t → FireLaw t.fire)
  ∧ (∀ s t : State, LineLaw s.line → step s = .next t → LineLaw t.line)
  ∧ (∀ s t : State, DecodersLaw s → step s = .next t → DecodersLaw t)

/-- The laws of the plan, its bindings and its entries, hold after every step from a state they hold of. -/
def Obligations.PlanLawKept : Prop :=
  ∀ s t : State, PlanLaw s → EntriesLaw s → step s = .next t → PlanLaw t ∧ EntriesLaw t

/-- The law of the screens holds after every step from a state it and the laws of machines and plan hold of: the ON_SCREEN
machine is present exactly in SHOWING, RUNUP and SWAP_DUE, is one of the screen's pair and is the one machine of it that is
ON_SCREEN; the current slot is absent in IDLE alone; interval remaining stands in INTERVAL alone; BOTH stands exactly while
overlap remaining is 1 to 12 (Tables 6-1 and 6-2, R115). -/
def Obligations.ScreensLawKept : Prop :=
  ∀ s t : State, BoothLaw s → PlanLaw s → EntriesLaw s → ScreensLaw s → step s = .next t → ScreensLaw t

/-- R98 and R99: after every step from a state in which latches and bindings agree and this holds, a machine is ARMED
only while all items of the ARMED condition stand in the records, a THREADED machine for which they all stand does not
wait to be ARMED, and the last ARMED posting is in step with the machine's state, on both sides. Where one event makes
several changes the evaluation after the last of them counts (R100, log entries 15 and 32). -/
def Obligations.ArmedConditionKept : Prop :=
  ∀ s t : State, BoothLaw s → PlanLaw s → ArmedLaw s → step s = .next t → ArmedLaw t

/-- R15: after any step, a douser is open only while its machine is ON_SCREEN and AT_SPEED, its lamp BURNING and its
hold set empty.

R155: after any step, while the booth latch is set every motor is off, every arc contactor open and every shutter
magnet de-energized; a machine whose latch is set is TRIPPED, with its motor off, contactor open and magnet off. -/
def Obligations.OutputsAreSafe : Prop :=
  (∀ (s t : State) (m : MachineId), BoothLaw s → step s = .next t → (t.machine m).douser = .opened →
     (t.machine m).state = .onScreen ∧ (t.machine m).speed = .atSpeed ∧ (t.lamp m).state = .burning
       ∧ (t.machine m).holds = ⟨false, false, false, false, false⟩)
  ∧ (∀ (s t : State), BoothLaw s → step s = .next t →
       (t.fire.boothLatch.isSome = true → ∀ m, (t.machine m).motor = false ∧ (t.lamp m).contactorClosed = false
         ∧ (t.fire.shutters.get m).magnet = false)
       ∧ ∀ m, (t.fire.machineLatch.get m).isSome = true → (t.machine m).state = .tripped ∧ (t.machine m).motor = false
         ∧ (t.lamp m).contactorClosed = false ∧ (t.fire.shutters.get m).magnet = false)

/-- No command but RESET BOOTH clears the booth latch; none but RESET m of that machine and RESET BOOTH clears a machine
latch, energizes a magnet or takes a latched machine out of TRIPPED. -/
def Obligations.OnlyResetsReleaseTheBooth : Prop :=
  ∀ (c : Instr) (s t : State), exec c s = .next t →
    (s.fire.boothLatch.isSome = true → t.fire.boothLatch = none → ∃ w, c = .resetBooth w)
    ∧ ∀ m, ((s.fire.machineLatch.get m).isSome = true → t.fire.machineLatch.get m = none →
          (∃ w, c = .resetM w ∧ onlyMachine s w = .ok m) ∨ ∃ w, c = .resetBooth w)
      ∧ ((s.fire.shutters.get m).magnet = false → (t.fire.shutters.get m).magnet = true →
          t.fire.machineLatch.get m = none ∧ ((∃ w, c = .resetM w ∧ onlyMachine s w = .ok m) ∨ ∃ w, c = .resetBooth w))
      ∧ ((s.machine m).state = .tripped → (t.machine m).state ≠ .tripped →
          (∃ w, c = .resetM w ∧ onlyMachine s w = .ok m) ∨ (∃ w, c = .resetBooth w) ∨
            (∃ w, c = .restart w ∧ s.fire.machineLatch.get m = none))

/-- What the show's own commands never reach: the fire unit, the film counted, the carbon burnt, the settings, the plan
entries, the clock, the mains, the SAFETY and CONSOLE claims, and the receiving side of the line. -/
def Obligations.ShowCommandsStayInTheirFrame : Prop :=
  ∀ (s t : State),
    (∀ m, (s.machine m).state.running = true → exec (.contactorFailure m) s = .next t → ShowFrame s t)
    ∧ (∀ m, exec (.stall m) s = .next t → ShowFrame s t)
    ∧ (∀ sc, exec (.intervalExpiry sc) s = .next t → ShowFrame s t)
    ∧ (∀ sc, exec (.darkHoldExpiry sc) s = .next t → ShowFrame s t)
    ∧ (∀ w, exec (.start w) s = .next t → ShowFrame (if s.powered then s.taken (.start w) else s) t)
    ∧ (∀ w, exec (.swapnow w) s = .next t → ShowFrame (if s.powered then s.taken (.swapnow w) else s) t)
    ∧ (∀ w, exec (.resume w) s = .next t → ShowFrame (if s.powered then s.taken (.resume w) else s) t)
    ∧ (∀ w, exec (.abort w) s = .next t → ShowFrame (if s.powered then s.taken (.abort w) else s) t)

/-- An event of one screen's machines, lamps, shutters, circuits or timers leaves the other screen as it was, but for the
time that passes at a frame pulse. The premises say that a screen's ON_SCREEN machine is one of its pair (Table 6-1) and
that bindings stand within a screen (R97); both are invariants (ScreensLawKept, PlanLawKept). -/
def Obligations.ScreensAreIndependent : Prop :=
  ∀ (c : Instr) (sc other : ScreenId) (s t : State), Instr.fieldScreen? c = some sc → other ≠ sc → s.powered = true →
    PlanLaw s → (∀ x m, (s.screen x).onScreen = some m → screenOf m = x) → exec c s = .next t →
    ScreenKept other (match c with | .framePulse _ dt _ => s.elapse dt | _ => s) t

/-! ### The machine unit (Chapters 1 and 2) -/

/-- R4 and R28 to R31, of the machine record: what a frame pulse counts, the period it enters, the average and cfps of a
ring it leaves full, and the speed evaluation then made, in the band of Table 2-2 (what the evaluation does is
SpeedEvaluationChangesStatus). -/
def Obligations.FramePulseCountsAndTimes : Prop :=
  ∀ r : MachineRec,
    -- R4: the count, except in EMPTY, up to 99,999
    (r.state = .empty → r.pulse.frameCount = r.frameCount ∧ r.pulse.saturated = r.saturated)
    ∧ (r.state ≠ .empty → r.frameCount < 99999 →
        r.pulse.frameCount = r.frameCount + 1 ∧ r.pulse.saturated = r.saturated)
    ∧ (r.state ≠ .empty → 99999 ≤ r.frameCount → r.pulse.frameCount = r.frameCount ∧ r.pulse.saturated = true)
    ∧ (r.motor = true → r.pulse.framesSinceOn = min 99999 (r.framesSinceOn + 1) ∧ r.pulse.startMeasure = none)
    -- R28: the first pulse with the motor ON is the reference
    ∧ (r.motor = true → r.pulseRef = false →
        r.pulse.pulseRef = true ∧ r.pulse.periodTimer = some 0 ∧ r.pulse.ring = r.ring ∧ r.pulse.cfps = r.cfps)
    -- R28: a later one enters a period, and the ring keeps the newest eight
    ∧ (r.motor = true → r.pulseRef = true →
        r.pulse.pulseRef = true ∧ r.pulse.periodTimer = some 0
        ∧ r.pulse.ring = (r.ring ++ [max 20000 (min 1000000 (r.periodTimer.getD 0))]).drop (r.ring.length + 1 - 8)
        -- R30: the average and the speed, where the ring is full
        ∧ (r.pulse.ring.length = 8 → r.pulse.average = some (r.pulse.ring.sum / 8)
            ∧ r.pulse.lastAverage = some (r.pulse.ring.sum / 8)
            ∧ r.pulse.cfps = some (100000000 / (r.pulse.ring.sum / 8)))
        ∧ (r.pulse.ring.length ≠ 8 → r.pulse.average = r.average ∧ r.pulse.speed = r.speed
            ∧ r.pulse.inBandRun = r.inBandRun ∧ r.pulse.outBandRun = r.outBandRun)
        -- R31: a full ring is evaluated, in band from 2,352 to 2,448 cfps
        ∧ (r.pulse.ring.length = 8 →
            let p := r.pulse.ring.sum / 8
            r.pulse = MachineRec.judgeSpeed (decide (2352 ≤ 100000000 / p ∧ 100000000 / p ≤ 2448))
              { r with
                frameCount := r.pulse.frameCount, saturated := r.pulse.saturated
                framesSinceOn := min 99999 (r.framesSinceOn + 1), startMeasure := none
                pulseMeasure := if r.atSpeedReached then some 0 else r.pulseMeasure
                ring := r.pulse.ring, periodTimer := some 0
                average := some p, lastAverage := some p, cfps := some (100000000 / p) }))
    -- R4, R28, R33: with the motor OFF nothing enters the ring, and a running no-pulse timer restarts
    ∧ (r.motor = false → r.pulse.ring = r.ring ∧ r.pulse.pulseRef = r.pulseRef ∧ r.pulse.periodTimer = r.periodTimer
        ∧ r.pulse.framesSinceOn = r.framesSinceOn ∧ r.pulse.speed = r.speed
        ∧ r.pulse.noPulseTimer = r.noPulseTimer.map fun _ => 0)

/-- R31, R32, R6 and R39, of the machine record: what a speed evaluation does to the runs, the status, the SPEED hold,
and at the first AT_SPEED of a start to the state and the acceleration allowance. -/
def Obligations.SpeedEvaluationChangesStatus : Prop :=
  ∀ (r : MachineRec) (isIn : Bool),
    let a := if isIn then min 8 (r.inBandRun + 1) else 0
    let b := if isIn then 0 else min 8 (r.outBandRun + 1)
    let x := r.judgeSpeed isIn
    -- no change of status: the runs count on
    ((r.speed = .accel ∧ a ≠ 8) ∨ (r.speed = .atSpeed ∧ b ≠ 8) ∨ (r.speed = .offSpeed ∧ a ≠ 8) ∨ r.speed = .stopped →
      x = { r with inBandRun := a, outBandRun := b })
    -- AT_SPEED falls to OFF_SPEED and SPEED is held
    ∧ (r.speed = .atSpeed → b = 8 →
        x = { r with speed := .offSpeed, holds := { r.holds with speed := true }, inBandRun := 0, outBandRun := 0 })
    -- OFF_SPEED returns to AT_SPEED and SPEED is removed; nothing is learned
    ∧ (r.speed = .offSpeed → a = 8 →
        x = { r with speed := .atSpeed, holds := { r.holds with speed := false }, inBandRun := 0, outBandRun := 0 })
    -- the first AT_SPEED of a lace-up run
    ∧ (r.speed = .accel → a = 8 → r.state ≠ .starting →
        x = { r with speed := .atSpeed, holds := { r.holds with speed := false }, atSpeedReached := true,
                     pulseMeasure := some 0, inBandRun := 0, outBandRun := 0 })
    -- the first AT_SPEED of a start: RUNUP, and the allowance learned
    ∧ (r.speed = .accel → a = 8 → r.state = .starting →
        x = { r with speed := .atSpeed, holds := { r.holds with speed := false }, atSpeedReached := true,
                     pulseMeasure := some 0, inBandRun := 0, outBandRun := 0, state := .runup,
                     accelAllowance := min 3000000
                       ((3 * r.accelAllowance + (r.accelTimer.getD 0 - r.framesSinceOn * 41667)) / 4) })

/-- FRAME_PULSE: the pulse is counted and timed, and what follows stays in the show's frame; one that brings a running
machine to its length L ends its reel (R10). An unwired input gives no pulses (R176). A fall to OFF_SPEED or a return to
AT_SPEED is reported (R14), and the frame notice goes to the cue decoder and then to the controller, after a reel end
(that order is log entry 9). That the controller takes the pulse's postings of R32 with the frame notice, after the decoder,
is the model's choice (log entry 42). -/
def Obligations.FramePulseCompletes : Prop :=
  ∀ (m : MachineId) (dt : Nat) (foil : Bool) (s : State), s.powered = true →
    (s.wired m = false → exec (.framePulse m dt foil) s = .next (s.elapse dt))
    ∧ (s.wired m = true →
        ∃ t, exec (.framePulse m dt foil) s = .next t
          ∧ ShowFrame ((s.elapse dt).modMachine m MachineRec.pulse) t
          ∧ (let u := s.elapse dt
             let w := u.modMachine m MachineRec.pulse
             let told := match (u.machine m).speed, (w.machine m).speed with
               | .atSpeed, .offSpeed => w.report (.speed m false (w.machine m).cfps)
               | .offSpeed, .atSpeed => w.report (.speed m true (w.machine m).cfps)
               | _, _ => w
             t = ((if w.atReelEnd m = true then told.reelEnd m else told).decoderNotice m
               (s.sense m s.straps.foil foil)).frameNotice m)
          ∧ ∀ len, ((s.elapse dt).modMachine m MachineRec.pulse).boundLength m = some len →
              ((s.elapse dt).machine m).pulse.state.running = true → len ≤ ((s.elapse dt).machine m).pulse.frameCount →
              (t.machine m).state = .stopped ∧ (t.machine m).motor = false ∧ (t.machine m).douserRequest = .closed
              ∧ (t.machine m).douser = .closed ∧ (t.machine m).ring = [] ∧ (t.machine m).cfps = none
              ∧ (t.machine m).frameCount = ((s.elapse dt).machine m).pulse.frameCount)

/-- R11 to R13 and R3: a running machine that meets a loop opening outside its runout tail, a stall or a contactor
failure enters BROKEN: motor OFF, BREAK held, request and douser CLOSED, the cause recorded, the frame count and the
allowance kept. That LOOP_SWITCH_OPEN carries the level of the line, and acts where that level reads OPEN, is the model's
choice (log entry 4); what follows stays in the show's frame (and is, at the screen, what ScreenFollowsItsReel says).

R11, R10: the loop switch opening in the runout tail is the reel end at once, the count standing where it is; the
switch is not acted on when the level carried (log entry 4) reads CLOSED or the machine is not running. -/
def Obligations.LoopSwitchStallAndFailureComplete : Prop :=
  (∀ (m : MachineId) (s : State), s.powered = true → (s.machine m).state.running = true →
     let broken := fun (u t : State) (cause : BreakCause) =>
       (t.machine m).state = .broken ∧ (t.machine m).breakCause = some cause ∧ (t.machine m).motor = false
       ∧ (t.machine m).laceUp = (if (s.machine m).motor then false else (s.machine m).laceUp)
       ∧ (t.machine m).holds.brk = true ∧ (t.machine m).douserRequest = .closed ∧ (t.machine m).douser = .closed
       ∧ (t.machine m).frameCount = (s.machine m).frameCount
       ∧ (t.machine m).accelAllowance = (s.machine m).accelAllowance
       ∧ ShowFrame (u.modMachine m (MachineRec.enterBroken cause)) t ∧ t = u.breakRun m cause
     (∀ flowing, s.sense m s.straps.loopSwitch flowing = false → s.tailDue m = false →
         ∃ t, exec (.loopSwitchOpen m flowing) s = .next t
           ∧ broken (s.modMachine m fun r => { r with loopSwitchClosed := false }) t .loop)
     ∧ ((s.machine m).contactorMeasure.isSome = true → ∃ t, exec (.contactorFailure m) s = .next t ∧ broken s t .contactor)
     ∧ ((s.machine m).startMeasure.isSome = true
           ∨ ((s.machine m).atSpeedReached = true ∧ (s.machine m).pulseMeasure.isSome = true) →
         ∃ t, exec (.stall m) s = .next t ∧ broken s t .stall))
  ∧ (∀ (m : MachineId) (flowing : Bool) (s : State), s.powered = true →
       let closed := s.sense m s.straps.loopSwitch flowing
       let u := s.modMachine m fun r => { r with loopSwitchClosed := closed }
       (closed = true ∨ (s.machine m).state.running = false → exec (.loopSwitchOpen m flowing) s = .next u)
       ∧ (closed = false → ∀ e, s.boundEntry m = some e → e.length ≤ (s.machine m).frameCount + 100 →
           (s.machine m).state = .runout ∨ ((s.machine m).state = .onScreen ∧ (e.last = true ∨ e.int.isSome = true)) →
           ∃ t, exec (.loopSwitchOpen m flowing) s = .next t ∧ (t.machine m).state = .stopped
             ∧ (t.machine m).motor = false ∧ (t.machine m).douserRequest = .closed ∧ (t.machine m).douser = .closed
             ∧ (t.machine m).ring = [] ∧ (t.machine m).frameCount = (s.machine m).frameCount
             ∧ ShowFrame (u.modMachine m MachineRec.enterStopped) t ∧ t = u.reelEnd m))

/-- R3 and R33: the contactor sense starts and abandons its measure; a contactor failure in a lace-up run stops the motor
and leaves the machine EMPTY; the no-pulse timer's end makes the status STOPPED and empties the ring.

R23, R2: MOTOR m ON in EMPTY begins a lace-up run, one already on is left, MOTOR m OFF ends it; only that machine's
record and its decoder differ, and OK is answered. In TRIPPED it is refused with TRIP, elsewhere with STATE. -/
def Obligations.MotorAndContactorComplete : Prop :=
  (∀ (m : MachineId) (s : State), s.powered = true →
     (∀ flowing, ∃ t, exec (.contactorSenseChange m flowing) s = .next t ∧ OnlyMachine m s t ∧ t.line = s.line
         ∧ t.machine m = { s.machine m with
             douser := (t.machine m).douser
             contactorClosed := s.sense m s.straps.contactorSense flowing
             contactorMeasure :=
               if (s.machine m).motor = true ∧ s.sense m s.straps.contactorSense flowing = false then
                 (if (s.machine m).contactorClosed then some 0 else (s.machine m).contactorMeasure)
               else none })
     ∧ ((s.machine m).state = .empty → (s.machine m).laceUp = true → (s.machine m).motor = true →
         (s.machine m).contactorMeasure.isSome = true →
         ∃ t, exec (.contactorFailure m) s = .next t ∧ OnlyMachine m s t
           ∧ t.line = s.line.report (.broke m .contactor (s.machine m).frameCount)
           ∧ (t.machine m).state = .empty ∧ (t.machine m).motor = false ∧ (t.machine m).laceUp = false
           ∧ (t.machine m).frameCount = (s.machine m).frameCount ∧ (t.machine m).noPulseTimer = some 0)
     ∧ ((s.machine m).noPulseTimer.isSome = true →
         ∃ t, exec (.noPulseTimerExpiry m) s = .next t ∧ ShowFrame (s.modMachine m MachineRec.noPulse) t
           ∧ t.machine m = { s.machine m with
               douser := (t.machine m).douser
               speed := .stopped
               noPulseTimer := none
               ring := []
               pulseRef := false
               periodTimer := none
               average := none
               cfps := none
               inBandRun := 0
               outBandRun := 0 }
           ∧ ∀ j, j ≠ m → t.machine j = s.machine j))
  ∧ (∀ (m : MachineId) (a : Text) (s : State), s.powered = true → s.namesMachine a m →
       ((s.machine m).state = .empty →
         ∃ t, exec (.motor [a, txt "ON"]) s = .next t ∧ OnlyMachine m s t
           ∧ t.line = (s.taken (.motor [a, txt "ON"])).line.answer (.ok [])
           ∧ ((s.machine m).motor = true → t.machine m = { s.machine m with douser := .closed })
           ∧ ((s.machine m).motor = false →
               (t.decoder m) = { decode := .idle, patchCount := 0, patchLength := 0, gapFrames := 0,
                                 deferred := (s.decoder m).deferred }
               ∧ t.machine m = { s.machine m with
                   motor := true, laceUp := true, speed := .accel, holds := { (s.machine m).holds with speed := true },
                   motorOnTime := s.timebase, framesSinceOn := 0, atSpeedReached := false, ring := [], pulseRef := false,
                   periodTimer := none, average := none, cfps := none, inBandRun := 0, outBandRun := 0,
                   noPulseTimer := none, accelTimer := some 0, startMeasure := some 0, pulseMeasure := none,
                   contactorMeasure := if (s.machine m).contactorClosed then none else some 0, douser := .closed }))
       ∧ ((s.machine m).state = .empty →
         ∃ t, exec (.motor [a, txt "OFF"]) s = .next t ∧ OnlyMachine m s t
           ∧ t.line = (s.taken (.motor [a, txt "OFF"])).line.answer (.ok [])
           ∧ ((s.machine m).motor = false → t.machine m = { s.machine m with douser := .closed })
           ∧ ((s.machine m).motor = true →
               (t.decoder m) = { decode := .idle, patchCount := 0, patchLength := 0, gapFrames := 0, deferred := [] }
               ∧ t.machine m = { s.machine m with
                   motor := false, laceUp := false, holds := { (s.machine m).holds with speed := false },
                   noPulseTimer := some 0, accelTimer := none, startMeasure := none, pulseMeasure := none,
                   contactorMeasure := none, douser := .closed }))
       ∧ ∀ w, w = txt "ON" ∨ w = txt "OFF" →
           ((s.machine m).state = .tripped → exec (.motor [a, w]) s = .next (s.answered (.motor [a, w]) (.no .trip)))
           ∧ ((s.machine m).state ≠ .empty → (s.machine m).state ≠ .tripped →
               exec (.motor [a, w]) s = .next (s.answered (.motor [a, w]) (.no .state))))

/-- R24: DOUSE m CLOSE holds CONSOLE and DOUSE m OPEN removes it, in every state; OK is answered last, and what the hold
change sets off stays in the show's frame. Where the law of the booth holds, CLOSE leaves the douser CLOSED.

The operand tests of the machine unit's three commands (R22). That a doubly wrong line is answered FORM, and what is
read as a number, is the model's choice (log entry 12). -/
def Obligations.DouseAndMachineCommandTests : Prop :=
  (∀ (m : MachineId) (a : Text) (s : State), s.powered = true → s.namesMachine a m →
     (∃ u, exec (.douse [a, txt "CLOSE"]) s = .next (u.answer (.ok []))
       ∧ (u.machine m).holds.console = true
       ∧ (BoothLaw s → (u.machine m).douser = .closed)
       ∧ (let held := (s.taken (.douse [a, txt "CLOSE"])).modMachine m
            fun r => { r with holds := { r.holds with console := true } }
          ShowFrame held u ∧ u = held.machinePosted m))
     ∧ (∃ u, exec (.douse [a, txt "OPEN"]) s = .next (u.answer (.ok []))
       ∧ (u.machine m).holds.console = false
       ∧ (let held := (s.taken (.douse [a, txt "OPEN"])).modMachine m
            fun r => { r with holds := { r.holds with console := false } }
          ShowFrame held u ∧ u = held.machinePosted m)))
  ∧ (∀ (s : State), s.powered = true →
       -- a missing, extra or malformed operand: FORM
       (∀ ops, (¬ ∃ a w n, ops = [a, w] ∧ number? a = some n ∧ (w = txt "ON" ∨ w = txt "OFF")) →
         exec (.motor ops) s = .next (s.answered (.motor ops) (.no .form)))
       ∧ (∀ ops, (¬ ∃ a w n, ops = [a, w] ∧ number? a = some n ∧ (w = txt "CLOSE" ∨ w = txt "OPEN")) →
         exec (.douse ops) s = .next (s.answered (.douse ops) (.no .form)))
       ∧ (∀ ops, (¬ ∃ a n, ops = [a] ∧ number? a = some n) →
         exec (.mstat ops) s = .next (s.answered (.mstat ops) (.no .form)))
       -- m outside 1 to 4, or M3 or M4 with screen 2 not fitted: RANGE
       ∧ ∀ a n, number? a = some n → (n < 1 ∨ 4 < n ∨ (3 ≤ n ∧ s.straps.screen2Fitted = false)) →
           (∀ w, w = txt "ON" ∨ w = txt "OFF" →
             exec (.motor [a, w]) s = .next (s.answered (.motor [a, w]) (.no .range)))
           ∧ (∀ w, w = txt "CLOSE" ∨ w = txt "OPEN" →
             exec (.douse [a, w]) s = .next (s.answered (.douse [a, w]) (.no .range)))
           ∧ exec (.mstat [a]) s = .next (s.answered (.mstat [a]) (.no .range)))

/-! ### Inquiries -/

/-- R25: MSTAT m is answered, in every state, with OK and the machine record in its order; only the reply differs.

R83: LSTAT m is answered, in every state, with OK and the lamp record in its order; only the reply differs. -/
def Obligations.MstatAndLstatAnswerTheRecords : Prop :=
  (∀ (m : MachineId) (a : Text) (s : State), s.powered = true → s.namesMachine a m →
     exec (.mstat [a]) s = .next (s.answered (.mstat [a]) (.ok (
       [fMachine m, fMachineState (s.machine m).state]
       ++ (if (s.machine m).state = .broken then [fOpt fBreakCause (s.machine m).breakCause] else [])
       ++ (if (s.machine m).state = .tripped then [fOpt fMachineState (s.machine m).stateBeforeTrip] else [])
       ++ [(match (s.machine m).reelId with | some id => id | none => txt "-"),
           (match (s.machine m).boundSlot with | some n => fNum n.val | none => txt "-"), fNum (s.machine m).frameCount]
       ++ (if (s.machine m).saturated = true then [txt "SAT"] else [])
       ++ [(if (s.machine m).motor = true then txt "ON" else txt "OFF"), fSpeed (s.machine m).speed,
           (match (s.machine m).cfps with | some n => fNum n | none => txt "-"), fDouser (s.machine m).douser,
           fHolds (s.machine m).holds, fNum (s.machine m).accelAllowance,
           (match (s.machine m).pictureLost with | some n => fNum n | none => txt "-"), fNum (s.machine m).rejected]))))
  ∧ (∀ (m : MachineId) (a : Text) (s : State), s.powered = true → s.namesMachine a m →
       exec (.lstat [a]) s = .next (s.answered (.lstat [a]) (.ok (
         [fMachine m, fLampState (s.lamp m).state]
         ++ (if (s.lamp m).state = .fault then [fOpt fLampFault (s.lamp m).faultCause] else [])
         ++ (if (s.lamp m).state = .striking then
               [fOpt fPhase (s.lamp m).phase, fNum (s.lamp m).attempt]
                 ++ (if (s.lamp m).restrike = true then [txt "RESTRIKE"] else [])
             else [])
         ++ [(if (s.lamp m).contactorClosed = true then txt "CLOSED" else txt "OPEN"),
             (if (s.lamp m).feedForward = true then txt "FWD" else txt "REV"), fNum (s.lamp m).feedDuty,
             fNum (s.lamp m).arcCount, fNum (s.lamp m).trim, fNum (s.lamp m).stub, fNum (s.lamp m).consumed,
             fNum ((((s.lamp m).trim - (s.lamp m).stub) * 20 - (s.lamp m).consumed) / 20)]
         ++ (if (s.lamp m).completed = 6 ∧ 0 < (s.lamp m).buckets.sum then [fNum (s.lamp m).buckets.sum, txt "MEAS"]
             else [fNum (s.lamp m).nominalRate, txt "NOM"])
         ++ [fNum (s.lamp m).completed, fNum (s.lamp m).forecast,
             (match (s.lamp m).boundLength with | some n => fNum n | none => txt "-"),
             (match (s.lamp m).carbonOk with | some true => txt "YES" | some false => txt "NO" | none => txt "-"),
             fNum (s.lamp m).setpoint, fNum (s.lamp m).holdingDuty, fNum (s.lamp m).gain, fNum (s.lamp m).nominalRate,
             fNum (s.lamp m).strikeLead, fNum (s.lamp m).reserve]))))

/-- R147: HLSTAT s is answered with OK and, for each circuit, its name, level, delay, governing rank and claims, then the
half-cycle in use and its validity; only the reply differs. -/
def Obligations.HlstatAnswersTheCircuits : Prop :=
  ∀ (sc : ScreenId) (a : Text) (s : State), s.powered = true → s.namesScreen a sc →
    let claim := fun (name : String) (x : Option Claim) => match x with
      | none => []
      | some x => [txt name, fNum x.target, fNum x.fade]
          ++ (match x.governing with | some f => [fNum f.k, fNum f.n] | none => [])
    let circuit := fun (name : String) (c : Circuit) =>
      [txt name, fNum c.output, (match c.delay with | some d => fNum d | none => txt "-"),
        (if c.claims.safety.isSome then txt "SAFETY" else if c.claims.fault.isSome then txt "FAULT"
          else if c.claims.cue.isSome then txt "CUE" else if c.claims.console.isSome then txt "CONSOLE"
          else txt "NONE")]
        ++ claim "SAFETY" c.claims.safety ++ claim "FAULT" c.claims.fault ++ claim "CUE" c.claims.cue
        ++ claim "CONSOLE" c.claims.console
    exec (.hlstat [a]) s = .next (s.answered (.hlstat [a]) (.ok (
      circuit "HOUSE" (s.circuit sc .house) ++ circuit "AISLE" (s.circuit sc .aisle)
      ++ circuit "STAGE" (s.circuit sc .stage)
      ++ [fNum s.lights.halfCycle, (if s.lights.valid = true then txt "YES" else txt "NO")])))

/-- PSTAT s n is answered in every screen state with OK and the slot, its role and its entry; only the reply differs
(R94). That a slot both on deck and next on a HALTED screen is given ONDECK is the model's choice (log entry 13).

SSTAT, TIME, SHOWAT s, SOUND s, CUEMAP s code and SCENEDEF s n read what they name, in every state, and change nothing
but the reply.

FSTAT, IDENT, STATUS and INCIDENT n read what they name, in every state, and change nothing but the reply. STATUS
gives the fields as read at its dispatch (R173; a STATUS given directly, log entry 3). -/
def Obligations.ReadsChangeNothing : Prop :=
  (∀ (sc : ScreenId) (n : SlotIx) (a b : Text) (s : State), s.powered = true → s.namesScreen a sc → namesSlot b n →
     let x := s.slot sc n
     let field := fun (f : SlotEntry → Text) => match x.entry with | none => txt "-" | some e => f e
     exec (.pstat [a, b]) s = .next (s.answered (.pstat [a, b]) (.ok [
       fScreen sc, fNum n.val, fSlotStatus x.status,
       (if (s.screen sc).state ≠ .idle ∧ (s.screen sc).current = some n then txt "CURRENT"
         else if s.onDeck sc = some n then txt "ONDECK"
         else if ((s.screen sc).state = .idle ∨ (s.screen sc).state = .halted) ∧ s.nextSlot sc = some n then txt "NEXT"
         else if s.frozen sc n = true then txt "FROZEN" else txt "-"),
       (match x.bound with | some m => fMachine m | none => txt "-"),
       field fun e => e.reel, field fun e => fNum e.length,
       field fun e => (match e.co with | some c => fNum c | none => txt "-"),
       field fun e => fNum e.window, field fun e => fNum e.runUp,
       field fun e => (match e.mode with | .film => txt "FILM" | .foot => txt "FOOT"),
       field fun e => (match e.scene with | some k => fNum k.val | none => txt "-"),
       field fun e => (if e.last = true then txt "LAST" else txt "-"),
       field fun e => (match e.int with | some k => fNum k | none => txt "-"),
       field fun e => (if e.note = true then txt "NOTE" else txt "-")])))
  ∧ ((∀ (sc : ScreenId) (a : Text) (s : State), s.powered = true → s.namesScreen a sc →
        exec (.sstat [a]) s = .next (s.answered (.sstat [a]) (.ok [
          fScreen sc, fScreenState (s.screen sc).state, fOpt fSlot (s.screen sc).current, fOpt fSlot (s.onDeck sc),
          fOpt fMachine (s.successor sc), fOpt fMachine (s.screen sc).onScreen, fYesNo (s.screen sc).startGiven,
          fYesNo (s.screen sc).startPending, fOpt fPointCause (s.screen sc).point, fOpt fNum (s.screen sc).framesToGo,
          fOpt fNum (s.screen sc).nStart, fMixer (s.screen sc).mixer, fNum (s.screen sc).sound,
          fNum (s.screen sc).overlap, fNum ((s.screen sc).margin / 1000), fOpt fInterval (s.screen sc).interval,
          fFaultClaim (s.screen sc).faultClaim]))
        ∧ exec (.time []) s = .next (s.answered (.time []) (.ok [
            match s.plan.clock with
            | none => txt "UNSET"
            | some t => fTwo (t / 3600) ++ txt ":" ++ fTwo (t / 60 % 60) ++ txt ":" ++ fTwo (t % 60)]))
        ∧ exec (.showat [a]) s = .next (s.answered (.showat [a]) (.ok [
            match s.plan.showAt.get sc with
            | none => txt "OFF"
            | some t => fTwo (t / 3600) ++ txt ":" ++ fTwo (t / 60 % 60)]))
        ∧ exec (.sound [a]) s = .next (s.answered (.sound [a]) (.ok [fNum (s.screen sc).sound]))
        ∧ (∀ b k c, number? b = some k → effectOf? k = some c →
            exec (.cuemap [a, b]) s = .next (s.answered (.cuemap [a, b]) (.ok (
              if (s.screen sc).cueTable.get c = [] then [txt "NONE"]
              else ((s.screen sc).cueTable.get c).flatMap CueAction.fields))))
        ∧ ∀ b n, namesScene b n →
            exec (.scenedef [a, b]) s = .next (s.answered (.scenedef [a, b]) (.ok [
              fNum (s.sceneLevels sc n).house, fNum (s.sceneLevels sc n).aisle, fNum (s.sceneLevels sc n).stage])))
     ∧ (∀ s : State, s.powered = true →
          (let machine := fun (m : MachineId) => [fMachine m]
              ++ (match s.fire.machineLatch.get m with
                  | none => [txt "CLEAR"]
                  | some .gateHeat => [txt "SET", txt "GATE_HEAT"]
                  | some .booth => [txt "SET", txt "BOOTH"])
              ++ [fOnOff (s.fire.shutters.get m).magnet, fShutterState (s.fire.shutters.get m).state,
                  fNum (s.fire.gates.get m).count, fNum (s.fire.gates.get m).hotRun, fNum (s.fire.gates.get m).tripThreshold,
                  fNum (s.fire.gates.get m).resetThreshold];
            exec (.fstat []) s = .next (s.answered (.fstat []) (.ok (
              (match s.fire.boothLatch with
                | none => [txt "CLEAR"]
                | some .power => [txt "SET", txt "POWER"]
                | some .loop => [txt "SET", txt "LOOP"])
              ++ [(if s.fire.loopClosed = true then txt "CLOSED" else txt "OPEN"),
                  (match s.fire.loopHealthy with | some n => fNum n | none => txt "-")]
              ++ machine .m1 ++ machine .m2 ++ machine .m3 ++ machine .m4
              ++ [fNum s.fire.log.length, fNum s.fire.nextSequence]))))
          ∧ exec (.ident []) s = .next (s.answered (.ident []) (.ok [
              txt "PINDROW", txt "WOLSETT", txt "3100", txt "REV", txt "C",
              (match s.straps.baud300, s.straps.baud1200, s.straps.baud2400 with
                | false, true, false => txt "1200"
                | false, false, true => txt "2400"
                | _, _, _ => txt "300"),
              (if s.straps.screen2Fitted = true then txt "S2" else txt "NOS2")]))
          ∧ (let screen := fun (sc : ScreenId) =>
                if sc = .s2 ∧ s.straps.screen2Fitted = false then [fAbsent, fAbsent, fAbsent, fAbsent, fAbsent, fAbsent, fAbsent]
                else if (s.screen sc).state = .idle then
                  [fScreen sc, txt "IDLE", fAbsent, fAbsent, fAbsent, fAbsent, fAbsent]
                else [fScreen sc, fScreenState (s.screen sc).state, fOpt fSlot (s.screen sc).current,
                  fOpt fMachine (s.screen sc).onScreen,
                  (match (s.screen sc).onScreen with | some m => fNum (s.machine m).frameCount | none => txt "-"),
                  (match (s.screen sc).onScreen with | some m => fOpt fNum (s.reelTime m) | none => txt "-"),
                  fYesNo (s.screen sc).startPending];
              let latch := fun (m : MachineId) => [fMachine m, match s.fire.machineLatch.get m with
                | none => txt "CLEAR" | some .gateHeat => txt "GATE_HEAT" | some .booth => txt "BOOTH"];
              let fields := [match s.plan.clock with | none => txt "UNSET" | some t => fTime t] ++ screen .s1 ++ screen .s2
                ++ [match s.fire.boothLatch with | none => txt "CLEAR" | some .power => txt "POWER" | some .loop => txt "LOOP"]
                ++ latch .m1 ++ latch .m2 ++ latch .m3 ++ latch .m4 ++ [txt "Q", fNum s.line.queue.length];
              -- STATUS answers what was read at its dispatch, and the records as they stand where it was given directly
              (∀ w, s.readAtDispatch (.status w) = some (.status fields))
              ∧ (s.line.handed ≠ some (.status []) → exec (.status []) s = .next (s.answered (.status []) (.ok fields)))
              ∧ ∀ read, s.line.handed = some (.status []) → s.line.reading = some (.status read) →
                  exec (.status []) s = .next (s.answered (.status []) (.ok read)))
          ∧ ∀ a n r, number? a = some n → 1 ≤ n → n ≤ 8 → s.fire.log[n - 1]? = some r →
              exec (.incident [a]) s = .next (s.answered (.incident [a]) (.ok (
                [fNum r.sequence, (match r.timeOfDay with | none => txt "UNSET" | some t => fTime t), fIncidentCause r.cause,
                  fScope r.scope, (match r.related with | some k => fNum k | none => txt "-")]
                ++ r.machines.flatMap (fun x => [fMachine x.machine, fMachineState x.state, fOpt id x.reelId,
                    fOpt fSlot x.boundSlot, fNum x.frameCount, fOpt fNum x.cfps, fLampState x.lamp, fNum x.carbonMm])
                ++ (if r.lights = [] then [txt "-"]
                    else r.lights.flatMap fun x => [fScreen x.screen, fCircuit x.circuit, fNum x.level])
                ++ r.outcomes.flatMap fun e => [fMachine e.1, fOutcome e.2])))))

/-! ### Cue reading (Chapter 3) -/

/-- Of the cue decoder: a group of patches of 1 to 24 frames, parted by 1 to 7 clear frames, closes at its eighth clear
frame with its patch count, 7 standing for seven or more, and leaves the decoder IDLE; a patch that reaches 25 frames is a
splice, skipped to the first clear frame.

In a lace-up run FRAME_PULSE reads the foil and a group closed or aborted is reported TEST with frames since motor on;
the count stays and nothing is handed on.

Outside a lace-up run a closed group of 1 to 6 patches is handed to the controller with the frame count of its
notice (R45; CodesAreDisposedOf says how it is disposed of), and an aborted or invalid one is rejected SPLICE or INVALID
(R46); with the motor OFF no sample is taken (R43). The model's choices: where the pulse ends the reel, the reel end comes
first (log entry 9), and the code is disposed of before the controller takes the pulse's postings of R32 (log entry 42). -/
def Obligations.CueGroupsAreReadAndTested : Prop :=
  (∀ d : DecoderRec, d.decode = .idle →
     (∀ (first : Nat) (rest : List (Nat × Nat)), 1 ≤ first → first ≤ 24 →
       (∀ p ∈ rest, 1 ≤ p.1 ∧ p.1 ≤ 7 ∧ 1 ≤ p.2 ∧ p.2 ≤ 24) →
       (d.read (groupSamples first rest)).1
           = { decode := .idle, patchCount := 0, patchLength := 0, gapFrames := 0, deferred := d.deferred }
       ∧ ∃ k, (d.read (groupSamples first rest)).2
           = List.replicate k .quiet ++ [.closed (min 7 (1 + rest.length))])
     ∧ ∀ n, 25 ≤ n →
       d.read (List.replicate n true ++ [false])
         = ({ decode := .idle, patchCount := 0, patchLength := 0, gapFrames := 0, deferred := d.deferred },
             List.replicate 24 .quiet ++ [.splice] ++ List.replicate (n - 24) .quiet))
  ∧ (∀ (m : MachineId) (dt : Nat) (foil : Bool) (s : State), s.powered = true → s.wired m = true →
       (s.machine m).state = .empty → (s.machine m).laceUp = true → (s.machine m).motor = true →
       (s.screen (screenOf m)).onScreen ≠ some m →
       let u := ((s.elapse dt).modMachine m MachineRec.pulse).speedReport m (s.machine m).speed
       let x := (s.decoder m).sample (s.sense m s.straps.foil foil)
       let read := u.modDecoder m fun _ => x.1
       (u.machine m).frameCount = (s.machine m).frameCount
       ∧ (x.2 = .quiet → exec (.framePulse m dt foil) s = .next read)
       ∧ (x.2 = .splice → exec (.framePulse m dt foil) s = .next (read.report
           (.cue (screenOf m) m .splice (u.machine m).framesSinceOn .test)))
       ∧ ∀ n, x.2 = .closed n → exec (.framePulse m dt foil) s = .next (read.report
           (.cue (screenOf m) m (if n < 7 then .code n else .invalid) (u.machine m).framesSinceOn .test)))
  ∧ (∀ (m : MachineId) (dt : Nat) (foil : Bool) (s : State), s.powered = true → s.wired m = true →
       (s.machine m).laceUp = false →
       let w := (s.elapse dt).modMachine m MachineRec.pulse
       let u := w.speedReport m (s.machine m).speed
       let x := (s.decoder m).sample (s.sense m s.straps.foil foil)
       let read := u.modDecoder m fun _ => x.1
       let f := (w.machine m).frameCount
       (w.atReelEnd m = false → (s.machine m).motor = true →
         (x.2 = .quiet → exec (.framePulse m dt foil) s = .next (read.frameNotice m))
         ∧ (x.2 = .splice → exec (.framePulse m dt foil) s = .next ((read.rejectCue m none f .splice).frameNotice m))
         ∧ (∀ n, x.2 = .closed n → n < 7 → exec (.framePulse m dt foil) s = .next ((read.disposeCode m n f).frameNotice m))
         ∧ (x.2 = .closed 7 → exec (.framePulse m dt foil) s = .next ((read.rejectCue m none f .invalid).frameNotice m)))
       ∧ (w.atReelEnd m = false → (s.machine m).motor = false → exec (.framePulse m dt foil) s = .next (u.frameNotice m))
       ∧ (w.atReelEnd m = true → exec (.framePulse m dt foil) s = .next ((u.reelEnd m).frameNotice m)))

/-- R50 and R51: a code is disposed of by the source machine's state and the screen's slots, and a code that reaches the
window test by its window. A rejection raises the rejected cue count and reports *REJECT, and reaches nothing else; an
effect code in RUNUP joins the deferred queue of two. What executing an action list does is said by ActionListsAreExecuted,
what a start that falls due does by StartsFallDue, what an accepted CHANGEOVER cue does to the screen by StartTimingFigures. -/
def Obligations.CodesAreDisposedOf : Prop :=
  ∀ (m : MachineId) (f : Nat) (s : State),
    let sc := screenOf m
    (∀ p, p = 1 ∨ p = 2 →
      ((s.machine m).state ≠ .onScreen → s.disposeCode m p f = s.rejectCue m (some p) f .source)
      ∧ ((s.machine m).state = .onScreen → s.successorWithCo sc = false →
          s.disposeCode m p f = s.rejectCue m (some p) f .noSucc)
      ∧ ((s.machine m).state = .onScreen → s.successorWithCo sc = true →
          ∀ e co, s.currentEntry sc = some e → e.co = some co →
          (e.mode = .foot → s.disposeCode m p f = s.rejectCue m (some p) f .foot)
          ∧ (e.mode = .film → p = 1 →
              (∀ n, s.startPoint sc m = some n → 0 < co - f → co - f ≤ n + 240 →
                s.disposeCode m p f =
                  if (s.screen sc).state.shows = true then
                    (s.report (.cue sc m (.code 1) f .accept)).startDue sc .cue true
                  else s.report (.cue sc m (.code 1) f .accept))
              ∧ (co ≤ f ∨ (∀ n, s.startPoint sc m = some n → n + 240 < co - f) →
                s.disposeCode m p f = s.rejectCue m (some p) f .window))
          ∧ (e.mode = .film → p = 2 →
              (co - e.window ≤ f → f ≤ co + e.window →
                s.disposeCode m p f = (s.report (.cue sc m (.code 2) f .accept)).reachPoint sc .cue f)
              ∧ (f < co - e.window ∨ co + e.window < f →
                s.disposeCode m p f = s.rejectCue m (some p) f .window))))
    ∧ (∀ c : EffectCode,
        ((s.machine m).state = .onScreen → s.disposeCode m c.number f =
          s.execActions sc m c.number f ((s.screen sc).cueTable.get c))
        ∧ ((s.machine m).state = .runup → (s.decoder m).deferred.length < 2 →
          s.disposeCode m c.number f =
            ((s.modDecoder m fun d => { d with deferred := d.deferred ++ [⟨c, f⟩] }).report
              (.cue sc m (.code c.number) f .defer)))
        ∧ ((s.machine m).state = .runup → 2 ≤ (s.decoder m).deferred.length →
          s.disposeCode m c.number f = s.rejectCue m (some c.number) f .full)
        ∧ ((s.machine m).state ≠ .onScreen → (s.machine m).state ≠ .runup →
          s.disposeCode m c.number f = s.rejectCue m (some c.number) f .source))
    ∧ s.disposeCode m 7 f = s.rejectCue m none f .invalid
    ∧ ∀ code why, let t := s.rejectCue m code f why
        OnlyMachine m s t ∧ t.decoder m = s.decoder m ∧ t.line = s.line.report (.reject sc m code f why)
        ∧ t.machine m = { s.machine m with rejected := min 255 ((s.machine m).rejected + 1),
                                           douser := (t.machine m).douser }

/-- R54: an action list is carried out in the order written: SCENE and LEVEL place CUE claims, SOUND sets the sound level,
NOTE reports *CUE, and the empty list does nothing. R58: a deferred queue handed over is empty, its entries executed oldest
first by the lists as they stand at the hand-over. And what a swap, a recovery and the end of an opening make of the lights
and the sound level: the FAULT claim released (R107, R121, R124), the slot's scene issued (not at the end of an opening,
R107), then the hand-over. That a swap releases a PICTURE claim before the scene is issued is the model's choice (log entry
17). -/
def Obligations.ActionListsAreExecuted : Prop :=
  ∀ (sc : ScreenId) (m : MachineId) (s : State),
    let level := fun (n : Fin 8) (c : CircuitId) => ((s.lights.scenes.get sc)[n]).get c
    -- CUE claims on the circuits of `on`, and nothing else
    let claimed := fun (on : CircuitId → Prop) (target : CircuitId → Nat) (fade : Nat) (t : State) =>
      t = { s with lights := t.lights } ∧ t.lights = { s.lights with circuits := t.lights.circuits }
      ∧ (∀ y c, y ≠ sc ∨ ¬ on c → t.circuit y c = s.circuit y c)
      ∧ ∀ c, on c → t.circuit sc c = (s.circuit sc c).place s.lights.halfCycle .cue (target c) fade
          ∧ ∃ q, (t.circuit sc c).claims.cue = some q ∧ q.target = target c ∧ q.fade = fade
    (∀ code frame,
      let run := State.execActions sc m code frame
      run [] s = s
      ∧ (∀ l k, run (l ++ k) s = run k (run l s))
      ∧ (∀ n fade, claimed (fun _ => True) (level n) fade (run [.scene n fade] s))
      ∧ (∀ k v fade, claimed (fun c => c = k) (fun _ => v) fade (run [.level (some k) v fade] s))
      ∧ (∀ v fade, claimed (fun _ => True) (fun _ => v) fade (run [.level none v fade] s))
      ∧ (∀ v, run [.sound v] s = s.modScreen sc fun x => { x with sound := min 15 v })
      ∧ run [.note] s = s.report (.cue sc m (.code code) frame .note))
    -- R58
    ∧ s.handOver sc m = (s.decoder m).deferred.foldl
        (fun u d => State.execActions sc m d.code.number d.frame ((s.screen sc).cueTable.get d.code) u)
        (s.modDecoder m fun d => { d with deferred := [] })
    -- the lights and the sound level as the screen is given: t as u leaves them
    ∧ ((s.machine m).state = .runup → screenOf m = sc →
      let same := fun (t u : State) => (∀ y c, t.circuit y c = u.circuit y c) ∧ (t.screen sc).sound = (u.screen sc).sound
      let lit := fun (u : State) => match (s.onDeckEntry sc).bind (·.scene) with
        | some n => u.placeThree sc .cue (s.lights.scenes.get sc)[n] 50
        | none => u
      let released := s.releaseThree sc .fault
      (∀ out, s.swapReady m = true → s.successor sc = some m → (s.screen sc).state = .swapDue →
        (s.screen sc).onScreen = some out → (s.machine out).state = .onScreen →
        same (s.testReady sc) ((lit (if (s.screen sc).faultClaim = .picture then released else s)).handOver sc m))
      ∧ (s.swapReady m = true → s.successor sc = some m → (s.screen sc).state = .dark →
        same (s.testReady sc) ((lit released).handOver sc m))
      ∧ (s.openReady m = true → s.waitedOn sc = some m → (s.screen sc).state = .opening →
        same (s.openingTake sc) (released.handOver sc m)))

/-- R55: CUEMAP s code writes one to three actions, or NONE for the empty list, in every state, a level, fade or sound level
above its limit stored as the limit; the words it reads back, of values within their limits, write those values again; and
nothing but that list and the reply differs. Its refusals: FORM for a malformed line, RANGE for a screen, a code or a scene
that there is not. What is read as a number, and FORM tested before RANGE, is the model's choice (log entry 12). -/
def Obligations.CuemapWritesTheList : Prop :=
  -- the words of one action, and the action they store
  let stores : List Text → CueAction → Prop := fun w x =>
    match x with
    | .scene n fade => ∃ a b f, w = [txt "SCENE", a, b] ∧ number? a = some n.val ∧ number? b = some f ∧ fade = min 600 f
    | .level c level fade => ∃ a b d l f, w = [txt "LEVEL", a, b, d] ∧ circuitOperand? a = some c ∧ number? b = some l
        ∧ number? d = some f ∧ level = min 255 l ∧ fade = min 600 f
    | .sound level => ∃ a l, w = [txt "SOUND", a] ∧ number? a = some l ∧ level = min 15 l
    | .note => w = [txt "NOTE"]
  -- the words of one action, whatever its scene number
  let action : List Text → Prop := fun w =>
    (∃ x, stores w x) ∨ ∃ a b n f, w = [txt "SCENE", a, b] ∧ number? a = some n ∧ number? b = some f ∧ 7 < n
  let list : List Text → Prop := fun ws =>
    ws = [] ∨ ws = [txt "NONE"] ∨ ∃ l : List (List Text), l.length ≤ 3 ∧ (∀ w ∈ l, action w) ∧ ws = l.flatten
  (∀ x : CueAction, (match x with
      | .scene _ fade => fade ≤ 600
      | .level _ level fade => level ≤ 255 ∧ fade ≤ 600
      | .sound level => level ≤ 15
      | .note => True) → stores x.fields x)
  ∧ ∀ s : State, s.powered = true →
    (∀ (sc : ScreenId) (a b : Text) (k : Nat) (c : EffectCode), s.namesScreen a sc → number? b = some k →
      effectOf? k = some c →
      let writes := fun (ws : List Text) (l : List CueAction) =>
        exec (.cuemap (a :: b :: ws)) s = .next (((s.taken (.cuemap (a :: b :: ws))).modScreen sc
          fun x => { x with cueTable := x.cueTable.set c l }).answer (.ok []))
      writes [txt "NONE"] []
      ∧ ∀ (ws : List (List Text)) (l : List CueAction), ws ≠ [] → ws.length ≤ 3 → List.Forall₂ stores ws l →
          writes ws.flatten l)
    ∧ (∀ ops, (¬ ∃ a b n k ws, ops = a :: b :: ws ∧ number? a = some n ∧ number? b = some k ∧ list ws) →
        exec (.cuemap ops) s = .next (s.answered (.cuemap ops) (.no .form)))
    ∧ ∀ a b n k ws, number? a = some n → number? b = some k → list ws →
        (n < 1 ∨ 2 < n ∨ (n = 2 ∧ s.straps.screen2Fitted = false)
          ∨ k < 3 ∨ 6 < k
          ∨ (∃ (l : List (List Text)) (c d : Text) (v : Nat), l.length ≤ 3 ∧ (∀ w ∈ l, action w) ∧ ws = l.flatten
              ∧ [txt "SCENE", c, d] ∈ l ∧ number? c = some v ∧ 7 < v)) →
        exec (.cuemap (a :: b :: ws)) s = .next (s.answered (.cuemap (a :: b :: ws)) (.no .range))

/-! ### The lamp unit (Chapter 4) -/

/-- Of the lamp record: a gate of the FEED and PROVE phases of a strike, the failure of an attempt, and the ends of the
touch, retract and pause measures (R65 to R67). A gate and a touch measure that end at the same moment are told apart by
the order in which they are taken (R65); that the moment lasts until time passes is log entry 33.

Of the lamp record: the runs of a gate in BURNING, the short-gap retract at its third gate and its end, and the
re-strike at the third arc-out gate (R70, R71). -/
def Obligations.StrikeAndBurningGates : Prop :=
  (∀ (l : LampRec) (count : Nat), l.state = .striking →
     let x := { l with arcCount := min 1500 count, gate := some 0 }
     let out := { l with touchMeasure := none, retractMeasure := none, pauseMeasure := none, shortGapRetract := none,
                         contactorClosed := false, gate := none, feedDuty := 0, lateGate := false }
     let begun := { l with lateGate := false, touchMeasure := some 0, retractMeasure := none, pauseMeasure := none, shortGapRetract := none,
                           contactorClosed := true, gate := some 0, phase := some .feed, proveGates := 0,
                           feedForward := true, feedDuty := 255 }
     -- FEED: touch, or the phase stands
     (l.gate.isSome = true → l.phase = some .feed → count ≤ 50 → l.takeGate count =
       ({ x with touchMeasure := none, feedForward := false, feedDuty := 255, phase := some .retract,
                 retractMeasure := some 0, gate := none }, .quiet))
     ∧ (l.gate.isSome = true → l.phase = some .feed → 50 < count → l.takeGate count = (x, .quiet))
     -- PROVE: the arc not held, not yet proved, or established at the third gate
     ∧ (l.gate.isSome = true → l.phase = some .prove → 1000 ≤ count → l.takeGate count =
         { x with proveGates := l.proveGates + 1, feedForward := true, feedDuty := x.regulationDuty }.attemptFails)
     ∧ (l.gate.isSome = true → l.phase = some .prove → count < 1000 → l.proveGates + 1 < 3 → l.takeGate count =
         ({ x with proveGates := l.proveGates + 1, feedForward := true, feedDuty := x.regulationDuty }, .quiet))
     ∧ (l.gate.isSome = true → l.phase = some .prove → count < 1000 → 3 ≤ l.proveGates + 1 →
         ∃ f ok, l.takeGate count =
           ({ x with proveGates := l.proveGates + 1, feedForward := true, feedDuty := x.regulationDuty, state := .burning,
                     phase := none, attempt := 0, restrike := false, arcOutRun := 0, shortGapRun := 0, buckets := [],
                     completed := 0, openBucket := some 0, bucketMeasure := some 0, forecast := f, carbonOk := ok },
             .struck (if l.restrike = true then none else some l.attempt))
           ∧ f = min 65535 (l.remaining * 60 / l.nominalRate)
           ∧ ok = l.boundLength.map fun len => decide (l.need len ≤ f))
     -- no gate is counted while the contactor is OPEN or the feed retracts; one late for the touch measure writes its count
     ∧ (l.gate = none → l.lateGate = false → l.takeGate count = (l, .quiet))
     ∧ (l.gate = none → l.lateGate = true →
         l.takeGate count = ({ l with arcCount := min 1500 count, lateGate := false }, .quiet))
     -- an attempt fails
     ∧ (l.restrike = true → l.attemptFails =
         ({ out with state := .fault, faultCause := some .arcOut, phase := none, restrike := false, attempt := 0 },
           .failed .arcOut))
     ∧ (l.restrike = false → l.attempt < 3 → l.attemptFails =
         ({ out with phase := some .pause, pauseMeasure := some 0 }, .quiet))
     ∧ (l.restrike = false → 3 ≤ l.attempt → l.attemptFails =
         ({ out with state := .fault, faultCause := some .strike, phase := none, attempt := 0 }, .failed .strike))
     -- the measures
     ∧ (l.phase = some .feed → l.touchMeasure.isSome = true →
         l.touchExpires = ({ l.attemptFails.1 with lateGate := l.gate.isSome }, l.attemptFails.2))
     ∧ (∀ dt, 0 < dt → (l.elapse dt).lateGate = false) ∧ (l.elapse 0).lateGate = l.lateGate
     ∧ (l.phase = some .retract → l.retractMeasure.isSome = true → l.retractExpires =
         { l with retractMeasure := none, gate := some 0, feedForward := true, feedDuty := l.holdingDuty,
                  phase := some .prove })
     ∧ (l.phase = some .pause → l.pauseMeasure.isSome = true → l.pauseExpires =
         { begun with attempt := l.attempt + 1 }))
  ∧ (∀ (l : LampRec) (count : Nat), l.state = .burning →
       let n := min 1500 count
       let a := if n ≤ 200 then l.shortGapRun + 1 else 0
       let b := if 1000 ≤ n then l.arcOutRun + 1 else 0
       let x := { l with arcCount := n, gate := some 0, feedForward := true,
                         feedDuty := { l with arcCount := n }.regulationDuty, shortGapRun := a, arcOutRun := b }
       (l.gate.isSome = true → a < 3 → b < 3 → l.takeGate count = (x, .quiet))
       ∧ (l.gate.isSome = true → 3 ≤ a → l.takeGate count =
           ({ x with shortGapRun := 0, feedForward := false, feedDuty := 255, shortGapRetract := some 0, gate := none },
             .quiet))
       ∧ (l.gate.isSome = true → a < 3 → 3 ≤ b → ∃ f ok, l.takeGate count =
           ({ x with shortGapRun := 0, arcOutRun := 0, state := .striking, restrike := true, attempt := 1,
                     phase := some .feed, proveGates := 0, feedForward := true, feedDuty := 255, touchMeasure := some 0,
                     retractMeasure := none, pauseMeasure := none, shortGapRetract := none, contactorClosed := true,
                     lateGate := false, openBucket := none, bucketMeasure := none, forecast := f, carbonOk := ok }, .quiet)
           ∧ f = l.forecastNow ∧ ok = l.boundLength.map fun len => decide (l.need len ≤ f))
       ∧ (l.gate = none → l.lateGate = false → l.takeGate count = (l, .quiet))
       ∧ (l.shortGapRetract.isSome = true → l.shortGapExpires =
           { l with shortGapRetract := none, gate := some 0, feedForward := true, feedDuty := l.holdingDuty }))

/-- R69: the duty of a gate completed in BURNING or in PROVE, made before the tests of the same gate, whose own order
replaces it where one acts. -/
def Obligations.FeedRegulation : Prop :=
  ∀ (l : LampRec) (count : Nat), l.gate.isSome = true →
    l.state = .burning ∨ (l.state = .striking ∧ l.phase = some .prove) →
    let n := min 1500 count
    let e : Int := (n : Int) - l.setpoint
    let duty : Int := if -15 ≤ e ∧ e ≤ 15 then l.holdingDuty else max 0 (min 255 (l.holdingDuty + (e * l.gain).tdiv 16))
    let x := (l.takeGate count).1
    -- no test acts
    (l.state = .burning → ¬ (n ≤ 200 ∧ 3 ≤ l.shortGapRun + 1) → ¬ (1000 ≤ n ∧ 3 ≤ l.arcOutRun + 1) →
      x.feedForward = true ∧ (x.feedDuty : Int) = duty)
    ∧ (l.state = .striking → n < 1000 → x.feedForward = true ∧ (x.feedDuty : Int) = duty)
    -- the short-gap test, the arc-out test and the proof give their own order
    ∧ (l.state = .burning → n ≤ 200 → 3 ≤ l.shortGapRun + 1 → x.feedForward = false ∧ x.feedDuty = 255)
    ∧ (l.state = .burning → 1000 ≤ n → 3 ≤ l.arcOutRun + 1 → x.feedForward = true ∧ x.feedDuty = 255)
    ∧ (l.state = .striking → 1000 ≤ n → x.feedDuty = 0)

/-- ARC_GATE and the ends of the touch, retract, pause and short-gap measures: the lamp's record becomes what the rule
of its state and phase makes of it, *STRIKE or *ARCOUT is reported where an arc is established or the last attempt fails
(R66, R67; with the shortfall test of CarbonEventsComplete where the reel time is formed), the change is posted (the
order within the event: log entry 36), and what follows stays in the show's frame. -/
def Obligations.LampEventsComplete : Prop :=
  ∀ (m : MachineId) (count : Nat) (s : State), s.powered = true →
    let l := s.lamp m
    let done := fun (c : Instr) (u : LampRec × LampNews) =>
      ∃ t, exec c s = .next t ∧ ShowFrame (s.modLamp m fun _ => u.1) t
        ∧ (u.1.state ≠ .dark → LampIs u.1 (t.lamp m))
        ∧ (∀ j, j ≠ m → (t.lamp j).trim = (s.lamp j).trim ∧ (t.lamp j).consumed = (s.lamp j).consumed)
        ∧ (let w := s.modLamp m fun _ => u.1
           (u.2 = .quiet → t = w.lampSettled m l.state)
           ∧ (∀ cause, u.2 = .failed cause → t = (w.report (.arcOut m cause)).lampSettled m l.state)
           ∧ ∀ attempt, u.2 = .struck attempt → s.reelTime m = none →
               t = (w.report (.strike m attempt u.1.forecast)).lampSettled m l.state)
    -- an unwired converter gives a count of 0
    done (.arcGate m count) (l.takeGate (if s.wired m = true then count else 0))
    ∧ done (.touchMeasureExpiry m) l.touchExpires
    ∧ done (.retractMeasureExpiry m) (l.retractExpires, .quiet)
    ∧ done (.pauseMeasureExpiry m) (l.pauseExpires, .quiet)
    ∧ done (.shortGapRetractExpiry m) (l.shortGapExpires, .quiet)

/-- Of the lamp record: remaining pulses, rate in use, forecast, need and carbon_ok, and their bounds (R75 to R78). -/
def Obligations.CarbonAccount : Prop :=
  ∀ (l : LampRec) (len : Nat),
    l.remaining = (l.trim - l.stub) * 20 - l.consumed
    ∧ (l.trim ≤ 600 → 20 ≤ l.stub → l.remaining ≤ 11600)
    ∧ (l.trim = 0 → l.remaining = 0)
    ∧ l.rateInUse = (if l.completed = 6 ∧ 0 < l.buckets.sum then l.buckets.sum else l.nominalRate)
    ∧ l.recompute = { l with
        forecast := min 65535 (l.remaining * 60 / l.rateInUse)
        carbonOk := l.boundLength.map fun b => decide (l.strikeLead + (b + 23) / 24 + l.reserve ≤ l.recompute.forecast) }
    -- at the least nominal rate the forecast is at most 34,800 s; 65,535 needs a measured rate of 10 or less
    ∧ (l.remaining ≤ 11600 → 20 ≤ l.nominalRate → ¬ (l.completed = 6 ∧ 0 < l.buckets.sum) → l.recompute.forecast ≤ 34800)
    ∧ (l.remaining ≤ 11600 → 20 ≤ l.nominalRate → l.recompute.forecast = 65535 →
        l.completed = 6 ∧ 0 < l.buckets.sum ∧ l.buckets.sum ≤ 10)
    -- the need lies within 21 and 4,647 s
    ∧ (20 ≤ l.strikeLead → l.strikeLead ≤ 180 → l.reserve ≤ 300 → 1 ≤ len → len ≤ 99999 →
        21 ≤ l.need len ∧ l.need len ≤ 4647)

/-- FEED_ENCODER_PULSE and BUCKET_MEASURE_EXPIRY: consumed pulses and the open bucket, exhaustion at Q 0 in BURNING and
STRIKING with its *EXHAUST, and the completed bucket with the new forecast (R74 to R76). And the shortfall test at a
bucket, a LAMPSET and an arc established, on a machine ON_SCREEN (R79): *CARBON once for each binding, where the
forecast is below the reel time remaining. -/
def Obligations.CarbonEventsComplete : Prop :=
  ∀ (m : MachineId) (flowing : Bool) (s : State), s.powered = true →
    let l := s.lamp m
    let forward := s.sense m s.straps.encoderDirection flowing
    let u := { l with
      consumed := if forward = true then min 11600 (l.consumed + 1) else l.consumed - 1
      openBucket := if l.state = .burning then
          l.openBucket.map fun b => max (-9999) (min 9999 (if forward = true then b + 1 else b - 1))
        else l.openBucket }
    (s.wired m = false → exec (.feedEncoderPulse m flowing) s = .next s)
    ∧ (s.wired m = true → ∃ t, exec (.feedEncoderPulse m flowing) s = .next t ∧ ShowFrame (s.modLamp m fun _ => u) t
        ∧ (t.lamp m).consumed = u.consumed
        ∧ (u.remaining ≠ 0 → l.state ≠ .dark → LampIs u (t.lamp m))
        ∧ (u.remaining = 0 → l.state = .burning ∨ l.state = .striking →
            (t.lamp m).state = .exhausted ∧ (t.lamp m).contactorClosed = false ∧ (t.lamp m).feedDuty = 0
            ∧ (t.lamp m).openBucket = none ∧ (t.lamp m).phase = none ∧ (t.lamp m).attempt = 0
            ∧ (t.lamp m).gate = none ∧ (t.lamp m).forecast = 0
            ∧ t = (((s.modLamp m fun _ => u).modLamp m LampRec.exhaust).report (.exhaust m)).lampSettled m l.state))
    ∧ (¬ (l.state = .burning ∧ l.bucketMeasure.isSome = true) → exec (.bucketMeasureExpiry m) s = .next s)
    ∧ (l.state = .burning → l.bucketMeasure.isSome = true →
        ∃ t, exec (.bucketMeasureExpiry m) s = .next t
          ∧ LampIs { l with
              buckets := (l.buckets ++ [(max 0 (l.openBucket.getD 0)).toNat]).drop (l.buckets.length + 1 - 6)
              completed := min 6 (l.completed + 1), openBucket := some 0, bucketMeasure := some 0 }.recompute (t.lamp m)
          ∧ ShowFrame (s.modLamp m LampRec.bucketExpires) t)
    -- R79, at a recomputation that leaves `x` BURNING: *CARBON where the forecast falls short for the first time
    ∧ ∀ left, s.reelTime m = some left →
      let tested := fun (u : State) (x : LampRec) =>
        if x.forecast < left ∧ l.shortfallReported = false then
          (u.modLamp m fun _ => { x with shortfallReported := true }).report (.carbon m x.forecast left)
        else u.modLamp m fun _ => x
      (l.state = .burning → l.bucketMeasure.isSome = true →
        exec (.bucketMeasureExpiry m) s = .next (tested s l.bucketExpires))
      ∧ (∀ a ws x, s.namesMachine a m → ws ≠ [] → LampSettings.empty.takeAll ws = .ok x → x.inRange = true →
          l.state = .burning → (l.withSettings x).remaining ≠ 0 →
          exec (.lampset (a :: ws)) s =
            .next ((tested (s.taken (.lampset (a :: ws))) (l.withSettings x)).answer (.ok [])))
      ∧ ∀ count, l.state = .striking → l.phase = some .prove → l.gate.isSome = true → 3 ≤ l.proveGates + 1 →
          (if s.wired m = true then count else 0) < 1000 →
          let x := (l.takeGate (if s.wired m = true then count else 0)).1
          exec (.arcGate m count) s = .next (((tested s x).report
            (.strike m (if l.restrike = true then none else some l.attempt) x.forecast)).lampSettled m .striking)

/-- R64: STRIKE m is taken by a DARK lamp with carbon and no FIRE hold, and declined with TRIP or STATE otherwise.

ARCOFF, TRIM and LAMPSET write the lamp's record as R72, R81 and R82 say and answer OK; where the screen does not wait
on the machine (and so asks for no new strike), the record stands so. TRIM is refused out of range and with the contactor
closed, LAMPSET as R82 says; a LAMPSET that leaves a lit lamp no carbon exhausts it (R75).

The operand tests of STRIKE, ARCOFF, LSTAT, TRIM and LAMPSET (R80). That a line wrong in both ways is answered FORM,
and what is read as a number, is the model's choice (log entry 12). -/
def Obligations.StrikeAndLampCommandsComplete : Prop :=
  (∀ (m : MachineId) (a : Text) (s : State), s.powered = true → s.namesMachine a m →
     let l := s.lamp m
     ((s.machine m).holds.fire = false → l.state = .dark → l.remaining ≠ 0 →
       ∃ u, exec (.strike [a]) s = .next (u.answer (.ok []))
         ∧ u.lamp m = { l with
             restrike := false, attempt := 1, touchMeasure := some 0, retractMeasure := none, pauseMeasure := none,
             shortGapRetract := none, contactorClosed := true, gate := some 0, state := .striking, phase := some .feed,
             proveGates := 0, feedForward := true, feedDuty := 255, lateGate := false }
         ∧ ShowFrame ((s.taken (.strike [a])).modLamp m LampRec.beginStrike) u)
     ∧ ((s.machine m).holds.fire = true → exec (.strike [a]) s = .next (s.answered (.strike [a]) (.no .trip)))
     ∧ ((s.machine m).holds.fire = false → l.state ≠ .dark ∨ l.remaining = 0 →
         exec (.strike [a]) s = .next (s.answered (.strike [a]) (.no .state))))
  ∧ (∀ (m : MachineId) (a : Text) (s : State), s.powered = true → s.namesMachine a m →
       let l := s.lamp m
       let done := fun (c : Instr) (v : LampRec) =>
         ∃ u, exec c s = .next (u.answer (.ok [])) ∧ ShowFrame ((s.taken c).modLamp m fun _ => v) u
           ∧ (s.waitedOn (screenOf m) ≠ some m → LampIs v (u.lamp m))
       let out := { l with touchMeasure := none, retractMeasure := none, pauseMeasure := none, shortGapRetract := none,
                           contactorClosed := false, gate := none, feedDuty := 0, lateGate := false, state := .dark }
       -- ARCOFF
       (l.state = .burning → done (.arcoff [a]) { out with openBucket := none, bucketMeasure := none }.recompute)
       ∧ (l.state = .striking → done (.arcoff [a]) { out with phase := none, attempt := 0, restrike := false }.recompute)
       ∧ (l.state = .fault → done (.arcoff [a]) { l with state := .dark, faultCause := none })
       ∧ (l.state = .dark ∨ l.state = .exhausted → done (.arcoff [a]) l)
       -- TRIM
       ∧ (∀ w mm, number? w = some mm → 50 ≤ mm → mm ≤ 600 → l.contactorClosed = false → l.state ≠ .striking →
           done (.trim [a, w]) { l with
             trim := mm, consumed := 0, buckets := [], completed := 0
             state := if l.state = LampState.fault ∨ l.state = LampState.exhausted then LampState.dark else l.state
             faultCause := if l.state = LampState.fault then none else l.faultCause }.recompute)
       ∧ (∀ w mm, number? w = some mm → mm < 50 ∨ 600 < mm →
           exec (.trim [a, w]) s = .next (s.answered (.trim [a, w]) (.no .range)))
       ∧ (∀ w mm, number? w = some mm → 50 ≤ mm → mm ≤ 600 → l.contactorClosed = true ∨ l.state = .striking →
           exec (.trim [a, w]) s = .next (s.answered (.trim [a, w]) (.no .state)))
       -- LAMPSET with no setting, an unknown keyword or one given twice: FORM; with a value out of its range: RANGE
       ∧ (∀ ws, let keys := ws.filterMap fun w => (keyValue? w).map Prod.fst
           ws = [] ∨ (∃ k ∈ keys, k ∉ [txt "SET", txt "HOLD", txt "GAIN", txt "RATE", txt "STUB", txt "LEAD", txt "RES"])
               ∨ ¬ keys.Nodup →
             exec (.lampset (a :: ws)) s = .next (s.answered (.lampset (a :: ws)) (.no .form)))
       ∧ (∀ ws x, ws ≠ [] → LampSettings.empty.takeAll ws = .ok x → x.inRange = false →
           exec (.lampset (a :: ws)) s = .next (s.answered (.lampset (a :: ws)) (.no .range)))
       -- LAMPSET that leaves a lit lamp no carbon: exhausted by R75 within the event, after the settings are written
       ∧ (∀ ws x, ws ≠ [] → LampSettings.empty.takeAll ws = .ok x → x.inRange = true → (l.withSettings x).remaining = 0 →
           l.state = .burning ∨ l.state = .striking →
           ∃ u, exec (.lampset (a :: ws)) s = .next (u.answer (.ok []))
             ∧ u = ((((((s.taken (.lampset (a :: ws))).modLamp m (LampRec.withSettings x)).shortfallTest m).modLamp m
                 LampRec.exhaust).report (.exhaust m)).lampSettled m l.state)
             ∧ (u.lamp m).state = .exhausted ∧ (u.lamp m).contactorClosed = false ∧ (u.lamp m).feedDuty = 0
             ∧ (u.lamp m).openBucket = none ∧ (u.lamp m).phase = none ∧ (u.lamp m).attempt = 0 ∧ (u.lamp m).gate = none
             ∧ (u.lamp m).forecast = 0 ∧ (u.lamp m).setpoint = x.set.getD l.setpoint
             ∧ (u.lamp m).holdingDuty = x.hold.getD l.holdingDuty ∧ (u.lamp m).gain = x.gain.getD l.gain
             ∧ (u.lamp m).nominalRate = x.rate.getD l.nominalRate ∧ (u.lamp m).stub = x.stub.getD l.stub
             ∧ (u.lamp m).strikeLead = x.lead.getD l.strikeLead ∧ (u.lamp m).reserve = x.res.getD l.reserve)
       -- LAMPSET, of any settings in their ranges that leave a lit lamp its carbon; and all seven as written
       ∧ (∀ ws x, ws ≠ [] → LampSettings.empty.takeAll ws = .ok x → x.inRange = true →
           ¬ ((l.withSettings x).remaining = 0 ∧ (l.state = .burning ∨ l.state = .striking)) →
           done (.lampset (a :: ws)) { l with
             setpoint := x.set.getD l.setpoint, holdingDuty := x.hold.getD l.holdingDuty, gain := x.gain.getD l.gain
             nominalRate := x.rate.getD l.nominalRate, stub := x.stub.getD l.stub
             strikeLead := x.lead.getD l.strikeLead, reserve := x.res.getD l.reserve }.recompute)
       ∧ ∀ set hold gain rate stub lead res,
           LampSettings.empty.takeAll [txt "SET=" ++ fNum set, txt "HOLD=" ++ fNum hold, txt "GAIN=" ++ fNum gain,
             txt "RATE=" ++ fNum rate, txt "STUB=" ++ fNum stub, txt "LEAD=" ++ fNum lead, txt "RES=" ++ fNum res]
             = .ok ⟨some set, some hold, some gain, some rate, some stub, some lead, some res⟩
           ∧ (LampSettings.inRange ⟨some set, some hold, some gain, some rate, some stub, some lead, some res⟩ = true ↔
               400 ≤ set ∧ set ≤ 800 ∧ hold ≤ 255 ∧ 1 ≤ gain ∧ gain ≤ 32 ∧ 20 ≤ rate ∧ rate ≤ 600 ∧ 20 ≤ stub ∧ stub ≤ 100
                 ∧ 20 ≤ lead ∧ lead ≤ 180 ∧ res ≤ 300))
  ∧ (∀ s : State, s.powered = true →
       let form := fun c => exec c s = .next (s.answered c (.no .form))
       let range := fun c => exec c s = .next (s.answered c (.no .range))
       (∀ ops, (¬ ∃ a n, ops = [a] ∧ number? a = some n) → form (.strike ops) ∧ form (.arcoff ops) ∧ form (.lstat ops))
       ∧ (∀ ops, (¬ ∃ a w n k, ops = [a, w] ∧ number? a = some n ∧ number? w = some k) → form (.trim ops))
       ∧ form (.lampset [])
       ∧ (∀ a ws, number? a = none ∨ ws = [] ∨ (∃ w ∈ ws, settingForm w = false) → form (.lampset (a :: ws)))
       ∧ ∀ a n, number? a = some n → (n < 1 ∨ 4 < n ∨ (3 ≤ n ∧ s.straps.screen2Fitted = false)) →
           range (.strike [a]) ∧ range (.arcoff [a]) ∧ range (.lstat [a])
           ∧ (∀ w k, number? w = some k → range (.trim [a, w]))
           ∧ ∀ ws, ws ≠ [] → (∀ w ∈ ws, settingForm w = true) → range (.lampset (a :: ws)))

/-! ### The plan store and the booth clock (Chapter 5) -/

/-- REEL s n writes the entry its operands spell, LOADED and unbound, whatever entry Table 5-1 allows; operands omitted
take their defaults; a frozen slot is refused with FROZEN, a BOUND one with STATE.

PLANCLR and PLANCOPY: the tests of a range in their order, and the slots written, every source slot as it stood before
the command. -/
def Obligations.PlanEntriesAreWritten : Prop :=
  (∀ (sc : ScreenId) (n : SlotIx) (a b : Text) (s : State), s.powered = true → s.namesScreen a sc → namesSlot b n →
     let written := fun (c : Instr) (e : SlotEntry) =>
       (s.frozen sc n = false → (s.slot sc n).status ≠ .bound →
         ∃ u, exec c s = .next (u.answer (.ok [])) ∧ u.slot sc n = ⟨.loaded, none, some e⟩
           ∧ (∀ x k, x ≠ sc ∨ k ≠ n → u.slot x k = s.slot x k)
           ∧ ShowFrame ((s.taken c).modSlot sc n fun _ => ⟨.loaded, none, some e⟩) u)
       ∧ (s.frozen sc n = true → exec c s = .next (s.answered c (.no .frozen)))
       ∧ (s.frozen sc n = false → (s.slot sc n).status = .bound → exec c s = .next (s.answered c (.no .state)))
     (∀ e, EntryLaw e → written (.reel ([a, b, e.reel, fNum e.length]
       ++ (match e.co with | some c => [txt "CO=" ++ fNum c] | none => [])
       ++ [txt "WIN=" ++ fNum e.window, txt "RUN=" ++ fNum e.runUp,
           txt "MODE=" ++ (match e.mode with | .film => txt "FILM" | .foot => txt "FOOT")]
       ++ (match e.scene with | some k => [txt "SCENE=" ++ fNum k.val] | none => [])
       ++ (if e.last = true then [txt "LAST"] else [])
       ++ (match e.int with | some k => [txt "INT=" ++ fNum k] | none => [])
       ++ (if e.note = true then [txt "NOTE"] else []))) e)
     ∧ ∀ id len, isReelId id = true → 1 ≤ len → len ≤ 99999 →
         written (.reel [a, b, id, fNum len, txt "LAST"])
           { reel := id, length := len, co := none, window := 48, runUp := 192, mode := .film, scene := none, last := true,
             int := none, note := false })
  ∧ (∀ (src sc : ScreenId) (a b w1 w2 w3 : Text) (f g count : Nat) (s : State), s.powered = true →
       s.namesScreen a src → s.namesScreen b sc → number? w1 = some f → number? w2 = some g → number? w3 = some count →
       let fits := fun (x : Nat) => x ≤ 23 ∧ count ≤ 24 ∧ x + count ≤ 24
       let hit := fun (n : SlotIx) => g ≤ n.val ∧ n.val < g + count
       let tests := fun (c : Instr) (ok : Prop) (new : SlotIx → Slot) =>
         (¬ ok → exec c s = .next (s.answered c (.no .range)))
         ∧ (ok → count = 0 → exec c s = .next (s.answered c (.ok [])))
         ∧ (ok → count ≠ 0 → (∃ n, hit n ∧ s.frozen sc n = true) → exec c s = .next (s.answered c (.no .frozen)))
         ∧ (ok → count ≠ 0 → (∀ n, hit n → s.frozen sc n = false) → (∃ n, hit n ∧ (s.slot sc n).status = .bound) →
             exec c s = .next (s.answered c (.no .state)))
         ∧ (ok → count ≠ 0 → (∀ n, hit n → s.frozen sc n = false) → (∀ n, hit n → (s.slot sc n).status ≠ .bound) →
             ∃ u, exec c s = .next (u.answer (.ok []))
               ∧ (∀ n, hit n → u.slot sc n = new n) ∧ (∀ n, ¬ hit n → u.slot sc n = s.slot sc n)
               ∧ (∀ x n, x ≠ sc → u.slot x n = s.slot x n)
               ∧ ShowFrame ((s.taken c).putTable sc (u.plan.tables.get sc)) u)
       tests (.planclr [b, w2, w3]) (fits g) (fun _ => ⟨.empty, none, none⟩)
       ∧ tests (.plancopy [a, w1, b, w2, w3]) (fits f ∧ fits g) fun n =>
           match (s.plan.tables.get src).toList[f + (n.val - g)]? with
           | some ⟨_, _, some e⟩ => ⟨.loaded, none, some e⟩
           | _ => ⟨.empty, none, none⟩)

/-- THREAD m id binds an EMPTY machine to the lowest LOADED slot of its screen that names the reel: both sides, a fresh
count, and the lamp's bound length; TRIP, STATE and NOTFOUND where its tests fail. -/
def Obligations.ThreadBindsTheReel : Prop :=
  ∀ (m : MachineId) (a id : Text) (s : State), s.powered = true → s.namesMachine a m → isReelId id = true →
    let sc := screenOf m
    let c := Instr.thread [a, id]
    let named := fun (n : SlotIx) => (s.slot sc n).status = .loaded ∧ ((s.slot sc n).entry.map SlotEntry.reel) = some id
    (∀ k e, (s.machine m).state = .empty → (s.machine m).motor = false → named k → (∀ j, j < k → ¬ named j) →
      (s.slot sc k).entry = some e →
      ∃ u, exec c s = .next (u.answer (.ok [])) ∧ u.slot sc k = ⟨.bound, some m, some e⟩
        ∧ (∀ x n, x ≠ sc ∨ n ≠ k → u.slot x n = s.slot x n)
        ∧ (u.machine m).boundSlot = some k ∧ (u.machine m).reelId = some id ∧ (u.machine m).frameCount = 0
        ∧ (u.machine m).saturated = false ∧ (u.machine m).rejected = 0
        ∧ (s.nextSlot sc ≠ some k → (u.machine m).state = .threaded)
        ∧ (u.lamp m).boundLength = some e.length ∧ (u.lamp m).shortfallReported = false
        ∧ ShowFrame ((((s.taken c).modSlot sc k fun _ => ⟨.bound, some m, some e⟩).modMachine m
            (MachineRec.acceptReel id k)).modLamp m (LampRec.bind e.length)) u)
    ∧ ((s.machine m).state = .tripped → exec c s = .next (s.answered c (.no .trip)))
    ∧ ((s.machine m).state ≠ .tripped → (s.machine m).state ≠ .empty → exec c s = .next (s.answered c (.no .state)))
    ∧ ((s.machine m).state = .empty → (∀ n, ¬ named n) → exec c s = .next (s.answered c (.no .notFound)))
    ∧ ((s.machine m).state = .empty → (∃ n, named n) → (s.machine m).motor = true →
        exec c s = .next (s.answered c (.no .state)))

/-- R18 and R96: UNTHREAD m empties a machine that does not run; a bound slot returns to LOADED, its binding ended on both
sides; in EMPTY the record stands, a lace-up run included. Nothing else changes but by the evaluation of ARMED on that screen
(R99, StartsFallDue), made once, after both (the model's choice: log entry 32). TRIP in TRIPPED, STATE in a running state. -/
def Obligations.UnthreadEmptiesTheMachine : Prop :=
  ∀ (m : MachineId) (a : Text) (s : State), s.powered = true → s.namesMachine a m →
    let c := Instr.unthread [a]
    let r := s.machine m
    let sc := screenOf m
    (r.state = .empty ∨ r.state = .threaded ∨ r.state = .armed ∨ r.state = .stopped ∨ r.state = .broken →
      ∃ w : State, let u := w.evaluateScreen sc
        exec c s = .next (u.answer (.ok []))
        -- what the command does itself
        ∧ w = { s.taken c with machines := w.machines, decoders := w.decoders, lamps := w.lamps, plan := w.plan }
        ∧ w.plan = { s.plan with tables := w.plan.tables, lastPosting := w.plan.lastPosting }
        ∧ (∀ j, w.plan.lastPosting.get j = if j = m then false else s.plan.lastPosting.get j)
        ∧ (∀ j, j ≠ m → w.machine j = s.machine j ∧ w.decoder j = s.decoder j ∧ w.lamp j = s.lamp j)
        -- what the evaluation of the screen's machines leaves of it
        ∧ ShowFrame w u ∧ (∀ z, z ≠ sc → ScreenKept z w u) ∧ (∀ z, (u.screen z).sound = (s.screen z).sound)
        ∧ (∀ x k, u.slot x k = w.slot x k)
        ∧ u.machine m = w.machine m ∧ u.decoder m = w.decoder m ∧ u.lamp m = w.lamp m
        -- the machine and its decoder
        ∧ (w.machine m).state = .empty ∧ (w.machine m).boundSlot = none ∧ (w.machine m).douser = .closed
        ∧ (r.state = .empty → w.machine m = { r with boundSlot := none, douser := .closed } ∧ w.decoder m = s.decoder m)
        ∧ (r.state ≠ .empty → (w.machine m).reelId = none ∧ (w.machine m).frameCount = 0
            ∧ (w.machine m).saturated = false ∧ (w.machine m).armedPosting = false ∧ (w.machine m).motor = false
            ∧ (w.machine m).rejected = r.rejected ∧ (w.decoder m).deferred = []
            ∧ (r.motor = false →
                w.decoder m = { s.decoder m with deferred := [] }
                ∧ w.machine m = { r with
                    state := .empty, reelId := none, boundSlot := none, frameCount := 0, saturated := false
                    armedPosting := false, douser := .closed
                    breakCause := if r.state = .broken then none else r.breakCause
                    holds := { r.holds with brk := if r.state = .broken then false else r.holds.brk } }))
        -- the slot and the lamp
        ∧ (∀ n, r.boundSlot = some n →
            w.lamp m = { s.lamp m with boundLength := none, carbonOk := none,
                                       forecast := min 65535 ((s.lamp m).remaining * 60 / (s.lamp m).rateInUse) }
            ∧ ∀ x k, w.slot x k = if x = sc ∧ k = n then ⟨.loaded, none, (s.slot x k).entry⟩ else s.slot x k)
        ∧ (r.boundSlot = none → w.lamp m = s.lamp m ∧ ∀ x k, w.slot x k = s.slot x k))
    ∧ ((s.machine m).state = .tripped → exec c s = .next (s.answered c (.no .trip)))
    ∧ ((s.machine m).state.running = true → exec c s = .next (s.answered c (.no .state)))

/-- TIME hh:mm:ss sets the clock and restarts its second; SHOWAT s hh:mm sets the screen's time while the clock holds one,
and OFF clears it; values beyond a time of day are refused with RANGE.

CLOCK_ADVANCE: a clock that holds a time goes on by a second, past midnight to 0; a SHOWAT time it comes to is cleared
and opens its IDLE screen at the lowest slot that can be shown, with *SHOWLATE ARMED where no machine is ARMED for it, or
*SHOWLATE says why not (R101, R103). Two times that fall in one minute fire at one advance, each to its own screen; that
screen 1's fires first is the model's choice (log entry 10). -/
def Obligations.ClockAndShowAt : Prop :=
  (∀ (sc : ScreenId) (a : Text) (h m x : Nat) (s : State), s.powered = true → s.namesScreen a sc →
     h ≤ 99 → m ≤ 99 → x ≤ 99 →
     let hms := fTwo h ++ txt ":" ++ fTwo m ++ txt ":" ++ fTwo x
     let hm := fTwo h ++ txt ":" ++ fTwo m
     (h ≤ 23 → m ≤ 59 → x ≤ 59 → exec (.time [hms]) s = .next (((s.taken (.time [hms])).modPlan
       fun p => { p with clock := some (h * 3600 + m * 60 + x), clockSecond := 0 }).answer (.ok [])))
     ∧ (23 < h ∨ 59 < m ∨ 59 < x → exec (.time [hms]) s = .next (s.answered (.time [hms]) (.no .range)))
     ∧ (h ≤ 23 → m ≤ 59 → s.plan.clock.isSome = true →
         exec (.showat [a, hm]) s = .next (((s.taken (.showat [a, hm])).modPlan
           fun p => { p with showAt := p.showAt.set sc (some (h * 3600 + m * 60)) }).answer (.ok [])))
     ∧ (h ≤ 23 → m ≤ 59 → s.plan.clock = none →
         exec (.showat [a, hm]) s = .next (s.answered (.showat [a, hm]) (.no .state)))
     ∧ (23 < h ∨ 59 < m → exec (.showat [a, hm]) s = .next (s.answered (.showat [a, hm]) (.no .range)))
     ∧ exec (.showat [a, txt "OFF"]) s = .next (((s.taken (.showat [a, txt "OFF"])).modPlan
         fun p => { p with showAt := p.showAt.set sc none }).answer (.ok [])))
  ∧ (∀ (dt : Nat) (s : State), s.powered = true →
       (s.plan.clock = none → exec (.clockAdvance dt) s = .next (s.elapse dt))
       ∧ ∀ t, s.plan.clock = some t →
         let now := (t + 1) % 86400
         let u := (s.elapse dt).modPlan fun p => { p with clock := some now, clockSecond := 0 }
         (s.plan.showAt.s1 ≠ some now → s.plan.showAt.s2 ≠ some now → exec (.clockAdvance dt) s = .next u)
         ∧ (∀ sc, s.plan.showAt.get sc = some now → (∀ x, x ≠ sc → s.plan.showAt.get x ≠ some now) →
           let v := u.modPlan fun p => { p with showAt := p.showAt.set sc none }
           ((s.screen sc).state ≠ .idle → exec (.clockAdvance dt) s = .next (v.report (.showLate sc .busy)))
           ∧ ((s.screen sc).state = .idle → (∀ n, (s.slot sc n).status.showable = false) →
               exec (.clockAdvance dt) s = .next (v.report (.showLate sc .empty)))
           ∧ ((s.screen sc).state = .idle → (∃ n, (s.slot sc n).status.showable = true) → s.startBlocked sc = true →
               exec (.clockAdvance dt) s = .next (v.report (.showLate sc .trip)))
           ∧ ∀ n, (s.screen sc).state = .idle → (s.slot sc n).status.showable = true →
               (∀ j, j < n → (s.slot sc j).status.showable = false) → s.startBlocked sc = false →
               ∃ t', exec (.clockAdvance dt) s = .next t' ∧ (t'.screen sc).state = .opening
                 ∧ (t'.screen sc).current = some n ∧ (t'.screen sc).point = none ∧ ShowFrame v t'
                 ∧ ((s.slot sc n).status = .loaded → (t'.screen sc).startPending = true
                     ∧ (t'.screen sc).startGiven = false)
                 -- the machine of the slot not ARMED, or the slot not bound: start pending and *SHOWLATE ARMED; ARMED: on it goes
                 ∧ (let opened := v.modScreen sc (ScreenRec.enterOpening n)
                    let posted := opened.evaluateScreen sc
                    ((∀ m, (s.slot sc n).machine? = some m → (s.machine m).state ≠ .armed
                         ∧ ((s.machine m).state = .threaded → opened.armedCondition m = false)) →
                      t' = (posted.modScreen sc fun x => { x with startPending := true }).report (.showLate sc .armed))
                    ∧ ∀ m, (s.slot sc n).machine? = some m → (s.machine m).state = .armed → opened.armedCondition m = true →
                        t' = posted.openingStep sc))
         -- both screens' times at one advance, each to its own screen
         ∧ (s.plan.showAt.s1 = some now → s.plan.showAt.s2 = some now → PlanLaw s →
             let first := (u.modPlan fun p => { p with showAt := p.showAt.set .s1 none }).fireShowAt .s1
             ∃ t', exec (.clockAdvance dt) s = .next t'
               ∧ t' = (first.modPlan fun p => { p with showAt := p.showAt.set .s2 none }).fireShowAt .s2
               ∧ ∀ sc, t'.plan.showAt.get sc = none
                 ∧ ((s.screen sc).state ≠ .idle ∨ (∀ n, (s.slot sc n).status.showable = false) ∨ s.startBlocked sc = true →
                     t'.screen sc = u.screen sc)
                 ∧ ∀ n, (s.screen sc).state = .idle → (s.slot sc n).status.showable = true →
                     (∀ j, j < n → (s.slot sc j).status.showable = false) → s.startBlocked sc = false →
                     (t'.screen sc).state = .opening ∧ (t'.screen sc).current = some n))

/-! ### The changeover controller (Chapters 2 and 6) -/

/-- START s and START s n: the screen enters OPENING at the slot named, or at its lowest LOADED or BOUND slot; a slot whose
machine is not found ARMED there leaves start pending and answers PENDING, the DARK lamp of one found ARMED is asked to
strike and its BURNING lamp brings the start order (R106, R107, R99). Its tests, in their order. That a machine so started
with its loop switch reading OPEN breaks last in the event is the model's choice (log entry 39). -/
def Obligations.StartOpensTheScreen : Prop :=
  ∀ (sc : ScreenId) (n : SlotIx) (a b : Text) (s : State), s.powered = true → s.namesScreen a sc → namesSlot b n →
    let lowest := (s.slot sc n).status.showable = true ∧ ∀ j, j < n → (s.slot sc j).status.showable = false
    let opens := fun (c : Instr) =>
      let pending := fun (u : State) => exec c s = .next (u.answer (.ok [txt "PENDING"]))
        ∧ (u.screen sc).startPending = true ∧ (u.screen sc).startGiven = false
      let opened := fun (u : State) => (u.screen sc).state = .opening ∧ (u.screen sc).current = some n
        ∧ (u.screen sc).point = none ∧ (u.screen sc).interval = none ∧ ShowFrame (s.taken c) u
      (∃ u : State, (exec c s = .next (u.answer (.ok [])) ∨ pending u) ∧ opened u)
      ∧ ((s.slot sc n).status = .loaded → ∃ u : State, pending u ∧ opened u)
      ∧ ∀ m, screenOf m = sc → (s.slot sc n).status = .bound → (s.slot sc n).bound = some m →
          (¬ s.foundArmed sc n m → ∃ u : State, pending u ∧ opened u)
          ∧ (s.foundArmed sc n m → ∃ u : State, exec c s = .next (u.answer (.ok [])) ∧ opened u
              ∧ ((s.lamp m).state ≠ .burning → (u.screen sc).startPending = false ∧ (u.screen sc).startGiven = false
                  ∧ (u.machine m).state = .armed
                  ∧ u.lamp m = if (s.lamp m).state = .dark ∧ (s.lamp m).remaining ≠ 0 ∧ (s.machine m).holds.fire = false
                    then (s.lamp m).beginStrike else s.lamp m)
              ∧ ((s.lamp m).state = .burning → (s.machine m).loopSwitchClosed = true →
                  (u.screen sc).startPending = false ∧ (u.screen sc).startGiven = true ∧ (u.machine m).state = .starting
                  ∧ (u.machine m).motor = true ∧ s.sceneIssued u sc n
                  ∧ u.line = (s.taken c).line.report (.motor sc m (some n) .opening))
              ∧ ((s.lamp m).state = .burning → (s.machine m).loopSwitchClosed = false →
                  (u.screen sc).startPending = true ∧ (u.screen sc).startGiven = false ∧ (u.machine m).state = .broken
                  ∧ s.sceneIssued u sc n
                  ∧ u.line = ((s.taken c).line.report (.motor sc m (some n) .opening)).report
                    (.broke m .loop (s.machine m).frameCount)))
    let st := (s.screen sc).state
    -- the command is taken
    (st = .idle → s.startBlocked sc = false → lowest → opens (.start [a]))
    ∧ (st = .idle ∨ st = .halted → s.startBlocked sc = false → (s.slot sc n).status.showable = true →
        opens (.start [a, b]))
    -- its tests
    ∧ (∀ w, w = [a] ∨ w = [a, b] → st ≠ .idle → st ≠ .halted →
        exec (.start w) s = .next (s.answered (.start w) (.no .state)))
    ∧ (st = .halted → exec (.start [a]) s = .next (s.answered (.start [a]) (.no .form)))
    ∧ (∀ w, (w = [a] ∧ st = .idle) ∨ (w = [a, b] ∧ (st = .idle ∨ st = .halted)) → s.startBlocked sc = true →
        exec (.start w) s = .next (s.answered (.start w) (.no .trip)))
    ∧ (st = .idle ∨ st = .halted → s.startBlocked sc = false → (s.slot sc n).status.showable = false →
        exec (.start [a, b]) s = .next (s.answered (.start [a, b]) (.no .state)))
    ∧ (st = .idle → s.startBlocked sc = false → (∀ j, (s.slot sc j).status.showable = false) →
        exec (.start [a]) s = .next (s.answered (.start [a]) (.no .state)))

/-- SWAPNOW s: the point is reached with cause CONSOLE and the start falls due, in SHOWING, RUNUP and DARK; elsewhere, and
where there is nothing to start, STATE. A successor whose loop switch reads OPEN as it is started breaks in the same event
(R11, R123), after the strike request and the change to SWAP_DUE (the model's choice: log entry 39). What the start does to
the machine, the screen, the lamp and the line is said whole by StartsFallDue. -/
def Obligations.SwapnowReachesThePoint : Prop :=
  ∀ (sc : ScreenId) (a : Text) (s : State), s.powered = true → s.namesScreen a sc →
    let c := Instr.swapnow [a]
    let x := s.screen sc
    let showing := (x.state = .showing ∨ x.state = .runup) ∧ s.successorWithCo sc = true
    let dark := x.state = .dark ∧ (s.successor sc).isSome = true ∧ x.startGiven = false ∧ x.startPending = false
    (¬ showing → ¬ dark → exec c s = .next (s.answered c (.no .state)))
    ∧ (showing ∨ dark → ∃ u, exec c s = .next (u.answer (.ok [])) ∧ ShowFrame (s.taken c) u)
    -- SHOWING or RUNUP: nothing ready to start, *MISSED; an ARMED successor is started; a point already reached stands
    ∧ (showing → x.point = none → x.startGiven = false → x.startPending = false →
        (∀ m, s.successor sc = some m → (s.machine m).state ≠ .armed ∧ (s.machine m).state ≠ .runup) →
        exec c s = .next ((((s.taken c).modScreen sc fun y =>
          { y with point := some .console, state := .swapDue, startPending := true }).report
            (.missed sc (s.onDeck sc) .armed)).answer (.ok [])))
    ∧ (∀ m, screenOf m = sc → showing → x.point = none → x.startGiven = false → x.startPending = false → s.successor sc = some m →
        (s.machine m).state = .armed → (s.machine m).loopSwitchClosed = true →
        ∃ u : State, exec c s = .next (u.answer (.ok [])) ∧ (u.screen sc).state = .swapDue
          ∧ (u.screen sc).point = some .console ∧ (u.screen sc).startGiven = true
          ∧ (u.screen sc).startPending = false ∧ (u.machine m).state = .starting ∧ (u.machine m).motor = true
          ∧ ((s.lamp m).state = .dark → (s.lamp m).remaining ≠ 0 → (s.machine m).holds.fire = false →
              u.lamp m = (s.lamp m).beginStrike))
    ∧ (∀ m, screenOf m = sc → x.point = none → x.startGiven = false → x.startPending = false → s.successor sc = some m →
        (s.machine m).state = .armed → (s.machine m).loopSwitchClosed = false → showing ∨ dark →
        ∃ u : State, exec c s = .next (u.answer (.ok []))
          ∧ u.screen sc = { x with point := some .console, startGiven := false, startPending := true
                                   state := if x.state = .dark then .dark else .showing }
          ∧ (u.machine m).state = .broken ∧ (u.machine m).breakCause = some .loop ∧ (u.machine m).motor = false
          ∧ ((s.lamp m).state = .dark → (s.lamp m).remaining ≠ 0 → (s.machine m).holds.fire = false →
              u.lamp m = (s.lamp m).beginStrike))
    -- a start given or pending already: none falls due anew, and readiness is tested at once
    ∧ (showing → x.point = none → x.startGiven = true ∨ x.startPending = true →
        exec c s = .next ((((s.taken c).modScreen sc fun y => { y with point := some .console, state := .swapDue }).testReady
          sc).answer (.ok [])))
    ∧ (showing → x.point.isSome = true → exec c s = .next (s.answered c (.ok [])))
    -- DARK
    ∧ (∀ m, dark → s.successor sc = some m → (s.machine m).state ≠ .armed →
        exec c s = .next (((s.taken c).modScreen sc fun y =>
          { y with point := some .console, startPending := true }).answer (.ok [])))
    ∧ (∀ m, screenOf m = sc → dark → s.successor sc = some m → (s.machine m).state = .armed → (s.machine m).loopSwitchClosed = true →
        ∃ u : State, exec c s = .next (u.answer (.ok [])) ∧ (u.screen sc).state = .dark
          ∧ (u.screen sc).point = some .console ∧ (u.screen sc).startGiven = true
          ∧ (u.screen sc).startPending = false ∧ (u.machine m).state = .starting)

/-- Giving a machine the screen: the swap, the recovery of a DARK screen and the end of an opening, each in one event
(R107, R114, R115, R121), with the reports *SWAP and *RECOVER made last, after those of the hand-over. What readiness is,
at a swap (6.1) and at the end of an opening (R107); without it nothing is done (R113, R121).

A posting of the machine waited on, or of its lamp, at the controller: in SWAP_DUE and DARK it tests the successor's
readiness (R113, R120), a started successor's DARK lamp being asked to strike (R120); in OPENING it makes the take-screen
where the machine is ready, and a BURNING lamp brings the start order of an ARMED machine (R107; before ARMED is
evaluated, the model's choice: log entry 36). -/
def Obligations.GivingTheScreen : Prop :=
  (-- readiness
   (∀ (m : MachineId) (n : SlotIx) (e : SlotEntry) (s : State),
     (s.machine m).boundSlot = some n → (s.slot (screenOf m) n).entry = some e →
     let r := s.machine m
     let trueAtStart := r.state = .runup ∧ r.speed = .atSpeed ∧ e.runUp ≤ r.frameCount
       ∧ r.holds = { speed := false, lamp := false, brk := false, fire := false, console := false }
     (s.openReady m = true ↔ trueAtStart) ∧ (s.swapReady m = true ↔ trueAtStart ∧ (s.lamp m).state = .burning)
     ∧ s.boundRunUp m = e.runUp)
   ∧ (∀ (sc : ScreenId) (s : State),
     ((∀ m, s.successor sc = some m → s.swapReady m = false) ∨ ((s.screen sc).state ≠ .swapDue ∧ (s.screen sc).state ≠ .dark) →
       s.testReady sc = s)
     ∧ ((∀ m, s.waitedOn sc = some m → s.openReady m = false) ∨ (s.screen sc).state ≠ .opening → s.openingTake sc = s))
   ∧ ∀ (sc : ScreenId) (m : MachineId) (s : State), (s.machine m).state = .runup → s.swapReady m = true →
     let given := fun (t : State) (lost : Option Nat) =>
       (t.machine m).state = .onScreen ∧ (t.machine m).douserRequest = .opened ∧ (t.machine m).douser = .opened
       ∧ (t.machine m).pictureLost = lost ∧ (t.screen sc).onScreen = some m ∧ (t.screen sc).state = .showing
       ∧ (t.screen sc).startGiven = false ∧ (t.decoder m).deferred = [] ∧ ShowFrame s t
     let lost := (s.machine m).frameCount - s.boundRunUp m
     -- the lines of the hand-over (NOTE actions), before the report of the change
     let noted := (s.handOver sc m).line
     -- the swap
     (∀ out, s.successor sc = some m → (s.screen sc).state = .swapDue → (s.screen sc).onScreen = some out →
       (s.machine out).state = .onScreen →
       let t := s.testReady sc
       given t (some lost) ∧ (t.machine out).state = .runout ∧ (t.machine out).douserRequest = .closed
       ∧ (t.machine out).douser = .closed ∧ (t.lamp out).state ≠ .burning ∧ (t.lamp out).state ≠ .striking
       ∧ (t.screen sc).current = s.onDeck sc ∧ (t.screen sc).point = none ∧ (t.screen sc).startPending = false
       ∧ (t.screen sc).mixer = (if (s.screen sc).overlap = 0 then .machine m else .both)
       ∧ (t.screen sc).overlapLeft = (s.screen sc).overlap ∧ (t.screen sc).darkHold = .stopped
       ∧ ((s.screen sc).faultClaim = .picture → (t.screen sc).faultClaim = .none)
       ∧ t.line = noted.report (.swap sc out m (s.onDeck sc) lost (s.screen sc).point))
     -- the recovery
     ∧ (s.successor sc = some m → (s.screen sc).state = .dark →
       let t := s.testReady sc
       given t (some lost) ∧ (t.screen sc).current = s.onDeck sc ∧ (t.screen sc).point = none
       ∧ (t.screen sc).startPending = false ∧ (t.screen sc).mixer = .machine m ∧ (t.screen sc).faultClaim = .none
       ∧ (∀ c, (t.circuit sc c).claims.fault = none)
       ∧ t.line = noted.report (.recover sc m (s.onDeck sc) lost (s.screen sc).point))
     -- the opening
     ∧ (s.waitedOn sc = some m → (s.screen sc).state = .opening → (s.screen sc).startPending = false →
       let t := s.openingTake sc
       given t (s.machine m).pictureLost ∧ (t.screen sc).current = (s.screen sc).current
       ∧ (t.screen sc).mixer = .machine m ∧ (t.screen sc).faultClaim = .none
       ∧ (∀ c, (t.circuit sc c).claims.fault = none) ∧ t.line = noted))
  ∧ (∀ (m : MachineId) (s : State),
       let sc := screenOf m
       let x := s.screen sc
       let asked := if x.startGiven = true ∧ (s.lamp m).state = .dark then s.strikeRequest m else s
       (x.onScreen ≠ some m → x.state = .swapDue ∨ x.state = .dark → s.successor sc = some m →
         s.machinePosted m = s.testReady sc ∧ s.frameNotice m = s.testReady sc ∧ s.lampPosted m = asked.testReady sc)
       ∧ (x.onScreen ≠ some m → x.state = .opening → s.waitedOn sc = some m →
         s.machinePosted m = s.openingTake sc ∧ s.frameNotice m = s.openingTake sc
         ∧ s.lampPosted m = (asked.openingStep sc).openingTake sc
         ∧ ((s.machine m).state = .armed → (s.machine m).loopSwitchClosed = true → (s.lamp m).state = .burning →
             x.startGiven = false →
             let t := s.lampPosted m
             (t.machine m).state = .starting ∧ (t.machine m).motor = true ∧ (t.screen sc).state = .opening
             ∧ (t.screen sc).startGiven = true ∧ (t.screen sc).startPending = false
             ∧ (∀ n, x.current = some n → s.sceneIssued t sc n)
             ∧ t.line = s.line.report (.motor sc m x.current (if x.startPending = true then .pending else .opening)))))

/-- What the screen does when a reel ends or a machine breaks. Of its ON_SCREEN machine: IDLE after LAST, INTERVAL after
INT, DARK after CO or a break (R118, R119, R125). Of a machine in RUNOUT: its slot is SHOWN and the screen stands
(R117). Of the machine of an opening: a break waits for the slot again, a reel run through ends the opening (R108). Of
the successor: a break leaves a pending start (R120, R123), a reel run through is cut (R122). With their reports. The
model's choices: that *BREAK of the machine unit is made before *DARK and before *REELEND of the controller (log entry 10),
and that the start point and strike frames go with frames to go (log entry 38). -/
def Obligations.ScreenFollowsItsReel : Prop :=
  ∀ (m : MachineId) (s : State),
    let sc := screenOf m
    let x := s.screen sc
    let back := fun (y : ScreenState) => match y with | .runup => ScreenState.showing | .swapDue => .showing | z => z
    -- the ON_SCREEN machine
    (∀ n e, x.onScreen = some m → x.current = some n → (s.slot sc n).entry = some e →
      (s.slot sc n).status.showable = true → (s.machine m).state = .onScreen →
      let dark := fun (t : State) => (t.screen sc).state = .dark ∧ (t.screen sc).onScreen = none
        ∧ (t.screen sc).mixer = .mute ∧ (t.screen sc).overlapLeft = 0 ∧ (t.screen sc).faultClaim = .dark
        ∧ (t.screen sc).current = some n ∧ (t.screen sc).darkHold = .stopped
        ∧ ∀ c, ∃ x, (t.circuit sc c).claims.fault = some x ∧ x.target = (s.sceneLevels sc 4).get c ∧ x.fade = 30
      -- the successor is another machine, and a pending start waits for a posting
      let waits := x.state.shows = true ∧ ∀ j, s.successor sc = some j → j ≠ m
        ∧ (x.startPending = true → (s.machine j).state.judged = true → s.armedCondition j = s.plan.lastPosting.get j)
      let frame := (s.machine m).frameCount
      let ended := if e.note = true then s.line.report (.reelEnd sc n e.reel) else s.line
      (∀ cause, dark (s.breakRun m cause) ∧ ((s.breakRun m cause).slot sc n).status = .cut
        ∧ (waits → (s.breakRun m cause).line = (s.line.report (.broke m cause frame)).report (.dark sc .brk m (some frame))))
      ∧ (let t := s.reelEnd m
        (t.slot sc n).status = .shown ∧ (t.slot sc n).bound = none
        ∧ (e.last = true → (t.screen sc).state = .idle ∧ (t.screen sc).current = none ∧ (t.screen sc).onScreen = none
            ∧ (t.screen sc).point = none ∧ (t.screen sc).startGiven = false ∧ (t.screen sc).startPending = false
            ∧ (t.screen sc).mixer = .mute ∧ (t.screen sc).faultClaim = .none
            ∧ (waits → t.line = ended.report (.planEnd sc (some n)))
            ∧ ∀ c, (t.circuit sc c).claims.cue = none ∧ (t.circuit sc c).claims.fault = none)
        ∧ (∀ k, e.last = false → e.int = some k → (t.screen sc).state = .interval ∧ (t.screen sc).onScreen = none
            ∧ (t.screen sc).interval = some (if k = 0 then .wait else .seconds (k * 60))
            ∧ (t.screen sc).mixer = .mute ∧ (t.screen sc).faultClaim = .none ∧ (t.screen sc).current = some n
            ∧ (waits → t.line = ended.report (.interval sc (some n) k))
            ∧ ∀ c, (t.circuit sc c).claims.fault = none ∧ ∃ x, (t.circuit sc c).claims.cue = some x
              ∧ x.target = (s.sceneLevels sc 3).get c ∧ x.fade = 100)
        ∧ (e.last = false → e.int = none →
            dark t ∧ (waits → t.line = ended.report (.dark sc .runout m (some frame))))))
    -- R117: a machine in RUNOUT, by its reel end, its tail or a break
    ∧ (∀ n e cause t, PlanLaw s → x.onScreen ≠ some m → (s.machine m).state = .runout →
        (s.machine m).boundSlot = some n → (s.slot sc n).entry = some e → t = s.reelEnd m ∨ t = s.breakRun m cause →
        t.slot sc n = { s.slot sc n with status := .shown, bound := none }
        ∧ (∀ k, k ≠ n → t.slot sc k = s.slot sc k)
        ∧ (t.machine m).boundSlot = none ∧ (t.machine m).reelId = (s.machine m).reelId
        ∧ (t.screen sc).current = x.current ∧ (t.screen sc).onScreen = x.onScreen ∧ (t.screen sc).mixer = x.mixer
        ∧ (t.screen sc).overlapLeft = x.overlapLeft ∧ (t.screen sc).point = x.point
        ∧ (t.screen sc).faultClaim = x.faultClaim ∧ (t.screen sc).darkHold = x.darkHold
        ∧ (t.screen sc).interval = x.interval
        ∧ (x.startPending = false → x.state ≠ .opening →
            let ended := fun (l : LineUnit) => if e.note = true then l.report (.reelEnd sc n e.reel) else l
            t.screen sc = x ∧ (t = s.reelEnd m → t.line = ended s.line)
            ∧ (t = s.breakRun m cause → t.line = ended (s.line.report (.broke m cause (s.machine m).frameCount)))))
    -- R108, R120, R123: the machine waited on breaks after its start
    ∧ (∀ cause, x.onScreen ≠ some m → s.waitedOn sc = some m → x.state.awaits = true →
        (s.machine m).state.running = true → (s.machine m).state ≠ .runout →
        let t := s.breakRun m cause
        t.screen sc = { x with startGiven := false, startPending := true, state := back x.state }
        ∧ (∀ k, t.slot sc k = s.slot sc k) ∧ (t.machine m).state = .broken
        ∧ (t.machine m).boundSlot = (s.machine m).boundSlot ∧ (∀ c, t.circuit sc c = s.circuit sc c)
        ∧ t.line = s.line.report (.broke m cause (s.machine m).frameCount))
    -- R108: the machine of an opening runs its reel without the screen
    ∧ (∀ n, PlanLaw s → x.onScreen ≠ some m → s.waitedOn sc = some m → x.state = .opening → x.current = some n →
        (s.machine m).state = .starting ∨ (s.machine m).state = .runup →
        let t := s.reelEnd m
        t.slot sc n = { s.slot sc n with status := .cut, bound := none } ∧ (t.machine m).boundSlot = none
        ∧ (t.machine m).state = .stopped ∧ (∀ c, (t.circuit sc c).claims.fault = none)
        ∧ t.line = s.line.report (.missed sc (some n) .cut)
        ∧ t.screen sc = { x with
            state := .idle, current := none, onScreen := none, point := none, startGiven := false, startPending := false
            mixer := .mute, overlapLeft := 0, interval := none, darkHold := .stopped, faultClaim := .none
            framesToGo := none, nStart := none, strikeFrames := none })
    -- R122: the successor runs its reel behind a closed douser
    ∧ (∀ n, PlanLaw s → x.onScreen ≠ some m → s.successor sc = some m → x.state ≠ .opening → s.onDeck sc = some n →
        (s.machine m).state = .starting ∨ (s.machine m).state = .runup →
        let t := s.reelEnd m
        t.slot sc n = { s.slot sc n with status := .cut, bound := none } ∧ (t.machine m).boundSlot = none
        ∧ (t.machine m).state = .stopped ∧ (t.screen sc).point = none ∧ (t.screen sc).current = x.current
        ∧ (t.screen sc).onScreen = x.onScreen ∧ (∀ c, t.circuit sc c = s.circuit sc c)
        ∧ (x.startPending = false →
            t.screen sc = { x with startGiven := false, point := none, state := back x.state }
            ∧ t.line = s.line.report (.missed sc (some n) .cut)))

/-- RESUME and INTERVAL_EXPIRY open the on-deck slot as START does, with *LATE ARMED where its machine is not found ARMED, a
strike of a DARK lamp or a start where it is (R125, R106, R107); without an on-deck slot RESUME is
refused and an expiry ends the programme with *PLANEND. DARK_HOLD_EXPIRY brings scene 4 as a PICTURE claim and *DARK (R124,
R125). The model's choices: an expiry acts whenever its measure runs and is nothing while it does not (log entry 2), a
dark hold that has ended is kept as run out (log entry 16), and a machine started with its loop switch reading OPEN breaks
last in the event (log entry 39). -/
def Obligations.ScreenTimersEnd : Prop :=
  ∀ (sc : ScreenId) (a : Text) (s : State), s.powered = true → s.namesScreen a sc →
    let c := Instr.resume [a]
    let opened := fun (u : State) (n : SlotIx) => (u.screen sc).state = .opening ∧ (u.screen sc).current = some n
      ∧ (u.screen sc).interval = none ∧ (u.screen sc).point = none
      ∧ ((s.slot sc n).status = .loaded → (u.screen sc).startPending = true)
    -- what the opening reports, from line `l`: *LATE with start pending, or nothing at a strike, or *MOTOR at a start
    let told := fun (l : LineUnit) (u : State) (n : SlotIx) =>
      let late := (u.screen sc).startPending = true ∧ (u.screen sc).startGiven = false
        ∧ u.line = l.report (.lateArmed sc (some n))
      ((s.slot sc n).status ≠ .bound → late)
      ∧ ∀ m, screenOf m = sc → (s.slot sc n).status = .bound → (s.slot sc n).bound = some m →
          (¬ s.foundArmed sc n m → late)
          ∧ (s.foundArmed sc n m →
              ((s.lamp m).state ≠ .burning → (u.screen sc).startPending = false ∧ (u.screen sc).startGiven = false
                ∧ (u.machine m).state = .armed ∧ u.line = l
                ∧ u.lamp m = if (s.lamp m).state = .dark ∧ (s.lamp m).remaining ≠ 0 ∧ (s.machine m).holds.fire = false
                  then (s.lamp m).beginStrike else s.lamp m)
              ∧ ((s.lamp m).state = .burning → (s.machine m).loopSwitchClosed = true →
                (u.screen sc).startPending = false ∧ (u.screen sc).startGiven = true ∧ (u.machine m).state = .starting
                ∧ (u.machine m).motor = true ∧ s.sceneIssued u sc n
                ∧ u.line = l.report (.motor sc m (some n) .opening))
              ∧ ((s.lamp m).state = .burning → (s.machine m).loopSwitchClosed = false →
                (u.screen sc).startPending = true ∧ (u.screen sc).startGiven = false ∧ (u.machine m).state = .broken
                ∧ s.sceneIssued u sc n
                ∧ u.line = (l.report (.motor sc m (some n) .opening)).report (.broke m .loop (s.machine m).frameCount)))
    ((s.screen sc).state ≠ .interval ∨ s.onDeck sc = none → exec c s = .next (s.answered c (.no .state)))
    ∧ (∀ n, (s.screen sc).state = .interval → s.onDeck sc = some n →
        ∃ u, exec c s = .next (u.answer (.ok [])) ∧ opened u n ∧ told (s.taken c).line u n
          ∧ ShowFrame (s.taken c) u)
    ∧ (∀ n k, (s.screen sc).state = .interval → s.onDeck sc = some n → (s.screen sc).interval = some (.seconds k) →
        ∃ u, exec (.intervalExpiry sc) s = .next u ∧ opened u n ∧ told s.line u n ∧ ShowFrame s u)
    ∧ (∀ k, (s.screen sc).state = .interval → s.onDeck sc = none → (s.screen sc).interval = some (.seconds k) →
        ∃ u : State, exec (.intervalExpiry sc) s = .next u ∧ (u.screen sc).state = .idle
          ∧ (u.screen sc).current = none ∧ (u.screen sc).interval = none
          ∧ u.line = s.line.report (.planEnd sc (s.screen sc).current)
          ∧ (∀ c, (u.circuit sc c).claims.cue = none ∧ (u.circuit sc c).claims.fault = none) ∧ ShowFrame s u)
    ∧ ((s.screen sc).state ≠ .interval ∨ (∀ k, (s.screen sc).interval ≠ some (.seconds k)) →
        exec (.intervalExpiry sc) s = .next s)
    ∧ (∀ m t, (s.screen sc).darkHold = .running t → (s.screen sc).onScreen = some m →
        exec (.darkHoldExpiry sc) s = .next (((s.placeThree sc .fault (s.sceneLevels sc 4) 30).modScreen sc fun x =>
          { x with faultClaim := .picture, darkHold := .ranOut }).report (.dark sc .picture m none)))
    ∧ ((∀ t, (s.screen sc).darkHold ≠ .running t) ∨ (s.screen sc).onScreen = none →
        exec (.darkHoldExpiry sc) s = .next s)

/-- ABORT s: both machines stopped, both lamps out, both queues emptied, the current slot cut, CUE and FAULT claims
released and the screen IDLE; STATE where it is IDLE already (R126). -/
def Obligations.AbortStopsTheScreen : Prop :=
  ∀ (sc : ScreenId) (a : Text) (s : State), s.powered = true → s.namesScreen a sc →
    let c := Instr.abort [a]
    ((s.screen sc).state = .idle → exec c s = .next (s.answered c (.no .state)))
    ∧ ((s.screen sc).state ≠ .idle → ∃ u : State, exec c s = .next (u.answer (.ok [])) ∧ ShowFrame (s.taken c) u
      ∧ (u.screen sc).state = .idle ∧ (u.screen sc).current = none ∧ (u.screen sc).onScreen = none
      ∧ (u.screen sc).point = none ∧ (u.screen sc).startGiven = false ∧ (u.screen sc).startPending = false
      ∧ (u.screen sc).interval = none ∧ (u.screen sc).mixer = .mute ∧ (u.screen sc).overlapLeft = 0
      ∧ (u.screen sc).faultClaim = .none ∧ (u.screen sc).darkHold = .stopped
      ∧ (∀ k, (u.circuit sc k).claims.cue = none ∧ (u.circuit sc k).claims.fault = none)
      ∧ (∀ m, screenOf m = sc → (u.machine m).state.running = false
          ∧ ((s.machine m).state.running = true → (u.machine m).state = .stopped ∧ (u.machine m).motor = false)
          ∧ (u.lamp m).state ≠ .burning ∧ (u.lamp m).state ≠ .striking ∧ (u.decoder m).deferred = [])
      ∧ (∀ n, (s.screen sc).current = some n → (s.slot sc n).status.showable = true →
          (∀ m, screenOf m = sc → (s.machine m).state = .runout → (s.machine m).boundSlot ≠ some n) →
          (u.slot sc n).status = .cut)
      ∧ ∀ m n e, PlanLaw s → screenOf m = sc → (s.machine m).state = .runout → (s.machine m).boundSlot = some n →
          (s.slot sc n).status = .bound → (s.slot sc n).entry = some e → (u.slot sc n).status = .shown)

/-- SOUND and SCREENSET write the screen's sound level, margin and overlap, within their limits, and answer OK; an overlap
that brings overlap remaining to 0 ends BOTH (log entry 26). -/
def Obligations.ScreenSettingsAreWritten : Prop :=
  ∀ (sc : ScreenId) (a : Text) (s : State), s.powered = true → s.namesScreen a sc →
    (∀ w k, number? w = some k → exec (.sound [a, w]) s = .next (((s.taken (.sound [a, w])).modScreen sc
      fun x => { x with sound := if 15 < k then 15 else k }).answer (.ok [])))
    ∧ ∀ ms n,
      let set := fun (ws : List Text) (f : ScreenRec → ScreenRec) =>
        exec (.screenset (a :: ws)) s = .next (((s.taken (.screenset (a :: ws))).modScreen sc f).answer (.ok []))
      let refused := fun (ws : List Text) (r : Reason) =>
        exec (.screenset (a :: ws)) s = .next (s.answered (.screenset (a :: ws)) (.no r))
      let margin := txt "MARGIN=" ++ fNum ms
      let ovl := txt "OVL=" ++ fNum n
      let overlapped := fun (x : ScreenRec) =>
        { x with overlap := n, overlapLeft := min n x.overlapLeft
                 mixer := match x.mixer, x.onScreen with
                   | .both, some m => if min n x.overlapLeft = 0 then .machine m else .both
                   | y, _ => y }
      (ms ≤ 1000 → set [margin] fun x => { x with margin := ms * 1000 })
      ∧ (n ≤ 12 → set [ovl] overlapped)
      ∧ (ms ≤ 1000 → n ≤ 12 → set [margin, ovl] (fun x => overlapped { x with margin := ms * 1000 })
          ∧ set [ovl, margin] fun x => overlapped { x with margin := ms * 1000 })
      ∧ (1000 < ms → refused [margin] .range) ∧ (12 < n → refused [ovl] .range)
      ∧ refused [] .form ∧ refused [margin, margin] .form ∧ refused [ovl, ovl] .form

/-- R34 to R37: frames to go, start point and strike frames formed at a frame notice of the ON_SCREEN machine, each
quotient rounded up to a whole frame, and no figures where the current slot carries no CO or there is no on-deck slot (that
no earlier start point or strike frames stand there is log entry 38);
what the strike condition and the start condition ask for. And the rest of a frame notice at the controller: the overlap
(R115), the FOOTAGE and FALLBACK points (R111) and the watch on the picture (R124), in the order of log entry 35. And the
point of an accepted CHANGEOVER cue (R53, R111). What the start that falls due does is said by StartsFallDue; that SWAP_DUE
is entered before it is the model's choice (log entry 39). -/
def Obligations.StartTimingFigures : Prop :=
  (∀ (sc : ScreenId) (on : MachineId) (f : Nat) (s : State),
    let x := (s.formTiming sc on f).screen sc
    let p := match (s.machine on).average, (s.machine on).lastAverage with
      | some a, _ => a
      | none, some a => a
      | none, none => 41667
    let lam := fun (d : SlotEntry) =>
      (s.machine (partnerOf on)).accelAllowance + d.runUp * 41667 + (s.screen sc).margin
    (∀ e co, s.currentEntry sc = some e → e.co = some co → 0 < p →
      x.framesToGo = some (co - f)
      ∧ (s.onDeckEntry sc = none → x.nStart = none ∧ x.strikeFrames = none)
      ∧ ∀ d, s.onDeckEntry sc = some d → ∃ n k, x.nStart = some n ∧ x.strikeFrames = some k
          ∧ lam d ≤ n * p ∧ n * p < lam d + p
          ∧ (s.lamp (partnerOf on)).strikeLead * 1000000 ≤ k * p
          ∧ k * p < (s.lamp (partnerOf on)).strikeLead * 1000000 + p)
    ∧ ((∀ e, s.currentEntry sc = some e → e.co = none) →
        x.framesToGo = none ∧ x.nStart = none ∧ x.strikeFrames = none)
    ∧ ∀ g n k, (s.screen sc).framesToGo = some g → (s.screen sc).nStart = some n →
        (s.screen sc).strikeFrames = some k →
        (g ≤ n + k → (s.machine (partnerOf on)).state = .armed → (s.lamp (partnerOf on)).state = .dark →
          s.strikePoint sc on = s.strikeRequest (partnerOf on))
        ∧ (n + k < g ∨ (s.machine (partnerOf on)).state ≠ .armed ∨ (s.lamp (partnerOf on)).state ≠ .dark →
          s.strikePoint sc on = s)
        ∧ (g ≤ n → s.startPointReached sc = s.startDue sc .point true) ∧ (n < g → s.startPointReached sc = s))
  -- the frame notice of machine m
  ∧ ∀ (m : MachineId) (s : State),
    let sc := screenOf m
    let x := s.screen sc
    let f := (s.machine m).frameCount
    let shows := x.state = .showing ∨ x.state = .runup ∨ x.state = .swapDue
    let mixed := s.modScreen sc fun y =>
      if y.mixer ≠ .both then y
      else if y.overlapLeft ≤ 1 then { y with overlapLeft := 0, mixer := .machine m }
      else { y with overlapLeft := y.overlapLeft - 1 }
    (x.onScreen = some m → (s.machine m).state = .onScreen →
      (shows → s.frameNotice m =
        ((((mixed.formTiming sc m f).strikePoint sc m).startPointReached sc).footagePoint sc f).machinePosted m)
      ∧ (¬ shows → s.frameNotice m = mixed.machinePosted m))
    ∧ (x.onScreen ≠ some m ∨ (s.machine m).state ≠ .onScreen → s.frameNotice m = s.machinePosted m)
    -- R111: the point is reached once, by FOOTAGE at CO or by FALLBACK at CO + W
    ∧ (∀ e co cause, s.currentEntry sc = some e → e.co = some co → x.state = .showing ∨ x.state = .runup →
        (s.onDeck sc).isSome = true → x.point = none →
        (e.mode = .foot ∧ co ≤ f ∧ cause = PointCause.footage) ∨ (e.mode = .film ∧ co + e.window ≤ f ∧ cause = .fallback) →
        let y := s.modScreen sc fun z => { z with point := some cause, state := .swapDue }
        let late := if cause = .fallback then y.report (.lateFallback sc x.current f) else y
        (x.startGiven = true ∨ x.startPending = true → s.footagePoint sc f = late.testReady sc)
        ∧ (x.startGiven = false → x.startPending = false →
          (∀ j, s.successor sc = some j → (s.machine j).state = .armed →
            s.footagePoint sc f = (late.startSuccessor j .change).testReady sc)
          ∧ ((∀ j, s.successor sc = some j → (s.machine j).state ≠ .armed) →
            s.footagePoint sc f = ((late.modScreen sc fun z => { z with startPending := true }).report
              (.missed sc (s.onDeck sc) .armed)).testReady sc)))
    ∧ ((∀ e co, s.currentEntry sc = some e → e.co = some co →
          (e.mode = .foot ∧ f < co) ∨ (e.mode = .film ∧ f < co + e.window))
        ∨ x.point.isSome = true ∨ s.onDeck sc = none ∨ (x.state ≠ .showing ∧ x.state ≠ .runup) → s.footagePoint sc f = s)
    -- R124: the dark hold timer runs from the first posting at which the picture is lost, and is stopped when it is not
    ∧ (x.onScreen = some m → s.waitedOn sc ≠ some m → s.successor sc ≠ some m →
        let lost := (s.machine m).douser = .closed ∧ ((s.machine m).holds.lamp = true ∨ (s.machine m).holds.speed = true)
        let hold := if shows ∧ lost then (if x.darkHold = .stopped then .running 0 else x.darkHold) else DarkHold.stopped
        let watched := s.modScreen sc fun y => { y with darkHold := hold }
        ((s.machine m).douser = .opened ∧ x.faultClaim = .picture → s.machinePosted m =
          (watched.releaseThree sc .fault).modScreen sc fun y => { y with faultClaim := .none })
        ∧ (¬ ((s.machine m).douser = .opened ∧ x.faultClaim = .picture) → s.machinePosted m = watched))
  -- R53, R111: an accepted CHANGEOVER cue at frame f reaches the point, once
  ∧ ∀ (sc : ScreenId) (f : Nat) (s : State),
    let x := s.screen sc
    let y := s.modScreen sc fun z => { z with point := some .cue, state := .swapDue }
    let t := s.reachPoint sc .cue f
    (x.point.isSome = true ∨ s.successorWithCo sc = false ∨ (x.state ≠ .showing ∧ x.state ≠ .runup) → t = s)
    ∧ (x.state = .showing ∨ x.state = .runup → s.successorWithCo sc = true → x.point = none →
        t = (y.startDue sc .change true).testReady sc
        ∧ (x.startGiven = true ∨ x.startPending = true → t = y.testReady sc)
        ∧ (x.startGiven = false → x.startPending = false →
            (∀ j, screenOf j = sc → s.successor sc = some j → (s.machine j).state = .armed →
              (s.machine j).loopSwitchClosed = true →
              t.screen sc = { x with point := some .cue, state := .swapDue, startGiven := true, startPending := false }
              ∧ (t.machine j).state = .starting ∧ (t.machine j).motor = true
              ∧ t.line = s.line.report (.motor sc j (s.onDeck sc) .change))
            ∧ ((∀ j, s.successor sc = some j → (s.machine j).state ≠ .armed ∧ (s.machine j).state ≠ .runup) →
              t = (y.modScreen sc fun z => { z with startPending := true }).report (.missed sc (s.onDeck sc) .armed))))

/-- R109 and R110: what a start that falls due does in SHOWING, RUNUP, SWAP_DUE and DARK. With start given or pending
nothing; without an ARMED successor start pending, and *MISSED ARMED where the rule that made it due reports it; with one its
start order is taken (R5), *MOTOR carries the cause, a DARK lamp is asked to strike and SHOWING goes to RUNUP, or to SWAP_DUE
where the point was reached. And what the plan store's evaluation does (R99, R17): a posting of ARMED gives a pending start
with the cause PENDING, or in OPENING proceeds by R107; one back to THREADED sets start pending in OPENING (R108). A machine
whose loop switch reads OPEN as it is started breaks last in the same event (R11, R123; that it comes last is the model's
choice, log entry 39). -/
def Obligations.StartsFallDue : Prop :=
  ∀ (sc : ScreenId) (s : State),
    let x := s.screen sc
    let waits := x.state = .showing ∨ x.state = .runup ∨ x.state = .swapDue ∨ x.state = .dark
    -- `t` is `u` after the ARMED machine `m` of the screen has taken its start order with cause `k`
    let started := fun (m : MachineId) (k : MotorCause) (u t : State) =>
      let r := u.machine m
      let y := u.screen sc
      let told := u.line.report (.motor sc m (u.onDeck sc) k)
      t = { u with machines := t.machines, decoders := t.decoders, lamps := t.lamps, plan := t.plan,
                   screens := t.screens, line := t.line }
      ∧ t.plan = { u.plan with lastPosting := t.plan.lastPosting }
      ∧ (∀ j, t.plan.lastPosting.get j = if j = m then false else u.plan.lastPosting.get j)
      ∧ (∀ j, j ≠ m → t.machine j = u.machine j ∧ t.decoder j = u.decoder j ∧ t.lamp j = u.lamp j)
      ∧ (∀ z, z ≠ sc → t.screen z = u.screen z)
      ∧ t.lamp m = (if (u.lamp m).state = .dark ∧ (u.lamp m).remaining ≠ 0 ∧ r.holds.fire = false then
          (u.lamp m).beginStrike else u.lamp m)
      ∧ (r.loopSwitchClosed = true →
          t.screen sc = { y with startGiven := true, startPending := false
                                 state := if y.state = .showing then (if y.point.isSome then .swapDue else .runup)
                                   else y.state }
          ∧ t.line = told ∧ (t.machine m).state = .starting ∧ (t.machine m).motor = true
          ∧ (r.motor = false →
              t.decoder m = { decode := .idle, patchCount := 0, patchLength := 0, gapFrames := 0,
                              deferred := (u.decoder m).deferred }
              ∧ t.machine m = { r with
                  state := .starting, motor := true, speed := .accel, holds := { r.holds with speed := true }
                  motorOnTime := u.timebase, framesSinceOn := 0, atSpeedReached := false, ring := [], pulseRef := false
                  periodTimer := none, average := none, cfps := none, inBandRun := 0, outBandRun := 0
                  noPulseTimer := none, accelTimer := some 0, startMeasure := some 0, pulseMeasure := none
                  contactorMeasure := if r.contactorClosed then none else some 0, douser := .closed }))
      ∧ (r.loopSwitchClosed = false →
          t.screen sc = { y with startGiven := false, startPending := true
                                 state := if y.state = .dark then .dark else .showing }
          ∧ t.line = told.report (.broke m .loop r.frameCount) ∧ (t.decoder m).deferred = []
          ∧ (t.machine m).state = .broken ∧ (t.machine m).breakCause = some .loop ∧ (t.machine m).motor = false
          ∧ (t.machine m).holds.brk = true ∧ (t.machine m).douserRequest = .closed ∧ (t.machine m).douser = .closed
          ∧ (t.machine m).frameCount = r.frameCount)
    -- a start that falls due
    (∀ k missed, x.startGiven = true ∨ x.startPending = true → s.startDue sc k missed = s)
    ∧ (∀ k missed, x.startGiven = false → x.startPending = false →
        ((∀ m, s.successor sc = some m → (s.machine m).state ≠ .armed) →
          let late := s.modScreen sc fun y => { y with startPending := true }
          s.startDue sc k missed = if missed = true then late.report (.missed sc (s.onDeck sc) .armed) else late)
        ∧ ∀ m, screenOf m = sc → waits → s.successor sc = some m → (s.machine m).state = .armed →
            started m k s (s.startDue sc k missed))
    -- the plan store's evaluation and its posting
    ∧ ∀ m, screenOf m = sc →
        let r := s.machine m
        let posted := fun (yes : Bool) (st : MachineState) =>
          (s.modPlan fun p => { p with lastPosting := p.lastPosting.set m yes }).modMachine m
            fun r => { r with state := st, armedPosting := yes }
        ((r.state ≠ .threaded ∧ r.state ≠ .armed) ∨ s.armedCondition m = s.plan.lastPosting.get m → s.evaluate m = s)
        ∧ (r.state = .threaded → s.armedCondition m = true → s.plan.lastPosting.get m = false →
            (waits → s.successor sc = some m → x.startPending = true →
              started m .pending (posted true .armed) (s.evaluate m))
            ∧ (waits → s.successor sc = some m → x.startPending = false → s.evaluate m = posted true .armed)
            ∧ (x.state = .opening → s.waitedOn sc = some m → s.evaluate m = (posted true .armed).openingStep sc)
            ∧ (x.state = .idle ∨ x.state = .interval ∨ x.state = .halted ∨ s.waitedOn sc ≠ some m →
                s.evaluate m = posted true .armed))
        ∧ (r.state = .armed → s.armedCondition m = false → s.plan.lastPosting.get m = true →
            s.evaluate m = if s.waitedOn sc = some m ∧ x.state = .opening ∧ x.startGiven = false then
              (posted false .threaded).modScreen sc fun y => { y with startPending := true } else posted false .threaded)

/-! ### The house lights (Chapter 7) -/

/-- R133 and R135, of one circuit: a claim placed under a higher rank waits; one placed as the highest governs from the
present output over its own whole fade; a released governing claim hands the circuit to the next rank down, or to full. -/
def Obligations.ClaimsArePlacedAndReleased : Prop :=
  ∀ (h target fade : Nat) (r : Rank) (c : Circuit),
    let above : Rank → List Rank := fun r => match r with
      | .safety => []
      | .fault => [.safety]
      | .cue => [.safety, .fault]
      | .console => [.safety, .fault, .cue]
    let below : Rank → List Rank := fun r => match r with
      | .safety => [.fault, .cue, .console]
      | .fault => [.cue, .console]
      | .cue => [.console]
      | .console => []
    let waits := fun (x : Option Claim) => x.map fun y => { y with governing := none }
    -- the claim ⟨t, f⟩ of rank `q` begins to govern a table with no other governing claim
    let governs := fun (q : Rank) (table : ClaimTable) (t f : Nat) (x : Circuit) =>
      let others : ClaimTable := ⟨waits table.safety, waits table.fault, waits table.cue, waits table.console⟩
      (f * 5 = 0 → x = { c with
        claims := others.set q (some ⟨t, f, some ⟨c.output, 0, 0⟩⟩), output := t, delay := firingDelay h t
        armed := if t = 0 then none else c.armed, stepMeasure := none })
      ∧ (f * 5 ≠ 0 → x = { c with
        claims := others.set q (some ⟨t, f, some ⟨c.output, 0, f * 5⟩⟩), stepMeasure := some 0 })
    let waiting := ∃ q ∈ above r, (c.claims.get q).isSome = true
    -- placed
    (waiting → c.place h r target fade = { c with claims := c.claims.set r (some ⟨target, fade, none⟩) })
    ∧ (¬ waiting → governs r c.claims target fade (c.place h r target fade))
    -- released
    ∧ (c.claims.get r = none → c.release h r = c)
    ∧ ((c.claims.get r).isSome = true → waiting → c.release h r = { c with claims := c.claims.set r none })
    ∧ (∀ q y, (c.claims.get r).isSome = true → ¬ waiting → (below r).find? (fun q => (c.claims.get q).isSome) = some q →
        c.claims.get q = some y → governs q (c.claims.set r none) y.target y.fade (c.release h r))
    ∧ ((c.claims.get r).isSome = true → ¬ waiting → (below r).find? (fun q => (c.claims.get q).isSome) = none →
        c.release h r = { c with claims := ⟨none, none, none, none⟩, output := 255, delay := firingDelay h 255,
                                 stepMeasure := none })

/-- R142: a circuit at level 1 or more has a firing delay within 100 µs to H − 300 µs, formed from the level and the
half-cycle in use and formed anew at every change of either; a circuit at level 0 has none and is not fired. -/
def Obligations.FiringDelayIsFormed : Prop :=
  (∀ h l : Nat, 7500 ≤ h → h ≤ 11000 → 1 ≤ l → l ≤ 255 →
    let q := h - h * l * l / 65025
    firingDelay h l = some (if q < 100 then 100 else if h - 300 < q then h - 300 else q)
    ∧ ∃ d, firingDelay h l = some d ∧ 100 ≤ d ∧ d ≤ h - 300)
  ∧ (∀ h : Nat, firingDelay h 0 = none)
  ∧ ∀ s t : State, LightsLaw s → step s = .next t → ∀ sc c,
      (t.circuit sc c).delay = firingDelay t.lights.halfCycle (t.circuit sc c).output
      ∧ ((t.circuit sc c).output = 0 → (t.circuit sc c).delay = none ∧ (t.circuit sc c).armed = none)

/-- FADE_STEP, ZERO_CROSSING and FIRING_DELAY_EXPIRY: the level of each step, truncated toward zero; a fade that its N
steps bring to its target and stop; the interval ring, the half-cycle in use and the firings armed at a crossing (R136,
R141, R143). A step follows only where the measure has reached 20 ms, so that none follows a placement or a release by
which another claim began to govern (R137). The model's choices: a FADE_STEP before its 20 ms and an unarmed firing
change nothing (log entry 2), the armed delay and the fired pulse are held as fields (log entry 24), and the first
crossing after power-on arms nothing (log entry 31). -/
def Obligations.LightEventsComplete : Prop :=
  ∀ (sc : ScreenId) (k : CircuitId) (dt : Nat) (s : State), s.powered = true →
    let c := s.circuit sc k
    -- a step
    (∀ r x f, c.stepMeasure = some 20000 → c.claims.top = some r → c.claims.get r = some x → x.governing = some f →
      f.k < f.n → ∃ t, exec (.fadeStep sc k) s = .next t ∧ t = { s with lights := t.lights }
        ∧ (∀ x' k', x' ≠ sc ∨ k' ≠ k → t.circuit x' k' = s.circuit x' k')
        ∧ (t.circuit sc k).claims = c.claims.set r (some { x with governing := some { f with k := f.k + 1 } })
        ∧ ((t.circuit sc k).output : Int)
            = max 0 (f.start + (((x.target : Int) - f.start) * ((f.k : Int) + 1)).tdiv f.n)
        ∧ (t.circuit sc k).delay = firingDelay s.lights.halfCycle (t.circuit sc k).output
        ∧ (t.circuit sc k).stepMeasure = (if f.k + 1 < f.n then some 0 else none)
        ∧ (t.circuit sc k).armed = (if (t.circuit sc k).output = 0 then none else c.armed))
    ∧ (c.stepMeasure ≠ some 20000 → exec (.fadeStep sc k) s = .next s)
    -- R137: a placement or a release by which a claim begins to govern is followed by no step; one of a waiting claim
    -- leaves the governing fade as it stands
    ∧ (∀ h q target fade, let d := c.place h q target fade
        (d.claims.top = some q → d.dueStep h = d)
        ∧ (d.claims.top ≠ some q → d.stepMeasure = c.stepMeasure ∧ d.output = c.output))
    ∧ (∀ h q, let d := c.release h q
        (c.claims.top = some q → d.dueStep h = d)
        ∧ (c.claims.top ≠ some q → d.stepMeasure = c.stepMeasure ∧ d.output = c.output))
    -- N steps 20 ms apart reach the target and stop; on the way the level stays between the start and the target
    ∧ (∀ h r x f i, c.stepMeasure.isSome = true → c.claims.top = some r → c.claims.get r = some x →
        x.governing = some f → f.k = 0 → 0 < f.n → 0 < i → i ≤ f.n →
        let d := (fun c : Circuit => (c.elapse 20000).dueStep h)^[i] c
        (min f.start x.target ≤ d.output ∧ d.output ≤ max f.start x.target)
        ∧ (i = f.n → d.output = x.target ∧ d.stepMeasure = none))
    -- a crossing
    ∧ (∃ t, exec (.zeroCrossing dt) s = .next t ∧ t = { s.elapse dt with lights := t.lights }
        ∧ t.lights.scenes = s.lights.scenes ∧ t.lights.crossingRef = true ∧ t.lights.crossingTimer = some 0
        ∧ (s.lights.crossingRef = false → t.lights.crossings = s.lights.crossings
            ∧ t.lights.halfCycle = s.lights.halfCycle ∧ t.lights.valid = s.lights.valid
            ∧ t.circuit sc k = (s.elapse dt).circuit sc k)
        ∧ ∀ v, s.lights.crossingRef = true → s.lights.crossingTimer = some v →
            let ring := (s.lights.crossings ++ [min 65535 (v + dt)]).drop (s.lights.crossings.length + 1 - 4)
            let avg := ring.sum / 4
            t.lights.crossings = ring
            ∧ (ring.length ≠ 4 → t.lights.halfCycle = s.lights.halfCycle ∧ t.lights.valid = s.lights.valid)
            ∧ (ring.length = 4 → 7500 ≤ avg → avg ≤ 11000 → t.lights.halfCycle = avg ∧ t.lights.valid = true)
            ∧ (ring.length = 4 → avg < 7500 ∨ 11000 < avg →
                t.lights.halfCycle = s.lights.halfCycle ∧ t.lights.valid = false)
            ∧ (t.circuit sc k).claims = c.claims ∧ (t.circuit sc k).output = c.output
            ∧ (t.circuit sc k).delay = (if t.lights.halfCycle = s.lights.halfCycle then c.delay
                else firingDelay t.lights.halfCycle c.output)
            ∧ (t.circuit sc k).armed = (if c.output = 0 then none else (t.circuit sc k).delay)
            ∧ (t.circuit sc k).fired = false)
    -- a firing
    ∧ (c.armed.isSome = true → ∃ t, exec (.firingDelayExpiry sc k) s = .next t ∧ t = { s with lights := t.lights }
        ∧ t.circuit sc k = { c with armed := none, fired := true }
        ∧ (∀ x' k', x' ≠ sc ∨ k' ≠ k → t.circuit x' k' = s.circuit x' k'))
    ∧ (c.armed = none → exec (.firingDelayExpiry sc k) s = .next s)

/-- SCENEDEF, LEVEL, SCENE and RELEASE: levels taken no higher than 255 and fades than 600, CONSOLE claims placed and
released on the circuits named alone, and OK answered whatever stands above them (R132, R145, R146). -/
def Obligations.LightCommandsComplete : Prop :=
  ∀ (sc : ScreenId) (a b w1 w2 w3 : Text) (n : Fin 8) (v1 v2 v3 : Nat) (s : State), s.powered = true →
    s.namesScreen a sc → namesScene b n → number? w1 = some v1 → number? w2 = some v2 → number? w3 = some v3 →
    let place := fun (k : CircuitId) (level fade : Nat) (u : State) =>
      u.modCircuit sc k fun h => Circuit.place h .console level fade
    let three := fun (x y z fade : Nat) (u : State) =>
      place .stage z fade (place .aisle y fade (place .house x fade u))
    let release := fun (k : CircuitId) (u : State) => u.modCircuit sc k fun h => Circuit.release h .console
    let done := fun (c : Instr) (f : State → State) => exec c s = .next ((f (s.taken c)).answer (.ok []))
    let l := (s.lights.scenes.get sc)[n]
    done (.scenedef [a, b, w1, w2, w3]) (fun u => u.modLights fun h =>
      { h with scenes := h.scenes.set sc ((h.scenes.get sc).set n ⟨min 255 v1, min 255 v2, min 255 v3⟩) })
    ∧ done (.scene [a, b, w1]) (three l.house l.aisle l.stage (min 600 v1))
    ∧ (∀ k, done (.level [a, fCircuit k, w1, w2]) (place k (min 255 v1) (min 600 v2)))
    ∧ done (.level [a, txt "ALL", w1, w2]) (three (min 255 v1) (min 255 v1) (min 255 v1) (min 600 v2))
    ∧ (∀ k, done (.release [a, fCircuit k]) (release k))
    ∧ done (.release [a, txt "ALL"]) (fun u => release .stage (release .aisle (release .house u)))

/-! ### Fire protection (Chapter 8) -/

/-- The loop open measure's end is a booth trip (R152): the latches, the magnets and the drops, the order as the machines,
lamps, screens and lights take it (R19, R73, R127, R139), the record (R163) and *TRIP. That a measure not running changes
nothing is log entry 2, that the start point and strike frames go with frames to go log entry 38. A machine in RUNOUT ends
its reel (R117, R127), before *TRIP (R152); that M1's report comes first of several is log entry 10, and bindings standing as
PlanLaw says are an invariant (PlanLawKept). -/
def Obligations.BoothTripIsTaken : Prop :=
  ∀ s : State, s.powered = true →
    (s.fire.loopOpenMeasure = none → exec .loopOpenMeasureExpiry s = .next s)
    ∧ (s.fire.loopOpenMeasure.isSome = true →
      let n := s.fire.nextSequence
      ∃ (t : State) (l : LineUnit), exec .loopOpenMeasureExpiry s = .next t ∧ TripFrame s t ∧ t.fire.gates = s.fire.gates
        -- the latches, the magnets and the drops
        ∧ t.fire.loopOpenMeasure = none ∧ t.fire.boothLatch = some .loop
        ∧ (∀ m, t.fire.machineLatch.get m =
            if s.fire.machineLatch.get m = some .gateHeat then some .gateHeat else some .booth)
        ∧ (∀ m, let x := s.fire.shutters.get m
            t.fire.shutters.get m =
              if x.state = .opened then { x with magnet := false, state := .dropping, confirm := some 0,
                                                 dropSequence := some n, dropSnapshot := some (s.snapshot m) }
              else { x with magnet := false })
        -- the order at the machines and the lamps (R19, R73)
        ∧ (∀ m, (t.machine m).state = .tripped ∧ (t.machine m).frameCount = (s.machine m).frameCount
            ∧ (t.machine m).reelId = (s.machine m).reelId ∧ (t.machine m).douser = .closed
            ∧ ((s.machine m).state = .tripped → (t.machine m).stateBeforeTrip = (s.machine m).stateBeforeTrip
                ∧ (t.machine m).motor = (s.machine m).motor)
            ∧ ((s.machine m).state ≠ .tripped → (t.machine m).stateBeforeTrip = some (s.machine m).state
                ∧ (t.machine m).motor = false ∧ (t.machine m).holds.fire = true
                ∧ (t.machine m).douserRequest = .closed))
        ∧ (∀ m, ((s.lamp m).state = .burning ∨ (s.lamp m).state = .striking →
              (t.lamp m).state = .dark ∧ (t.lamp m).contactorClosed = false ∧ (t.lamp m).feedDuty = 0)
            ∧ ((s.lamp m).state ≠ .burning → (s.lamp m).state ≠ .striking →
                (t.lamp m).state = (s.lamp m).state ∧ (t.lamp m).contactorClosed = (s.lamp m).contactorClosed))
        -- at the screens (R127) and the lights (R139)
        ∧ (∀ sc, let x := s.screen sc
            t.screen sc = if x.state = .idle ∨ x.state = .halted then x
              else { x with state := .halted, onScreen := none, point := none, startGiven := false, startPending := false,
                            mixer := .mute, overlapLeft := 0, interval := none, darkHold := .stopped,
                            framesToGo := none, nStart := none, strikeFrames := none })
        ∧ (∀ sc c, (t.circuit sc c).output = 255 ∧ (∃ x, (t.circuit sc c).claims.safety = some x
              ∧ x.target = 255 ∧ x.fade = 0)
            ∧ sameClaim (t.circuit sc c).claims.fault (s.circuit sc c).claims.fault
            ∧ sameClaim (t.circuit sc c).claims.cue (s.circuit sc c).claims.cue
            ∧ sameClaim (t.circuit sc c).claims.console (s.circuit sc c).claims.console)
        -- the record and the report
        ∧ (let outcome := fun (m : MachineId) => (m, match (s.fire.shutters.get m).state with
              | .closed => ShutterOutcome.closed
              | .stuck => .stuck
              | .opened | .dropping => .pending)
          t.fire.log = (
            { sequence := n, timeOfDay := s.plan.clock, cause := .loop, scope := .booth,
              machines := [s.snapshot .m1, s.snapshot .m2, s.snapshot .m3, s.snapshot .m4],
              lights := s.lightLevels .s1 ++ s.lightLevels .s2,
              outcomes := [outcome .m1, outcome .m2, outcome .m3, outcome .m4], related := none } :: s.fire.log).take 8)
        ∧ t.fire.nextSequence = (n + 1) % 65536
        ∧ t.line = l.report (.trip .loop .booth n)
        -- the reels of machines in RUNOUT (R117), where bindings stand on both sides (PlanLawKept)
        ∧ (PlanLaw s →
            l = s.reelEnded .m4 (s.reelEnded .m3 (s.reelEnded .m2 (s.reelEnded .m1 s.line)))
            ∧ (∀ m k, (s.machine m).state = .runout → (s.machine m).boundSlot = some k →
                (t.machine m).boundSlot = none
                ∧ t.slot (screenOf m) k = { s.slot (screenOf m) k with status := .shown, bound := none })
            ∧ (∀ m, (s.machine m).state ≠ .runout → (t.machine m).boundSlot = (s.machine m).boundSlot)
            ∧ ∀ x k, (∀ m, screenOf m = x → (s.machine m).state = .runout → (s.machine m).boundSlot ≠ some k) →
                t.slot x k = s.slot x k))

/-- A gate count and its hot run, the machine trip at a hot run of 2 unless the latch stands GATE_HEAT (R153, R154,
R128), and LOOP_INPUT_CHANGE with the loop's record (R151). That the other screen's machines and lamps stand rests on
the bindings standing within their screens (PlanLaw, an invariant: PlanLawKept). The model's choices: an unchanged loop
level is no event (log entry 30), the count within a healthy second starts afresh (log entry 19), an ON_SCREEN machine's
trip puts its partner's lamp out whatever the partner's state (log entry 26), ARMED is evaluated after the orders
(log entry 15), and a hot run already at 2 trips at the next hot gate (log entry 40). A machine that leaves RUNOUT by the
trip, or by the stop order of the ON_SCREEN machine's trip, ends its reel (R117), before *TRIP (R154). -/
def Obligations.GateCountTripsTheMachine : Prop :=
  ∀ (m : MachineId) (count : Nat) (s : State), s.powered = true →
    let sc := screenOf m
    let g := s.fire.gates.get m
    let v := min 4095 (if s.wired m = true then count else 0)
    let hot := if g.tripThreshold ≤ v then min 2 (g.hotRun + 1) else 0
    let counted := s.modFire fun u => { u with gates := u.gates.set m { g with count := v, hotRun := hot } }
    (hot ≠ 2 ∨ s.fire.machineLatch.get m = some .gateHeat → exec (.gateCount m count) s = .next counted)
    ∧ (hot = 2 → s.fire.machineLatch.get m ≠ some .gateHeat →
      let n := s.fire.nextSequence
      ∃ (w : State) (l : LineUnit), exec (.gateCount m count) s = .next (w.evaluateScreen sc)
        ∧ TripFrame s w ∧ ShowFrame w (w.evaluateScreen sc)
        ∧ w.fire.gates = counted.fire.gates ∧ w.fire.boothLatch = s.fire.boothLatch
        ∧ w.fire.loopOpenMeasure = s.fire.loopOpenMeasure
        -- the other screen, where bindings stand within their screens (PlanLawKept)
        ∧ (PlanLaw s → ∀ j, screenOf j ≠ sc → w.machine j = s.machine j ∧ w.lamp j = s.lamp j)
        ∧ (∀ j, w.fire.machineLatch.get j = if j = m then some .gateHeat else s.fire.machineLatch.get j)
        ∧ (∀ j, let x := s.fire.shutters.get j
            w.fire.shutters.get j =
              if j ≠ m then x
              else if x.state = .opened then { x with magnet := false, state := .dropping, confirm := some 0,
                                                      dropSequence := some n, dropSnapshot := some (s.snapshot m) }
              else { x with magnet := false })
        ∧ (w.machine m).state = .tripped ∧ (w.machine m).douser = .closed
        ∧ (w.machine m).frameCount = (s.machine m).frameCount
        ∧ ((s.machine m).state ≠ .tripped → (w.machine m).stateBeforeTrip = some (s.machine m).state
            ∧ (w.machine m).motor = false ∧ (w.machine m).holds.fire = true ∧ (w.machine m).douserRequest = .closed)
        ∧ (w.lamp m).state ≠ .burning ∧ (w.lamp m).state ≠ .striking
        ∧ ((s.lamp m).state = .burning ∨ (s.lamp m).state = .striking → (w.lamp m).state = .dark
            ∧ (w.lamp m).contactorClosed = false)
        ∧ (∀ c, (w.circuit sc c).output = 255 ∧ ∃ x, (w.circuit sc c).claims.safety = some x ∧ x.target = 255 ∧ x.fade = 0)
        ∧ (∀ x c, x ≠ sc → w.circuit x c = s.circuit x c) ∧ (∀ x, x ≠ sc → w.screen x = s.screen x)
        -- R128: the ON_SCREEN machine halts the screen and stops its partner; the machine waited on leaves a pending start
        ∧ ((s.screen sc).onScreen = some m → (s.screen sc).state.shows = true →
            w.screen sc = (s.screen sc).halt ∧ (w.machine (partnerOf m)).state.running = false
            ∧ (w.lamp (partnerOf m)).state ≠ .burning ∧ (w.lamp (partnerOf m)).state ≠ .striking)
        ∧ ((s.screen sc).onScreen ≠ some m → (s.machine m).state ≠ .runout → s.waitedOn sc = some m →
            (s.screen sc).state.awaits = true →
            w.screen sc = { s.screen sc with
              startGiven := false, startPending := true
              state := match (s.screen sc).state with | .runup => .showing | .swapDue => .showing | y => y })
        ∧ ((s.screen sc).onScreen ≠ some m → s.waitedOn sc ≠ some m ∨ (s.screen sc).state.awaits = false
            ∨ (s.machine m).state = .runout → w.screen sc = s.screen sc)
        -- R117: the reel of the machine, or of the partner stopped, that leaves RUNOUT
        ∧ (PlanLaw s →
            let halts := (s.screen sc).onScreen = some m ∧ (s.screen sc).state.shows = true
            let ends := fun (j : MachineId) => (s.machine j).state = .runout
              ∧ ((¬ halts ∧ j = m) ∨ (halts ∧ j = partnerOf m))
            (halts → l = s.reelEnded (partnerOf m) s.line) ∧ (¬ halts → l = s.reelEnded m s.line)
            ∧ (∀ j k, ends j → (s.machine j).boundSlot = some k →
                (w.machine j).boundSlot = none
                ∧ w.slot sc k = { s.slot sc k with status := .shown, bound := none })
            ∧ (∀ j, ¬ ends j → (w.machine j).boundSlot = (s.machine j).boundSlot)
            ∧ (∀ x k, (∀ j, screenOf j = x → ends j → (s.machine j).boundSlot ≠ some k) → w.slot x k = s.slot x k)
            ∧ ∀ x k, (w.evaluateScreen sc).slot x k = w.slot x k)
        -- the record and the report
        ∧ w.fire.log = (
          { sequence := n, timeOfDay := s.plan.clock, cause := .gateHeat, scope := .machine m,
            machines := [s.snapshot m], lights := s.lightLevels sc,
            outcomes := [(m, match (s.fire.shutters.get m).state with
              | .closed => .closed
              | .stuck => .stuck
              | .opened | .dropping => .pending)], related := none } :: s.fire.log).take 8
        ∧ w.fire.nextSequence = (n + 1) % 65536 ∧ w.line = l.report (.trip .gateHeat (.machine m) n))
    -- the loop
    ∧ ∀ flowing, let closed := s.straps.fireLoop.read flowing
        (closed = s.fire.loopClosed → exec (.loopInputChange flowing) s = .next s)
        ∧ (closed = true → s.fire.loopClosed = false → exec (.loopInputChange flowing) s = .next (s.modFire fun u =>
            { u with loopClosed := true, loopOpenMeasure := none, loopHealthy := some 0, loopHealthySub := 0 }))
        ∧ (closed = false → s.fire.loopClosed = true → exec (.loopInputChange flowing) s = .next (s.modFire fun u =>
            { u with loopClosed := false, loopHealthy := none,
                     loopOpenMeasure := if u.boothLatch = some .loop then none else some 0 }))

/-- What a change of a shutter switch does by the shutter's state and its magnet (R156), and the end of the confirm
measure with the STUCK shutter and its record (R157, R158). The model's choices: a switch read as it stood is no change
(log entry 30), and a measure not running, or of a shutter not DROPPING, changes nothing (log entry 2). -/
def Obligations.ShuttersFollowTheirSwitches : Prop :=
  ∀ (m : MachineId) (flowing : Bool) (s : State), s.powered = true →
    let x := s.fire.shutters.get m
    let put := fun (y : ShutterRec) => s.modFire fun u => { u with shutters := u.shutters.set m y }
    let settled := fun (y : ShutterRec) (st : ShutterState) =>
      { y with state := st, confirm := none, dropSequence := none, dropSnapshot := none }
    let madeO := s.sense m s.straps.shutterOpen flowing
    let madeC := s.sense m s.straps.shutterClosed flowing
    let o := { x with openMade := madeO }
    let c := { x with closedMade := madeC }
    let openSw := exec (.shutterSwitchChange m .openSwitch flowing) s
    let closedSw := exec (.shutterSwitchChange m .closedSwitch flowing) s
    -- no change
    (madeO = x.openMade → openSw = .next s) ∧ (madeC = x.closedMade → closedSw = .next s)
    -- the open switch
    ∧ (madeO = true → x.openMade = false → x.magnet = true → x.state = .closed ∨ x.state = .stuck →
        openSw = .next ((put (settled o .opened)).evaluate m))
    ∧ (madeO = false → x.openMade = true → x.magnet = true → x.state = .opened →
        openSw = .next (((put (settled o .closed)).report (.shutterSag m)).evaluate m))
    ∧ (madeO ≠ x.openMade →
        ¬ (x.magnet = true ∧ ((madeO = true ∧ (x.state = .closed ∨ x.state = .stuck))
          ∨ (madeO = false ∧ x.state = .opened))) → openSw = .next (put o))
    -- the closed switch
    ∧ (madeC = true → x.closedMade = false → x.magnet = false → x.state = .dropping →
        closedSw = .next ((put (settled c .closed)).modFire fun u => { u with log := u.log.map fun r =>
          { r with outcomes := r.outcomes.map fun e => if e = (m, .pending) then (m, .closed) else e } }))
    ∧ (madeC = true → x.closedMade = false → x.state = .stuck → closedSw = .next (put (settled c .closed)))
    ∧ (madeC ≠ x.closedMade → ¬ (madeC = true ∧ (x.state = .stuck ∨ (x.state = .dropping ∧ x.magnet = false))) →
        closedSw = .next (put c))
    -- the confirm measure
    ∧ (∀ snap, x.state = .dropping → x.confirm.isSome = true → x.dropSnapshot = some snap →
        let n := s.fire.nextSequence
        exec (.confirmMeasureExpiry m) s = .next ((s.modFire fun u =>
          { u with
            shutters := u.shutters.set m { x with state := .stuck, confirm := none }
            log := ({ sequence := n, timeOfDay := s.plan.clock, cause := .shutterStuck, scope := .machine m,
                      machines := [snap], lights := [], outcomes := [(m, .stuck)], related := x.dropSequence }
                    :: u.log.map fun r => { r with outcomes := r.outcomes.map fun e =>
                        if e = (m, .pending) then (m, .stuck) else e }).take 8
            nextSequence := (n + 1) % 65536 }).report (.shutterStuck m n x.dropSequence)))
    ∧ (x.state ≠ .dropping ∨ x.confirm = none → exec (.confirmMeasureExpiry m) s = .next s)

/-- RESET m, its tests in their order (R160), and what it releases: the latch, the magnet, the machine emptied (R21),
its film out of the plan, and the lights of a screen with no latch left (R140). The reply is made last (R170). That
ARMED is evaluated once, after all the orders, is the model's choice (log entry 15). -/
def Obligations.ResetReleasesTheMachine : Prop :=
  ∀ (m : MachineId) (a : Text) (s : State), s.powered = true → s.namesMachine a m →
    let c := Instr.resetM [a]
    let sc := screenOf m
    let latch := s.fire.machineLatch.get m
    let sh := s.fire.shutters.get m
    let g := s.fire.gates.get m
    (s.fire.boothLatch.isSome = true → exec c s = .next (s.answered c (.no .trip)))
    ∧ (s.fire.boothLatch = none → latch = none ∨ sh.state = .dropping ∨ g.resetThreshold ≤ g.count →
        exec c s = .next (s.answered c (.no .state)))
    ∧ (s.fire.boothLatch = none → latch.isSome = true → sh.state ≠ .dropping → g.count < g.resetThreshold →
      ∃ w : State, exec c s = .next (((w.evaluateScreen sc).report (.resetMachine m)).answer (.ok []))
        ∧ ShowFrame w (w.evaluateScreen sc)
        ∧ (∀ j, w.fire.machineLatch.get j = if j = m then none else s.fire.machineLatch.get j)
        ∧ (∀ j, w.fire.shutters.get j = if j = m then { sh with magnet := true } else s.fire.shutters.get j)
        ∧ w.fire.gates = s.fire.gates ∧ w.fire.log = s.fire.log ∧ w.fire.nextSequence = s.fire.nextSequence
        ∧ w.line = (s.taken c).line ∧ w.screens = s.screens
        ∧ (∀ j, j ≠ m → w.machine j = s.machine j ∧ w.decoder j = s.decoder j ∧ w.lamp j = s.lamp j)
        ∧ (w.lamp m).state = (s.lamp m).state ∧ LampKept (s.lamp m) (w.lamp m)
        ∧ (w.machine m).state = .empty ∧ (w.machine m).reelId = none ∧ (w.machine m).boundSlot = none
        ∧ (w.machine m).frameCount = 0 ∧ (w.machine m).saturated = false ∧ (w.machine m).armedPosting = false
        ∧ (w.machine m).stateBeforeTrip = none ∧ (w.machine m).holds.fire = false
        ∧ (w.machine m).accelAllowance = (s.machine m).accelAllowance
        ∧ (w.machine m).pictureLost = (s.machine m).pictureLost
        ∧ (∀ n, (s.machine m).boundSlot = some n → ∀ x k, w.slot x k =
            if x = sc ∧ k = n then
              ⟨if (s.screen sc).state ≠ .idle ∧ (s.screen sc).current = some n ∧ (s.screen sc).state ≠ .opening then .cut
                else .loaded, none, (s.slot sc n).entry⟩
            else s.slot x k)
        ∧ ((s.machine m).boundSlot = none → ∀ x k, w.slot x k = s.slot x k)
        ∧ (s.fire.machineLatch.get (partnerOf m) = none → ∀ k, (w.circuit sc k).claims.safety = none)
        ∧ ((s.fire.machineLatch.get (partnerOf m)).isSome = true → ∀ k, w.circuit sc k = s.circuit sc k)
        ∧ (∀ x k, x ≠ sc → w.circuit x k = s.circuit x k))

/-- RESET BOOTH, its tests in their order (R159, R161), and its steps: the latches with cause BOOTH, the machines
returned by the table of R20, the magnets, the lights, then OK and *RESET BOOTH. That both screens are evaluated once, 1
then 2, after all the orders is the model's choice (log entry 15), and that a machine returned to EMPTY keeps the frames
counted while it was TRIPPED (log entry 37). -/
def Obligations.ResetBoothReleasesTheBooth : Prop :=
  ∀ s : State, s.powered = true →
    let c := Instr.resetBooth []
    let healthy := ∃ k, s.fire.loopHealthy = some k ∧ 5 ≤ k
    let dropping := ∃ m, (s.fire.shutters.get m).state = .dropping
    (s.fire.boothLatch = none ∨ ¬ healthy ∨ dropping → exec c s = .next (s.answered c (.no .state)))
    ∧ (∀ w, w ≠ [] → exec (.resetBooth w) s = .next (s.answered (.resetBooth w) (.no .form)))
    ∧ (s.fire.boothLatch.isSome = true → healthy → ¬ dropping →
      ∃ w : State,
        let u := (w.evaluateScreen .s1).evaluateScreen .s2
        exec c s = .next ((u.answer (.ok [])).report .resetBooth) ∧ ShowFrame w u
        ∧ w.fire.boothLatch = none
        ∧ (∀ m, w.fire.machineLatch.get m = if s.fire.machineLatch.get m = some .gateHeat then some .gateHeat else none)
        ∧ (∀ m, w.fire.shutters.get m =
            if s.fire.machineLatch.get m = some .gateHeat then s.fire.shutters.get m
            else { s.fire.shutters.get m with magnet := true })
        ∧ w.fire.gates = s.fire.gates ∧ w.fire.log = s.fire.log ∧ w.fire.nextSequence = s.fire.nextSequence
        ∧ (∀ m, s.fire.machineLatch.get m ≠ some .booth → w.machine m = s.machine m)
        ∧ (∀ m, s.fire.machineLatch.get m = some .booth →
            let r := s.machine m
            -- the entry to STOPPED empties the ring (R29)
            let stops := r.stateBeforeTrip ≠ some .broken ∧ r.reelId ≠ none ∧ r.boundSlot = none
            w.machine m = { r with
              ring := if stops then [] else r.ring
              pulseRef := if stops then false else r.pulseRef
              periodTimer := if stops then none else r.periodTimer
              average := if stops then none else r.average
              cfps := if stops then none else r.cfps
              inBandRun := if stops then 0 else r.inBandRun
              outBandRun := if stops then 0 else r.outBandRun
              stateBeforeTrip := none
              state := if r.stateBeforeTrip = some .broken then .broken else if r.reelId = none then .empty
                else if r.boundSlot.isSome = true then .threaded else .stopped
              breakCause := if r.stateBeforeTrip = some .broken then some .loop else r.breakCause
              armedPosting := if r.stateBeforeTrip ≠ some .broken ∧ r.reelId ≠ none ∧ r.boundSlot.isSome = true then false
                else r.armedPosting
              holds := { r.holds with fire := false,
                                      brk := if r.stateBeforeTrip = some .broken then true else r.holds.brk }
              douser := .closed })
        ∧ (∀ m, w.lamp m = s.lamp m) ∧ w.screens = s.screens ∧ w.plan.tables = s.plan.tables
        ∧ w.line = (s.taken c).line
        ∧ ∀ sc, let held := s.fire.machineLatch.get (lowerOf sc) = some .gateHeat
              ∨ s.fire.machineLatch.get (upperOf sc) = some .gateHeat
            (held → ∀ k, w.circuit sc k = s.circuit sc k)
            ∧ (¬ held → ∀ k, (w.circuit sc k).claims.safety = none
                ∧ ((s.circuit sc k).claims.top = some .safety → (s.circuit sc k).claims.fault = none →
                    (s.circuit sc k).claims.cue = none → (s.circuit sc k).claims.console = none →
                    (w.circuit sc k).output = 255)))

/-- INCLEAR empties the log with no latch set, next sequence standing; FIRESET writes the thresholds it names, the reset
threshold below the trip threshold, and is refused otherwise, its machine operand tested first (R164, R165). What is read as a
number, and the order of its other tests, FORM before RANGE, is the model's choice (log entry 12). -/
def Obligations.FireSettingsAreWritten : Prop :=
  ∀ (m : MachineId) (a : Text) (s : State), s.powered = true → s.namesMachine a m →
    ((s.fire.boothLatch = none ∧ ∀ j, s.fire.machineLatch.get j = none) →
      exec (.inclear []) s = .next (((s.taken (.inclear [])).modFire fun u => { u with log := [] }).answer (.ok [])))
    ∧ (s.fire.boothLatch.isSome = true ∨ (∃ j, (s.fire.machineLatch.get j).isSome = true) →
        exec (.inclear []) s = .next (s.answered (.inclear []) (.no .trip)))
    ∧ (∀ w, w ≠ [] → exec (.inclear w) s = .next (s.answered (.inclear w) (.no .form)))
    ∧ ∀ x y : Nat,
      let trip := txt "TRIP=" ++ fNum x
      let reset := txt "RESET=" ++ fNum y
      let g := s.fire.gates.get m
      let set := fun (ws : List Text) (g' : GateRec) =>
        exec (.fireset (a :: ws)) s = .next (((s.taken (.fireset (a :: ws))).modFire fun u =>
          { u with gates := u.gates.set m g' }).answer (.ok []))
      let no := fun (ws : List Text) (r : Reason) =>
        exec (.fireset (a :: ws)) s = .next (s.answered (.fireset (a :: ws)) (.no r))
      (1 ≤ x → x ≤ 4095 → g.resetThreshold < x → set [trip] { g with tripThreshold := x })
      ∧ (y ≤ 4094 → y < g.tripThreshold → set [reset] { g with resetThreshold := y })
      ∧ (x ≤ 4095 → y < x → set [trip, reset] { g with tripThreshold := x, resetThreshold := y }
          ∧ set [reset, trip] { g with tripThreshold := x, resetThreshold := y })
      ∧ (x ≤ y ∨ 4095 < x → no [trip, reset] .range ∧ no [reset, trip] .range)
      ∧ (x ≤ g.resetThreshold ∨ 4095 < x → no [trip] .range) ∧ (g.tripThreshold ≤ y ∨ 4094 < y → no [reset] .range)
      -- FORM: no operand, a keyword twice, a word that is no TRIP= or RESET= with a number
      ∧ no [] .form
      ∧ (∀ (ws : List Text) (w : Text), w ∈ ws →
          (∀ k v n, keyValue? w = some (k, v) → number? v = some n → k ≠ txt "TRIP" ∧ k ≠ txt "RESET") → no ws .form)
      ∧ (∀ ws k v v', (k = txt "TRIP" ∨ k = txt "RESET") → [k ++ txt "=" ++ v, k ++ txt "=" ++ v'].Sublist ws → no ws .form)
      -- the machine operand: FORM where it is missing or no number, RANGE where it names no machine fitted
      ∧ exec (.fireset []) s = .next (s.answered (.fireset []) (.no .form))
      ∧ ∀ (b : Text) (ws : List Text),
          (number? b = none → exec (.fireset (b :: ws)) s = .next (s.answered (.fireset (b :: ws)) (.no .form)))
          ∧ ∀ n, number? b = some n → (n < 1 ∨ 4 < n ∨ (3 ≤ n ∧ s.straps.screen2Fitted = false)) →
              exec (.fireset (b :: ws)) s = .next (s.answered (.fireset (b :: ws)) (.no .range))

/-! ### The console line (Chapter 9) and power (Chapter 10) -/

/-- Where a new report goes (R171), with the classes of Table 9-3. With it the transmitter's choice: the earlier made of
the reply and the oldest report, a report leaving the queue and a reply staying in its place (R170); that an idle
transmitter takes a line within the event that makes it is DEDUCED (log entry 14). -/
def Obligations.QueueTakesReports : Prop :=
  (∀ (q : List QueuedReport) (new : QueuedReport),
    (q.length < 32 → queueJoin q new = q ++ [new])
    ∧ (32 ≤ q.length → new.report.class_ = .info → queueJoin q new = q)
    ∧ (32 ≤ q.length → new.report.class_ = .alarm →
        (∀ a x b, q = a ++ x :: b → (∀ y ∈ a, y.report.class_ = .alarm) → x.report.class_ = .info →
          queueJoin q new = a ++ b ++ [new])
        ∧ ((∀ y ∈ q, y.report.class_ = .alarm) → queueJoin q new = q)))
  ∧ (∀ (r : Report) (s : State) (l : LineUnit), s.line = l →
    let queue := queueJoin l.queue ⟨r, l.nextOrder⟩
    let made := { l with queue := queue, nextOrder := l.nextOrder + 1 }
    s.report r = { s with line := match l.transmitter with
      | some _ => made
      | none =>
        match l.replyPlace, queue with
        | .full x o, [] => { made with transmitter := some ⟨.reply x, o⟩ }
        | .full x o, q :: qs =>
          if o < q.order then { made with transmitter := some ⟨.reply x, o⟩ }
          else { made with transmitter := some ⟨.report q.report, q.order⟩, queue := qs }
        | _, q :: qs => { made with transmitter := some ⟨.report q.report, q.order⟩, queue := qs }
        | _, [] => made })
  ∧ (∀ r : Report, r.class_ = .alarm ↔
      (∃ a b c, r = .trip a b c) ∨ (∃ a b c, r = .shutterStuck a b c) ∨ (∃ a, r = .shutterSag a)
        ∨ (∃ a b c d, r = .dark a b c d) ∨ (∃ a b c, r = .missed a b c) ∨ (∃ a b c, r = .broke a b c)
        ∨ (∃ a b, r = .arcOut a b) ∨ (∃ a, r = .exhaust a) ∨ (∃ a b c, r = .carbon a b c)
        ∨ (∃ a b, r = .showLate a b) ∨ (∃ a b c, r = .lateFallback a b c) ∨ (∃ a b, r = .lateArmed a b))

/-- R167 to R170 and R174: what a character, the end of a sent line, the break measure's end and a change of the receive
line leave of the line unit; nothing else changes. A dispatched command is `handed` to its owner and acts at the next
step (log entry 3), with what the line unit reads for it at that moment (R173, R178; before the transmitter's next line,
log entry 34); what is made waits for the transmitter, whose choice QueueTakesReports states as `pump` (log entry 14).
The model's choices besides: an idle transmitter and a stopped measure make their event change nothing (log entry 2), a
level as it stood is no change (log entry 30), a break held past its reset is remembered (log entry 23), and the break
measure stops at that reset (log entry 41). -/
def Obligations.LineEventsComplete : Prop :=
  ∀ s : State, s.powered = true →
    let l := s.line
    let held := s.line.breakHeld
    let full := { l with longMark := true }
    -- R169: the oldest line `b` of the buffers `b :: bs` is tested, or handed and the reply place reserved
    let taken := fun (l : LineUnit) (b : ReceivedLine) (bs : List ReceivedLine) =>
      let l := { l with buffers := bs }
      let refuse := fun r => LineUnit.pump { l with replyPlace := .full (.no r) l.nextOrder, nextOrder := l.nextOrder + 1 }
      if b.charMark then refuse .char
      else if b.longMark then refuse .long
      else
        match wordsOf b.text with
        | [] => refuse .verb
        | verb :: ops =>
          match commandOf? verb ops with
          | none => refuse .verb
          | some i => { l with replyPlace := .reserved, handed := some i, reading := match i with
              | .status _ => some (.status s.statusFields)
              | .restart _ => some (.bothIdle ((s.screen .s1).state == .idle && (s.screen .s2).state == .idle))
              | _ => none }
    let dispatched := fun (l : LineUnit) =>
      match l.buffers with
      | b :: bs => if l.replyPlace = .empty ∧ l.handed = none then taken l b bs else l
      | [] => l
    (∀ code badParity badStop, let answers := fun x => exec (.receivedCharacter code badParity badStop) s = .next { s with line := x }
      (held = true → answers l)
      ∧ (held = false → (badParity = true ∨ badStop = true) → answers { l with charMark := true })
      ∧ (held = false → badParity = false → badStop = false →
        (code.toNat ≠ 13 → (code.toNat < 32 ∨ code.toNat = 127) → answers l)
        ∧ (32 ≤ code.toNat → code.toNat ≠ 127 →
            answers (if l.assembly.length < 72 then { l with assembly := l.assembly ++ [Char.ofNat code.toNat] } else full))
        ∧ (code.toNat = 13 →
            let cleared := { l with assembly := [], charMark := false, longMark := false }
            let blank := (∀ c ∈ l.assembly, c = ' ') ∧ l.charMark = false ∧ l.longMark = false
            ((blank ∨ 2 ≤ l.buffers.length) → answers cleared)
            ∧ (¬ blank → l.buffers.length < 2 →
                answers (dispatched { cleared with buffers := l.buffers ++ [⟨l.assembly, l.charMark, l.longMark⟩] })))))
    ∧ (l.transmitter = none → exec .lineSent s = .next s)
    ∧ (∀ t, l.transmitter = some t → exec .lineSent s = .next { s with line := LineUnit.pump (dispatched { l with
        transmitter := none
        replyPlace := match t.content, l.replyPlace with
          | .reply _, .full r o => if o = t.order then .empty else .full r o
          | _, p => p }) })
    ∧ (l.breakMeasure = none → exec .breakMeasureExpiry s = .next s)
    ∧ (l.breakMeasure.isSome = true → ∃ q tx, exec .breakMeasureExpiry s = .next { s with line := { l with
          assembly := [], charMark := false, longMark := false, buffers := []
          replyPlace := if l.replyPlace = .reserved then .reserved else .empty
          queue := q, transmitter := tx, nextOrder := l.nextOrder + 1, breakMeasure := none, breakHeld := true } }
        -- *READY is the only report, and the next line sent
        ∧ (l.transmitter.isSome = true → tx = l.transmitter ∧ q = [⟨.ready, l.nextOrder⟩])
        ∧ (l.transmitter = none → tx = some ⟨.report .ready, l.nextOrder⟩ ∧ q = []))
    ∧ (∀ space, exec (.receiveLineLevelChange space) s = .next { s with line :=
        if space = l.atSpace then l
        else if space then { l with atSpace := true, breakMeasure := some 0 }
        else { l with atSpace := false, breakMeasure := none, breakHeld := false } })

/-- R167 to R169: the line that spells a sendable console command, received character by character and ended by a
carriage return on an idle line unit, hands that very command to its owner, every operand word as sent. That the owner
takes it at a later step, and which verb is RESET BOOTH, is the model's choice (log entry 3). -/
def Obligations.ConsoleLineRoundTrip : Prop :=
  ∀ (i : Instr), i.wellFormed = true → i.operands?.isSome = true →
    ReceivedLine.test ⟨i.line, false, false⟩ = .inr i
    ∧ ∀ l : LineUnit, l.assembly = [] → l.charMark = false → l.longMark = false → l.buffers = [] → l.breakHeld = false →
        l.replyPlace = .empty → l.handed = none →
        (l.receiveAll i.line).receive 13#7 false = { l with replyPlace := .reserved, handed := some i }

/-- R26, R42, R60, R84, R104, R130, R148, R166 and R177 as far as the records say: what POWER_ON leaves whatever stood
before, and what POWER_REMOVED leaves (R175). The model's choices: timebase 0 (log entry 1), POWER_REMOVED (log entry 6),
the reading of the lines of machines not fitted through an INVERT strap, no current flowing (log entry 7), loopHealthySub 0
(log entry 19), *READY in the transmitter at once, with order 0 and next order 1 (log entry 20), and the form of the SAFETY
claims (log entry 25). -/
def Obligations.PowerSetsTheRecords : Prop :=
  (∀ (straps : Straps) (lines : Lines) (s : State),
    -- an input line as it stands, through its strap; the lines of machines not fitted carry no current
    let reading := fun (pol : Quad Polarity) (line : Quad Bool) (m : MachineId) =>
      (pol.get m).read (if screenOf m = .s2 ∧ straps.screen2Fitted = false then false else line.get m)
    ∃ t : State, exec (.powerOn straps lines) s = .next t
    ∧ t.powered = true ∧ t.straps = straps ∧ t.pending = s.pending ∧ t.timebase = 0
    ∧ (∀ m, let r := t.machine m
        r.state = .tripped ∧ r.stateBeforeTrip = some .empty ∧ r.reelId = none ∧ r.boundSlot = none
        ∧ r.breakCause = none ∧ r.pictureLost = none ∧ r.frameCount = 0 ∧ r.saturated = false ∧ r.motor = false
        ∧ r.laceUp = false ∧ r.speed = .stopped ∧ r.douserRequest = .closed ∧ r.douser = .closed
        ∧ r.holds = { speed := false, lamp := true, brk := false, fire := true, console := false }
        ∧ r.armedPosting = false ∧ r.framesSinceOn = 0 ∧ r.atSpeedReached = false ∧ r.accelAllowance = 1200000
        ∧ r.rejected = 0 ∧ r.ring = [] ∧ r.pulseRef = false ∧ r.periodTimer = none ∧ r.noPulseTimer = none
        ∧ r.accelTimer = none ∧ r.average = none ∧ r.cfps = none ∧ r.lastAverage = none ∧ r.inBandRun = 0
        ∧ r.outBandRun = 0 ∧ r.contactorMeasure = none ∧ r.startMeasure = none ∧ r.pulseMeasure = none
        ∧ r.loopSwitchClosed = reading straps.loopSwitch lines.loopSwitch m
        ∧ r.contactorClosed = reading straps.contactorSense lines.contactorSense m
        ∧ t.decoder m = { decode := .idle, patchCount := 0, patchLength := 0, gapFrames := 0, deferred := [] }
        ∧ t.lamp m = LampRec.atPowerOn ∧ (t.lamp m).state = .dark ∧ (t.lamp m).contactorClosed = false
        ∧ (t.lamp m).trim = 0 ∧ (t.lamp m).forecast = 0 ∧ (t.lamp m).nominalRate = 140 ∧ (t.lamp m).setpoint = 550
        ∧ t.fire.machineLatch.get m = some .booth
        ∧ t.fire.gates.get m = { count := 0, hotRun := 0, tripThreshold := 900, resetThreshold := 600 }
        ∧ (let x := t.fire.shutters.get m
           x.magnet = false ∧ x.state = .closed ∧ x.confirm = none ∧ x.dropSequence = none ∧ x.dropSnapshot = none
           ∧ x.openMade = reading straps.shutterOpen lines.shutterOpen m
           ∧ x.closedMade = reading straps.shutterClosed lines.shutterClosed m))
    ∧ t.plan.clock = none ∧ (∀ m, t.plan.lastPosting.get m = false)
    ∧ (∀ sc, t.plan.showAt.get sc = none ∧ t.screen sc = ScreenRec.atPowerOn ∧ (t.screen sc).state = .idle
        ∧ (t.screen sc).mixer = .mute ∧ (t.screen sc).sound = 12 ∧ (t.screen sc).overlap = 2
        ∧ (t.screen sc).margin = 250000
        ∧ (∀ n, t.slot sc n = Slot.cleared) ∧ t.lights.scenes.get sc = scenesAtPowerOn
        ∧ (∀ c, let x := t.circuit sc c
            x.output = 255 ∧ x.delay = some 100
            ∧ (∃ g, x.claims.safety = some g ∧ g.target = 255 ∧ g.fade = 0 ∧ x.claims.top = some .safety)
            ∧ x.claims.fault = none ∧ x.claims.cue = none ∧ x.claims.console = none ∧ x.stepMeasure = none
            ∧ x.armed = none ∧ x.fired = false))
    ∧ t.lights.valid = false ∧ t.lights.crossings = [] ∧ t.lights.halfCycle = 10000 ∧ t.lights.crossingRef = false
    ∧ t.lights.crossingTimer = none
    ∧ t.fire.boothLatch = some .power ∧ t.fire.log = [] ∧ t.fire.nextSequence = 0 ∧ t.fire.loopOpenMeasure = none
    ∧ t.fire.loopClosed = straps.fireLoop.read lines.fireLoop
    ∧ t.fire.loopHealthy = (if straps.fireLoop.read lines.fireLoop then some 0 else none) ∧ t.fire.loopHealthySub = 0
    -- *READY is the first line of the 3100; a line at space has its break measure running
    ∧ t.line = { assembly := [], charMark := false, longMark := false, buffers := [], replyPlace := .empty, handed := none,
                 reading := none, queue := [], transmitter := some ⟨.report .ready, 0⟩, nextOrder := 1,
                 breakMeasure := if lines.receiveSpace then some 0 else none, atSpace := lines.receiveSpace,
                 breakHeld := false })
  ∧ (∀ s : State, ∃ t : State, exec .powerRemoved s = .next t
    ∧ t.powered = false ∧ t.pending = s.pending ∧ t.line.transmitter = none ∧ t.line.queue = []
    ∧ (∀ m, (t.machine m).motor = false ∧ (t.machine m).douser = .closed ∧ (t.lamp m).contactorClosed = false
        ∧ (t.fire.shutters.get m).magnet = false))

/-- R178 and R179: RESTART's two refusals, with the screens as read at its dispatch (as they stand where it was given
directly, log entry 3), and what a RESTART that passes leaves of every block (R27, R42, R60, R85, R104,
R130, R149, R166), its reply made before the only report left, *READY. A lace-up run ends with its motor (BoothLaw, an
invariant: BoothLawKept). -/
def Obligations.RestartClearsTheShow : Prop :=
  ∀ (ops : List Text) (s : State), s.powered = true →
    let idle := if s.line.handed = some (.restart []) ∧ s.line.reading = some (.bothIdle true) then True
      else if s.line.handed = some (.restart []) ∧ s.line.reading = some (.bothIdle false) then False
      else (s.screen .s1).state = .idle ∧ (s.screen .s2).state = .idle
    (ops ≠ [] → exec (.restart ops) s = .next ((s.taken (.restart ops)).answer (.no .form)))
    ∧ (¬ idle →
        exec (.restart []) s = .next ((s.taken (.restart [])).answer (.no .state)))
    ∧ (idle →
      let l := (s.taken (.restart [])).line
      ∃ t : State, exec (.restart []) s = .next t
        ∧ t.powered = true ∧ t.straps = s.straps ∧ t.timebase = s.timebase ∧ t.fire = s.fire ∧ t.pending = s.pending
        ∧ (∀ m, let a := s.machine m; let b := t.machine m; let x := s.lamp m; let y := t.lamp m
            (b.state = if (s.fire.machineLatch.get m).isSome then .tripped else .empty)
            ∧ (b.stateBeforeTrip = if (s.fire.machineLatch.get m).isSome then some .empty else none)
            ∧ b.motor = false ∧ (BoothLaw s → b.laceUp = false) ∧ b.reelId = none ∧ b.boundSlot = none ∧ b.frameCount = 0
            ∧ b.saturated = false ∧ b.armedPosting = false ∧ b.rejected = 0 ∧ b.pictureLost = none ∧ b.breakCause = none
            ∧ b.douserRequest = .closed ∧ b.holds.console = false ∧ b.holds.brk = false
            ∧ b.holds.fire = a.holds.fire ∧ b.accelAllowance = a.accelAllowance ∧ b.douser = .closed
            -- R42: the speed records; the status stands until the no-pulse timer's end (R33)
            ∧ b.ring = [] ∧ b.pulseRef = false ∧ b.periodTimer = none ∧ b.accelTimer = none ∧ b.average = none
            ∧ b.cfps = none ∧ b.inBandRun = 0 ∧ b.outBandRun = 0 ∧ b.lastAverage = a.lastAverage ∧ b.speed = a.speed
            ∧ b.noPulseTimer = (if a.motor then some 0 else a.noPulseTimer)
            ∧ b.holds.speed = (if a.motor then false else a.holds.speed)
            ∧ t.decoder m = DecoderRec.atPowerOn
            ∧ (y.state = if x.state = .exhausted then .exhausted else .dark) ∧ y.faultCause = none
            ∧ (x.state = .burning → b.holds.lamp = true)
            ∧ y.phase = none ∧ y.attempt = 0 ∧ y.restrike = false ∧ y.shortGapRetract = none
            ∧ y.contactorClosed = false ∧ y.feedDuty = 0 ∧ y.openBucket = none ∧ y.bucketMeasure = none
            ∧ y.trim = x.trim ∧ y.consumed = x.consumed ∧ y.buckets = x.buckets ∧ y.completed = x.completed
            ∧ y.stub = 40 ∧ y.nominalRate = 140 ∧ y.setpoint = 550 ∧ y.holdingDuty = 96 ∧ y.gain = 8
            ∧ y.strikeLead = 60 ∧ y.reserve = 60
            -- R85: the forecast recomputed with the default settings
            ∧ y.forecast = min 65535 (y.remaining * 60 / y.rateInUse)
            ∧ y.boundLength = none ∧ y.carbonOk = none ∧ y.shortfallReported = false)
        ∧ t.plan.clock = s.plan.clock ∧ t.plan.clockSecond = s.plan.clockSecond
        ∧ (∀ sc, t.plan.showAt.get sc = none ∧ (∀ n, t.slot sc n = Slot.cleared) ∧ t.screen sc = ScreenRec.atPowerOn
            ∧ t.lights.scenes.get sc = scenesAtPowerOn
            ∧ ∀ c, let x := s.circuit sc c; let y := t.circuit sc c
                y.claims.fault = none ∧ y.claims.cue = none ∧ y.claims.console = none
                ∧ sameClaim y.claims.safety x.claims.safety
                ∧ (x.claims.safety = none → (x.claims.fault.isSome ∨ x.claims.cue.isSome ∨ x.claims.console.isSome) →
                    y.output = 255 ∧ y.stepMeasure = none))
        ∧ (∀ m, t.plan.lastPosting.get m = false)
        ∧ t.lights.crossings = s.lights.crossings ∧ t.lights.crossingRef = s.lights.crossingRef
        ∧ t.lights.halfCycle = s.lights.halfCycle ∧ t.lights.valid = s.lights.valid
        -- the line unit
        ∧ t.line.assembly = l.assembly ∧ t.line.buffers = l.buffers ∧ t.line.nextOrder = l.nextOrder + 2
        ∧ t.line.replyPlace = .full (.ok []) l.nextOrder
        ∧ (l.transmitter.isSome = true → t.line.transmitter = l.transmitter)
        ∧ (l.transmitter = none → l.queue = [] → t.line.transmitter = some ⟨.reply (.ok []), l.nextOrder⟩)
        ∧ t.line.queue = [⟨.ready, l.nextOrder + 1⟩])
end

