-- ==== Sys2Proof/Laws/State.lean ====
section
/-! SUPPORT. The small lemmas of the records: reading after writing one machine's, screen's or circuit's record, and what
each named operation leaves of each field of State. -/

namespace Sys2Proof

variable {α β : Type}

/-! ### Indexed records -/

@[simp] theorem Quad.get_set_self (q : Quad α) (m : MachineId) (a : α) : (q.set m a).get m = a := by cases m <;> rfl

theorem Quad.get_set_ne (q : Quad α) {m k : MachineId} (a : α) (h : k ≠ m) : (q.set m a).get k = q.get k := by
  cases m <;> cases k <;> first | rfl | exact absurd rfl h

theorem Quad.get_set (q : Quad α) (m k : MachineId) (a : α) :
    (q.set m a).get k = if k = m then a else q.get k := by
  by_cases h : k = m
  · subst h; simp
  · simp [h, Quad.get_set_ne]

@[simp] theorem Quad.set_get_self (q : Quad α) (m : MachineId) : q.set m (q.get m) = q := by cases m <;> rfl

@[simp] theorem Quad.set_set (q : Quad α) (m : MachineId) (a b : α) : (q.set m a).set m b = q.set m b := by
  cases m <;> rfl

@[simp] theorem Quad.get_map (f : α → β) (q : Quad α) (m : MachineId) : (q.map f).get m = f (q.get m) := by
  cases m <;> rfl

theorem Quad.ext_get {p q : Quad α} (h : ∀ m, p.get m = q.get m) : p = q := by
  cases p; cases q
  have h1 := h .m1
  have h2 := h .m2
  have h3 := h .m3
  have h4 := h .m4
  simp only [Quad.get] at h1 h2 h3 h4
  simp [h1, h2, h3, h4]

@[simp] theorem Pair.get_set_self (p : Pair α) (sc : ScreenId) (a : α) : (p.set sc a).get sc = a := by
  cases sc <;> rfl

theorem Pair.get_set_ne (p : Pair α) {sc k : ScreenId} (a : α) (h : k ≠ sc) : (p.set sc a).get k = p.get k := by
  cases sc <;> cases k <;> first | rfl | exact absurd rfl h

theorem Pair.get_set (p : Pair α) (sc k : ScreenId) (a : α) :
    (p.set sc a).get k = if k = sc then a else p.get k := by
  by_cases h : k = sc
  · subst h; simp
  · simp [h, Pair.get_set_ne]

@[simp] theorem Pair.set_get_self (p : Pair α) (sc : ScreenId) : p.set sc (p.get sc) = p := by cases sc <;> rfl

@[simp] theorem Pair.set_set (p : Pair α) (sc : ScreenId) (a b : α) : (p.set sc a).set sc b = p.set sc b := by
  cases sc <;> rfl

@[simp] theorem Pair.get_map (f : α → β) (p : Pair α) (sc : ScreenId) : (p.map f).get sc = f (p.get sc) := by
  cases sc <;> rfl

theorem Pair.ext_get {p q : Pair α} (h : ∀ sc, p.get sc = q.get sc) : p = q := by
  cases p; cases q
  have h1 := h .s1
  have h2 := h .s2
  simp only [Pair.get] at h1 h2
  simp [h1, h2]

@[simp] theorem Triple.get_set_self (t : Triple α) (c : CircuitId) (a : α) : (t.set c a).get c = a := by
  cases c <;> rfl

theorem Triple.get_set_ne (t : Triple α) {c k : CircuitId} (a : α) (h : k ≠ c) : (t.set c a).get k = t.get k := by
  cases c <;> cases k <;> first | rfl | exact absurd rfl h

theorem Triple.get_set (t : Triple α) (c k : CircuitId) (a : α) :
    (t.set c a).get k = if k = c then a else t.get k := by
  by_cases h : k = c
  · subst h; simp
  · simp [h, Triple.get_set_ne]

@[simp] theorem Triple.get_map (f : α → β) (t : Triple α) (c : CircuitId) : (t.map f).get c = f (t.get c) := by
  cases c <;> rfl

end Sys2Proof

namespace Sys2Proof.Machine

open Sys2Proof

@[simp] theorem Quad.get_same {α : Type} (a : α) (m : MachineId) : (Quad.same a).get m = a := by cases m <;> rfl

@[simp] theorem Pair.get_same {α : Type} (a : α) (sc : ScreenId) : (Pair.same a).get sc = a := by cases sc <;> rfl

@[simp] theorem Triple.get_same {α : Type} (a : α) (c : CircuitId) : (Triple.same a).get c = a := by cases c <;> rfl

@[simp] theorem partnerOf_partnerOf (m : MachineId) : partnerOf (partnerOf m) = m := by cases m <;> rfl

@[simp] theorem screenOf_partnerOf (m : MachineId) : screenOf (partnerOf m) = screenOf m := by cases m <;> rfl

@[simp] theorem partnerOf_ne (m : MachineId) : partnerOf m ≠ m := by cases m <;> decide

@[simp] theorem screenOf_lowerOf (sc : ScreenId) : screenOf (lowerOf sc) = sc := by cases sc <;> rfl

@[simp] theorem screenOf_upperOf (sc : ScreenId) : screenOf (upperOf sc) = sc := by cases sc <;> rfl

/-! ### What each operation leaves of each field -/

@[simp] theorem State.modLine_powered (f : LineUnit → LineUnit) (s : State) : (s.modLine f).powered = s.powered := rfl
@[simp] theorem State.modLine_straps (f : LineUnit → LineUnit) (s : State) : (s.modLine f).straps = s.straps := rfl
@[simp] theorem State.modLine_timebase (f : LineUnit → LineUnit) (s : State) :
    (s.modLine f).timebase = s.timebase := rfl
@[simp] theorem State.modLine_machines (f : LineUnit → LineUnit) (s : State) :
    (s.modLine f).machines = s.machines := rfl
@[simp] theorem State.modLine_decoders (f : LineUnit → LineUnit) (s : State) :
    (s.modLine f).decoders = s.decoders := rfl
@[simp] theorem State.modLine_lamps (f : LineUnit → LineUnit) (s : State) : (s.modLine f).lamps = s.lamps := rfl
@[simp] theorem State.modLine_plan (f : LineUnit → LineUnit) (s : State) : (s.modLine f).plan = s.plan := rfl
@[simp] theorem State.modLine_screens (f : LineUnit → LineUnit) (s : State) : (s.modLine f).screens = s.screens := rfl
@[simp] theorem State.modLine_lights (f : LineUnit → LineUnit) (s : State) : (s.modLine f).lights = s.lights := rfl
@[simp] theorem State.modLine_fire (f : LineUnit → LineUnit) (s : State) : (s.modLine f).fire = s.fire := rfl
@[simp] theorem State.modLine_line (f : LineUnit → LineUnit) (s : State) : (s.modLine f).line = f s.line := rfl
@[simp] theorem State.modLine_pending (f : LineUnit → LineUnit) (s : State) : (s.modLine f).pending = s.pending := rfl

@[simp] theorem State.report_powered (r : Report) (s : State) : (s.report r).powered = s.powered := rfl
@[simp] theorem State.report_straps (r : Report) (s : State) : (s.report r).straps = s.straps := rfl
@[simp] theorem State.report_timebase (r : Report) (s : State) : (s.report r).timebase = s.timebase := rfl
@[simp] theorem State.report_machines (r : Report) (s : State) : (s.report r).machines = s.machines := rfl
@[simp] theorem State.report_decoders (r : Report) (s : State) : (s.report r).decoders = s.decoders := rfl
@[simp] theorem State.report_lamps (r : Report) (s : State) : (s.report r).lamps = s.lamps := rfl
@[simp] theorem State.report_plan (r : Report) (s : State) : (s.report r).plan = s.plan := rfl
@[simp] theorem State.report_screens (r : Report) (s : State) : (s.report r).screens = s.screens := rfl
@[simp] theorem State.report_lights (r : Report) (s : State) : (s.report r).lights = s.lights := rfl
@[simp] theorem State.report_fire (r : Report) (s : State) : (s.report r).fire = s.fire := rfl
@[simp] theorem State.report_line (r : Report) (s : State) : (s.report r).line = s.line.report r := rfl
@[simp] theorem State.report_pending (r : Report) (s : State) : (s.report r).pending = s.pending := rfl

@[simp] theorem State.answer_powered (r : Reply) (s : State) : (s.answer r).powered = s.powered := rfl
@[simp] theorem State.answer_straps (r : Reply) (s : State) : (s.answer r).straps = s.straps := rfl
@[simp] theorem State.answer_timebase (r : Reply) (s : State) : (s.answer r).timebase = s.timebase := rfl
@[simp] theorem State.answer_machines (r : Reply) (s : State) : (s.answer r).machines = s.machines := rfl
@[simp] theorem State.answer_decoders (r : Reply) (s : State) : (s.answer r).decoders = s.decoders := rfl
@[simp] theorem State.answer_lamps (r : Reply) (s : State) : (s.answer r).lamps = s.lamps := rfl
@[simp] theorem State.answer_plan (r : Reply) (s : State) : (s.answer r).plan = s.plan := rfl
@[simp] theorem State.answer_screens (r : Reply) (s : State) : (s.answer r).screens = s.screens := rfl
@[simp] theorem State.answer_lights (r : Reply) (s : State) : (s.answer r).lights = s.lights := rfl
@[simp] theorem State.answer_fire (r : Reply) (s : State) : (s.answer r).fire = s.fire := rfl
@[simp] theorem State.answer_line (r : Reply) (s : State) : (s.answer r).line = s.line.answer r := rfl
@[simp] theorem State.answer_pending (r : Reply) (s : State) : (s.answer r).pending = s.pending := rfl

@[simp] theorem State.modMachine_powered (m : MachineId) (f : MachineRec → MachineRec) (s : State) :
    (s.modMachine m f).powered = s.powered := rfl
@[simp] theorem State.modMachine_straps (m : MachineId) (f : MachineRec → MachineRec) (s : State) :
    (s.modMachine m f).straps = s.straps := rfl
@[simp] theorem State.modMachine_timebase (m : MachineId) (f : MachineRec → MachineRec) (s : State) :
    (s.modMachine m f).timebase = s.timebase := rfl
@[simp] theorem State.modMachine_machines (m : MachineId) (f : MachineRec → MachineRec) (s : State) :
    (s.modMachine m f).machines = s.machines.set m (f (s.machine m)).settleDouser := rfl
@[simp] theorem State.modMachine_decoders (m : MachineId) (f : MachineRec → MachineRec) (s : State) :
    (s.modMachine m f).decoders =
      s.decoders.set m ((s.decoder m).follow (s.machine m) (f (s.machine m)).settleDouser) := rfl
@[simp] theorem State.modMachine_lamps (m : MachineId) (f : MachineRec → MachineRec) (s : State) :
    (s.modMachine m f).lamps = s.lamps := rfl
@[simp] theorem State.modMachine_plan (m : MachineId) (f : MachineRec → MachineRec) (s : State) :
    (s.modMachine m f).plan = s.plan.noteMachine m (f (s.machine m)).settleDouser.state := rfl
@[simp] theorem State.modMachine_screens (m : MachineId) (f : MachineRec → MachineRec) (s : State) :
    (s.modMachine m f).screens = s.screens := rfl
@[simp] theorem State.modMachine_lights (m : MachineId) (f : MachineRec → MachineRec) (s : State) :
    (s.modMachine m f).lights = s.lights := rfl
@[simp] theorem State.modMachine_fire (m : MachineId) (f : MachineRec → MachineRec) (s : State) :
    (s.modMachine m f).fire = s.fire := rfl
@[simp] theorem State.modMachine_line (m : MachineId) (f : MachineRec → MachineRec) (s : State) :
    (s.modMachine m f).line = s.line := rfl
@[simp] theorem State.modMachine_pending (m : MachineId) (f : MachineRec → MachineRec) (s : State) :
    (s.modMachine m f).pending = s.pending := rfl

@[simp] theorem State.modDecoder_powered (m : MachineId) (f : DecoderRec → DecoderRec) (s : State) :
    (s.modDecoder m f).powered = s.powered := rfl
@[simp] theorem State.modDecoder_straps (m : MachineId) (f : DecoderRec → DecoderRec) (s : State) :
    (s.modDecoder m f).straps = s.straps := rfl
@[simp] theorem State.modDecoder_timebase (m : MachineId) (f : DecoderRec → DecoderRec) (s : State) :
    (s.modDecoder m f).timebase = s.timebase := rfl
@[simp] theorem State.modDecoder_machines (m : MachineId) (f : DecoderRec → DecoderRec) (s : State) :
    (s.modDecoder m f).machines = s.machines := rfl
@[simp] theorem State.modDecoder_decoders (m : MachineId) (f : DecoderRec → DecoderRec) (s : State) :
    (s.modDecoder m f).decoders = s.decoders.set m (f (s.decoder m)) := rfl
@[simp] theorem State.modDecoder_lamps (m : MachineId) (f : DecoderRec → DecoderRec) (s : State) :
    (s.modDecoder m f).lamps = s.lamps := rfl
@[simp] theorem State.modDecoder_plan (m : MachineId) (f : DecoderRec → DecoderRec) (s : State) :
    (s.modDecoder m f).plan = s.plan := rfl
@[simp] theorem State.modDecoder_screens (m : MachineId) (f : DecoderRec → DecoderRec) (s : State) :
    (s.modDecoder m f).screens = s.screens := rfl
@[simp] theorem State.modDecoder_lights (m : MachineId) (f : DecoderRec → DecoderRec) (s : State) :
    (s.modDecoder m f).lights = s.lights := rfl
@[simp] theorem State.modDecoder_fire (m : MachineId) (f : DecoderRec → DecoderRec) (s : State) :
    (s.modDecoder m f).fire = s.fire := rfl
@[simp] theorem State.modDecoder_line (m : MachineId) (f : DecoderRec → DecoderRec) (s : State) :
    (s.modDecoder m f).line = s.line := rfl
@[simp] theorem State.modDecoder_pending (m : MachineId) (f : DecoderRec → DecoderRec) (s : State) :
    (s.modDecoder m f).pending = s.pending := rfl

@[simp] theorem State.holdRequest_powered (m : MachineId) (r : HoldReason) (b : Bool) (s : State) :
    (s.holdRequest m r b).powered = s.powered := rfl
@[simp] theorem State.holdRequest_straps (m : MachineId) (r : HoldReason) (b : Bool) (s : State) :
    (s.holdRequest m r b).straps = s.straps := rfl
@[simp] theorem State.holdRequest_timebase (m : MachineId) (r : HoldReason) (b : Bool) (s : State) :
    (s.holdRequest m r b).timebase = s.timebase := rfl
@[simp] theorem State.holdRequest_lamps (m : MachineId) (r : HoldReason) (b : Bool) (s : State) :
    (s.holdRequest m r b).lamps = s.lamps := rfl
@[simp] theorem State.holdRequest_screens (m : MachineId) (r : HoldReason) (b : Bool) (s : State) :
    (s.holdRequest m r b).screens = s.screens := rfl
@[simp] theorem State.holdRequest_lights (m : MachineId) (r : HoldReason) (b : Bool) (s : State) :
    (s.holdRequest m r b).lights = s.lights := rfl
@[simp] theorem State.holdRequest_fire (m : MachineId) (r : HoldReason) (b : Bool) (s : State) :
    (s.holdRequest m r b).fire = s.fire := rfl
@[simp] theorem State.holdRequest_line (m : MachineId) (r : HoldReason) (b : Bool) (s : State) :
    (s.holdRequest m r b).line = s.line := rfl
@[simp] theorem State.holdRequest_pending (m : MachineId) (r : HoldReason) (b : Bool) (s : State) :
    (s.holdRequest m r b).pending = s.pending := rfl

@[simp] theorem State.modLamp_powered (m : MachineId) (f : LampRec → LampRec) (s : State) :
    (s.modLamp m f).powered = s.powered := by unfold State.modLamp; dsimp only; split <;> rfl
@[simp] theorem State.modLamp_straps (m : MachineId) (f : LampRec → LampRec) (s : State) :
    (s.modLamp m f).straps = s.straps := by unfold State.modLamp; dsimp only; split <;> rfl
@[simp] theorem State.modLamp_timebase (m : MachineId) (f : LampRec → LampRec) (s : State) :
    (s.modLamp m f).timebase = s.timebase := by unfold State.modLamp; dsimp only; split <;> rfl
@[simp] theorem State.modLamp_lamps (m : MachineId) (f : LampRec → LampRec) (s : State) :
    (s.modLamp m f).lamps = s.lamps.set m (f (s.lamp m)) := by unfold State.modLamp; dsimp only; split <;> rfl
@[simp] theorem State.modLamp_screens (m : MachineId) (f : LampRec → LampRec) (s : State) :
    (s.modLamp m f).screens = s.screens := by unfold State.modLamp; dsimp only; split <;> rfl
@[simp] theorem State.modLamp_lights (m : MachineId) (f : LampRec → LampRec) (s : State) :
    (s.modLamp m f).lights = s.lights := by unfold State.modLamp; dsimp only; split <;> rfl
@[simp] theorem State.modLamp_fire (m : MachineId) (f : LampRec → LampRec) (s : State) :
    (s.modLamp m f).fire = s.fire := by unfold State.modLamp; dsimp only; split <;> rfl
@[simp] theorem State.modLamp_line (m : MachineId) (f : LampRec → LampRec) (s : State) :
    (s.modLamp m f).line = s.line := by unfold State.modLamp; dsimp only; split <;> rfl
@[simp] theorem State.modLamp_pending (m : MachineId) (f : LampRec → LampRec) (s : State) :
    (s.modLamp m f).pending = s.pending := by unfold State.modLamp; dsimp only; split <;> rfl

@[simp] theorem State.modPlan_powered (f : PlanStore → PlanStore) (s : State) :
    (s.modPlan f).powered = s.powered := rfl
@[simp] theorem State.modPlan_straps (f : PlanStore → PlanStore) (s : State) : (s.modPlan f).straps = s.straps := rfl
@[simp] theorem State.modPlan_timebase (f : PlanStore → PlanStore) (s : State) :
    (s.modPlan f).timebase = s.timebase := rfl
@[simp] theorem State.modPlan_machines (f : PlanStore → PlanStore) (s : State) :
    (s.modPlan f).machines = s.machines := rfl
@[simp] theorem State.modPlan_decoders (f : PlanStore → PlanStore) (s : State) :
    (s.modPlan f).decoders = s.decoders := rfl
@[simp] theorem State.modPlan_lamps (f : PlanStore → PlanStore) (s : State) : (s.modPlan f).lamps = s.lamps := rfl
@[simp] theorem State.modPlan_plan (f : PlanStore → PlanStore) (s : State) : (s.modPlan f).plan = f s.plan := rfl
@[simp] theorem State.modPlan_screens (f : PlanStore → PlanStore) (s : State) :
    (s.modPlan f).screens = s.screens := rfl
@[simp] theorem State.modPlan_lights (f : PlanStore → PlanStore) (s : State) : (s.modPlan f).lights = s.lights := rfl
@[simp] theorem State.modPlan_fire (f : PlanStore → PlanStore) (s : State) : (s.modPlan f).fire = s.fire := rfl
@[simp] theorem State.modPlan_line (f : PlanStore → PlanStore) (s : State) : (s.modPlan f).line = s.line := rfl
@[simp] theorem State.modPlan_pending (f : PlanStore → PlanStore) (s : State) :
    (s.modPlan f).pending = s.pending := rfl

@[simp] theorem State.modSlot_powered (sc : ScreenId) (n : SlotIx) (f : Slot → Slot) (s : State) :
    (s.modSlot sc n f).powered = s.powered := rfl
@[simp] theorem State.modSlot_straps (sc : ScreenId) (n : SlotIx) (f : Slot → Slot) (s : State) :
    (s.modSlot sc n f).straps = s.straps := rfl
@[simp] theorem State.modSlot_timebase (sc : ScreenId) (n : SlotIx) (f : Slot → Slot) (s : State) :
    (s.modSlot sc n f).timebase = s.timebase := rfl
@[simp] theorem State.modSlot_machines (sc : ScreenId) (n : SlotIx) (f : Slot → Slot) (s : State) :
    (s.modSlot sc n f).machines = s.machines := rfl
@[simp] theorem State.modSlot_decoders (sc : ScreenId) (n : SlotIx) (f : Slot → Slot) (s : State) :
    (s.modSlot sc n f).decoders = s.decoders := rfl
@[simp] theorem State.modSlot_lamps (sc : ScreenId) (n : SlotIx) (f : Slot → Slot) (s : State) :
    (s.modSlot sc n f).lamps = s.lamps := rfl
@[simp] theorem State.modSlot_plan (sc : ScreenId) (n : SlotIx) (f : Slot → Slot) (s : State) :
    (s.modSlot sc n f).plan = s.plan.putSlot sc n (f (s.slot sc n)) := rfl
@[simp] theorem State.modSlot_screens (sc : ScreenId) (n : SlotIx) (f : Slot → Slot) (s : State) :
    (s.modSlot sc n f).screens = s.screens := rfl
@[simp] theorem State.modSlot_lights (sc : ScreenId) (n : SlotIx) (f : Slot → Slot) (s : State) :
    (s.modSlot sc n f).lights = s.lights := rfl
@[simp] theorem State.modSlot_fire (sc : ScreenId) (n : SlotIx) (f : Slot → Slot) (s : State) :
    (s.modSlot sc n f).fire = s.fire := rfl
@[simp] theorem State.modSlot_line (sc : ScreenId) (n : SlotIx) (f : Slot → Slot) (s : State) :
    (s.modSlot sc n f).line = s.line := rfl
@[simp] theorem State.modSlot_pending (sc : ScreenId) (n : SlotIx) (f : Slot → Slot) (s : State) :
    (s.modSlot sc n f).pending = s.pending := rfl

@[simp] theorem State.modScreen_powered (sc : ScreenId) (f : ScreenRec → ScreenRec) (s : State) :
    (s.modScreen sc f).powered = s.powered := rfl
@[simp] theorem State.modScreen_straps (sc : ScreenId) (f : ScreenRec → ScreenRec) (s : State) :
    (s.modScreen sc f).straps = s.straps := rfl
@[simp] theorem State.modScreen_timebase (sc : ScreenId) (f : ScreenRec → ScreenRec) (s : State) :
    (s.modScreen sc f).timebase = s.timebase := rfl
@[simp] theorem State.modScreen_machines (sc : ScreenId) (f : ScreenRec → ScreenRec) (s : State) :
    (s.modScreen sc f).machines = s.machines := rfl
@[simp] theorem State.modScreen_decoders (sc : ScreenId) (f : ScreenRec → ScreenRec) (s : State) :
    (s.modScreen sc f).decoders = s.decoders := rfl
@[simp] theorem State.modScreen_lamps (sc : ScreenId) (f : ScreenRec → ScreenRec) (s : State) :
    (s.modScreen sc f).lamps = s.lamps := rfl
@[simp] theorem State.modScreen_plan (sc : ScreenId) (f : ScreenRec → ScreenRec) (s : State) :
    (s.modScreen sc f).plan = s.plan := rfl
@[simp] theorem State.modScreen_screens (sc : ScreenId) (f : ScreenRec → ScreenRec) (s : State) :
    (s.modScreen sc f).screens = s.screens.set sc (f (s.screen sc)) := rfl
@[simp] theorem State.modScreen_lights (sc : ScreenId) (f : ScreenRec → ScreenRec) (s : State) :
    (s.modScreen sc f).lights = s.lights := rfl
@[simp] theorem State.modScreen_fire (sc : ScreenId) (f : ScreenRec → ScreenRec) (s : State) :
    (s.modScreen sc f).fire = s.fire := rfl
@[simp] theorem State.modScreen_line (sc : ScreenId) (f : ScreenRec → ScreenRec) (s : State) :
    (s.modScreen sc f).line = s.line := rfl
@[simp] theorem State.modScreen_pending (sc : ScreenId) (f : ScreenRec → ScreenRec) (s : State) :
    (s.modScreen sc f).pending = s.pending := rfl

@[simp] theorem State.modLights_powered (f : HouseLights → HouseLights) (s : State) :
    (s.modLights f).powered = s.powered := rfl
@[simp] theorem State.modLights_straps (f : HouseLights → HouseLights) (s : State) :
    (s.modLights f).straps = s.straps := rfl
@[simp] theorem State.modLights_timebase (f : HouseLights → HouseLights) (s : State) :
    (s.modLights f).timebase = s.timebase := rfl
@[simp] theorem State.modLights_machines (f : HouseLights → HouseLights) (s : State) :
    (s.modLights f).machines = s.machines := rfl
@[simp] theorem State.modLights_decoders (f : HouseLights → HouseLights) (s : State) :
    (s.modLights f).decoders = s.decoders := rfl
@[simp] theorem State.modLights_lamps (f : HouseLights → HouseLights) (s : State) :
    (s.modLights f).lamps = s.lamps := rfl
@[simp] theorem State.modLights_plan (f : HouseLights → HouseLights) (s : State) :
    (s.modLights f).plan = s.plan := rfl
@[simp] theorem State.modLights_screens (f : HouseLights → HouseLights) (s : State) :
    (s.modLights f).screens = s.screens := rfl
@[simp] theorem State.modLights_lights (f : HouseLights → HouseLights) (s : State) :
    (s.modLights f).lights = f s.lights := rfl
@[simp] theorem State.modLights_fire (f : HouseLights → HouseLights) (s : State) :
    (s.modLights f).fire = s.fire := rfl
@[simp] theorem State.modLights_line (f : HouseLights → HouseLights) (s : State) :
    (s.modLights f).line = s.line := rfl
@[simp] theorem State.modLights_pending (f : HouseLights → HouseLights) (s : State) :
    (s.modLights f).pending = s.pending := rfl

@[simp] theorem State.modCircuit_powered (sc : ScreenId) (c : CircuitId) (f : Nat → Circuit → Circuit) (s : State) :
    (s.modCircuit sc c f).powered = s.powered := rfl
@[simp] theorem State.modCircuit_straps (sc : ScreenId) (c : CircuitId) (f : Nat → Circuit → Circuit) (s : State) :
    (s.modCircuit sc c f).straps = s.straps := rfl
@[simp] theorem State.modCircuit_timebase (sc : ScreenId) (c : CircuitId) (f : Nat → Circuit → Circuit) (s : State) :
    (s.modCircuit sc c f).timebase = s.timebase := rfl
@[simp] theorem State.modCircuit_machines (sc : ScreenId) (c : CircuitId) (f : Nat → Circuit → Circuit) (s : State) :
    (s.modCircuit sc c f).machines = s.machines := rfl
@[simp] theorem State.modCircuit_decoders (sc : ScreenId) (c : CircuitId) (f : Nat → Circuit → Circuit) (s : State) :
    (s.modCircuit sc c f).decoders = s.decoders := rfl
@[simp] theorem State.modCircuit_lamps (sc : ScreenId) (c : CircuitId) (f : Nat → Circuit → Circuit) (s : State) :
    (s.modCircuit sc c f).lamps = s.lamps := rfl
@[simp] theorem State.modCircuit_plan (sc : ScreenId) (c : CircuitId) (f : Nat → Circuit → Circuit) (s : State) :
    (s.modCircuit sc c f).plan = s.plan := rfl
@[simp] theorem State.modCircuit_screens (sc : ScreenId) (c : CircuitId) (f : Nat → Circuit → Circuit) (s : State) :
    (s.modCircuit sc c f).screens = s.screens := rfl
@[simp] theorem State.modCircuit_fire (sc : ScreenId) (c : CircuitId) (f : Nat → Circuit → Circuit) (s : State) :
    (s.modCircuit sc c f).fire = s.fire := rfl
@[simp] theorem State.modCircuit_line (sc : ScreenId) (c : CircuitId) (f : Nat → Circuit → Circuit) (s : State) :
    (s.modCircuit sc c f).line = s.line := rfl
@[simp] theorem State.modCircuit_pending (sc : ScreenId) (c : CircuitId) (f : Nat → Circuit → Circuit) (s : State) :
    (s.modCircuit sc c f).pending = s.pending := rfl

@[simp] theorem State.modFire_powered (f : FireUnit → FireUnit) (s : State) : (s.modFire f).powered = s.powered := rfl
@[simp] theorem State.modFire_straps (f : FireUnit → FireUnit) (s : State) : (s.modFire f).straps = s.straps := rfl
@[simp] theorem State.modFire_timebase (f : FireUnit → FireUnit) (s : State) :
    (s.modFire f).timebase = s.timebase := rfl
@[simp] theorem State.modFire_machines (f : FireUnit → FireUnit) (s : State) :
    (s.modFire f).machines = s.machines := rfl
@[simp] theorem State.modFire_decoders (f : FireUnit → FireUnit) (s : State) :
    (s.modFire f).decoders = s.decoders := rfl
@[simp] theorem State.modFire_lamps (f : FireUnit → FireUnit) (s : State) : (s.modFire f).lamps = s.lamps := rfl
@[simp] theorem State.modFire_plan (f : FireUnit → FireUnit) (s : State) : (s.modFire f).plan = s.plan := rfl
@[simp] theorem State.modFire_screens (f : FireUnit → FireUnit) (s : State) : (s.modFire f).screens = s.screens := rfl
@[simp] theorem State.modFire_lights (f : FireUnit → FireUnit) (s : State) : (s.modFire f).lights = s.lights := rfl
@[simp] theorem State.modFire_fire (f : FireUnit → FireUnit) (s : State) : (s.modFire f).fire = f s.fire := rfl
@[simp] theorem State.modFire_line (f : FireUnit → FireUnit) (s : State) : (s.modFire f).line = s.line := rfl
@[simp] theorem State.modFire_pending (f : FireUnit → FireUnit) (s : State) : (s.modFire f).pending = s.pending := rfl

@[simp] theorem State.modShutter_powered (m : MachineId) (f : ShutterRec → ShutterRec) (s : State) :
    (s.modShutter m f).powered = s.powered := rfl
@[simp] theorem State.modShutter_straps (m : MachineId) (f : ShutterRec → ShutterRec) (s : State) :
    (s.modShutter m f).straps = s.straps := rfl
@[simp] theorem State.modShutter_timebase (m : MachineId) (f : ShutterRec → ShutterRec) (s : State) :
    (s.modShutter m f).timebase = s.timebase := rfl
@[simp] theorem State.modShutter_machines (m : MachineId) (f : ShutterRec → ShutterRec) (s : State) :
    (s.modShutter m f).machines = s.machines := rfl
@[simp] theorem State.modShutter_decoders (m : MachineId) (f : ShutterRec → ShutterRec) (s : State) :
    (s.modShutter m f).decoders = s.decoders := rfl
@[simp] theorem State.modShutter_lamps (m : MachineId) (f : ShutterRec → ShutterRec) (s : State) :
    (s.modShutter m f).lamps = s.lamps := rfl
@[simp] theorem State.modShutter_plan (m : MachineId) (f : ShutterRec → ShutterRec) (s : State) :
    (s.modShutter m f).plan = s.plan := rfl
@[simp] theorem State.modShutter_screens (m : MachineId) (f : ShutterRec → ShutterRec) (s : State) :
    (s.modShutter m f).screens = s.screens := rfl
@[simp] theorem State.modShutter_lights (m : MachineId) (f : ShutterRec → ShutterRec) (s : State) :
    (s.modShutter m f).lights = s.lights := rfl
@[simp] theorem State.modShutter_fire (m : MachineId) (f : ShutterRec → ShutterRec) (s : State) :
    (s.modShutter m f).fire = { s.fire with shutters := s.fire.shutters.set m (f (s.fire.shutters.get m)) } := rfl
@[simp] theorem State.modShutter_line (m : MachineId) (f : ShutterRec → ShutterRec) (s : State) :
    (s.modShutter m f).line = s.line := rfl
@[simp] theorem State.modShutter_pending (m : MachineId) (f : ShutterRec → ShutterRec) (s : State) :
    (s.modShutter m f).pending = s.pending := rfl

@[simp] theorem State.elapse_powered (dt : Nat) (s : State) : (s.elapse dt).powered = s.powered := rfl
@[simp] theorem State.elapse_straps (dt : Nat) (s : State) : (s.elapse dt).straps = s.straps := rfl
@[simp] theorem State.elapse_timebase (dt : Nat) (s : State) : (s.elapse dt).timebase = s.timebase + dt := rfl
@[simp] theorem State.elapse_machines (dt : Nat) (s : State) :
    (s.elapse dt).machines = s.machines.map (MachineRec.elapse dt) := rfl
@[simp] theorem State.elapse_decoders (dt : Nat) (s : State) : (s.elapse dt).decoders = s.decoders := rfl
@[simp] theorem State.elapse_lamps (dt : Nat) (s : State) :
    (s.elapse dt).lamps = s.lamps.map (LampRec.elapse dt) := rfl
@[simp] theorem State.elapse_plan (dt : Nat) (s : State) : (s.elapse dt).plan = s.plan.elapse dt := rfl
@[simp] theorem State.elapse_screens (dt : Nat) (s : State) :
    (s.elapse dt).screens = s.screens.map (ScreenRec.elapse dt) := rfl
@[simp] theorem State.elapse_lights (dt : Nat) (s : State) : (s.elapse dt).lights = s.lights.elapse dt := rfl
@[simp] theorem State.elapse_fire (dt : Nat) (s : State) : (s.elapse dt).fire = s.fire.elapse dt := rfl
@[simp] theorem State.elapse_line (dt : Nat) (s : State) : (s.elapse dt).line = s.line.elapse dt := rfl
@[simp] theorem State.elapse_pending (dt : Nat) (s : State) : (s.elapse dt).pending = s.pending := rfl

/-! ### The accessors across operations that do not touch their record -/

@[simp] theorem State.modLine_machine (f : LineUnit → LineUnit) (s : State) (k : MachineId) :
    (s.modLine f).machine k = s.machine k := rfl
@[simp] theorem State.modLine_decoder (f : LineUnit → LineUnit) (s : State) (k : MachineId) :
    (s.modLine f).decoder k = s.decoder k := rfl
@[simp] theorem State.modLine_lamp (f : LineUnit → LineUnit) (s : State) (k : MachineId) :
    (s.modLine f).lamp k = s.lamp k := rfl
@[simp] theorem State.modLine_screen (f : LineUnit → LineUnit) (s : State) (k : ScreenId) :
    (s.modLine f).screen k = s.screen k := rfl
@[simp] theorem State.modLine_slot (f : LineUnit → LineUnit) (s : State) (k : ScreenId) (n : SlotIx) :
    (s.modLine f).slot k n = s.slot k n := rfl
@[simp] theorem State.modLine_circuit (f : LineUnit → LineUnit) (s : State) (k : ScreenId) (c : CircuitId) :
    (s.modLine f).circuit k c = s.circuit k c := rfl

@[simp] theorem State.report_machine (r : Report) (s : State) (k : MachineId) :
    (s.report r).machine k = s.machine k := rfl
@[simp] theorem State.report_decoder (r : Report) (s : State) (k : MachineId) :
    (s.report r).decoder k = s.decoder k := rfl
@[simp] theorem State.report_lamp (r : Report) (s : State) (k : MachineId) : (s.report r).lamp k = s.lamp k := rfl
@[simp] theorem State.report_screen (r : Report) (s : State) (k : ScreenId) :
    (s.report r).screen k = s.screen k := rfl
@[simp] theorem State.report_slot (r : Report) (s : State) (k : ScreenId) (n : SlotIx) :
    (s.report r).slot k n = s.slot k n := rfl
@[simp] theorem State.report_circuit (r : Report) (s : State) (k : ScreenId) (c : CircuitId) :
    (s.report r).circuit k c = s.circuit k c := rfl

@[simp] theorem State.answer_machine (r : Reply) (s : State) (k : MachineId) :
    (s.answer r).machine k = s.machine k := rfl
@[simp] theorem State.answer_decoder (r : Reply) (s : State) (k : MachineId) :
    (s.answer r).decoder k = s.decoder k := rfl
@[simp] theorem State.answer_lamp (r : Reply) (s : State) (k : MachineId) : (s.answer r).lamp k = s.lamp k := rfl
@[simp] theorem State.answer_screen (r : Reply) (s : State) (k : ScreenId) : (s.answer r).screen k = s.screen k := rfl
@[simp] theorem State.answer_slot (r : Reply) (s : State) (k : ScreenId) (n : SlotIx) :
    (s.answer r).slot k n = s.slot k n := rfl
@[simp] theorem State.answer_circuit (r : Reply) (s : State) (k : ScreenId) (c : CircuitId) :
    (s.answer r).circuit k c = s.circuit k c := rfl

@[simp] theorem State.modMachine_lamp (m : MachineId) (f : MachineRec → MachineRec) (s : State) (k : MachineId) :
    (s.modMachine m f).lamp k = s.lamp k := rfl
@[simp] theorem State.modMachine_screen (m : MachineId) (f : MachineRec → MachineRec) (s : State) (k : ScreenId) :
    (s.modMachine m f).screen k = s.screen k := rfl
@[simp] theorem State.modMachine_circuit (m : MachineId) (f : MachineRec → MachineRec) (s : State) (k : ScreenId) (c : CircuitId) :
    (s.modMachine m f).circuit k c = s.circuit k c := rfl

@[simp] theorem State.modDecoder_machine (m : MachineId) (f : DecoderRec → DecoderRec) (s : State) (k : MachineId) :
    (s.modDecoder m f).machine k = s.machine k := rfl
@[simp] theorem State.modDecoder_lamp (m : MachineId) (f : DecoderRec → DecoderRec) (s : State) (k : MachineId) :
    (s.modDecoder m f).lamp k = s.lamp k := rfl
@[simp] theorem State.modDecoder_screen (m : MachineId) (f : DecoderRec → DecoderRec) (s : State) (k : ScreenId) :
    (s.modDecoder m f).screen k = s.screen k := rfl
@[simp] theorem State.modDecoder_slot (m : MachineId) (f : DecoderRec → DecoderRec) (s : State) (k : ScreenId) (n : SlotIx) :
    (s.modDecoder m f).slot k n = s.slot k n := rfl
@[simp] theorem State.modDecoder_circuit (m : MachineId) (f : DecoderRec → DecoderRec) (s : State) (k : ScreenId) (c : CircuitId) :
    (s.modDecoder m f).circuit k c = s.circuit k c := rfl

@[simp] theorem State.modLamp_screen (m : MachineId) (f : LampRec → LampRec) (s : State) (k : ScreenId) :
    (s.modLamp m f).screen k = s.screen k := by simp [State.screen]
@[simp] theorem State.modLamp_circuit (m : MachineId) (f : LampRec → LampRec) (s : State) (k : ScreenId) (c : CircuitId) :
    (s.modLamp m f).circuit k c = s.circuit k c := by simp [State.circuit]

@[simp] theorem State.modPlan_machine (f : PlanStore → PlanStore) (s : State) (k : MachineId) :
    (s.modPlan f).machine k = s.machine k := rfl
@[simp] theorem State.modPlan_decoder (f : PlanStore → PlanStore) (s : State) (k : MachineId) :
    (s.modPlan f).decoder k = s.decoder k := rfl
@[simp] theorem State.modPlan_lamp (f : PlanStore → PlanStore) (s : State) (k : MachineId) :
    (s.modPlan f).lamp k = s.lamp k := rfl
@[simp] theorem State.modPlan_screen (f : PlanStore → PlanStore) (s : State) (k : ScreenId) :
    (s.modPlan f).screen k = s.screen k := rfl
@[simp] theorem State.modPlan_circuit (f : PlanStore → PlanStore) (s : State) (k : ScreenId) (c : CircuitId) :
    (s.modPlan f).circuit k c = s.circuit k c := rfl

@[simp] theorem State.modSlot_machine (sc : ScreenId) (n : SlotIx) (f : Slot → Slot) (s : State) (k : MachineId) :
    (s.modSlot sc n f).machine k = s.machine k := rfl
@[simp] theorem State.modSlot_decoder (sc : ScreenId) (n : SlotIx) (f : Slot → Slot) (s : State) (k : MachineId) :
    (s.modSlot sc n f).decoder k = s.decoder k := rfl
@[simp] theorem State.modSlot_lamp (sc : ScreenId) (n : SlotIx) (f : Slot → Slot) (s : State) (k : MachineId) :
    (s.modSlot sc n f).lamp k = s.lamp k := rfl
@[simp] theorem State.modSlot_screen (sc : ScreenId) (n : SlotIx) (f : Slot → Slot) (s : State) (k : ScreenId) :
    (s.modSlot sc n f).screen k = s.screen k := rfl
@[simp] theorem State.modSlot_circuit (sc : ScreenId) (n : SlotIx) (f : Slot → Slot) (s : State) (k : ScreenId) (c : CircuitId) :
    (s.modSlot sc n f).circuit k c = s.circuit k c := rfl

@[simp] theorem State.modScreen_machine (sc : ScreenId) (f : ScreenRec → ScreenRec) (s : State) (k : MachineId) :
    (s.modScreen sc f).machine k = s.machine k := rfl
@[simp] theorem State.modScreen_decoder (sc : ScreenId) (f : ScreenRec → ScreenRec) (s : State) (k : MachineId) :
    (s.modScreen sc f).decoder k = s.decoder k := rfl
@[simp] theorem State.modScreen_lamp (sc : ScreenId) (f : ScreenRec → ScreenRec) (s : State) (k : MachineId) :
    (s.modScreen sc f).lamp k = s.lamp k := rfl
@[simp] theorem State.modScreen_slot (sc : ScreenId) (f : ScreenRec → ScreenRec) (s : State) (k : ScreenId) (n : SlotIx) :
    (s.modScreen sc f).slot k n = s.slot k n := rfl
@[simp] theorem State.modScreen_circuit (sc : ScreenId) (f : ScreenRec → ScreenRec) (s : State) (k : ScreenId) (c : CircuitId) :
    (s.modScreen sc f).circuit k c = s.circuit k c := rfl

@[simp] theorem State.modLights_machine (f : HouseLights → HouseLights) (s : State) (k : MachineId) :
    (s.modLights f).machine k = s.machine k := rfl
@[simp] theorem State.modLights_decoder (f : HouseLights → HouseLights) (s : State) (k : MachineId) :
    (s.modLights f).decoder k = s.decoder k := rfl
@[simp] theorem State.modLights_lamp (f : HouseLights → HouseLights) (s : State) (k : MachineId) :
    (s.modLights f).lamp k = s.lamp k := rfl
@[simp] theorem State.modLights_screen (f : HouseLights → HouseLights) (s : State) (k : ScreenId) :
    (s.modLights f).screen k = s.screen k := rfl
@[simp] theorem State.modLights_slot (f : HouseLights → HouseLights) (s : State) (k : ScreenId) (n : SlotIx) :
    (s.modLights f).slot k n = s.slot k n := rfl

@[simp] theorem State.modCircuit_machine (sc : ScreenId) (c : CircuitId) (f : Nat → Circuit → Circuit) (s : State) (k : MachineId) :
    (s.modCircuit sc c f).machine k = s.machine k := rfl
@[simp] theorem State.modCircuit_decoder (sc : ScreenId) (c : CircuitId) (f : Nat → Circuit → Circuit) (s : State) (k : MachineId) :
    (s.modCircuit sc c f).decoder k = s.decoder k := rfl
@[simp] theorem State.modCircuit_lamp (sc : ScreenId) (c : CircuitId) (f : Nat → Circuit → Circuit) (s : State) (k : MachineId) :
    (s.modCircuit sc c f).lamp k = s.lamp k := rfl
@[simp] theorem State.modCircuit_screen (sc : ScreenId) (c : CircuitId) (f : Nat → Circuit → Circuit) (s : State) (k : ScreenId) :
    (s.modCircuit sc c f).screen k = s.screen k := rfl
@[simp] theorem State.modCircuit_slot (sc : ScreenId) (c : CircuitId) (f : Nat → Circuit → Circuit) (s : State) (k : ScreenId) (n : SlotIx) :
    (s.modCircuit sc c f).slot k n = s.slot k n := rfl

@[simp] theorem State.modFire_machine (f : FireUnit → FireUnit) (s : State) (k : MachineId) :
    (s.modFire f).machine k = s.machine k := rfl
@[simp] theorem State.modFire_decoder (f : FireUnit → FireUnit) (s : State) (k : MachineId) :
    (s.modFire f).decoder k = s.decoder k := rfl
@[simp] theorem State.modFire_lamp (f : FireUnit → FireUnit) (s : State) (k : MachineId) :
    (s.modFire f).lamp k = s.lamp k := rfl
@[simp] theorem State.modFire_screen (f : FireUnit → FireUnit) (s : State) (k : ScreenId) :
    (s.modFire f).screen k = s.screen k := rfl
@[simp] theorem State.modFire_slot (f : FireUnit → FireUnit) (s : State) (k : ScreenId) (n : SlotIx) :
    (s.modFire f).slot k n = s.slot k n := rfl
@[simp] theorem State.modFire_circuit (f : FireUnit → FireUnit) (s : State) (k : ScreenId) (c : CircuitId) :
    (s.modFire f).circuit k c = s.circuit k c := rfl

@[simp] theorem State.modShutter_machine (m : MachineId) (f : ShutterRec → ShutterRec) (s : State) (k : MachineId) :
    (s.modShutter m f).machine k = s.machine k := rfl
@[simp] theorem State.modShutter_decoder (m : MachineId) (f : ShutterRec → ShutterRec) (s : State) (k : MachineId) :
    (s.modShutter m f).decoder k = s.decoder k := rfl
@[simp] theorem State.modShutter_lamp (m : MachineId) (f : ShutterRec → ShutterRec) (s : State) (k : MachineId) :
    (s.modShutter m f).lamp k = s.lamp k := rfl
@[simp] theorem State.modShutter_screen (m : MachineId) (f : ShutterRec → ShutterRec) (s : State) (k : ScreenId) :
    (s.modShutter m f).screen k = s.screen k := rfl
@[simp] theorem State.modShutter_slot (m : MachineId) (f : ShutterRec → ShutterRec) (s : State) (k : ScreenId) (n : SlotIx) :
    (s.modShutter m f).slot k n = s.slot k n := rfl
@[simp] theorem State.modShutter_circuit (m : MachineId) (f : ShutterRec → ShutterRec) (s : State) (k : ScreenId) (c : CircuitId) :
    (s.modShutter m f).circuit k c = s.circuit k c := rfl

/-! ### The accessors across operations on their own record -/

@[simp] theorem State.modMachine_machine (m k : MachineId) (f : MachineRec → MachineRec) (s : State) :
    (s.modMachine m f).machine k = if k = m then (f (s.machine m)).settleDouser else s.machine k := by
  simp [State.machine, Quad.get_set]

@[simp] theorem State.modMachine_slot (m : MachineId) (f : MachineRec → MachineRec) (s : State) (sc : ScreenId)
    (n : SlotIx) : (s.modMachine m f).slot sc n = s.slot sc n := by
  simp only [State.slot, State.modMachine_plan, PlanStore.noteMachine]
  split <;> rfl

@[simp] theorem State.modDecoder_decoder (m k : MachineId) (f : DecoderRec → DecoderRec) (s : State) :
    (s.modDecoder m f).decoder k = if k = m then f (s.decoder m) else s.decoder k := by
  simp [State.decoder, Quad.get_set]

@[simp] theorem State.modLamp_lamp (m k : MachineId) (f : LampRec → LampRec) (s : State) :
    (s.modLamp m f).lamp k = if k = m then f (s.lamp m) else s.lamp k := by
  simp [State.lamp, Quad.get_set]

/-- The machine record after a lamp's change: LAMP follows BURNING (R62). -/
theorem State.modLamp_machine (m k : MachineId) (f : LampRec → LampRec) (s : State) :
    (s.modLamp m f).machine k =
      if k = m ∧ ¬(((s.lamp m).state == .burning) = ((f (s.lamp m)).state == .burning)) then
        MachineRec.settleDouser { s.machine m with
          holds := (s.machine m).holds.put .lamp ((f (s.lamp m)).state != .burning) }
      else s.machine k := by
  unfold State.modLamp
  dsimp only
  split
  · simp_all [State.machine]
  · simp_all [State.holdRequest]
    by_cases h : k = m <;> simp [h, State.machine]

@[simp] theorem State.modLamp_slot (m : MachineId) (f : LampRec → LampRec) (s : State) (sc : ScreenId) (n : SlotIx) :
    (s.modLamp m f).slot sc n = s.slot sc n := by
  unfold State.modLamp
  dsimp only
  split
  · rfl
  · simp only [State.holdRequest, State.modMachine_slot]; rfl

@[simp] theorem State.modScreen_screen (sc k : ScreenId) (f : ScreenRec → ScreenRec) (s : State) :
    (s.modScreen sc f).screen k = if k = sc then f (s.screen sc) else s.screen k := by
  simp [State.screen, Pair.get_set]

theorem State.modSlot_slot (sc k : ScreenId) (n j : SlotIx) (f : Slot → Slot) (s : State) :
    (s.modSlot sc n f).slot k j = if k = sc ∧ j = n then f (s.slot sc n) else s.slot k j := by
  simp only [State.slot, State.modSlot_plan, PlanStore.putSlot, Pair.get_set]
  by_cases h : k = sc
  · subst h
    by_cases g : j = n
    · subst g; simp
    · have : (n : Nat) ≠ j := fun e => g (Fin.ext e.symm)
      simp [g, this]
  · simp [h]

@[simp] theorem State.modSlot_slot_self (sc : ScreenId) (n : SlotIx) (f : Slot → Slot) (s : State) :
    (s.modSlot sc n f).slot sc n = f (s.slot sc n) := by simp [State.modSlot_slot]

theorem State.modCircuit_circuit (sc k : ScreenId) (c d : CircuitId) (f : Nat → Circuit → Circuit) (s : State) :
    (s.modCircuit sc c f).circuit k d =
      if k = sc ∧ d = c then f s.lights.halfCycle (s.circuit sc c) else s.circuit k d := by
  simp only [State.circuit, State.modCircuit, State.modLights, Pair.get_set]
  by_cases h : k = sc
  · subst h
    by_cases g : d = c
    · subst g; simp
    · simp [g, Triple.get_set]
  · simp [h]

@[simp] theorem State.modCircuit_halfCycle (sc : ScreenId) (c : CircuitId) (f : Nat → Circuit → Circuit) (s : State) :
    (s.modCircuit sc c f).lights.halfCycle = s.lights.halfCycle := rfl

@[simp] theorem State.modCircuit_scenes (sc : ScreenId) (c : CircuitId) (f : Nat → Circuit → Circuit) (s : State) :
    (s.modCircuit sc c f).lights.scenes = s.lights.scenes := rfl

/-! ### The hold set -/

@[simp] theorem HoldSet.has_put (h : HoldSet) (r q : HoldReason) (b : Bool) :
    (h.put r b).has q = if q = r then b else h.has q := by cases r <;> cases q <;> rfl

theorem HoldSet.isEmpty_iff (h : HoldSet) : h.isEmpty = true ↔ ∀ r, h.has r = false := by
  constructor
  · intro e r
    cases r <;> simp_all [HoldSet.isEmpty, HoldSet.has]
  · intro e
    have h1 := e .speed
    have h2 := e .lamp
    have h3 := e .brk
    have h4 := e .fire
    have h5 := e .console
    simp_all [HoldSet.isEmpty, HoldSet.has]

@[simp] theorem HoldSet.put_lamp_speed (h : HoldSet) (b : Bool) : (h.put .lamp b).speed = h.speed := rfl
@[simp] theorem HoldSet.put_speed_speed (h : HoldSet) (b : Bool) : (h.put .speed b).speed = b := rfl
@[simp] theorem HoldSet.put_lamp_lamp (h : HoldSet) (b : Bool) : (h.put .lamp b).lamp = b := rfl
@[simp] theorem HoldSet.put_speed_lamp (h : HoldSet) (b : Bool) : (h.put .speed b).lamp = h.lamp := rfl
@[simp] theorem HoldSet.put_brk_brk (h : HoldSet) (b : Bool) : (h.put .brk b).brk = b := rfl
@[simp] theorem HoldSet.put_fire_fire (h : HoldSet) (b : Bool) : (h.put .fire b).fire = b := rfl

/-! ### The douser -/

@[simp] theorem MachineRec.settleDouser_state (r : MachineRec) : r.settleDouser.state = r.state := rfl
@[simp] theorem MachineRec.settleDouser_reelId (r : MachineRec) : r.settleDouser.reelId = r.reelId := rfl
@[simp] theorem MachineRec.settleDouser_boundSlot (r : MachineRec) : r.settleDouser.boundSlot = r.boundSlot := rfl
@[simp] theorem MachineRec.settleDouser_frameCount (r : MachineRec) : r.settleDouser.frameCount = r.frameCount := rfl
@[simp] theorem MachineRec.settleDouser_saturated (r : MachineRec) : r.settleDouser.saturated = r.saturated := rfl
@[simp] theorem MachineRec.settleDouser_motor (r : MachineRec) : r.settleDouser.motor = r.motor := rfl
@[simp] theorem MachineRec.settleDouser_laceUp (r : MachineRec) : r.settleDouser.laceUp = r.laceUp := rfl
@[simp] theorem MachineRec.settleDouser_speed (r : MachineRec) : r.settleDouser.speed = r.speed := rfl
@[simp] theorem MachineRec.settleDouser_douserRequest (r : MachineRec) :
    r.settleDouser.douserRequest = r.douserRequest := rfl
@[simp] theorem MachineRec.settleDouser_holds (r : MachineRec) : r.settleDouser.holds = r.holds := rfl
@[simp] theorem MachineRec.settleDouser_armedPosting (r : MachineRec) :
    r.settleDouser.armedPosting = r.armedPosting := rfl
@[simp] theorem MachineRec.settleDouser_breakCause (r : MachineRec) : r.settleDouser.breakCause = r.breakCause := rfl
@[simp] theorem MachineRec.settleDouser_stateBeforeTrip (r : MachineRec) :
    r.settleDouser.stateBeforeTrip = r.stateBeforeTrip := rfl
@[simp] theorem MachineRec.settleDouser_motorOnTime (r : MachineRec) :
    r.settleDouser.motorOnTime = r.motorOnTime := rfl
@[simp] theorem MachineRec.settleDouser_framesSinceOn (r : MachineRec) :
    r.settleDouser.framesSinceOn = r.framesSinceOn := rfl
@[simp] theorem MachineRec.settleDouser_atSpeedReached (r : MachineRec) :
    r.settleDouser.atSpeedReached = r.atSpeedReached := rfl
@[simp] theorem MachineRec.settleDouser_accelAllowance (r : MachineRec) :
    r.settleDouser.accelAllowance = r.accelAllowance := rfl
@[simp] theorem MachineRec.settleDouser_pictureLost (r : MachineRec) :
    r.settleDouser.pictureLost = r.pictureLost := rfl
@[simp] theorem MachineRec.settleDouser_rejected (r : MachineRec) : r.settleDouser.rejected = r.rejected := rfl
@[simp] theorem MachineRec.settleDouser_ring (r : MachineRec) : r.settleDouser.ring = r.ring := rfl
@[simp] theorem MachineRec.settleDouser_pulseRef (r : MachineRec) : r.settleDouser.pulseRef = r.pulseRef := rfl
@[simp] theorem MachineRec.settleDouser_periodTimer (r : MachineRec) :
    r.settleDouser.periodTimer = r.periodTimer := rfl
@[simp] theorem MachineRec.settleDouser_average (r : MachineRec) : r.settleDouser.average = r.average := rfl
@[simp] theorem MachineRec.settleDouser_cfps (r : MachineRec) : r.settleDouser.cfps = r.cfps := rfl
@[simp] theorem MachineRec.settleDouser_lastAverage (r : MachineRec) :
    r.settleDouser.lastAverage = r.lastAverage := rfl
@[simp] theorem MachineRec.settleDouser_inBandRun (r : MachineRec) : r.settleDouser.inBandRun = r.inBandRun := rfl
@[simp] theorem MachineRec.settleDouser_outBandRun (r : MachineRec) : r.settleDouser.outBandRun = r.outBandRun := rfl
@[simp] theorem MachineRec.settleDouser_noPulseTimer (r : MachineRec) :
    r.settleDouser.noPulseTimer = r.noPulseTimer := rfl
@[simp] theorem MachineRec.settleDouser_accelTimer (r : MachineRec) : r.settleDouser.accelTimer = r.accelTimer := rfl
@[simp] theorem MachineRec.settleDouser_contactorMeasure (r : MachineRec) :
    r.settleDouser.contactorMeasure = r.contactorMeasure := rfl
@[simp] theorem MachineRec.settleDouser_startMeasure (r : MachineRec) :
    r.settleDouser.startMeasure = r.startMeasure := rfl
@[simp] theorem MachineRec.settleDouser_pulseMeasure (r : MachineRec) :
    r.settleDouser.pulseMeasure = r.pulseMeasure := rfl
@[simp] theorem MachineRec.settleDouser_loopSwitchClosed (r : MachineRec) :
    r.settleDouser.loopSwitchClosed = r.loopSwitchClosed := rfl
@[simp] theorem MachineRec.settleDouser_contactorClosed (r : MachineRec) :
    r.settleDouser.contactorClosed = r.contactorClosed := rfl

/-- The douser is open exactly where R15 lets it be. -/
theorem MachineRec.settleDouser_opened (r : MachineRec) :
    r.settleDouser.douser = .opened ↔ r.state = .onScreen ∧ r.douserRequest = .opened ∧ r.holds.isEmpty = true := by
  simp only [MachineRec.settleDouser]
  split <;> simp_all

/-! ### What a command taken leaves of the line unit -/

/-- A command taken: it was handed and is no more, or nothing changes. -/
theorem LineUnit.unhand_cases (i : Instr) (l : LineUnit) :
    (l.handed = some i ∧ l.unhand i = { l with handed := none, reading := none }) ∨ (l.handed ≠ some i ∧ l.unhand i = l) := by
  unfold LineUnit.unhand
  split
  · exact .inl ⟨‹_›, rfl⟩
  · exact .inr ⟨‹_›, rfl⟩

@[simp] theorem LineUnit.unhand_assembly (i : Instr) (l : LineUnit) : (l.unhand i).assembly = l.assembly := by
  unfold LineUnit.unhand; split <;> rfl
@[simp] theorem LineUnit.unhand_charMark (i : Instr) (l : LineUnit) : (l.unhand i).charMark = l.charMark := by
  unfold LineUnit.unhand; split <;> rfl
@[simp] theorem LineUnit.unhand_longMark (i : Instr) (l : LineUnit) : (l.unhand i).longMark = l.longMark := by
  unfold LineUnit.unhand; split <;> rfl
@[simp] theorem LineUnit.unhand_buffers (i : Instr) (l : LineUnit) : (l.unhand i).buffers = l.buffers := by
  unfold LineUnit.unhand; split <;> rfl
@[simp] theorem LineUnit.unhand_replyPlace (i : Instr) (l : LineUnit) : (l.unhand i).replyPlace = l.replyPlace := by
  unfold LineUnit.unhand; split <;> rfl
@[simp] theorem LineUnit.unhand_queue (i : Instr) (l : LineUnit) : (l.unhand i).queue = l.queue := by
  unfold LineUnit.unhand; split <;> rfl
@[simp] theorem LineUnit.unhand_nextOrder (i : Instr) (l : LineUnit) : (l.unhand i).nextOrder = l.nextOrder := by
  unfold LineUnit.unhand; split <;> rfl
@[simp] theorem LineUnit.unhand_transmitter (i : Instr) (l : LineUnit) : (l.unhand i).transmitter = l.transmitter := by
  unfold LineUnit.unhand; split <;> rfl
@[simp] theorem LineUnit.unhand_breakMeasure (i : Instr) (l : LineUnit) : (l.unhand i).breakMeasure = l.breakMeasure := by
  unfold LineUnit.unhand; split <;> rfl
@[simp] theorem LineUnit.unhand_breakHeld (i : Instr) (l : LineUnit) : (l.unhand i).breakHeld = l.breakHeld := by
  unfold LineUnit.unhand; split <;> rfl
@[simp] theorem LineUnit.unhand_atSpace (i : Instr) (l : LineUnit) : (l.unhand i).atSpace = l.atSpace := by
  unfold LineUnit.unhand; split <;> rfl

end Sys2Proof.Machine
end

