-- ==== Sys2Proof/Laws/Reactions.lean ====
section
/-! SUPPORT. What the changeover controller and the blocks it calls on can do to the state, said once: a reaction is one
report, one order to a machine or a lamp, one claim placed or released below SAFETY, one slot notice, or one change of a
screen's record. Every operation of Machine/Controller.lean is a run of reactions. -/

namespace Sys2Proof.Machine

open Sys2Proof

/-! ### Orders -/

/-- What the controller or the plan store asks of a machine unit in a show. -/
inductive Order
  | settle
  | start (t : Nat)
  | takeScreen (lost : Option Nat)
  | giveUp
  | stop
  | fail (cause : BreakCause)
  | posting (yes : Bool)
  | reject

/-- The order as the machine unit takes it. -/
def Order.run : Order → MachineRec → MachineRec
  | .settle, r => r
  | .start t, r => r.startOrder t
  | .takeScreen lost, r => r.takeScreen lost
  | .giveUp, r => r.giveUp
  | .stop, r => r.enterStopped
  | .fail c, r => r.enterBroken c
  | .posting y, r => r.takePosting y
  | .reject, r => r.countRejected

/-- When the order is given. -/
def Order.allowed (r : MachineRec) : Order → Prop
  | .stop | .fail _ => r.state.running = true
  | .posting _ => r.state.judged = true
  | .settle | .start _ | .takeScreen _ | .giveUp | .reject => True

/-- What the controller asks of a lamp unit in a show. -/
inductive LampOrder
  | strike
  | putOut
  | flag

/-- The order as the lamp unit takes it. -/
def LampOrder.run : LampOrder → LampRec → LampRec
  | .strike, l => l.beginStrike
  | .putOut, l => l.putOut
  | .flag, l => { l with shortfallReported := true }

/-- When the order is given: a strike only where R64's tests pass. -/
def LampOrder.allowed (fireHeld : Bool) (l : LampRec) : LampOrder → Prop
  | .strike => strikeDecline fireHeld l = none
  | .putOut | .flag => True

/-- A change of a screen's record that leaves its settings. -/
def KeepsSettings (f : ScreenRec → ScreenRec) : Prop :=
  ∀ x, (f x).overlap = x.overlap ∧ (f x).margin = x.margin ∧ (f x).cueTable = x.cueTable

/-- The ranks a screen may claim at (R131). -/
def Rank.ofScreen : Rank → Prop
  | .cue | .fault => True
  | .safety | .console => False

/-! ### Reactions -/

/-- One reaction of the show. -/
inductive Reaction : State → State → Prop
  | report (r : Report) (s : State) : Reaction s (s.report r)
  | screen (sc : ScreenId) (f : ScreenRec → ScreenRec) (s : State) (h : KeepsSettings f) : Reaction s (s.modScreen sc f)
  | emptyDeferred (m : MachineId) (s : State) : Reaction s (s.modDecoder m fun d => { d with deferred := [] })
  | defer (m : MachineId) (c : DeferredCue) (s : State) (h : (s.decoder m).deferred.length < Config.deferredSize) :
      Reaction s (s.modDecoder m fun d => { d with deferred := d.deferred ++ [c] })
  | notePosting (m : MachineId) (y : Bool) (s : State) (h : (s.machine m).state.judged = true) :
      Reaction s (s.modPlan fun p => { p with lastPosting := p.lastPosting.set m y })
  | order (m : MachineId) (o : Order) (s : State) (h : o.allowed (s.machine m)) : Reaction s (s.modMachine m o.run)
  | lamp (m : MachineId) (o : LampOrder) (s : State) (h : o.allowed (s.machine m).holds.fire (s.lamp m)) :
      Reaction s (s.modLamp m o.run)
  | slot (sc : ScreenId) (n : SlotIx) (st : SlotStatus) (s : State) (h : st = .shown ∨ st = .cut) :
      Reaction s (s.slotNotice sc n st)
  | place (sc : ScreenId) (c : CircuitId) (r : Rank) (level fade : Nat) (s : State) (h : r.ofScreen) :
      Reaction s (s.modCircuit sc c fun hc => Circuit.place hc r level fade)
  | release (sc : ScreenId) (c : CircuitId) (r : Rank) (s : State) (h : r.ofScreen) :
      Reaction s (s.modCircuit sc c fun hc => Circuit.release hc r)

/-- A run of reactions. -/
abbrev Reactions : State → State → Prop := Relation.ReflTransGen Reaction

namespace Reactions

variable {a b : State}

theorem refl' (s : State) : Reactions s s := Relation.ReflTransGen.refl

theorem report (r : Report) (h : Reactions a b) : Reactions a (b.report r) := h.tail (.report r b)

theorem reportIf (c : Bool) (r : Report) (h : Reactions a b) : Reactions a (b.reportIf c r) := by
  unfold State.reportIf; split
  · exact report r h
  · exact h

theorem screen (sc : ScreenId) (f : ScreenRec → ScreenRec) (k : KeepsSettings f) (h : Reactions a b) :
    Reactions a (b.modScreen sc f) := h.tail (.screen sc f b k)

theorem order (m : MachineId) (o : Order) (k : o.allowed (b.machine m)) (h : Reactions a b) :
    Reactions a (b.modMachine m o.run) := h.tail (.order m o b k)

theorem startOrder (m : MachineId) (t : Nat) (h : Reactions a b) :
    Reactions a (b.modMachine m (MachineRec.startOrder t)) := order m (.start t) trivial h

theorem takeScreen (m : MachineId) (l : Option Nat) (h : Reactions a b) :
    Reactions a (b.modMachine m (MachineRec.takeScreen l)) := order m (.takeScreen l) trivial h

theorem giveUp (m : MachineId) (h : Reactions a b) : Reactions a (b.modMachine m MachineRec.giveUp) :=
  order m .giveUp trivial h

theorem countRejected (m : MachineId) (h : Reactions a b) : Reactions a (b.modMachine m MachineRec.countRejected) :=
  order m .reject trivial h

theorem stopOrder (m : MachineId) (h : Reactions a b) : Reactions a (b.modMachine m MachineRec.stopOrder) := by
  by_cases k : (b.machine m).state.running = true
  · have e : b.modMachine m MachineRec.stopOrder = b.modMachine m (Order.run .stop) := by
      simp [State.modMachine, MachineRec.stopOrder, Order.run, k]
    rw [e]; exact order m .stop k h
  · have e : b.modMachine m MachineRec.stopOrder = b.modMachine m (Order.run .settle) := by
      simp [State.modMachine, MachineRec.stopOrder, Order.run, k]
    rw [e]; exact order m .settle trivial h

theorem putOut (m : MachineId) (h : Reactions a b) : Reactions a (b.modLamp m LampRec.putOut) :=
  h.tail (.lamp m .putOut b trivial)

theorem lampOff (m : MachineId) (h : Reactions a b) : Reactions a (b.lampOff m) := putOut m h

theorem strikeRequest (m : MachineId) (h : Reactions a b) : Reactions a (b.strikeRequest m) := by
  unfold State.strikeRequest; split
  next k => exact h.tail (.lamp m .strike b k)
  next => exact h

theorem shortfallTest (m : MachineId) (h : Reactions a b) : Reactions a (b.shortfallTest m) := by
  unfold State.shortfallTest; split
  · exact h
  · split
    · exact (report _ h).tail (.lamp m .flag _ trivial)
    · exact h

theorem slotNotice (sc : ScreenId) (n : SlotIx) (st : SlotStatus) (k : st = .shown ∨ st = .cut) (h : Reactions a b) :
    Reactions a (b.slotNotice sc n st) := h.tail (.slot sc n st b k)

theorem placeThree (sc : ScreenId) (r : Rank) (l : SceneLevels) (f : Nat) (k : r.ofScreen) (h : Reactions a b) :
    Reactions a (b.placeThree sc r l f) :=
  ((h.tail (.place sc .house r l.house f _ k)).tail (.place sc .aisle r l.aisle f _ k)).tail
    (.place sc .stage r l.stage f _ k)

theorem placeScene (sc : ScreenId) (r : Rank) (n : Fin 8) (f : Nat) (k : r.ofScreen) (h : Reactions a b) :
    Reactions a (b.placeScene sc r n f) := placeThree sc r _ f k h

theorem placeLevel (sc : ScreenId) (r : Rank) (c : Option CircuitId) (l f : Nat) (k : r.ofScreen)
    (h : Reactions a b) : Reactions a (b.placeLevel sc r c l f) := by
  cases c with
  | none => exact placeThree sc r _ f k h
  | some c => exact h.tail (.place sc c r l f _ k)

theorem releaseThree (sc : ScreenId) (r : Rank) (k : r.ofScreen) (h : Reactions a b) :
    Reactions a (b.releaseThree sc r) :=
  ((h.tail (.release sc .house r _ k)).tail (.release sc .aisle r _ k)).tail (.release sc .stage r _ k)

theorem releaseFault (sc : ScreenId) (h : Reactions a b) : Reactions a (b.releaseFault sc) :=
  screen sc _ (fun _ => ⟨rfl, rfl, rfl⟩) (releaseThree sc .fault trivial h)

/-! ### The operations of the controller -/

theorem successorLost (sc : ScreenId) (h : Reactions a b) : Reactions a (b.successorLost sc) :=
  screen sc _ (fun _ => ⟨rfl, rfl, rfl⟩) h

theorem breakMachine (m : MachineId) (c : BreakCause) (k : (b.machine m).state.running = true) (h : Reactions a b) :
    Reactions a (b.breakMachine m c) := report _ (order m (.fail c) k h)

theorem loopCheck (m : MachineId) (h : Reactions a b) : Reactions a (b.loopCheck m) := by
  unfold State.loopCheck; split
  next k => exact successorLost _ (breakMachine m _ (by simp [k.1, MachineState.running]) h)
  next => exact h

theorem giveStart (m : MachineId) (c : MotorCause) (h : Reactions a b) : Reactions a (b.giveStart m c) :=
  report _ (screen _ _ (fun _ => ⟨rfl, rfl, rfl⟩) (startOrder m _ h))

theorem startSuccessor (m : MachineId) (c : MotorCause) (h : Reactions a b) : Reactions a (b.startSuccessor m c) := by
  have k := screen (screenOf m) (fun x =>
    { x with state := if x.state = .showing then (if x.point.isSome then .swapDue else .runup) else x.state })
    (fun _ => ⟨rfl, rfl, rfl⟩) (giveStart m c h)
  unfold State.startSuccessor
  dsimp only
  split
  · exact loopCheck m (strikeRequest m k)
  · exact loopCheck m k

theorem openingStep (sc : ScreenId) (h : Reactions a b) : Reactions a (b.openingStep sc) := by
  unfold State.openingStep
  split
  · exact h
  · split
    · split
      · exact strikeRequest _ h
      · dsimp only
        split
        · exact loopCheck _ (placeScene sc .cue _ _ trivial (giveStart _ _ h))
        · exact loopCheck _ (giveStart _ _ h)
      all_goals exact h
    · exact h

theorem onArmed (m : MachineId) (h : Reactions a b) : Reactions a (b.onArmed m) := by
  unfold State.onArmed
  dsimp only
  split
  · split
    · exact openingStep _ h
    all_goals first | exact h | (split; exacts [startSuccessor m _ h, h])
  · exact h

theorem onDisarmed (m : MachineId) (h : Reactions a b) : Reactions a (b.onDisarmed m) := by
  unfold State.onDisarmed
  dsimp only
  split
  · exact screen _ _ (fun _ => ⟨rfl, rfl, rfl⟩) h
  · exact h

theorem evaluate (m : MachineId) (h : Reactions a b) : Reactions a (b.evaluate m) := by
  unfold State.evaluate
  dsimp only
  split
  next j =>
    split
    · exact h
    · have k1 := h.tail (.notePosting m (b.armedCondition m) b j)
      have k := order m (.posting (b.armedCondition m)) (by simpa [Order.allowed] using j) k1
      split
      · exact onArmed m k
      · exact onDisarmed m k
  next => exact h

theorem evaluateScreen (sc : ScreenId) (h : Reactions a b) : Reactions a (b.evaluateScreen sc) :=
  evaluate _ (evaluate _ h)

theorem execAction (sc : ScreenId) (m : MachineId) (code f : Nat) (x : CueAction) (h : Reactions a b) :
    Reactions a (b.execAction sc m code f x) := by
  cases x with
  | scene n fade => exact placeScene sc .cue n fade trivial h
  | level c l fade => exact placeLevel sc .cue c l fade trivial h
  | sound l => exact screen sc (fun x => { x with sound := min Config.maxSound l }) (fun _ => ⟨rfl, rfl, rfl⟩) h
  | note => exact report _ h

theorem execActions (sc : ScreenId) (m : MachineId) (code f : Nat) (l : List CueAction) (h : Reactions a b) :
    Reactions a (State.execActions sc m code f l b) := by
  induction l generalizing b with
  | nil => exact h
  | cons x xs ih => exact ih (execAction sc m code f x h)

theorem execEffect (sc : ScreenId) (m : MachineId) (c : EffectCode) (f : Nat) (h : Reactions a b) :
    Reactions a (b.execEffect sc m c f) := execActions sc m _ f _ h

theorem execDeferred (sc : ScreenId) (m : MachineId) (l : List DeferredCue) (h : Reactions a b) :
    Reactions a (State.execDeferred sc m l b) := by
  induction l generalizing b with
  | nil => exact h
  | cons x xs ih => exact ih (execEffect sc m x.code x.frame h)

theorem handOver (sc : ScreenId) (m : MachineId) (h : Reactions a b) : Reactions a (b.handOver sc m) :=
  execDeferred sc m _ (h.tail (.emptyDeferred m b))

theorem issueScene (sc : ScreenId) (e : Option SlotEntry) (h : Reactions a b) : Reactions a (b.issueScene sc e) := by
  unfold State.issueScene; split
  · exact placeScene sc .cue _ _ trivial h
  · exact h

theorem enterDark (sc : ScreenId) (c : DarkCause) (m : MachineId) (f : Nat) (h : Reactions a b) :
    Reactions a (b.enterDark sc c m f) :=
  evaluateScreen sc (report _ (screen sc _ (fun _ => ⟨rfl, rfl, rfl⟩) (placeScene sc .fault 4 _ trivial
    (screen sc _ (fun _ => ⟨rfl, rfl, rfl⟩) h))))

theorem openingTake (sc : ScreenId) (h : Reactions a b) : Reactions a (b.openingTake sc) := by
  unfold State.openingTake
  split
  · exact h
  · split
    · exact evaluateScreen sc (screen sc _ (fun _ => ⟨rfl, rfl, rfl⟩) (handOver sc _ (releaseFault sc
        (screen sc _ (fun _ => ⟨rfl, rfl, rfl⟩) (takeScreen _ _ h)))))
    · exact h

theorem swap (sc : ScreenId) (out m : MachineId) (h : Reactions a b) : Reactions a (b.swap sc out m) := by
  unfold State.swap
  dsimp only
  split
  · have h1 := lampOff out (giveUp out h)
    split
    · have h3 := screen sc (fun x => { x.discardTiming with
          onScreen := some m
          darkHold := .stopped
          mixer := if x.overlap = 0 then .machine m else .both
          overlapLeft := x.overlap }) (fun _ => ⟨rfl, rfl, rfl⟩) (takeScreen m (some (b.pictureLostNow m)) h1)
      refine report _ (evaluateScreen sc (screen sc _ (fun _ => ⟨rfl, rfl, rfl⟩) (handOver sc m (issueScene sc _ ?_))))
      split
      · exact releaseFault sc h3
      · exact h3
    · exact enterDark sc _ m _ h1
  · exact h

theorem recover (sc : ScreenId) (m : MachineId) (h : Reactions a b) : Reactions a (b.recover sc m) := by
  unfold State.recover
  dsimp only
  split
  · exact report _ (evaluateScreen sc (screen sc _ (fun _ => ⟨rfl, rfl, rfl⟩) (handOver sc m (issueScene sc _
      (releaseFault sc (screen sc _ (fun _ => ⟨rfl, rfl, rfl⟩) (takeScreen m _ h)))))))
  · exact h

theorem testReady (sc : ScreenId) (h : Reactions a b) : Reactions a (b.testReady sc) := by
  unfold State.testReady
  split
  · exact h
  · split
    · split
      · exact swap sc _ _ h
      · exact recover sc _ h
      · exact h
    · exact h

theorem watchPicture (sc : ScreenId) (h : Reactions a b) : Reactions a (b.watchPicture sc) := by
  unfold State.watchPicture
  split
  · exact h
  · dsimp only
    split
    · exact releaseFault sc (screen sc _ (fun _ => ⟨rfl, rfl, rfl⟩) h)
    · exact screen sc _ (fun _ => ⟨rfl, rfl, rfl⟩) h

theorem machinePosted (m : MachineId) (h : Reactions a b) : Reactions a (b.machinePosted m) := by
  unfold State.machinePosted
  have h1 : Reactions a (if (b.screen (screenOf m)).onScreen = some m then b.watchPicture (screenOf m) else b) := by
    split
    · exact watchPicture _ h
    · exact h
  dsimp only
  generalize (if (b.screen (screenOf m)).onScreen = some m then b.watchPicture (screenOf m) else b) = c at h1
  have h2 : Reactions a (if c.waitedOn (screenOf m) = some m then c.openingTake (screenOf m) else c) := by
    split
    · exact openingTake _ h1
    · exact h1
  generalize (if c.waitedOn (screenOf m) = some m then c.openingTake (screenOf m) else c) = d at h2
  split
  · exact testReady _ h2
  · exact h2

theorem lampPosted (m : MachineId) (h : Reactions a b) : Reactions a (b.lampPosted m) := by
  unfold State.lampPosted
  dsimp only
  have h1 : Reactions a (if b.waitedOn (screenOf m) = some m ∧ (b.screen (screenOf m)).startGiven = true
      ∧ (b.lamp m).state = .dark then b.strikeRequest m else b) := by
    split
    · exact strikeRequest _ h
    · exact h
  generalize (if b.waitedOn (screenOf m) = some m ∧ (b.screen (screenOf m)).startGiven = true
      ∧ (b.lamp m).state = .dark then b.strikeRequest m else b) = c at h1
  split
  · exact machinePosted m (openingStep _ h1)
  · exact machinePosted m h1

theorem lampSettled (m : MachineId) (l : LampState) (h : Reactions a b) : Reactions a (b.lampSettled m l) := by
  unfold State.lampSettled
  apply evaluate
  split
  · exact h
  · exact lampPosted m h

theorem startDue (sc : ScreenId) (c : MotorCause) (missed : Bool) (h : Reactions a b) :
    Reactions a (b.startDue sc c missed) := by
  unfold State.startDue
  split
  · dsimp only
    split
    · exact startSuccessor _ c h
    · exact reportIf _ _ (screen sc _ (fun _ => ⟨rfl, rfl, rfl⟩) h)
  · exact h

theorem reachPoint (sc : ScreenId) (c : PointCause) (f : Nat) (h : Reactions a b) :
    Reactions a (b.reachPoint sc c f) := by
  unfold State.reachPoint
  dsimp only
  split
  · exact testReady sc (startDue sc _ _ (reportIf _ _ (screen sc _ (fun _ => ⟨rfl, rfl, rfl⟩) h)))
  · exact h

theorem formTiming (sc : ScreenId) (on : MachineId) (f : Nat) (h : Reactions a b) :
    Reactions a (b.formTiming sc on f) := by
  unfold State.formTiming
  split
  all_goals exact screen sc _ (fun _ => ⟨rfl, rfl, rfl⟩) h

theorem strikePoint (sc : ScreenId) (on : MachineId) (h : Reactions a b) : Reactions a (b.strikePoint sc on) := by
  unfold State.strikePoint
  split
  · split
    · exact strikeRequest _ h
    · exact h
  · exact h

theorem startPointReached (sc : ScreenId) (h : Reactions a b) : Reactions a (b.startPointReached sc) := by
  unfold State.startPointReached
  split
  · split
    · exact startDue sc _ _ h
    · exact h
  · exact h

theorem footagePoint (sc : ScreenId) (f : Nat) (h : Reactions a b) : Reactions a (b.footagePoint sc f) := by
  unfold State.footagePoint
  split
  · split
    · exact reachPoint sc _ f h
    · exact h
  · split
    · exact reachPoint sc _ f h
    · exact h
  · exact h

theorem overlapStep (sc : ScreenId) (on : MachineId) (h : Reactions a b) : Reactions a (b.overlapStep sc on) :=
  screen sc _ (fun x => by split <;> exact ⟨rfl, rfl, rfl⟩) h

theorem frameNotice (m : MachineId) (h : Reactions a b) : Reactions a (b.frameNotice m) := by
  unfold State.frameNotice
  dsimp only
  apply machinePosted
  split
  · split
    all_goals first
      | exact footagePoint _ _ (startPointReached _ (strikePoint _ _ (formTiming _ _ _ (overlapStep _ _ h))))
      | exact overlapStep _ _ h
  · exact h

theorem outgoingReelEnds (m : MachineId) (h : Reactions a b) : Reactions a (b.outgoingReelEnds m) := by
  unfold State.outgoingReelEnds
  split
  · exact h
  · dsimp only
    split
    · exact slotNotice _ _ _ (.inl rfl) h
    · exact reportIf _ _ (slotNotice _ _ _ (.inl rfl) h)

theorem goIdle (sc : ScreenId) (h : Reactions a b) : Reactions a (b.modScreen sc ScreenRec.goIdle) :=
  screen sc _ (fun _ => ⟨rfl, rfl, rfl⟩) h

theorem endProgramme (sc : ScreenId) (h : Reactions a b) : Reactions a (b.endProgramme sc) :=
  report _ (evaluateScreen sc (goIdle sc (releaseFault sc (releaseThree sc .cue trivial h))))

theorem enterInterval (sc : ScreenId) (k : Nat) (h : Reactions a b) : Reactions a (b.enterInterval sc k) :=
  report _ (evaluateScreen sc (screen sc _ (fun _ => ⟨rfl, rfl, rfl⟩) (placeScene sc .cue 3 _ trivial
    (releaseFault sc (screen sc _ (fun _ => ⟨rfl, rfl, rfl⟩) h)))))

theorem onScreenReelEnds (sc : ScreenId) (m : MachineId) (h : Reactions a b) :
    Reactions a (b.onScreenReelEnds sc m) := by
  unfold State.onScreenReelEnds
  split
  · exact h
  next n _ =>
    dsimp only
    have h1 := slotNotice sc n .shown (.inl rfl) h
    have k : ∀ c : State, Reactions a c → Reactions a
        (c.modScreen sc fun x => { x.discardTiming with onScreen := none, darkHold := .stopped }) :=
      fun c hc => screen sc _ (fun _ => ⟨rfl, rfl, rfl⟩) hc
    cases (b.slot sc n).entry with
    | none => exact enterDark sc _ m _ (k _ h1)
    | some e =>
      dsimp only
      split
      · exact endProgramme sc (k _ (reportIf _ _ h1))
      · split
        · exact enterInterval sc _ (k _ (reportIf _ _ h1))
        · exact enterDark sc _ m _ (k _ (reportIf _ _ h1))

theorem openingReelEnds (sc : ScreenId) (h : Reactions a b) : Reactions a (b.openingReelEnds sc) := by
  unfold State.openingReelEnds
  split
  · exact h
  · exact evaluateScreen sc (goIdle sc (releaseFault sc (report _ (slotNotice sc _ _ (.inr rfl) h))))

theorem successorReelEnds (sc : ScreenId) (h : Reactions a b) : Reactions a (b.successorReelEnds sc) := by
  unfold State.successorReelEnds
  split
  · exact h
  · exact evaluateScreen sc (report _ (screen sc _ (fun _ => ⟨rfl, rfl, rfl⟩) (slotNotice sc _ _ (.inr rfl) h)))

theorem reelEndNotice (m : MachineId) (l : MachineState) (h : Reactions a b) : Reactions a (b.reelEndNotice m l) := by
  unfold State.reelEndNotice
  split
  · exact evaluateScreen _ (outgoingReelEnds m h)
  · dsimp only
    split
    · exact onScreenReelEnds _ m h
    · split
      · split
        · exact openingReelEnds _ h
        · exact successorReelEnds _ h
      · exact h

theorem reelEnd (m : MachineId) (k : (b.machine m).state.running = true) (h : Reactions a b) :
    Reactions a (b.reelEnd m) := by
  unfold State.reelEnd
  exact lampSettled m _ (lampOff m (reelEndNotice m _ (order m .stop k h)))

theorem breakNotice (m : MachineId) (l : MachineState) (h : Reactions a b) : Reactions a (b.breakNotice m l) := by
  unfold State.breakNotice
  dsimp only
  split
  · exact evaluateScreen _ (outgoingReelEnds m h)
  · split
    · apply enterDark
      split
      · exact h
      · exact slotNotice _ _ _ (.inr rfl) h
    · split
      · exact evaluateScreen _ (successorLost _ h)
      · exact h

theorem breakRun (m : MachineId) (c : BreakCause) (k : (b.machine m).state.running = true) (h : Reactions a b) :
    Reactions a (b.breakRun m c) := breakNotice m _ (breakMachine m c k h)

theorem rejectCue (m : MachineId) (c : Option Nat) (f : Nat) (r : RejectReason) (h : Reactions a b) :
    Reactions a (b.rejectCue m c f r) := report _ (countRejected m h)

theorem deferCue (m : MachineId) (c : EffectCode) (f : Nat) (h : Reactions a b) : Reactions a (b.deferCue m c f) := by
  unfold State.deferCue
  split
  next k => exact report _ (h.tail (.defer m ⟨c, f⟩ b k))
  next => exact rejectCue m _ f _ h

theorem effectCue (m : MachineId) (c : EffectCode) (f : Nat) (h : Reactions a b) :
    Reactions a (b.effectCue m c f) := by
  unfold State.effectCue
  split
  · exact execEffect _ m c f h
  · exact deferCue m c f h
  all_goals exact rejectCue m _ f _ h

theorem changeoverCue (m : MachineId) (i : Bool) (f : Nat) (h : Reactions a b) :
    Reactions a (b.changeoverCue m i f) := by
  unfold State.changeoverCue
  dsimp only
  split
  · split
    · exact rejectCue m _ f _ h
    · split
      · split
        · split
          all_goals first | exact startDue _ _ _ (report _ h) | exact report _ h
        · exact rejectCue m _ f _ h
      · split
        · exact reachPoint _ _ f (report _ h)
        · exact rejectCue m _ f _ h
  · exact rejectCue m _ f _ h

theorem disposeCode (m : MachineId) (p f : Nat) (h : Reactions a b) : Reactions a (b.disposeCode m p f) := by
  unfold State.disposeCode
  split
  · split
    · exact changeoverCue m _ f h
    · exact rejectCue m _ f _ h
  · split
    · exact changeoverCue m _ f h
    · exact rejectCue m _ f _ h
  · exact effectCue m _ f h
  · exact effectCue m _ f h
  · exact effectCue m _ f h
  · exact effectCue m _ f h
  · exact rejectCue m _ f _ h

theorem groupNews (m : MachineId) (n : GroupNews) (h : Reactions a b) : Reactions a (b.groupNews m n) := by
  unfold State.groupNews
  dsimp only
  split
  · exact h
  · split
    · exact report _ h
    · exact rejectCue m _ _ _ h
  · split
    · exact report _ h
    · exact disposeCode m _ _ h

theorem openSlot (sc : ScreenId) (n : SlotIx) (h : Reactions a b) : Reactions a (b.openSlot sc n).1 := by
  have h2 := evaluateScreen sc (screen sc (ScreenRec.enterOpening n) (fun _ => ⟨rfl, rfl, rfl⟩) h)
  unfold State.openSlot
  dsimp only
  split
  · exact openingStep sc h2
  · exact screen sc (fun x => { x with startPending := true }) (fun _ => ⟨rfl, rfl, rfl⟩) h2

/-! ### The screens at a trip -/

theorem leftRunout (m : MachineId) (l : MachineState) (h : Reactions a b) : Reactions a (b.leftRunout m l) := by
  unfold State.leftRunout
  split
  · exact outgoingReelEnds m h
  · exact h

theorem halt (sc : ScreenId) (h : Reactions a b) : Reactions a (b.modScreen sc ScreenRec.halt) :=
  screen sc _ (fun _ => ⟨rfl, rfl, rfl⟩) h

theorem boothHalt (sc : ScreenId) (x y : MachineState) (h : Reactions a b) : Reactions a (b.boothHalt sc x y) := by
  unfold State.boothHalt
  dsimp only
  split
  · exact leftRunout _ _ (leftRunout _ _ h)
  · exact halt sc (leftRunout _ _ (leftRunout _ _ h))

theorem machineHalt (m : MachineId) (l : MachineState) (h : Reactions a b) : Reactions a (b.machineHalt m l) := by
  unfold State.machineHalt
  dsimp only
  split
  · exact halt _ (leftRunout _ _ (lampOff _ (stopOrder _ h)))
  · split
    · exact outgoingReelEnds m h
    · split
      · exact successorLost _ h
      · exact h

end Reactions

end Sys2Proof.Machine
end

