-- ==== Sys2Proof/Laws/Armed.lean ====
section
/-! SUPPORT. The ARMED condition (R98, R99): its six items as propositions, the records they depend on, and all that one
evaluation can do. -/

namespace Sys2Proof.Machine

open Sys2Proof

/-- R98: the condition, item by item, as ArmedLaw names them. -/
theorem State.armedCondition_iff (s : State) (m : MachineId) :
    s.armedCondition m = true ↔
      ((s.machine m).state = .threaded ∨ (s.machine m).state = .armed)
        ∧ (∃ n, (s.machine m).boundSlot = some n ∧ s.nextSlot (screenOf m) = some n)
        ∧ (s.lamp m).carbonOk = some true ∧ (s.fire.shutters.get m).state = .opened
        ∧ (s.machine m).holds.fire = false ∧ (s.machine m).holds.brk = false
        ∧ (s.lamp m).state ≠ .fault ∧ (s.lamp m).state ≠ .exhausted := by
  have judged : (s.machine m).state.judged = true ↔ (s.machine m).state = .threaded ∨ (s.machine m).state = .armed := by
    cases (s.machine m).state <;> decide
  have bound : ((s.machine m).boundSlot.isSome = true ∧ (s.machine m).boundSlot = s.nextSlot (screenOf m))
      ↔ ∃ n, (s.machine m).boundSlot = some n ∧ s.nextSlot (screenOf m) = some n := by
    cases (s.machine m).boundSlot with
    | none => exact ⟨fun h => Bool.noConfusion h.1, fun ⟨_, h, _⟩ => by cases h⟩
    | some k => exact ⟨fun h => ⟨k, rfl, h.2.symm⟩, fun ⟨n, h, e⟩ => ⟨rfl, h.trans e.symm⟩⟩
  rw [← judged, ← bound]
  simp only [State.armedCondition, Bool.and_eq_true, bne_iff_ne, beq_iff_eq, Bool.not_eq_true', and_assoc]

/-- The condition of a machine depends on its own records, its screen's state and current slot, and its screen's slots. -/
theorem State.armedCondition_congr {s t : State} {m : MachineId} (hm : t.machine m = s.machine m) (hl : t.lamp m = s.lamp m)
    (hf : t.fire.shutters.get m = s.fire.shutters.get m) (hn : t.nextSlot (screenOf m) = s.nextSlot (screenOf m)) :
    t.armedCondition m = s.armedCondition m := by
  simp only [State.armedCondition, hm, hl, hf, hn]

/-- R99: all that an evaluation can do. It posts nothing for a machine that is not THREADED or ARMED, or where the result
is the last one; else it posts the result to the machine unit, and the controller takes it. -/
theorem State.evaluate_cases (s : State) (m : MachineId) :
    let posted := fun yes => (s.modPlan fun p => { p with lastPosting := p.lastPosting.set m yes }).modMachine m
      (MachineRec.takePosting yes)
    (s.evaluate m = s ∧ ((s.machine m).state.judged = false ∨ s.armedCondition m = s.plan.lastPosting.get m))
    ∨ ((s.machine m).state.judged = true ∧ s.armedCondition m = true ∧ s.plan.lastPosting.get m = false
        ∧ s.evaluate m = (posted true).onArmed m)
    ∨ ((s.machine m).state.judged = true ∧ s.armedCondition m = false ∧ s.plan.lastPosting.get m = true
        ∧ s.evaluate m = (posted false).onDisarmed m) := by
  dsimp only
  unfold State.evaluate
  split
  next j =>
    dsimp only
    split
    next e => exact .inl ⟨rfl, .inr e⟩
    next e =>
      cases c : s.armedCondition m <;> cases p : s.plan.lastPosting.get m <;> simp_all
  next j => exact .inl ⟨rfl, .inl (by simpa using j)⟩

/-- A machine whose state and posting agree with a condition that has not changed is not posted anew. -/
theorem State.evaluate_settled {s : State} {m : MachineId} (h : s.armedCondition m = s.plan.lastPosting.get m) :
    s.evaluate m = s := by
  unfold State.evaluate
  split
  · exact if_pos h
  · rfl

/-- Under ArmedLaw every posting is in step with the condition, so that an evaluation changes nothing. -/
theorem ArmedLaw.settled {s : State} (h : ArmedLaw s) (m : MachineId) : s.armedCondition m = s.plan.lastPosting.get m := by
  rw [h.posting m, Bool.eq_iff_iff, s.armedCondition_iff m, ← h.condition m, beq_iff_eq]

theorem ArmedLaw.evaluate {s : State} (h : ArmedLaw s) (m : MachineId) : s.evaluate m = s :=
  State.evaluate_settled (h.settled m)

end Sys2Proof.Machine
end

