-- ==== Sys2Proof/Laws/Frame.lean ====
section
/-! SUPPORT. What a run of reactions leaves unchanged: `ShowFrame` holds across every reaction, hence across every
operation of the controller. -/

namespace Sys2Proof.Machine

open Sys2Proof

/-! ### The frames compose -/

theorem MachineKept.refl (r : MachineRec) : MachineKept r r := ⟨rfl, rfl, rfl, rfl, rfl, rfl, rfl, rfl, rfl⟩

theorem MachineKept.trans {a b c : MachineRec} (h : MachineKept a b) (k : MachineKept b c) : MachineKept a c :=
  ⟨k.1.trans h.1, k.2.trans h.2, k.3.trans h.3, k.4.trans h.4, k.5.trans h.5, k.6.trans h.6, k.7.trans h.7,
    k.8.trans h.8, k.9.trans h.9⟩

theorem LampKept.refl (l : LampRec) : LampKept l l := ⟨rfl, rfl, rfl, rfl, rfl, rfl, rfl, rfl, rfl, rfl, rfl, rfl⟩

theorem LampKept.trans {a b c : LampRec} (h : LampKept a b) (k : LampKept b c) : LampKept a c :=
  ⟨k.1.trans h.1, k.2.trans h.2, k.3.trans h.3, k.4.trans h.4, k.5.trans h.5, k.6.trans h.6, k.7.trans h.7,
    k.8.trans h.8, k.9.trans h.9, k.10.trans h.10, k.11.trans h.11, k.12.trans h.12⟩

theorem ReceiverKept.refl (l : LineUnit) : ReceiverKept l l := ⟨rfl, rfl, rfl, rfl, rfl, rfl, rfl, rfl, rfl⟩

theorem ReceiverKept.trans {a b c : LineUnit} (h : ReceiverKept a b) (k : ReceiverKept b c) : ReceiverKept a c :=
  ⟨k.1.trans h.1, k.2.trans h.2, k.3.trans h.3, k.4.trans h.4, k.5.trans h.5, k.6.trans h.6, k.7.trans h.7,
    k.8.trans h.8, k.9.trans h.9⟩

theorem MachineRested.refl (r : MachineRec) : MachineRested r r := fun _ => rfl

theorem MachineRested.trans {a b c : MachineRec} (h : MachineRested a b) (k : MachineRested b c) : MachineRested a c := by
  intro e
  have hb := h e
  have e' : b.state.resting = true := by rw [hb]; exact e
  have hc := k e'
  rw [hc, hb]

theorem LampRested.refl (l : LampRec) : LampRested l l := fun _ => rfl

theorem LampRested.trans {a b c : LampRec} (h : LampRested a b) (k : LampRested b c) : LampRested a c := by
  intro e
  have hb := h e
  have e' : b.state = .fault ∨ b.state = .exhausted := by rw [hb]; exact e
  have hc := k e'
  rw [hc, hb]

theorem SlotKept.refl (x : Slot) : SlotKept x x := ⟨rfl, .inl rfl⟩

theorem SlotKept.trans {a b c : Slot} (h : SlotKept a b) (k : SlotKept b c) : SlotKept a c := by
  refine ⟨k.entry.trans h.entry, ?_⟩
  rcases h.status with e | ⟨e1, e2, e3⟩
  · rw [← e]; exact k.status
  · rcases k.status with f | ⟨f1, f2, f3⟩
    · rw [f]; exact .inr ⟨e1, e2, e3⟩
    · rcases e2 with e2 | e2 <;> rw [e2] at f1 <;> exact absurd f1 (by decide)

theorem ShowFrame.refl (s : State) : ShowFrame s s :=
  ⟨rfl, rfl, rfl, rfl, rfl, fun _ => .refl _, fun _ => .refl _, fun _ => .refl _, fun _ => .refl _, fun _ _ => .refl _, rfl,
    ⟨rfl, rfl⟩,
    fun _ => ⟨rfl, rfl, rfl⟩, rfl, ⟨rfl, rfl, rfl, rfl, rfl⟩, fun _ _ => rfl, fun _ _ => rfl, .refl _⟩

theorem ShowFrame.trans {a b c : State} (h : ShowFrame a b) (k : ShowFrame b c) : ShowFrame a c where
  powered := k.powered.trans h.powered
  straps := k.straps.trans h.straps
  timebase := k.timebase.trans h.timebase
  pending := k.pending.trans h.pending
  fire := k.fire.trans h.fire
  machine m := (h.machine m).trans (k.machine m)
  lamp m := (h.lamp m).trans (k.lamp m)
  machineRested m := (h.machineRested m).trans (k.machineRested m)
  lampRested m := (h.lampRested m).trans (k.lampRested m)
  slots sc n := (h.slots sc n).trans (k.slots sc n)
  showAt := k.showAt.trans h.showAt
  clock := ⟨k.clock.1.trans h.clock.1, k.clock.2.trans h.clock.2⟩
  settings sc := ⟨(k.settings sc).1.trans (h.settings sc).1, (k.settings sc).2.1.trans (h.settings sc).2.1,
    (k.settings sc).2.2.trans (h.settings sc).2.2⟩
  scenes := k.scenes.trans h.scenes
  mains := ⟨k.mains.1.trans h.mains.1, k.mains.2.1.trans h.mains.2.1, k.mains.2.2.1.trans h.mains.2.2.1,
    k.mains.2.2.2.1.trans h.mains.2.2.2.1, k.mains.2.2.2.2.trans h.mains.2.2.2.2⟩
  safety sc c := (k.safety sc c).trans (h.safety sc c)
  console sc c := (k.console sc c).trans (h.console sc c)
  receiver := h.receiver.trans k.receiver

/-! ### One record at a time -/

theorem LineUnit.pump_receiver (l : LineUnit) : ReceiverKept l l.pump := by
  unfold LineUnit.pump
  split
  · exact .refl l
  · split
    · exact ⟨rfl, rfl, rfl, rfl, rfl, rfl, rfl, rfl, rfl⟩
    · split <;> exact ⟨rfl, rfl, rfl, rfl, rfl, rfl, rfl, rfl, rfl⟩
    · exact ⟨rfl, rfl, rfl, rfl, rfl, rfl, rfl, rfl, rfl⟩
    · exact .refl l

theorem LineUnit.report_receiver (r : Report) (l : LineUnit) : ReceiverKept l (l.report r) :=
  ReceiverKept.trans (b := { l with queue := queueJoin l.queue ⟨r, l.nextOrder⟩, nextOrder := l.nextOrder + 1 })
    ⟨rfl, rfl, rfl, rfl, rfl, rfl, rfl, rfl, rfl⟩ (pump_receiver _)

theorem LineUnit.answer_receiver (r : Reply) (l : LineUnit) : ReceiverKept l (l.answer r) :=
  ReceiverKept.trans (b := { l with replyPlace := .full r l.nextOrder, nextOrder := l.nextOrder + 1 })
    ⟨rfl, rfl, rfl, rfl, rfl, rfl, rfl, rfl, rfl⟩ (pump_receiver _)

theorem MachineRec.motorOff_kept (r : MachineRec) : MachineKept r r.motorOff := by
  unfold MachineRec.motorOff
  split <;> exact ⟨rfl, rfl, rfl, rfl, rfl, rfl, rfl, rfl, rfl⟩

theorem MachineRec.motorOn_kept (t : Nat) (r : MachineRec) : MachineKept r (r.motorOn t) := by
  unfold MachineRec.motorOn
  split <;> exact ⟨rfl, rfl, rfl, rfl, rfl, rfl, rfl, rfl, rfl⟩

theorem MachineRec.settle_kept (r : MachineRec) : MachineKept r r.settleDouser :=
  ⟨rfl, rfl, rfl, rfl, rfl, rfl, rfl, rfl, rfl⟩

theorem Order.run_kept (o : Order) (r : MachineRec) : MachineKept r (o.run r) := by
  cases o with
  | settle => exact .refl r
  | start t =>
    simp only [Order.run, MachineRec.startOrder]
    split
    · exact MachineKept.trans (b := { r with state := .starting }) ⟨rfl, rfl, rfl, rfl, rfl, rfl, rfl, rfl, rfl⟩
        (MachineRec.motorOn_kept t _)
    · exact .refl r
  | takeScreen l =>
    simp only [Order.run, MachineRec.takeScreen]
    split <;> exact ⟨rfl, rfl, rfl, rfl, rfl, rfl, rfl, rfl, rfl⟩
  | giveUp =>
    simp only [Order.run, MachineRec.giveUp]
    split <;> exact ⟨rfl, rfl, rfl, rfl, rfl, rfl, rfl, rfl, rfl⟩
  | stop =>
    simp only [Order.run, MachineRec.enterStopped, MachineRec.clearRing, MachineRec.motorOff]
    split <;> exact ⟨rfl, rfl, rfl, rfl, rfl, rfl, rfl, rfl, rfl⟩
  | fail c =>
    simp only [Order.run, MachineRec.enterBroken, MachineRec.motorOff]
    split <;> exact ⟨rfl, rfl, rfl, rfl, rfl, rfl, rfl, rfl, rfl⟩
  | posting y => exact ⟨rfl, rfl, rfl, rfl, rfl, rfl, rfl, rfl, rfl⟩
  | reject => exact ⟨rfl, rfl, rfl, rfl, rfl, rfl, rfl, rfl, rfl⟩

theorem LampRec.putOut_kept (l : LampRec) : LampKept l l.putOut := by
  unfold LampRec.putOut
  split <;> exact ⟨rfl, rfl, rfl, rfl, rfl, rfl, rfl, rfl, rfl, rfl, rfl, rfl⟩

theorem LampOrder.run_kept (o : LampOrder) (l : LampRec) : LampKept l (o.run l) := by
  cases o with
  | strike => exact ⟨rfl, rfl, rfl, rfl, rfl, rfl, rfl, rfl, rfl, rfl, rfl, rfl⟩
  | putOut => exact LampRec.putOut_kept l
  | flag => exact ⟨rfl, rfl, rfl, rfl, rfl, rfl, rfl, rfl, rfl, rfl, rfl, rfl⟩

theorem sameClaim_waiting (x : Option Claim) : sameClaim (x.map Claim.waiting) x := by
  cases x <;> rfl

/-- A claim begins to govern: the claims present are the same claims. -/
theorem Circuit.govern_claims (h : Nat) (r : Rank) (c : Circuit) (q : Rank) :
    sameClaim ((c.govern h r).claims.get q) (c.claims.get q) := by
  unfold Circuit.govern
  split
  · rfl
  next x e =>
    dsimp only
    have k : sameClaim ((c.claims.allWaiting.set r
        (some { x with governing := some ⟨c.output, 0, x.fade * Config.stepsPerTenth⟩ })).get q) (c.claims.get q) := by
      cases r <;> cases q <;> simp only [ClaimTable.get] at e <;>
        simp only [ClaimTable.allWaiting, ClaimTable.set, ClaimTable.get, sameClaim_waiting, e] <;> rfl
    split <;> exact k

/-- A placement reaches the claim of its own rank alone. -/
theorem Circuit.place_claims (h : Nat) (r : Rank) (l f : Nat) (c : Circuit) (q : Rank) (k : q ≠ r) :
    sameClaim ((c.place h r l f).claims.get q) (c.claims.get q) := by
  have e : sameClaim ((c.claims.set r (some ⟨l, f, none⟩)).get q) (c.claims.get q) := by
    cases r <;> cases q <;> first | exact absurd rfl k | rfl
  unfold Circuit.place
  dsimp only
  split
  · exact (Circuit.govern_claims h r _ q).trans e
  · exact e

/-- A release reaches the claim of its own rank alone. -/
theorem Circuit.release_claims (h : Nat) (r : Rank) (c : Circuit) (q : Rank) (k : q ≠ r) :
    sameClaim ((c.release h r).claims.get q) (c.claims.get q) := by
  have e : sameClaim ((c.claims.set r none).get q) (c.claims.get q) := by
    cases r <;> cases q <;> first | exact absurd rfl k | rfl
  unfold Circuit.release
  split
  · rfl
  · dsimp only
    split
    · split
      · exact (Circuit.govern_claims h _ _ q).trans e
      · exact e
    · exact e

/-- A released claim is gone. -/
theorem Circuit.release_self (h : Nat) (r : Rank) (c : Circuit) : (c.release h r).claims.get r = none := by
  unfold Circuit.release
  split
  next e => exact e
  next x e =>
    have g : (c.claims.set r none).get r = none := by cases r <;> rfl
    dsimp only
    split
    · split
      next r2 e2 =>
        have k := Circuit.govern_claims h r2 { c with claims := c.claims.set r none } r
        rw [g] at k
        simpa [sameClaim] using k
      · exact g
    · exact g

/-- A placed claim is there, with its target and fade. -/
theorem Circuit.place_self (h : Nat) (r : Rank) (l f : Nat) (c : Circuit) :
    sameClaim ((c.place h r l f).claims.get r) (some ⟨l, f, none⟩) := by
  have e : (c.claims.set r (some ⟨l, f, none⟩)).get r = some ⟨l, f, none⟩ := by cases r <;> rfl
  unfold Circuit.place
  dsimp only
  split
  · have k := Circuit.govern_claims h r { c with claims := c.claims.set r (some ⟨l, f, none⟩) } r
    rw [e] at k
    exact k
  · rw [e]; rfl

/-! ### State changes -/

theorem ShowFrame.ofScreen (sc : ScreenId) (f : ScreenRec → ScreenRec) (s : State) (k : KeepsSettings f) :
    ShowFrame s (s.modScreen sc f) :=
  { ShowFrame.refl s with
    settings := fun x => by
      rw [State.modScreen_screen]
      split
      next e => subst e; exact k _
      next => exact ⟨rfl, rfl, rfl⟩ }

theorem ShowFrame.ofLine (f : LineUnit → LineUnit) (s : State) (k : ReceiverKept s.line (f s.line)) :
    ShowFrame s (s.modLine f) := { ShowFrame.refl s with receiver := k }

theorem ShowFrame.ofMachine (m : MachineId) (f : MachineRec → MachineRec) (s : State)
    (k : MachineKept (s.machine m) (f (s.machine m))) (q : MachineRested (s.machine m) (f (s.machine m))) :
    ShowFrame s (s.modMachine m f) :=
  { ShowFrame.refl s with
    machine := fun x => by
      rw [State.modMachine_machine]
      split
      next e => subst e; exact k.trans (MachineRec.settle_kept _)
      next => exact .refl _
    machineRested := fun x => by
      rw [State.modMachine_machine]
      split
      next e => subst e; exact q.trans fun _ => rfl
      next => exact .refl _
    slots := fun sc n => by rw [State.modMachine_slot]; exact .refl _
    showAt := by rw [State.modMachine_plan, PlanStore.noteMachine]; split <;> rfl
    clock := by rw [State.modMachine_plan, PlanStore.noteMachine]; split <;> exact ⟨rfl, rfl⟩ }

theorem ShowFrame.ofLamp (m : MachineId) (f : LampRec → LampRec) (s : State)
    (k : LampKept (s.lamp m) (f (s.lamp m))) (q : LampRested (s.lamp m) (f (s.lamp m))) :
    ShowFrame s (s.modLamp m f) := by
  have h1 : ShowFrame s { s with lamps := s.lamps.set m (f (s.lamp m)) } :=
    { ShowFrame.refl s with
      lamp := fun x => by
        have : State.lamp { s with lamps := s.lamps.set m (f (s.lamp m)) } x
            = if x = m then f (s.lamp m) else s.lamp x := Quad.get_set _ _ _ _
        rw [this]
        split
        next e => subst e; exact k
        next => exact .refl _
      lampRested := fun x => by
        have : State.lamp { s with lamps := s.lamps.set m (f (s.lamp m)) } x
            = if x = m then f (s.lamp m) else s.lamp x := Quad.get_set _ _ _ _
        rw [this]
        split
        next e => subst e; exact q
        next => exact .refl _ }
  unfold State.modLamp
  dsimp only
  split
  · exact h1
  · exact h1.trans (ShowFrame.ofMachine m _ _ ⟨rfl, rfl, rfl, rfl, rfl, rfl, rfl, rfl, rfl⟩ fun _ => rfl)

theorem ShowFrame.ofDecoder (m : MachineId) (f : DecoderRec → DecoderRec) (s : State) :
    ShowFrame s (s.modDecoder m f) := { ShowFrame.refl s with }

theorem ShowFrame.ofSlot (sc : ScreenId) (n : SlotIx) (f : Slot → Slot) (s : State)
    (k : SlotKept (s.slot sc n) (f (s.slot sc n))) : ShowFrame s (s.modSlot sc n f) :=
  { ShowFrame.refl s with
    slots := fun x j => by
      rw [State.modSlot_slot]
      split
      next e => rw [e.1, e.2]; exact k
      next => exact .refl _ }

theorem ShowFrame.ofCircuit (sc : ScreenId) (c : CircuitId) (f : Nat → Circuit → Circuit) (s : State)
    (k1 : sameClaim (f s.lights.halfCycle (s.circuit sc c)).claims.safety (s.circuit sc c).claims.safety)
    (k2 : sameClaim (f s.lights.halfCycle (s.circuit sc c)).claims.console (s.circuit sc c).claims.console) :
    ShowFrame s (s.modCircuit sc c f) :=
  { ShowFrame.refl s with
    safety := fun x d => by
      rw [State.modCircuit_circuit]
      split
      next e => rw [e.1, e.2]; exact k1
      next => rfl
    console := fun x d => by
      rw [State.modCircuit_circuit]
      split
      next e => rw [e.1, e.2]; exact k2
      next => rfl }

theorem ShowFrame.unbind (m : MachineId) (s : State) :
    ShowFrame s ((s.modMachine m fun r => { r with boundSlot := none }).modLamp m LampRec.unbind) :=
  (ShowFrame.ofMachine m _ _ ⟨rfl, rfl, rfl, rfl, rfl, rfl, rfl, rfl, rfl⟩ fun _ => rfl).trans
    (ShowFrame.ofLamp m _ _ ⟨rfl, rfl, rfl, rfl, rfl, rfl, rfl, rfl, rfl, rfl, rfl, rfl⟩ fun _ => rfl)

theorem ShowFrame.slotNotice (sc : ScreenId) (n : SlotIx) (st : SlotStatus) (q : st = .shown ∨ st = .cut) (s : State) :
    ShowFrame s (s.slotNotice sc n st) := by
  unfold State.slotNotice
  split
  next e =>
    have k : ShowFrame s (s.modSlot sc n fun x => { x with status := st, bound := none }) :=
      ShowFrame.ofSlot _ _ _ _ ⟨rfl, .inr ⟨by rw [e]; rfl, q, rfl⟩⟩
    dsimp only
    split
    · exact k
    · exact k.trans (ShowFrame.unbind _ _)
  next e => exact ShowFrame.ofSlot _ _ _ _ ⟨rfl, .inr ⟨by rw [e]; rfl, q, rfl⟩⟩
  all_goals exact .refl s

/-- An order given when it is allowed leaves a resting machine alone. -/
theorem Order.run_rested (o : Order) (r : MachineRec) (k : o.allowed r) : MachineRested r (o.run r) := by
  intro e
  cases o with
  | settle => rfl
  | start t =>
    have : r.state ≠ .armed := by intro q; rw [q] at e; exact absurd e (by decide)
    simp only [Order.run, MachineRec.startOrder, if_neg this]
  | takeScreen l =>
    have : r.state ≠ .runup := by intro q; rw [q] at e; exact absurd e (by decide)
    simp only [Order.run, MachineRec.takeScreen, if_neg this]
  | giveUp =>
    have : r.state ≠ .onScreen := by intro q; rw [q] at e; exact absurd e (by decide)
    simp only [Order.run, MachineRec.giveUp, if_neg this]
  | stop =>
    have k : r.state.running = true := k
    exfalso; revert k e; cases r.state <;> decide
  | fail c =>
    have k : r.state.running = true := k
    exfalso; revert k e; cases r.state <;> decide
  | posting y =>
    have k : r.state.judged = true := k
    exfalso; revert k e; cases r.state <;> decide
  | reject => rfl

/-- An order given when it is allowed leaves a lamp in FAULT or EXHAUSTED alone. -/
theorem LampOrder.run_rested (o : LampOrder) (b : Bool) (l : LampRec) (k : o.allowed b l) : LampRested l (o.run l) := by
  intro e
  cases o with
  | strike =>
    have k : strikeDecline b l = none := k
    unfold strikeDecline at k
    rcases e with e | e <;> cases b <;> simp [e] at k
  | putOut =>
    have : l.putOut = l := by rcases e with e | e <;> simp only [LampRec.putOut, e]
    simp only [LampOrder.run, this]
  | flag => rfl

/-- A reaction stays within the frame. -/
theorem Reaction.frame {s t : State} (h : Reaction s t) : ShowFrame s t := by
  cases h with
  | report r => exact ShowFrame.ofLine _ _ (LineUnit.report_receiver r _)
  | screen sc f _ k => exact ShowFrame.ofScreen sc f s k
  | emptyDeferred m => exact ShowFrame.ofDecoder m _ s
  | defer m c _ k => exact ShowFrame.ofDecoder m _ s
  | notePosting m y _ k => exact { ShowFrame.refl s with }
  | order m o _ k => exact ShowFrame.ofMachine m _ s (o.run_kept _) (o.run_rested _ k)
  | lamp m o _ k => exact ShowFrame.ofLamp m _ s (o.run_kept _) (o.run_rested _ _ k)
  | slot sc n st _ k => exact ShowFrame.slotNotice sc n st k s
  | place sc c r l f _ k =>
    have hs : Rank.safety ≠ r := by intro e; subst e; exact k
    have hc : Rank.console ≠ r := by intro e; subst e; exact k
    exact ShowFrame.ofCircuit sc c _ s (Circuit.place_claims _ r l f _ .safety hs)
      (Circuit.place_claims _ r l f _ .console hc)
  | release sc c r _ k =>
    have hs : Rank.safety ≠ r := by intro e; subst e; exact k
    have hc : Rank.console ≠ r := by intro e; subst e; exact k
    exact ShowFrame.ofCircuit sc c _ s (Circuit.release_claims _ r _ .safety hs)
      (Circuit.release_claims _ r _ .console hc)

/-- A run of reactions stays within the frame. -/
theorem Reactions.frame {s t : State} (h : Reactions s t) : ShowFrame s t := by
  induction h with
  | refl => exact .refl s
  | tail _ k ih => exact ih.trans k.frame

end Sys2Proof.Machine
end

