-- ==== Sys2Proof/Laws/Booth.lean ====
section
/-! SUPPORT. The law of the booth (R15, R155) across the orders a machine and a lamp take, and across every reaction. -/

namespace Sys2Proof.Machine

open Sys2Proof

/-! ### One machine's record -/

/-- The law of a record whose douser has been settled asks nothing of the douser (R15). -/
theorem MachineLaw.settle {r : MachineRec} {l : LampRec}
    (speedHold : r.holds.speed = (r.motor && r.speed != .atSpeed))
    (lampHold : r.holds.lamp = (l.state != .burning))
    (breakHold : r.holds.brk = (r.state == .broken))
    (breakCause : r.breakCause.isSome = (r.state == .broken))
    (beforeTrip : r.stateBeforeTrip.isSome = (r.state == .tripped))
    (motor : r.motor = (r.state.running || r.laceUp))
    (laceUp : r.laceUp = true → r.state = .empty)
    (turning : r.motor = true → r.speed ≠ .stopped ∧ r.noPulseTimer = none)
    (contactor : r.contactorMeasure.isSome = (r.motor && !r.contactorClosed))
    (stall : r.motor = false → r.startMeasure = none ∧ r.pulseMeasure = none) : MachineLaw r.settleDouser l :=
  ⟨r.settleDouser_opened, speedHold, lampHold, breakHold, breakCause, beforeTrip, motor, laceUp, turning, contactor,
    stall⟩

variable {r : MachineRec} {l : LampRec}

/-- A machine that neither runs nor laces up has its motor OFF. -/
theorem MachineLaw.motor_off (h : MachineLaw r l) (k : r.state.running = false) (e : r.state ≠ .empty) :
    r.motor = false := by
  rw [h.motor, k]
  cases g : r.laceUp with
  | false => rfl
  | true => exact absurd (h.laceUp g) e

/-- A running machine has its motor ON and laces up no film. -/
theorem MachineLaw.motor_on (h : MachineLaw r l) (k : r.state.running = true) : r.motor = true ∧ r.laceUp = false := by
  refine ⟨by rw [h.motor, k]; rfl, ?_⟩
  cases g : r.laceUp with
  | false => rfl
  | true => rw [h.laceUp g] at k; exact absurd k (by decide)

theorem MachineLaw.start (t : Nat) (h : MachineLaw r l) : MachineLaw (r.startOrder t).settleDouser l := by
  unfold MachineRec.startOrder
  split
  next e =>
    have m := h.motor_off (by rw [e]; rfl) (by rw [e]; decide)
    have b := h.breakHold; have c := h.breakCause; have d := h.beforeTrip
    rw [e] at b c d
    apply MachineLaw.settle <;> simp [MachineRec.motorOn, MachineRec.clearRing, m, HoldSet.put, MachineState.running]
    · exact h.lampHold
    · exact b
    · exact c
    · exact d
    · cases g : r.laceUp with
      | false => rfl
      | true => have := h.laceUp g; rw [e] at this; exact absurd this (by decide)
    · cases r.contactorClosed <;> rfl
  next => exact ⟨r.settleDouser_opened, h.2, h.3, h.4, h.5, h.6, h.7, h.8, h.9, h.10, h.11⟩

/-- A change between states of one kind, with every field of the law kept. -/
theorem MachineLaw.move (h : MachineLaw r l) (x : MachineRec)
    (e1 : x.holds = r.holds) (e2 : x.motor = r.motor) (e3 : x.speed = r.speed) (e4 : x.breakCause = r.breakCause)
    (e5 : x.stateBeforeTrip = r.stateBeforeTrip) (e6 : x.laceUp = r.laceUp) (e7 : x.noPulseTimer = r.noPulseTimer)
    (e8 : x.contactorMeasure = r.contactorMeasure) (e9 : x.contactorClosed = r.contactorClosed)
    (e10 : x.startMeasure = r.startMeasure) (e11 : x.pulseMeasure = r.pulseMeasure)
    (s1 : (x.state == .broken) = (r.state == .broken)) (s2 : (x.state == .tripped) = (r.state == .tripped))
    (s3 : x.state.running = r.state.running) (s4 : r.state = .empty → x.state = .empty) :
    MachineLaw x.settleDouser l := by
  apply MachineLaw.settle
  · rw [e1, e2, e3]; exact h.speedHold
  · rw [e1]; exact h.lampHold
  · rw [e1, s1]; exact h.breakHold
  · rw [e4, s1]; exact h.breakCause
  · rw [e5, s2]; exact h.beforeTrip
  · rw [e2, s3, e6]; exact h.motor
  · rw [e6]; exact fun k => s4 (h.laceUp k)
  · rw [e2, e3, e7]; exact h.turning
  · rw [e8, e2, e9]; exact h.contactor
  · rw [e2, e10, e11]; exact h.stall

theorem MachineLaw.same (h : MachineLaw r l) : MachineLaw r.settleDouser l :=
  h.move r rfl rfl rfl rfl rfl rfl rfl rfl rfl rfl rfl rfl rfl rfl fun e => e

theorem MachineLaw.takeScreen (lost : Option Nat) (h : MachineLaw r l) :
    MachineLaw (r.takeScreen lost).settleDouser l := by
  unfold MachineRec.takeScreen
  split
  next e => apply h.move <;> (simp [e]; try decide)
  next => exact h.same

theorem MachineLaw.giveUp (h : MachineLaw r l) : MachineLaw r.giveUp.settleDouser l := by
  unfold MachineRec.giveUp
  split
  next e => apply h.move <;> (simp [e]; try decide)
  next => exact h.same

/-- The motor goes OFF on entry to a state that does not run (R2). -/
theorem MachineLaw.stopAt (h : MachineLaw r l) (x : MachineRec)
    (e1 : x.holds.speed = r.holds.speed) (e2 : x.motor = r.motor) (e3 : x.speed = r.speed)
    (lamp : x.holds.lamp = r.holds.lamp)
    (b1 : x.holds.brk = (x.state == .broken)) (b2 : x.breakCause.isSome = (x.state == .broken))
    (b3 : x.stateBeforeTrip.isSome = (x.state == .tripped)) (e6 : x.laceUp = r.laceUp)
    (e8 : x.contactorMeasure = r.contactorMeasure) (e9 : x.contactorClosed = r.contactorClosed)
    (e10 : x.startMeasure = r.startMeasure) (e11 : x.pulseMeasure = r.pulseMeasure)
    (s3 : x.state.running = false) : MachineLaw x.motorOff.settleDouser l := by
  unfold MachineRec.motorOff
  split
  · apply MachineLaw.settle <;> simp_all [HoldSet.put]
    exact h.lampHold
  next k =>
    have k : x.motor = false := by simpa using k
    have m : r.motor = false := by rw [← e2]; exact k
    have la : r.laceUp = false := by
      have q := h.motor; rw [m] at q; revert q; cases r.laceUp <;> simp
    apply MachineLaw.settle
    · rw [e1, k, h.speedHold, m]; rfl
    · rw [lamp]; exact h.lampHold
    · exact b1
    · exact b2
    · exact b3
    · rw [k, s3, e6, la]; rfl
    · rw [e6, la]; exact fun q => absurd q (by decide)
    · rw [k]; exact fun q => absurd q (by decide)
    · rw [e8, h.contactor, m, k]; rfl
    · rw [e10, e11]; exact fun _ => h.stall m

/-- Emptying the ring does not touch the law. -/
theorem MachineLaw.clearRing (h : MachineLaw r.settleDouser l) : MachineLaw r.clearRing.settleDouser l :=
  ⟨MachineRec.settleDouser_opened _, h.2, h.3, h.4, h.5, h.6, h.7, h.8, h.9, h.10, h.11⟩

theorem MachineLaw.enterStopped (h : MachineLaw r l) (k : r.state.running = true) :
    MachineLaw r.enterStopped.settleDouser l := by
  have n1 : (r.state == .broken) = false := by revert k; cases r.state <;> decide
  have n2 : (r.state == .tripped) = false := by revert k; cases r.state <;> decide
  apply MachineLaw.clearRing
  apply h.stopAt <;> first | rfl | skip
  · simp [h.breakHold, n1]
  · simp [h.breakCause, n1]
  · simp [h.beforeTrip, n2]

theorem MachineLaw.enterBroken (c : BreakCause) (h : MachineLaw r l) (k : r.state.running = true) :
    MachineLaw (r.enterBroken c).settleDouser l := by
  have n2 : (r.state == .tripped) = false := by revert k; cases r.state <;> decide
  apply h.stopAt <;> first | rfl | skip
  simp [h.beforeTrip, n2]

theorem MachineLaw.takePosting (y : Bool) (h : MachineLaw r l) : MachineLaw (r.takePosting y).settleDouser l := by
  apply h.move (r.takePosting y) rfl rfl rfl rfl rfl rfl rfl rfl rfl rfl rfl
  all_goals
    simp only [MachineRec.takePosting]
    split
    next e => simp [e.1, MachineState.running]
    next =>
      split
      next e => simp [e.1, MachineState.running]
      next => simp

theorem Order.law (o : Order) (h : MachineLaw r l) (k : o.allowed r) : MachineLaw (o.run r).settleDouser l := by
  cases o with
  | settle => exact h.same
  | start t => exact h.start t
  | takeScreen x => exact h.takeScreen x
  | giveUp => exact h.giveUp
  | stop => exact h.enterStopped k
  | fail c => exact h.enterBroken c k
  | posting y => exact h.takePosting y
  | reject => exact h.move _ rfl rfl rfl rfl rfl rfl rfl rfl rfl rfl rfl rfl rfl rfl fun e => e

/-- A trip order (R19). -/
theorem MachineLaw.trip (h : MachineLaw r l) : MachineLaw r.trip.settleDouser l := by
  have b := h.breakHold
  have c := h.breakCause
  unfold MachineRec.trip
  split
  · exact h.same
  next e =>
    by_cases n : r.state = .broken
    · apply h.stopAt <;> simp only [MachineRec.leaveBroken, n, if_true] <;> rfl
    · have n2 : (r.state == .broken) = false := by simpa using n
      rw [n2] at b c
      apply h.stopAt <;> simp only [MachineRec.leaveBroken, n, if_false] <;> first | rfl | assumption

/-- A reel accepted by a machine EMPTY with its motor OFF (R16). -/
theorem MachineLaw.acceptReel (id : Text) (n : SlotIx) (h : MachineLaw r l) (e : r.state = .empty)
    (m : r.motor = false) : MachineLaw (r.acceptReel id n).settleDouser l := by
  have la : r.laceUp = false := by
    have q := h.motor; rw [m] at q; revert q; cases r.laceUp <;> simp
  have b := h.breakHold; have c := h.breakCause; have d := h.beforeTrip
  rw [e] at b c d
  apply MachineLaw.settle <;> simp only [MachineRec.acceptReel]
  · exact h.speedHold
  · exact h.lampHold
  · exact b
  · exact c
  · exact d
  · rw [m, la]; rfl
  · rw [la]; exact fun q => absurd q (by decide)
  · exact h.turning
  · exact h.contactor
  · exact h.stall

/-- UNTHREAD (R18). -/
theorem MachineLaw.unthread (h : MachineLaw r l) (k : r.state ≠ .tripped) : MachineLaw r.unthread.settleDouser l := by
  unfold MachineRec.unthread
  split
  · exact h.same
  next e =>
    have d := h.beforeTrip
    apply h.stopAt <;> simp only [MachineRec.leaveBroken] <;> first | rfl | skip
    all_goals split <;> first | rfl | skip
    next n => simp [h.breakHold, n]
    next n => simp [h.breakCause, n]
    all_goals simp [d, k]

/-- A release with film kept (R20). -/
theorem MachineLaw.releaseKept (h : MachineLaw r l) (k : r.state = .tripped) :
    MachineLaw r.releaseKept.settleDouser l := by
  have m := h.motor_off (by rw [k]; rfl) (by rw [k]; decide)
  have la : r.laceUp = false := by
    have q := h.motor; rw [m] at q; revert q; cases r.laceUp <;> simp
  have b := h.breakHold; have c := h.breakCause
  rw [k] at b c
  have sp := h.speedHold
  have cc : r.breakCause = none := Option.not_isSome_iff_eq_none.mp (by rw [c]; decide)
  unfold MachineRec.releaseKept
  dsimp only
  split
  · apply MachineLaw.settle <;> simp [HoldSet.put, m, la, MachineState.running]
    · simpa [m] using sp
    · exact h.lampHold
    · simpa [m] using h.contactor
    · exact h.stall m
  · split
    · apply MachineLaw.settle <;> simp [HoldSet.put, m, la, MachineState.running, cc]
      · simpa [m] using sp
      · exact h.lampHold
      · exact b
      · simpa [m] using h.contactor
      · exact h.stall m
    · split
      all_goals
        apply MachineLaw.settle <;> simp [MachineRec.clearRing, HoldSet.put, m, la, MachineState.running, cc]
        · simpa [m] using sp
        · exact h.lampHold
        · exact b
        · simpa [m] using h.contactor
        · exact h.stall m

/-- A release with film lost (R21). -/
theorem MachineLaw.releaseLost (h : MachineLaw r l) (k : r.state = .tripped) :
    MachineLaw r.releaseLost.settleDouser l := by
  have m := h.motor_off (by rw [k]; rfl) (by rw [k]; decide)
  have la : r.laceUp = false := by
    have q := h.motor; rw [m] at q; revert q; cases r.laceUp <;> simp
  have b := h.breakHold; have c := h.breakCause
  rw [k] at b c
  apply MachineLaw.settle <;> simp [MachineRec.releaseLost, HoldSet.put, m, la, MachineState.running]
  · simpa [m] using h.speedHold
  · exact h.lampHold
  · exact b
  · exact c
  · simpa [m] using h.contactor
  · exact h.stall m

/-- MOTOR m ON in EMPTY (R23). -/
theorem MachineLaw.laceUpOn (t : Nat) (h : MachineLaw r l) (e : r.state = .empty) :
    MachineLaw (r.laceUpOn t).settleDouser l := by
  unfold MachineRec.laceUpOn
  split
  · exact h.same
  next m =>
    have b := h.breakHold; have c := h.breakCause; have d := h.beforeTrip
    rw [e] at b c d
    apply MachineLaw.settle <;> simp [MachineRec.motorOn, MachineRec.clearRing, m, HoldSet.put, e]
    · exact h.lampHold
    · simpa using b
    · simpa using c
    · simpa using d
    · cases r.contactorClosed <;> rfl

/-- The motor goes OFF in EMPTY (R3, R23). -/
theorem MachineLaw.motorOff (h : MachineLaw r l) (e : r.state = .empty) : MachineLaw r.motorOff.settleDouser l :=
  h.stopAt r rfl rfl rfl rfl h.breakHold h.breakCause h.beforeTrip rfl rfl rfl rfl rfl (by rw [e]; rfl)

/-- The contactor sense (R3). -/
theorem MachineLaw.takeContactorSense (c : Bool) (h : MachineLaw r l) :
    MachineLaw (r.takeContactorSense c).settleDouser l := by
  have k := h.contactor
  apply MachineLaw.settle
  · exact h.speedHold
  · exact h.lampHold
  · exact h.breakHold
  · exact h.breakCause
  · exact h.beforeTrip
  · exact h.motor
  · exact h.laceUp
  · exact h.turning
  · simp only [MachineRec.takeContactorSense]
    cases g : r.motor <;> cases c <;> cases f : r.contactorClosed <;> simp_all
  · exact h.stall

/-- The no-pulse timer of a machine whose motor is OFF expires (R33). -/
theorem MachineLaw.noPulse (h : MachineLaw r l) (k : r.noPulseTimer.isSome = true) :
    MachineLaw r.noPulse.settleDouser l := by
  have m : r.motor = false := by
    cases g : r.motor with
    | false => rfl
    | true => rw [(h.turning g).2] at k; exact absurd k (by decide)
  apply MachineLaw.settle
  · simp only [MachineRec.noPulse, MachineRec.clearRing]; rw [h.speedHold, m]; rfl
  · exact h.lampHold
  · exact h.breakHold
  · exact h.breakCause
  · exact h.beforeTrip
  · exact h.motor
  · exact h.laceUp
  · simp [MachineRec.noPulse, MachineRec.clearRing, m]
  · exact h.contactor
  · exact h.stall

/-- A speed evaluation, made with the motor ON (R31, R32, R6, R14). -/
theorem MachineLaw.judgeSpeed (i : Bool) (h : MachineLaw r.settleDouser l) (m : r.motor = true) :
    MachineLaw (r.judgeSpeed i).settleDouser l := by
  have keep : ∀ a b, MachineLaw (MachineRec.settleDouser { r with inBandRun := a, outBandRun := b }) l := fun a b =>
    ⟨MachineRec.settleDouser_opened _, h.2, h.3, h.4, h.5, h.6, h.7, h.8, h.9, h.10, h.11⟩
  unfold MachineRec.judgeSpeed
  generalize (if i = true then min Config.bandRun (r.inBandRun + 1) else 0) = a
  generalize (if i = true then 0 else min Config.bandRun (r.outBandRun + 1)) = b
  dsimp only
  split
  · split
    · unfold MachineRec.firstAtSpeed
      dsimp only
      split
      next e =>
        have b := h.breakHold; have c := h.breakCause; have d := h.beforeTrip; have mo := h.motor
        simp only [MachineRec.settleDouser_state, e] at b c d mo
        apply MachineLaw.settle <;> simp [HoldSet.put, m, MachineState.running]
        · exact h.lampHold
        · exact b
        · exact c
        · exact d
        · cases g : r.laceUp with
          | false => rfl
          | true => have := h.laceUp g; simp [e] at this
        · exact (h.turning m).2
        · simpa [m] using h.contactor
      next e =>
        apply MachineLaw.settle <;> simp [HoldSet.put, m]
        · exact h.lampHold
        · exact h.breakHold
        · exact h.breakCause
        · exact h.beforeTrip
        · have := h.motor; simpa [m] using this
        · exact h.laceUp
        · exact (h.turning m).2
        · simpa [m] using h.contactor
    · exact keep _ _
  · split
    · apply MachineLaw.settle <;> simp [HoldSet.put, m]
      · exact h.lampHold
      · exact h.breakHold
      · exact h.breakCause
      · exact h.beforeTrip
      · have := h.motor; simpa [m] using this
      · exact h.laceUp
      · exact (h.turning m).2
      · simpa [m] using h.contactor
    · exact keep _ _
  · split
    · apply MachineLaw.settle <;> simp [HoldSet.put, m]
      · exact h.lampHold
      · exact h.breakHold
      · exact h.breakCause
      · exact h.beforeTrip
      · have := h.motor; simpa [m] using this
      · exact h.laceUp
      · exact (h.turning m).2
      · simpa [m] using h.contactor
    · exact keep _ _
  · exact keep _ _

/-- A period entry with the motor ON (R28, R30). -/
theorem MachineLaw.enterPeriod (h : MachineLaw r.settleDouser l) (m : r.motor = true) :
    MachineLaw r.enterPeriod.settleDouser l := by
  unfold MachineRec.enterPeriod
  split
  · dsimp only
    unfold MachineRec.formAverage
    split
    · exact MachineLaw.judgeSpeed _
        ⟨MachineRec.settleDouser_opened _, h.2, h.3, h.4, h.5, h.6, h.7, h.8, h.9, h.10, h.11⟩ m
    · exact ⟨MachineRec.settleDouser_opened _, h.2, h.3, h.4, h.5, h.6, h.7, h.8, h.9, h.10, h.11⟩
  · exact ⟨MachineRec.settleDouser_opened _, h.2, h.3, h.4, h.5, h.6, h.7, h.8, h.9, h.10, h.11⟩

theorem MachineLaw.countFrame (h : MachineLaw r l) : MachineLaw r.countFrame.settleDouser l := by
  unfold MachineRec.countFrame
  split
  · exact h.same
  · split <;> exact ⟨MachineRec.settleDouser_opened _, h.2, h.3, h.4, h.5, h.6, h.7, h.8, h.9, h.10, h.11⟩

theorem MachineRec.countFrame_motor (r : MachineRec) : r.countFrame.motor = r.motor := by
  unfold MachineRec.countFrame
  split
  · rfl
  · split <;> rfl

theorem MachineRec.countFrame_noPulseTimer (r : MachineRec) : r.countFrame.noPulseTimer = r.noPulseTimer := by
  unfold MachineRec.countFrame
  split
  · rfl
  · split <;> rfl

/-- A frame pulse (R4). -/
theorem MachineLaw.pulse (h : MachineLaw r l) : MachineLaw r.pulse.settleDouser l := by
  have c := h.countFrame
  have e := r.countFrame_motor
  unfold MachineRec.pulse
  dsimp only
  split
  next m =>
    have m2 : r.countFrame.motor = true := by rw [e]; exact m
    apply MachineLaw.enterPeriod
    · refine ⟨MachineRec.settleDouser_opened _, c.2, c.3, c.4, c.5, c.6, c.7, c.8, c.9, c.10, ?_⟩
      intro k
      exact absurd (k.symm.trans m2) (by decide)
    · exact m2
  next m =>
    refine ⟨MachineRec.settleDouser_opened _, c.2, c.3, c.4, c.5, c.6, c.7, c.8, ?_, c.10, c.11⟩
    intro k
    exact absurd (e.symm.trans k) m

/-- The passing of time (Table 2-1). -/
theorem MachineLaw.elapse (dt : Nat) (h : MachineLaw r l) : MachineLaw (r.elapse dt) l := by
  have k : ∀ lim (t : Timer), (Timer.advance lim dt t).isSome = t.isSome := fun _ t => by cases t <;> rfl
  have k0 : ∀ lim (t : Timer), t = none → Timer.advance lim dt t = none := fun _ t e => by rw [e]; rfl
  exact ⟨h.1, h.2, h.3, h.4, h.5, h.6, h.7, h.8, fun m => ⟨(h.turning m).1, k0 _ _ (h.turning m).2⟩,
    by rw [show (r.elapse dt).contactorMeasure.isSome = r.contactorMeasure.isSome from k _ _]; exact h.contactor,
    fun m => ⟨k0 _ _ (h.stall m).1, k0 _ _ (h.stall m).2⟩⟩

/-- RESTART (R27, R42); the lamp has its own RESTART after it. -/
theorem MachineLaw.restart (latched : Bool) (h : MachineLaw r l) (k : latched = (r.state == .tripped)) :
    MachineLaw (r.restart latched).settleDouser l := by
  have base : MachineLaw (MachineRec.settleDouser (MachineRec.motorOff { r with
      holds := r.holds.put .brk false, state := if latched then .tripped else .empty, breakCause := none
      stateBeforeTrip := if latched then some .empty else none })) l := by
    apply h.stopAt <;> simp only [] <;> first | rfl | skip
    all_goals cases latched <;> rfl
  have lace : r.motorOff.laceUp = false := by
    unfold MachineRec.motorOff
    split
    · rfl
    next m =>
      have q := h.motor
      have m : r.motor = false := by simpa using m
      rw [m] at q; revert q; cases r.laceUp <;> simp
  have off : r.motorOff.motor = false := by
    unfold MachineRec.motorOff
    split
    · rfl
    next m => simpa using m
  have sp : r.motorOff.holds.speed = false := by
    unfold MachineRec.motorOff
    split
    · rfl
    next m => rw [h.speedHold]; simp [m]
  have lampH : r.motorOff.holds.lamp = (l.state != .burning) := by
    unfold MachineRec.motorOff
    split <;> exact h.lampHold
  have con : r.motorOff.contactorMeasure = none := by
    unfold MachineRec.motorOff
    split
    · rfl
    next m =>
      have := h.contactor
      simpa [m] using this
  have st : r.motorOff.startMeasure = none ∧ r.motorOff.pulseMeasure = none := by
    unfold MachineRec.motorOff
    split
    · exact ⟨rfl, rfl⟩
    next m => exact h.stall (by simpa using m)
  apply MachineLaw.settle <;>
    simp only [MachineRec.restart, MachineRec.clearRing, HoldSet.put, off, lace, sp, lampH, con, st] <;>
    cases latched <;> simp [MachineState.running]

end Sys2Proof.Machine
end

