-- ==== Sys2Proof/Laws/Lamp.lean ====
section
/-! SUPPORT. The law of a lamp's record (Chapter 4) across everything the lamp unit does, and the law of the booth
(R15, R155) across every reaction. -/

namespace Sys2Proof.Machine

open Sys2Proof

variable {l : LampRec}

/-- A lamp in a state other than STRIKING has no phase. -/
theorem LampLaw.no_phase (h : LampLaw l) (k : l.state ≠ .striking) : l.phase = none := by
  have p := h.phase
  have e : (l.state == .striking) = false := by simpa using k
  rw [e] at p
  exact Option.not_isSome_iff_eq_none.mp (by rw [p]; decide)

theorem LampLaw.no_bucket (h : LampLaw l) (k : l.state ≠ .burning) : l.openBucket = none ∧ l.bucketMeasure = none := by
  have e : (l.state == .burning) = false := by simpa using k
  have p := h.openBucket
  have q := h.bucketMeasure
  rw [e] at p q
  exact ⟨Option.not_isSome_iff_eq_none.mp (by rw [p]; decide), Option.not_isSome_iff_eq_none.mp (by rw [q]; decide)⟩

theorem LampLaw.no_fault (h : LampLaw l) (k : l.state ≠ .fault) : l.faultCause = none := by
  have e : (l.state == .fault) = false := by simpa using k
  have p := h.faultCause
  rw [e] at p
  exact Option.not_isSome_iff_eq_none.mp (by rw [p]; decide)

theorem LampLaw.no_attempt (h : LampLaw l) (k : l.state ≠ .striking) : l.attempt = 0 := by
  have p := h.attempt.2
  simp only [k, iff_false] at p
  omega

theorem LampLaw.no_restrike (h : LampLaw l) (k : l.state ≠ .striking) : l.restrike = false := by
  cases g : l.restrike with
  | false => rfl
  | true => exact absurd (h.restrike g) k

/-- Recomputing the forecast keeps the law (R77, R78). -/
theorem LampLaw.recompute (a : l.contactorClosed = (l.state == .burning || (l.state == .striking && l.phase != some .pause)))
    (b : l.phase.isSome = (l.state == .striking)) (c : l.faultCause.isSome = (l.state == .fault))
    (d : l.gate.isSome = true → l.contactorClosed = true) (e : l.openBucket.isSome = (l.state == .burning))
    (f : l.bucketMeasure.isSome = (l.state == .burning)) (g : l.restrike = true → l.state = .striking)
    (i : l.attempt ≤ 3 ∧ (0 < l.attempt ↔ l.state = .striking)) (j : l.phase = some .pause → l.attempt < 3)
    (n : l.lateGate = true → l.contactorClosed = false) : LampLaw l.recompute :=
  ⟨a, b, c, d, e, f, g, i, j, by simp [LampRec.recompute], n⟩

theorem LampLaw.recompute' (h : LampLaw l) : LampLaw l.recompute :=
  LampLaw.recompute h.1 h.2 h.3 h.4 h.5 h.6 h.7 h.8 h.9 h.11

theorem LampLaw.stopMeasures (h : LampLaw l) : LampLaw l.stopMeasures :=
  ⟨h.1, h.2, h.3, h.4, h.5, h.6, h.7, h.8, h.9, h.10, h.11⟩

/-- An attempt begins (R65). -/
theorem LampLaw.beginAttempt (o : l.openBucket = none ∧ l.bucketMeasure = none) (f : l.faultCause = none)
    (a : 0 < l.attempt ∧ l.attempt ≤ 3) (c : l.carbonOk.isSome = l.boundLength.isSome) : LampLaw l.beginAttempt := by
  constructor <;> simp [LampRec.beginAttempt, LampRec.stopMeasures, o, f, a, c]

theorem LampLaw.beginStrike (h : LampLaw l) (k : l.state = .dark) : LampLaw l.beginStrike :=
  LampLaw.beginAttempt (h.no_bucket (by rw [k]; decide)) (h.no_fault (by rw [k]; decide)) ⟨Nat.one_pos, Nat.le_of_ble_eq_true rfl⟩
    h.carbonOk

theorem LampLaw.touchFound (h : LampLaw l) (k : l.state = .striking) (p : l.phase = some .feed) :
    LampLaw l.touchFound := by
  have a := h.1
  simp [k, p] at a
  constructor <;> simp [LampRec.touchFound, k, a]
  · decide
  · simpa [k] using h.faultCause
  · have := h.openBucket; simpa [k] using this
  · have := h.bucketMeasure; simpa [k] using this
  · have := h.attempt; simpa [k] using this
  · exact h.carbonOk
  · have := h.lateGate; simpa [a] using this

theorem LampLaw.attemptFails (h : LampLaw l) (k : l.state = .striking) : LampLaw l.attemptFails.1 := by
  have o := h.no_bucket (by rw [k]; decide)
  have f := h.no_fault (by rw [k]; decide)
  have a := h.attempt
  simp [k] at a
  unfold LampRec.attemptFails
  dsimp only
  split
  · constructor <;> (simp [LampRec.openContactor, LampRec.stopMeasures, o]; first | decide | exact h.carbonOk | skip)
  next nr =>
    have nr : l.restrike = false := by simpa using nr
    split
    next n =>
      constructor <;>
        (simp [LampRec.openContactor, LampRec.stopMeasures, o, f, k, a, n, nr]; first | decide | exact h.carbonOk | skip)
    next n =>
      constructor <;>
        (simp [LampRec.openContactor, LampRec.stopMeasures, o, nr]; first | decide | exact h.carbonOk | skip)

theorem LampRec.attemptFails_open (l : LampRec) : l.attemptFails.1.contactorClosed = false := by
  unfold LampRec.attemptFails
  dsimp only
  split
  · rfl
  · split <;> rfl

theorem LampLaw.touchExpires (h : LampLaw l) : LampLaw l.touchExpires.1 := by
  unfold LampRec.touchExpires
  split
  next k =>
    have x := h.attemptFails k.1
    exact ⟨x.1, x.2, x.3, x.4, x.5, x.6, x.7, x.8, x.9, x.10, fun _ => l.attemptFails_open⟩
  next => exact h

theorem LampLaw.retractExpires (h : LampLaw l) : LampLaw l.retractExpires := by
  unfold LampRec.retractExpires
  split
  next k =>
    have a := h.1
    simp [k] at a
    exact ⟨by simp only [k.1]; exact a, by simp [k.1], h.3, fun _ => a, h.5, h.6, h.7, h.8, by simp, h.10, h.11⟩
  next => exact h

theorem LampLaw.pauseExpires (h : LampLaw l) : LampLaw l.pauseExpires := by
  unfold LampRec.pauseExpires
  split
  next k =>
    have o := h.no_bucket (by rw [k.1]; decide)
    have p := h.pause k.2.1
    exact LampLaw.beginAttempt o (h.no_fault (by rw [k.1]; decide)) ⟨Nat.succ_pos _, p⟩ h.carbonOk
  next => exact h

theorem LampLaw.shortGapExpires (h : LampLaw l) : LampLaw l.shortGapExpires := by
  unfold LampRec.shortGapExpires
  split
  next k =>
    have a := h.1
    simp [k.1] at a
    exact ⟨h.1, h.2, h.3, fun _ => a, h.5, h.6, h.7, h.8, h.9, h.10, h.11⟩
  next => exact h

theorem LampLaw.encoderPulse (f : Bool) (h : LampLaw l) : LampLaw (l.encoderPulse f) := by
  have o : (l.encoderPulse f).openBucket.isSome = l.openBucket.isSome := by
    simp only [LampRec.encoderPulse]
    split
    · cases l.openBucket <;> rfl
    · rfl
  exact ⟨h.1, h.2, h.3, h.4, o.trans h.5, h.6, h.7, h.8, h.9, h.10, h.11⟩

/-- The contactor opens as a lamp leaves BURNING or STRIKING for a state at rest (R72, R73, R75, R85). -/
theorem LampLaw.atRest (x : LampRec) (s1 : x.state = .dark ∨ x.state = .exhausted) (c : x.contactorClosed = false)
    (p : x.phase = none) (f : x.faultCause = none) (g : x.gate = none) (o : x.openBucket = none)
    (b : x.bucketMeasure = none) (r : x.restrike = false) (a : x.attempt = 0) : LampLaw x.recompute := by
  apply LampLaw.recompute <;> rcases s1 with s1 | s1 <;> simp [s1, c, p, f, g, o, b, r, a]

theorem LampLaw.exhaust (h : LampLaw l) (k : l.state = .burning ∨ l.state = .striking) : LampLaw l.exhaust := by
  have f := h.no_fault (by rcases k with k | k <;> rw [k] <;> decide)
  exact LampLaw.atRest _ (.inr rfl) rfl rfl f rfl rfl rfl rfl rfl

theorem LampLaw.putOut (h : LampLaw l) : LampLaw l.putOut := by
  unfold LampRec.putOut
  split
  next k =>
    exact LampLaw.atRest _ (.inl rfl) rfl (h.no_phase (by rw [k]; decide)) (h.no_fault (by rw [k]; decide)) rfl rfl rfl
      (h.no_restrike (by rw [k]; decide)) (h.no_attempt (by rw [k]; decide))
  next k =>
    have o := h.no_bucket (by rw [k]; decide)
    exact LampLaw.atRest _ (.inl rfl) rfl rfl (h.no_fault (by rw [k]; decide)) rfl o.1 o.2 rfl rfl
  all_goals exact h

theorem LampLaw.arcOff (h : LampLaw l) : LampLaw l.arcOff := by
  unfold LampRec.arcOff
  split
  next k =>
    have a := h.1; have b := h.2; have e := h.5; have f := h.6; have at_ := h.8
    have r := h.no_restrike (by rw [k]; decide)
    simp only [k] at a b e f at_
    refine ⟨a, b, rfl, h.4, e, f, by simp [r], ?_, h.9, h.10, h.11⟩
    simpa using at_
  all_goals exact h.putOut

/-- TRIM is taken with the contactor OPEN and no strike (R81). -/
theorem LampLaw.newTrim (mm : Nat) (h : LampLaw l) (c : l.contactorClosed = false) (k : l.state ≠ .striking) :
    LampLaw (l.newTrim mm) := by
  have a := h.1
  have nb : l.state ≠ .burning := by
    intro e
    rw [c, e] at a
    simp at a
  have p := h.no_phase k
  have o := h.no_bucket nb
  have r := h.no_restrike k
  have at_ := h.no_attempt k
  have g : l.gate = none := by
    cases e : l.gate with
    | none => rfl
    | some v => have := h.gate (by rw [e]; rfl); rw [c] at this; exact absurd this (by decide)
  apply LampLaw.atRest <;> simp only [c, p, o, r, at_, g]
  · revert k nb
    cases l.state <;> simp
  · by_cases e : l.state = .fault
    · simp [e]
    · simp [e, h.no_fault e]

theorem LampLaw.bind (n : Nat) (h : LampLaw l) : LampLaw (l.bind n) :=
  LampLaw.recompute (l := { l with boundLength := some n, shortfallReported := false }) h.1 h.2 h.3 h.4 h.5 h.6 h.7 h.8
    h.9 h.11

theorem LampLaw.unbind (h : LampLaw l) : LampLaw l.unbind :=
  LampLaw.recompute (l := { l with boundLength := none }) h.1 h.2 h.3 h.4 h.5 h.6 h.7 h.8 h.9 h.11

theorem LampLaw.flag (h : LampLaw l) : LampLaw { l with shortfallReported := true } :=
  ⟨h.1, h.2, h.3, h.4, h.5, h.6, h.7, h.8, h.9, h.10, h.11⟩

theorem LampLaw.withSettings (x : LampSettings) (h : LampLaw l) : LampLaw (l.withSettings x) :=
  LampLaw.recompute h.1 h.2 h.3 h.4 h.5 h.6 h.7 h.8 h.9 h.11

theorem LampLaw.restart : LampLaw l.restart :=
  LampLaw.atRest _ (by dsimp only; split; exacts [.inr rfl, .inl rfl]) rfl rfl rfl rfl rfl rfl rfl rfl

theorem LampLaw.bucketExpires (h : LampLaw l) (k : l.state = .burning) : LampLaw l.bucketExpires :=
  LampLaw.recompute h.1 h.2 h.3 h.4 (by simp [k]) (by simp [k]) h.7 h.8 h.9 h.11

theorem LampLaw.established (h : LampLaw l) (k : l.state = .striking) (p : l.phase = some .prove) :
    LampLaw l.established.1 := by
  have a := h.1
  simp [k, p] at a
  apply LampLaw.recompute <;> simp [a]
  · have := h.faultCause
    rw [k] at this
    exact this
  · simpa [a] using h.lateGate

theorem LampLaw.proveGate (h : LampLaw l) (k : l.state = .striking) (p : l.phase = some .prove) :
    LampLaw l.proveGate.1 := by
  have x : LampLaw { l with feedForward := true, feedDuty := l.regulationDuty, proveGates := l.proveGates + 1 } :=
    ⟨h.1, h.2, h.3, h.4, h.5, h.6, h.7, h.8, h.9, h.10, h.11⟩
  unfold LampRec.proveGate
  dsimp only
  split
  · exact x.attemptFails k
  · split
    · exact x.established k p
    · exact x

theorem LampLaw.arcGoesOut (h : LampLaw l) (k : l.state = .burning) : LampLaw l.arcGoesOut := by
  have f := h.no_fault (by rw [k]; decide)
  exact (LampLaw.beginAttempt ⟨rfl, rfl⟩ f ⟨Nat.one_pos, Nat.le_of_ble_eq_true rfl⟩ h.carbonOk
    (l := { l.discardBucket with arcOutRun := 0, shortGapRun := 0, restrike := true, attempt := 1 })).recompute'

theorem LampLaw.burningGate (h : LampLaw l) (k : l.state = .burning) : LampLaw l.burningGate := by
  unfold LampRec.burningGate
  generalize (if l.arcCount ≤ Config.shortGapCount then l.shortGapRun + 1 else 0) = a
  generalize (if Config.arcOutCount ≤ l.arcCount then l.arcOutRun + 1 else 0) = b
  dsimp only
  split
  · exact ⟨h.1, h.2, h.3, fun q => Bool.noConfusion q, h.5, h.6, h.7, h.8, h.9, h.10, h.11⟩
  · split
    · exact LampLaw.arcGoesOut ⟨h.1, h.2, h.3, h.4, h.5, h.6, h.7, h.8, h.9, h.10, h.11⟩ k
    · exact ⟨h.1, h.2, h.3, h.4, h.5, h.6, h.7, h.8, h.9, h.10, h.11⟩

/-- A gate late for the touch measure writes the arc count alone. -/
theorem LampRec.takeLateGate_eq (n : Nat) (l : LampRec) :
    l.takeLateGate n = { l with
      arcCount := if l.lateGate then min Config.maxArcCount n else l.arcCount, lateGate := false } := by
  unfold LampRec.takeLateGate
  split
  · rfl
  · next h => rw [Bool.not_eq_true] at h; exact (by rw [← h] : l = { l with lateGate := false })

theorem LampLaw.takeLateGate (n : Nat) (h : LampLaw l) : LampLaw (l.takeLateGate n) := by
  unfold LampRec.takeLateGate
  split
  · exact ⟨h.1, h.2, h.3, h.4, h.5, h.6, h.7, h.8, h.9, h.10, fun q => Bool.noConfusion q⟩
  · exact h

theorem LampLaw.takeGate (n : Nat) (h : LampLaw l) : LampLaw (l.takeGate n).1 := by
  unfold LampRec.takeGate
  split
  · exact h.takeLateGate n
  next g =>
    have c := h.gate (by rw [g]; rfl)
    have x : LampLaw { l with arcCount := min Config.maxArcCount n, gate := some 0 } :=
      ⟨h.1, h.2, h.3, fun _ => c, h.5, h.6, h.7, h.8, h.9, h.10, h.11⟩
    dsimp only
    split
    next k p =>
      split
      · exact x.touchFound k p
      · exact x
    next k p => exact x.proveGate k p
    next k => exact x.burningGate k
    next => exact x

theorem LampLaw.elapse (dt : Nat) (h : LampLaw l) : LampLaw (l.elapse dt) := by
  have k : ∀ lim (t : Timer), (Timer.advance lim dt t).isSome = t.isSome := fun _ t => by cases t <;> rfl
  exact ⟨h.1, h.2, h.3, fun g => h.4 (by rw [← k Config.gateLimit l.gate]; exact g), h.5,
    (k Config.bucketLimit l.bucketMeasure).trans h.6, h.7, h.8, h.9, h.10, fun q => h.11 (Bool.and_eq_true_iff.mp q).1⟩

theorem LampOrder.law (o : LampOrder) (b : Bool) (h : LampLaw l) (k : o.allowed b l) : LampLaw (o.run l) := by
  cases o with
  | strike =>
    refine h.beginStrike ?_
    simp only [LampOrder.allowed, strikeDecline] at k
    split at k
    · exact absurd k (by simp)
    · split at k
      · exact absurd k (by simp)
      next n => simpa using n
  | putOut => exact h.putOut
  | flag => exact h.flag

/-! ### The law of the booth across one change -/

variable {s : State}

/-- A machine's record changes and nothing else of the booth does. -/
theorem BoothLaw.ofMachine (h : BoothLaw s) (m : MachineId) (f : MachineRec → MachineRec)
    (law : MachineLaw (f (s.machine m)).settleDouser (s.lamp m))
    (set : (s.fire.machineLatch.get m).isSome = true →
      (f (s.machine m)).state = .tripped ∧ (f (s.machine m)).motor = false ∧ (f (s.machine m)).holds.fire = true)
    (clear : s.fire.machineLatch.get m = none →
      (f (s.machine m)).state ≠ .tripped ∧ (f (s.machine m)).holds.fire = false) : BoothLaw (s.modMachine m f) where
  machine k := by
    rw [State.modMachine_machine, State.modMachine_lamp]
    split
    next e => subst e; exact law
    next => exact h.machine k
  lamp k := h.lamp k
  latched k q := by
    have l := h.latched k q
    rw [State.modMachine_machine, State.modMachine_lamp]
    split
    next e =>
      subst e
      have x := set q
      exact ⟨x.1, x.2.1, x.2.2, l.arcOpen, l.arcOut, l.magnetOff⟩
    next => exact l
  unlatched k q := by
    have l := h.unlatched k q
    rw [State.modMachine_machine]
    split
    next e =>
      subst e
      have x := clear q
      exact ⟨x.1, x.2⟩
    next => exact l
  booth := h.booth

/-- A machine's record changes in no field that the latches speak of. -/
theorem BoothLaw.ofMachine' (h : BoothLaw s) (m : MachineId) (f : MachineRec → MachineRec)
    (law : MachineLaw (f (s.machine m)).settleDouser (s.lamp m))
    (st : (f (s.machine m)).state = .tripped ↔ (s.machine m).state = .tripped)
    (mo : (s.machine m).state = .tripped → (f (s.machine m)).motor = (s.machine m).motor)
    (fi : (f (s.machine m)).holds.fire = (s.machine m).holds.fire) : BoothLaw (s.modMachine m f) :=
  h.ofMachine m f law
    (fun q => have l := h.latched m q
      ⟨st.mpr l.tripped, (mo l.tripped).trans l.motorOff, fi.trans l.fireHeld⟩)
    (fun q => have l := h.unlatched m q
      ⟨fun e => l.notTripped (st.mp e), fi.trans l.fireFree⟩)

/-- LAMP follows BURNING as a lamp's record changes (R62). -/
theorem MachineLaw.ofLamp {r : MachineRec} {l x : LampRec} (h : MachineLaw r l) :
    MachineLaw (if (l.state == .burning) = (x.state == .burning) then r
      else MachineRec.settleDouser { r with holds := r.holds.put .lamp (x.state != .burning) }) x := by
  split
  next e =>
    have k : (l.state != .burning) = (x.state != .burning) := by simp only [bne, e]
    exact ⟨h.1, h.2, h.3.trans k, h.4, h.5, h.6, h.7, h.8, h.9, h.10, h.11⟩
  next => exact ⟨MachineRec.settleDouser_opened _, h.2, rfl, h.4, h.5, h.6, h.7, h.8, h.9, h.10, h.11⟩

theorem State.modLamp_machine' (m k : MachineId) (f : LampRec → LampRec) (s : State) :
    (s.modLamp m f).machine k = if k = m then
      (if ((s.lamp m).state == .burning) = ((f (s.lamp m)).state == .burning) then s.machine m
        else MachineRec.settleDouser { s.machine m with
          holds := (s.machine m).holds.put .lamp ((f (s.lamp m)).state != .burning) })
      else s.machine k := by
  rw [State.modLamp_machine]
  by_cases e : k = m
  · subst e
    by_cases g : ((s.lamp k).state == .burning) = ((f (s.lamp k)).state == .burning) <;> simp [g]
  · simp [e]

/-- A lamp's record changes and nothing else of the booth does. -/
theorem BoothLaw.ofLamp (h : BoothLaw s) (m : MachineId) (f : LampRec → LampRec) (law : LampLaw (f (s.lamp m)))
    (set : (s.fire.machineLatch.get m).isSome = true → (f (s.lamp m)).contactorClosed = false
      ∧ (f (s.lamp m)).state ≠ .burning ∧ (f (s.lamp m)).state ≠ .striking) : BoothLaw (s.modLamp m f) where
  machine k := by
    rw [State.modLamp_machine', State.modLamp_lamp]
    by_cases e : k = m
    · subst e; simp only [if_true]; exact (h.machine k).ofLamp
    · simp only [e, if_false]; exact h.machine k
  lamp k := by
    rw [State.modLamp_lamp]
    split
    · exact law
    · exact h.lamp k
  latched k q := by
    rw [State.modLamp_fire] at q
    have l := h.latched k q
    rw [State.modLamp_machine', State.modLamp_lamp, State.modLamp_fire]
    by_cases e : k = m
    · subst e
      have x := set q
      simp only [if_true]
      split
      · exact ⟨l.tripped, l.motorOff, l.fireHeld, x.1, x.2, l.magnetOff⟩
      · exact ⟨l.tripped, l.motorOff, l.fireHeld, x.1, x.2, l.magnetOff⟩
    · simp only [e, if_false]; exact l
  unlatched k q := by
    rw [State.modLamp_fire] at q
    have l := h.unlatched k q
    rw [State.modLamp_machine']
    by_cases e : k = m
    · subst e
      simp only [if_true]
      split
      · exact l
      · exact ⟨l.notTripped, l.fireFree⟩
    · simp only [e, if_false]; exact l
  booth := by rw [State.modLamp_fire]; exact h.booth

theorem Order.run_tripped (o : Order) (r : MachineRec) (k : o.allowed r) :
    ((o.run r).state = .tripped ↔ r.state = .tripped) ∧ (r.state = .tripped → (o.run r).motor = r.motor) := by
  cases o with
  | settle => exact ⟨Iff.rfl, fun _ => rfl⟩
  | start t =>
    simp only [Order.run, MachineRec.startOrder]
    split
    next e =>
      have : (MachineRec.motorOn t { r with state := .starting }).state = .starting := by
        unfold MachineRec.motorOn; split <;> rfl
      rw [this, e]
      simp
    next => exact ⟨Iff.rfl, fun _ => rfl⟩
  | takeScreen l =>
    simp only [Order.run, MachineRec.takeScreen]
    split
    next e => simp [e]
    next => exact ⟨Iff.rfl, fun _ => rfl⟩
  | giveUp =>
    simp only [Order.run, MachineRec.giveUp]
    split
    next e => simp [e]
    next => exact ⟨Iff.rfl, fun _ => rfl⟩
  | stop =>
    have n : r.state ≠ .tripped := by intro e; simp [Order.allowed, e, MachineState.running] at k
    refine ⟨⟨fun e => ?_, fun e => absurd e n⟩, fun e => absurd e n⟩
    simp only [Order.run, MachineRec.enterStopped, MachineRec.clearRing, MachineRec.motorOff] at e
    split at e <;> simp at e
  | fail c =>
    have n : r.state ≠ .tripped := by intro e; simp [Order.allowed, e, MachineState.running] at k
    refine ⟨⟨fun e => ?_, fun e => absurd e n⟩, fun e => absurd e n⟩
    simp only [Order.run, MachineRec.enterBroken, MachineRec.motorOff] at e
    split at e <;> simp at e
  | posting y =>
    have n : r.state ≠ .tripped := by intro e; simp [Order.allowed, e, MachineState.judged] at k
    refine ⟨⟨fun e => ?_, fun e => absurd e n⟩, fun e => absurd e n⟩
    simp only [Order.run, MachineRec.takePosting] at e
    split at e
    · simp at e
    · split at e
      · simp at e
      · exact absurd e n
  | reject => exact ⟨Iff.rfl, fun _ => rfl⟩

/-- A change outside the machines, lamps, latches and magnets. -/
theorem BoothLaw.congr {t : State} (h : BoothLaw s) (a : t.machines = s.machines) (b : t.lamps = s.lamps)
    (c : t.fire.machineLatch = s.fire.machineLatch) (d : t.fire.boothLatch = s.fire.boothLatch)
    (e : ∀ m, (t.fire.shutters.get m).magnet = (s.fire.shutters.get m).magnet) : BoothLaw t where
  machine m := by simp only [State.machine, State.lamp, a, b]; exact h.machine m
  lamp m := by simp only [State.lamp, b]; exact h.lamp m
  latched m q := by
    rw [c] at q
    have l := h.latched m q
    simp only [State.machine, State.lamp, a, b]
    exact ⟨l.tripped, l.motorOff, l.fireHeld, l.arcOpen, l.arcOut, (e m).trans l.magnetOff⟩
  unlatched m q := by
    rw [c] at q
    simp only [State.machine, a]
    exact h.unlatched m q
  booth := by rw [c, d]; exact h.booth

theorem BoothLaw.unbind (h : BoothLaw s) (m : MachineId) :
    BoothLaw ((s.modMachine m fun r => { r with boundSlot := none }).modLamp m LampRec.unbind) := by
  have h1 := h.ofMachine' m (fun r => { r with boundSlot := none })
    ⟨MachineRec.settleDouser_opened _, (h.machine m).2, (h.machine m).3, (h.machine m).4, (h.machine m).5,
      (h.machine m).6, (h.machine m).7, (h.machine m).8, (h.machine m).9, (h.machine m).10, (h.machine m).11⟩
    Iff.rfl (fun _ => rfl) rfl
  exact h1.ofLamp m _ (h1.lamp m).unbind fun q => ⟨(h1.latched m q).arcOpen, (h1.latched m q).arcOut⟩

theorem BoothLaw.modSlot (h : BoothLaw s) (sc : ScreenId) (n : SlotIx) (f : Slot → Slot) :
    BoothLaw (s.modSlot sc n f) := h.congr rfl rfl rfl rfl fun _ => rfl

theorem BoothLaw.slotNotice (h : BoothLaw s) (sc : ScreenId) (n : SlotIx) (st : SlotStatus) :
    BoothLaw (s.slotNotice sc n st) := by
  unfold State.slotNotice
  split
  · dsimp only
    split
    · exact h.modSlot sc n _
    · exact (h.modSlot sc n _).unbind _
  · exact h.modSlot sc n _
  all_goals exact h

/-- Every reaction keeps the law of the booth. -/
theorem Reaction.booth {t : State} (k : Reaction s t) (h : BoothLaw s) : BoothLaw t := by
  cases k with
  | report r => exact h.congr rfl rfl rfl rfl fun _ => rfl
  | screen sc f _ k => exact h.congr rfl rfl rfl rfl fun _ => rfl
  | emptyDeferred m => exact h.congr rfl rfl rfl rfl fun _ => rfl
  | defer m c _ k => exact h.congr rfl rfl rfl rfl fun _ => rfl
  | notePosting m y _ k => exact h.congr rfl rfl rfl rfl fun _ => rfl
  | order m o _ k =>
    exact h.ofMachine' m _ (o.law (h.machine m) k) (o.run_tripped _ k).1 (o.run_tripped _ k).2 (o.run_kept _).fire
  | lamp m o _ k =>
    refine h.ofLamp m _ (o.law _ (h.lamp m) k) fun q => ?_
    have l := h.latched m q
    cases o with
    | strike =>
      simp only [LampOrder.allowed, l.fireHeld, strikeDecline, if_true] at k
      exact absurd k (by simp)
    | putOut =>
      have e : LampOrder.putOut.run (s.lamp m) = s.lamp m := by
        simp only [LampOrder.run, LampRec.putOut]
        split
        next e => exact absurd e l.arcOut.1
        next e => exact absurd e l.arcOut.2
        all_goals rfl
      rw [e]
      exact ⟨l.arcOpen, l.arcOut⟩
    | flag => exact ⟨l.arcOpen, l.arcOut⟩
  | slot sc n st _ k => exact h.slotNotice sc n st
  | place sc c r l f _ k => exact h.congr rfl rfl rfl rfl fun _ => rfl
  | release sc c r _ k => exact h.congr rfl rfl rfl rfl fun _ => rfl

/-- Every run of reactions keeps the law of the booth. -/
theorem Reactions.booth {t : State} (k : Reactions s t) (h : BoothLaw s) : BoothLaw t := by
  induction k with
  | refl => exact h
  | tail _ k ih => exact k.booth ih

end Sys2Proof.Machine
end

