-- ==== Sys2Proof/Laws/Lights.lean ====
section
/-! SUPPORT. The law of a circuit (R134, R136, R142, R143) across everything the house-light unit does, and the law of the
house lights across every reaction. -/

namespace Sys2Proof.Machine

open Sys2Proof

/-! ### The claim table -/

@[simp] theorem ClaimTable.get_set (t : ClaimTable) (r q : Rank) (x : Option Claim) :
    (t.set r x).get q = if q = r then x else t.get q := by cases r <;> cases q <;> rfl

@[simp] theorem ClaimTable.get_allWaiting (t : ClaimTable) (q : Rank) :
    t.allWaiting.get q = (t.get q).map Claim.waiting := by cases q <;> rfl

/-- The highest rank depends only on which ranks are present. -/
theorem ClaimTable.top_congr {a b : ClaimTable} (h : ∀ q, (a.get q).isSome = (b.get q).isSome) : a.top = b.top := by
  have h1 := h .safety; have h2 := h .fault; have h3 := h .cue; have h4 := h .console
  simp only [ClaimTable.get] at h1 h2 h3 h4
  simp only [ClaimTable.top, h1, h2, h3, h4]

theorem ClaimTable.top_present {t : ClaimTable} {r : Rank} (h : t.top = some r) : (t.get r).isSome = true := by
  unfold ClaimTable.top at h
  split at h
  next e => cases h; exact e
  next =>
    split at h
    next e => cases h; exact e
    next =>
      split at h
      next e => cases h; exact e
      next =>
        split at h
        next e => cases h; exact e
        next => exact absurd h (by simp)

theorem ClaimTable.top_safety {t : ClaimTable} (h : t.safety.isSome = true) : t.top = some .safety := by
  unfold ClaimTable.top
  simp [h]

/-- A claim that does not come to the top leaves the highest rank as it was. -/
theorem ClaimTable.top_add (t : ClaimTable) (r : Rank) (x : Claim) (ne : (t.set r (some x)).top ≠ some r) :
    (t.set r (some x)).top = t.top := by
  obtain ⟨a, b, c, d⟩ := t
  revert ne
  cases r <;> cases a <;> cases b <;> cases c <;> cases d <;> simp [ClaimTable.set, ClaimTable.top]

/-- A waiting claim leaves, and the highest rank stays. -/
theorem ClaimTable.top_drop (t : ClaimTable) (r : Rank) (ne : t.top ≠ some r) : (t.set r none).top = t.top := by
  obtain ⟨a, b, c, d⟩ := t
  revert ne
  cases r <;> cases a <;> cases b <;> cases c <;> cases d <;> simp [ClaimTable.set, ClaimTable.top]

/-- No rank is highest only where no claim stands. -/
theorem ClaimTable.top_none {t : ClaimTable} (h : t.top = none) (r : Rank) : t.get r = none := by
  obtain ⟨a, b, c, d⟩ := t
  revert h
  cases r <;> cases a <;> cases b <;> cases c <;> cases d <;> simp [ClaimTable.get, ClaimTable.top]

variable {h : Nat} {c : Circuit}

/-- What of the law holds whatever claim governs. -/
structure CircuitBase (h : Nat) (c : Circuit) : Prop where
  delay : c.delay = firingDelay h c.output
  armed : c.armed.isSome = true → c.output ≠ 0
  safety : ∀ x, c.claims.safety = some x → x.target = 255 ∧ x.fade = 0

theorem CircuitLaw.base (k : CircuitLaw h c) : CircuitBase h c := ⟨k.delay, k.armed, k.safety⟩

theorem Circuit.setOutput_armed (h n : Nat) (c : Circuit) : (c.setOutput h n).armed.isSome = true → n ≠ 0 := by
  simp only [Circuit.setOutput]
  split
  · exact fun e => absurd e (by simp)
  next e => exact fun _ => e

/-- What the step measure stands at as a claim begins to govern: none where its fade has no step, else 0 (R134, R136). -/
theorem Circuit.govern_stepMeasure {r : Rank} {x : Claim} (k : c.claims.get r = some x) :
    (c.govern h r).stepMeasure = if x.fade * Config.stepsPerTenth = 0 then none else some 0 := by
  unfold Circuit.govern
  simp only [k]
  split <;> rfl

/-- The highest claim begins to govern, and the law holds (R134). -/
theorem CircuitBase.govern (k : CircuitBase h c) {r : Rank} (top : c.claims.top = some r) :
    CircuitLaw h (c.govern h r) := by
  unfold Circuit.govern
  split
  next e =>
    have := ClaimTable.top_present top
    rw [e] at this
    exact absurd this (by decide)
  next x e =>
    dsimp only
    generalize gn : x.fade * Config.stepsPerTenth = n
    have gn5 : n = x.fade * 5 := gn.symm
    have tops : (c.claims.allWaiting.set r (some { x with governing := some ⟨c.output, 0, n⟩ })).top = some r := by
      rw [← top]
      apply ClaimTable.top_congr
      intro q
      rw [ClaimTable.get_set, ClaimTable.get_allWaiting]
      split
      next eq => rw [eq, e]; rfl
      next => cases c.claims.get q <;> rfl
    have wait : ∀ q y, some r ≠ some q →
        (c.claims.allWaiting.set r (some { x with governing := some ⟨c.output, 0, n⟩ })).get q = some y →
        y.governing = none := by
      intro q y ne eq
      rw [ClaimTable.get_set, ClaimTable.get_allWaiting] at eq
      split at eq
      next e2 => exact absurd (by rw [e2]) ne
      next =>
        cases g : c.claims.get q with
        | none => rw [g] at eq; exact absurd eq (by simp)
        | some z => rw [g] at eq; cases eq; rfl
    have safe : ∀ y, (c.claims.allWaiting.set r (some { x with governing := some ⟨c.output, 0, n⟩ })).safety = some y →
        y.target = 255 ∧ y.fade = 0 := by
      intro y eq
      have eq : (c.claims.allWaiting.set r (some { x with governing := some ⟨c.output, 0, n⟩ })).get .safety
          = some y := eq
      rw [ClaimTable.get_set, ClaimTable.get_allWaiting] at eq
      split at eq
      next e2 =>
        cases eq
        exact k.safety x (by rw [← e2] at e; exact e)
      next =>
        cases g : c.claims.get .safety with
        | none => rw [g] at eq; exact absurd eq (by simp)
        | some z => rw [g] at eq; cases eq; exact k.safety z g
    split
    next zero =>
      refine ⟨?_, ?_, ?_, rfl, ?_, safe⟩
      · intro q y tq gq
        dsimp only [Circuit.setOutput] at tq gq ⊢
        rw [tops] at tq
        cases tq
        rw [ClaimTable.get_set, if_pos rfl] at gq
        cases gq
        exact ⟨_, rfl, gn5, Nat.zero_le _, by simp [Claim.level, zero], by simp [zero]⟩
      · intro tn
        dsimp only [Circuit.setOutput] at tn
        rw [tops] at tn
        exact absurd tn (by simp)
      · intro q y tq gq
        dsimp only [Circuit.setOutput] at tq gq
        rw [tops] at tq
        exact wait q y tq gq
      · exact fun a => Circuit.setOutput_armed h _ c a
    next pos =>
      refine ⟨?_, ?_, ?_, k.delay, k.armed, safe⟩
      · intro q y tq gq
        dsimp only at tq gq ⊢
        rw [tops] at tq
        cases tq
        rw [ClaimTable.get_set, if_pos rfl] at gq
        cases gq
        refine ⟨_, rfl, gn5, Nat.zero_le _, ?_, by simpa using Nat.pos_of_ne_zero pos⟩
        simp [Claim.level, fadeLevel, Ne.symm pos]
      · intro tn
        dsimp only at tn
        rw [tops] at tn
        exact absurd tn (by simp)
      · intro q y tq gq
        dsimp only at tq gq
        rw [tops] at tq
        exact wait q y tq gq

/-- A claim is placed (R133). -/
theorem CircuitLaw.place (k : CircuitLaw h c) (r : Rank) (l f : Nat) (safe : r = .safety → l = 255 ∧ f = 0) :
    CircuitLaw h (c.place h r l f) := by
  have base : CircuitBase h { c with claims := c.claims.set r (some ⟨l, f, none⟩) } := by
    refine ⟨k.delay, k.armed, ?_⟩
    intro x eq
    have eq : (c.claims.set r (some ⟨l, f, none⟩)).get .safety = some x := eq
    rw [ClaimTable.get_set] at eq
    split at eq
    next e => cases eq; exact safe e.symm
    next => exact k.safety x eq
  unfold Circuit.place
  dsimp only
  split
  next e => exact base.govern e
  next e =>
    -- a claim of higher rank is present, and stays the highest
    have tops := c.claims.top_add r ⟨l, f, none⟩ e
    have tne : c.claims.top ≠ some r := by rw [← tops]; exact e
    refine ⟨?_, ?_, ?_, k.delay, k.armed, base.safety⟩
    · intro q x tq gq
      dsimp only at tq gq ⊢
      rw [tops] at tq
      have ne : q ≠ r := by intro eq; subst eq; exact tne tq
      rw [ClaimTable.get_set, if_neg ne] at gq
      exact k.governed q x tq gq
    · intro tn
      dsimp only at tn ⊢
      rw [tops] at tn
      exact k.full tn
    · intro q x tq gq
      dsimp only at tq gq
      rw [tops] at tq
      rw [ClaimTable.get_set] at gq
      split at gq
      · cases gq; rfl
      · exact k.waiting q x tq gq

/-- A claim is released (R135). -/
theorem CircuitLaw.release (k : CircuitLaw h c) (r : Rank) : CircuitLaw h (c.release h r) := by
  have base : CircuitBase h { c with claims := c.claims.set r none } := by
    refine ⟨k.delay, k.armed, ?_⟩
    intro x eq
    have eq : (c.claims.set r none).get .safety = some x := eq
    rw [ClaimTable.get_set] at eq
    split at eq
    · exact absurd eq (by simp)
    · exact k.safety x eq
  unfold Circuit.release
  split
  · exact k
  · dsimp only
    split
    next e =>
      split
      next r2 e2 => exact base.govern e2
      next e2 =>
        refine ⟨?_, fun _ => ⟨rfl, rfl⟩, ?_, rfl, fun _ => by simp [Circuit.setOutput], base.safety⟩
        · intro q x tq
          dsimp only [Circuit.setOutput] at tq
          rw [e2] at tq
          exact absurd tq (by simp)
        · intro q x _ gq
          dsimp only [Circuit.setOutput] at gq
          rw [ClaimTable.top_none e2] at gq
          exact absurd gq (by simp)
    next e =>
      have tops := c.claims.top_drop r e
      refine ⟨?_, ?_, ?_, k.delay, k.armed, base.safety⟩
      · intro q x tq gq
        dsimp only at tq gq ⊢
        rw [tops] at tq
        have ne : q ≠ r := by intro eq; subst eq; exact e tq
        rw [ClaimTable.get_set, if_neg ne] at gq
        exact k.governed q x tq gq
      · intro tn
        dsimp only at tn ⊢
        rw [tops] at tn
        exact k.full tn
      · intro q x tq gq
        dsimp only at tq gq
        rw [tops] at tq
        rw [ClaimTable.get_set] at gq
        split at gq
        · exact absurd gq (by simp)
        · exact k.waiting q x tq gq

/-- A fade step (R136). -/
theorem CircuitLaw.fadeStep (k : CircuitLaw h c) : CircuitLaw h (c.fadeStep h) := by
  unfold Circuit.fadeStep
  split
  next r _ top =>
    split
    next target fade f get =>
      split
      next lt =>
        obtain ⟨g, hg, hn, hk, ho, hm⟩ := k.governed r _ top get
        cases hg
        have tops : (c.claims.set r (some ⟨target, fade, some { f with k := f.k + 1 }⟩)).top = some r := by
          rw [← top]
          apply ClaimTable.top_congr
          intro q
          rw [ClaimTable.get_set]
          split
          next e => rw [e, get]; rfl
          next => rfl
        refine ⟨?_, ?_, ?_, rfl, ?_, ?_⟩
        · intro q x tq gq
          dsimp only [Circuit.setOutput] at tq gq ⊢
          rw [tops] at tq
          cases tq
          rw [ClaimTable.get_set, if_pos rfl] at gq
          cases gq
          refine ⟨_, rfl, hn, lt, ?_, ?_⟩
          · simp only [Claim.level]
            split
            next e =>
              have pos : (f.n : Int) ≠ 0 := by
                have : 0 < f.n := Nat.lt_of_le_of_lt (Nat.zero_le _) lt
                omega
              simp only [fadeLevel, e]
              rw [Int.mul_tdiv_cancel _ pos]
              omega
            next => rfl
          · dsimp only
            split
            next e => exact ⟨fun _ => e, fun _ => rfl⟩
            next e => exact ⟨fun q => absurd q (by simp), fun q => absurd q e⟩
        · intro tn
          dsimp only [Circuit.setOutput] at tn
          rw [tops] at tn
          exact absurd tn (by simp)
        · intro q x tq gq
          dsimp only [Circuit.setOutput] at tq gq
          rw [tops] at tq
          rw [ClaimTable.get_set] at gq
          split at gq
          next e => exact absurd (by rw [e]) tq
          next => exact k.waiting q x (by rw [top]; exact tq) gq
        · exact fun a => Circuit.setOutput_armed h _ c a
        · intro x eq
          dsimp only [Circuit.setOutput] at eq
          have eq : (c.claims.set r (some ⟨target, fade, some { f with k := f.k + 1 }⟩)).get .safety = some x := eq
          rw [ClaimTable.get_set] at eq
          split at eq
          next e =>
            cases eq
            exact k.safety ⟨target, fade, some f⟩ (by rw [← e] at get; exact get)
          next => exact k.safety x eq
      next => exact k
    next => exact k
  next => exact k

/-- R137: a circuit whose measure has not reached 20 ms does not step. -/
theorem Circuit.dueStep_eq (h : Nat) (c : Circuit) :
    c.dueStep h = if c.stepMeasure = some Config.stepLimit then c.fadeStep h else c := by
  simp only [Circuit.dueStep, Circuit.stepDue, beq_iff_eq]

theorem CircuitLaw.dueStep (k : CircuitLaw h c) : CircuitLaw h (c.dueStep h) := by
  unfold Circuit.dueStep
  split
  · exact k.fadeStep
  · exact k

theorem CircuitLaw.newHalfCycle (k : CircuitLaw h c) (h2 : Nat) : CircuitLaw h2 (c.newHalfCycle h2) :=
  ⟨k.governed, k.full, k.waiting, rfl, k.armed, k.safety⟩

theorem CircuitLaw.cross (k : CircuitLaw h c) : CircuitLaw h c.cross := by
  refine ⟨k.governed, k.full, k.waiting, k.delay, ?_, k.safety⟩
  intro a e
  simp only [Circuit.cross] at a e
  rw [if_pos e] at a
  exact absurd a (by decide)

theorem CircuitLaw.fire (k : CircuitLaw h c) : CircuitLaw h c.fire := by
  unfold Circuit.fire
  split
  · exact k
  · exact ⟨k.governed, k.full, k.waiting, k.delay, fun a => absurd a (by simp), k.safety⟩

theorem CircuitLaw.elapse (k : CircuitLaw h c) (dt : Nat) : CircuitLaw h (c.elapse dt) := by
  refine ⟨?_, ?_, k.waiting, k.delay, k.armed, k.safety⟩
  · intro r x tr gr
    obtain ⟨f, a, b, d, e, m⟩ := k.governed r x tr gr
    refine ⟨f, a, b, d, e, ?_⟩
    have : (c.elapse dt).stepMeasure.isSome = c.stepMeasure.isSome := by
      simp only [Circuit.elapse, Timer.advance]; cases c.stepMeasure <;> rfl
    rw [this]; exact m
  · intro tn
    have := k.full tn
    exact ⟨this.1, by simp only [Circuit.elapse, Timer.advance, this.2]; rfl⟩

theorem CircuitLaw.restart (k : CircuitLaw h c) : CircuitLaw h (c.restart h) :=
  ((k.release .console).release .cue).release .fault

/-- SAFETY stands on a circuit as before where a claim of another rank comes or goes. -/
theorem Circuit.place_safety (h : Nat) (r : Rank) (l f : Nat) (c : Circuit) (k : r ≠ .safety) :
    (c.place h r l f).claims.safety.isSome = c.claims.safety.isSome := by
  have e : sameClaim (c.place h r l f).claims.safety c.claims.safety :=
    Circuit.place_claims h r l f c .safety (fun e => k e.symm)
  simp only [sameClaim] at e
  have := congrArg Option.isSome e
  simpa using this

theorem Circuit.release_safety (h : Nat) (r : Rank) (c : Circuit) (k : r ≠ .safety) :
    (c.release h r).claims.safety.isSome = c.claims.safety.isSome := by
  have e : sameClaim (c.release h r).claims.safety c.claims.safety :=
    Circuit.release_claims h r c .safety (fun e => k e.symm)
  simp only [sameClaim] at e
  have := congrArg Option.isSome e
  simpa using this

/-! ### The law of the house lights across one change -/

variable {s t : State}

/-- A change outside the house lights and the latches. -/
theorem LightsLaw.congr (k : LightsLaw s) (a : t.lights = s.lights) (b : t.fire.machineLatch = s.fire.machineLatch)
    (d : t.fire.boothLatch = s.fire.boothLatch) : LightsLaw t where
  halfCycle := by rw [a]; exact k.halfCycle
  circuit sc c := by simp only [State.circuit, a]; exact k.circuit sc c
  safety sc c := by simp only [State.circuit, State.screenLatched, a, b]; exact k.safety sc c
  booth := by rw [b, d]; exact k.booth

/-- One circuit changes. -/
theorem LightsLaw.ofCircuit (k : LightsLaw s) (sc : ScreenId) (c : CircuitId) (f : Nat → Circuit → Circuit)
    (law : CircuitLaw s.lights.halfCycle (f s.lights.halfCycle (s.circuit sc c)))
    (safe : (f s.lights.halfCycle (s.circuit sc c)).claims.safety.isSome = (s.circuit sc c).claims.safety.isSome) :
    LightsLaw (s.modCircuit sc c f) where
  halfCycle := k.halfCycle
  circuit x d := by
    rw [State.modCircuit_circuit]
    split
    · exact law
    · exact k.circuit x d
  safety x d := by
    rw [State.modCircuit_circuit]
    split
    next e => rw [e.1]; exact safe.trans (k.safety sc c)
    next => exact k.safety x d
  booth := k.booth

theorem LightsLaw.place (k : LightsLaw s) (sc : ScreenId) (c : CircuitId) (r : Rank) (l f : Nat) (e : r ≠ .safety) :
    LightsLaw (s.modCircuit sc c fun hc => Circuit.place hc r l f) :=
  k.ofCircuit sc c _ ((k.circuit sc c).place r l f fun q => absurd q e) (Circuit.place_safety _ r l f _ e)

theorem LightsLaw.release (k : LightsLaw s) (sc : ScreenId) (c : CircuitId) (r : Rank) (e : r ≠ .safety) :
    LightsLaw (s.modCircuit sc c fun hc => Circuit.release hc r) :=
  k.ofCircuit sc c _ ((k.circuit sc c).release r) (Circuit.release_safety _ r _ e)

theorem LightsLaw.modMachine (k : LightsLaw s) (m : MachineId) (f : MachineRec → MachineRec) :
    LightsLaw (s.modMachine m f) := k.congr rfl rfl rfl

theorem LightsLaw.modLamp (k : LightsLaw s) (m : MachineId) (f : LampRec → LampRec) : LightsLaw (s.modLamp m f) :=
  k.congr (State.modLamp_lights m f s) (by rw [State.modLamp_fire]) (by rw [State.modLamp_fire])

theorem LightsLaw.slotNotice (k : LightsLaw s) (sc : ScreenId) (n : SlotIx) (st : SlotStatus) :
    LightsLaw (s.slotNotice sc n st) := by
  unfold State.slotNotice
  split
  · dsimp only
    split
    · exact k.congr rfl rfl rfl
    · exact LightsLaw.modLamp (LightsLaw.modMachine (k.congr (t := s.modSlot sc n _) rfl rfl rfl) _ _) _ _
  · exact k.congr rfl rfl rfl
  all_goals exact k

/-- Every reaction keeps the law of the house lights. -/
theorem Reaction.lights (q : Reaction s t) (k : LightsLaw s) : LightsLaw t := by
  cases q with
  | report r => exact k.congr rfl rfl rfl
  | screen sc f _ e => exact k.congr rfl rfl rfl
  | emptyDeferred m => exact k.congr rfl rfl rfl
  | defer m c _ e => exact k.congr rfl rfl rfl
  | notePosting m y _ e => exact k.congr rfl rfl rfl
  | order m o _ e => exact k.modMachine m _
  | lamp m o _ e => exact k.modLamp m _
  | slot sc n st _ e => exact k.slotNotice sc n st
  | place sc c r l f _ e => exact k.place sc c r l f (by intro q; subst q; exact e)
  | release sc c r _ e => exact k.release sc c r (by intro q; subst q; exact e)

/-- Every run of reactions keeps the law of the house lights. -/
theorem Reactions.lights (q : Reactions s t) (k : LightsLaw s) : LightsLaw t := by
  induction q with
  | refl => exact k
  | tail _ q ih => exact q.lights ih

end Sys2Proof.Machine
end

