-- ==== Sys2Proof/Laws/Line.lean ====
section
/-! SUPPORT. The law of the line unit (R168, R170, R171) across everything the line unit does. -/

namespace Sys2Proof.Machine

open Sys2Proof

/-- The law of the line unit less the idle transmitter's clause. -/
structure LineBase (l : LineUnit) : Prop where
  queueSize : l.queue.length ≤ 32
  assembly : l.assembly.length ≤ 72
  buffers : l.buffers.length ≤ 2
  queueOrder : l.queue.Pairwise fun a b => a.order < b.order
  queueMade : ∀ q ∈ l.queue, q.order < l.nextOrder
  replyMade : ∀ r o, l.replyPlace = .full r o → o < l.nextOrder
  sentMade : ∀ t, l.transmitter = some t → t.order < l.nextOrder
  sentFirst : ∀ t, l.transmitter = some t → ∀ q ∈ l.queue, t.order < q.order

variable {l : LineUnit}

theorem LineLaw.base (k : LineLaw l) : LineBase l := ⟨k.1, k.2, k.3, k.4, k.5, k.6, k.7, k.8⟩

/-- The transmitter takes the earliest made, and the law holds (R170). -/
theorem LineBase.pump (k : LineBase l) : LineLaw l.pump := by
  unfold LineUnit.pump
  split
  next t e => exact ⟨k.1, k.2, k.3, k.4, k.5, k.6, k.7, k.8, by rw [e]; simp⟩
  next e =>
    split
    next r o f g =>
      refine ⟨k.1, k.2, k.3, k.4, k.5, k.6, ?_, ?_, by simp⟩
      · intro t q; cases q; exact k.replyMade r o f
      · intro t q x hx; rw [g] at hx; exact absurd hx (by simp)
    next r o q qs f g =>
      have po := k.queueOrder
      rw [g, List.pairwise_cons] at po
      have sz := k.queueSize
      rw [g] at sz
      split
      next lt =>
        refine ⟨k.1, k.2, k.3, k.4, k.5, k.6, ?_, ?_, by simp⟩
        · intro t e2; cases e2; exact k.replyMade r o f
        · intro t e2 x hx
          cases e2
          rw [g, List.mem_cons] at hx
          rcases hx with hx | hx
          · rw [hx]; exact lt
          · exact Nat.lt_trans lt (po.1 x hx)
      next =>
        refine ⟨by simp at sz ⊢; omega, k.2, k.3, po.2, ?_, k.6, ?_, ?_, by simp⟩
        · exact fun x hx => k.queueMade x (by rw [g]; exact List.mem_cons_of_mem _ hx)
        · intro t e2; cases e2; exact k.queueMade q (by rw [g]; exact List.mem_cons_self)
        · intro t e2 x hx; cases e2; exact po.1 x hx
    next q qs g nf =>
      have po := k.queueOrder
      rw [g, List.pairwise_cons] at po
      have sz := k.queueSize
      rw [g] at sz
      refine ⟨by simp at sz ⊢; omega, k.2, k.3, po.2, ?_, k.6, ?_, ?_, by simp⟩
      · exact fun x hx => k.queueMade x (by rw [g]; exact List.mem_cons_of_mem _ hx)
      · intro t e2; cases e2; exact k.queueMade q (by rw [g]; exact List.mem_cons_self)
      · intro t e2 x hx; cases e2; exact po.1 x hx
    next g nf =>
      exact ⟨k.1, k.2, k.3, k.4, k.5, k.6, k.7, k.8, fun _ => ⟨g, fun r o h => nf r o h⟩⟩

theorem queueJoin_length (q : List QueuedReport) (new : QueuedReport) (h : q.length ≤ 32) :
    (queueJoin q new).length ≤ 32 := by
  unfold queueJoin
  split
  next k => simp only [List.length_append, List.length_cons, List.length_nil]; exact k
  · split
    · exact h
    · split
      next k =>
        rw [List.any_eq_true] at k
        obtain ⟨x, hx, px⟩ := k
        have := List.length_eraseP_of_mem hx px
        have : 0 < q.length := List.length_pos_of_mem hx
        simp only [List.length_append, List.length_cons, List.length_nil]
        omega
      · exact h

theorem queueJoin_mem (q : List QueuedReport) (new x : QueuedReport) (h : x ∈ queueJoin q new) : x ∈ q ∨ x = new := by
  unfold queueJoin at h
  split at h
  · simpa using h
  · split at h
    · exact .inl h
    · split at h
      · rw [List.mem_append] at h
        rcases h with h | h
        · exact .inl (List.mem_of_mem_eraseP h)
        · exact .inr (by simpa using h)
      · exact .inl h

theorem queueJoin_order (q : List QueuedReport) (new : QueuedReport) (p : q.Pairwise fun a b => a.order < b.order)
    (m : ∀ x ∈ q, x.order < new.order) : (queueJoin q new).Pairwise fun a b => a.order < b.order := by
  have app : ∀ s : List QueuedReport, s.Sublist q → (s ++ [new]).Pairwise fun a b => a.order < b.order := by
    intro s h
    rw [List.pairwise_append]
    exact ⟨p.sublist h, by simp, fun a ha b hb => by
      rw [List.mem_singleton] at hb
      rw [hb]
      exact m a (h.subset ha)⟩
  unfold queueJoin
  split
  · exact app q (List.Sublist.refl _)
  · split
    · exact p
    · split
      · exact app _ (List.eraseP_sublist)
      · exact p

/-- A report is made (R170, R171). -/
theorem LineBase.report (r : Report) (k : LineBase l) : LineLaw (l.report r) := by
  refine LineBase.pump ⟨queueJoin_length _ _ k.1, k.2, k.3, queueJoin_order _ _ k.4 k.5, ?_, ?_, ?_, ?_⟩
  · intro x hx
    rcases queueJoin_mem _ _ _ hx with hx | hx
    · exact Nat.lt_succ_of_lt (k.queueMade x hx)
    · rw [hx]; exact Nat.lt_succ_self _
  · exact fun a o e => Nat.lt_succ_of_lt (k.replyMade a o e)
  · exact fun t e => Nat.lt_succ_of_lt (k.sentMade t e)
  · intro t e x hx
    rcases queueJoin_mem _ _ _ hx with hx | hx
    · exact k.sentFirst t e x hx
    · rw [hx]; exact k.sentMade t e

/-- A reply is made (R169). -/
theorem LineBase.answer (r : Reply) (k : LineBase l) : LineLaw (l.answer r) := by
  refine LineBase.pump ⟨k.1, k.2, k.3, k.4, ?_, ?_, ?_, k.8⟩
  · exact fun x hx => Nat.lt_succ_of_lt (k.queueMade x hx)
  · intro a o e; cases e; exact Nat.lt_succ_self _
  · exact fun t e => Nat.lt_succ_of_lt (k.sentMade t e)

theorem LineLaw.report (r : Report) (k : LineLaw l) : LineLaw (l.report r) := k.base.report r

theorem LineLaw.answer (r : Reply) (k : LineLaw l) : LineLaw (l.answer r) := k.base.answer r

/-- A command is taken by its owner. -/
theorem LineLaw.unhand (k : LineLaw l) (i : Instr) : LineLaw (l.unhand i) := by
  unfold LineUnit.unhand
  split
  · exact ⟨k.1, k.2, k.3, k.4, k.5, k.6, k.7, k.8, k.9⟩
  · exact k

/-- A dispatch's reading is kept beside the command handed. -/
theorem LineLaw.noteReading (k : LineLaw l) (b : Option Instr) (read : Instr → Option DispatchReading) :
    LineLaw (l.noteReading b read) := by
  unfold LineUnit.noteReading
  split
  · exact ⟨k.1, k.2, k.3, k.4, k.5, k.6, k.7, k.8, k.9⟩
  · exact k

/-- A reading noted changes the reading alone. -/
theorem LineUnit.noteReading_cases (b : Option Instr) (read : Instr → Option DispatchReading) (l : LineUnit) :
    (∃ i, b = none ∧ l.handed = some i ∧ l.noteReading b read = { l with reading := read i })
      ∨ l.noteReading b read = l := by
  unfold LineUnit.noteReading
  split
  · exact .inl ⟨_, rfl, ‹_›, rfl⟩
  · exact .inr rfl

/-- A line is dispatched (R169). -/
theorem LineBase.dispatch (k : LineBase l) : LineBase l.dispatch := by
  unfold LineUnit.dispatch
  split
  next b bs _ _ e =>
    have sz := k.buffers
    rw [e] at sz
    simp only [List.length_cons] at sz
    have k2 : LineBase { l with buffers := bs } :=
      ⟨k.1, k.2, by show bs.length ≤ 2; omega, k.4, k.5, k.6, k.7, k.8⟩
    split
    · exact (k2.answer _).base
    · exact ⟨k2.1, k2.2, k2.3, k2.4, k2.5, by simp, k2.7, k2.8⟩
  next => exact k

theorem LineLaw.dispatch (k : LineLaw l) : LineLaw l.dispatch := by
  have base := k.base.dispatch
  refine ⟨base.1, base.2, base.3, base.4, base.5, base.6, base.7, base.8, ?_⟩
  unfold LineUnit.dispatch
  split
  next b bs f _ e =>
    split
    · have sz := k.buffers
      rw [e] at sz
      simp only [List.length_cons] at sz
      exact (LineBase.answer (l := { l with buffers := bs }) _
        ⟨k.1, k.2, by show bs.length ≤ 2; omega, k.4, k.5, k.6, k.7, k.8⟩).idle
    · exact fun t => ⟨(k.idle t).1, by simp⟩
  next => exact k.idle

/-- A line completes (R168). -/
theorem LineLaw.complete (k : LineLaw l) : LineLaw l.complete := by
  have k0 : LineLaw { l with assembly := [], charMark := false, longMark := false } :=
    ⟨k.1, Nat.zero_le _, k.3, k.4, k.5, k.6, k.7, k.8, k.9⟩
  unfold LineUnit.complete
  dsimp only
  split
  · exact k0
  · split
    next lt =>
      apply LineLaw.dispatch
      refine ⟨k0.1, k0.2, ?_, k0.4, k0.5, k0.6, k0.7, k0.8, k0.9⟩
      simp only [List.length_append, List.length_cons, List.length_nil]
      exact lt
    · exact k0

/-- A character is received (R167). -/
theorem LineLaw.receive (code : BitVec 7) (bad : Bool) (k : LineLaw l) : LineLaw (l.receive code bad) := by
  unfold LineUnit.receive
  split
  · exact k
  · split
    · exact ⟨k.1, k.2, k.3, k.4, k.5, k.6, k.7, k.8, k.9⟩
    · split
      · exact k.complete
      · split
        · exact k
        · unfold LineUnit.join
          split
          next lt =>
            refine ⟨k.1, ?_, k.3, k.4, k.5, k.6, k.7, k.8, k.9⟩
            simp only [List.length_append, List.length_cons, List.length_nil]
            exact lt
          · exact ⟨k.1, k.2, k.3, k.4, k.5, k.6, k.7, k.8, k.9⟩

/-- A line has been sent (R170). -/
theorem LineLaw.lineSent (k : LineLaw l) : LineLaw l.lineSent := by
  unfold LineUnit.lineSent
  split
  · exact k
  next t e =>
    apply LineBase.pump
    apply LineBase.dispatch
    refine ⟨k.1, k.2, k.3, k.4, k.5, ?_, by simp, by simp⟩
    intro r o f
    apply k.replyMade r o
    simp only [ReplyPlace.afterSending] at f
    split at f
    · split at f
      · exact absurd f (by simp)
      · rwa [← f]
    · exact f

/-- A break resets the line unit (R174). -/
theorem LineLaw.breakReset (k : LineLaw l) : LineLaw l.breakReset := by
  unfold LineUnit.breakReset
  split
  · exact k
  · apply LineBase.report
    refine ⟨Nat.zero_le _, Nat.zero_le _, Nat.zero_le _, List.Pairwise.nil, by simp, ?_, k.7, by simp⟩
    intro r o f
    simp only [ReplyPlace.afterBreak] at f
    split at f <;> exact absurd f (by simp)

theorem LineLaw.levelChange (b : Bool) (k : LineLaw l) : LineLaw (l.levelChange b) := by
  unfold LineUnit.levelChange
  split
  · exact k
  · split <;> exact ⟨k.1, k.2, k.3, k.4, k.5, k.6, k.7, k.8, k.9⟩

theorem LineLaw.elapse (dt : Nat) (k : LineLaw l) : LineLaw (l.elapse dt) :=
  ⟨k.1, k.2, k.3, k.4, k.5, k.6, k.7, k.8, k.9⟩

/-- RESTART empties the queue once its reply is made, and reports *READY (R179). -/
theorem LineLaw.restart (k : LineLaw l) : LineLaw (LineUnit.report .ready { l with queue := [] }) :=
  LineBase.report _ ⟨Nat.zero_le _, k.2, k.3, List.Pairwise.nil, by simp, k.6, k.7, by simp⟩

variable {s t : State}

/-- Every reaction keeps the law of the line. -/
theorem Reaction.line (q : Reaction s t) (k : LineLaw s.line) : LineLaw t.line := by
  cases q with
  | report r => exact k.report r
  | screen sc f _ e => exact k
  | emptyDeferred m => exact k
  | defer m c _ e => exact k
  | notePosting m y _ e => exact k
  | order m o _ e => exact k
  | lamp m o _ e => rw [State.modLamp_line]; exact k
  | slot sc n st _ e =>
    unfold State.slotNotice
    split
    · dsimp only
      split
      · exact k
      · rw [State.modLamp_line]; exact k
    · exact k
    all_goals exact k
  | place sc c r l f _ e => exact k
  | release sc c r _ e => exact k

/-- Every run of reactions keeps the law of the line. -/
theorem Reactions.line (q : Reactions s t) (k : LineLaw s.line) : LineLaw t.line := by
  induction q with
  | refl => exact k
  | tail _ q ih => exact q.line ih

end Sys2Proof.Machine
end

