-- ==== Sys2Proof/Laws/Plan.lean ====
section
/-! SUPPORT. The law of the plan (R78, R97) across the changes of a slot, a machine's binding and a lamp's bound length,
and across every reaction. -/

namespace Sys2Proof.Machine

open Sys2Proof

variable {s t : State}

/-- The length a machine's binding gives, read off its slot. -/
theorem State.boundLength_eq (s : State) (m : MachineId) :
    s.boundLength m = match (s.machine m).boundSlot with
      | none => none
      | some n => (s.slot (screenOf m) n).entry.map SlotEntry.length := by
  simp only [State.boundLength, State.boundEntry]
  cases (s.machine m).boundSlot <;> rfl

/-- A change that touches no slot, no binding, no bound length, and makes no machine EMPTY. -/
theorem PlanLaw.congr (k : PlanLaw s) (a : ∀ sc n, t.slot sc n = s.slot sc n)
    (b : ∀ m, (t.machine m).boundSlot = (s.machine m).boundSlot)
    (c : ∀ m, (t.lamp m).boundLength = (s.lamp m).boundLength)
    (d : ∀ m, (t.machine m).state = .empty → (s.machine m).state = .empty)
    (r : ∀ m, (t.machine m).reelId = (s.machine m).reelId) : PlanLaw t where
  slot sc n := by rw [a]; exact k.slot sc n
  toMachine sc n m e := by rw [a] at e; rw [b]; exact k.toMachine sc n m e
  toSlot m n e := by rw [b] at e; rw [a]; exact k.toSlot m n e
  length m := by
    rw [c, k.length, State.boundLength_eq, State.boundLength_eq, b]
    cases (s.machine m).boundSlot with
    | none => rfl
    | some n => simp only [a]
  reel m e := by rw [b] at e; rw [r]; exact k.reel m e
  empty m e := by rw [b, r]; exact k.empty m (d m e)

/-- One machine's record changes with its binding and reel kept, and it does not become EMPTY. -/
theorem PlanLaw.ofMachine (k : PlanLaw s) (m : MachineId) (f : MachineRec → MachineRec)
    (b : (f (s.machine m)).boundSlot = (s.machine m).boundSlot) (c : (f (s.machine m)).reelId = (s.machine m).reelId)
    (d : (f (s.machine m)).state = .empty → (s.machine m).state = .empty) : PlanLaw (s.modMachine m f) := by
  apply k.congr
  · exact fun sc n => State.modMachine_slot m f s sc n
  · intro x
    rw [State.modMachine_machine]
    split
    next e => subst e; exact b
    next => rfl
  · exact fun _ => rfl
  · intro x e
    rw [State.modMachine_machine] at e
    split at e
    next q => subst q; exact d e
    next => exact e
  · intro x
    rw [State.modMachine_machine]
    split
    next e => subst e; exact c
    next => rfl

theorem State.modLamp_boundSlot (m x : MachineId) (f : LampRec → LampRec) (s : State) :
    ((s.modLamp m f).machine x).boundSlot = (s.machine x).boundSlot
      ∧ ((s.modLamp m f).machine x).state = (s.machine x).state
      ∧ ((s.modLamp m f).machine x).reelId = (s.machine x).reelId := by
  rw [State.modLamp_machine']
  split
  next e =>
    subst e
    split <;> exact ⟨rfl, rfl, rfl⟩
  next => exact ⟨rfl, rfl, rfl⟩

/-- One lamp's record changes with its bound length kept. -/
theorem PlanLaw.ofLamp (k : PlanLaw s) (m : MachineId) (f : LampRec → LampRec)
    (b : (f (s.lamp m)).boundLength = (s.lamp m).boundLength) : PlanLaw (s.modLamp m f) := by
  apply k.congr
  · exact fun sc n => State.modLamp_slot m f s sc n
  · exact fun x => (State.modLamp_boundSlot m x f s).1
  · intro x
    rw [State.modLamp_lamp]
    split
    next e => subst e; exact b
    next => rfl
  · exact fun x e => by rwa [(State.modLamp_boundSlot m x f s).2.1] at e
  · exact fun x => (State.modLamp_boundSlot m x f s).2.2

/-- A slot that is not BOUND is written, its status not BOUND (R86, R91 to R93). -/
theorem PlanLaw.writeSlot (k : PlanLaw s) (sc : ScreenId) (n : SlotIx) (f : Slot → Slot)
    (a : (s.slot sc n).status ≠ .bound) (b : (f (s.slot sc n)).status ≠ .bound) (law : SlotLaw (f (s.slot sc n))) :
    PlanLaw (s.modSlot sc n f) := by
  have nb : ∀ m, (s.machine m).boundSlot = some n → screenOf m ≠ sc := by
    intro m e q
    have h := k.toSlot m n e
    rw [q] at h
    have l := (k.slot sc n).bound
    rw [h] at l
    simp only [Option.isSome_some] at l
    exact a (by simpa using l.symm)
  have fn : (f (s.slot sc n)).bound = none := by
    have l := law.bound
    have : ((f (s.slot sc n)).status == .bound) = false := by simpa using b
    rw [this] at l
    exact Option.not_isSome_iff_eq_none.mp (by rw [l]; decide)
  refine ⟨?_, ?_, ?_, ?_, k.reel, k.empty⟩
  · intro x j
    rw [State.modSlot_slot]
    split
    · exact law
    · exact k.slot x j
  · intro x j m e
    rw [State.modSlot_slot] at e
    split at e
    · rw [fn] at e; exact absurd e (by simp)
    · exact k.toMachine x j m e
  · intro m j e
    rw [State.modSlot_machine] at e
    rw [State.modSlot_slot, if_neg]
    · exact k.toSlot m j e
    · intro q
      rw [q.2] at e
      exact nb m e q.1
  · intro m
    rw [State.modSlot_lamp, k.length, State.boundLength_eq, State.boundLength_eq, State.modSlot_machine]
    cases e : (s.machine m).boundSlot with
    | none => rfl
    | some j =>
      dsimp only
      rw [State.modSlot_slot, if_neg]
      intro q
      rw [q.2] at e
      exact nb m e q.1

/-- A binding ends on both sides, and the lamp takes its notice (R78, R97). -/
theorem PlanLaw.unbind (k : PlanLaw s) (m : MachineId) (n : SlotIx) (st : SlotStatus)
    (e : (s.machine m).boundSlot = some n) (a : st ≠ .empty) (b : st ≠ .bound) :
    PlanLaw (((s.modSlot (screenOf m) n fun x => { x with status := st, bound := none }).modMachine m
      fun r => { r with boundSlot := none }).modLamp m LampRec.unbind) := by
  have sb := k.toSlot m n e
  have slots : ∀ x j, (((s.modSlot (screenOf m) n fun x => { x with status := st, bound := none }).modMachine m
      fun r => { r with boundSlot := none }).modLamp m LampRec.unbind).slot x j
        = if x = screenOf m ∧ j = n then { s.slot (screenOf m) n with status := st, bound := none }
          else s.slot x j := by
    intro x j
    rw [State.modLamp_slot, State.modMachine_slot, State.modSlot_slot]
  have machs : ∀ x, ((((s.modSlot (screenOf m) n fun x => { x with status := st, bound := none }).modMachine m
      fun r => { r with boundSlot := none }).modLamp m LampRec.unbind).machine x).boundSlot
        = if x = m then none else (s.machine x).boundSlot := by
    intro x
    rw [(State.modLamp_boundSlot m x _ _).1, State.modMachine_machine]
    split <;> rfl
  have stats : ∀ x, ((((s.modSlot (screenOf m) n fun x => { x with status := st, bound := none }).modMachine m
      fun r => { r with boundSlot := none }).modLamp m LampRec.unbind).machine x).state = (s.machine x).state
        ∧ ((((s.modSlot (screenOf m) n fun x => { x with status := st, bound := none }).modMachine m
      fun r => { r with boundSlot := none }).modLamp m LampRec.unbind).machine x).reelId = (s.machine x).reelId := by
    intro x
    rw [(State.modLamp_boundSlot m x _ _).2.1, (State.modLamp_boundSlot m x _ _).2.2, State.modMachine_machine]
    split
    next q => subst q; exact ⟨rfl, rfl⟩
    next => exact ⟨rfl, rfl⟩
  refine ⟨?_, ?_, ?_, ?_, ?_, ?_⟩
  · intro x j
    rw [slots]
    split
    · have l := k.slot (screenOf m) n
      have q1 := l.bound
      rw [sb] at q1
      have q2 : (s.slot (screenOf m) n).status = .bound := by simpa using q1.symm
      have q3 := l.entry
      rw [q2] at q3
      refine ⟨?_, ?_⟩
      · have : (st != .empty) = true := by simpa using a
        rw [this]
        exact q3
      · have : (st == .bound) = false := by simpa using b
        rw [this]
        rfl
    · exact k.slot x j
  · intro x j p h
    rw [slots] at h
    split at h
    · exact absurd h (by simp)
    next q =>
      have w := k.toMachine x j p h
      refine ⟨w.1, ?_⟩
      rw [machs, if_neg]
      · exact w.2
      · intro z
        subst z
        rw [e] at w
        exact q ⟨w.1.symm, (Option.some.inj w.2).symm⟩
  · intro p j h
    rw [machs] at h
    split at h
    · exact absurd h (by simp)
    next q =>
      have w := k.toSlot p j h
      rw [slots, if_neg]
      · exact w
      · intro z
        rw [z.1, z.2, sb] at w
        exact q (Option.some.inj w).symm
  · intro p
    rw [State.boundLength_eq, machs, State.modLamp_lamp]
    split
    · rfl
    next q =>
      have : ((s.modSlot (screenOf m) n fun x => { x with status := st, bound := none }).modMachine m
        fun r => { r with boundSlot := none }).lamp p = s.lamp p := rfl
      rw [this, k.length, State.boundLength_eq]
      cases (s.machine p).boundSlot with
      | none => rfl
      | some j =>
        dsimp only
        rw [slots]
        split
        next z => rw [z.1, z.2]
        next => rfl
  · intro p h
    rw [machs] at h
    rw [(stats p).2]
    split at h
    · exact absurd h (by simp)
    · exact k.reel p h
  · intro p h
    rw [(stats p).1] at h
    have w := k.empty p h
    rw [machs, (stats p).2, w.1]
    exact ⟨by split <;> rfl, w.2⟩

theorem PlanLaw.endBinding (k : PlanLaw s) (m : MachineId) (st : SlotStatus) (a : st ≠ .empty) (b : st ≠ .bound) :
    PlanLaw (s.endBinding m st) := by
  unfold State.endBinding
  split
  · exact k
  next n e => exact k.unbind m n st e a b

theorem PlanLaw.slotNotice (k : PlanLaw s) (sc : ScreenId) (n : SlotIx) (st : SlotStatus) (a : st ≠ .empty)
    (b : st ≠ .bound) : PlanLaw (s.slotNotice sc n st) := by
  unfold State.slotNotice
  split
  next e =>
    dsimp only
    split
    next g =>
      have l := (k.slot sc n).bound
      rw [e, g] at l
      exact absurd l (by decide)
    next m g =>
      have w := k.toMachine sc n m g
      have u := k.unbind m n st w.2 a b
      rw [w.1] at u
      exact u
  next e =>
    have l := k.slot sc n
    refine k.writeSlot sc n _ (by rw [e]; decide) b ⟨?_, ?_⟩
    · have q := l.entry
      rw [e] at q
      have : (st != .empty) = true := by simpa using a
      rw [this]
      exact q
    · have : (st == .bound) = false := by simpa using b
      rw [this]
      rfl
  all_goals exact k

theorem Order.run_bound (o : Order) (r : MachineRec) (k : o.allowed r) :
    (o.run r).boundSlot = r.boundSlot ∧ ((o.run r).state = .empty → r.state = .empty) := by
  cases o with
  | settle => exact ⟨rfl, fun e => e⟩
  | start t =>
    simp only [Order.run, MachineRec.startOrder]
    split
    next e =>
      have : (MachineRec.motorOn t { r with state := .starting }).state = .starting
          ∧ (MachineRec.motorOn t { r with state := .starting }).boundSlot = r.boundSlot := by
        unfold MachineRec.motorOn; split <;> exact ⟨rfl, rfl⟩
      rw [this.1]
      exact ⟨this.2, fun e => absurd e (by decide)⟩
    next => exact ⟨rfl, fun e => e⟩
  | takeScreen l =>
    simp only [Order.run, MachineRec.takeScreen]
    split
    · exact ⟨rfl, fun e => absurd e (by simp)⟩
    · exact ⟨rfl, fun e => e⟩
  | giveUp =>
    simp only [Order.run, MachineRec.giveUp]
    split
    · exact ⟨rfl, fun e => absurd e (by simp)⟩
    · exact ⟨rfl, fun e => e⟩
  | stop =>
    simp only [Order.run, MachineRec.enterStopped, MachineRec.clearRing, MachineRec.motorOff]
    split <;> exact ⟨rfl, fun e => absurd e (by simp)⟩
  | fail c =>
    simp only [Order.run, MachineRec.enterBroken, MachineRec.motorOff]
    split <;> exact ⟨rfl, fun e => absurd e (by simp)⟩
  | posting y =>
    refine ⟨rfl, fun e => ?_⟩
    simp only [Order.run, MachineRec.takePosting] at e
    split at e
    · exact absurd e (by simp)
    · split at e
      · exact absurd e (by simp)
      · exact e
  | reject => exact ⟨rfl, fun e => e⟩

theorem LampOrder.run_bound (o : LampOrder) (l : LampRec) : (o.run l).boundLength = l.boundLength := by
  cases o with
  | strike => rfl
  | putOut =>
    simp only [LampOrder.run, LampRec.putOut]
    split <;> rfl
  | flag => rfl

/-- Every reaction keeps the law of the plan. -/
theorem Reaction.plan (q : Reaction s t) (k : PlanLaw s) : PlanLaw t := by
  cases q with
  | report r => exact k.congr (fun _ _ => rfl) (fun _ => rfl) (fun _ => rfl) (fun _ e => e) fun _ => rfl
  | screen sc f _ e => exact k.congr (fun _ _ => rfl) (fun _ => rfl) (fun _ => rfl) (fun _ e => e) fun _ => rfl
  | emptyDeferred m => exact k.congr (fun _ _ => rfl) (fun _ => rfl) (fun _ => rfl) (fun _ e => e) fun _ => rfl
  | defer m c _ e => exact k.congr (fun _ _ => rfl) (fun _ => rfl) (fun _ => rfl) (fun _ e => e) fun _ => rfl
  | notePosting m y _ e => exact k.congr (fun _ _ => rfl) (fun _ => rfl) (fun _ => rfl) (fun _ e => e) fun _ => rfl
  | order m o _ e => exact k.ofMachine m _ (o.run_bound _ e).1 (o.run_kept _).reelId (o.run_bound _ e).2
  | lamp m o _ e => exact k.ofLamp m _ (o.run_bound _)
  | slot sc n st _ e =>
    apply k.slotNotice sc n st
    · rcases e with e | e <;> rw [e] <;> decide
    · rcases e with e | e <;> rw [e] <;> decide
  | place sc c r l f _ e => exact k.congr (fun _ _ => rfl) (fun _ => rfl) (fun _ => rfl) (fun _ e => e) fun _ => rfl
  | release sc c r _ e => exact k.congr (fun _ _ => rfl) (fun _ => rfl) (fun _ => rfl) (fun _ e => e) fun _ => rfl

/-- Every run of reactions keeps the law of the plan. -/
theorem Reactions.plan (q : Reactions s t) (k : PlanLaw s) : PlanLaw t := by
  induction q with
  | refl => exact k
  | tail _ q ih => exact q.plan ih

end Sys2Proof.Machine
end

