-- ==== Sys2Proof/Laws/Trips.lean ====
section
/-! SUPPORT. The passing of time, trips and resets, and the laws of the booth, the house lights, the line and the plan
across them (R139, R140, R152, R154, R160, R161). -/

namespace Sys2Proof.Machine

open Sys2Proof

variable {s t : State}

/-! ### The passing of time -/

theorem State.elapse_machine (dt : Nat) (s : State) (m : MachineId) :
    (s.elapse dt).machine m = (s.machine m).elapse dt := Quad.get_map _ _ _

theorem State.elapse_lamp (dt : Nat) (s : State) (m : MachineId) : (s.elapse dt).lamp m = (s.lamp m).elapse dt :=
  Quad.get_map _ _ _

theorem State.elapse_screen (dt : Nat) (s : State) (sc : ScreenId) :
    (s.elapse dt).screen sc = (s.screen sc).elapse dt := Pair.get_map _ _ _

theorem State.elapse_slot (dt : Nat) (s : State) (sc : ScreenId) (n : SlotIx) :
    (s.elapse dt).slot sc n = s.slot sc n := by
  have : (s.plan.elapse dt).tables = s.plan.tables := by
    unfold PlanStore.elapse; split <;> rfl
  simp only [State.slot, State.elapse, this]

theorem State.elapse_circuit (dt : Nat) (s : State) (sc : ScreenId) (c : CircuitId) :
    (s.elapse dt).circuit sc c = (s.circuit sc c).elapse dt := by
  simp only [State.circuit, State.elapse, HouseLights.elapse, Pair.get_map, Triple.get_map]

theorem FireUnit.elapse_latches (dt : Nat) (u : FireUnit) :
    (u.elapse dt).machineLatch = u.machineLatch ∧ (u.elapse dt).boothLatch = u.boothLatch
      ∧ (u.elapse dt).gates = u.gates ∧ (u.elapse dt).log = u.log ∧ (u.elapse dt).nextSequence = u.nextSequence
      ∧ (u.elapse dt).loopClosed = u.loopClosed := by
  unfold FireUnit.elapse; dsimp only
  split <;> exact ⟨rfl, rfl, rfl, rfl, rfl, rfl⟩

theorem FireUnit.elapse_shutter (dt : Nat) (u : FireUnit) (m : MachineId) :
    (u.elapse dt).shutters.get m = (u.shutters.get m).elapse dt := by
  unfold FireUnit.elapse; dsimp only
  split <;> exact Quad.get_map _ _ _

theorem BoothLaw.elapse (h : BoothLaw s) (dt : Nat) : BoothLaw (s.elapse dt) where
  machine m := by
    rw [State.elapse_machine, State.elapse_lamp]
    have k := (h.machine m).elapse dt
    exact ⟨k.1, k.2, k.3, k.4, k.5, k.6, k.7, k.8, k.9, k.10, k.11⟩
  lamp m := by rw [State.elapse_lamp]; exact (h.lamp m).elapse dt
  latched m q := by
    have q : ((s.fire.elapse dt).machineLatch.get m).isSome = true := q
    rw [(FireUnit.elapse_latches dt s.fire).1] at q
    have l := h.latched m q
    rw [State.elapse_machine, State.elapse_lamp]
    have e : (s.elapse dt).fire.shutters.get m = (s.fire.shutters.get m).elapse dt :=
      FireUnit.elapse_shutter dt s.fire m
    rw [e]
    exact ⟨l.tripped, l.motorOff, l.fireHeld, l.arcOpen, l.arcOut, l.magnetOff⟩
  unlatched m q := by
    have q : (s.fire.elapse dt).machineLatch.get m = none := q
    rw [(FireUnit.elapse_latches dt s.fire).1] at q
    have l := h.unlatched m q
    rw [State.elapse_machine]
    exact ⟨l.notTripped, l.fireFree⟩
  booth q m := by
    have q : (s.fire.elapse dt).boothLatch.isSome = true := q
    show ((s.fire.elapse dt).machineLatch.get m).isSome = true
    rw [(FireUnit.elapse_latches dt s.fire).1]
    rw [(FireUnit.elapse_latches dt s.fire).2.1] at q
    exact h.booth q m

theorem LightsLaw.elapse (h : LightsLaw s) (dt : Nat) : LightsLaw (s.elapse dt) where
  halfCycle := h.halfCycle
  circuit sc c := by rw [State.elapse_circuit]; exact (h.circuit sc c).elapse dt
  safety sc c := by
    rw [State.elapse_circuit]
    have e : (s.elapse dt).fire.machineLatch = s.fire.machineLatch := (FireUnit.elapse_latches dt s.fire).1
    simp only [State.screenLatched, e]
    exact h.safety sc c
  booth q m := by
    have e : (s.elapse dt).fire.machineLatch = s.fire.machineLatch := (FireUnit.elapse_latches dt s.fire).1
    have f : (s.elapse dt).fire.boothLatch = s.fire.boothLatch := (FireUnit.elapse_latches dt s.fire).2.1
    rw [e]; rw [f] at q
    exact h.booth q m

theorem PlanLaw.elapse (h : PlanLaw s) (dt : Nat) : PlanLaw (s.elapse dt) :=
  h.congr (State.elapse_slot dt s) (fun m => by rw [State.elapse_machine]; rfl)
    (fun m => by rw [State.elapse_lamp]; rfl) (fun m e => by rw [State.elapse_machine] at e; exact e)
    fun m => by rw [State.elapse_machine]; rfl

/-! ### Trip orders as a machine and its lamp take them -/

/-- The laws of the machine and lamp records alone. -/
structure UnitLaws (s : State) : Prop where
  machine : ∀ m, MachineLaw (s.machine m) (s.lamp m)
  lamp : ∀ m, LampLaw (s.lamp m)

/-- A machine stopped and held by the fire unit, its lamp out (R19, R73). -/
structure UnitOut (s : State) (m : MachineId) : Prop where
  tripped : (s.machine m).state = .tripped
  motorOff : (s.machine m).motor = false
  fireHeld : (s.machine m).holds.fire = true
  arcOpen : (s.lamp m).contactorClosed = false
  arcOut : (s.lamp m).state ≠ .burning ∧ (s.lamp m).state ≠ .striking

theorem BoothLaw.units (h : BoothLaw s) : UnitLaws s := ⟨h.machine, h.lamp⟩

/-- A TRIPPED machine is held by FIRE. -/
theorem BoothLaw.tripped_held (h : BoothLaw s) (m : MachineId) (e : (s.machine m).state = .tripped) :
    (s.machine m).holds.fire = true := by
  cases g : s.fire.machineLatch.get m with
  | none => exact absurd e (h.unlatched m g).notTripped
  | some c => exact (h.latched m (by rw [g]; rfl)).fireHeld

theorem MachineRec.trip_state (r : MachineRec) : r.trip.state = .tripped := by
  unfold MachineRec.trip
  split
  next e => exact e
  · unfold MachineRec.motorOff; split <;> rfl

theorem MachineRec.trip_fire (r : MachineRec) (h : r.state = .tripped → r.holds.fire = true) :
    r.trip.holds.fire = true := by
  unfold MachineRec.trip
  split
  next e => exact h e
  · unfold MachineRec.motorOff; split <;> rfl

theorem MachineRec.trip_kept (r : MachineRec) :
    r.trip.boundSlot = r.boundSlot ∧ r.trip.reelId = r.reelId ∧ r.trip.frameCount = r.frameCount
      ∧ r.trip.accelAllowance = r.accelAllowance := by
  unfold MachineRec.trip MachineRec.leaveBroken MachineRec.motorOff
  split
  · exact ⟨rfl, rfl, rfl, rfl⟩
  · split <;> split <;> exact ⟨rfl, rfl, rfl, rfl⟩

theorem LampRec.putOut_out (l : LampRec) : l.putOut.state ≠ .burning ∧ l.putOut.state ≠ .striking := by
  unfold LampRec.putOut
  split
  · exact ⟨by simp [LampRec.recompute], by simp [LampRec.recompute]⟩
  · exact ⟨by simp [LampRec.recompute], by simp [LampRec.recompute]⟩
  all_goals next e => rw [e]; exact ⟨by decide, by decide⟩

theorem LampRec.putOut_bound (l : LampRec) : l.putOut.boundLength = l.boundLength := by
  unfold LampRec.putOut; split <;> rfl

/-- What a trip order does to the records of every machine and lamp. -/
theorem State.tripOrder_machine (m k : MachineId) (s : State) :
    ((s.tripOrder m).lamp k = if k = m then (s.lamp m).putOut else s.lamp k)
      ∧ (k ≠ m → (s.tripOrder m).machine k = s.machine k)
      ∧ (k = m → ((s.tripOrder m).machine k).state = (s.machine m).trip.state
        ∧ ((s.tripOrder m).machine k).motor = (s.machine m).trip.motor
        ∧ ((s.tripOrder m).machine k).holds.fire = (s.machine m).trip.holds.fire
        ∧ ((s.tripOrder m).machine k).boundSlot = (s.machine m).trip.boundSlot
        ∧ ((s.tripOrder m).machine k).reelId = (s.machine m).trip.reelId
        ∧ ((s.tripOrder m).machine k).frameCount = (s.machine m).trip.frameCount) := by
  refine ⟨?_, ?_, ?_⟩
  · simp only [State.tripOrder, State.modLamp_lamp, State.modMachine_lamp]
  · intro ne
    simp only [State.tripOrder]
    rw [State.modLamp_machine', if_neg ne, State.modMachine_machine, if_neg ne]
  · intro e
    subst e
    simp only [State.tripOrder]
    rw [State.modLamp_machine', if_pos rfl]
    split
    · rw [State.modMachine_machine, if_pos rfl]; exact ⟨rfl, rfl, rfl, rfl, rfl, rfl⟩
    · rw [State.modMachine_machine, if_pos rfl]; exact ⟨rfl, rfl, rfl, rfl, rfl, rfl⟩

theorem UnitLaws.tripOrder (h : UnitLaws s) (m : MachineId) : UnitLaws (s.tripOrder m) where
  machine k := by
    simp only [State.tripOrder]
    rw [State.modLamp_machine', State.modLamp_lamp]
    by_cases e : k = m
    · subst e
      simp only [if_true]
      apply MachineLaw.ofLamp
      rw [State.modMachine_machine, if_pos rfl, State.modMachine_lamp]
      exact (h.machine k).trip
    · simp only [e, if_false]
      rw [State.modMachine_machine, if_neg e]
      exact h.machine k
  lamp k := by
    rw [(State.tripOrder_machine m k s).1]
    split
    · exact (h.lamp m).putOut
    · exact h.lamp k

theorem UnitLaws.tripOut (h : UnitLaws s) (m : MachineId)
    (f : (s.machine m).state = .tripped → (s.machine m).holds.fire = true) : UnitOut (s.tripOrder m) m := by
  have u := h.tripOrder m
  have e := (State.tripOrder_machine m m s).2.2 rfl
  have l : (s.tripOrder m).lamp m = (s.lamp m).putOut := by rw [(State.tripOrder_machine m m s).1, if_pos rfl]
  have st : ((s.tripOrder m).machine m).state = .tripped := e.1.trans (MachineRec.trip_state _)
  have lo := LampRec.putOut_out (s.lamp m)
  rw [← l] at lo
  refine ⟨st, (u.machine m).motor_off (by rw [st]; rfl) (by rw [st]; decide),
    e.2.2.1.trans (MachineRec.trip_fire _ f), ?_, lo⟩
  have c := (u.lamp m).contactor
  have a1 : (((s.tripOrder m).lamp m).state == .burning) = false := by simpa using lo.1
  have a2 : (((s.tripOrder m).lamp m).state == .striking) = false := by simpa using lo.2
  rw [a1, a2] at c
  exact c

theorem UnitOut.tripOther {m k : MachineId} (h : UnitOut s k) (ne : k ≠ m) : UnitOut (s.tripOrder m) k := by
  have a := State.tripOrder_machine m k s
  have l := a.1
  rw [if_neg ne] at l
  have e := a.2.1 ne
  exact ⟨by rw [e]; exact h.1, by rw [e]; exact h.2, by rw [e]; exact h.3, by rw [l]; exact h.4,
    by rw [l]; exact h.5⟩

theorem State.tripOrder_fire (m : MachineId) (s : State) : (s.tripOrder m).fire = s.fire := by
  simp only [State.tripOrder, State.modLamp_fire, State.modMachine_fire]

theorem State.tripOrder_lights (m : MachineId) (s : State) : (s.tripOrder m).lights = s.lights := by
  simp only [State.tripOrder, State.modLamp_lights, State.modMachine_lights]

theorem State.tripOrder_line (m : MachineId) (s : State) : (s.tripOrder m).line = s.line := by
  simp only [State.tripOrder, State.modLamp_line, State.modMachine_line]

theorem PlanLaw.tripOrder (h : PlanLaw s) (m : MachineId) : PlanLaw (s.tripOrder m) :=
  (h.ofMachine m MachineRec.trip (MachineRec.trip_kept _).1 (MachineRec.trip_kept _).2.1
    (fun e => by rw [MachineRec.trip_state] at e; exact absurd e (by decide))).ofLamp m _ (LampRec.putOut_bound _)

/-! ### A screen's three circuits -/

theorem State.placeThree_circuit (sc k : ScreenId) (r : Rank) (l : SceneLevels) (f : Nat) (c : CircuitId) (s : State) :
    (s.placeThree sc r l f).circuit k c
      = if k = sc then (s.circuit sc c).place s.lights.halfCycle r (l.get c) f else s.circuit k c := by
  simp only [State.placeThree, State.modCircuit_circuit, State.modCircuit_halfCycle]
  by_cases e : k = sc
  · subst e
    cases c <;> simp [Triple.get]
  · simp [e]

theorem State.releaseThree_circuit (sc k : ScreenId) (r : Rank) (c : CircuitId) (s : State) :
    (s.releaseThree sc r).circuit k c
      = if k = sc then (s.circuit sc c).release s.lights.halfCycle r else s.circuit k c := by
  simp only [State.releaseThree, State.modCircuit_circuit, State.modCircuit_halfCycle]
  by_cases e : k = sc
  · subst e
    cases c <;> simp
  · simp [e]

theorem State.placeThree_halfCycle (sc : ScreenId) (r : Rank) (l : SceneLevels) (f : Nat) (s : State) :
    (s.placeThree sc r l f).lights.halfCycle = s.lights.halfCycle := rfl

theorem State.releaseThree_halfCycle (sc : ScreenId) (r : Rank) (s : State) :
    (s.releaseThree sc r).lights.halfCycle = s.lights.halfCycle := rfl

/-- Placing SAFETY touches the circuits alone. -/
theorem State.placeSafety_fire (sc : ScreenId) (s : State) : (s.placeSafety sc).fire = s.fire := by
  simp only [State.placeSafety, State.placeThree, State.modCircuit_fire]

theorem State.placeSafety_machine (sc : ScreenId) (s : State) (m : MachineId) :
    (s.placeSafety sc).machine m = s.machine m := by
  simp only [State.placeSafety, State.placeThree, State.modCircuit_machine]

theorem State.placeSafety_lamp (sc : ScreenId) (s : State) (m : MachineId) :
    (s.placeSafety sc).lamp m = s.lamp m := by
  simp only [State.placeSafety, State.placeThree, State.modCircuit_lamp]

theorem State.placeSafety_slot (sc k : ScreenId) (n : SlotIx) (s : State) :
    (s.placeSafety sc).slot k n = s.slot k n := by
  simp only [State.placeSafety, State.placeThree, State.modCircuit_slot]

theorem State.placeSafety_line (sc : ScreenId) (s : State) : (s.placeSafety sc).line = s.line := by
  simp only [State.placeSafety, State.placeThree, State.modCircuit_line]

theorem UnitLaws.placeSafety (h : UnitLaws s) (sc : ScreenId) : UnitLaws (s.placeSafety sc) :=
  ⟨fun m => by rw [State.placeSafety_machine, State.placeSafety_lamp]; exact h.machine m,
    fun m => by rw [State.placeSafety_lamp]; exact h.lamp m⟩

theorem UnitOut.placeSafety {m : MachineId} (h : UnitOut s m) (sc : ScreenId) : UnitOut (s.placeSafety sc) m :=
  ⟨by rw [State.placeSafety_machine]; exact h.1, by rw [State.placeSafety_machine]; exact h.2,
    by rw [State.placeSafety_machine]; exact h.3, by rw [State.placeSafety_lamp]; exact h.4,
    by rw [State.placeSafety_lamp]; exact h.5⟩

theorem PlanLaw.placeSafety (h : PlanLaw s) (sc : ScreenId) : PlanLaw (s.placeSafety sc) :=
  h.congr (fun k n => State.placeSafety_slot sc k n s) (fun m => by rw [State.placeSafety_machine])
    (fun m => by rw [State.placeSafety_lamp]) (fun m e => by rwa [State.placeSafety_machine] at e)
    fun m => by rw [State.placeSafety_machine]

/-- The laws of the circuits alone. -/
structure CircuitLaws (s : State) : Prop where
  halfCycle : 7500 ≤ s.lights.halfCycle ∧ s.lights.halfCycle ≤ 11000
  circuit : ∀ sc c, CircuitLaw s.lights.halfCycle (s.circuit sc c)

theorem LightsLaw.circuits (h : LightsLaw s) : CircuitLaws s := ⟨h.halfCycle, h.circuit⟩

theorem CircuitLaws.congr (h : CircuitLaws s) (e : t.lights = s.lights) : CircuitLaws t :=
  ⟨by rw [e]; exact h.halfCycle, fun sc c => by simp only [State.circuit, e]; exact h.circuit sc c⟩

theorem CircuitLaws.placeSafety (h : CircuitLaws s) (sc : ScreenId) : CircuitLaws (s.placeSafety sc) where
  halfCycle := h.halfCycle
  circuit k c := by
    simp only [State.placeSafety]
    rw [State.placeThree_circuit, State.placeThree_halfCycle]
    split
    · exact (h.circuit sc c).place _ _ _ fun _ => ⟨by cases c <;> rfl, rfl⟩
    · exact h.circuit k c

theorem CircuitLaws.releaseSafety (h : CircuitLaws s) (sc : ScreenId) : CircuitLaws (s.releaseSafety sc) := by
  unfold State.releaseSafety
  split
  · exact ⟨h.halfCycle, fun k c => by
      rw [State.releaseThree_circuit, State.releaseThree_halfCycle]
      split
      · exact (h.circuit sc c).release _
      · exact h.circuit k c⟩
  · exact h

/-- SAFETY stands on each circuit of a screen it is placed on, and elsewhere as before. -/
theorem State.placeSafety_safety (sc k : ScreenId) (c : CircuitId) (s : State) :
    ((s.placeSafety sc).circuit k c).claims.safety.isSome = if k = sc then true else (s.circuit k c).claims.safety.isSome := by
  simp only [State.placeSafety]
  rw [State.placeThree_circuit]
  split
  · have h := Circuit.place_self s.lights.halfCycle .safety
      (Triple.get (⟨Config.fullLevel, Config.fullLevel, Config.fullLevel⟩ : SceneLevels) c) 0 (s.circuit sc c)
    have := congrArg Option.isSome h
    simpa [ClaimTable.get] using this
  · rfl

theorem State.releaseThree_safety (sc k : ScreenId) (c : CircuitId) (s : State) :
    ((s.releaseThree sc .safety).circuit k c).claims.safety.isSome
      = if k = sc then false else (s.circuit k c).claims.safety.isSome := by
  rw [State.releaseThree_circuit]
  split
  · have h := Circuit.release_self s.lights.halfCycle .safety (s.circuit sc c)
    have h : ((s.circuit sc c).release s.lights.halfCycle .safety).claims.safety = none := h
    rw [h]; rfl
  · rfl

/-! ### A booth trip and a machine trip -/

/-- The state in which the units take the orders of a booth trip: every latch set, every magnet OFF (R152). -/
def State.boothLatches (n : Nat) (s : State) : State :=
  s.modFire fun u =>
    { u with
      boothLatch := some .loop
      machineLatch := u.machineLatch.map boothLatched
      shutters := ⟨u.shutters.m1.drop n (s.snapshot .m1), u.shutters.m2.drop n (s.snapshot .m2),
        u.shutters.m3.drop n (s.snapshot .m3), u.shutters.m4.drop n (s.snapshot .m4)⟩ }

/-- The four machines and lamps take a booth trip order. -/
def State.tripAll (s : State) : State := (((s.tripOrder .m1).tripOrder .m2).tripOrder .m3).tripOrder .m4

theorem State.boothTripOrders_eq (n : Nat) (s : State) :
    s.boothTripOrders n = ((s.boothLatches n).tripAll.placeSafety .s1).placeSafety .s2 := rfl

theorem State.tripAll_fire (s : State) : s.tripAll.fire = s.fire := by
  simp only [State.tripAll, State.tripOrder_fire]

theorem State.tripAll_lights (s : State) : s.tripAll.lights = s.lights := by
  simp only [State.tripAll, State.tripOrder_lights]

theorem boothLatched_isSome (x : Option LatchCause) : (boothLatched x).isSome = true := by
  cases x with
  | none => rfl
  | some c => cases c <;> rfl

theorem ShutterRec.drop_magnet (n : Nat) (x : MachineSnapshot) (r : ShutterRec) : (r.drop n x).magnet = false := by
  unfold ShutterRec.drop; split <;> rfl

theorem State.boothLatches_latched (n : Nat) (s : State) (m : MachineId) :
    ((s.boothLatches n).fire.machineLatch.get m).isSome = true
      ∧ ((s.boothLatches n).fire.shutters.get m).magnet = false := by
  refine ⟨?_, ?_⟩
  · show ((s.fire.machineLatch.map boothLatched).get m).isSome = true
    rw [Quad.get_map]
    exact boothLatched_isSome _
  · cases m <;> exact ShutterRec.drop_magnet _ _ _

theorem UnitLaws.tripAll (h : UnitLaws s)
    (f : ∀ m, (s.machine m).state = .tripped → (s.machine m).holds.fire = true) :
    UnitLaws s.tripAll ∧ ∀ m, UnitOut s.tripAll m := by
  have ne12 : MachineId.m1 ≠ .m2 := by decide
  have ne13 : MachineId.m1 ≠ .m3 := by decide
  have ne14 : MachineId.m1 ≠ .m4 := by decide
  have ne23 : MachineId.m2 ≠ .m3 := by decide
  have ne24 : MachineId.m2 ≠ .m4 := by decide
  have ne34 : MachineId.m3 ≠ .m4 := by decide
  have u1 := h.tripOrder .m1
  have o1 := h.tripOut .m1 (f .m1)
  have e21 := (State.tripOrder_machine .m1 .m2 s).2.1 ne12.symm
  have e31 := (State.tripOrder_machine .m1 .m3 s).2.1 ne13.symm
  have e41 := (State.tripOrder_machine .m1 .m4 s).2.1 ne14.symm
  have u2 := u1.tripOrder .m2
  have o2 := u1.tripOut .m2 (by rw [e21]; exact f .m2)
  have e32 := (State.tripOrder_machine .m2 .m3 (s.tripOrder .m1)).2.1 ne23.symm
  have e42 := (State.tripOrder_machine .m2 .m4 (s.tripOrder .m1)).2.1 ne24.symm
  have u3 := u2.tripOrder .m3
  have o3 := u2.tripOut .m3 (by rw [e32, e31]; exact f .m3)
  have e43 := (State.tripOrder_machine .m3 .m4 ((s.tripOrder .m1).tripOrder .m2)).2.1 ne34.symm
  have u4 := u3.tripOrder .m4
  have o4 := u3.tripOut .m4 (by rw [e43, e42, e41]; exact f .m4)
  refine ⟨u4, fun m => ?_⟩
  cases m with
  | m1 => exact ((o1.tripOther ne12).tripOther ne13).tripOther ne14
  | m2 => exact (o2.tripOther ne23).tripOther ne24
  | m3 => exact o3.tripOther ne34
  | m4 => exact o4

/-- A booth trip's orders keep the law of the booth, from any lawful state (R152, R155). -/
theorem BoothLaw.boothTripOrders (h : BoothLaw s) (n : Nat) : BoothLaw (s.boothTripOrders n) := by
  rw [State.boothTripOrders_eq]
  have u0 : UnitLaws (s.boothLatches n) := ⟨h.machine, h.lamp⟩
  obtain ⟨v, p⟩ := u0.tripAll fun m => h.tripped_held m
  have u := (v.placeSafety .s1).placeSafety .s2
  have o := fun m => ((p m).placeSafety .s1).placeSafety .s2
  have fire : (((s.boothLatches n).tripAll.placeSafety .s1).placeSafety .s2).fire = (s.boothLatches n).fire := by
    rw [State.placeSafety_fire, State.placeSafety_fire, State.tripAll_fire]
  have lat := s.boothLatches_latched n
  refine ⟨u.machine, u.lamp, ?_, ?_, ?_⟩
  · intro m _
    have x := o m
    exact ⟨x.1, x.2, x.3, x.4, x.5, by rw [fire]; exact (lat m).2⟩
  · intro m q
    rw [fire] at q
    have := (lat m).1
    rw [q] at this
    exact absurd this (by decide)
  · intro _ m
    rw [fire]
    exact (lat m).1

/-- A booth trip's orders put SAFETY on every circuit (R139). -/
theorem LightsLaw.boothTripOrders (h : LightsLaw s) (n : Nat) : LightsLaw (s.boothTripOrders n) := by
  rw [State.boothTripOrders_eq]
  have c0 : CircuitLaws (s.boothLatches n).tripAll := h.circuits.congr (State.tripAll_lights _)
  have c := (c0.placeSafety .s1).placeSafety .s2
  have lat := s.boothLatches_latched n
  have fire : (((s.boothLatches n).tripAll.placeSafety .s1).placeSafety .s2).fire = (s.boothLatches n).fire := by
    rw [State.placeSafety_fire, State.placeSafety_fire, State.tripAll_fire]
  refine ⟨c.halfCycle, c.circuit, ?_, ?_⟩
  · intro sc d
    rw [State.placeSafety_safety, State.placeSafety_safety]
    simp only [State.screenLatched, fire, (lat _).1, Bool.or_true]
    cases sc <;> rfl
  · intro _ m
    rw [fire]
    exact (lat m).1

theorem PlanLaw.boothTripOrders (h : PlanLaw s) (n : Nat) : PlanLaw (s.boothTripOrders n) := by
  rw [State.boothTripOrders_eq]
  have h0 : PlanLaw (s.boothLatches n) :=
    h.congr (fun _ _ => rfl) (fun _ => rfl) (fun _ => rfl) (fun _ e => e) fun _ => rfl
  have h4 : PlanLaw (s.boothLatches n).tripAll := (((h0.tripOrder .m1).tripOrder .m2).tripOrder .m3).tripOrder .m4
  exact (h4.placeSafety .s1).placeSafety .s2

/-- The state in which the units take the order of a machine trip: its latch set, its magnet OFF (R154). -/
def State.machineLatches (m : MachineId) (n : Nat) (s : State) : State :=
  (s.modFire (FireUnit.putLatch m (some .gateHeat))).modShutter m (ShutterRec.drop n (s.snapshot m))

theorem State.machineTripOrders_eq (m : MachineId) (n : Nat) (s : State) :
    s.machineTripOrders m n = ((s.machineLatches m n).tripOrder m).placeSafety (screenOf m) := rfl

theorem State.machineLatches_latch (m k : MachineId) (n : Nat) (s : State) :
    ((s.machineLatches m n).fire.machineLatch.get k) = (if k = m then some .gateHeat else s.fire.machineLatch.get k)
      ∧ ((s.machineLatches m n).fire.shutters.get k)
        = if k = m then (s.fire.shutters.get m).drop n (s.snapshot m) else s.fire.shutters.get k := by
  refine ⟨?_, ?_⟩
  · show (s.fire.machineLatch.set m (some .gateHeat)).get k = _
    exact Quad.get_set _ _ _ _
  · show (s.fire.shutters.set m ((s.fire.shutters.get m).drop n (s.snapshot m))).get k = _
    exact Quad.get_set _ _ _ _

theorem BoothLaw.machineTripOrders (h : BoothLaw s) (m : MachineId) (n : Nat) : BoothLaw (s.machineTripOrders m n) := by
  rw [State.machineTripOrders_eq]
  have u0 : UnitLaws (s.machineLatches m n) := ⟨h.machine, h.lamp⟩
  have u := (u0.tripOrder m).placeSafety (screenOf m)
  have o := (u0.tripOut m (h.tripped_held m)).placeSafety (screenOf m)
  have fire : (((s.machineLatches m n).tripOrder m).placeSafety (screenOf m)).fire = (s.machineLatches m n).fire := by
    rw [State.placeSafety_fire, State.tripOrder_fire]
  have lat := fun k => s.machineLatches_latch m k n
  have same : ∀ k, k ≠ m →
      (((s.machineLatches m n).tripOrder m).placeSafety (screenOf m)).machine k = s.machine k := fun k ne => by
    rw [State.placeSafety_machine]; exact (State.tripOrder_machine m k (s.machineLatches m n)).2.1 ne
  have sameL : ∀ k, k ≠ m → (((s.machineLatches m n).tripOrder m).placeSafety (screenOf m)).lamp k = s.lamp k :=
    fun k ne => by
      rw [State.placeSafety_lamp, (State.tripOrder_machine m k (s.machineLatches m n)).1, if_neg ne]; rfl
  refine ⟨u.machine, u.lamp, ?_, ?_, ?_⟩
  · intro k q
    rw [fire] at q ⊢
    rw [(lat k).1] at q
    rw [(lat k).2]
    by_cases e : k = m
    · subst e
      rw [if_pos rfl]
      exact ⟨o.1, o.2, o.3, o.4, o.5, ShutterRec.drop_magnet _ _ _⟩
    · rw [if_neg e] at q ⊢
      have l := h.latched k q
      have a := same k e
      have b := sameL k e
      exact ⟨by rw [a]; exact l.1, by rw [a]; exact l.2, by rw [a]; exact l.3, by rw [b]; exact l.4,
        by rw [b]; exact l.5, l.6⟩
  · intro k q
    rw [fire] at q
    rw [(lat k).1] at q
    by_cases e : k = m
    · rw [if_pos e] at q; exact absurd q (by simp)
    · rw [if_neg e] at q
      have l := h.unlatched k q
      have a := same k e
      exact ⟨by rw [a]; exact l.1, by rw [a]; exact l.2⟩
  · intro q k
    rw [fire] at q ⊢
    rw [(lat k).1]
    split
    · rfl
    · exact h.booth q k

theorem LightsLaw.machineTripOrders (h : LightsLaw s) (m : MachineId) (n : Nat) :
    LightsLaw (s.machineTripOrders m n) := by
  rw [State.machineTripOrders_eq]
  have c0 : CircuitLaws ((s.machineLatches m n).tripOrder m) := h.circuits.congr (State.tripOrder_lights _ _)
  have c := c0.placeSafety (screenOf m)
  have fire : (((s.machineLatches m n).tripOrder m).placeSafety (screenOf m)).fire = (s.machineLatches m n).fire := by
    rw [State.placeSafety_fire, State.tripOrder_fire]
  have lat := fun k => (s.machineLatches_latch m k n).1
  refine ⟨c.halfCycle, c.circuit, ?_, ?_⟩
  · intro sc d
    rw [State.placeSafety_safety]
    have same : (((s.machineLatches m n).tripOrder m).circuit sc d) = s.circuit sc d := by
      simp only [State.circuit, State.tripOrder_lights]; rfl
    rw [same, h.safety sc d]
    simp only [State.screenLatched, fire, lat]
    cases m <;> cases sc <;> simp [screenOf, lowerOf, upperOf]
  · intro q k
    rw [fire] at q ⊢
    rw [lat k]
    split
    · rfl
    · exact h.booth q k

theorem PlanLaw.machineTripOrders (h : PlanLaw s) (m : MachineId) (n : Nat) : PlanLaw (s.machineTripOrders m n) := by
  rw [State.machineTripOrders_eq]
  have h0 : PlanLaw (s.machineLatches m n) :=
    h.congr (fun _ _ => rfl) (fun _ => rfl) (fun _ => rfl) (fun _ e => e) fun _ => rfl
  exact (h0.tripOrder m).placeSafety (screenOf m)

end Sys2Proof.Machine
end

