-- ==== Sys2Proof/Laws/Fire.lean ====
section
/-! SUPPORT. The law of the fire unit's records across each of its operations (R151 to R166). -/

namespace Sys2Proof.Machine

open Sys2Proof

variable {u : FireUnit} {x : ShutterRec} {g : GateRec}

/-! ### Shutters -/

theorem ShutterLaw.energize (h : ShutterLaw x) (k : x.state ≠ .dropping) : ShutterLaw x.energize :=
  ⟨h.1, h.2, h.3, fun _ => rfl, fun e => absurd e k⟩

theorem ShutterLaw.drop (n : Nat) (q : MachineSnapshot) (h : ShutterLaw x) : ShutterLaw (x.drop n q) := by
  unfold ShutterRec.drop
  split
  · exact ⟨rfl, rfl, rfl, by simp, fun _ => rfl⟩
  next e => exact ⟨h.1, h.2, h.3, fun k => absurd k e, fun _ => rfl⟩

theorem ShutterLaw.settleClosed (_ : ShutterLaw x) : ShutterLaw (x.settle .closed) :=
  ⟨rfl, rfl, rfl, by simp [ShutterRec.settle], by simp [ShutterRec.settle]⟩

theorem ShutterLaw.settleOpened (_ : ShutterLaw x) (m : x.magnet = true) : ShutterLaw (x.settle .opened) :=
  ⟨rfl, rfl, rfl, fun _ => m, by simp [ShutterRec.settle]⟩

theorem ShutterLaw.readSwitch (sw : ShutterSwitch) (b : Bool) (h : ShutterLaw x) : ShutterLaw (x.readSwitch sw b) := by
  cases sw <;> exact ⟨h.1, h.2, h.3, h.4, h.5⟩

theorem ShutterLaw.stick (h : ShutterLaw x) (k : x.state = .dropping) :
    ShutterLaw { x with state := .stuck, confirm := none } :=
  ⟨rfl, by rw [h.dropSequence, k]; rfl, by rw [h.dropSnapshot, k]; rfl, by simp, by simp⟩

theorem ShutterLaw.elapse (dt : Nat) (h : ShutterLaw x) : ShutterLaw (x.elapse dt) :=
  ⟨by show (Timer.advance _ dt x.confirm).isSome = _
      have e : (Timer.advance Config.confirmLimit dt x.confirm).isSome = x.confirm.isSome := by
        cases x.confirm <;> rfl
      rw [e]; exact h.1, h.2, h.3, h.4, h.5⟩

/-! ### Gates -/

theorem GateLaw.take (n : Nat) (h : GateLaw g) : GateLaw (g.take n) := by
  refine ⟨Nat.min_le_left _ _, ?_, h.3⟩
  simp only [GateRec.take]
  split
  · exact Nat.min_le_left _ _
  · exact Nat.zero_le _

/-! ### The unit -/

theorem FireLaw.setShutter (m : MachineId) (h : FireLaw u) (k : ShutterLaw x) :
    FireLaw { u with shutters := u.shutters.set m x } :=
  ⟨fun j => by
      show ShutterLaw ((u.shutters.set m x).get j)
      rw [Quad.get_set]; split
      · exact k
      · exact h.shutter j, h.2, h.3, h.4, h.5, h.6, h.7, h.8⟩

theorem FireLaw.setGate (m : MachineId) (h : FireLaw u) (k : GateLaw g) :
    FireLaw { u with gates := u.gates.set m g } :=
  ⟨h.1, fun j => by
      show GateLaw ((u.gates.set m g).get j)
      rw [Quad.get_set]; split
      · exact k
      · exact h.gate j, h.3, h.4, h.5, h.6, h.7, h.8⟩

/-- An incident record takes next sequence, and the log keeps its eight newest (R163). -/
theorem FireLaw.record (r : IncidentRec) (h : FireLaw u) (e : r.sequence = u.nextSequence) : FireLaw (u.record r) := by
  have b := h.next
  refine ⟨h.1, h.2, by simp [FireUnit.record], Nat.mod_lt _ (by decide), ?_, h.6, h.7, h.8⟩
  intro i q k
  simp only [FireUnit.record, List.getElem?_take] at k
  simp only [FireUnit.record]
  split at k
  next lt =>
    cases i with
    | zero =>
      simp only [List.getElem?_cons_zero, Option.some.injEq] at k
      rw [← k, e]
      show u.nextSequence = ((u.nextSequence + 1) % 65536 + 65535 - 0) % 65536
      omega
    | succ j =>
      simp only [List.getElem?_cons_succ] at k
      have := h.sequence j q k
      have lt : j + 1 < 8 := lt
      rw [this]
      show (u.nextSequence + 65535 - j) % 65536 = ((u.nextSequence + 1) % 65536 + 65535 - (j + 1)) % 65536
      omega
  next => exact absurd k (by simp)

/-- Writing an outcome changes no sequence (R157). -/
theorem FireLaw.confirm (m : MachineId) (o : ShutterOutcome) (h : FireLaw u) : FireLaw (u.confirm m o) := by
  refine ⟨h.1, h.2, by simpa [FireUnit.confirm] using h.3, h.4, ?_, h.6, h.7, h.8⟩
  intro i q k
  simp only [FireUnit.confirm, List.getElem?_map, Option.map_eq_some_iff] at k
  obtain ⟨r, a, b⟩ := k
  rw [← b]
  exact h.sequence i r a

theorem FireLaw.loopChange (c : Bool) (h : FireLaw u) : FireLaw (u.loopChange c) := by
  unfold FireUnit.loopChange
  split
  · exact h
  · split
    · exact ⟨h.1, h.2, h.3, h.4, h.5, rfl, by simp, h.8⟩
    · refine ⟨h.1, h.2, h.3, h.4, h.5, rfl, ?_, h.8⟩
      dsimp only
      split
      · simp
      next e => exact fun _ => ⟨rfl, e⟩

theorem FireLaw.elapse (dt : Nat) (h : FireLaw u) : FireLaw (u.elapse dt) := by
  have l := FireUnit.elapse_latches dt u
  refine ⟨fun m => ?_, fun m => ?_, ?_, ?_, ?_, ?_, ?_, ?_⟩
  · rw [FireUnit.elapse_shutter]; exact (h.shutter m).elapse dt
  · rw [l.2.2.1]; exact h.gate m
  · rw [l.2.2.2.1]; exact h.logSize
  · rw [l.2.2.2.2.1]; exact h.next
  · rw [l.2.2.2.1, l.2.2.2.2.1]; exact h.sequence
  · rw [l.2.2.2.2.2, ← h.healthy]
    unfold FireUnit.elapse; dsimp only
    split
    next e => rw [e]; rfl
    next => rfl
  · rw [l.2.2.2.2.2, l.2.1]
    intro k
    apply h.openMeasure
    have : (u.elapse dt).loopOpenMeasure = Timer.advance Config.loopOpenLimit dt u.loopOpenMeasure := by
      unfold FireUnit.elapse; dsimp only; split <;> rfl
    rw [this] at k
    cases e : u.loopOpenMeasure with
    | none => rw [e] at k; exact absurd k (by simp [Timer.advance])
    | some _ => rfl
  · rw [l.1, l.2.1]; exact h.booth

theorem FireLaw.thresholds (m : MachineId) (y : Thresholds) (h : FireLaw u)
    (a : within 1 4095 y.trip = true)
    (b : ((u.gates.get m).withThresholds y).resetThreshold < ((u.gates.get m).withThresholds y).tripThreshold) :
    FireLaw { u with gates := u.gates.set m ((u.gates.get m).withThresholds y) } := by
  refine h.setGate m ⟨(h.gate m).1, (h.gate m).2, b, ?_⟩
  simp only [GateRec.withThresholds]
  cases e : y.trip with
  | none => exact (h.gate m).3.2
  | some n =>
    rw [e] at a
    simp only [within, Bool.and_eq_true, decide_eq_true_eq] at a
    exact a.2

/-! ### Trips and resets -/

theorem FireLaw.boothLatches {s : State} (h : FireLaw s.fire) (n : Nat) (o : s.fire.loopOpenMeasure = none) :
    FireLaw (s.boothLatches n).fire :=
  ⟨fun m => by
      cases m
      · exact (h.shutter .m1).drop _ _
      · exact (h.shutter .m2).drop _ _
      · exact (h.shutter .m3).drop _ _
      · exact (h.shutter .m4).drop _ _, h.2, h.3, h.4, h.5, h.6,
    fun k => by
      have k : s.fire.loopOpenMeasure.isSome = true := k
      rw [o] at k; exact absurd k (by decide),
    fun _ m => (State.boothLatches_latched n s m).1⟩

theorem FireLaw.machineLatches {s : State} (h : FireLaw s.fire) (m : MachineId) (n : Nat) :
    FireLaw (s.machineLatches m n).fire := by
  have l : ∀ k, (s.machineLatches m n).fire.machineLatch.get k = _ := fun k => (State.machineLatches_latch m k n s).1
  refine ⟨fun k => ?_, h.2, h.3, h.4, h.5, h.6, h.7, fun q k => ?_⟩
  · rw [(State.machineLatches_latch m k n s).2]
    split
    · exact (h.shutter m).drop _ _
    · exact h.shutter k
  · rw [l k]
    split
    · rfl
    · exact h.booth q k

end Sys2Proof.Machine
end

