-- ==== Sys2Proof/Laws/Resets.lean ====
section
/-! SUPPORT. The laws of the booth, the house lights and the plan across the operations that bind and release machines:
RESET m, RESET BOOTH, RESTART, THREAD, UNTHREAD and the writing of plan tables (R91 to R96, R160, R161, R178). -/

namespace Sys2Proof.Machine

open Sys2Proof

variable {s t : State}

/-! ### The booth -/

/-- A machine of a clear latch stays clear, and of a set one set, across a change of plan and line records alone. -/
theorem BoothLaw.endBinding (h : BoothLaw s) (m : MachineId) (st : SlotStatus) : BoothLaw (s.endBinding m st) := by
  unfold State.endBinding
  split
  · exact h
  · exact (h.modSlot _ _ _).unbind m

/-- An unbind notice leaves the lamp state, and so the machine, as they stand (R78). -/
theorem State.unbind_eq (m : MachineId) (s : State) :
    s.modLamp m LampRec.unbind = { s with lamps := s.lamps.set m (s.lamp m).unbind } := by
  unfold State.modLamp
  exact if_pos rfl

theorem State.lamps_machine (s : State) (x : Quad LampRec) (k : MachineId) :
    ({ s with lamps := x } : State).machine k = s.machine k := rfl

theorem State.endBinding_machine (m k : MachineId) (st : SlotStatus) (s : State) :
    ((s.endBinding m st).machine k).state = (s.machine k).state
      ∧ ((s.endBinding m st).machine k).motor = (s.machine k).motor
      ∧ ((s.endBinding m st).machine k).laceUp = (s.machine k).laceUp := by
  unfold State.endBinding
  split
  · exact ⟨rfl, rfl, rfl⟩
  · rw [State.unbind_eq, State.lamps_machine, State.modMachine_machine]
    by_cases e : k = m
    · rw [if_pos e, e]; exact ⟨rfl, rfl, rfl⟩
    · rw [if_neg e]; exact ⟨rfl, rfl, rfl⟩

theorem State.endBinding_fire (m : MachineId) (st : SlotStatus) (s : State) : (s.endBinding m st).fire = s.fire := by
  unfold State.endBinding
  split
  · rfl
  · rw [State.modLamp_fire]; rfl

theorem State.modFire_modMachine (m : MachineId) (f : FireUnit → FireUnit) (g : MachineRec → MachineRec) (s : State) :
    (s.modFire f).modMachine m g = (s.modMachine m g).modFire f := rfl

theorem State.modFire_endBinding (m : MachineId) (st : SlotStatus) (f : FireUnit → FireUnit) (s : State) :
    (s.modFire f).endBinding m st = (s.endBinding m st).modFire f := by
  unfold State.endBinding
  rw [State.modFire_machine]
  cases (s.machine m).boundSlot with
  | none => rfl
  | some n =>
    dsimp only
    rw [State.unbind_eq, State.unbind_eq]
    rfl

theorem State.endBinding_lights (m : MachineId) (st : SlotStatus) (s : State) :
    (s.endBinding m st).lights = s.lights := by
  unfold State.endBinding
  split
  · rfl
  · rw [State.modLamp_lights]; rfl

theorem State.endBinding_line (m : MachineId) (st : SlotStatus) (s : State) :
    (s.endBinding m st).line = s.line := by
  unfold State.endBinding
  split
  · rfl
  · rw [State.modLamp_line]; rfl

theorem State.endBinding_boundSlot (m : MachineId) (st : SlotStatus) (s : State) :
    ((s.endBinding m st).machine m).boundSlot = none := by
  unfold State.endBinding
  split
  next e => exact e
  · rw [State.unbind_eq, State.lamps_machine, State.modMachine_machine, if_pos rfl]; rfl

theorem MachineRec.releaseLost_clear (r : MachineRec) :
    r.releaseLost.state ≠ .tripped ∧ r.releaseLost.holds.fire = false := ⟨by simp [MachineRec.releaseLost], rfl⟩

theorem MachineRec.releaseKept_clear (r : MachineRec) :
    r.releaseKept.state ≠ .tripped ∧ r.releaseKept.holds.fire = false := by
  unfold MachineRec.releaseKept
  dsimp only
  split
  · exact ⟨by simp, rfl⟩
  · split
    · exact ⟨by simp, rfl⟩
    · split
      · exact ⟨by simp, rfl⟩
      · exact ⟨by simp, rfl⟩

/-- RESET m clears one latch, releases its machine and energizes its magnet (R160). -/
theorem BoothLaw.resetMachineOrders (h : BoothLaw s) (m : MachineId) (b : s.fire.boothLatch = none)
    (l : (s.fire.machineLatch.get m).isSome = true) : BoothLaw (s.resetMachineOrders m) := by
  have tr := (h.latched m l).tripped
  have e0 := h.endBinding m (s.lostStatus m)
  let w := s.endBinding m (s.lostStatus m)
  have law : MachineLaw (w.machine m).releaseLost.settleDouser (w.lamp m) :=
    (e0.machine m).releaseLost (by rw [(State.endBinding_machine m m _ s).1]; exact tr)
  have key : BoothLaw ((w.modMachine m MachineRec.releaseLost).modFire fun u =>
      { u with machineLatch := u.machineLatch.set m none, shutters := u.shutters.set m (u.shutters.get m).energize }) := by
    have wf : w.fire = s.fire := State.endBinding_fire _ _ _
    refine ⟨fun k => ?_, e0.lamp, fun k q => ?_, fun k q => ?_, fun q k => ?_⟩
    · rw [State.modFire_machine, State.modFire_lamp, State.modMachine_machine]
      split
      next e => subst e; exact law
      next => exact e0.machine k
    · have q : ((w.fire.machineLatch.set m none).get k).isSome = true := q
      rw [Quad.get_set] at q
      split at q
      · exact absurd q (by decide)
      next ne =>
        have x := e0.latched k q
        refine ⟨?_, ?_, ?_, x.4, x.5, ?_⟩
        · rw [State.modFire_machine, State.modMachine_machine, if_neg ne]; exact x.1
        · rw [State.modFire_machine, State.modMachine_machine, if_neg ne]; exact x.2
        · rw [State.modFire_machine, State.modMachine_machine, if_neg ne]; exact x.3
        · show ((w.fire.shutters.set m (w.fire.shutters.get m).energize).get k).magnet = false
          rw [Quad.get_set, if_neg ne]; exact x.6
    · have q : (w.fire.machineLatch.set m none).get k = none := q
      rw [Quad.get_set] at q
      rw [State.modFire_machine, State.modMachine_machine]
      split
      next e =>
        exact ⟨(MachineRec.releaseLost_clear (w.machine m)).1, (MachineRec.releaseLost_clear (w.machine m)).2⟩
      next ne =>
        rw [if_neg ne] at q
        exact e0.unlatched k q
    · have q : w.fire.boothLatch.isSome = true := q
      rw [wf, b] at q
      exact absurd q (by decide)
  have e1 : (s.modFire (FireUnit.putLatch m none)).modShutter m ShutterRec.energize = s.modFire fun u =>
      { u with machineLatch := u.machineLatch.set m none, shutters := u.shutters.set m (u.shutters.get m).energize } :=
    rfl
  have swap : (((s.modFire (FireUnit.putLatch m none)).modShutter m ShutterRec.energize).endBinding m
      (s.lostStatus m)).modMachine m MachineRec.releaseLost
      = (w.modMachine m MachineRec.releaseLost).modFire fun u =>
        { u with machineLatch := u.machineLatch.set m none, shutters := u.shutters.set m (u.shutters.get m).energize } := by
    rw [e1, State.modFire_endBinding, State.modFire_modMachine]
  unfold State.resetMachineOrders
  dsimp only
  rw [swap]
  unfold State.releaseSafety
  split
  · exact key.congr rfl rfl rfl rfl fun _ => rfl
  · exact key

/-- RESET BOOTH's clearing of the BOOTH latches, on the records of machines and latches (R161). -/
theorem BoothLaw.resetBoothOrders (h : BoothLaw s) (b : s.fire.boothLatch.isSome = true) :
    BoothLaw s.resetBoothOrders := by
  have all := fun m => h.latched m (h.booth b m)
  let rk := fun m => if s.fire.machineLatch.get m = some .booth then (s.machine m).releaseKept.settleDouser
    else s.machine m
  let s1 := s.modFire fun u => { u with boothLatch := none, machineLatch := u.machineLatch.map boothReleased }
  let s2 := (((s1.releaseKept .m1 s.fire.machineLatch.m1).releaseKept .m2 s.fire.machineLatch.m2).releaseKept .m3
    s.fire.machineLatch.m3).releaseKept .m4 s.fire.machineLatch.m4
  have rel : ∀ (w : State) (m k : MachineId) (x : Option LatchCause), (w.releaseKept m x).machine k
      = if k = m ∧ x = some .booth then (w.machine m).releaseKept.settleDouser else w.machine k := by
    intro w m k x
    unfold State.releaseKept
    by_cases e : x = some .booth
    · rw [if_pos e, State.modMachine_machine]
      by_cases f : k = m
      · simp [e, f]
      · simp [f]
    · simp [e]
  have lamps : ∀ (w : State) (m : MachineId) (x : Option LatchCause), (w.releaseKept m x).lamps = w.lamps
      ∧ (w.releaseKept m x).fire = w.fire := by
    intro w m x
    unfold State.releaseKept
    split <;> exact ⟨rfl, rfl⟩
  have mach : ∀ m, s2.machine m = rk m := by
    intro m
    show (((((s1.releaseKept .m1 _).releaseKept .m2 _).releaseKept .m3 _).releaseKept .m4 _)).machine m = _
    cases m <;>
      (simp only [rel, reduceCtorEq, false_and, if_false, true_and]
       rfl)
  have lam : s2.lamps = s.lamps := by
    show (((((s1.releaseKept .m1 _).releaseKept .m2 _).releaseKept .m3 _).releaseKept .m4 _)).lamps = _
    rw [(lamps _ _ _).1, (lamps _ _ _).1, (lamps _ _ _).1, (lamps _ _ _).1]
    rfl
  have fir : s2.fire = s1.fire := by
    show (((((s1.releaseKept .m1 _).releaseKept .m2 _).releaseKept .m3 _).releaseKept .m4 _)).fire = _
    rw [(lamps _ _ _).2, (lamps _ _ _).2, (lamps _ _ _).2, (lamps _ _ _).2]
  have lampE : ∀ m, s2.lamp m = s.lamp m := fun m => by unfold State.lamp; rw [lam]
  have base : ∀ m, MachineLaw (s2.machine m) (s2.lamp m) := by
    intro m
    rw [mach, lampE]
    show MachineLaw (if _ then _ else _) _
    split
    · exact (h.machine m).releaseKept (all m).tripped
    · exact h.machine m
  have latch : ∀ m, s2.fire.machineLatch.get m = boothReleased (s.fire.machineLatch.get m) := by
    intro m; rw [fir]; exact Quad.get_map _ _ _
  have gate : ∀ m, (s2.fire.machineLatch.get m).isSome = true → s.fire.machineLatch.get m = some .gateHeat := by
    intro m q
    rw [latch] at q
    cases e : s.fire.machineLatch.get m with
    | none => rw [e] at q; exact absurd q (by decide)
    | some c =>
      cases c with
      | gateHeat => rfl
      | booth => rw [e] at q; exact absurd q (by decide)
  have sh : s2.fire.shutters = s.fire.shutters := by rw [fir]; rfl
  have base2 : BoothLaw s2 := by
    refine ⟨base, fun m => by rw [lampE]; exact h.lamp m, fun m q => ?_, fun m q => ?_, fun q => ?_⟩
    · have g := gate m q
      have x := all m
      have e : s2.machine m = s.machine m := by rw [mach]; show (if _ then _ else _) = _; rw [if_neg (by rw [g]; decide)]
      rw [e, lampE, sh]; exact x
    · rw [latch] at q
      have g : s.fire.machineLatch.get m = some .booth := by
        have p := h.booth b m
        cases e : s.fire.machineLatch.get m with
        | none => rw [e] at p; exact absurd p (by decide)
        | some c =>
          cases c with
          | gateHeat => rw [e] at q; exact absurd q (by decide)
          | booth => rfl
      have k := MachineRec.releaseKept_clear (s.machine m)
      rw [mach]
      show Unlatched (if _ then _ else _)
      rw [if_pos g]
      exact ⟨k.1, k.2⟩
    · have q : s2.fire.boothLatch.isSome = true := q
      rw [fir] at q
      exact absurd (show (none : Option BoothCause).isSome = true from q) (by decide)
  have energ : ∀ (w : State) (m : MachineId), BoothLaw w → BoothLaw (w.energizeClear m) := by
    intro w m k
    unfold State.energizeClear
    split
    next c =>
      refine ⟨k.machine, k.lamp, fun j q => ?_, k.unlatched, k.booth⟩
      have x := k.latched j q
      refine ⟨x.1, x.2, x.3, x.4, x.5, ?_⟩
      show ((w.fire.shutters.set m _).get j).magnet = false
      rw [Quad.get_set]
      split
      next e =>
        subst e
        have c : (w.fire.machineLatch.get j).isNone = true := c
        have q : (w.fire.machineLatch.get j).isSome = true := q
        cases g : w.fire.machineLatch.get j with
        | none => rw [g] at q; exact absurd q (by decide)
        | some _ => rw [g] at c; exact absurd c (by simp)
      next => exact x.6
    next => exact k
  have safe : ∀ (w : State) (sc : ScreenId), BoothLaw w → BoothLaw (w.releaseSafety sc) := by
    intro w sc k
    unfold State.releaseSafety
    split
    · exact k.congr rfl rfl rfl rfl fun _ => rfl
    · exact k
  exact safe _ _ (safe _ _ (energ _ _ (energ _ _ (energ _ _ (energ _ _ base2)))))

/-! ### The house lights -/

theorem CircuitLaws.toLights (h : CircuitLaws s)
    (safety : ∀ sc c, (s.circuit sc c).claims.safety.isSome = s.screenLatched sc)
    (booth : s.fire.boothLatch.isSome = true → ∀ m, (s.fire.machineLatch.get m).isSome = true) : LightsLaw s :=
  ⟨h.halfCycle, h.circuit, safety, booth⟩

theorem State.releaseSafety_fire (sc : ScreenId) (s : State) : (s.releaseSafety sc).fire = s.fire := by
  unfold State.releaseSafety
  split
  · simp only [State.releaseThree, State.modCircuit_fire]
  · rfl

theorem State.releaseSafety_line (sc : ScreenId) (s : State) : (s.releaseSafety sc).line = s.line := by
  unfold State.releaseSafety
  split
  · simp only [State.releaseThree, State.modCircuit_line]
  · rfl

theorem State.releaseSafety_machine (sc : ScreenId) (s : State) (m : MachineId) :
    (s.releaseSafety sc).machine m = s.machine m := by
  unfold State.releaseSafety
  split
  · simp only [State.releaseThree, State.modCircuit_machine]
  · rfl

theorem State.releaseSafety_lamp (sc : ScreenId) (s : State) (m : MachineId) :
    (s.releaseSafety sc).lamp m = s.lamp m := by
  unfold State.releaseSafety
  split
  · simp only [State.releaseThree, State.modCircuit_lamp]
  · rfl

theorem State.releaseSafety_slot (sc k : ScreenId) (n : SlotIx) (s : State) :
    (s.releaseSafety sc).slot k n = s.slot k n := by
  unfold State.releaseSafety
  split
  · simp only [State.releaseThree, State.modCircuit_slot]
  · rfl

/-- SAFETY leaves a screen both of whose latches are clear, and stands elsewhere as it stood (R140). -/
theorem State.releaseSafety_safety (sc k : ScreenId) (c : CircuitId) (s : State) :
    ((s.releaseSafety sc).circuit k c).claims.safety.isSome
      = if k = sc ∧ s.screenLatched sc = false then false else (s.circuit k c).claims.safety.isSome := by
  have e : (s.latchClear (lowerOf sc) && s.latchClear (upperOf sc)) = !s.screenLatched sc := by
    simp only [State.latchClear, State.screenLatched]
    cases s.fire.machineLatch.get (lowerOf sc) <;> cases s.fire.machineLatch.get (upperOf sc) <;> rfl
  unfold State.releaseSafety
  rw [e]
  cases s.screenLatched sc with
  | true => simp
  | false =>
    simp only [Bool.not_false, if_true, and_true]
    rw [State.releaseThree_safety]

theorem LightsLaw.resetMachineOrders (h : LightsLaw s) (m : MachineId) (b : s.fire.boothLatch = none) :
    LightsLaw (s.resetMachineOrders m) := by
  unfold State.resetMachineOrders
  dsimp only
  generalize g : (((s.modFire (FireUnit.putLatch m none)).modShutter m ShutterRec.energize).endBinding m
    (s.lostStatus m)).modMachine m MachineRec.releaseLost = w
  have li : w.lights = s.lights := by rw [← g, State.modMachine_lights, State.endBinding_lights]; rfl
  have fi : w.fire = ((s.modFire (FireUnit.putLatch m none)).modShutter m ShutterRec.energize).fire := by
    rw [← g, State.modMachine_fire, State.endBinding_fire]
  have la : ∀ k, w.fire.machineLatch.get k = if k = m then none else s.fire.machineLatch.get k := by
    intro k; rw [fi]
    show (s.fire.machineLatch.set m none).get k = _
    exact Quad.get_set _ _ _ _
  have cl : CircuitLaws w := h.circuits.congr li
  have ci : ∀ sc c, w.circuit sc c = s.circuit sc c := fun sc c => by simp only [State.circuit, li]
  have bo : w.fire.boothLatch = none := by rw [fi]; exact b
  refine (cl.releaseSafety _).toLights ?_ ?_
  · intro sc c
    rw [State.releaseSafety_safety, ci, h.safety sc c]
    simp only [State.screenLatched, State.releaseSafety_fire, la]
    cases m <;> cases sc <;> simp only [screenOf, lowerOf, upperOf, reduceCtorEq, if_true, if_false, false_and, true_and]
    all_goals
      cases s.fire.machineLatch.get .m1 <;> cases s.fire.machineLatch.get .m2 <;>
        cases s.fire.machineLatch.get .m3 <;> cases s.fire.machineLatch.get .m4 <;> rfl
  · intro q
    rw [State.releaseSafety_fire, bo] at q
    exact absurd q (by decide)

theorem State.energizeClear_keeps (m : MachineId) (s : State) :
    (s.energizeClear m).fire.machineLatch = s.fire.machineLatch
      ∧ (s.energizeClear m).fire.boothLatch = s.fire.boothLatch ∧ (s.energizeClear m).lights = s.lights
      ∧ (s.energizeClear m).machines = s.machines ∧ (s.energizeClear m).lamps = s.lamps
      ∧ (s.energizeClear m).plan = s.plan ∧ (s.energizeClear m).line = s.line := by
  unfold State.energizeClear
  split <;> exact ⟨rfl, rfl, rfl, rfl, rfl, rfl, rfl⟩

theorem State.releaseKept_keeps (m : MachineId) (x : Option LatchCause) (s : State) :
    (s.releaseKept m x).fire = s.fire ∧ (s.releaseKept m x).lights = s.lights ∧ (s.releaseKept m x).lamps = s.lamps
      ∧ (s.releaseKept m x).line = s.line ∧ (s.releaseKept m x).plan.tables = s.plan.tables := by
  unfold State.releaseKept
  split
  · refine ⟨rfl, rfl, rfl, rfl, ?_⟩
    simp only [State.modMachine, PlanStore.noteMachine]
    split <;> rfl
  · exact ⟨rfl, rfl, rfl, rfl, rfl⟩

/-- The state between the releases of RESET BOOTH and its SAFETY releases (R161). -/
def State.boothReleases (s : State) : State :=
  let l := s.fire.machineLatch
  let s1 := s.modFire fun u => { u with boothLatch := none, machineLatch := u.machineLatch.map boothReleased }
  let s2 := (((s1.releaseKept .m1 l.m1).releaseKept .m2 l.m2).releaseKept .m3 l.m3).releaseKept .m4 l.m4
  (((s2.energizeClear .m1).energizeClear .m2).energizeClear .m3).energizeClear .m4

theorem State.resetBoothOrders_eq (s : State) :
    s.resetBoothOrders = (s.boothReleases.releaseSafety .s1).releaseSafety .s2 := rfl

theorem State.boothReleases_latch (s : State) :
    s.boothReleases.fire.machineLatch = s.fire.machineLatch.map boothReleased ∧ s.boothReleases.fire.boothLatch = none
      ∧ s.boothReleases.lights = s.lights ∧ s.boothReleases.lamps = s.lamps ∧ s.boothReleases.line = s.line
      ∧ s.boothReleases.plan.tables = s.plan.tables := by
  unfold State.boothReleases
  simp only [(State.energizeClear_keeps _ _).1, (State.energizeClear_keeps _ _).2.1, (State.energizeClear_keeps _ _).2.2.1,
    (State.energizeClear_keeps _ _).2.2.2.1, (State.energizeClear_keeps _ _).2.2.2.2.1,
    (State.energizeClear_keeps _ _).2.2.2.2.2.1, (State.energizeClear_keeps _ _).2.2.2.2.2.2,
    (State.releaseKept_keeps _ _ _).1, (State.releaseKept_keeps _ _ _).2.1, (State.releaseKept_keeps _ _ _).2.2.1,
    (State.releaseKept_keeps _ _ _).2.2.2.1, (State.releaseKept_keeps _ _ _).2.2.2.2]
  exact ⟨rfl, rfl, rfl, rfl, rfl, rfl⟩

theorem LightsLaw.resetBoothOrders (h : LightsLaw s) : LightsLaw s.resetBoothOrders := by
  rw [State.resetBoothOrders_eq]
  obtain ⟨la, bo, li, -⟩ := s.boothReleases_latch
  have cl : CircuitLaws s.boothReleases := h.circuits.congr li
  have ci : ∀ sc c, s.boothReleases.circuit sc c = s.circuit sc c := fun sc c => by simp only [State.circuit, li]
  refine ((cl.releaseSafety .s1).releaseSafety .s2).toLights ?_ ?_
  · intro sc c
    rw [State.releaseSafety_safety, State.releaseSafety_safety, ci, h.safety sc c]
    simp only [State.screenLatched, State.releaseSafety_fire, la, Quad.get_map]
    have k : ∀ x : Option LatchCause, (boothReleased x).isSome = true → x.isSome = true := by
      intro x e
      cases x with
      | none => exact absurd e (by decide)
      | some _ => rfl
    cases sc
    · simp only [lowerOf, upperOf]
      cases a : s.fire.machineLatch.get .m1 with
      | none => cases b : s.fire.machineLatch.get .m2 with
        | none => simp [boothReleased]
        | some y => cases y <;> simp [boothReleased]
      | some x => cases b : s.fire.machineLatch.get .m2 with
        | none => cases x <;> simp [boothReleased]
        | some y => cases x <;> cases y <;> simp [boothReleased]
    · simp only [lowerOf, upperOf]
      cases a : s.fire.machineLatch.get .m3 with
      | none => cases b : s.fire.machineLatch.get .m4 with
        | none => simp [boothReleased]
        | some y => cases y <;> simp [boothReleased]
      | some x => cases b : s.fire.machineLatch.get .m4 with
        | none => cases x <;> simp [boothReleased]
        | some y => cases x <;> cases y <;> simp [boothReleased]
  · intro q
    rw [State.releaseSafety_fire, State.releaseSafety_fire, bo] at q
    exact absurd q (by decide)

/-! ### The fire unit -/

theorem FireLaw.resetMachineOrders (h : FireLaw s.fire) (m : MachineId) (b : s.fire.boothLatch = none)
    (d : (s.fire.shutters.get m).state ≠ .dropping) : FireLaw (s.resetMachineOrders m).fire := by
  unfold State.resetMachineOrders
  dsimp only
  rw [State.releaseSafety_fire, State.modMachine_fire, State.endBinding_fire]
  have k : FireLaw { s.fire with shutters := s.fire.shutters.set m (s.fire.shutters.get m).energize } :=
    h.setShutter m ((h.shutter m).energize d)
  refine ⟨k.1, k.2, k.3, k.4, k.5, k.6, k.7, fun q => ?_⟩
  have q : s.fire.boothLatch.isSome = true := q
  rw [b] at q
  exact absurd q (by decide)

theorem FireLaw.energizeClear (h : FireLaw s.fire) (m : MachineId)
    (d : (s.fire.shutters.get m).state ≠ .dropping) : FireLaw (s.energizeClear m).fire := by
  unfold State.energizeClear
  split
  · exact h.setShutter m ((h.shutter m).energize d)
  · exact h

theorem State.energizeClear_states (m k : MachineId) (s : State) :
    ((s.energizeClear m).fire.shutters.get k).state = (s.fire.shutters.get k).state := by
  unfold State.energizeClear
  split
  · show ((s.fire.shutters.set m (s.fire.shutters.get m).energize).get k).state = _
    rw [Quad.get_set]
    split
    next e => rw [e]; rfl
    next => rfl
  · rfl

theorem FireLaw.resetBoothOrders (h : FireLaw s.fire) (d : s.anyDropping = false) : FireLaw s.resetBoothOrders.fire := by
  rw [State.resetBoothOrders_eq, State.releaseSafety_fire, State.releaseSafety_fire]
  simp only [State.anyDropping, Bool.or_eq_false_iff, beq_eq_false_iff_ne, ne_eq] at d
  obtain ⟨⟨⟨d1, d2⟩, d3⟩, d4⟩ := d
  unfold State.boothReleases
  dsimp only
  generalize g : (State.releaseKept .m4 _ _) = w
  have fi : w.fire = { s.fire with boothLatch := none, machineLatch := s.fire.machineLatch.map boothReleased } := by
    rw [← g, (State.releaseKept_keeps _ _ _).1, (State.releaseKept_keeps _ _ _).1, (State.releaseKept_keeps _ _ _).1,
      (State.releaseKept_keeps _ _ _).1]
    rfl
  have k : FireLaw w.fire := by
    rw [fi]
    exact ⟨h.1, h.2, h.3, h.4, h.5, h.6, fun q => ⟨(h.7 q).1, by simp⟩, fun q => absurd q (by simp)⟩
  have st : ∀ m, (w.fire.shutters.get m).state = (s.fire.shutters.get m).state := fun m => by rw [fi]
  refine (((k.energizeClear .m1 ?_).energizeClear .m2 ?_).energizeClear .m3 ?_).energizeClear .m4 ?_
  · rw [st]; exact d1
  · rw [State.energizeClear_states, st]; exact d2
  · rw [State.energizeClear_states, State.energizeClear_states, st]; exact d3
  · rw [State.energizeClear_states, State.energizeClear_states, State.energizeClear_states, st]; exact d4

end Sys2Proof.Machine
end

