-- ==== Sys2Proof/Laws/Bindings.lean ====
section
/-! SUPPORT. The law of the plan across the writing of tables, THREAD, UNTHREAD and the resets; the laws across RESTART
(R91 to R97, R104, R160, R161, R178). -/

namespace Sys2Proof.Machine

open Sys2Proof

variable {s t : State}

/-! ### Slots written -/

/-- Slots that are not BOUND are written with nothing bound, and machines and lamps stand (R91 to R93). -/
theorem PlanLaw.written (k : PlanLaw s) (a : t.machines = s.machines) (b : t.lamps = s.lamps)
    (w : ∀ sc n, t.slot sc n = s.slot sc n
      ∨ (s.slot sc n).status ≠ .bound ∧ (t.slot sc n).bound = none ∧ SlotLaw (t.slot sc n)) : PlanLaw t := by
  have ma : ∀ m, t.machine m = s.machine m := fun m => by unfold State.machine; rw [a]
  have la : ∀ m, t.lamp m = s.lamp m := fun m => by unfold State.lamp; rw [b]
  have bd : ∀ m n, (s.machine m).boundSlot = some n → t.slot (screenOf m) n = s.slot (screenOf m) n := by
    intro m n e
    rcases w (screenOf m) n with q | q
    · exact q
    · have x := (k.slot (screenOf m) n).bound
      rw [k.toSlot m n e] at x
      exact absurd (by simpa using x.symm) q.1
  refine ⟨?_, ?_, ?_, ?_, ?_, ?_⟩
  · intro sc n
    rcases w sc n with q | q
    · rw [q]; exact k.slot sc n
    · exact q.2.2
  · intro sc n m e
    rw [ma]
    rcases w sc n with q | q
    · rw [q] at e; exact k.toMachine sc n m e
    · rw [q.2.1] at e; exact absurd e (by simp)
  · intro m n e
    rw [ma] at e
    rw [bd m n e]
    exact k.toSlot m n e
  · intro m
    rw [la, k.length, State.boundLength_eq, State.boundLength_eq, ma]
    cases e : (s.machine m).boundSlot with
    | none => rfl
    | some n => dsimp only; rw [bd m n e]
  · intro m; rw [ma]; exact k.reel m
  · intro m; rw [ma]; exact k.empty m

theorem SlotLaw.loadedWith (e : SlotEntry) : SlotLaw (Slot.loadedWith e) := ⟨rfl, rfl⟩

theorem SlotLaw.copied (x : Slot) : SlotLaw x.copied ∧ x.copied.bound = none := by
  unfold Slot.copied
  split
  · exact ⟨⟨rfl, rfl⟩, rfl⟩
  · exact ⟨⟨rfl, rfl⟩, rfl⟩

theorem SlotLaw.cleared : SlotLaw Slot.cleared := ⟨rfl, rfl⟩

theorem PlanTable.writeRange_get (f c : Nat) (g : Nat → Slot) (t : PlanTable) (n : SlotIx) :
    (PlanTable.writeRange f c g t)[n] = if f ≤ n.val ∧ n.val < f + c then g n.val else t[n] := by
  unfold PlanTable.writeRange
  exact Vector.getElem_ofFn _

theorem State.putTable_slot (sc k : ScreenId) (t : PlanTable) (s : State) (n : SlotIx) :
    (s.putTable sc t).slot k n = if k = sc then t[n] else s.slot k n := by
  unfold State.putTable State.slot
  show ((s.plan.tables.set sc t).get k)[n] = _
  rw [Pair.get_set]
  split <;> rfl

theorem mem_allSlots (n : SlotIx) : n ∈ allSlots := by
  revert n; decide

theorem anyInRange_false {f c : Nat} {p : SlotIx → Bool} (h : anyInRange f c p = false) (n : SlotIx)
    (a : f ≤ n.val ∧ n.val < f + c) : p n = false := by
  have := (List.any_eq_false.mp h) n (mem_allSlots n)
  simp only [decide_eq_true a.1, decide_eq_true a.2, Bool.true_and] at this
  simpa using this

/-- A range none of whose slots is BOUND is written from slots with nothing bound. -/
theorem PlanLaw.putRange (k : PlanLaw s) (sc : ScreenId) (f c : Nat) (g : Nat → Slot)
    (a : (anyInRange f c fun n => (s.slot sc n).status == .bound) = false)
    (b : ∀ n, SlotLaw (g n) ∧ (g n).bound = none) :
    PlanLaw (s.putTable sc (PlanTable.writeRange f c g (s.plan.tables.get sc))) := by
  refine k.written rfl rfl fun x n => ?_
  rw [State.putTable_slot]
  by_cases e : x = sc
  · subst e
    rw [if_pos rfl, PlanTable.writeRange_get]
    split
    next q =>
      have := anyInRange_false a n q
      exact .inr ⟨by simpa using this, (b n).2, (b n).1⟩
    next => exact .inl rfl
  · rw [if_neg e]; exact .inl rfl

/-! ### Binding and unbinding -/

/-- An unbound machine's record changes, with no reel where it becomes EMPTY (R18, R21). -/
theorem PlanLaw.ofUnbound (k : PlanLaw s) (m : MachineId) (f : MachineRec → MachineRec)
    (a : (s.machine m).boundSlot = none) (b : (f (s.machine m)).boundSlot = none)
    (c : (f (s.machine m)).state = .empty → (f (s.machine m)).reelId = none) : PlanLaw (s.modMachine m f) := by
  have ma : ∀ x, (s.modMachine m f).machine x = if x = m then (f (s.machine m)).settleDouser else s.machine x :=
    fun x => State.modMachine_machine m x f s
  have bs : ∀ x, ((s.modMachine m f).machine x).boundSlot = (s.machine x).boundSlot := by
    intro x
    rw [ma]
    split
    next e => rw [e, a]; exact b
    next => rfl
  refine ⟨?_, ?_, ?_, ?_, ?_, ?_⟩
  · intro sc n; rw [State.modMachine_slot]; exact k.slot sc n
  · intro sc n x e; rw [State.modMachine_slot] at e; rw [bs]; exact k.toMachine sc n x e
  · intro x n e; rw [bs] at e; rw [State.modMachine_slot]; exact k.toSlot x n e
  · intro x
    have : (s.modMachine m f).lamp x = s.lamp x := rfl
    rw [this, k.length, State.boundLength_eq, State.boundLength_eq, bs]
    cases (s.machine x).boundSlot with
    | none => rfl
    | some n => dsimp only; rw [State.modMachine_slot]
  · intro x e
    rw [bs] at e
    rw [ma]
    split
    next q => rw [q, a] at e; exact absurd e (by decide)
    next => exact k.reel x e
  · intro x e
    rw [bs]
    rw [ma] at e ⊢
    split
    next q => rw [if_pos q] at e; rw [q]; exact ⟨a, c e⟩
    next q => rw [if_neg q] at e; exact k.empty x e

/-- A LOADED slot and an EMPTY machine of its screen are bound (R95, R97, R78). -/
theorem PlanLaw.bind (k : PlanLaw s) (m : MachineId) (id : Text) (n : SlotIx) (e : SlotEntry)
    (a : (s.slot (screenOf m) n).status = .loaded) (b : (s.slot (screenOf m) n).entry = some e)
    (c : (s.machine m).state = .empty) :
    PlanLaw (((s.modSlot (screenOf m) n fun x => { x with status := .bound, bound := some m }).modMachine m
      (MachineRec.acceptReel id n)).modLamp m (LampRec.bind e.length)) := by
  obtain ⟨un, -⟩ := k.empty m c
  have nb : (s.slot (screenOf m) n).bound = none := by
    have l := (k.slot (screenOf m) n).bound
    rw [a] at l
    exact Option.not_isSome_iff_eq_none.mp (by rw [l]; decide)
  let w := ((s.modSlot (screenOf m) n fun x => { x with status := .bound, bound := some m }).modMachine m
      (MachineRec.acceptReel id n))
  have slots : ∀ x j, (w.modLamp m (LampRec.bind e.length)).slot x j
        = if x = screenOf m ∧ j = n then { s.slot (screenOf m) n with status := .bound, bound := some m }
          else s.slot x j := by
    intro x j
    rw [State.modLamp_slot, State.modMachine_slot, State.modSlot_slot]
  have machs : ∀ x, ((w.modLamp m (LampRec.bind e.length)).machine x).boundSlot
        = if x = m then some n else (s.machine x).boundSlot := by
    intro x
    rw [(State.modLamp_boundSlot m x _ _).1, State.modMachine_machine]
    split <;> rfl
  have stats : ∀ x, ((w.modLamp m (LampRec.bind e.length)).machine x).state
      = if x = m then .threaded else (s.machine x).state := by
    intro x
    rw [(State.modLamp_boundSlot m x _ _).2.1, State.modMachine_machine]
    split <;> rfl
  have reels : ∀ x, ((w.modLamp m (LampRec.bind e.length)).machine x).reelId
      = if x = m then some id else (s.machine x).reelId := by
    intro x
    rw [(State.modLamp_boundSlot m x _ _).2.2, State.modMachine_machine]
    split <;> rfl
  refine ⟨?_, ?_, ?_, ?_, ?_, ?_⟩
  · intro x j
    rw [slots]
    split
    · exact ⟨by dsimp only; rw [b]; rfl, rfl⟩
    · exact k.slot x j
  · intro x j p h
    rw [slots] at h
    split at h
    next q =>
      have h : m = p := Option.some.inj h
      subst h
      exact ⟨q.1.symm, by rw [machs, if_pos rfl, q.2]⟩
    next =>
      have r := k.toMachine x j p h
      refine ⟨r.1, ?_⟩
      rw [machs, if_neg]
      · exact r.2
      · intro z
        rw [z, un] at r
        exact absurd r.2 (by simp)
  · intro p j h
    rw [machs] at h
    split at h
    next q =>
      rw [slots, if_pos ⟨by rw [q], (Option.some.inj h).symm⟩, q]
    next q =>
      have r := k.toSlot p j h
      rw [slots, if_neg]
      · exact r
      · intro z
        rw [z.1, z.2, nb] at r
        exact absurd r (by simp)
  · intro p
    rw [State.boundLength_eq, machs, State.modLamp_lamp]
    split
    next q =>
      dsimp only
      rw [slots, if_pos ⟨by rw [q], rfl⟩]
      dsimp only
      rw [b]
      rfl
    next q =>
      have : w.lamp p = s.lamp p := rfl
      rw [this, k.length, State.boundLength_eq]
      cases g : (s.machine p).boundSlot with
      | none => rfl
      | some j =>
        dsimp only
        rw [slots, if_neg]
        intro z
        have r := k.toSlot p j g
        rw [z.1, z.2, nb] at r
        exact absurd r (by simp)
  · intro p h
    rw [machs] at h
    rw [reels]
    split
    · rfl
    next q => rw [if_neg q] at h; exact k.reel p h
  · intro p h
    rw [stats] at h
    split at h
    · exact absurd h (by decide)
    next q => rw [machs, reels, if_neg q, if_neg q]; exact k.empty p h

theorem MachineRec.unthread_bound (r : MachineRec) : r.unthread.boundSlot = r.boundSlot := by
  unfold MachineRec.unthread MachineRec.leaveBroken MachineRec.motorOff
  split
  · rfl
  · split <;> split <;> rfl

theorem MachineRec.unthread_reel (r : MachineRec) (h : r.state = .empty → r.reelId = none) :
    r.unthread.reelId = none := by
  unfold MachineRec.unthread MachineRec.leaveBroken MachineRec.motorOff
  split
  next e => exact h e
  · split <;> split <;> rfl

theorem State.endBinding_reel (m k : MachineId) (st : SlotStatus) (s : State) :
    ((s.endBinding m st).machine k).reelId = (s.machine k).reelId := by
  unfold State.endBinding
  split
  · rfl
  · rw [State.unbind_eq, State.lamps_machine, State.modMachine_machine]
    by_cases e : k = m
    · rw [if_pos e, e]; rfl
    · rw [if_neg e]; rfl

theorem PlanLaw.unthread (k : PlanLaw s) (m : MachineId) :
    PlanLaw ((s.endBinding m .loaded).modMachine m MachineRec.unthread) := by
  have k1 := k.endBinding m .loaded (by decide) (by decide)
  have un := State.endBinding_boundSlot m .loaded s
  refine k1.ofUnbound m _ un ?_ fun _ => ?_
  · rw [MachineRec.unthread_bound]; exact un
  · exact MachineRec.unthread_reel _ fun e => (k1.empty m e).2

theorem State.lostStatus_cases (s : State) (m : MachineId) : s.lostStatus m = .loaded ∨ s.lostStatus m = .cut := by
  unfold State.lostStatus
  split
  · exact .inl rfl
  · split
    · exact .inr rfl
    · exact .inl rfl

theorem PlanLaw.modFire (k : PlanLaw s) (f : FireUnit → FireUnit) : PlanLaw (s.modFire f) :=
  k.congr (fun _ _ => rfl) (fun _ => rfl) (fun _ => rfl) (fun _ e => e) fun _ => rfl

theorem PlanLaw.releaseSafety (k : PlanLaw s) (sc : ScreenId) : PlanLaw (s.releaseSafety sc) :=
  k.congr (fun x n => State.releaseSafety_slot sc x n s) (fun m => by rw [State.releaseSafety_machine])
    (fun m => by rw [State.releaseSafety_lamp]) (fun m e => by rwa [State.releaseSafety_machine] at e)
    fun m => by rw [State.releaseSafety_machine]

theorem PlanLaw.resetMachineOrders (k : PlanLaw s) (m : MachineId) : PlanLaw (s.resetMachineOrders m) := by
  unfold State.resetMachineOrders
  dsimp only
  have e1 : (s.modFire (FireUnit.putLatch m none)).modShutter m ShutterRec.energize
    = (s.modFire (FireUnit.putLatch m none)).modFire fun u =>
      { u with shutters := u.shutters.set m (u.shutters.get m).energize } := rfl
  rw [e1]
  have k1 := (k.modFire (FireUnit.putLatch m none)).modFire fun u =>
      { u with shutters := u.shutters.set m (u.shutters.get m).energize }
  have k2 := k1.endBinding m (s.lostStatus m)
    (by rcases s.lostStatus_cases m with e | e <;> rw [e] <;> decide)
    (by rcases s.lostStatus_cases m with e | e <;> rw [e] <;> decide)
  have un := State.endBinding_boundSlot m (s.lostStatus m) ((s.modFire (FireUnit.putLatch m none)).modFire fun u =>
      { u with shutters := u.shutters.set m (u.shutters.get m).energize })
  exact (k2.ofUnbound m MachineRec.releaseLost un un fun _ => rfl).releaseSafety _

theorem MachineRec.releaseKept_kept (r : MachineRec) :
    r.releaseKept.boundSlot = r.boundSlot ∧ r.releaseKept.reelId = r.reelId := by
  unfold MachineRec.releaseKept
  dsimp only
  split
  · exact ⟨rfl, rfl⟩
  · split
    · exact ⟨rfl, rfl⟩
    · split <;> exact ⟨rfl, rfl⟩

/-- A release with film kept leaves a machine EMPTY only where it carries no reel (R20). -/
theorem MachineRec.releaseKept_empty (r : MachineRec) (e : r.releaseKept.state = .empty) : r.reelId = none := by
  unfold MachineRec.releaseKept at e
  dsimp only at e
  split at e
  · exact absurd e (by simp)
  · split at e
    next q => exact q
    · split at e <;> exact absurd e (by simp)

theorem PlanLaw.releaseKept (k : PlanLaw s) (m : MachineId) (x : Option LatchCause) : PlanLaw (s.releaseKept m x) := by
  unfold State.releaseKept
  split
  · cases b : (s.machine m).boundSlot with
    | none =>
      exact k.ofUnbound m _ b ((MachineRec.releaseKept_kept _).1.trans b) fun e => by
        rw [(MachineRec.releaseKept_kept _).2]; exact MachineRec.releaseKept_empty _ e
    | some n =>
      refine k.ofMachine m _ (MachineRec.releaseKept_kept _).1 (MachineRec.releaseKept_kept _).2 fun e => ?_
      have r := k.reel m (by rw [b]; rfl)
      rw [MachineRec.releaseKept_empty _ e] at r
      exact absurd r (by decide)
  · exact k

theorem PlanLaw.energizeClear (k : PlanLaw s) (m : MachineId) : PlanLaw (s.energizeClear m) := by
  unfold State.energizeClear
  split
  · exact k.modFire _
  · exact k

theorem PlanLaw.resetBoothOrders (k : PlanLaw s) : PlanLaw s.resetBoothOrders := by
  rw [State.resetBoothOrders_eq]
  unfold State.boothReleases
  dsimp only
  have k1 := k.modFire fun u => { u with boothLatch := none, machineLatch := u.machineLatch.map boothReleased }
  exact (((((((((k1.releaseKept .m1 _).releaseKept .m2 _).releaseKept .m3 _).releaseKept .m4 _).energizeClear
    .m1).energizeClear .m2).energizeClear .m3).energizeClear .m4).releaseSafety .s1).releaseSafety .s2

end Sys2Proof.Machine
end

