-- ==== Sys2Proof/Laws/Restart.lean ====
section
/-! SUPPORT. The laws across RESTART and power-on (R27, R85, R104, R149, R177, R178). -/

namespace Sys2Proof.Machine

open Sys2Proof

variable {s t : State}

theorem MachineRec.motorOff_keeps (r : MachineRec) :
    r.motorOff.state = r.state ∧ r.motorOff.holds.fire = r.holds.fire ∧ r.motorOff.motor = false
      ∧ r.motorOff.reelId = r.reelId ∧ r.motorOff.boundSlot = r.boundSlot := by
  unfold MachineRec.motorOff
  split
  · exact ⟨rfl, rfl, rfl, rfl, rfl⟩
  next e => exact ⟨rfl, rfl, by simpa using e, rfl, rfl⟩

theorem MachineRec.restart_fields (b : Bool) (r : MachineRec) :
    (r.restart b).state = (if b then .tripped else .empty) ∧ (r.restart b).motor = false
      ∧ (r.restart b).holds.fire = r.holds.fire ∧ (r.restart b).boundSlot = none ∧ (r.restart b).reelId = none := by
  refine ⟨?_, ?_, ?_, rfl, rfl⟩
  · cases b <;> rfl
  · exact (MachineRec.motorOff_keeps r).2.2.1
  · exact (MachineRec.motorOff_keeps r).2.1

theorem LampRec.restart_out (l : LampRec) :
    l.restart.contactorClosed = false ∧ l.restart.state ≠ .burning ∧ l.restart.state ≠ .striking
      ∧ l.restart.boundLength = none := by
  refine ⟨rfl, ?_, ?_, rfl⟩
  · show (if _ then _ else _) ≠ _
    split <;> decide
  · show (if _ then _ else _) ≠ _
    split <;> decide

theorem BoothLaw.restartMachine (h : BoothLaw s) (m : MachineId) : BoothLaw (s.restartMachine m) := by
  unfold State.restartMachine
  have f := MachineRec.restart_fields (s.fire.machineLatch.get m).isSome (s.machine m)
  have eq : (s.fire.machineLatch.get m).isSome = ((s.machine m).state == .tripped) := by
    cases g : s.fire.machineLatch.get m with
    | none => have := (h.unlatched m g).notTripped; simpa using this
    | some c => have := (h.latched m (by rw [g]; rfl)).tripped; rw [this]; rfl
  have h1 : BoothLaw (s.modMachine m (MachineRec.restart (s.fire.machineLatch.get m).isSome)) := by
    refine h.ofMachine m _ ((h.machine m).restart _ eq) (fun q => ?_) fun q => ?_
    · have l := h.latched m q
      exact ⟨by rw [f.1, q]; rfl, f.2.1, by rw [f.2.2.1]; exact l.fireHeld⟩
    · have l := h.unlatched m q
      refine ⟨by rw [f.1, q]; simp, by rw [f.2.2.1]; exact l.fireFree⟩
  have h2 : BoothLaw ((s.modMachine m (MachineRec.restart (s.fire.machineLatch.get m).isSome)).modDecoder m
      fun _ => DecoderRec.atPowerOn) := h1.congr rfl rfl rfl rfl fun _ => rfl
  exact h2.ofLamp m _ LampLaw.restart fun _ => ⟨rfl, (LampRec.restart_out _).2.1, (LampRec.restart_out _).2.2.1⟩

/-- The four machines take RESTART in turn. -/
def State.restartUnits (s : State) : State :=
  (((s.restartMachine .m1).restartMachine .m2).restartMachine .m3).restartMachine .m4

theorem State.restartBlocks_units (s : State) :
    s.restartBlocks.machines = s.restartUnits.machines ∧ s.restartBlocks.lamps = s.restartUnits.lamps
      ∧ s.restartBlocks.fire = s.restartUnits.fire := by
  unfold State.restartBlocks State.restartUnits
  dsimp only
  generalize State.restartMachine .m4 _ = w
  exact ⟨rfl, rfl, rfl⟩

theorem BoothLaw.restartBlocks (h : BoothLaw s) : BoothLaw s.restartBlocks := by
  have k : BoothLaw s.restartUnits :=
    (((h.restartMachine .m1).restartMachine .m2).restartMachine .m3).restartMachine .m4
  obtain ⟨a, b, c⟩ := s.restartBlocks_units
  exact k.congr a b (by rw [c]) (by rw [c]) fun _ => by rw [c]

theorem State.restartMachine_keeps (m : MachineId) (s : State) :
    (s.restartMachine m).lights = s.lights ∧ (s.restartMachine m).fire = s.fire
      ∧ (s.restartMachine m).line = s.line := by
  unfold State.restartMachine
  rw [State.modLamp_lights, State.modLamp_fire, State.modLamp_line]
  exact ⟨rfl, rfl, rfl⟩

theorem State.restartBlocks_keeps (s : State) :
    s.restartBlocks.lights = s.lights.restart ∧ s.restartBlocks.fire = s.fire ∧ s.restartBlocks.line = s.line := by
  unfold State.restartBlocks
  dsimp only
  generalize g : State.restartMachine .m4 _ = w
  have a : w.lights = s.lights ∧ w.fire = s.fire ∧ w.line = s.line := by
    rw [← g]
    simp only [(State.restartMachine_keeps _ _).1, (State.restartMachine_keeps _ _).2.1,
      (State.restartMachine_keeps _ _).2.2, and_self]
  refine ⟨?_, a.2.1, a.2.2⟩
  show HouseLights.restart w.lights = _
  rw [a.1]

theorem LightsLaw.restartBlocks (h : LightsLaw s) : LightsLaw s.restartBlocks := by
  obtain ⟨a, b, -⟩ := s.restartBlocks_keeps
  have ci : ∀ sc c, s.restartBlocks.circuit sc c = (s.circuit sc c).restart s.lights.halfCycle := by
    intro sc c
    simp only [State.circuit, a, HouseLights.restart, Pair.get_map, Triple.get_map]
  refine ⟨by rw [a]; exact h.halfCycle, fun sc c => ?_, fun sc c => ?_, by rw [b]; exact h.booth⟩
  · rw [ci, a]; exact (h.circuit sc c).restart
  · rw [ci]
    simp only [State.screenLatched, b]
    rw [← State.screenLatched, ← h.safety sc c]
    simp only [Circuit.restart]
    rw [Circuit.release_safety _ _ _ (by decide), Circuit.release_safety _ _ _ (by decide),
      Circuit.release_safety _ _ _ (by decide)]

/-- What RESTART leaves of one machine and its lamp, seen from any machine. -/
theorem State.restartMachine_unbound (m k : MachineId) (s : State)
    (h : k = m ∨ (s.machine k).boundSlot = none ∧ (s.machine k).reelId = none ∧ (s.lamp k).boundLength = none) :
    ((s.restartMachine m).machine k).boundSlot = none ∧ ((s.restartMachine m).machine k).reelId = none
      ∧ ((s.restartMachine m).lamp k).boundLength = none := by
  unfold State.restartMachine
  rw [(State.modLamp_boundSlot m k _ _).1, (State.modLamp_boundSlot m k _ _).2.2, State.modLamp_lamp]
  have e1 : ((s.modMachine m (MachineRec.restart (s.fire.machineLatch.get m).isSome)).modDecoder m
      fun _ => DecoderRec.atPowerOn).machine k
      = (s.modMachine m (MachineRec.restart (s.fire.machineLatch.get m).isSome)).machine k := rfl
  have e2 : ((s.modMachine m (MachineRec.restart (s.fire.machineLatch.get m).isSome)).modDecoder m
      fun _ => DecoderRec.atPowerOn).lamp k = s.lamp k := rfl
  rw [e1, e2, State.modMachine_machine]
  by_cases e : k = m
  · rw [if_pos e, if_pos e]; exact ⟨rfl, rfl, rfl⟩
  · rw [if_neg e, if_neg e]
    rcases h with h | h
    · exact absurd h e
    · exact h

theorem State.restartBlocks_unbound (s : State) (k : MachineId) :
    (s.restartBlocks.machine k).boundSlot = none ∧ (s.restartBlocks.machine k).reelId = none
      ∧ (s.restartBlocks.lamp k).boundLength = none := by
  have w : s.restartBlocks.machine k = s.restartUnits.machine k := by
    unfold State.machine; rw [s.restartBlocks_units.1]
  have v : s.restartBlocks.lamp k = s.restartUnits.lamp k := by
    unfold State.lamp; rw [s.restartBlocks_units.2.1]
  rw [w, v]
  unfold State.restartUnits
  cases k with
  | m1 =>
    exact State.restartMachine_unbound _ _ _ (.inr (State.restartMachine_unbound _ _ _ (.inr
      (State.restartMachine_unbound _ _ _ (.inr (State.restartMachine_unbound _ _ _ (.inl rfl)))))))
  | m2 =>
    exact State.restartMachine_unbound _ _ _ (.inr (State.restartMachine_unbound _ _ _ (.inr
      (State.restartMachine_unbound _ _ _ (.inl rfl)))))
  | m3 => exact State.restartMachine_unbound _ _ _ (.inr (State.restartMachine_unbound _ _ _ (.inl rfl)))
  | m4 => exact State.restartMachine_unbound _ _ _ (.inl rfl)

theorem PlanTable.cleared_get (n : SlotIx) : PlanTable.cleared[n] = Slot.cleared := by
  unfold PlanTable.cleared
  exact Vector.getElem_replicate _

theorem State.restartBlocks_slot (s : State) (sc : ScreenId) (n : SlotIx) :
    s.restartBlocks.slot sc n = Slot.cleared := by
  have e : s.restartBlocks.slot sc n = ((Pair.same PlanTable.cleared).get sc)[n] := rfl
  rw [e]
  cases sc <;> exact PlanTable.cleared_get n

/-- With every slot EMPTY and every machine and lamp unbound the plan is lawful, whatever stood before. -/
theorem PlanLaw.ofCleared (a : ∀ sc n, s.slot sc n = Slot.cleared)
    (b : ∀ m, (s.machine m).boundSlot = none ∧ (s.machine m).reelId = none ∧ (s.lamp m).boundLength = none) :
    PlanLaw s where
  slot sc n := by rw [a]; exact SlotLaw.cleared
  toMachine sc n m e := by rw [a] at e; exact absurd e (by simp [Slot.cleared])
  toSlot m n e := by rw [(b m).1] at e; exact absurd e (by simp)
  length m := by rw [State.boundLength_eq, (b m).1, (b m).2.2]
  reel m e := by rw [(b m).1] at e; exact absurd e (by simp)
  empty m _ := ⟨(b m).1, (b m).2.1⟩

theorem PlanLaw.restartBlocks (s : State) : PlanLaw s.restartBlocks :=
  .ofCleared (State.restartBlocks_slot s) (State.restartBlocks_unbound s)

end Sys2Proof.Machine
end

