-- ==== Sys2Proof/Laws/Decoders.lean ====
section
/-! SUPPORT. The law of the cue decoders across samples, the machine unit's postings, the reactions of the show, trips,
resets and RESTART. -/

namespace Sys2Proof.Machine
open Sys2Proof Host

variable {d : DecoderRec} {s t : State}

/-! ### One decoder -/

theorem DecoderLaw.atPowerOn : DecoderLaw DecoderRec.atPowerOn := by constructor <;> decide

theorem DecoderLaw.clearGroup (k : DecoderLaw d) : DecoderLaw d.clearGroup :=
  ⟨by simp [DecoderRec.clearGroup], by simp [DecoderRec.clearGroup], by simp [DecoderRec.clearGroup], k.deferred⟩

theorem DecoderLaw.emptied (k : DecoderLaw d) : DecoderLaw { d with deferred := [] } :=
  ⟨k.patches, k.length, k.gap, Nat.zero_le _⟩

theorem DecoderLaw.defer (k : DecoderLaw d) (c : DeferredCue) (h : d.deferred.length < Config.deferredSize) :
    DecoderLaw { d with deferred := d.deferred ++ [c] } :=
  ⟨k.patches, k.length, k.gap, by simp only [List.length_append, List.length_singleton]; exact h⟩

/-- R47: what the machine unit's postings do to a decoder. -/
theorem DecoderLaw.follow (k : DecoderLaw d) (old new : MachineRec) : DecoderLaw (d.follow old new) := by
  have k1 : DecoderLaw (if new.motor = old.motor then d else d.clearGroup) := by
    split
    · exact k
    · exact k.clearGroup
  unfold DecoderRec.follow
  dsimp only
  split
  · exact k1.emptied
  · exact k1

/-- Table 3-3: a sample keeps every count within its range. -/
theorem DecoderLaw.sample (k : DecoderLaw d) (foil : Bool) : DecoderLaw (d.sample foil).1 := by
  obtain ⟨⟨p, pi⟩, ⟨l, li⟩, ⟨g, gi⟩, q⟩ := k
  obtain ⟨st, pc, pl, gf, df⟩ := d
  dsimp only at *
  cases st <;> cases foil <;>
    simp only [DecoderRec.sample, DecoderRec.clearGroup, Config.splicePatch, Config.closingGap, Config.maxPatches] <;>
    (try split) <;> refine ⟨⟨?_, ?_⟩, ⟨?_, ?_⟩, ⟨?_, ?_⟩, q⟩ <;> simp at * <;> omega

/-! ### All of them -/

theorem DecodersLaw.congr (h : DecodersLaw s) (e : t.decoders = s.decoders) : DecodersLaw t := fun m => by
  show DecoderLaw (t.decoders.get m)
  rw [e]; exact h m

theorem DecodersLaw.modDecoder (h : DecodersLaw s) (m : MachineId) (f : DecoderRec → DecoderRec)
    (k : DecoderLaw (f (s.decoder m))) : DecodersLaw (s.modDecoder m f) := fun j => by
  show DecoderLaw ((s.decoders.set m (f (s.decoder m))).get j)
  rw [Quad.get_set]; split
  · exact k
  · exact h j

theorem DecodersLaw.modMachine (h : DecodersLaw s) (m : MachineId) (f : MachineRec → MachineRec) :
    DecodersLaw (s.modMachine m f) := fun j => by
  show DecoderLaw ((s.decoders.set m ((s.decoder m).follow (s.machine m) (f (s.machine m)).settleDouser)).get j)
  rw [Quad.get_set]; split
  · exact (h m).follow _ _
  · exact h j

theorem DecodersLaw.modLamp (h : DecodersLaw s) (m : MachineId) (f : LampRec → LampRec) : DecodersLaw (s.modLamp m f) := by
  have h1 : DecodersLaw { s with lamps := s.lamps.set m (f (s.lamp m)) } := h.congr rfl
  unfold State.modLamp
  dsimp only
  split
  · exact h1
  · exact h1.modMachine m _

theorem DecodersLaw.slotNotice (h : DecodersLaw s) (sc : ScreenId) (n : SlotIx) (st : SlotStatus) :
    DecodersLaw (s.slotNotice sc n st) := by
  unfold State.slotNotice
  split
  · dsimp only
    split
    · exact h.congr rfl
    · exact ((DecodersLaw.congr h rfl : DecodersLaw (s.modSlot sc n _)).modMachine _ _).modLamp _ _
  · exact h.congr rfl
  all_goals exact h

theorem DecodersLaw.endBinding (h : DecodersLaw s) (m : MachineId) (st : SlotStatus) : DecodersLaw (s.endBinding m st) := by
  unfold State.endBinding
  split
  · exact h
  · exact ((DecodersLaw.congr h rfl : DecodersLaw (s.modSlot (screenOf m) _ _)).modMachine _ _).modLamp _ _

theorem Reaction.decoders (k : Reaction s t) (h : DecodersLaw s) : DecodersLaw t := by
  cases k with
  | emptyDeferred m => exact h.modDecoder m _ (h m).emptied
  | defer m c s j => exact h.modDecoder m _ ((h m).defer c j)
  | order m o => exact h.modMachine m _
  | lamp m o => exact h.modLamp m _
  | slot sc n st => exact h.slotNotice sc n st
  | _ => exact h.congr rfl

theorem Reactions.decoders (k : Reactions s t) (h : DecodersLaw s) : DecodersLaw t := by
  induction k with
  | refl => exact h
  | tail _ r ih => exact r.decoders ih

/-! ### Trips, resets and RESTART -/

theorem DecodersLaw.tripOrder (h : DecodersLaw s) (m : MachineId) : DecodersLaw (s.tripOrder m) :=
  (h.modMachine m _).modLamp m _

theorem DecodersLaw.modFire (h : DecodersLaw s) (f : FireUnit → FireUnit) : DecodersLaw (s.modFire f) := h

theorem DecodersLaw.modShutter (h : DecodersLaw s) (m : MachineId) (f : ShutterRec → ShutterRec) :
    DecodersLaw (s.modShutter m f) := h

theorem DecodersLaw.placeSafety (h : DecodersLaw s) (sc : ScreenId) : DecodersLaw (s.placeSafety sc) :=
  h.congr (by simp only [State.placeSafety, State.placeThree, State.modCircuit_decoders])

theorem DecodersLaw.boothTripOrders (h : DecodersLaw s) (n : Nat) : DecodersLaw (s.boothTripOrders n) := by
  have h1 : DecodersLaw (s.boothLatches n) := h.modFire _
  rw [State.boothTripOrders_eq]
  exact ((((h1.tripOrder .m1).tripOrder .m2).tripOrder .m3).tripOrder .m4).placeSafety .s1 |>.placeSafety .s2

theorem DecodersLaw.machineTripOrders (h : DecodersLaw s) (m : MachineId) (n : Nat) :
    DecodersLaw (s.machineTripOrders m n) :=
  (((h.modFire _).modShutter m _).tripOrder m).placeSafety _

theorem DecodersLaw.releaseSafety (h : DecodersLaw s) (sc : ScreenId) : DecodersLaw (s.releaseSafety sc) := by
  unfold State.releaseSafety; split
  · exact h.congr (by simp only [State.releaseThree, State.modCircuit_decoders])
  · exact h

theorem DecodersLaw.resetMachineOrders (h : DecodersLaw s) (m : MachineId) : DecodersLaw (s.resetMachineOrders m) := by
  have h1 := (h.modFire (FireUnit.putLatch m none)).modShutter m ShutterRec.energize
  exact ((h1.endBinding m (s.lostStatus m)).modMachine m MachineRec.releaseLost).releaseSafety (screenOf m)

theorem DecodersLaw.releaseKept (h : DecodersLaw s) (m : MachineId) (l : Option LatchCause) :
    DecodersLaw (s.releaseKept m l) := by
  unfold State.releaseKept; split
  · exact h.modMachine m _
  · exact h

theorem DecodersLaw.energizeClear (h : DecodersLaw s) (m : MachineId) : DecodersLaw (s.energizeClear m) := by
  unfold State.energizeClear; split
  · exact h.modShutter m _
  · exact h

theorem DecodersLaw.resetBoothOrders (h : DecodersLaw s) : DecodersLaw s.resetBoothOrders := by
  unfold State.resetBoothOrders
  dsimp only
  generalize e : s.modFire (fun u => { u with boothLatch := none, machineLatch := u.machineLatch.map boothReleased }) = w
  have h1 : DecodersLaw w := e ▸ h.modFire _
  exact ((((((((h1.releaseKept .m1 _).releaseKept .m2 _).releaseKept .m3 _).releaseKept .m4 _).energizeClear .m1).energizeClear
    .m2).energizeClear .m3).energizeClear .m4).releaseSafety .s1 |>.releaseSafety .s2

theorem DecodersLaw.restartMachine (h : DecodersLaw s) (m : MachineId) : DecodersLaw (s.restartMachine m) :=
  ((h.modMachine m _).modDecoder m _ .atPowerOn).modLamp m _

theorem DecodersLaw.restartBlocks (h : DecodersLaw s) : DecodersLaw s.restartBlocks := by
  have k : DecodersLaw s.restartUnits :=
    (((h.restartMachine .m1).restartMachine .m2).restartMachine .m3).restartMachine .m4
  refine k.congr ?_
  unfold State.restartBlocks State.restartUnits
  dsimp only
  generalize State.restartMachine .m4 _ = w
  rfl

end Sys2Proof.Machine
end

