-- ==== Sys2Proof/Laws/Keeper.lean ====
section
/-! SUPPORT. The kinds of change that every command is made of, as closure conditions on a property of states (`Keeper`),
and the operations of the meanings, each a composite of them. A proof that a property is kept by every command shows the
conditions of `Keeper` and then cites `Keeper.exec_keeps`. -/

namespace Sys2Proof.Machine
open Sys2Proof Host

/-- A property of states that every kind of change keeps: the reactions of the show, each record's own change under
the conditions the meanings meet, the trips and resets, and power. -/
structure Keeper (L : State → Prop) : Prop where
  react : ∀ {s t}, L s → Reactions s t → L t
  line : ∀ {s}, L s → ∀ f, (∀ l, LineLaw l → LineLaw (f l)) → L (s.modLine f)
  plan : ∀ {s}, L s → ∀ f : PlanStore → PlanStore, (f s.plan).tables = s.plan.tables → L (s.modPlan f)
  screen : ∀ {s}, L s → ∀ sc f, L (s.modScreen sc f)
  decoder : ∀ {s}, L s → ∀ m f, (DecoderLaw (s.decoder m) → DecoderLaw (f (s.decoder m))) → L (s.modDecoder m f)
  elapse : ∀ {s}, L s → ∀ dt, L (s.elapse dt)
  mach : ∀ {s}, L s → ∀ m f, (MachineLaw (s.machine m) (s.lamp m) → MachineLaw (f (s.machine m)).settleDouser (s.lamp m)) →
    ((f (s.machine m)).state = .tripped ↔ (s.machine m).state = .tripped) →
    ((s.machine m).state = .tripped → (f (s.machine m)).motor = (s.machine m).motor) → (f (s.machine m)).holds.fire = (s.machine m).holds.fire →
    (f (s.machine m)).boundSlot = (s.machine m).boundSlot → (f (s.machine m)).reelId = (s.machine m).reelId →
    ((f (s.machine m)).state = .empty → (s.machine m).state = .empty) → L (s.modMachine m f)
  lamp : ∀ {s}, L s → ∀ m f, (LampLaw (s.lamp m) → LampLaw (f (s.lamp m))) →
    (LampLaw (s.lamp m) → (s.lamp m).contactorClosed = false → (s.lamp m).state ≠ .burning → (s.lamp m).state ≠ .striking →
     (f (s.lamp m)).contactorClosed = false ∧ (f (s.lamp m)).state ≠ .burning ∧ (f (s.lamp m)).state ≠ .striking) →
     (f (s.lamp m)).boundLength = (s.lamp m).boundLength → L (s.modLamp m f)
  strike : ∀ {s}, L s → ∀ m, strikeDecline (s.machine m).holds.fire (s.lamp m) = none → L (s.modLamp m LampRec.beginStrike)
  circuit : ∀ {s}, L s → ∀ sc c f, (∀ h x, CircuitLaw h x → CircuitLaw h (f h x)) → (∀ h x, (f h x).claims.safety.isSome = x.claims.safety.isSome) →
    L (s.modCircuit sc c f)
  cross : ∀ {s}, L s → L (s.modLights HouseLights.cross)
  scenes : ∀ {s}, L s → ∀ sc n l, L (s.modLights (HouseLights.putScene sc n l))
  fire : ∀ {s}, L s → ∀ f : FireUnit → FireUnit, (FireLaw s.fire → FireLaw (f s.fire)) → (f s.fire).machineLatch = s.fire.machineLatch →
     (f s.fire).boothLatch = s.fire.boothLatch → (∀ m, ((f s.fire).shutters.get m).magnet = (s.fire.shutters.get m).magnet) → L (s.modFire f)
  boothTrip : ∀ {s}, L s → s.fire.loopOpenMeasure = none → ∀ n, L (s.boothTripOrders n)
  machineTrip : ∀ {s}, L s → ∀ m n, L (s.machineTripOrders m n)
  slots : ∀ {s}, L s → ∀ sc f c g, (anyInRange f c fun n => (s.slot sc n).status == .bound) = false → (∀ n, SlotLaw (g n) ∧ (g n).bound = none) →
     (∀ n e, (g n).entry = some e → ∃ x k, (s.slot x k).entry = some e) →
     L (s.putTable sc (PlanTable.writeRange f c g (s.plan.tables.get sc)))
  slot : ∀ {s}, L s → ∀ sc n e, (s.slot sc n).status ≠ .bound → EntryLaw e → L (s.modSlot sc n fun _ => Slot.loadedWith e)
  bind : ∀ {s}, L s → ∀ m id n (e : SlotEntry), (s.slot (screenOf m) n).status = .loaded → (s.slot (screenOf m) n).entry = some e → (s.machine m).state = .empty →
    (s.machine m).motor = false →
    L (((s.modSlot (screenOf m) n fun x => { x with status := .bound, bound := some m }).modMachine m
      (MachineRec.acceptReel id n)).modLamp m (LampRec.bind e.length))
  unthread : ∀ {s}, L s → ∀ m, (s.machine m).state ≠ .tripped → L ((s.endBinding m .loaded).modMachine m MachineRec.unthread)
  resetM : ∀ {s}, L s → ∀ m, s.fire.boothLatch = none → (s.fire.machineLatch.get m).isSome = true → (s.fire.shutters.get m).state ≠ .dropping → L (s.resetMachineOrders m)
  resetB : ∀ {s}, L s → s.fire.boothLatch.isSome = true → s.anyDropping = false → L s.resetBoothOrders
  restart : ∀ {s}, L s → L s.restartBlocks
  power : ∀ s p l t, exec (.powerOn p l) s = .next t → L t
  off : ∀ s t, exec .powerRemoved s = .next t → L t
  pending : ∀ {s}, L s → ∀ p, L { s with pending := p }

/-- An event of a unit that may have no power. -/
theorem State.whenPowered_keeps {L : State → Prop} {s : State} {f} (h : L s) (k : s.powered = true → L (f s)) : L (s.whenPowered f) := by
  unfold State.whenPowered; split
  next e => exact k e
  next => exact h

variable {L : State → Prop} (K : Keeper L) {s : State}
include K

theorem Keeper.answer (h : L s) (r) : L (s.answer r) := K.line h _ fun l k => k.answer r
theorem Keeper.report (h : L s) (r) : L (s.report r) := K.line h _ fun l k => k.report r
theorem Keeper.takeCommand {i : Instr} {f : State → State} (h : L s) (k : ∀ s, L s → L (f s)) : L (s.takeCommand i f) :=
  State.whenPowered_keeps h fun _ => k _ (K.line h _ fun l k => k.unhand _)
theorem Keeper.placeConsole (h : L s) (sc l f) : L (s.placeThree sc .console l f) := by
  refine K.circuit (K.circuit (K.circuit h _ _ _ ?_ ?_) _ _ _ ?_ ?_) _ _ _ ?_ ?_
  all_goals first
    | exact fun h x k => k.place _ _ _ (fun e => absurd e (by decide))
    | exact fun h x => Circuit.place_safety _ _ _ _ _ (by decide)
theorem Keeper.releaseConsole (h : L s) (sc) : L (s.releaseThree sc .console) := by
  refine K.circuit (K.circuit (K.circuit h _ _ _ ?_ ?_) _ _ _ ?_ ?_) _ _ _ ?_ ?_
  all_goals first
    | exact fun h x k => k.release _
    | exact fun h x => Circuit.release_safety _ _ _ (by decide)

theorem Keeper.lampSettled (h : L s) (m x) : L (s.lampSettled m x) := K.react h (Reactions.lampSettled m x (.refl' s))
theorem Keeper.shortfallTest (h : L s) (m) : L (s.shortfallTest m) := K.react h (Reactions.shortfallTest m (.refl' s))
theorem Keeper.lampNews (h : L s) (m n) : L (s.lampNews m n) := by
  unfold State.lampNews
  split
  · exact h
  · exact Keeper.report K (Keeper.shortfallTest K h m) _
  · exact Keeper.report K h _
theorem Keeper.lampEvent (h : L s) (m : MachineId) (f : LampRec → LampRec × LampNews) (law : LampLaw (s.lamp m) → LampLaw (f (s.lamp m)).1)
   (b : (f (s.lamp m)).1.boundLength = (s.lamp m).boundLength)
   (q : (s.lamp m).gate = none → (s.lamp m).contactorClosed = false → (s.lamp m).state ≠ .burning → (s.lamp m).state ≠ .striking →
     (f (s.lamp m)).1.contactorClosed = false ∧ (f (s.lamp m)).1.state ≠ .burning ∧ (f (s.lamp m)).1.state ≠ .striking) :
    L (s.lampEvent m f) := by
  unfold State.lampEvent
  refine Keeper.lampSettled K (Keeper.lampNews K (K.lamp h m _ law (fun ll a b c => ?_) b) m _) m _
  have g : (s.lamp m).gate = none := by
    cases e : (s.lamp m).gate with
    | none => rfl
    | some _ => have := ll.gate (by rw [e]; rfl); rw [a] at this; exact absurd this (by decide)
  exact q g a b c

theorem Keeper.speedReport (h : L s) (m x) : L (s.speedReport m x) := by
  unfold State.speedReport
  split
  · exact Keeper.report K h _
  · exact Keeper.report K h _
  · exact h

omit K in
theorem MachineRec.pulse_kept (r : MachineRec) : (r.pulse.state = .tripped ↔ r.state = .tripped) ∧ r.pulse.motor = r.motor ∧ r.pulse.holds.fire = r.holds.fire
   ∧ r.pulse.boundSlot = r.boundSlot ∧ r.pulse.reelId = r.reelId ∧ (r.pulse.state = .empty → r.state = .empty) := by
  have j : ∀ (x : MachineRec) (b : Bool), ((x.judgeSpeed b).state = .tripped ↔ x.state = .tripped) ∧ (x.judgeSpeed b).motor = x.motor ∧ (x.judgeSpeed b).holds.fire = x.holds.fire
    ∧ (x.judgeSpeed b).boundSlot = x.boundSlot ∧ (x.judgeSpeed b).reelId = x.reelId ∧ ((x.judgeSpeed b).state = .empty → x.state = .empty) := by
    intro x b
    unfold MachineRec.judgeSpeed MachineRec.firstAtSpeed
    dsimp only
    generalize (if b = true then min Config.bandRun (x.inBandRun + 1) else 0) = p
    generalize (if b = true then 0 else min Config.bandRun (x.outBandRun + 1)) = q
    split
    · split
      · split
        next e => exact ⟨by simp [e], rfl, rfl, rfl, rfl, by simp⟩
        next e => exact ⟨Iff.rfl, rfl, rfl, rfl, rfl, id⟩
      · exact ⟨Iff.rfl, rfl, rfl, rfl, rfl, id⟩
    · split <;> exact ⟨Iff.rfl, rfl, rfl, rfl, rfl, id⟩
    · split <;> exact ⟨Iff.rfl, rfl, rfl, rfl, rfl, id⟩
    · exact ⟨Iff.rfl, rfl, rfl, rfl, rfl, id⟩
  have e : ∀ (x : MachineRec), (x.enterPeriod.state = .tripped ↔ x.state = .tripped) ∧ x.enterPeriod.motor = x.motor ∧ x.enterPeriod.holds.fire = x.holds.fire
     ∧ x.enterPeriod.boundSlot = x.boundSlot ∧ x.enterPeriod.reelId = x.reelId ∧ (x.enterPeriod.state = .empty → x.state = .empty) := by
    intro x
    unfold MachineRec.enterPeriod MachineRec.formAverage
    split
    · dsimp only
      split
      · exact j _ _
      · exact ⟨Iff.rfl, rfl, rfl, rfl, rfl, id⟩
    · exact ⟨Iff.rfl, rfl, rfl, rfl, rfl, id⟩
  have c : r.countFrame.state = r.state ∧ r.countFrame.motor = r.motor ∧ r.countFrame.holds = r.holds ∧ r.countFrame.boundSlot = r.boundSlot ∧ r.countFrame.reelId = r.reelId := by
    unfold MachineRec.countFrame; split
    · exact ⟨rfl, rfl, rfl, rfl, rfl⟩
    · split <;> exact ⟨rfl, rfl, rfl, rfl, rfl⟩
  unfold MachineRec.pulse
  dsimp only
  generalize r.countFrame = k at c
  obtain ⟨c1, c2, c3, c4, c5⟩ := c
  rw [← c1, ← c3, ← c4, ← c5]
  split
  next mo => 
    have := e { k with framesSinceOn := min Config.maxFrames (r.framesSinceOn + 1), startMeasure := none, pulseMeasure := if r.atSpeedReached then some 0 else r.pulseMeasure }
    exact ⟨this.1, this.2.1.trans c2, this.2.2⟩
  · exact ⟨Iff.rfl, c2, rfl, rfl, rfl, id⟩

theorem Keeper.decoderNotice (h : L s) (m b) : L (s.decoderNotice m b) := by
  unfold State.decoderNotice
  split
  · exact K.react (K.decoder h m _ fun k => k.sample b) (Reactions.groupNews m _ (.refl' _))
  · exact h

theorem Keeper.framePulse (h : L s) (m b) : L (s.framePulse m b) := by
  unfold State.framePulse
  have p := MachineRec.pulse_kept (s.machine m)
  have h1 : L (s.modMachine m MachineRec.pulse) := K.mach h m _ (fun k => k.pulse) p.1 (fun _ => p.2.1) p.2.2.1 p.2.2.2.1 p.2.2.2.2.1 p.2.2.2.2.2
  have h2 := Keeper.speedReport K h1 m (s.machine m).speed
  refine K.react (Keeper.decoderNotice K ?_ m b) (Reactions.frameNotice m (.refl' _))
  split
  next e =>
    unfold State.atReelEnd at e
    simp only [Bool.and_eq_true] at e
    exact K.react h2 (Reactions.reelEnd m e.1 (.refl' _))
  · exact h2

theorem Keeper.record (h : L s) (r : IncidentRec) (e : r.sequence = s.fire.nextSequence) : L (s.modFire (FireUnit.record r)) :=
  K.fire h _ (fun k => k.record r e) rfl rfl fun _ => rfl

omit K in
theorem State.boothTripOrders_fire_eq (n) (s : State) : (s.boothTripOrders n).fire = (s.boothLatches n).fire := by
  rw [State.boothTripOrders_eq, State.placeSafety_fire, State.placeSafety_fire, State.tripAll_fire]
omit K in
theorem State.machineTripOrders_fire_eq (m n) (s : State) : (s.machineTripOrders m n).fire = (s.machineLatches m n).fire := by
  rw [State.machineTripOrders_eq, State.placeSafety_fire, State.tripOrder_fire]

theorem Keeper.boothTrip_all (h : L s) (o : s.fire.loopOpenMeasure = none) : L s.boothTrip := by
  unfold State.boothTrip
  dsimp only
  have q : Reactions (s.boothTripOrders s.fire.nextSequence) _ := Reactions.boothHalt .s2 (s.machine .m3).state
    (s.machine .m4).state (Reactions.boothHalt .s1 (s.machine .m1).state (s.machine .m2).state (.refl' (s.boothTripOrders s.fire.nextSequence)))
  refine Keeper.report K (Keeper.record K (K.react (K.boothTrip h o _) q) _ ?_) _
  rw [q.frame.fire, State.boothTripOrders_fire_eq]; rfl

theorem Keeper.machineTrip_all (h : L s) (m) : L (s.machineTrip m) := by
  unfold State.machineTrip
  dsimp only
  have q : Reactions (s.machineTripOrders m s.fire.nextSequence) _ := Reactions.machineHalt m (s.machine m).state (.refl' _)
  refine K.react (Keeper.report K (Keeper.record K (K.react (K.machineTrip h m _) q) _ ?_) _) (Reactions.evaluateScreen _ (.refl' _))
  rw [q.frame.fire, State.machineTripOrders_fire_eq]; rfl

theorem Keeper.shutter (h : L s) (m f) (a : ShutterLaw (s.fire.shutters.get m) → ShutterLaw (f (s.fire.shutters.get m)))
   (k : (f (s.fire.shutters.get m)).magnet = (s.fire.shutters.get m).magnet) : L (s.modShutter m f) := by
  refine K.fire h _ (fun z => z.setShutter m (a (z.shutter m))) rfl rfl fun j => ?_
  show ((s.fire.shutters.set m (f (s.fire.shutters.get m))).get j).magnet = _
  rw [Quad.get_set]; split
  next e => rw [e]; exact k
  next => rfl

theorem Keeper.switchChange (h : L s) (m sw b) : L (s.switchChange m sw b) := by
  unfold State.switchChange
  dsimp only
  split
  · exact h
  · have h1 : L (s.modShutter m (ShutterRec.readSwitch sw b)) := Keeper.shutter K h m _ (fun k => k.readSwitch _ _) (by cases sw <;> rfl)
    split
    · exact h1
    next e =>
      refine K.react (Keeper.shutter K h1 m _ (fun k => k.settleOpened ?_) rfl) (Reactions.evaluate m (.refl' _))
      have : ((s.modShutter m (ShutterRec.readSwitch sw b)).fire.shutters.get m).magnet = (s.fire.shutters.get m).magnet := by
        show ((s.fire.shutters.set m _).get m).magnet = _
        rw [Quad.get_set, if_pos rfl]; cases sw <;> rfl
      rw [this]
      generalize (s.fire.shutters.get m).state = a at e
      generalize (s.fire.shutters.get m).magnet = c at e ⊢
      revert e; cases a <;> cases c <;> cases sw <;> cases b <;> decide
    · exact K.react (Keeper.report K (Keeper.shutter K h1 m _ (fun k => k.settleClosed) rfl) _) (Reactions.evaluate m (.refl' _))
    · exact K.fire (Keeper.shutter K h1 m _ (fun k => k.settleClosed) rfl) _ (fun k => k.confirm _ _) rfl rfl fun _ => rfl
    · exact Keeper.shutter K h1 m _ (fun k => k.settleClosed) rfl

theorem Keeper.confirmExpires (h : L s) (m) : L (s.confirmExpires m) := by
  unfold State.confirmExpires
  dsimp only
  split
  next e _ _ =>
    refine Keeper.report K (Keeper.record K (K.fire (Keeper.shutter K h m _ (fun k => k.stick e) rfl) _ (fun k => k.confirm _ _) rfl rfl fun _ => rfl) _ rfl) _
  · exact h

theorem Keeper.openSlot (h : L s) (sc n) : L (s.openSlot sc n).1 := K.react h (Reactions.openSlot sc n (.refl' _))
theorem Keeper.openOnDeck (h : L s) (sc n) : L (s.openOnDeck sc n) := by
  unfold State.openOnDeck
  exact K.react (Keeper.openSlot K h sc n) (Reactions.reportIf _ _ (.refl' _))
theorem Keeper.fireShowAt (h : L s) (sc) : L (s.fireShowAt sc) := by
  unfold State.fireShowAt
  split
  · exact Keeper.report K h _
  · split
    · exact Keeper.report K h _
    · split
      · exact Keeper.report K h _
      · exact K.react (Keeper.openSlot K h _ _) (Reactions.reportIf _ _ (.refl' _))
theorem Keeper.showAtDue (h : L s) (sc u) : L (s.showAtDue sc u) := by
  unfold State.showAtDue
  split
  · exact Keeper.fireShowAt K (K.plan h _ rfl) _
  · exact h
theorem Keeper.exhaustTest (h : L s) (m) : L (s.exhaustTest m) := by
  unfold State.exhaustTest
  split
  next e =>
    simp only [LampRec.exhaustDue, Bool.and_eq_true, Bool.or_eq_true, beq_iff_eq] at e
    exact Keeper.report K (K.lamp h m _ (fun k => k.exhaust e.2) (fun _ _ _ _ => ⟨rfl, by simp [LampRec.exhaust, LampRec.recompute], by simp [LampRec.exhaust, LampRec.recompute]⟩) rfl) _
  next => exact h

end Sys2Proof.Machine
end

