-- ==== Sys2Proof/Laws/Keeps.lean ====
section
/-! SUPPORT. A property that meets the conditions of `Keeper` is kept by every command. -/

namespace Sys2Proof.Machine
open Sys2Proof Host
variable {L : State → Prop} (K : Keeper L) {s : State}

theorem LampRec.takeGate_shape (n : Nat) (l : LampRec) : (l.takeGate n).1.boundLength = l.boundLength ∧ (l.gate = none → (l.takeGate n).1 = l.takeLateGate n) := by
  constructor
  · unfold LampRec.takeGate
    split
    · unfold LampRec.takeLateGate; dsimp only; split <;> rfl
    · dsimp only
      split
      · split <;> rfl
      · unfold LampRec.proveGate LampRec.attemptFails LampRec.established
        dsimp only
        split
        · split
          · rfl
          · split <;> rfl
        · split <;> rfl
      · unfold LampRec.burningGate
        dsimp only
        generalize (if min Config.maxArcCount n ≤ Config.shortGapCount then l.shortGapRun + 1 else 0) = a
        generalize (if Config.arcOutCount ≤ min Config.maxArcCount n then l.arcOutRun + 1 else 0) = b
        split
        · rfl
        · split <;> rfl
      · rfl
  · intro e; unfold LampRec.takeGate; rw [e]

theorem LampRec.takeLateGate_shape (n : Nat) (l : LampRec) : (l.takeLateGate n).contactorClosed = l.contactorClosed ∧ (l.takeLateGate n).state = l.state := by
  unfold LampRec.takeLateGate; split <;> exact ⟨rfl, rfl⟩

theorem LampRec.touchExpires_shape (l : LampRec) : l.touchExpires.1.boundLength = l.boundLength ∧ (l.state ≠ .striking → l.touchExpires.1 = l) := by
  unfold LampRec.touchExpires LampRec.attemptFails
  constructor
  · split
    · dsimp only; split
      · rfl
      · split <;> rfl
    · rfl
  · intro e; rw [if_neg (fun q => e q.1)]

theorem LampRec.putOut_of_out (l : LampRec) (c : l.contactorClosed = false) (a : l.state ≠ .burning) (b : l.state ≠ .striking) : l.putOut = l := by
  unfold LampRec.putOut
  split
  next e => exact absurd e a
  next e => exact absurd e b
  all_goals rfl

include K

theorem Keeper.consoleHold (h : L s) (m b) : L (s.holdRequest m .console b) := by
  refine K.mach h m _ (fun k => ?_) Iff.rfl (fun _ => rfl) rfl rfl rfl id
  exact ⟨MachineRec.settleDouser_opened _, k.2, k.3, k.4, k.5, k.6, k.7, k.8, k.9, k.10, k.11⟩

omit K in
/-- A parse that succeeds succeeded at each of its stages. -/
theorem Except.bind_ok {α β : Type} {x : Except Reason α} {f : α → Except Reason β} {b : β} (h : (x >>= f) = .ok b) : ∃ a, x = .ok a ∧ f a = .ok b := by
  cases x with
  | error r => exact absurd h (by simp [bind, Except.bind])
  | ok a => exact ⟨a, rfl, h⟩
omit K in
theorem need_ok {b : Bool} {r : Reason} {u : Unit} (h : need b r = .ok u) : b = true := by
  unfold need at h
  cases b with
  | true => rfl
  | false => exact absurd h (by simp)

omit K

theorem within_some {lo hi n : Nat} {v : Option Nat} (h : within lo hi v = true) (e : v = some n) : lo ≤ n ∧ n ≤ hi := by
  subst e
  simpa [within] using h

theorem within_getD {lo hi d : Nat} {v : Option Nat} (h : within lo hi v = true) (k : d ≤ hi) : v.getD d ≤ hi := by
  cases v with
  | none => exact k
  | some n => exact (within_some h rfl).2

/-- What REEL accepts may be written: the slot is not BOUND and the entry satisfies Table 5-1 (R91). -/
theorem parseReel_ok {s : State} {w : List Text} {sc : ScreenId} {n : SlotIx} {en : SlotEntry}
    (q : parseReel s w = .ok (sc, n, en)) : (s.slot sc n).status ≠ .bound ∧ EntryLaw en := by
  unfold parseReel at q
  split at q
  next a b id d rest =>
    obtain ⟨_, -, q⟩ := Except.bind_ok q
    obtain ⟨_, -, q⟩ := Except.bind_ok q
    obtain ⟨len, -, q⟩ := Except.bind_ok q
    obtain ⟨_, hid, q⟩ := Except.bind_ok q
    obtain ⟨x, -, q⟩ := Except.bind_ok q
    obtain ⟨_, hag, q⟩ := Except.bind_ok q
    obtain ⟨_, -, q⟩ := Except.bind_ok q
    obtain ⟨_, -, q⟩ := Except.bind_ok q
    obtain ⟨_, hra, q⟩ := Except.bind_ok q
    obtain ⟨_, -, q⟩ := Except.bind_ok q
    obtain ⟨_, q1, q⟩ := Except.bind_ok q
    cases q
    have hid := need_ok hid
    have hag := need_ok hag
    have hra := need_ok hra
    have q1 := need_ok q1
    simp only [ReelOptions.inRange, Bool.and_eq_true, decide_eq_true_eq, and_assoc] at hra
    obtain ⟨l1, l2, hco, hwin, hrun, -, hint⟩ := hra
    simp only [ReelOptions.agree, Bool.and_eq_true, beq_iff_eq, Bool.not_eq_true', Bool.and_eq_false_iff] at hag
    refine ⟨by simpa using q1, hid, ⟨l1, l2⟩, fun c e => within_some hco e, within_getD hwin (by decide),
      within_getD hrun (by decide), fun k e => (within_some hint e).2, hag.1, fun e => ?_⟩
    rcases hag.2 with z | z
    · rw [show x.last = true from e] at z; exact absurd z (by decide)
    · show x.int = none
      simpa using z
  · exact absurd q (by simp)

theorem Slot.copied_entry (x : Slot) : x.copied.entry = x.entry := by
  unfold Slot.copied
  split
  next e => rw [e]; rfl
  next e => rw [e]; rfl

theorem PlanTable.at_entry {s : State} {sc : ScreenId} {i : Nat} {e : SlotEntry}
    (h : (PlanTable.at (s.plan.tables.get sc) i).entry = some e) : ∃ x k, (s.slot x k).entry = some e := by
  unfold PlanTable.at at h
  by_cases hi : i < 24
  · refine ⟨sc, ⟨i, hi⟩, ?_⟩
    rw [← h]
    simp [State.slot, List.getD_eq_getElem?_getD, hi]
  · rw [List.getD_eq_default _ _ (by simpa using hi)] at h
    exact absurd h (by simp [Slot.cleared])

include K

/-- The one induction over the commands: what every kind of change keeps, every command keeps. -/
theorem Keeper.exec_keeps (h : L s) (i : Instr) (t : State) (e : exec i s = .next t) : L t := by
  cases i with
  | framePulse m dt foil =>
    cases e
    refine State.whenPowered_keeps h fun _ => ?_
    dsimp only
    split
    · exact Keeper.framePulse K (K.elapse h dt) m _
    · exact K.elapse h dt
  | loopSwitchOpen m fl =>
    cases e
    refine State.whenPowered_keeps h fun _ => ?_
    dsimp only
    have h1 : L (s.modMachine m fun r => { r with loopSwitchClosed := s.sense m s.straps.loopSwitch fl }) :=
      K.mach h m _ (fun k => k.move _ rfl rfl rfl rfl rfl rfl rfl rfl rfl rfl rfl (by first | rfl | exact fun e => e) (by first | rfl | exact fun e => e) (by first | rfl | exact fun e => e) fun e => e) Iff.rfl (fun _ => rfl) rfl rfl rfl id
    split
    · exact h1
    · unfold State.loopOpened
      split
      next q =>
        split
        · exact K.react h1 (Reactions.reelEnd m q (.refl' _))
        · exact K.react h1 (Reactions.breakRun m _ q (.refl' _))
      · exact h1
  | contactorSenseChange m fl =>
    cases e
    exact State.whenPowered_keeps h fun _ => K.mach h m _ (fun k => k.takeContactorSense _) Iff.rfl (fun _ => rfl) rfl rfl rfl id
  | contactorFailure m =>
    cases e
    refine State.whenPowered_keeps h fun _ => ?_
    unfold State.contactorFails
    split
    · split
      next q => exact K.react h (Reactions.breakRun m _ q (.refl' _))
      · split
        next q =>
          have k := MachineRec.motorOff_keeps (s.machine m)
          refine Keeper.report K (K.mach h m _ (fun w => w.motorOff q.1) (by rw [k.1]) (fun z => by rw [q.1] at z; exact absurd z (by decide)) k.2.1 k.2.2.2.2 k.2.2.2.1 fun z => by rw [k.1] at z; exact z) _
        · exact h
    · exact h
  | stall m =>
    cases e
    refine State.whenPowered_keeps h fun _ => ?_
    split
    next q =>
      simp only [Bool.and_eq_true] at q
      exact K.react h (Reactions.breakRun m _ q.1 (.refl' _))
    · exact h
  | noPulseTimerExpiry m =>
    cases e
    refine State.whenPowered_keeps h fun _ => ?_
    split
    next q => exact K.react (K.mach h m _ (fun w => w.noPulse q) Iff.rfl (fun _ => rfl) rfl rfl rfl id) (Reactions.machinePosted m (.refl' _))
    · exact h
  | arcGate m n =>
    cases e
    exact State.whenPowered_keeps h fun _ => Keeper.lampEvent K h m _ (fun k => k.takeGate _) (LampRec.takeGate_shape _ _).1 fun g a b c => by
      rw [(LampRec.takeGate_shape _ _).2 g, (LampRec.takeLateGate_shape _ _).1, (LampRec.takeLateGate_shape _ _).2]
      exact ⟨a, b, c⟩
  | touchMeasureExpiry m =>
    cases e
    exact State.whenPowered_keeps h fun _ => Keeper.lampEvent K h m _ (fun k => k.touchExpires) (LampRec.touchExpires_shape _).1 fun _ a b c => by
      rw [(LampRec.touchExpires_shape _).2 c]; exact ⟨a, b, c⟩
  | retractMeasureExpiry m =>
    cases e
    refine State.whenPowered_keeps h fun _ => Keeper.lampEvent K h m _ (fun k => k.retractExpires) ?_ fun _ a b g => ?_
    · unfold LampRec.retractExpires; dsimp only; split <;> rfl
    · unfold LampRec.retractExpires; dsimp only; rw [if_neg (fun q => g q.1)]; exact ⟨a, b, g⟩
  | pauseMeasureExpiry m =>
    cases e
    refine State.whenPowered_keeps h fun _ => Keeper.lampEvent K h m _ (fun k => k.pauseExpires) ?_ fun _ a b g => ?_
    · unfold LampRec.pauseExpires; dsimp only; split <;> rfl
    · unfold LampRec.pauseExpires; dsimp only; rw [if_neg (fun q => g q.1)]; exact ⟨a, b, g⟩
  | shortGapRetractExpiry m =>
    cases e
    refine State.whenPowered_keeps h fun _ => Keeper.lampEvent K h m _ (fun k => k.shortGapExpires) ?_ fun _ a g c => ?_
    · unfold LampRec.shortGapExpires; dsimp only; split <;> rfl
    · unfold LampRec.shortGapExpires; dsimp only; rw [if_neg (fun q => g q.1)]; exact ⟨a, g, c⟩
  | feedEncoderPulse m fl =>
    cases e
    refine State.whenPowered_keeps h fun _ => ?_
    split
    · exact Keeper.lampSettled K (Keeper.exhaustTest K (K.lamp h m _ (fun k => k.encoderPulse _) (fun _ a b c => ⟨a, b, c⟩) rfl) m) m _
    · exact h
  | bucketMeasureExpiry m =>
    cases e
    refine State.whenPowered_keeps h fun _ => ?_
    split
    next q =>
      exact Keeper.lampSettled K (Keeper.shortfallTest K (K.lamp h m _ (fun k => k.bucketExpires q.1) (fun _ _ b _ => absurd q.1 b) rfl) m) m _
    · exact h
  | clockAdvance dt =>
    cases e
    refine State.whenPowered_keeps h fun _ => ?_
    unfold State.clockTick
    split
    · exact K.elapse h dt
    · exact Keeper.showAtDue K (Keeper.showAtDue K (K.plan (K.elapse h dt) _ rfl) _ _) _ _
  | intervalExpiry sc =>
    cases e
    refine State.whenPowered_keeps h fun _ => ?_
    unfold State.intervalEnds
    split
    · split
      · exact Keeper.openOnDeck K h _ _
      · exact K.react h (Reactions.endProgramme sc (.refl' _))
    · exact h
  | darkHoldExpiry sc =>
    cases e
    refine State.whenPowered_keeps h fun _ => ?_
    unfold State.darkHoldEnds
    split
    · exact Keeper.report K (K.screen (K.react h (Reactions.placeScene sc .fault 4 Config.faultFade trivial (.refl' _))) _ _) _
    · exact h
  | fadeStep sc c =>
    cases e
    exact State.whenPowered_keeps h fun _ => K.circuit h sc c _ (fun _ _ k => k.dueStep) fun h x => by
      rw [Circuit.dueStep_eq]
      split
      · unfold Circuit.fadeStep
        split
        next r _ _ =>
          split
          · split
            · cases r <;> first | rfl | (rename_i e _ ; simp only [ClaimTable.set, Circuit.setOutput]; simp_all [ClaimTable.get])
            · rfl
          · rfl
        · rfl
      · rfl
  | zeroCrossing dt => cases e; exact State.whenPowered_keeps h fun _ => K.cross (K.elapse h dt)
  | firingDelayExpiry sc c =>
    cases e
    exact State.whenPowered_keeps h fun _ => K.circuit h sc c _ (fun _ _ k => k.fire) fun h x => by unfold Circuit.fire; split <;> rfl
  | loopInputChange fl =>
    cases e
    refine State.whenPowered_keeps h fun _ => K.fire h _ (fun k => k.loopChange _) ?_ ?_ fun _ => ?_
    all_goals
      unfold FireUnit.loopChange
      split
      · rfl
      · split <;> rfl
  | loopOpenMeasureExpiry =>
    cases e
    refine State.whenPowered_keeps h fun _ => ?_
    unfold State.loopOpenExpires
    split
    · exact h
    · exact Keeper.boothTrip_all K (K.fire h _ (fun k => ⟨k.1, k.2, k.3, k.4, k.5, k.6, fun q => absurd q (by simp), k.8⟩) rfl rfl fun _ => rfl) rfl
  | gateCount m n =>
    cases e
    refine State.whenPowered_keeps h fun _ => ?_
    unfold State.takeGateCount
    have h1 : L (s.modFire fun u => { u with gates := u.gates.set m ((u.gates.get m).take (s.counted m n)) }) :=
      K.fire h _ (fun k => k.setGate m ((k.gate m).take _)) rfl rfl fun _ => rfl
    dsimp only
    split
    · exact Keeper.machineTrip_all K h1 m
    · exact h1
  | shutterSwitchChange m sw fl => cases e; exact State.whenPowered_keeps h fun _ => Keeper.switchChange K h m sw _
  | confirmMeasureExpiry m => cases e; exact State.whenPowered_keeps h fun _ => Keeper.confirmExpires K h m
  | receivedCharacter c a b => cases e; exact State.whenPowered_keeps h fun _ => K.line h _ fun _ k => (k.receive _ _).noteReading _ _
  | lineSent => cases e; exact State.whenPowered_keeps h fun _ => K.line h _ fun _ k => k.lineSent.noteReading _ _
  | breakMeasureExpiry => cases e; exact State.whenPowered_keeps h fun _ => K.line h _ fun _ k => k.breakReset
  | powerOn p l => exact K.power s p l t e
  | motor w =>
    cases e
    refine Keeper.takeCommand K h fun s h => ?_
    split
    · exact Keeper.answer K h _
    rename_i m  on q
    obtain ⟨⟨m', on'⟩, -, q⟩ := Except.bind_ok q
    obtain ⟨u, q1, q2⟩ := Except.bind_ok q
    cases q2
    have em : (s.machine m).state = .empty := by
      unfold motorTest at q1
      split at q1
      next e => exact e
      all_goals exact absurd q1 (by simp)
    refine Keeper.answer K (K.mach h m _ (fun k => ?_) ?_ (fun z => by rw [em] at z; exact absurd z (by decide)) ?_ ?_ ?_ ?_) _
    · cases on
      · exact k.motorOff em
      · exact k.laceUpOn _ em
    all_goals
      cases on
      · have k := MachineRec.motorOff_keeps (s.machine m)
        first | exact k.2.1 | exact k.2.2.2.2 | exact k.2.2.2.1 | (simp [k.1])
      · simp only [if_true]
        unfold MachineRec.laceUpOn MachineRec.motorOn
        split <;> (try split) <;> first | rfl | exact Iff.rfl | exact id
  | douse w =>
    cases e
    refine Keeper.takeCommand K h fun s h => ?_
    split
    · exact Keeper.answer K h _
    rename_i v q
    exact Keeper.answer K (K.react (Keeper.consoleHold K h _ _) (Reactions.machinePosted _ (.refl' _))) _
  | mstat w =>
    cases e
    refine Keeper.takeCommand K h fun s h => ?_
    split
    · exact Keeper.answer K h _
    · exact Keeper.answer K h _
  | cuemap w =>
    cases e
    refine Keeper.takeCommand K h fun s h => ?_
    split
    · exact Keeper.answer K h _
    · exact Keeper.answer K h _
    · exact Keeper.answer K (K.screen h _ _) _
  | strike w =>
    cases e
    refine Keeper.takeCommand K h fun s h => ?_
    split
    · exact Keeper.answer K h _
    rename_i v q
    obtain ⟨m, -, q⟩ := Except.bind_ok q
    have : strikeDecline (s.machine m).holds.fire (s.lamp m) = none ∧ m = v := by
      split at q
      next e => exact ⟨e, Except.ok.inj q⟩
      all_goals exact absurd q (by simp)
    obtain ⟨d, rfl⟩ := this
    exact Keeper.answer K (Keeper.lampSettled K (K.strike h m d) m _) _
  | arcoff w =>
    cases e
    refine Keeper.takeCommand K h fun s h => ?_
    split
    · exact Keeper.answer K h _
    rename_i m q
    refine Keeper.answer K (Keeper.lampSettled K (K.lamp h m _ (fun k => k.arcOff) (fun _ a b c => ?_) ?_) m _) _
    · unfold LampRec.arcOff
      split
      · exact ⟨a, by simp, by simp⟩
      all_goals (rw [LampRec.putOut_of_out _ a b c]; exact ⟨a, b, c⟩)
    · unfold LampRec.arcOff
      split
      · rfl
      all_goals exact LampRec.putOut_bound _
  | trim w =>
    cases e
    refine Keeper.takeCommand K h fun s h => ?_
    split
    · exact Keeper.answer K h _
    rename_i m  mm q
    have : (!(s.lamp m).contactorClosed && (s.lamp m).state != .striking) = true := by
      unfold parseTrim at q
      split at q
      · obtain ⟨_, -, q⟩ := Except.bind_ok q
        obtain ⟨_, -, q⟩ := Except.bind_ok q
        obtain ⟨_, -, q⟩ := Except.bind_ok q
        obtain ⟨_, -, q⟩ := Except.bind_ok q
        obtain ⟨_, q1, q⟩ := Except.bind_ok q
        cases q
        exact need_ok q1
      · exact absurd q (by simp)
    simp only [Bool.and_eq_true, Bool.not_eq_true', bne_iff_ne, ne_eq] at this
    refine Keeper.answer K (Keeper.lampSettled K (Keeper.shortfallTest K (K.lamp h m _ (fun k => k.newTrim _ this.1 this.2) (fun _ a b c => ⟨a, ?_, ?_⟩) rfl) m) m _) _
    · show (if _ then LampState.dark else _) ≠ _
      split
      · decide
      · exact b
    · show (if _ then LampState.dark else _) ≠ _
      split
      · decide
      · exact c
  | lampset w =>
    cases e
    refine Keeper.takeCommand K h fun s h => ?_
    split
    · exact Keeper.answer K h _
    rename_i v q
    exact Keeper.answer K (Keeper.lampSettled K (Keeper.exhaustTest K (Keeper.shortfallTest K (K.lamp h _ _ (fun k => k.withSettings _) (fun _ a b c => ⟨a, b, c⟩) rfl) _) _) _ _) _
  | lstat w =>
    cases e
    refine Keeper.takeCommand K h fun s h => ?_
    split
    · exact Keeper.answer K h _
    · exact Keeper.answer K h _
  | reel w =>
    cases e
    refine Keeper.takeCommand K h fun s h => ?_
    split
    · exact Keeper.answer K h _
    rename_i sc  n  en q
    have := parseReel_ok q
    exact Keeper.answer K (K.react (K.slot h sc n en this.1 this.2) (Reactions.evaluateScreen _ (.refl' _))) _
  | plancopy w =>
    cases e
    refine Keeper.takeCommand K h fun s h => ?_
    split
    · exact Keeper.answer K h _
    rename_i v q
    split
    · exact Keeper.answer K h _
    next nz =>
      have : (anyInRange v.to_ v.count fun n => (s.slot v.target n).status == .bound) = false := by
        unfold parsePlancopy at q
        split at q
        · obtain ⟨_, -, q⟩ := Except.bind_ok q
          obtain ⟨_, -, q⟩ := Except.bind_ok q
          obtain ⟨_, -, q⟩ := Except.bind_ok q
          obtain ⟨_, -, q⟩ := Except.bind_ok q
          obtain ⟨_, -, q⟩ := Except.bind_ok q
          obtain ⟨_, -, q⟩ := Except.bind_ok q
          obtain ⟨_, -, q⟩ := Except.bind_ok q
          obtain ⟨_, -, q⟩ := Except.bind_ok q
          split at q
          · cases q; exact absurd rfl nz
          · obtain ⟨_, q1, q⟩ := Except.bind_ok q
            cases q
            obtain ⟨_, -, q1⟩ := Except.bind_ok q1
            have := need_ok q1
            simpa using this
        · exact absurd q (by simp)
      exact Keeper.answer K (K.react (K.slots h _ _ _ _ this (fun n => SlotLaw.copied _)
        fun n e q => PlanTable.at_entry (by simpa [Slot.copied_entry] using q)) (Reactions.evaluateScreen _ (.refl' _))) _
  | planclr w =>
    cases e
    refine Keeper.takeCommand K h fun s h => ?_
    split
    · exact Keeper.answer K h _
    rename_i sc  f  c q
    split
    · exact Keeper.answer K h _
    next nz =>
      have : (anyInRange f c fun n => (s.slot sc n).status == .bound) = false := by
        unfold parsePlanclr at q
        split at q
        · obtain ⟨_, -, q⟩ := Except.bind_ok q
          obtain ⟨_, -, q⟩ := Except.bind_ok q
          obtain ⟨_, -, q⟩ := Except.bind_ok q
          obtain ⟨_, -, q⟩ := Except.bind_ok q
          obtain ⟨_, -, q⟩ := Except.bind_ok q
          split at q
          · cases q; exact absurd rfl nz
          · obtain ⟨_, q1, q⟩ := Except.bind_ok q
            cases q
            obtain ⟨_, -, q1⟩ := Except.bind_ok q1
            have := need_ok q1
            simpa using this
        · exact absurd q (by simp)
      exact Keeper.answer K (K.react (K.slots h _ _ _ _ this (fun n => ⟨SlotLaw.cleared, rfl⟩)
        fun n e q => absurd q (by simp [Slot.cleared])) (Reactions.evaluateScreen _ (.refl' _))) _
  | pstat w =>
    cases e
    refine Keeper.takeCommand K h fun s h => ?_
    split
    · exact Keeper.answer K h _
    · exact Keeper.answer K h _
  | thread w =>
    cases e
    refine Keeper.takeCommand K h fun s h => ?_
    split
    · exact Keeper.answer K h _
    rename_i m  id  n  en q
    have : (s.slot (screenOf m) n).status = .loaded ∧ (s.slot (screenOf m) n).entry = some en ∧ (s.machine m).state = .empty ∧ (s.machine m).motor = false := by
      unfold parseThread at q
      split at q
      · obtain ⟨_, -, q⟩ := Except.bind_ok q
        obtain ⟨_, -, q⟩ := Except.bind_ok q
        obtain ⟨_, -, q⟩ := Except.bind_ok q
        obtain ⟨_, q1, q⟩ := Except.bind_ok q
        split at q
        · exact absurd q (by simp)
        next k e' sn =>
          obtain ⟨_, q2, q⟩ := Except.bind_ok q
          cases q
          have a := need_ok q2
          unfold State.slotNamed at sn
          obtain ⟨k, -, sn⟩ := List.exists_of_findSome?_eq_some sn
          split at sn
          next l1 l2 =>
            split at sn
            · cases sn
              refine ⟨l1, l2, ?_, by simpa using a⟩
              unfold threadTest at q1
              split at q1
              next e => exact e
              all_goals exact absurd q1 (by simp)
            · exact absurd sn (by simp)
          · exact absurd sn (by simp)
      · exact absurd q (by simp)
    exact Keeper.answer K (K.react (K.bind h m id n en this.1 this.2.1 this.2.2.1 this.2.2.2) (Reactions.evaluate m (.refl' _))) _
  | unthread w =>
    cases e
    refine Keeper.takeCommand K h fun s h => ?_
    split
    · exact Keeper.answer K h _
    rename_i m q
    obtain ⟨_, -, q⟩ := Except.bind_ok q
    obtain ⟨_, q1, q⟩ := Except.bind_ok q
    cases q
    refine Keeper.answer K (K.react (K.unthread h m fun z => ?_) (Reactions.evaluateScreen _ (.refl' _))) _
    rw [z] at q1; exact absurd q1 (by simp [unthreadTest])
  | time w =>
    cases e
    refine Keeper.takeCommand K h fun s h => ?_
    split
    · exact Keeper.answer K h _
    · exact Keeper.answer K h _
    · exact Keeper.answer K (K.plan h _ rfl) _
  | showat w =>
    cases e
    refine Keeper.takeCommand K h fun s h => ?_
    split
    · exact Keeper.answer K h _
    · exact Keeper.answer K h _
    · exact Keeper.answer K (K.plan h _ rfl) _
    · exact Keeper.answer K (K.plan h _ rfl) _
  | start w =>
    cases e
    refine Keeper.takeCommand K h fun s h => ?_
    split
    · exact Keeper.answer K h _
    · exact Keeper.answer K (Keeper.openSlot K h _ _) _
  | swapnow w =>
    cases e
    refine Keeper.takeCommand K h fun s h => ?_
    split
    · exact Keeper.answer K h _
    rename_i v q
    refine Keeper.answer K ?_ _
    unfold State.swapNow
    split
    · exact K.react (K.screen h _ _) (Reactions.startDue _ _ _ (.refl' _))
    · exact K.react h (Reactions.reachPoint _ _ _ (.refl' _))
  | sound w =>
    cases e
    refine Keeper.takeCommand K h fun s h => ?_
    split
    · exact Keeper.answer K h _
    · exact Keeper.answer K h _
    · exact Keeper.answer K (K.screen h _ _) _
  | resume w =>
    cases e
    refine Keeper.takeCommand K h fun s h => ?_
    split
    · exact Keeper.answer K h _
    · exact Keeper.answer K (Keeper.openOnDeck K h _ _) _
  | abort w =>
    cases e
    refine Keeper.takeCommand K h fun s h => ?_
    split
    · exact Keeper.answer K h _
    rename_i sc q
    refine Keeper.answer K ?_ _
    have am : ∀ s m, L s → L (s.abortMachine m) := by
      intro s m h
      unfold State.abortMachine
      have h1 : L (((s.modMachine m MachineRec.stopOrder).lampOff m).modDecoder m fun d => { d with deferred := [] }) :=
        K.decoder (K.react h (Reactions.lampOff m (Reactions.stopOrder m (.refl' _)))) _ _ fun k => k.emptied
      dsimp only
      split
      · exact K.react h1 (Reactions.outgoingReelEnds m (.refl' _))
      · exact h1
    unfold State.abort
    have h2 := am _ (upperOf sc) (am _ (lowerOf sc) h)
    have h3 : L (State.cutCurrent sc ((s.abortMachine (lowerOf sc)).abortMachine (upperOf sc))) := by
      unfold State.cutCurrent
      split
      · exact h2
      · exact K.react h2 (Reactions.slotNotice _ _ _ (.inr rfl) (.refl' _))
    refine K.react (K.screen (K.react h3 (Reactions.releaseFault sc (Reactions.releaseThree sc .cue trivial (.refl' _)))) _ _) (Reactions.evaluateScreen _ (.refl' _))
  | screenset w =>
    cases e
    refine Keeper.takeCommand K h fun s h => ?_
    split
    · exact Keeper.answer K h _
    · exact Keeper.answer K (K.screen h _ _) _
  | sstat w =>
    cases e
    refine Keeper.takeCommand K h fun s h => ?_
    split
    · exact Keeper.answer K h _
    · exact Keeper.answer K h _
  | scenedef w =>
    cases e
    refine Keeper.takeCommand K h fun s h => ?_
    split
    · exact Keeper.answer K h _
    · exact Keeper.answer K h _
    · exact Keeper.answer K (K.scenes h _ _ _) _
  | level w =>
    cases e
    refine Keeper.takeCommand K h fun s h => ?_
    split
    · exact Keeper.answer K h _
    refine Keeper.answer K ?_ _
    unfold State.placeLevel
    split
    · exact K.circuit h _ _ _ (fun h x k => k.place _ _ _ (fun e => absurd e (by decide))) (fun h x => Circuit.place_safety _ _ _ _ _ (by decide))
    · exact Keeper.placeConsole K h _ _ _
  | scene w =>
    cases e
    refine Keeper.takeCommand K h fun s h => ?_
    split
    · exact Keeper.answer K h _
    · exact Keeper.answer K (Keeper.placeConsole K h _ _ _) _
  | release w =>
    cases e
    refine Keeper.takeCommand K h fun s h => ?_
    split
    · exact Keeper.answer K h _
    refine Keeper.answer K ?_ _
    unfold State.releaseLevel
    split
    · exact K.circuit h _ _ _ (fun h x k => k.release _) (fun h x => Circuit.release_safety _ _ _ (by decide))
    · exact Keeper.releaseConsole K h _
  | hlstat w =>
    cases e
    refine Keeper.takeCommand K h fun s h => ?_
    split
    · exact Keeper.answer K h _
    · exact Keeper.answer K h _
  | resetM w =>
    cases e
    refine Keeper.takeCommand K h fun s h => ?_
    split
    · exact Keeper.answer K h _
    rename_i m q
    obtain ⟨_, -, q⟩ := Except.bind_ok q
    obtain ⟨_, q1, q⟩ := Except.bind_ok q
    cases q
    obtain ⟨_, a, q1⟩ := Except.bind_ok q1
    obtain ⟨_, b, q1⟩ := Except.bind_ok q1
    obtain ⟨_, c, q1⟩ := Except.bind_ok q1
    have a := need_ok a
    have b := need_ok b
    have c := need_ok c
    exact Keeper.answer K (Keeper.report K (K.react (K.resetM h m (by simpa using a) b (by simpa using c)) (Reactions.evaluateScreen _ (.refl' _))) _) _
  | resetBooth w =>
    cases e
    refine Keeper.takeCommand K h fun s h => ?_
    split
    · exact Keeper.answer K h _
    rename_i m q
    obtain ⟨_, -, q⟩ := Except.bind_ok q
    obtain ⟨_, a, q1⟩ := Except.bind_ok q
    obtain ⟨_, b, q1⟩ := Except.bind_ok q1
    have a := need_ok a
    have c := need_ok q1
    exact Keeper.report K (Keeper.answer K (K.react (K.resetB h a (by simpa using c)) (Reactions.evaluateScreen _ (Reactions.evaluateScreen _ (.refl' _)))) _) _
  | incident w =>
    cases e
    refine Keeper.takeCommand K h fun s h => ?_
    split
    · exact Keeper.answer K h _
    · exact Keeper.answer K h _
  | inclear w =>
    cases e
    refine Keeper.takeCommand K h fun s h => ?_
    split
    · exact Keeper.answer K h _
    · exact Keeper.answer K (K.fire h _ (fun k => ⟨k.1, k.2, Nat.zero_le _, k.4, fun _ _ z => absurd z (by simp), k.6, k.7, k.8⟩) rfl rfl fun _ => rfl) _
  | fstat w =>
    cases e
    refine Keeper.takeCommand K h fun s h => ?_
    split
    · exact Keeper.answer K h _
    · exact Keeper.answer K h _
  | fireset w =>
    cases e
    refine Keeper.takeCommand K h fun s h => ?_
    split
    · exact Keeper.answer K h _
    rename_i m  x q
    have : within 1 4095 x.trip = true ∧ ((s.fire.gates.get m).withThresholds x).resetThreshold < ((s.fire.gates.get m).withThresholds x).tripThreshold := by
      unfold parseFireset at q
      split at q
      · obtain ⟨_, -, q⟩ := Except.bind_ok q
        obtain ⟨_, -, q⟩ := Except.bind_ok q
        obtain ⟨_, -, q⟩ := Except.bind_ok q
        obtain ⟨_, -, q⟩ := Except.bind_ok q
        obtain ⟨_, q1, q⟩ := Except.bind_ok q
        obtain ⟨_, q2, q⟩ := Except.bind_ok q
        cases q
        have a := need_ok q1
        have b := need_ok q2
        simp only [Bool.and_eq_true] at a
        exact ⟨a.1, by simpa using b⟩
      · exact absurd q (by simp)
    exact Keeper.answer K (K.fire h _ (fun k => k.thresholds m x this.1 this.2) rfl rfl fun _ => rfl) _
  | ident w =>
    cases e
    refine Keeper.takeCommand K h fun s h => ?_
    split
    · exact Keeper.answer K h _
    · exact Keeper.answer K h _
  | status w =>
    cases e
    refine Keeper.takeCommand K h fun s h => ?_
    split
    · exact Keeper.answer K h _
    · exact Keeper.answer K h _
  | restart w =>
    cases e
    refine Keeper.takeCommand K h fun s h => ?_
    split
    · exact Keeper.answer K h _
    rename_i v q
    have h1 := K.restart h
    generalize s.restartBlocks = w at h1
    show L (w.modLine fun l => LineUnit.report .ready { l.answer (.ok []) with queue := [] })
    exact K.line h1 (fun l => LineUnit.report .ready { l.answer (.ok []) with queue := [] }) fun l k => (k.answer _).restart
  | receiveLineLevelChange b => cases e; exact State.whenPowered_keeps h fun _ => K.line h _ fun _ k => k.levelChange _
  | powerRemoved => exact K.off s t e

end Sys2Proof.Machine
end

