-- ==== Sys2Proof/Laws/PerInstr.lean ====
section
/-! SUPPORT. What holds of each command as syntax: `SenderWords`, that the operand words of a sendable command are words
(R169) and fit a line of 72 characters with the verb (R167). -/

namespace Sys2Proof.Laws.SenderWords

open Sys2Proof

/-- Every operand word of a sendable command is non-empty and holds no space, and the verb and the words, one space
between them, fit the line. -/
def Statement (i : Instr) : Prop :=
  i.wellFormed = true → ∀ ws, i.operands? = some ws →
    (∀ w ∈ ws, w ≠ [] ∧ ' ' ∉ w) ∧ spacedLength (i.verbWords ++ ws) ≤ Config.lineLength + 1

theorem word_of_wellFormed {w : Text} (h : wellFormedWord w = true) : w ≠ [] ∧ ' ' ∉ w := by
  simp only [wellFormedWord, Bool.and_eq_true, Bool.not_eq_true', List.all_eq_true] at h
  refine ⟨fun e => ?_, fun q => ?_⟩
  · rw [e] at h; exact absurd h.1 (by simp)
  · exact absurd (h.2 _ q).2 (by simp)

theorem of_words {i : Instr} {ws : List Text}
    (h : (ws.all wellFormedWord && i.operandsFit ws &&
      decide (spacedLength (i.verbWords ++ ws) ≤ Config.lineLength + 1)) = true) :
    ∀ vs, some ws = some vs →
      (∀ w ∈ vs, w ≠ [] ∧ ' ' ∉ w) ∧ spacedLength (i.verbWords ++ vs) ≤ Config.lineLength + 1 := by
  intro vs e
  cases e
  simp only [Bool.and_eq_true, List.all_eq_true, decide_eq_true_eq] at h
  exact ⟨fun w m => word_of_wellFormed (h.1.1 w m), h.2⟩

theorem framePulse (m : MachineId) (dt : Nat) (foil : Bool) : Statement (.framePulse m dt foil) := fun _ _ e => absurd e (by simp [Instr.operands?])
theorem loopSwitchOpen (m : MachineId) (flowing : Bool) : Statement (.loopSwitchOpen m flowing) := fun _ _ e => absurd e (by simp [Instr.operands?])
theorem contactorSenseChange (m : MachineId) (flowing : Bool) : Statement (.contactorSenseChange m flowing) := fun _ _ e => absurd e (by simp [Instr.operands?])
theorem contactorFailure (m : MachineId) : Statement (.contactorFailure m) := fun _ _ e => absurd e (by simp [Instr.operands?])
theorem stall (m : MachineId) : Statement (.stall m) := fun _ _ e => absurd e (by simp [Instr.operands?])
theorem noPulseTimerExpiry (m : MachineId) : Statement (.noPulseTimerExpiry m) := fun _ _ e => absurd e (by simp [Instr.operands?])
theorem arcGate (m : MachineId) (count : Nat) : Statement (.arcGate m count) := fun _ _ e => absurd e (by simp [Instr.operands?])
theorem touchMeasureExpiry (m : MachineId) : Statement (.touchMeasureExpiry m) := fun _ _ e => absurd e (by simp [Instr.operands?])
theorem retractMeasureExpiry (m : MachineId) : Statement (.retractMeasureExpiry m) := fun _ _ e => absurd e (by simp [Instr.operands?])
theorem pauseMeasureExpiry (m : MachineId) : Statement (.pauseMeasureExpiry m) := fun _ _ e => absurd e (by simp [Instr.operands?])
theorem shortGapRetractExpiry (m : MachineId) : Statement (.shortGapRetractExpiry m) := fun _ _ e => absurd e (by simp [Instr.operands?])
theorem feedEncoderPulse (m : MachineId) (flowing : Bool) : Statement (.feedEncoderPulse m flowing) := fun _ _ e => absurd e (by simp [Instr.operands?])
theorem bucketMeasureExpiry (m : MachineId) : Statement (.bucketMeasureExpiry m) := fun _ _ e => absurd e (by simp [Instr.operands?])
theorem clockAdvance (dt : Nat) : Statement (.clockAdvance dt) := fun _ _ e => absurd e (by simp [Instr.operands?])
theorem intervalExpiry (sc : ScreenId) : Statement (.intervalExpiry sc) := fun _ _ e => absurd e (by simp [Instr.operands?])
theorem darkHoldExpiry (sc : ScreenId) : Statement (.darkHoldExpiry sc) := fun _ _ e => absurd e (by simp [Instr.operands?])
theorem fadeStep (sc : ScreenId) (c : CircuitId) : Statement (.fadeStep sc c) := fun _ _ e => absurd e (by simp [Instr.operands?])
theorem zeroCrossing (dt : Nat) : Statement (.zeroCrossing dt) := fun _ _ e => absurd e (by simp [Instr.operands?])
theorem firingDelayExpiry (sc : ScreenId) (c : CircuitId) : Statement (.firingDelayExpiry sc c) := fun _ _ e => absurd e (by simp [Instr.operands?])
theorem loopInputChange (flowing : Bool) : Statement (.loopInputChange flowing) := fun _ _ e => absurd e (by simp [Instr.operands?])
theorem loopOpenMeasureExpiry : Statement (.loopOpenMeasureExpiry) := fun _ _ e => absurd e (by simp [Instr.operands?])
theorem gateCount (m : MachineId) (count : Nat) : Statement (.gateCount m count) := fun _ _ e => absurd e (by simp [Instr.operands?])
theorem shutterSwitchChange (m : MachineId) (sw : ShutterSwitch) (flowing : Bool) : Statement (.shutterSwitchChange m sw flowing) := fun _ _ e => absurd e (by simp [Instr.operands?])
theorem confirmMeasureExpiry (m : MachineId) : Statement (.confirmMeasureExpiry m) := fun _ _ e => absurd e (by simp [Instr.operands?])
theorem receivedCharacter (code : BitVec 7) (badParity : Bool) (badStop : Bool) : Statement (.receivedCharacter code badParity badStop) := fun _ _ e => absurd e (by simp [Instr.operands?])
theorem lineSent : Statement (.lineSent) := fun _ _ e => absurd e (by simp [Instr.operands?])
theorem breakMeasureExpiry : Statement (.breakMeasureExpiry) := fun _ _ e => absurd e (by simp [Instr.operands?])
theorem powerOn (straps : Straps) (lines : Lines) : Statement (.powerOn straps lines) := fun _ _ e => absurd e (by simp [Instr.operands?])
theorem motor (ops : List Text) : Statement (.motor ops) := fun h => of_words (i := .motor ops) h
theorem douse (ops : List Text) : Statement (.douse ops) := fun h => of_words (i := .douse ops) h
theorem mstat (ops : List Text) : Statement (.mstat ops) := fun h => of_words (i := .mstat ops) h
theorem cuemap (ops : List Text) : Statement (.cuemap ops) := fun h => of_words (i := .cuemap ops) h
theorem strike (ops : List Text) : Statement (.strike ops) := fun h => of_words (i := .strike ops) h
theorem arcoff (ops : List Text) : Statement (.arcoff ops) := fun h => of_words (i := .arcoff ops) h
theorem trim (ops : List Text) : Statement (.trim ops) := fun h => of_words (i := .trim ops) h
theorem lampset (ops : List Text) : Statement (.lampset ops) := fun h => of_words (i := .lampset ops) h
theorem lstat (ops : List Text) : Statement (.lstat ops) := fun h => of_words (i := .lstat ops) h
theorem reel (ops : List Text) : Statement (.reel ops) := fun h => of_words (i := .reel ops) h
theorem plancopy (ops : List Text) : Statement (.plancopy ops) := fun h => of_words (i := .plancopy ops) h
theorem planclr (ops : List Text) : Statement (.planclr ops) := fun h => of_words (i := .planclr ops) h
theorem pstat (ops : List Text) : Statement (.pstat ops) := fun h => of_words (i := .pstat ops) h
theorem thread (ops : List Text) : Statement (.thread ops) := fun h => of_words (i := .thread ops) h
theorem unthread (ops : List Text) : Statement (.unthread ops) := fun h => of_words (i := .unthread ops) h
theorem time (ops : List Text) : Statement (.time ops) := fun h => of_words (i := .time ops) h
theorem showat (ops : List Text) : Statement (.showat ops) := fun h => of_words (i := .showat ops) h
theorem start (ops : List Text) : Statement (.start ops) := fun h => of_words (i := .start ops) h
theorem swapnow (ops : List Text) : Statement (.swapnow ops) := fun h => of_words (i := .swapnow ops) h
theorem sound (ops : List Text) : Statement (.sound ops) := fun h => of_words (i := .sound ops) h
theorem resume (ops : List Text) : Statement (.resume ops) := fun h => of_words (i := .resume ops) h
theorem abort (ops : List Text) : Statement (.abort ops) := fun h => of_words (i := .abort ops) h
theorem screenset (ops : List Text) : Statement (.screenset ops) := fun h => of_words (i := .screenset ops) h
theorem sstat (ops : List Text) : Statement (.sstat ops) := fun h => of_words (i := .sstat ops) h
theorem scenedef (ops : List Text) : Statement (.scenedef ops) := fun h => of_words (i := .scenedef ops) h
theorem level (ops : List Text) : Statement (.level ops) := fun h => of_words (i := .level ops) h
theorem scene (ops : List Text) : Statement (.scene ops) := fun h => of_words (i := .scene ops) h
theorem release (ops : List Text) : Statement (.release ops) := fun h => of_words (i := .release ops) h
theorem hlstat (ops : List Text) : Statement (.hlstat ops) := fun h => of_words (i := .hlstat ops) h
theorem resetM (ops : List Text) : Statement (.resetM ops) := fun h => of_words (i := .resetM ops) h
theorem resetBooth (ops : List Text) : Statement (.resetBooth ops) := fun h => of_words (i := .resetBooth ops) h
theorem incident (ops : List Text) : Statement (.incident ops) := fun h => of_words (i := .incident ops) h
theorem inclear (ops : List Text) : Statement (.inclear ops) := fun h => of_words (i := .inclear ops) h
theorem fstat (ops : List Text) : Statement (.fstat ops) := fun h => of_words (i := .fstat ops) h
theorem fireset (ops : List Text) : Statement (.fireset ops) := fun h => of_words (i := .fireset ops) h
theorem ident (ops : List Text) : Statement (.ident ops) := fun h => of_words (i := .ident ops) h
theorem status (ops : List Text) : Statement (.status ops) := fun h => of_words (i := .status ops) h
theorem restart (ops : List Text) : Statement (.restart ops) := fun h => of_words (i := .restart ops) h
theorem receiveLineLevelChange (space : Bool) : Statement (.receiveLineLevelChange space) := fun _ _ e => absurd e (by simp [Instr.operands?])
theorem powerRemoved : Statement (.powerRemoved) := fun _ _ e => absurd e (by simp [Instr.operands?])

end Sys2Proof.Laws.SenderWords
end

