-- ==== Sys2Proof/Laws/Screens.lean ====
section
/-! SUPPORT. The law of a screen's record across the changes that the controller makes of it whole; and the law of the screens
across the small operations, starts and the ARMED evaluation that the controller's events end in. -/

namespace Sys2Proof.Machine
open Sys2Proof

variable {sc : ScreenId} {x : ScreenRec}

/-- The states of Table 6-2 with an ON_SCREEN machine. -/
theorem ScreenLaw.shows_iff (k : ScreenLaw sc x) : (∃ m, x.onScreen = some m) ↔ x.state.shows = true := by
  rw [← k.onScreen, Option.isSome_iff_exists]

/-- A screen without an ON_SCREEN machine is muted, with no overlap left and its dark hold timer stopped. -/
theorem ScreenLaw.silent (k : ScreenLaw sc x) (h : x.onScreen = none) :
    x.mixer = .mute ∧ x.overlapLeft = 0 ∧ x.darkHold = .stopped := by
  have m := k.muted.2 h
  refine ⟨m, ?_, k.darkHold h⟩
  by_contra z
  have b := k.both.2 (Nat.pos_of_ne_zero z)
  rw [m] at b; cases b

/-- Where BOTH does not stand, no overlap is left. -/
theorem ScreenLaw.spent (k : ScreenLaw sc x) (h : x.mixer ≠ .both) : x.overlapLeft = 0 := by
  by_contra z
  exact h (k.both.2 (Nat.pos_of_ne_zero z))

theorem ScreenLaw.atPowerOn (sc : ScreenId) : ScreenLaw sc ScreenRec.atPowerOn := by
  constructor <;> simp [ScreenRec.atPowerOn, ScreenState.shows]

theorem ScreenLaw.goIdle (k : ScreenLaw sc x) : ScreenLaw sc x.goIdle := by
  have s := k.settings
  constructor <;> simp_all [ScreenRec.goIdle, ScreenRec.discardTiming, ScreenState.shows]

theorem ScreenLaw.halt (k : ScreenLaw sc x) (h : x.state ≠ .idle) : ScreenLaw sc x.halt := by
  have s := k.settings
  have c := k.current
  constructor <;> simp_all [ScreenRec.halt, ScreenRec.discardTiming, ScreenState.shows]

/-- Entry to OPENING, from a screen on which no machine stands. -/
theorem ScreenLaw.enterOpening (k : ScreenLaw sc x) (n : SlotIx) (h : x.onScreen = none) :
    ScreenLaw sc (x.enterOpening n) := by
  have s := k.settings
  obtain ⟨a, b, c⟩ := k.silent h
  constructor <;> simp_all [ScreenRec.enterOpening, ScreenRec.discardTiming, ScreenState.shows]

/-- R115: one of the overlap's incoming frames has run. -/
theorem ScreenLaw.overlapStep (k : ScreenLaw sc x) (m : MachineId) (h : x.onScreen = some m) :
    ScreenLaw sc (if x.mixer = .both then
      { x with overlapLeft := x.overlapLeft - 1, mixer := if x.overlapLeft ≤ 1 then .machine m else .both } else x) := by
  split
  next b =>
    have le := k.overlapLeft
    refine ⟨k.onScreen, k.pair, k.current, k.interval, k.intervalTime, ?_, ?_, ?_, by dsimp only; omega, k.darkHold,
      k.settings, k.showing, k.runup, k.swapDue, k.ended, k.dark⟩ <;> dsimp only <;> split
    all_goals simp_all
  next => exact k

/-- R129: a new overlap, in its range. -/
theorem ScreenLaw.setOverlap (k : ScreenLaw sc x) {n : Nat} (h : n ≤ 12) : ScreenLaw sc (x.setOverlap n) := by
  have le := k.overlapLeft
  have st := k.settings
  have mu := k.muted
  have bo := k.both
  have se := k.selected
  refine ⟨k.onScreen, k.pair, k.current, k.interval, k.intervalTime, ?_, ?_, ?_, ?_, k.darkHold,
    ⟨h, st.2⟩, k.showing, k.runup, k.swapDue, k.ended, k.dark⟩ <;>
    simp only [ScreenRec.setOverlap]
  all_goals
    cases a : x.mixer <;> cases b : x.onScreen <;> simp_all <;> (try split) <;> (try simp_all) <;> omega

/-! ### All the screens -/

variable {s t : State}

/-- Only the machine a screen names is ON_SCREEN, so no two machines of a screen are. -/
theorem ScreensLaw.only (h : ScreensLaw s) {m j : MachineId} (a : (s.machine m).state = .onScreen)
    (b : (s.machine j).state = .onScreen) (e : screenOf m = screenOf j) : m = j := by
  have p := (h.machine m).1 a
  rw [e, (h.machine j).1 b] at p
  exact (Option.some.inj p).symm

/-- What the law of the screens depends on, but for one screen's record, whose ON_SCREEN machine and claim stand. -/
theorem ScreensLaw.of (h : ScreensLaw s) (sc : ScreenId)
    (m : ∀ j, (t.machine j).state = .onScreen ↔ (s.machine j).state = .onScreen)
    (x : ∀ k, k ≠ sc → t.screen k = s.screen k) (l : ScreenLaw sc (t.screen sc))
    (o : (t.screen sc).onScreen = (s.screen sc).onScreen) (f : (t.screen sc).faultClaim = (s.screen sc).faultClaim)
    (c : ∀ k d, (t.circuit k d).claims.fault.isSome = (s.circuit k d).claims.fault.isSome) : ScreensLaw t := by
  have on : ∀ k, (t.screen k).onScreen = (s.screen k).onScreen := fun k => by
    by_cases e : k = sc
    · rw [e, o]
    · rw [x k e]
  have cl : ∀ k, (t.screen k).faultClaim = (s.screen k).faultClaim := fun k => by
    by_cases e : k = sc
    · rw [e, f]
    · rw [x k e]
  refine ⟨fun k => ?_, fun j => by rw [m, on]; exact h.machine j, fun k d => by rw [c, cl]; exact h.fault k d⟩
  by_cases e : k = sc
  · rw [e]; exact l
  · rw [x k e]; exact h.screen k

theorem ScreensLaw.congr (h : ScreensLaw s) (m : ∀ j, (t.machine j).state = .onScreen ↔ (s.machine j).state = .onScreen)
    (x : t.screens = s.screens) (c : ∀ k d, (t.circuit k d).claims.fault.isSome = (s.circuit k d).claims.fault.isSome) :
    ScreensLaw t := by
  have e : ∀ k, t.screen k = s.screen k := fun k => by unfold State.screen; rw [x]
  exact h.of .s1 m (fun k _ => e k) (by rw [e]; exact h.screen .s1) (by rw [e]) (by rw [e]) c

theorem ScreensLaw.modMachine (h : ScreensLaw s) (m : MachineId) (f : MachineRec → MachineRec)
    (k : (f (s.machine m)).state = .onScreen ↔ (s.machine m).state = .onScreen) : ScreensLaw (s.modMachine m f) :=
  h.congr (fun j => by
    rw [State.modMachine_machine]; split
    next e => rw [e]; exact k
    next => exact Iff.rfl) rfl fun _ _ => rfl

theorem ScreensLaw.modLamp (h : ScreensLaw s) (m : MachineId) (f : LampRec → LampRec) : ScreensLaw (s.modLamp m f) :=
  h.congr (fun j => by
    rw [State.modLamp_machine]; split
    next e => rw [e.1]; exact Iff.rfl
    next => exact Iff.rfl) (State.modLamp_screens m f s) fun k d => by rw [State.modLamp_circuit]

theorem ScreensLaw.modScreen (h : ScreensLaw s) (sc : ScreenId) (f : ScreenRec → ScreenRec)
    (l : ScreenLaw sc (f (s.screen sc))) (o : (f (s.screen sc)).onScreen = (s.screen sc).onScreen)
    (c : (f (s.screen sc)).faultClaim = (s.screen sc).faultClaim) : ScreensLaw (s.modScreen sc f) :=
  h.of sc (fun _ => Iff.rfl) (fun k e => by rw [State.modScreen_screen, if_neg e])
    (by rw [State.modScreen_screen, if_pos rfl]; exact l) (by rw [State.modScreen_screen, if_pos rfl, o])
    (by rw [State.modScreen_screen, if_pos rfl, c]) fun _ _ => rfl

theorem ScreensLaw.report (h : ScreensLaw s) (r : Report) : ScreensLaw (s.report r) :=
  h.congr (fun _ => Iff.rfl) rfl fun _ _ => rfl

/-- Claims of CUE, CONSOLE and SAFETY leave the FAULT claims. -/
theorem ScreensLaw.placeThree (h : ScreensLaw s) (sc : ScreenId) {r : Rank} (ne : r ≠ .fault) (l : SceneLevels) (f : Nat) :
    ScreensLaw (s.placeThree sc r l f) :=
  h.congr (fun _ => Iff.rfl) rfl fun k d => by
    rw [State.placeThree_circuit]; split
    next e =>
      have q : sameClaim ((s.circuit sc d).place s.lights.halfCycle r (l.get d) f).claims.fault (s.circuit sc d).claims.fault :=
        Circuit.place_claims _ r _ f _ .fault ne.symm
      rw [e]
      simpa [sameClaim] using congrArg Option.isSome q
    next => rfl

theorem ScreensLaw.strikeRequest (h : ScreensLaw s) (m : MachineId) : ScreensLaw (s.strikeRequest m) := by
  unfold State.strikeRequest; split
  · exact h.modLamp m _
  · exact h

/-- The machine waited on is lost after its start, on a screen that runs a programme. -/
theorem ScreensLaw.successorLost (h : ScreensLaw s) (sc : ScreenId) (a : (s.screen sc).state ≠ .idle)
    (b : (s.screen sc).state ≠ .halted) : ScreensLaw (s.successorLost sc) := by
  have k := h.screen sc
  refine h.modScreen sc _ ?_ rfl rfl
  obtain ⟨k1, k2, k3, k4, k5, k6, k7, k8, k9, k10, k11, k12, k13, k14, k15, k16⟩ := k
  revert k1 k3 k4 k12 k13 k14 k15 k16 a b
  generalize (s.screen sc).state = st
  intro k1 k3 k4 k12 k13 k14 k15 k16 a b
  constructor <;> cases st <;> simp_all [ScreenState.shows]

theorem ScreensLaw.loopCheck (h : ScreensLaw s) (m : MachineId) (a : (s.screen (screenOf m)).state ≠ .idle)
    (b : (s.screen (screenOf m)).state ≠ .halted) : ScreensLaw (s.loopCheck m) := by
  unfold State.loopCheck
  split
  next e =>
    refine ScreensLaw.successorLost (ScreensLaw.report (h.modMachine m _ ?_) _) _ a b
    rw [e.1]
    simp only [MachineRec.enterBroken, MachineRec.motorOff]
    split <;> simp
  next => exact h

end Sys2Proof.Machine
end

