-- ==== Sys2Proof/Tests/Slice0.lean ====
section
/-! SUPPORT. Tests: ill-formed commands refused by WellFormed, worked figures of the spec, one step of each command on a
small state, and for each statement with hypotheses a state and operands that meet them. -/

namespace Sys2Proof.Tests

open Sys2Proof Sys2Proof.Machine Host

/-! ### Small states -/

/-- The state a command answers with, or the state after reset where it does not answer next. -/
def nextOf : Outcome State Fault Refusal → State
  | .next t => t
  | .fault _ | .refused _ => State.reset

/-- The booth after RESET BOOTH on a closed loop: every machine EMPTY, every light at 255 with no claim. -/
def booth : State :=
  { State.reset with
    machines := Quad.same { MachineRec.atPowerOn true true with
      state := .empty, stateBeforeTrip := none, holds := ⟨false, true, false, false, false⟩ }
    fire := { FireUnit.atPowerOn true (Quad.same { ShutterRec.atPowerOn false true with magnet := true }) with
      boothLatch := none, machineLatch := Quad.same none, loopHealthy := some 9 }
    lights := { HouseLights.atPowerOn with
      circuits := Pair.same (Triple.same { Circuit.atPowerOn with claims := ⟨none, none, none, none⟩ }) }
    line := { LineUnit.atPowerOn false with transmitter := none } }

/-- A reel with a changeover frame, as in 2.11. -/
def reel1 : SlotEntry :=
  { reel := txt "FEAT1", length := 31680, co := some 31488, window := 48, runUp := 192, mode := .film, scene := none,
    last := false, int := none, note := false }

/-- The reel that follows it. -/
def reel2 : SlotEntry := { reel1 with reel := txt "FEAT2" }

/-- A machine at sound speed, with the ring of 2.2.1 less its newest period. -/
def running (r : MachineRec) (st : MachineState) (n : SlotIx) (f : Nat) : MachineRec :=
  { r with
    state := st, reelId := some (txt "FEAT1"), boundSlot := some n, frameCount := f, motor := true, speed := .atSpeed
    holds := { r.holds with lamp := false }, framesSinceOn := f, atSpeedReached := true
    ring := [41660, 41650, 41700, 41680, 41690, 41660, 41710, 41670], pulseRef := true, periodTimer := some 0
    average := some 41677, cfps := some 2399, lastAverage := some 41677, pulseMeasure := some 0 }

/-- A lamp that burns, bound to a reel. -/
def burning (l : LampRec) : LampRec :=
  { l with
    state := .burning, trim := 400, consumed := 1150, buckets := [23, 23, 23, 23, 23, 23], completed := 6
    openBucket := some 0, bucketMeasure := some 0, contactorClosed := true, gate := some 0, boundLength := some 31680
    forecast := 2630, carbonOk := some true }

/-- The plan table of a screen that shows slot 0 with slot 1 on deck. -/
def table (m k : MachineId) : PlanTable :=
  (PlanTable.cleared.set 0 ⟨.bound, some m, some reel1⟩).set 1 ⟨.bound, some k, some reel2⟩

/-- Screen 1 shows slot 0 on M1 at frame `f`; M2 is ARMED with slot 1, its lamp DARK. Screen 2 is IDLE. -/
def showing (f : Nat) : State :=
  { booth with
    machines := { booth.machines with
      m1 := { running booth.machines.m1 .onScreen 0 f with douserRequest := .opened, douser := .opened }
      m2 := { booth.machines.m2 with
        state := .armed, reelId := some (txt "FEAT2"), boundSlot := some 1, armedPosting := true } }
    lamps := { booth.lamps with
      m1 := burning booth.lamps.m1
      m2 := { LampRec.atPowerOn with
        trim := 400, consumed := 1150, boundLength := some 31680, forecast := 2592, carbonOk := some true } }
    plan := { booth.plan with
      tables := { booth.plan.tables with s1 := table .m1 .m2 }
      clock := some 74458
      lastPosting := { booth.plan.lastPosting with m2 := true } }
    screens := { booth.screens with
      s1 := { booth.screens.s1 with state := .showing, current := some 0, onScreen := some .m1, mixer := .machine .m1 } }
    fire := { booth.fire with
      shutters := { booth.fire.shutters with
        m1 := { booth.fire.shutters.m1 with state := .opened, openMade := true, closedMade := false }
        m2 := { booth.fire.shutters.m2 with state := .opened, openMade := true, closedMade := false } } } }

/-- As `showing`, with M2 running up at speed, its lamp burning. -/
def runup (f g : Nat) : State :=
  let s := showing f
  { s with
    machines := { s.machines with
      m2 := { running s.machines.m2 .runup 1 g with reelId := some (txt "FEAT2"), armedPosting := false } }
    lamps := { s.lamps with m2 := burning s.lamps.m2 }
    screens := { s.screens with s1 := { s.screens.s1 with state := .runup, startGiven := true } } }

/-- Screen 1 goes on as `f` makes it. -/
def onScreen1 (f : ScreenRec → ScreenRec) (s : State) : State := { s with screens := { s.screens with s1 := f s.screens.s1 } }

/-- M1's record is as `f` makes it. -/
def onM1 (f : MachineRec → MachineRec) (s : State) : State := { s with machines := { s.machines with m1 := f s.machines.m1 } }

/-- M2's record is as `f` makes it. -/
def onM2 (f : MachineRec → MachineRec) (s : State) : State := { s with machines := { s.machines with m2 := f s.machines.m2 } }

/-- Lamp 1's record is as `f` makes it. -/
def onLamp1 (f : LampRec → LampRec) (s : State) : State := { s with lamps := { s.lamps with m1 := f s.lamps.m1 } }

/-- Lamp 2's record is as `f` makes it. -/
def onLamp2 (f : LampRec → LampRec) (s : State) : State := { s with lamps := { s.lamps with m2 := f s.lamps.m2 } }

/-- Screen 1's HOUSE circuit is as `f` makes it. -/
def onHouse (f : Circuit → Circuit) (s : State) : State :=
  { s with lights := { s.lights with
    circuits := { s.lights.circuits with s1 := { s.lights.circuits.s1 with house := f s.lights.circuits.s1.house } } } }

/-- The fire unit is as `f` makes it. -/
def onFire (f : FireUnit → FireUnit) (s : State) : State := { s with fire := f s.fire }

/-- The line that a command's answer is sent as. -/
def answerOf (c : Instr) (s : State) : Text :=
  match (nextOf (exec c s)).line.replyPlace with
  | .full r _ => joinBy ' ' r.fields
  | .empty | .reserved => []

/-- The words of a text, for operands. -/
def ops (t : String) : List Text := wordsOf (txt t)

/-! ### WellFormed refuses what cannot be sent -/

theorem test_wellFormed_taken : (Instr.motor (ops "1 ON")).wellFormed = true := by decide
theorem test_wellFormed_empty_word : (Instr.motor [txt ""]).wellFormed = false := by decide
theorem test_wellFormed_space_in_word : (Instr.motor [txt "1 ON"]).wellFormed = false := by decide
theorem test_wellFormed_control_character : (Instr.motor [['\t']]).wellFormed = false := by decide
theorem test_wellFormed_delete_character : (Instr.motor [[Char.ofNat 127]]).wellFormed = false := by decide
theorem test_wellFormed_longest_line : (Instr.motor [List.replicate 66 'A']).wellFormed = true := by decide
theorem test_wellFormed_line_too_long : (Instr.motor [List.replicate 67 'A']).wellFormed = false := by decide
theorem test_wellFormed_reset_of_booth : (Instr.resetM [txt "BOOTH"]).wellFormed = false := by decide
theorem test_wellFormed_gate_count : (Instr.gateCount .m1 5001).wellFormed = false := by decide
theorem test_wellFormed_arc_gate : (Instr.arcGate .m1 5001).wellFormed = false := by decide

/-! ### Worked figures -/

/-- 2.2.1: the ring's eighth period gives the average 41,682 and 2399 cfps. -/
theorem test_average_221 :
    let r := (nextOf (exec (.framePulse .m1 41700 false) (showing 12409))).machine .m1
    r.average = some 41682 ∧ r.cfps = some 2399 ∧ r.frameCount = 12410 := by decide

/-- 2.7.1: the allowance learned from 1,900,000 µs and 24 frames. -/
theorem test_allowance_271 : learnedAllowance 1200000 1900000 24 = 1124998
    ∧ learnedAllowance 1124998 1900000 24 = 1068746 := by decide

/-- 2.11.1: lead time, start point and strike frames at frame 29,821, and the strike of lamp 2. -/
theorem test_timing_2111 :
    let t := nextOf (exec (.framePulse .m1 41700 false) (showing 29820))
    (t.screen .s1).framesToGo = some 1667 ∧ (t.screen .s1).nStart = some 227 ∧ (t.screen .s1).strikeFrames = some 1440
      ∧ (t.lamp .m2).state = .striking := by decide

/-- 2.11.1: one frame earlier the strike condition does not hold. -/
theorem test_no_strike_2111 :
    ((nextOf (exec (.framePulse .m1 41700 false) (showing 29819))).lamp .m2).state = .dark := by decide

/-- Table 4-3: the duties at setpoint 550, holding duty 96 and gain 8. -/
theorem test_duties_table_4_3 : ([590, 565, 560, 500, 453, 1000, 300].map fun n =>
    ({ LampRec.atPowerOn with arcCount := n }).regulationDuty) = [116, 96, 96, 71, 48, 255, 0] := by decide

/-- 4.6.1: the forecast at the measured rate, at the nominal rate, and the need. -/
theorem test_forecast_461 :
    let l := burning LampRec.atPowerOn
    l.remaining = 6050 ∧ l.forecastNow = 2630 ∧ ({ l with completed := 0 }).forecastNow = 2592 ∧ l.need 31680 = 1440 := by
  decide

/-- 7.4.1: the levels of a fade from 255 to 0 over 400 steps. -/
theorem test_fade_741 : ([1, 2, 100, 200, 399, 400].map fun k => fadeLevel 255 0 k 400) = [255, 254, 192, 128, 1, 0] := by
  decide

/-- Table 7-5: the delays at a half-cycle of 10,000 µs. -/
theorem test_delays_table_7_5 : ([255, 180, 153, 128, 90, 1, 0].map (firingDelay 10000))
    = [some 100, some 5018, some 6400, some 7481, some 8755, some 9700, none] := by decide

/-- 7.6.1: a 60 Hz supply, and a crossing missed. -/
theorem test_mains_761 :
    let s := { booth with lights := { booth.lights with
      crossingRef := true, crossingTimer := some 0, crossings := [8330, 8336, 8333] } }
    let t := nextOf (exec (.zeroCrossing 8334) s)
    let u := nextOf (exec (.zeroCrossing 16666) t)
    t.lights.halfCycle = 8333 ∧ t.lights.valid = true ∧ u.lights.halfCycle = 10417 ∧ u.lights.valid = true := by decide

/-- 5.3.1: an overlapping copy writes the entries as they stood before. -/
theorem test_copy_531 :
    let e := fun (id : String) => (⟨.loaded, none, some { reel1 with reel := txt id }⟩ : Slot)
    let p := (((PlanTable.cleared.set 2 (e "TRLA")).set 4 (e "FEAT1")).set 5 (e "FEAT2")).set 6 (e "FEAT3")
    let t := nextOf (exec (.plancopy (ops "1 2 1 4 5")) { booth with plan := { booth.plan with tables := ⟨p, p⟩ } })
    [t.slot .s1 2, t.slot .s1 3, t.slot .s1 4, t.slot .s1 5, t.slot .s1 6, t.slot .s1 7, t.slot .s1 8]
      = [e "TRLA", Slot.cleared, e "TRLA", Slot.cleared, e "FEAT1", e "FEAT2", e "FEAT3"] := by decide

/-- 9.5: the example of IDENT. -/
theorem test_ident : answerOf (.ident []) booth = txt "OK PINDROW WOLSETT 3100 REV C 2400 S2" := by decide

/-- 9.4: MSTAT 1 before the first RESET BOOTH. -/
theorem test_mstat_reset : answerOf (.mstat (ops "1")) { State.reset with line := booth.line }
    = txt "OK M1 TRIPPED EMPTY - - 0 OFF STOPPED - CLOSED LAMP,FIRE 1200000 - 0" := by decide

/-- 9.5: the example of STATUS, with screen 2 shown as screen 1 is (803 s from frame 12,410 at 41,667 µs). -/
theorem test_status : answerOf (.status []) (onM1 (fun r => { r with average := some 41667 }) (showing 12410))
    = txt "OK 20:40:58 1 SHOWING 0 M1 12410 803 NO 2 IDLE - - - - - CLEAR M1 CLEAR M2 CLEAR M3 CLEAR M4 CLEAR Q 0" := by
  decide

/-- R173: a STATUS that waits for its owner answers what was read at its dispatch; screen 2 not fitted is all hyphens. -/
theorem test_status_read_at_dispatch :
    let s := { booth with straps := { booth.straps with screen2Fitted := false }, line := booth.line.receiveAll (txt "STATUS") }
    let t := nextOf (exec (.receivedCharacter 13#7 false false) s)
    answerOf (.status []) { t with plan := { t.plan with clock := some 0 } }
      = txt "OK UNSET 1 IDLE - - - - - - - - - - - - CLEAR M1 CLEAR M2 CLEAR M3 CLEAR M4 CLEAR Q 0" := by decide

end Sys2Proof.Tests

namespace Sys2Proof.Tests

open Sys2Proof Sys2Proof.Machine Host

/-! ### Witnesses: the machine as a whole -/

/-- A booth trip taken while screen 1 shows. -/
def tripped : State := nextOf (exec .loopOpenMeasureExpiry (onFire (fun u => { u with
  loopClosed := false, loopHealthy := none, loopOpenMeasure := some 50000 }) (showing 12410)))

/-- The booth tripped, its loop healthy again for 5 s. -/
def healthy : State := onFire (fun u => { u with
  loopClosed := true, loopHealthy := some 5
  shutters := u.shutters.map fun x => { x with state := .closed, confirm := none, dropSequence := none, dropSnapshot := none } })
  tripped

theorem names_m1 (s : State) : s.namesMachine (txt "1") .m1 := ⟨by decide, rfl⟩
theorem names_m2 (s : State) : s.namesMachine (txt "2") .m2 := ⟨by decide, rfl⟩
theorem names_s1 (s : State) : s.namesScreen (txt "1") .s1 := ⟨by decide, by simp⟩
theorem names_0 : namesSlot (txt "0") 0 := by unfold namesSlot; decide
theorem names_1 : namesSlot (txt "1") 1 := by unfold namesSlot; decide

theorem witness_IdleStepsAndTheQueue :
    (booth.pending = [] ∧ (LineUnit.atPowerOn false).handed = none ∧ booth.line.handed = none ∧ booth.powered = true)
    ∧ (∃ c, ({ booth.line with handed := some (.mstat (ops "1")) } : LineUnit).handed = some c)
    ∧ (∃ t, exec .lineSent booth = .next t)
    ∧ ({ booth with powered := false } : State).powered = false ∧ (∀ p l, Instr.lineSent ≠ .powerOn p l)
    ∧ Instr.lineSent ≠ .powerRemoved :=
  ⟨by decide, ⟨_, rfl⟩, ⟨_, rfl⟩, rfl, by simp, by decide⟩

theorem witness_RefusedCommandChangesNothing :
    booth.powered = true ∧ Instr.refusal? booth (.motor []) = some .form
      ∧ Instr.refusal? booth (.motor (ops "5 ON")) = some .range
      ∧ Instr.refusal? booth (.strike (ops "1")) = some .state
      ∧ Instr.refusal? booth (.thread (ops "1 FEAT1")) = some .notFound := by decide

theorem witness_BoothLaw : BoothLaw (showing 12410) := by
  refine ⟨fun m => ?_, fun m => ?_, fun m => ?_, fun m => ?_, fun h => absurd h (by decide)⟩
  · cases m <;> constructor <;> decide
  · cases m <;> constructor <;> decide
  · cases m <;> intro h <;> exact absurd h (by decide)
  · cases m <;> intro _ <;> constructor <;> decide

theorem witness_BoothLaw_tripped : BoothLaw tripped := by
  refine ⟨fun m => ?_, fun m => ?_, fun m => ?_, fun m => ?_, fun _ m => ?_⟩
  · cases m <;> constructor <;> decide
  · cases m <;> constructor <;> decide
  · cases m <;> intro _ <;> constructor <;> decide
  · cases m <;> intro h <;> exact absurd h (by decide)
  · cases m <;> decide

/-- An open douser, and a latched machine, after a step. -/
theorem witness_OutputsAreSafe :
    (∃ t, step (showing 12410) = .next t ∧ (t.machine .m1).douser = .opened)
    ∧ ∃ t, step tripped = .next t ∧ t.fire.boothLatch.isSome = true ∧ (t.fire.machineLatch.get .m1).isSome = true :=
  ⟨⟨_, rfl, by decide⟩, _, rfl, by decide, by decide⟩

theorem witness_LightsLaw : LightsLaw (showing 12410) := by
  refine ⟨by decide, fun sc c => ?_, fun sc c => ?_, fun h => absurd h (by decide)⟩
  · have e : (showing 12410).circuit sc c = { Circuit.atPowerOn with claims := ⟨none, none, none, none⟩ } := by
      cases sc <;> cases c <;> rfl
    rw [e]
    exact ⟨fun r x h => absurd h (by simp [ClaimTable.top]), fun _ => by decide, fun r x _ h => by cases r <;> exact absurd h (by simp [ClaimTable.get]), by decide, by decide, fun x h => absurd h (by simp)⟩
  · cases sc <;> cases c <;> decide

theorem witness_FireLaw : FireLaw (showing 12410).fire := by
  refine ⟨fun m => ?_, fun m => ?_, by decide, by decide, fun i r h => ?_, by decide, by decide, fun h => absurd h (by decide)⟩
  · cases m <;> constructor <;> decide
  · cases m <;> constructor <;> decide
  · exact absurd h (by simp [showing, booth, FireUnit.atPowerOn])

/-- The line unit while it sends one report, with another waiting. -/
def sending : LineUnit := ((LineUnit.atPowerOn false).report (.exhaust .m1)).answer (.ok [])

theorem witness_LineLaw : LineLaw sending := by
  constructor <;> first
    | decide
    | (intro r o h; cases h; decide)
    | (intro h; exact absurd h (by decide))

theorem witness_slot (n : SlotIx) : (showing 12410).slot .s2 n = Slot.cleared := by
  show PlanTable.cleared[n] = _
  unfold PlanTable.cleared
  exact Vector.getElem_replicate _

theorem witness_PlanLaw : PlanLaw (showing 12410) where
  slot sc n := by
    cases sc
    · have h : ∀ n : SlotIx, ((showing 12410).slot .s1 n).entry.isSome = (((showing 12410).slot .s1 n).status != .empty)
          ∧ ((showing 12410).slot .s1 n).bound.isSome = (((showing 12410).slot .s1 n).status == .bound) := by decide
      exact ⟨(h n).1, (h n).2⟩
    · rw [witness_slot]; exact ⟨rfl, rfl⟩
  toMachine sc n m := by
    cases sc
    · revert n; cases m <;> decide
    · rw [witness_slot]; intro h; exact absurd h (by simp [Slot.cleared])
  toSlot m n := by cases m <;> revert n <;> decide
  length m := by cases m <;> decide
  reel m := by cases m <;> decide
  empty m := by cases m <;> decide

/-- A state with the plan of `showing`, the same bindings and the same empty machines. -/
theorem planLaw_of_showing {s : State} (ht : s.plan.tables = (showing 12410).plan.tables)
    (hm : ∀ m, (s.machine m).boundSlot = ((showing 12410).machine m).boundSlot
      ∧ (s.machine m).reelId = ((showing 12410).machine m).reelId
      ∧ ((s.machine m).state = .empty → ((showing 12410).machine m).state = .empty))
    (hl : ∀ m, (s.lamp m).boundLength = ((showing 12410).lamp m).boundLength) : PlanLaw s := by
  have h := witness_PlanLaw
  have hs : ∀ sc n, s.slot sc n = (showing 12410).slot sc n := fun sc n => by
    show (s.plan.tables.get sc)[n] = ((showing 12410).plan.tables.get sc)[n]
    rw [ht]
  have hb : ∀ m, s.boundLength m = (showing 12410).boundLength m := fun m => by
    unfold State.boundLength State.boundEntry
    rw [(hm m).1]
    simp only [hs]
  refine ⟨fun sc n => hs sc n ▸ h.slot sc n, fun sc n m => ?_, fun m n => ?_, fun m => ?_, fun m => ?_, fun m e => ?_⟩
  · rw [hs, (hm m).1]; exact h.toMachine sc n m
  · rw [hs, (hm m).1]; exact h.toSlot m n
  · rw [hl, hb]; exact h.length m
  · rw [(hm m).1, (hm m).2.1]; exact h.reel m
  · rw [(hm m).1, (hm m).2.1]; exact h.empty m ((hm m).2.2 e)

/-- M2 is ARMED and every item of the condition stands; the other machines are not, and not all items stand. -/
theorem witness_ArmedLaw : ArmedLaw (showing 12410) := by
  refine ⟨fun m => ?_, fun m => ?_, fun m => ?_⟩ <;> cases m <;> decide

theorem witness_ArmedConditionKept : BoothLaw (showing 12410) ∧ PlanLaw (showing 12410) ∧ ArmedLaw (showing 12410)
    ∧ ((showing 12410).machine .m2).state = .armed ∧ ∃ t, step (showing 12410) = .next t :=
  ⟨witness_BoothLaw, witness_PlanLaw, witness_ArmedLaw, rfl, _, rfl⟩

theorem witness_EntriesLaw : EntriesLaw (showing 12410) := by
  intro sc n e h
  cases sc
  · have key : ∀ n : SlotIx, ((showing 12410).slot .s1 n).entry = none ∨ ((showing 12410).slot .s1 n).entry = some reel1
        ∨ ((showing 12410).slot .s1 n).entry = some reel2 := by decide
    have law : EntryLaw reel1 ∧ EntryLaw reel2 := by
      constructor <;> exact ⟨by decide, by decide, by decide, by decide, by decide, by decide, by decide, by decide⟩
    rcases key n with k | k | k <;> rw [k] at h <;> cases h
    · exact law.1
    · exact law.2
  · rw [witness_slot] at h; exact absurd h (by simp [Slot.cleared])

/-- Just after a swap with the widest overlap, a frame pulse of the ON_SCREEN machine waiting. -/
def mixing : State := { onScreen1 (fun x => { x with mixer := .both, overlap := 12, overlapLeft := 12 }) (showing 12410) with
  pending := [.framePulse .m1 41700 false] }

theorem witness_ScreensLaw : ScreensLaw mixing where
  screen sc := by
    cases sc <;> constructor <;> first
      | decide
      | (intro n h; exact absurd h (by simp [mixing, onScreen1, State.screen, Pair.get, showing, booth, State.reset,
          Pair.same, ScreenRec.atPowerOn]))
  machine m := by cases m <;> decide
  fault sc c := by cases sc <;> cases c <;> decide

/-- A frame pulse of the ON_SCREEN machine while BOTH stands, in all the laws that the statement asks for. -/
theorem witness_ScreensLawKept : BoothLaw mixing ∧ PlanLaw mixing ∧ EntriesLaw mixing ∧ ScreensLaw mixing
    ∧ ∃ t, step mixing = .next t :=
  ⟨⟨witness_BoothLaw.machine, witness_BoothLaw.lamp, witness_BoothLaw.latched, witness_BoothLaw.unlatched,
      fun h => absurd h (by decide)⟩,
    planLaw_of_showing rfl (fun m => by cases m <;> exact ⟨rfl, rfl, id⟩) fun _ => rfl, witness_EntriesLaw,
    witness_ScreensLaw, _, rfl⟩

/-- A decoder of each state, its counts at the ends of their ranges, and a full deferred queue. -/
theorem witness_DecodersLaw : DecodersLaw { showing 12410 with decoders :=
    ⟨{ DecoderRec.atPowerOn with decode := .patch, patchCount := 7, patchLength := 24 },
      { DecoderRec.atPowerOn with decode := .gap, patchCount := 1, gapFrames := 7, deferred := [⟨.c3, 1⟩, ⟨.c6, 9⟩] },
      { DecoderRec.atPowerOn with decode := .skip }, DecoderRec.atPowerOn⟩ } := by
  intro m; cases m <;> constructor <;> decide

theorem witness_steps : ∃ t, step (showing 12410) = .next t := ⟨_, rfl⟩

/-- RESET BOOTH clears the booth latch and the machine latches, energizes the magnets and releases the machines. -/
theorem witness_OnlyResetsReleaseTheBooth :
    let t := nextOf (exec (.resetBooth []) healthy)
    healthy.fire.boothLatch.isSome = true ∧ t.fire.boothLatch = none
      ∧ (healthy.fire.machineLatch.get .m1).isSome = true ∧ t.fire.machineLatch.get .m1 = none
      ∧ (healthy.fire.shutters.get .m1).magnet = false ∧ (t.fire.shutters.get .m1).magnet = true
      ∧ (healthy.machine .m1).state = .tripped ∧ (t.machine .m1).state = .threaded := by decide

theorem witness_ShowCommandsStayInTheirFrame :
    ((showing 12410).machine .m1).state.running = true
    ∧ (∃ t, exec (.contactorFailure .m1) (showing 12410) = .next t) ∧ ∃ t, exec (.stall .m1) (showing 12410) = .next t :=
  ⟨by decide, ⟨_, rfl⟩, _, rfl⟩

theorem witness_ScreensAreIndependent :
    Instr.fieldScreen? (.framePulse .m1 41700 false) = some .s1 ∧ ScreenId.s2 ≠ .s1 ∧ (showing 12410).powered = true
      ∧ PlanLaw (showing 12410) ∧ (∀ x m, ((showing 12410).screen x).onScreen = some m → screenOf m = x)
      ∧ ∃ t, exec (.framePulse .m1 41700 false) (showing 12410) = .next t :=
  ⟨by decide, by decide, by decide, witness_PlanLaw, by intro x m; cases x <;> cases m <;> decide, _, rfl⟩

end Sys2Proof.Tests

namespace Sys2Proof.Tests

open Sys2Proof Sys2Proof.Machine Host

/-! ### Witnesses: machines and cues -/

/-- A machine record with its motor on, at a full ring. -/
def fast : MachineRec := running (MachineRec.atPowerOn true true) .onScreen 0 99998

theorem witness_FramePulseCountsAndTimes :
    (MachineRec.atPowerOn true true).motor = false ∧ booth.machines.m1.state = .empty
    ∧ fast.state ≠ .empty ∧ fast.frameCount < 99999 ∧ fast.motor = true ∧ fast.pulseRef = true
    ∧ fast.pulse.ring.length = 8 ∧ ({ fast with ring := [] }).pulse.ring.length ≠ 8
    ∧ 99999 ≤ ({ fast with frameCount := 99999 }).frameCount ∧ ({ fast with pulseRef := false }).pulseRef = false := by decide

theorem witness_SpeedEvaluationChangesStatus :
    let a := fun (r : MachineRec) => min 8 (r.inBandRun + 1)
    let b := fun (r : MachineRec) => min 8 (r.outBandRun + 1)
    fast.speed = .atSpeed ∧ b { fast with outBandRun := 6 } = 7 ∧ b { fast with outBandRun := 7 } = 8
    ∧ ({ fast with speed := .offSpeed }).speed = .offSpeed ∧ a { fast with inBandRun := 7 } = 8
    ∧ a { fast with inBandRun := 6 } ≠ 8
    ∧ ({ fast with speed := .accel, state := .starting }).state = .starting
    ∧ ({ fast with speed := .accel, state := .empty }).state ≠ .starting := by decide

/-- Screen 2 is not fitted. -/
def oneScreen (s : State) : State := { s with straps := { s.straps with screen2Fitted := false } }

/-- An unwired machine, and a machine that comes to its length L at this pulse. -/
theorem witness_FramePulseCompletes :
    booth.powered = true ∧ (oneScreen booth).wired .m3 = false ∧ (showing 31679).wired .m1 = true
    ∧ (((showing 31679).elapse 41700).modMachine .m1 MachineRec.pulse).boundLength .m1 = some 31680
    ∧ (((showing 31679).elapse 41700).machine .m1).pulse.state.running = true
    ∧ 31680 ≤ (((showing 31679).elapse 41700).machine .m1).pulse.frameCount := by decide

/-- Screen 1 shows a last reel on M1, at the first frame of its runout tail. -/
def lastReel (f : Nat) : State :=
  let s := showing f
  { s with plan := { s.plan with tables := { s.plan.tables with
      s1 := s.plan.tables.s1.set 0 ⟨.bound, some .m1, some { reel1 with co := none, last := true }⟩ } } }

theorem witness_LoopSwitchStallAndFailureComplete :
    let s := onM1 (fun r => { r with contactorMeasure := some 500000, startMeasure := none }) (showing 31580)
    s.powered = true ∧ (s.machine .m1).state.running = true
    ∧ s.sense .m1 s.straps.loopSwitch false = false ∧ s.tailDue .m1 = false
    ∧ (s.machine .m1).contactorMeasure.isSome = true
    ∧ (s.machine .m1).atSpeedReached = true ∧ (s.machine .m1).pulseMeasure.isSome = true
    ∧ (onM1 (fun r => { r with startMeasure := some 3000000 }) s).machines.m1.startMeasure.isSome = true
    -- the tail, at its first frame
    ∧ (lastReel 31580).boundEntry .m1 = some { reel1 with co := none, last := true }
    ∧ 31680 ≤ ((lastReel 31580).machine .m1).frameCount + 100 ∧ ((lastReel 31580).machine .m1).state = .onScreen
    -- not acted on
    ∧ s.sense .m1 s.straps.loopSwitch true = true ∧ (booth.machine .m1).state.running = false := by decide

/-- M1 EMPTY in a lace-up run. -/
def lacing : State := onM1 (fun r => { r with
  motor := true, laceUp := true, speed := .accel, holds := { r.holds with speed := true }, contactorMeasure := some 0
  startMeasure := some 0, accelTimer := some 0, framesSinceOn := 24 }) booth

theorem witness_MotorAndContactorComplete :
    lacing.powered = true ∧ (lacing.machine .m1).state = .empty ∧ (lacing.machine .m1).laceUp = true
    ∧ (lacing.machine .m1).motor = true ∧ (lacing.machine .m1).contactorMeasure.isSome = true
    ∧ (onM1 (fun r => { r with noPulseTimer := some 0 }) booth).machines.m1.noPulseTimer.isSome = true
    ∧ (booth.machine .m1).state = .empty ∧ (booth.machine .m1).motor = false
    ∧ (tripped.machine .m1).state = .tripped ∧ ((showing 0).machine .m1).state ≠ .empty
    ∧ ((showing 0).machine .m1).state ≠ .tripped := by decide

theorem witness_DouseAndMachineCommandTests_operands :
    (¬ ∃ a w n, ops "1 BACK" = [a, w] ∧ number? a = some n ∧ (w = txt "ON" ∨ w = txt "OFF"))
    ∧ number? (txt "0") = some 0 ∧ number? (txt "5") = some 5 ∧ number? (txt "3") = some 3
    ∧ (oneScreen booth).straps.screen2Fitted = false := by
  refine ⟨?_, by decide, by decide, by decide, rfl⟩
  rintro ⟨a, w, n, h, -, k⟩
  have e : ops "1 BACK" = [txt "1", txt "BACK"] := by decide
  rw [e] at h
  cases h
  rcases k with k | k <;> exact absurd k (by decide)

theorem witness_DouseAndMachineCommandTests : (showing 0).powered = true ∧ (showing 0).namesMachine (txt "1") .m1
    ∧ BoothLaw (showing 12410) := ⟨rfl, names_m1 _, witness_BoothLaw⟩

/-- The line unit has taken STATUS and read its fields, and handed it to its owner. -/
def statusHanded : State := nextOf (exec (.receivedCharacter 13#7 false false)
  { showing 12410 with line := booth.line.receiveAll (txt "STATUS") })

theorem witness_ReadsChangeNothing_status : statusHanded.powered = true ∧ statusHanded.line.handed = some (.status [])
    ∧ (∃ read, statusHanded.line.reading = some (.status read)) ∧ (showing 9).line.handed ≠ some (.status []) :=
  ⟨rfl, by decide, ⟨(showing 12410).statusFields, by decide⟩, by decide⟩

/-- The inquiries' operands: a machine, a screen, a slot, a scene, a code, and an incident of the log. -/
theorem witness_inquiries : (showing 0).powered = true ∧ (showing 0).namesMachine (txt "1") .m1
    ∧ (showing 0).namesScreen (txt "1") .s1 ∧ namesSlot (txt "0") 0 ∧ namesScene (txt "7") 7
    ∧ number? (txt "6") = some 6 ∧ effectOf? 6 = some .c6 ∧ number? (txt "1") = some 1
    ∧ (∃ r, tripped.fire.log[1 - 1]? = some r) :=
  ⟨rfl, names_m1 _, names_s1 _, names_0, by unfold namesScene; decide, by decide, by decide, by decide, _, rfl⟩

theorem witness_CueGroupsAreReadAndTested :
    DecoderRec.atPowerOn.decode = .idle ∧ (1 ≤ 24 ∧ 24 ≤ 24) ∧ (∀ p ∈ [(7, 24), (1, 1)], 1 ≤ p.1 ∧ p.1 ≤ 7 ∧ 1 ≤ p.2 ∧ p.2 ≤ 24)
    ∧ lacing.wired .m1 = true ∧ (lacing.screen .s1).onScreen ≠ some .m1 ∧ (lacing.machine .m1).laceUp = true
    ∧ (DecoderRec.atPowerOn.sample false).2 = .quiet
    ∧ ({ DecoderRec.atPowerOn with decode := .patch, patchCount := 1, patchLength := 24 }.sample true).2 = .splice
    ∧ ({ DecoderRec.atPowerOn with decode := .gap, patchCount := 7, gapFrames := 7 }.sample false).2 = .closed 7 := by
  decide

/-- R45, R46, R43 outside a lace-up run: each outcome of the sample, the motor OFF, and the pulse that ends the reel. -/
theorem witness_CueGroupsAreReadAndTested_disposed :
    let s := showing 9
    s.powered = true ∧ s.wired .m1 = true ∧ (s.machine .m1).laceUp = false ∧ (s.machine .m1).motor = true
    ∧ ((s.elapse 41700).modMachine .m1 MachineRec.pulse).atReelEnd .m1 = false
    ∧ ((showing 31679).elapse 41700 |>.modMachine .m1 MachineRec.pulse).atReelEnd .m1 = true
    ∧ (s.wired .m2 = true ∧ (s.machine .m2).laceUp = false ∧ (s.machine .m2).motor = false
      ∧ ((s.elapse 41700).modMachine .m2 MachineRec.pulse).atReelEnd .m2 = false)
    ∧ ({ DecoderRec.atPowerOn with decode := .gap, patchCount := 6, gapFrames := 7 }.sample false).2 = .closed 6 ∧ 6 < 7 := by
  decide

/-- The window ends: G = N_start + 240, CO − W and CO + W are within it, and one frame further is not. -/
theorem witness_CodesAreDisposedOf :
    let s := onM1 (fun r => { r with average := some 41682 }) (showing 31021)
    let d := onM2 (fun r => { r with state := .runup }) s
    (s.machine .m1).state = .onScreen ∧ (s.machine .m2).state ≠ .onScreen ∧ s.successorWithCo .s1 = true
    ∧ booth.successorWithCo .s1 = false ∧ (onM1 (fun r => { r with state := .onScreen }) booth).machines.m1.state = .onScreen
    ∧ s.currentEntry .s1 = some reel1 ∧ reel1.co = some 31488 ∧ reel1.mode = .film
    ∧ s.startPoint .s1 .m1 = some 227 ∧ 0 < 31488 - 31021 ∧ 31488 - 31021 ≤ 227 + 240 ∧ 227 + 240 < 31488 - 31020
    ∧ 31488 - reel1.window ≤ 31440 ∧ 31536 ≤ 31488 + reel1.window ∧ 31439 < 31488 - reel1.window
    ∧ (d.machine .m2).state = .runup ∧ (d.decoder .m2).deferred.length < 2
    ∧ 2 ≤ ({ DecoderRec.atPowerOn with deferred := [⟨.c3, 1⟩, ⟨.c4, 2⟩] }).deferred.length
    ∧ (s.machine .m2).state ≠ .runup := by decide

/-- A current slot in cue mode FOOT. -/
theorem witness_CodesAreDisposedOf_foot :
    let s := showing 31021
    let w := { s with plan := { s.plan with tables := { s.plan.tables with
      s1 := s.plan.tables.s1.set 0 ⟨.bound, some .m1, some { reel1 with mode := .foot }⟩ } } }
    w.currentEntry .s1 = some { reel1 with mode := .foot } ∧ w.successorWithCo .s1 = true := by decide

/-- Written lists: values above their limits, and the last scene number there is; a doubly refused line and one refused for
its scene number alone. -/
theorem witness_CuemapWritesTheList :
    booth.namesScreen (txt "1") .s1 ∧ number? (txt "3") = some 3 ∧ effectOf? 3 = some .c3 ∧ effectOf? 6 = some .c6
    ∧ [ops "SCENE 7 601", ops "LEVEL ALL 256 600", ops "SOUND 16"] ≠ []
    ∧ [ops "SCENE 7 601", ops "LEVEL ALL 256 600", ops "SOUND 16"].length ≤ 3
    ∧ ops "SCENE 7 601" = [txt "SCENE", txt "7", txt "601"] ∧ number? (txt "7") = some (7 : Fin 8).val
    ∧ number? (txt "601") = some 601 ∧ circuitOperand? (txt "ALL") = some none ∧ number? (txt "16") = some 16
    ∧ number? (txt "9X") = none ∧ number? (txt "0") = some 0 ∧ number? (txt "8") = some 8
    ∧ ([ops "SCENE 8 0"]).flatten = ops "SCENE 8 0" :=
  ⟨names_s1 _, by decide, by decide, by decide, by decide, by decide, by decide, by decide, by decide, by decide, by decide,
    by decide, by decide, by decide, by decide⟩

/-! ### One step: machines and cues -/

theorem test_frame_pulse_reel_end :
    let t := nextOf (exec (.framePulse .m1 41700 false) (lastReel 31679))
    (t.machine .m1).state = .stopped ∧ (t.machine .m1).frameCount = 31680 ∧ (t.screen .s1).state = .idle := by decide

theorem test_loop_switch_open_breaks :
    let t := nextOf (exec (.loopSwitchOpen .m1 false) (showing 12410))
    (t.machine .m1).state = .broken ∧ (t.machine .m1).breakCause = some .loop ∧ (t.screen .s1).state = .dark
      ∧ (t.slot .s1 0).status = .cut := by decide

theorem test_stall_needs_its_measure :
    ((nextOf (exec (.stall .m1) (onM1 (fun r => { r with pulseMeasure := none }) (showing 9)))).machine .m1).state = .onScreen
    ∧ ((nextOf (exec (.stall .m1) (showing 9))).machine .m1).breakCause = some .stall := by decide

theorem test_contactor_sense_opens :
    ((nextOf (exec (.contactorSenseChange .m1 false) (showing 9))).machine .m1).contactorMeasure = some 0 := by decide

theorem test_contactor_failure_in_lace_up :
    let t := nextOf (exec (.contactorFailure .m1) lacing)
    (t.machine .m1).state = .empty ∧ (t.machine .m1).motor = false
      ∧ t.line.transmitter = some ⟨.report (.broke .m1 .contactor 0), 1⟩ := by decide

theorem test_no_pulse_stops :
    ((nextOf (exec (.noPulseTimerExpiry .m1) (onM1 (fun r => { r with noPulseTimer := some 500000, speed := .atSpeed })
      booth))).machine .m1).speed = .stopped := by decide

theorem test_motor_on : let t := nextOf (exec (.motor (ops "2 ON")) booth)
    (t.machine .m2).motor = true ∧ (t.machine .m2).speed = .accel ∧ (t.machine .m2).holds.speed = true := by decide

theorem test_motor_refused_tripped : answerOf (.motor (ops "1 ON")) { tripped with line := booth.line } = txt "NO TRIP" := by decide

theorem test_douse_closes_the_picture : let t := nextOf (exec (.douse (ops "1 CLOSE")) (showing 9))
    (t.machine .m1).douser = .closed ∧ (t.machine .m1).douserRequest = .opened
      ∧ ((nextOf (exec (.douse (ops "1 OPEN")) t)).machine .m1).douser = .opened := by decide

theorem test_cuemap : ((nextOf (exec (.cuemap (ops "1 3 SCENE 1 20 SOUND 5")) booth)).screen .s1).cueTable.get .c3
    = [.scene 1 20, .sound 5] ∧ answerOf (.cuemap (ops "1 5")) booth = txt "OK NOTE" := by decide

/-- R55: limits applied, and the two refusals. -/
theorem test_cuemap_limits : ((nextOf (exec (.cuemap (ops "1 3 LEVEL ALL 256 601 SOUND 16")) booth)).screen .s1).cueTable.get .c3
    = [.level none 255 600, .sound 15] ∧ answerOf (.cuemap (ops "1 3 SCENE 8 0")) booth = txt "NO RANGE"
    ∧ answerOf (.cuemap (ops "1 3 NONE NOTE")) booth = txt "NO FORM" := by decide

end Sys2Proof.Tests

namespace Sys2Proof.Tests

open Sys2Proof Sys2Proof.Machine Host

/-! ### Witnesses: lamps and the plan -/

/-- A lamp in a phase of a strike, its gate running. -/
def striking (p : StrikePhase) : LampRec :=
  { LampRec.atPowerOn with trim := 400, attempt := 1, state := .striking, phase := some p, contactorClosed := true, gate := some 0 }

theorem witness_StrikeAndBurningGates :
    (striking .feed).state = .striking ∧ (striking .feed).gate.isSome = true ∧ (striking .feed).phase = some .feed
    ∧ (50 ≤ 50 ∧ 50 < 51) ∧ (striking .prove).phase = some .prove ∧ (1000 ≤ 1000 ∧ 999 < 1000)
    ∧ ({ striking .prove with proveGates := 1 }).proveGates + 1 < 3 ∧ 3 ≤ ({ striking .prove with proveGates := 2 }).proveGates + 1
    ∧ ({ striking .feed with gate := none }).gate = none ∧ ({ striking .feed with restrike := true }).restrike = true
    ∧ (striking .feed).attempt < 3 ∧ 3 ≤ ({ striking .feed with attempt := 3 }).attempt
    ∧ ({ striking .feed with touchMeasure := some 5000000 }).touchMeasure.isSome = true
    ∧ ({ striking .retract with retractMeasure := some 300000 }).retractMeasure.isSome = true
    ∧ ({ striking .pause with pauseMeasure := some 2000000 }).pauseMeasure.isSome = true
    -- a gate late for the touch measure
    ∧ ({ LampRec.atPowerOn with lateGate := true }).gate = none
    ∧ ({ striking .feed with touchMeasure := some 5000000 }).touchExpires.1.lateGate = true
    -- BURNING, at the third gate of each run and before it
    ∧ (burning LampRec.atPowerOn).state = .burning ∧ (burning LampRec.atPowerOn).gate.isSome = true
    ∧ (min 1500 200 ≤ 200 ∧ 1000 ≤ min 1500 1000 ∧ ¬ min 1500 201 ≤ 200 ∧ ¬ 1000 ≤ min 1500 999)
    ∧ 3 ≤ ({ burning LampRec.atPowerOn with shortGapRun := 2 }).shortGapRun + 1
    ∧ 3 ≤ ({ burning LampRec.atPowerOn with arcOutRun := 2 }).arcOutRun + 1
    ∧ ({ burning LampRec.atPowerOn with shortGapRetract := some 0 }).shortGapRetract.isSome = true := by decide

theorem witness_FeedRegulation :
    let l := burning LampRec.atPowerOn
    l.gate.isSome = true ∧ l.state = .burning ∧ ¬ (min 1500 565 ≤ 200 ∧ 3 ≤ l.shortGapRun + 1)
    ∧ ¬ (1000 ≤ min 1500 565 ∧ 3 ≤ l.arcOutRun + 1)
    ∧ (min 1500 200 ≤ 200 ∧ 3 ≤ ({ l with shortGapRun := 2 }).shortGapRun + 1)
    ∧ (1000 ≤ min 1500 1000 ∧ 3 ≤ ({ l with arcOutRun := 2 }).arcOutRun + 1)
    ∧ (striking .prove).state = .striking ∧ (striking .prove).phase = some .prove := by decide

theorem witness_LampEventsComplete :
    booth.powered = true ∧ ((burning LampRec.atPowerOn).takeGate 565).1.state ≠ .dark
    ∧ ((burning LampRec.atPowerOn).takeGate 565).2 = .quiet
    ∧ ({ striking .feed with attempt := 3, touchMeasure := some 5000000 }).touchExpires.2 = .failed .strike
    ∧ (({ striking .prove with restrike := true }).takeGate 1000).2 = .failed .arcOut
    ∧ (({ striking .prove with proveGates := 2 }).takeGate 999).2 = .struck (some 1) ∧ booth.reelTime .m1 = none := by decide

theorem witness_CarbonAccount :
    let l := { LampRec.atPowerOn with trim := 600, stub := 20, nominalRate := 20 }
    l.trim ≤ 600 ∧ 20 ≤ l.stub ∧ LampRec.atPowerOn.trim = 0 ∧ l.remaining ≤ 11600 ∧ 20 ≤ l.nominalRate
    ∧ ¬ (l.completed = 6 ∧ 0 < l.buckets.sum)
    ∧ ({ l with completed := 6, buckets := [5, 1, 1, 1, 1, 1] }).recompute.forecast = 65535
    ∧ (20 ≤ ({ l with strikeLead := 20, reserve := 300 }).strikeLead ∧ ({ l with reserve := 300 }).reserve ≤ 300)
    ∧ (1 ≤ 1 ∧ 99999 ≤ 99999) := by decide

theorem witness_CarbonEventsComplete :
    let last := onLamp1 (fun l => { l with consumed := 7199 }) (showing 9)
    let u := (last.lamp .m1).encoderPulse true
    last.powered = true ∧ last.wired .m1 = true ∧ (oneScreen booth).wired .m4 = false
    ∧ last.sense .m1 last.straps.encoderDirection true = true ∧ u.remaining = 0 ∧ (last.lamp .m1).state = .burning
    ∧ (((showing 9).lamp .m1).encoderPulse true).remaining ≠ 0 ∧ ((showing 9).lamp .m1).state ≠ .dark
    ∧ ((showing 9).lamp .m1).bucketMeasure.isSome = true
    ∧ ¬ ((booth.lamp .m1).state = .burning ∧ (booth.lamp .m1).bucketMeasure.isSome = true) := by decide

/-- R79: an entry of 31,680 frames at frame 20,000, a forecast of 478 below the 487 s left and one of 487 that is not; a lamp
at its third PROVE gate, and a LAMPSET that leaves carbon. -/
theorem witness_CarbonEventsComplete_shortfall :
    let s := onM1 (fun r => { r with average := some 41682 })
      (onLamp1 (fun l => { l with consumed := 6100, openBucket := some 23 }) (showing 20000))
    let p := onLamp1 (fun _ => { striking .prove with proveGates := 2 }) s
    s.reelTime .m1 = some 487 ∧ (s.lamp .m1).bucketExpires.forecast = 478 ∧ (s.lamp .m1).shortfallReported = false
    ∧ ¬ ({ s.lamp .m1 with forecast := 487 }).forecast < 487
    ∧ (s.lamp .m1).state = .burning ∧ (s.lamp .m1).bucketMeasure.isSome = true
    ∧ (∃ x, LampSettings.empty.takeAll [txt "SET=400"] = .ok x ∧ x.inRange = true ∧ ((s.lamp .m1).withSettings x).remaining ≠ 0)
    ∧ p.reelTime .m1 = some 487 ∧ (p.lamp .m1).state = .striking ∧ (p.lamp .m1).phase = some .prove
    ∧ (p.lamp .m1).gate.isSome = true ∧ 3 ≤ (p.lamp .m1).proveGates + 1 ∧ p.wired .m1 = true ∧ 999 < 1000 :=
  ⟨by decide, by decide, by decide, by decide, by decide, by decide,
    ⟨⟨some 400, none, none, none, none, none, none⟩, by decide, by decide, by decide⟩, by decide, by decide, by decide,
    by decide, by decide, by decide, by decide⟩

theorem witness_StrikeAndLampCommandsComplete :
    let s := showing 9
    s.powered = true ∧ (s.machine .m2).holds.fire = false ∧ (s.lamp .m2).state = .dark ∧ (s.lamp .m2).remaining ≠ 0
    ∧ (tripped.machine .m1).holds.fire = true ∧ (s.lamp .m1).state ≠ .dark ∧ (booth.lamp .m1).remaining = 0
    ∧ s.waitedOn .s1 ≠ some .m1 ∧ (s.lamp .m1).state = .burning
    ∧ (onLamp2 (fun _ => striking .feed) s).lamps.m2.state = .striking
    ∧ (onLamp2 (fun l => { l with state := .fault, faultCause := some .strike }) s).lamps.m2.state = .fault
    ∧ number? (txt "50") = some 50 ∧ number? (txt "600") = some 600 ∧ number? (txt "49") = some 49
    ∧ number? (txt "601") = some 601 ∧ (s.lamp .m2).contactorClosed = false ∧ (s.lamp .m2).state ≠ .striking
    ∧ (s.lamp .m1).contactorClosed = true := by decide

/-- A LAMPSET by which a burning lamp, and a striking one, has no carbon left; and the refusals of LAMPSET. -/
theorem witness_StrikeAndLampCommandsComplete_exhausted :
    let s := onLamp1 (fun l => { l with consumed := 6000 }) (showing 9)
    (∃ x, LampSettings.empty.takeAll [txt "STUB=100"] = .ok x ∧ x.inRange = true ∧ ((s.lamp .m1).withSettings x).remaining = 0
      ∧ ((s.lamp .m1).remaining ≠ 0 ∧ (s.lamp .m1).state = .burning)
      ∧ ({ striking .feed with consumed := 6000 }.withSettings x).remaining = 0)
    ∧ ((keyValue? (txt "FOO=1")).map Prod.fst = some (txt "FOO")
      ∧ txt "FOO" ∉ [txt "SET", txt "HOLD", txt "GAIN", txt "RATE", txt "STUB", txt "LEAD", txt "RES"])
    ∧ ¬ ([txt "SET=500", txt "SET=600"].filterMap fun w => (keyValue? w).map Prod.fst).Nodup
    ∧ (∃ x, LampSettings.empty.takeAll [txt "SET=399"] = .ok x ∧ x.inRange = false) :=
  ⟨⟨⟨none, none, none, none, some 100, none, none⟩, by decide, by decide, by decide, by decide, by decide⟩, by decide,
    by decide, ⟨⟨some 399, none, none, none, none, none, none⟩, by decide, by decide⟩⟩

/-- The operand tests of the lamp commands (R80): no number, a number out of its range, screen 2 not fitted. -/
theorem witness_StrikeAndLampCommandsComplete_operands :
    number? (txt "M1") = none ∧ settingForm (txt "SET") = false ∧ settingForm (txt "SET=1") = true
    ∧ number? (txt "0") = some 0 ∧ number? (txt "5") = some 5 ∧ (4 < 5 ∧ 0 < 1) ∧ number? (txt "900") = some 900
    ∧ number? (txt "3") = some 3 ∧ (oneScreen booth).straps.screen2Fitted = false := by decide

theorem witness_Lampset : ∃ x, LampSettings.empty.takeAll [txt "SET=400", txt "RES=300"] = .ok x ∧ x.inRange = true
    ∧ ¬ ((((showing 9).lamp .m1).withSettings x).remaining = 0
      ∧ (((showing 9).lamp .m1).state = .burning ∨ ((showing 9).lamp .m1).state = .striking)) :=
  ⟨⟨some 400, none, none, none, none, none, some 300⟩, by decide, by decide, by decide⟩

theorem witness_PlanEntriesAreWritten :
    let p := (PlanTable.cleared.set 4 ⟨.loaded, none, some reel1⟩).set 6 ⟨.bound, some .m2, some reel2⟩
    let s := { booth with plan := { booth.plan with tables := ⟨p, p⟩ } }
    s.powered = true ∧ s.frozen .s1 0 = false ∧ (s.slot .s1 0).status ≠ .bound ∧ (showing 9).frozen .s1 0 = true
    ∧ (s.slot .s1 6).status = .bound ∧ isReelId (txt "FEAT1") = true ∧ EntryLaw reel1
    -- ranges at their ends, a count of 0, a frozen slot and a BOUND slot within one
    ∧ (0 ≤ 23 ∧ 24 ≤ 24 ∧ 0 + 24 ≤ 24) ∧ ¬ (1 ≤ 23 ∧ 24 ≤ 24 ∧ 1 + 24 ≤ 24) ∧ (23 ≤ 23 ∧ 0 ≤ 24 ∧ 23 + 0 ≤ 24)
    ∧ (∃ n : SlotIx, (0 ≤ n.val ∧ n.val < 0 + 1) ∧ (showing 9).frozen .s1 n = true)
    ∧ (∀ n : SlotIx, 3 ≤ n.val ∧ n.val < 3 + 4 → s.frozen .s1 n = false)
    ∧ (∃ n : SlotIx, (3 ≤ n.val ∧ n.val < 3 + 4) ∧ (s.slot .s1 n).status = .bound)
    ∧ (∀ n : SlotIx, 3 ≤ n.val ∧ n.val < 3 + 3 → (s.slot .s1 n).status ≠ .bound) := by
  refine ⟨by decide, by decide, by decide, by decide, by decide, by decide, ?_, by decide, by decide, by decide, ⟨0, by decide⟩,
    by decide, ⟨6, by decide⟩, by decide⟩
  exact ⟨by decide, by decide, by decide, by decide, by decide, by decide, by decide, by decide⟩

theorem witness_ThreadBindsTheReel :
    let p := (PlanTable.cleared.set 4 ⟨.loaded, none, some reel1⟩).set 6 ⟨.loaded, none, some reel1⟩
    let s := { booth with plan := { booth.plan with tables := ⟨p, p⟩ } }
    let named := fun (n : SlotIx) => (s.slot .s1 n).status = .loaded ∧ ((s.slot .s1 n).entry.map SlotEntry.reel) = some (txt "FEAT1")
    (s.machine .m1).state = .empty ∧ (s.machine .m1).motor = false ∧ named 4 ∧ (∀ j : SlotIx, j < 4 → ¬ named j)
    ∧ (s.slot .s1 4).entry = some reel1 ∧ s.nextSlot .s1 ≠ some 6 ∧ (tripped.machine .m1).state = .tripped
    ∧ ((showing 9).machine .m1).state ≠ .empty ∧ (lacing.machine .m1).motor = true
    ∧ (∀ n : SlotIx, ¬ ((booth.slot .s1 n).status = .loaded
        ∧ ((booth.slot .s1 n).entry.map SlotEntry.reel) = some (txt "FEAT1"))) := by decide

theorem witness_UnthreadEmptiesTheMachine :
    ((showing 9).machine .m2).state = .armed ∧ ((showing 9).machine .m2).boundSlot = some 1
    ∧ ((showing 9).machine .m2).motor = false
    ∧ ((onM2 (fun r => { r with state := .broken, breakCause := some .stall, boundSlot := none }) (showing 9)).machine
        .m2).state = .broken
    ∧ (booth.machine .m1).state = .empty ∧ (booth.machine .m1).boundSlot = none ∧ (lacing.machine .m1).state = .empty
    ∧ (tripped.machine .m1).state = .tripped ∧ ((showing 9).machine .m1).state.running = true := by decide

/-- Screen 1 is IDLE over the plan of `showing`, its machines at rest. -/
def idle1 : State :=
  let s := onScreen1 (fun x => { x with state := .idle, current := none, onScreen := none, mixer := .mute }) (showing 0)
  { (onM1 (fun r => { r with state := .threaded, motor := false, speed := .stopped, douserRequest := .closed,
                             douser := .closed, pulseMeasure := none }) s) with
    plan := { s.plan with showAt := ⟨some 0, none⟩, clock := some 86399 } }

theorem witness_ClockAndShowAt :
    let other := { idle1 with fire := { idle1.fire with machineLatch := { idle1.fire.machineLatch with m1 := some .gateHeat } } }
    (9 ≤ 99 ∧ 23 ≤ 23 ∧ 59 ≤ 59 ∧ 23 < 24 ∧ 59 < 60) ∧ idle1.plan.clock.isSome = true ∧ booth.plan.clock = none
    ∧ idle1.plan.clock = some 86399 ∧ (86399 + 1) % 86400 = 0 ∧ idle1.plan.showAt.get .s1 = some 0
    ∧ (∀ x, x ≠ .s1 → idle1.plan.showAt.get x ≠ some 0) ∧ (showing 9).plan.showAt.s1 ≠ some 0
    ∧ ((showing 9).screen .s1).state ≠ .idle ∧ (idle1.screen .s1).state = .idle
    ∧ (∀ n : SlotIx, (booth.slot .s1 n).status.showable = false) ∧ (idle1.slot .s1 0).status.showable = true
    ∧ other.startBlocked .s1 = true ∧ idle1.startBlocked .s1 = false
    ∧ (∀ j : SlotIx, j < 0 → (idle1.slot .s1 j).status.showable = false) := by
  refine ⟨by decide, by decide, by decide, by decide, by decide, by decide, ?_, by decide, by decide, by decide, by decide,
    by decide, by decide, by decide, by decide⟩
  intro x h; cases x
  · exact absurd rfl h
  · decide

/-- R103: the slot's machine THREADED without the ARMED condition, and ARMED with it; and both screens' times at one advance. -/
theorem witness_ClockAndShowAt_cases :
    let ready := { onM1 (fun r => { r with state := .armed, armedPosting := true }) idle1 with
      lamps := { idle1.lamps with m1 := { idle1.lamps.m2 with state := .dark } } }
    let opened := ready.modScreen .s1 (ScreenRec.enterOpening 0)
    let both := { idle1 with plan := { idle1.plan with showAt := ⟨some 0, some 0⟩ } }
    (ready.slot .s1 0).machine? = some .m1 ∧ (ready.machine .m1).state = .armed ∧ opened.armedCondition .m1 = true
    ∧ (idle1.machine .m1).state = .threaded
    ∧ ((onLamp1 (fun l => { l with carbonOk := some false }) idle1).modScreen .s1 (ScreenRec.enterOpening 0)).armedCondition
        .m1 = false
    ∧ both.plan.showAt.s1 = some 0 ∧ both.plan.showAt.s2 = some 0 ∧ PlanLaw both :=
  ⟨by decide, by decide, by decide, by decide, by decide, by decide, by decide,
    planLaw_of_showing rfl (by intro m; cases m <;> decide) (by intro m; cases m <;> decide)⟩

/-! ### One step: lamps and the plan -/

theorem test_arc_gate_touch :
    ((nextOf (exec (.arcGate .m2 50) (onLamp2 (fun _ => striking .feed) (showing 9)))).lamp .m2).phase = some .retract
    ∧ ((nextOf (exec (.arcGate .m2 51) (onLamp2 (fun _ => striking .feed) (showing 9)))).lamp .m2).phase = some .feed := by decide

/-- R65: a gate that ends as the touch measure expires, taken after it, writes its count; one that ends later does not. -/
theorem test_gate_late_for_the_touch_measure :
    let t := nextOf (exec (.touchMeasureExpiry .m2)
      (onLamp2 (fun _ => { striking .feed with touchMeasure := some 5000000 }) (showing 9)))
    ((nextOf (exec (.arcGate .m2 40) t)).lamp .m2).arcCount = 40
      ∧ ((nextOf (exec (.arcGate .m2 40) t)).lamp .m2).phase = some .pause
      ∧ ((nextOf (exec (.arcGate .m2 40) (t.elapse 1))).lamp .m2).arcCount = 0 := by decide

theorem test_touch_expiry_third_attempt : let t := nextOf (exec (.touchMeasureExpiry .m2)
      (onLamp2 (fun _ => { striking .feed with attempt := 3, touchMeasure := some 5000000 }) (showing 9)))
    (t.lamp .m2).state = .fault ∧ (t.lamp .m2).faultCause = some .strike
      ∧ t.line.transmitter = some ⟨.report (.arcOut .m2 .strike), 1⟩ := by decide

theorem test_retract_expiry_proves : let l := (nextOf (exec (.retractMeasureExpiry .m2)
      (onLamp2 (fun _ => { striking .retract with retractMeasure := some 300000, gate := none }) (showing 9)))).lamp .m2
    l.phase = some .prove ∧ l.feedForward = true ∧ l.feedDuty = 96 := by decide

theorem test_pause_expiry_next_attempt :
    let x := { striking .pause with pauseMeasure := some 2000000, contactorClosed := false, gate := none }
    let l := (nextOf (exec (.pauseMeasureExpiry .m2) (onLamp2 (fun _ => x) (showing 9)))).lamp .m2
    l.attempt = 2 ∧ l.phase = some .feed ∧ l.contactorClosed = true := by decide

theorem test_short_gap_retract_expiry : let l := (nextOf (exec (.shortGapRetractExpiry .m1)
      (onLamp1 (fun l => { l with shortGapRetract := some 300000, gate := none }) (showing 9)))).lamp .m1
    l.shortGapRetract = none ∧ l.gate = some 0 ∧ l.feedDuty = 96 := by decide

theorem test_encoder_exhausts : let t := nextOf (exec (.feedEncoderPulse .m1 true)
      (onLamp1 (fun l => { l with consumed := 7199 }) (showing 9)))
    (t.lamp .m1).state = .exhausted ∧ (t.machine .m1).douser = .closed := by decide

/-- 4.6.1: *CARBON with forecast 478 and reel time 487 at frame 20,000. -/
theorem test_bucket_carbon : (nextOf (exec (.bucketMeasureExpiry .m1) (onM1 (fun r => { r with average := some 41682 })
      (onLamp1 (fun l => { l with consumed := 6100, openBucket := some 23 }) (showing 20000))))).line.transmitter
    = some ⟨.report (.carbon .m1 478 487), 1⟩ := by decide

theorem test_strike : answerOf (.strike (ops "2")) (showing 9) = txt "OK" ∧ answerOf (.strike (ops "1")) (showing 9) = txt "NO STATE" := by
  decide

theorem test_arcoff : let t := nextOf (exec (.arcoff (ops "1")) (showing 9))
    (t.lamp .m1).state = .dark ∧ (t.lamp .m1).contactorClosed = false ∧ (t.machine .m1).holds.lamp = true := by decide

theorem test_trim : ((nextOf (exec (.trim (ops "2 600")) (showing 9))).lamp .m2).remaining = 11200
    ∧ answerOf (.trim (ops "2 601")) (showing 9) = txt "NO RANGE" := by decide

theorem test_lampset : let l := (nextOf (exec (.lampset (ops "2 SET=600 STUB=100")) (showing 9))).lamp .m2
    l.setpoint = 600 ∧ l.stub = 100 ∧ l.remaining = 4850 := by decide

/-- R80, R82: m is tested before the keywords. -/
theorem test_lampset_order : ["5 SET=500 SET=600", "2 SET=500 SET=600", "2"].map (fun w => answerOf (.lampset (ops w)) booth)
    = [txt "NO RANGE", txt "NO FORM", txt "NO FORM"] := by decide

theorem test_lstat : answerOf (.lstat (ops "1")) (onLamp1 (fun l => { l with arcCount := 560, feedDuty := 96 }) (showing 9))
    = txt "OK M1 BURNING CLOSED FWD 96 560 400 40 1150 302 138 MEAS 6 2630 31680 YES 550 96 8 140 60 60" := by decide

theorem test_reel : (nextOf (exec (.reel (ops "1 3 TRLA 5000 CO=4999 SCENE=7 NOTE")) booth)).slot .s1 3
    = ⟨.loaded, none, some { reel1 with reel := txt "TRLA", length := 5000, co := some 4999, scene := some 7, note := true }⟩ := by
  decide

theorem test_planclr : (nextOf (exec (.planclr (ops "1 0 2")) booth)).slot .s1 0 = Slot.cleared
    ∧ answerOf (.planclr (ops "1 0 2")) (showing 9) = txt "NO FROZEN" := by decide

theorem test_pstat : answerOf (.pstat (ops "1 1")) (showing 9)
    = txt "OK 1 1 BOUND ONDECK M2 FEAT2 31680 31488 48 192 FILM - - - -" := by decide

theorem test_thread : let t := nextOf (exec (.thread (ops "1 FEAT1"))
      { booth with plan := { booth.plan with tables := ⟨PlanTable.cleared.set 4 ⟨.loaded, none, some reel1⟩, PlanTable.cleared⟩ } })
    (t.machine .m1).boundSlot = some 4 ∧ (t.slot .s1 4).status = .bound ∧ (t.lamp .m1).boundLength = some 31680 := by decide

theorem test_unthread : let t := nextOf (exec (.unthread (ops "2")) (showing 9))
    (t.machine .m2).state = .empty ∧ (t.slot .s1 1).status = .loaded := by decide

/-- R18: UNTHREAD in EMPTY leaves a lace-up run. -/
theorem test_unthread_lacing : (nextOf (exec (.unthread (ops "1")) lacing)).machine .m1 = lacing.machine .m1 := by decide

theorem test_time : (nextOf (exec (.time (ops "23:59:59")) booth)).plan.clock = some 86399
    ∧ answerOf (.time (ops "24:00:00")) booth = txt "NO RANGE" := by decide

theorem test_showat : (nextOf (exec (.showat (ops "1 19:30")) idle1)).plan.showAt.s1 = some 70200
    ∧ answerOf (.showat (ops "1 19:30")) booth = txt "NO STATE" := by decide

theorem test_clock_advance_opens : let t := nextOf (exec (.clockAdvance 1) idle1)
    t.plan.clock = some 0 ∧ (t.screen .s1).state = .opening ∧ t.plan.showAt.s1 = none := by decide

end Sys2Proof.Tests

namespace Sys2Proof.Tests

open Sys2Proof Sys2Proof.Machine Host

/-! ### Witnesses: the changeover controller -/

/-- Screen 1 is DARK over slot 0, its reel gone; M2 waits ARMED. -/
def dark1 : State :=
  onScreen1 (fun x => { x with state := .dark, onScreen := none, mixer := .mute, faultClaim := .dark })
    (onM1 (fun r => { r with state := .stopped, motor := false, boundSlot := none, douserRequest := .closed, douser := .closed })
      { showing 31680 with plan := { (showing 31680).plan with tables :=
          ⟨(table .m1 .m2).set 0 ⟨.shown, none, some reel1⟩, PlanTable.cleared⟩ } })

/-- M1 waits ARMED with the next slot of an IDLE screen 1. -/
def ready1 : State :=
  { onM1 (fun r => { r with state := .armed, armedPosting := true }) idle1 with
    lamps := { idle1.lamps with m1 := { idle1.lamps.m2 with state := .dark } } }

theorem witness_StartOpensTheScreen :
    (ready1.screen .s1).state = .idle ∧ ready1.startBlocked .s1 = false ∧ (ready1.slot .s1 0).status.showable = true
    ∧ (∀ j : SlotIx, j < 0 → (ready1.slot .s1 j).status.showable = false)
    ∧ (ready1.slot .s1 0).status = .bound ∧ (ready1.slot .s1 0).bound = some .m1 ∧ (ready1.machine .m1).state = .armed
    ∧ (ready1.modScreen .s1 (ScreenRec.enterOpening 0)).armedCondition .m1 = true ∧ (ready1.lamp .m1).state = .dark
    ∧ (ready1.lamp .m1).remaining ≠ 0 ∧ (onLamp1 burning ready1).lamps.m1.state = .burning
    ∧ (ready1.machine .m1).loopSwitchClosed = true
    ∧ (onM1 (fun r => { r with state := .broken }) ready1).machines.m1.state ≠ .threaded
    ∧ (SlotStatus.loaded).showable = true ∧ ((showing 9).screen .s1).state ≠ .idle
    ∧ ((showing 9).screen .s1).state ≠ .halted ∧ (tripped.screen .s1).state = .halted
    ∧ tripped.startBlocked .s1 = true ∧ (booth.slot .s1 0).status.showable = false
    ∧ (∀ j : SlotIx, (booth.slot .s1 j).status.showable = false) := by decide

/-- R106, R99: the machine of the slot found ARMED, by its posting before and by the one of the opening, and not. -/
theorem witness_StartOpensTheScreen_found :
    let unposted := fun s : State => { s with plan := { s.plan with lastPosting := Quad.same false } }
    let posted := fun s : State => { s with plan := { s.plan with lastPosting := Quad.same true } }
    let threaded := onM1 (fun r => { r with state := .threaded }) ready1
    let off := onLamp1 (fun l => { l with carbonOk := some false })
    (posted ready1).foundArmed .s1 0 .m1 ∧ (unposted threaded).foundArmed .s1 0 .m1
    ∧ ¬ (unposted (off threaded)).foundArmed .s1 0 .m1 ∧ ¬ (posted (off ready1)).foundArmed .s1 0 .m1
    ∧ ¬ (onM1 (fun r => { r with state := .broken }) ready1).foundArmed .s1 0 .m1
    ∧ ((onM1 (fun r => { r with loopSwitchClosed := false }) ready1).machine .m1).loopSwitchClosed = false := by
  unfold State.foundArmed; decide

theorem witness_SwapnowReachesThePoint :
    let none' := onM2 (fun r => { r with state := .threaded, armedPosting := false }) (showing 9)
    ((showing 9).screen .s1).state = .showing ∧ (showing 9).successorWithCo .s1 = true
    ∧ ((showing 9).screen .s1).point = none ∧ ((showing 9).screen .s1).startGiven = false
    ∧ ((showing 9).screen .s1).startPending = false ∧ (showing 9).successor .s1 = some .m2
    ∧ ((showing 9).machine .m2).state = .armed ∧ ((showing 9).machine .m2).loopSwitchClosed = true
    ∧ ((showing 9).lamp .m2).state = .dark ∧ ((showing 9).lamp .m2).remaining ≠ 0 ∧ ((showing 9).machine .m2).holds.fire = false
    ∧ ((onM2 (fun r => { r with loopSwitchClosed := false }) (showing 9)).machine .m2).loopSwitchClosed = false
    ∧ none'.successor .s1 = some .m2 ∧ (none'.machine .m2).state ≠ .armed ∧ (none'.machine .m2).state ≠ .runup
    ∧ none'.successorWithCo .s1 = true
    ∧ (onScreen1 (fun x => { x with point := some .cue }) (showing 9)).screens.s1.point.isSome = true
    ∧ (dark1.screen .s1).state = .dark ∧ dark1.successor .s1 = some .m2 ∧ (dark1.machine .m2).state = .armed
    ∧ (dark1.screen .s1).startGiven = false ∧ (dark1.screen .s1).startPending = false
    ∧ (onM2 (fun r => { r with state := .threaded }) dark1).successor .s1 = some .m2
    ∧ (booth.screen .s1).state = .idle := by decide

/-- R111, R113: the start given already, in RUNUP, and pending, in SHOWING. -/
theorem witness_SwapnowReachesThePoint_started :
    let r := runup 31300 100
    let p := onScreen1 (fun x => { x with startPending := true }) (showing 31300)
    (r.screen .s1).state = .runup ∧ r.successorWithCo .s1 = true ∧ (r.screen .s1).point = none
    ∧ (r.screen .s1).startGiven = true
    ∧ (p.screen .s1).state = .showing ∧ p.successorWithCo .s1 = true ∧ (p.screen .s1).point = none
    ∧ (p.screen .s1).startPending = true := by decide

/-- Screen 1's changeover point is reached, M2 at its run-up. -/
def swapDue : State := onScreen1 (fun x => { x with state := .swapDue, point := some .cue }) (runup 31488 192)

theorem witness_GivingTheScreen :
    let d := onM2 (fun r => { running r .runup 1 192 with reelId := some (txt "FEAT2") }) (onLamp2 burning dark1)
    let o := onScreen1 (fun x => { x with state := .opening, current := some 1, onScreen := none })
      (onM1 (fun r => { r with state := .stopped, boundSlot := none }) (runup 0 192))
    (swapDue.machine .m2).state = .runup ∧ swapDue.swapReady .m2 = true ∧ swapDue.successor .s1 = some .m2
    ∧ (swapDue.screen .s1).state = .swapDue ∧ (swapDue.screen .s1).onScreen = some .m1
    ∧ (swapDue.machine .m1).state = .onScreen
    ∧ (runup 31488 191).swapReady .m2 = false ∧ (runup 31488 191).openReady .m2 = false
    ∧ (swapDue.machine .m2).boundSlot = some 1 ∧ (swapDue.slot .s1 1).entry = some reel2 ∧ reel2.runUp = 192
    ∧ ((showing 9).screen .s1).state ≠ .swapDue ∧ ((showing 9).screen .s1).state ≠ .opening
    ∧ (d.machine .m2).state = .runup ∧ d.swapReady .m2 = true ∧ d.successor .s1 = some .m2 ∧ (d.screen .s1).state = .dark
    ∧ (o.machine .m2).state = .runup ∧ o.swapReady .m2 = true ∧ o.waitedOn .s1 = some .m2
    ∧ (o.screen .s1).state = .opening ∧ (o.screen .s1).startPending = false := by decide

theorem witness_ScreenFollowsItsReel :
    let s := showing 9
    (s.screen .s1).onScreen = some .m1 ∧ (s.screen .s1).current = some 0 ∧ (s.slot .s1 0).entry = some reel1
    ∧ (s.slot .s1 0).status.showable = true ∧ (s.machine .m1).state = .onScreen
    ∧ (s.screen .s1).state.shows = true ∧ s.successor .s1 = some .m2 ∧ (s.screen .s1).startPending = false
    ∧ s.armedCondition .m2 = s.plan.lastPosting.get .m2
    ∧ reel1.last = false ∧ reel1.int = none
    ∧ ({ reel1 with co := none, int := some 0 }).int = some 0 ∧ ({ reel1 with co := none, int := some 30 }).int = some 30
    ∧ ((lastReel 9).slot .s1 0).entry = some { reel1 with co := none, last := true } := by decide

/-- After the swap: M1 in RUNOUT on slot 0, M2 ON_SCREEN with slot 1. -/
def runout1 : State :=
  onScreen1 (fun x => { x with state := .showing, current := some 1, onScreen := some .m2, mixer := .both, overlapLeft := 1
                               startGiven := false })
    (onM1 (fun r => { r with state := .runout, douserRequest := .closed, douser := .closed })
      (onM2 (fun r => { r with state := .onScreen }) (runup 31500 192)))

/-- Screen 1 is OPENING at slot 1, its machine M2 running up. -/
def opening1 : State :=
  onScreen1 (fun x => { x with state := .opening, current := some 1, onScreen := none, mixer := .mute })
    (onM1 (fun r => { r with state := .threaded, motor := false }) (runup 0 192))

/-- R107, R113, R120: the machine waited on in SWAP_DUE, DARK and OPENING; ARMED with its lamp BURNING in OPENING. -/
theorem witness_GivingTheScreen_posted :
    let o := onScreen1 (fun x => { x with startGiven := false }) (onM2 (fun r => { r with state := .armed }) opening1)
    (swapDue.screen .s1).onScreen ≠ some .m2 ∧ (swapDue.screen .s1).state = .swapDue ∧ swapDue.successor .s1 = some .m2
    ∧ (dark1.screen .s1).onScreen ≠ some .m2 ∧ (dark1.screen .s1).state = .dark ∧ dark1.successor .s1 = some .m2
    ∧ (opening1.screen .s1).onScreen ≠ some .m2 ∧ (opening1.screen .s1).state = .opening
    ∧ opening1.waitedOn .s1 = some .m2
    ∧ (o.screen .s1).onScreen ≠ some .m2 ∧ (o.screen .s1).state = .opening ∧ o.waitedOn .s1 = some .m2
    ∧ (o.machine .m2).state = .armed ∧ (o.machine .m2).loopSwitchClosed = true ∧ (o.lamp .m2).state = .burning
    ∧ (o.screen .s1).startGiven = false := by decide

/-- R54, R58: the swap, the recovery and the end of an opening, M2 with two codes held. -/
theorem witness_ActionListsAreExecuted :
    let held := fun s : State => s.modDecoder .m2 fun d => { d with deferred := [⟨.c3, 100⟩, ⟨.c4, 150⟩] }
    let d := held (onM2 (fun r => { running r .runup 1 192 with reelId := some (txt "FEAT2") }) (onLamp2 burning dark1))
    let w := held swapDue
    let o := held opening1
    (w.machine .m2).state = .runup ∧ w.swapReady .m2 = true ∧ w.successor .s1 = some .m2 ∧ (w.screen .s1).state = .swapDue
    ∧ (w.screen .s1).onScreen = some .m1 ∧ (w.machine .m1).state = .onScreen
    ∧ (d.machine .m2).state = .runup ∧ d.swapReady .m2 = true ∧ d.successor .s1 = some .m2 ∧ (d.screen .s1).state = .dark
    ∧ (o.machine .m2).state = .runup ∧ o.openReady .m2 = true ∧ o.waitedOn .s1 = some .m2 ∧ (o.screen .s1).state = .opening
    ∧ (w.decoder .m2).deferred ≠ [] := by decide

/-- R109: an ARMED successor, with its loop switch closed and OPEN, and none. -/
theorem witness_StartsFallDue :
    let s := showing 9
    let n := onM2 (fun r => { r with state := .threaded }) s
    (s.screen .s1).startGiven = false ∧ (s.screen .s1).startPending = false ∧ (s.screen .s1).state = .showing
    ∧ s.successor .s1 = some .m2 ∧ (s.machine .m2).state = .armed ∧ (s.machine .m2).loopSwitchClosed = true
    ∧ (s.machine .m2).motor = false ∧ ((onM2 (fun r => { r with loopSwitchClosed := false }) s).machine .m2).state = .armed
    ∧ (∀ m, n.successor .s1 = some m → (n.machine m).state ≠ .armed) ∧ n.successor .s1 = some .m2
    ∧ ((runup 31300 100).screen .s1).startGiven = true := by decide

/-- R99, R17: the condition of M2 comes to hold, and ceases, in SHOWING with and without a start pending,
in INTERVAL and in OPENING. -/
theorem witness_StartsFallDue_posted :
    let up := fun s : State => (s.machine .m2).state = .threaded ∧ s.armedCondition .m2 = true ∧ s.plan.lastPosting.get .m2 = false
    let s := onM2 (fun r => { r with state := .threaded, armedPosting := false }) { showing 9 with
      plan := { (showing 9).plan with lastPosting := Quad.same false } }
    let p := onScreen1 (fun x => { x with startPending := true }) s
    let o := onScreen1 (fun x => { x with state := .opening, current := some 1, onScreen := none, mixer := .mute }) s
    let i := onScreen1 (fun x => { x with state := .interval, onScreen := none, mixer := .mute }) s
    let off := fun s : State => onLamp2 (fun l => { l with carbonOk := some false }) { s with
      plan := { s.plan with lastPosting := Quad.same true } }
    let down := fun s : State => (s.machine .m2).state = .armed ∧ s.armedCondition .m2 = false ∧ s.plan.lastPosting.get .m2 = true
    up s ∧ (s.screen .s1).state = .showing ∧ s.successor .s1 = some .m2 ∧ (s.screen .s1).startPending = false
    ∧ up p ∧ (p.screen .s1).state = .showing ∧ p.successor .s1 = some .m2 ∧ (p.screen .s1).startPending = true
    ∧ up o ∧ (o.screen .s1).state = .opening ∧ o.waitedOn .s1 = some .m2
    ∧ up i ∧ (i.screen .s1).state = .interval
    ∧ down (off (showing 9)) ∧ down (off (onM2 (fun r => { r with state := .armed }) o))
    ∧ (off (onM2 (fun r => { r with state := .armed }) o)).waitedOn .s1 = some .m2 := by decide

/-- R117: a machine in RUNOUT on its bound slot. -/
theorem witness_ScreenFollowsItsReel_runout :
    PlanLaw runout1 ∧ (runout1.screen .s1).onScreen ≠ some .m1 ∧ (runout1.machine .m1).state = .runout
    ∧ (runout1.machine .m1).boundSlot = some 0 ∧ (runout1.slot .s1 0).entry = some reel1
    ∧ (runout1.screen .s1).startPending = false ∧ (runout1.screen .s1).state ≠ .opening :=
  ⟨planLaw_of_showing rfl (by intro m; cases m <;> decide) (by intro m; cases m <;> decide), by decide, by decide, by decide,
    by decide, by decide, by decide⟩

/-- R108, R120, R123: the machine waited on breaks after its start, in each state that awaits it. -/
theorem witness_ScreenFollowsItsReel_break :
    let s := runup 31300 100
    let d := onM2 (fun r => { r with state := .starting }) dark1
    (s.screen .s1).onScreen ≠ some .m2 ∧ s.waitedOn .s1 = some .m2 ∧ (s.screen .s1).state.awaits = true
    ∧ (s.machine .m2).state.running = true ∧ (s.machine .m2).state ≠ .runout
    ∧ d.waitedOn .s1 = some .m2 ∧ (d.screen .s1).state.awaits = true ∧ (d.machine .m2).state.running = true
    ∧ opening1.waitedOn .s1 = some .m2 ∧ (opening1.screen .s1).state.awaits = true
    ∧ (opening1.machine .m2).state.running = true ∧ (opening1.screen .s1).onScreen ≠ some .m2 := by decide

/-- R108 and R122: a reel that runs through behind a closed douser, in OPENING and outside it. -/
theorem witness_ScreenFollowsItsReel_through :
    PlanLaw opening1 ∧ (opening1.screen .s1).onScreen ≠ some .m2 ∧ opening1.waitedOn .s1 = some .m2
    ∧ (opening1.screen .s1).state = .opening ∧ (opening1.screen .s1).current = some 1 ∧ (opening1.machine .m2).state = .runup
    ∧ PlanLaw (runup 31300 100) ∧ ((runup 31300 100).screen .s1).onScreen ≠ some .m2
    ∧ (runup 31300 100).successor .s1 = some .m2 ∧ ((runup 31300 100).screen .s1).state ≠ .opening
    ∧ (runup 31300 100).onDeck .s1 = some 1 ∧ ((runup 31300 100).machine .m2).state = .runup
    ∧ ((runup 31300 100).screen .s1).startPending = false :=
  ⟨planLaw_of_showing rfl (by intro m; cases m <;> decide) (by intro m; cases m <;> decide), by decide, by decide, by decide,
    by decide, by decide, planLaw_of_showing rfl (by intro m; cases m <;> decide) (by intro m; cases m <;> decide), by decide,
    by decide, by decide, by decide, by decide, by decide⟩

/-- Screen 1 is in INTERVAL with slot 1 on deck. -/
def interval1 : State := onScreen1 (fun x => { x with state := .interval, interval := some (.seconds 1) }) dark1

theorem witness_ScreenTimersEnd :
    (interval1.screen .s1).state = .interval ∧ interval1.onDeck .s1 = some 1
    ∧ (interval1.screen .s1).interval = some (.seconds 1)
    ∧ (let s := { interval1 with plan := { interval1.plan with tables := ⟨PlanTable.cleared.set 0 ⟨.shown, none, some reel1⟩,
        PlanTable.cleared⟩ } }; s.onDeck .s1 = none ∧ (s.screen .s1).interval = some (.seconds 1))
    ∧ (booth.screen .s1).state ≠ .interval
    ∧ (onScreen1 (fun x => { x with darkHold := .running 5000000 }) (showing 9)).screens.s1.darkHold = .running 5000000
    ∧ ((showing 9).screen .s1).onScreen = some .m1 ∧ (booth.screen .s1).onScreen = none := by decide

/-- R125: the on-deck slot's machine EMPTY, without the ARMED condition, and ARMED with its lamp DARK and BURNING. -/
theorem witness_ScreenTimersEnd_opening :
    let s := interval1
    let armed := fun t : State => (t.modScreen .s1 (ScreenRec.enterOpening 1)).armedCondition .m2
    let off := onLamp2 (fun l => { l with carbonOk := some false }) s
    (s.slot .s1 1).status = .bound ∧ (s.slot .s1 1).bound = some .m2 ∧ (s.machine .m2).state = .armed ∧ armed s = true
    ∧ (s.lamp .m2).state ≠ .burning ∧ (onLamp2 burning s).lamps.m2.state = .burning ∧ armed (onLamp2 burning s) = true
    ∧ (s.machine .m2).loopSwitchClosed = true ∧ armed off = false ∧ off.plan.lastPosting.get .m2 = true
    ∧ (off.machine .m2).state = .armed ∧ (onM2 (fun r => { r with state := .broken }) s).machines.m2.state ≠ .threaded
    ∧ (booth.slot .s1 1).status ≠ .bound := by decide

theorem witness_ScreenTimersEnd_found :
    interval1.foundArmed .s1 1 .m2 ∧ (interval1.lamp .m2).state = .dark ∧ (interval1.lamp .m2).remaining ≠ 0
    ∧ (interval1.machine .m2).holds.fire = false ∧ (onLamp2 burning interval1).foundArmed .s1 1 .m2
    ∧ ¬ (onLamp2 (fun l => { l with carbonOk := some false }) interval1).foundArmed .s1 1 .m2 := by
  unfold State.foundArmed; decide

theorem witness_AbortStopsTheScreen :
    (booth.screen .s1).state = .idle ∧ ((showing 9).screen .s1).state ≠ .idle
    ∧ ((showing 9).machine .m1).state.running = true ∧ ((showing 9).screen .s1).current = some 0
    ∧ ((showing 9).slot .s1 0).status.showable = true
    ∧ (∀ m, screenOf m = .s1 → ((showing 9).machine m).state ≠ .runout) := by
  refine ⟨by decide, by decide, by decide, by decide, by decide, fun m _ => ?_⟩
  cases m <;> decide

/-- ABORT with a machine in RUNOUT: its slot is not the current one. -/
theorem witness_AbortStopsTheScreen_runout :
    PlanLaw runout1 ∧ (runout1.screen .s1).state ≠ .idle ∧ (runout1.machine .m1).state = .runout
    ∧ (runout1.machine .m1).boundSlot = some 0 ∧ (runout1.slot .s1 0).status = .bound ∧ (runout1.slot .s1 0).entry = some reel1
    ∧ (runout1.screen .s1).current = some 1 ∧ (runout1.slot .s1 1).status.showable = true
    ∧ (∀ m, screenOf m = .s1 → (runout1.machine m).state = .runout → (runout1.machine m).boundSlot ≠ some 1) := by
  refine ⟨planLaw_of_showing rfl (by intro m; cases m <;> decide) (by intro m; cases m <;> decide), by decide, by decide,
    by decide, by decide, by decide, by decide, by decide, fun m => ?_⟩
  cases m <;> decide

theorem witness_ScreenSettingsAreWritten : booth.namesScreen (txt "1") .s1 ∧ number? (txt "16") = some 16
    ∧ (1000 ≤ 1000 ∧ 1000 < 1001 ∧ 12 ≤ 12 ∧ 12 < 13) := ⟨names_s1 _, by decide, by decide⟩

theorem witness_StartTimingFigures :
    let s := onScreen1 (fun x => { x with framesToGo := some 1667, nStart := some 227, strikeFrames := some 1440 }) (showing 29821)
    s.currentEntry .s1 = some reel1 ∧ reel1.co = some 31488 ∧ s.onDeckEntry .s1 = some reel2 ∧ 0 < 41677
    ∧ (s.machine .m1).average = some 41677 ∧ (s.screen .s1).framesToGo = some 1667 ∧ (s.screen .s1).nStart = some 227
    ∧ (s.screen .s1).strikeFrames = some 1440 ∧ (1667 ≤ 227 + 1440 ∧ 227 + 1440 < 1668 ∧ 227 ≤ 227 ∧ 227 < 228)
    ∧ (s.machine (partnerOf .m1)).state = .armed ∧ (s.lamp (partnerOf .m1)).state = .dark
    ∧ (lastReel 9).currentEntry .s1 = some { reel1 with co := none, last := true } := by decide

/-- The current slot of `showing` in cue mode FOOT. -/
def footMode (f : Nat) : State :=
  let s := showing f
  { s with plan := { s.plan with tables := { s.plan.tables with
      s1 := s.plan.tables.s1.set 0 ⟨.bound, some .m1, some { reel1 with mode := .foot }⟩ } } }

/-- The frame notice: of the ON_SCREEN machine, of another one, and where the screen does not show. -/
theorem witness_StartTimingFigures_notice :
    ((showing 9).screen .s1).onScreen = some .m1 ∧ ((showing 9).machine .m1).state = .onScreen
    ∧ ((showing 9).screen .s1).state = .showing ∧ ((showing 9).screen .s1).onScreen ≠ some .m2
    ∧ (onScreen1 (fun x => { x with state := .dark }) (showing 9)).screens.s1.state = .dark
    ∧ (runout1.screen .s1).mixer = .both ∧ (runout1.screen .s1).overlapLeft ≤ 1 ∧ ¬ 2 ≤ 1 := by decide

/-- R111: CO in cue mode FOOT and CO + W in FILM, and one frame before each; an ARMED successor and one that is not. -/
theorem witness_StartTimingFigures_point :
    (footMode 31488).currentEntry .s1 = some { reel1 with mode := .foot } ∧ 31488 ≤ 31488 ∧ 31487 < 31488
    ∧ (showing 31536).currentEntry .s1 = some reel1 ∧ reel1.mode = .film ∧ 31488 + reel1.window ≤ 31536
    ∧ 31535 < 31488 + reel1.window ∧ ((showing 31536).screen .s1).state = .showing
    ∧ ((showing 31536).onDeck .s1).isSome = true ∧ ((showing 31536).screen .s1).point = none
    ∧ ((showing 31536).screen .s1).startGiven = false ∧ ((showing 31536).screen .s1).startPending = false
    ∧ (showing 31536).successor .s1 = some .m2 ∧ ((showing 31536).machine .m2).state = .armed
    ∧ (∀ j, booth.successor .s1 = some j → (booth.machine j).state ≠ .armed)
    ∧ ((runup 31536 192).screen .s1).startGiven = true ∧ ((runup 31536 192).screen .s1).state = .runup
    ∧ (onScreen1 (fun x => { x with point := some .cue }) (showing 9)).screens.s1.point.isSome = true := by
  refine ⟨by decide, by decide, by decide, by decide, by decide, by decide, by decide, by decide, by decide, by decide, by decide,
    by decide, by decide, by decide, fun j h => absurd h ?_, by decide, by decide, by decide⟩
  cases j <;> decide

/-- R53, R111: an accepted CHANGEOVER cue, with an ARMED successor, with the start given, with no machine to start, and with
the point reached. -/
theorem witness_StartTimingFigures_cue :
    let s := showing 31488
    let n := onM2 (fun r => { r with state := .threaded }) s
    (s.screen .s1).state = .showing ∧ s.successorWithCo .s1 = true ∧ (s.screen .s1).point = none
    ∧ (s.screen .s1).startGiven = false ∧ (s.screen .s1).startPending = false ∧ s.successor .s1 = some .m2
    ∧ (s.machine .m2).state = .armed ∧ (s.machine .m2).loopSwitchClosed = true
    ∧ ((runup 31488 192).screen .s1).startGiven = true ∧ ((runup 31488 192).screen .s1).state = .runup
    ∧ n.successorWithCo .s1 = true ∧ n.successor .s1 = some .m2 ∧ (n.machine .m2).state = .threaded
    ∧ (swapDue.screen .s1).point.isSome = true := by decide

/-- R124: the picture of the ON_SCREEN machine lost to its lamp, shown, and shown again under the PICTURE claim. -/
theorem witness_StartTimingFigures_watch :
    let lost := onM1 (fun r => { r with douser := .closed, holds := { r.holds with lamp := true } }) (showing 9)
    let again := onScreen1 (fun x => { x with faultClaim := .picture }) (showing 9)
    (lost.screen .s1).onScreen = some .m1 ∧ lost.waitedOn .s1 ≠ some .m1 ∧ lost.successor .s1 ≠ some .m1
    ∧ (lost.machine .m1).douser = .closed ∧ (lost.machine .m1).holds.lamp = true ∧ (lost.screen .s1).darkHold = .stopped
    ∧ (lost.screen .s1).state = .showing ∧ ((showing 9).machine .m1).douser = .opened
    ∧ (again.machine .m1).douser = .opened ∧ (again.screen .s1).faultClaim = .picture := by decide

/-! ### Witnesses: the lights -/

/-- A CUE claim governs with its fade before its last step; a CONSOLE claim waits. -/
def fading (c : Circuit) : Circuit :=
  { c with
    claims := ⟨none, none, some ⟨0, 80, some ⟨255, 399, 400⟩⟩, some ⟨180, 50, none⟩⟩, output := 1, delay := firingDelay 10000 1
    stepMeasure := some 20000, armed := some 9700 }

theorem witness_ClaimsArePlacedAndReleased :
    let c := fading Circuit.atPowerOn
    (∃ q ∈ [Rank.safety, .fault, .cue], (c.claims.get q).isSome = true)
    ∧ (¬ ∃ q ∈ [Rank.safety], (c.claims.get q).isSome = true) ∧ c.claims.get .fault = none
    ∧ (c.claims.get .console).isSome = true ∧ (c.claims.get .cue).isSome = true
    ∧ ([Rank.console].find? fun q => (c.claims.get q).isSome) = some .console
    ∧ ([Rank.console].find? fun q => ((c.claims.set .console none).get q).isSome) = none
    ∧ (0 * 5 = 0 ∧ 1 * 5 ≠ 0) := by decide

theorem witness_FiringDelayIsFormed : (7500 ≤ 7500 ∧ 11000 ≤ 11000 ∧ 1 ≤ 1 ∧ 255 ≤ 255) ∧ LightsLaw (showing 12410) :=
  ⟨by decide, witness_LightsLaw⟩

theorem witness_LightEventsComplete :
    let s := onHouse fading booth
    let c := s.circuit .s1 .house
    c.stepMeasure = some 20000 ∧ c.claims.top = some .cue ∧ c.claims.get .cue = some ⟨0, 80, some ⟨255, 399, 400⟩⟩
    ∧ (399 < 400) ∧ (booth.circuit .s1 .house).stepMeasure ≠ some 20000
    ∧ { fading c with stepMeasure := some 19999 }.stepMeasure ≠ some 20000
    -- a placement that governs and one that waits; a release of the governing claim and of the waiting one
    ∧ (c.place 10000 .cue 255 1).claims.top = some .cue ∧ (c.place 10000 .console 255 1).claims.top ≠ some .console
    ∧ c.claims.top ≠ some .console
    -- a fade of one step
    ∧ 0 < (⟨255, 0, 1⟩ : Fade).n ∧ c.armed.isSome = true
    ∧ (booth.circuit .s1 .house).armed = none ∧ booth.lights.crossingRef = false
    ∧ ([7500, 7500, 7500, 7503].sum / 4 = 7500 ∧ [11000, 11000, 11000, 11003].sum / 4 = 11000) := by decide

theorem witness_LightCommandsComplete : booth.namesScreen (txt "1") .s1 ∧ namesScene (txt "7") 7
    ∧ number? (txt "256") = some 256 ∧ number? (txt "601") = some 601 :=
  ⟨names_s1 _, by unfold namesScene; decide, by decide, by decide⟩

/-! ### Witnesses: fire protection -/

theorem witness_BoothTripIsTaken :
    let s := onFire (fun u => { u with loopOpenMeasure := some 50000, machineLatch := { u.machineLatch with m3 := some .gateHeat } })
      (showing 9)
    s.powered = true ∧ s.fire.loopOpenMeasure.isSome = true ∧ booth.fire.loopOpenMeasure = none
    ∧ (s.fire.shutters.get .m1).state = .opened ∧ (s.machine .m1).state ≠ .tripped ∧ (s.lamp .m1).state = .burning := by decide

theorem witness_GateCountTripsTheMachine :
    let s := onFire (fun u => { u with gates := { u.gates with m1 := { u.gates.m1 with hotRun := 1 } } }) (showing 9)
    (if (s.fire.gates.get .m1).tripThreshold ≤ min 4095 900 then min 2 ((s.fire.gates.get .m1).hotRun + 1) else 0) = 2
    ∧ s.fire.machineLatch.get .m1 ≠ some .gateHeat
    ∧ (if (s.fire.gates.get .m1).tripThreshold ≤ min 4095 899 then 2 else 0) ≠ 2
    ∧ (s.screen .s1).onScreen = some .m1 ∧ (s.screen .s1).state.shows = true
    ∧ (let r := runup 31300 100; (r.screen .s1).onScreen ≠ some .m2 ∧ (r.machine .m2).state ≠ .runout
        ∧ r.waitedOn .s1 = some .m2 ∧ (r.screen .s1).state.awaits = true)
    ∧ s.waitedOn .s1 ≠ some .m1
    ∧ s.fire.loopClosed = true ∧ s.straps.fireLoop.read false = false ∧ s.straps.fireLoop.read true = true
    ∧ tripped.fire.loopClosed = false := by decide

/-- The bindings of the tripped machine's screen stand within it. -/
theorem witness_GateCountTripsTheMachine_law :
    PlanLaw (onFire (fun u => { u with gates := { u.gates with m1 := { u.gates.m1 with hotRun := 1 } } }) (showing 9)) :=
  planLaw_of_showing rfl (by intro m; cases m <;> decide) (by intro m; cases m <;> decide)

/-- R127, R128: M1 in RUNOUT is tripped by the booth, by its own gate, and stopped by the trip of M2, ON_SCREEN; the
successor is tripped in SHOWING. -/
theorem witness_GateCountTripsTheMachine_runout :
    PlanLaw runout1 ∧ (runout1.machine .m1).state = .runout ∧ (runout1.machine .m1).boundSlot = some 0
    ∧ (runout1.screen .s1).onScreen = some .m2 ∧ (runout1.screen .s1).state.shows = true ∧ partnerOf .m2 = .m1
    ∧ ((showing 9).screen .s1).onScreen ≠ some .m2 ∧ (showing 9).waitedOn .s1 = some .m2
    ∧ ((showing 9).screen .s1).state.awaits = false :=
  ⟨witness_ScreenFollowsItsReel_runout.1, by decide, by decide, by decide, by decide, by decide, by decide, by decide,
    by decide⟩

/-- Shutter 1's record is as `f` makes it. -/
def onShutter1 (f : ShutterRec → ShutterRec) (s : State) : State :=
  onFire (fun u => { u with shutters := { u.shutters with m1 := f u.shutters.m1 } }) s

theorem witness_ShuttersFollowTheirSwitches :
    let x := tripped.fire.shutters.get .m1
    let stuck := { x with state := .stuck, confirm := none }
    -- a closed shutter, and a STUCK one, raised on an energized magnet; an open one that sags
    (booth.fire.shutters.get .m1).openMade = false ∧ (booth.fire.shutters.get .m1).magnet = true
    ∧ (booth.fire.shutters.get .m1).state = .closed ∧ { stuck with magnet := true, openMade := false }.state = .stuck
    ∧ ((showing 9).fire.shutters.get .m1).openMade = true ∧ ((showing 9).fire.shutters.get .m1).state = .opened
    ∧ booth.sense .m1 booth.straps.shutterOpen true = true ∧ booth.sense .m1 booth.straps.shutterOpen false = false
    -- a dropping shutter whose closed switch is made, or whose confirm measure ends
    ∧ x.closedMade = false ∧ x.magnet = false ∧ x.state = .dropping ∧ x.confirm.isSome = true
    ∧ (∃ snap, x.dropSnapshot = some snap) ∧ (booth.fire.shutters.get .m1).confirm = none := by
  refine ⟨by decide, by decide, by decide, by decide, by decide, by decide, by decide, by decide, by decide, by decide, by decide,
    by decide, ⟨_, rfl⟩, by decide⟩

/-- A machine trip of M1 while screen 1 shows, its gate cooled to 599. -/
def hot : State := onShutter1 (fun x => { x with state := .closed, confirm := none, dropSequence := none, dropSnapshot := none })
  (onFire (fun u => { u with gates := { u.gates with m1 := { u.gates.m1 with count := 599 } } })
    (nextOf (exec (.gateCount .m1 900) (onFire (fun u =>
      { u with gates := { u.gates with m1 := { u.gates.m1 with hotRun := 1 } } }) (showing 12410)))))

theorem witness_ResetReleasesTheMachine :
    hot.fire.boothLatch = none ∧ (hot.fire.machineLatch.get .m1).isSome = true ∧ (hot.fire.shutters.get .m1).state ≠ .dropping
    ∧ (hot.fire.gates.get .m1).count < (hot.fire.gates.get .m1).resetThreshold
    ∧ (hot.fire.gates.get .m1).resetThreshold ≤ 600 ∧ (hot.machine .m1).boundSlot = some 0
    ∧ hot.fire.machineLatch.get (partnerOf .m1) = none ∧ (tripped.fire.machineLatch.get (partnerOf .m1)).isSome = true
    ∧ tripped.fire.boothLatch.isSome = true ∧ booth.fire.machineLatch.get .m1 = none
    ∧ (tripped.fire.shutters.get .m1).state = .dropping := by decide

theorem witness_ResetBoothReleasesTheBooth :
    healthy.fire.boothLatch.isSome = true ∧ healthy.fire.loopHealthy = some 5 ∧ (5 ≤ 5 ∧ ¬ 5 ≤ 4)
    ∧ (∀ m, (healthy.fire.shutters.get m).state ≠ .dropping) ∧ booth.fire.boothLatch = none
    ∧ (tripped.fire.shutters.get .m1).state = .dropping ∧ healthy.fire.machineLatch.get .m1 = some .booth := by
  refine ⟨by decide, by decide, by decide, fun m => ?_, by decide, by decide, by decide⟩
  cases m <;> decide

theorem witness_FireSettingsAreWritten :
    let g := booth.fire.gates.get .m1
    booth.fire.boothLatch = none ∧ (∀ j, booth.fire.machineLatch.get j = none) ∧ tripped.fire.boothLatch.isSome = true
    ∧ (1 ≤ 601 ∧ 4095 ≤ 4095 ∧ g.resetThreshold < 601 ∧ 600 ≤ g.resetThreshold)
    ∧ (899 ≤ 4094 ∧ 899 < g.tripThreshold ∧ g.tripThreshold ≤ 900) ∧ (0 < 1 ∧ 4094 < 4095 ∧ 4095 < 4096)
    ∧ keyValue? (txt "TRIP") = none ∧ keyValue? (txt "SET=1") = some (txt "SET", txt "1") ∧ number? (txt "1A") = none
    ∧ [txt "TRIP=1", txt "TRIP=2"].Sublist (ops "TRIP=1 RESET=0 TRIP=2")
    ∧ number? (txt "M1") = none ∧ number? (txt "0") = some 0 ∧ number? (txt "5") = some 5 := by
  refine ⟨by decide, fun j => ?_, by decide, by decide, by decide, by decide, by decide, by decide, by decide, by decide,
    by decide, by decide, by decide⟩
  cases j <;> decide

/-! ### Witnesses: the line and power -/

/-- A full queue of 32 reports, the first `n` of them ALARM and the rest INFO. -/
def fullQueue (n : Nat) : List QueuedReport :=
  List.replicate n ⟨.exhaust .m1, 0⟩ ++ List.replicate (32 - n) ⟨.ready, 0⟩

theorem witness_QueueTakesReports :
    (fullQueue 31).tail.length < 32 ∧ 32 ≤ (fullQueue 31).length ∧ (Report.ready).class_ = .info
    ∧ (Report.exhaust .m1).class_ = .alarm ∧ fullQueue 31 = List.replicate 31 ⟨.exhaust .m1, 0⟩ ++ ⟨.ready, 0⟩ :: []
    ∧ (∀ y ∈ fullQueue 32, y.report.class_ = .alarm) := by
  refine ⟨by decide, by decide, rfl, rfl, rfl, fun y h => ?_⟩
  rw [fullQueue, List.mem_append] at h
  rcases h with h | h <;> rw [(List.mem_replicate.1 h).2]
  · rfl
  · exact absurd (List.mem_replicate.1 h).1 (by decide)

theorem witness_LineEventsComplete :
    booth.line.breakHeld = false ∧ booth.line.transmitter = none
    ∧ (∃ t, (LineUnit.atPowerOn false).transmitter = some t)
    ∧ (LineUnit.atPowerOn true).breakMeasure.isSome = true ∧ booth.line.breakMeasure = none
    ∧ (32 ≤ (32#7).toNat ∧ (32#7).toNat ≠ 127) ∧ (31#7).toNat < 32 ∧ (127#7).toNat = 127 ∧ (13#7).toNat = 13
    ∧ (List.replicate 71 'A').length < 72 ∧ ¬ (List.replicate 72 'A').length < 72
    ∧ (∀ c ∈ [' ', ' '], c = ' ') ∧ ¬ (∀ c ∈ [' ', 'X'], c = ' ') := by
  refine ⟨by decide, by decide, ⟨_, rfl⟩, by decide, by decide, by decide, by decide, by decide, by decide, by simp, by simp,
    by simp, by simp⟩

theorem witness_ConsoleLineRoundTrip :
    (Instr.resetBooth []).wellFormed = true ∧ (Instr.resetBooth []).operands?.isSome = true
    ∧ (Instr.motor [List.replicate 66 'A']).wellFormed = true ∧ booth.line.assembly = [] ∧ booth.line.charMark = false
    ∧ booth.line.longMark = false ∧ booth.line.buffers = [] ∧ booth.line.breakHeld = false ∧ booth.line.replyPlace = .empty
    ∧ booth.line.handed = none := by decide

/-- RESTART handed while both screens were IDLE, and while one was not; and given directly. -/
theorem witness_RestartClearsTheShow :
    (let s := nextOf (exec (.receivedCharacter 13#7 false false) { booth with line := booth.line.receiveAll (txt "RESTART") })
     s.line.handed = some (.restart []) ∧ s.line.reading = some (.bothIdle true))
    ∧ (let s := nextOf (exec (.receivedCharacter 13#7 false false)
        { showing 9 with line := booth.line.receiveAll (txt "RESTART") })
       s.line.handed = some (.restart []) ∧ s.line.reading = some (.bothIdle false))
    ∧ booth.line.handed = none ∧ ops "NOW" ≠ [] ∧ ((showing 9).screen .s1).state ≠ .idle ∧ (booth.screen .s1).state = .idle
    ∧ (booth.screen .s2).state = .idle := by decide

/-- Both screens IDLE with a lace-up run on M1, in the law of the booth. -/
theorem witness_RestartClearsTheShow_laceUp : let s := onM1 (fun r => { r with contactorClosed := false }) lacing
    BoothLaw s ∧ (s.machine .m1).laceUp = true
    ∧ (s.screen .s1).state = .idle ∧ (s.screen .s2).state = .idle := by
  refine ⟨⟨fun m => ?_, fun m => ?_, fun m => ?_, fun m => ?_, fun h => absurd h (by decide)⟩, by decide, by decide, by decide⟩
  · cases m <;> constructor <;> decide
  · cases m <;> constructor <;> decide
  · cases m <;> intro h <;> exact absurd h (by decide)
  · cases m <;> intro _ <;> constructor <;> decide

end Sys2Proof.Tests

namespace Sys2Proof.Tests

open Sys2Proof Sys2Proof.Machine Host

/-! ### One step: the changeover controller and the lights -/

theorem test_start_asks_for_the_strike : let t := nextOf (exec (.start (ops "1")) ready1)
    (t.screen .s1).state = .opening ∧ (t.screen .s1).current = some 0 ∧ (t.lamp .m1).state = .striking := by decide

theorem test_start_refused_halted : answerOf (.start (ops "1")) { tripped with line := booth.line } = txt "NO FORM"
    ∧ answerOf (.start (ops "1 0")) { tripped with line := booth.line } = txt "NO TRIP" := by decide

/-- The swap at the run-up's last frame: the outgoing machine in RUNOUT, its lamp out, no picture lost (R114, R121). -/
theorem test_swap : let t := nextOf (exec (.framePulse .m2 41700 false) (onM2 (fun r => { r with frameCount := 191 }) swapDue))
    (t.machine .m2).state = .onScreen ∧ (t.machine .m2).douser = .opened ∧ (t.machine .m1).state = .runout
      ∧ (t.machine .m1).douser = .closed ∧ (t.lamp .m1).state = .dark ∧ (t.screen .s1).current = some 1
      ∧ (t.machine .m2).pictureLost = some 0 := by decide

theorem test_swapnow : let t := nextOf (exec (.swapnow (ops "1")) (showing 9))
    (t.screen .s1).state = .swapDue ∧ (t.machine .m2).state = .starting ∧ (t.lamp .m2).state = .striking := by decide

/-- R11, R123: a successor started with its loop switch reading OPEN breaks, its lamp struck (log entry 39). -/
theorem test_swapnow_loop_open : let t := nextOf (exec (.swapnow (ops "1")) (onM2 (fun r => { r with loopSwitchClosed := false }) (showing 9)))
    (t.screen .s1).state = .showing ∧ (t.screen .s1).point = some .console ∧ (t.screen .s1).startPending = true
      ∧ (t.machine .m2).state = .broken ∧ (t.lamp .m2).state = .striking := by decide

/-- R54: two actions on one circuit, the last placed governs; SOUND sets the level and leaves AISLE (R54, R126). -/
theorem test_actions_in_order :
    let t := State.execActions .s1 .m1 3 9 [.level (some .house) 40 0, .sound 5, .level (some .house) 70 0] booth
    (t.circuit .s1 .house).claims.cue.map (·.target) = some 70 ∧ (t.circuit .s1 .aisle).claims.cue = none
      ∧ (t.screen .s1).sound = 5 := by decide

theorem test_sound : ((nextOf (exec (.sound (ops "1 16")) booth)).screen .s1).sound = 15
    ∧ answerOf (.sound (ops "1")) booth = txt "OK 12" := by decide

theorem test_resume : ((nextOf (exec (.resume (ops "1")) interval1)).screen .s1).current = some 1
    ∧ answerOf (.resume (ops "1")) (showing 9) = txt "NO STATE" := by decide

theorem test_interval_expiry : let t := nextOf (exec (.intervalExpiry .s1) interval1)
    (t.screen .s1).state = .opening ∧ (t.screen .s1).interval = none := by decide

/-- R125: an interval over without an on-deck slot: *PLANEND gives the slot. -/
theorem test_interval_expiry_plan_end : let t := nextOf (exec (.intervalExpiry .s1) { interval1 with
      plan := { interval1.plan with tables := ⟨PlanTable.cleared.set 0 ⟨.shown, none, some reel1⟩, PlanTable.cleared⟩ } })
    t.line.transmitter = some ⟨.report (.planEnd .s1 (some 0)), 1⟩ ∧ (t.screen .s1).state = .idle := by decide

theorem test_dark_hold_expiry : let t := nextOf (exec (.darkHoldExpiry .s1)
      (onScreen1 (fun x => { x with darkHold := .running 5000000 }) (showing 9)))
    (t.screen .s1).faultClaim = .picture ∧ t.line.transmitter = some ⟨.report (.dark .s1 .picture .m1 none), 1⟩ := by decide

theorem test_abort : let t := nextOf (exec (.abort (ops "1")) (showing 9))
    (t.screen .s1).state = .idle ∧ (t.machine .m1).state = .stopped ∧ (t.slot .s1 0).status = .cut := by decide

theorem test_screenset : ((nextOf (exec (.screenset (ops "1 OVL=0 MARGIN=1000")) booth)).screen .s1).margin = 1000000
    ∧ answerOf (.screenset (ops "1 OVL=13")) booth = txt "NO RANGE" := by decide

theorem test_sstat : answerOf (.sstat (ops "1")) booth = txt "OK 1 IDLE - - - - NO NO - - - MUTE 12 2 250 - NONE" := by decide

/-- R137: the step of the old fade that comes with a placement of the same rank does not step the new one. -/
theorem test_fade_step_after_a_placement :
    let s := nextOf (exec (.level (ops "1 HOUSE 80 5")) (onHouse (fun c => { fading c with
      claims := ⟨none, none, none, some ⟨0, 80, some ⟨255, 399, 400⟩⟩⟩ }) booth))
    (s.circuit .s1 .house).stepMeasure = some 0
    ∧ (nextOf (exec (.fadeStep .s1 .house) s)).circuit .s1 .house = s.circuit .s1 .house := by decide

/-- 7.4.1: the last step of the fade. -/
theorem test_fade_step : let c := (nextOf (exec (.fadeStep .s1 .house) (onHouse fading booth))).circuit .s1 .house
    c.output = 0 ∧ c.delay = none ∧ c.stepMeasure = none ∧ c.armed = none := by decide

theorem test_zero_crossing_arms : let s := { booth with lights := { booth.lights with crossingRef := true, crossingTimer := some 9000 } }
    ((nextOf (exec (.zeroCrossing 1000) s)).circuit .s2 .stage).armed = some 100
    ∧ ((nextOf (exec (.zeroCrossing 1000) booth)).circuit .s2 .stage).armed = none := by decide

theorem test_firing : let c := (nextOf (exec (.firingDelayExpiry .s1 .house) (onHouse fading booth))).circuit .s1 .house
    c.fired = true ∧ c.armed = none := by decide

/-- 7.10: SCENE 1 1 50 places a CONSOLE claim of 180 on HOUSE, 250 steps. -/
theorem test_scene : (((nextOf (exec (.scene (ops "1 1 50")) booth)).circuit .s1 .house).claims.console)
    = some ⟨180, 50, some ⟨255, 0, 250⟩⟩ := by decide

theorem test_level : let c := (nextOf (exec (.level (ops "1 STAGE 300 0")) booth)).circuit .s1 .stage
    c.output = 255 ∧ c.claims.console = some ⟨255, 0, some ⟨255, 0, 0⟩⟩ := by decide

theorem test_release : ((nextOf (exec (.release (ops "1 ALL")) (nextOf (exec (.level (ops "1 ALL 0 0")) booth)))).circuit .s1 .aisle).output
    = 255 := by decide

theorem test_scenedef : (nextOf (exec (.scenedef (ops "1 7 1 256 3")) booth)).sceneLevels .s1 7 = ⟨1, 255, 3⟩
    ∧ answerOf (.scenedef (ops "1 1")) booth = txt "OK 180 255 200" := by decide

theorem test_hlstat : answerOf (.hlstat (ops "1")) (onHouse fading booth)
    = txt "OK HOUSE 1 9700 CUE CUE 0 80 399 400 CONSOLE 180 50 AISLE 255 100 NONE STAGE 255 100 NONE 10000 NO" := by decide

/-! ### One step: fire protection -/

theorem test_loop_opens : (nextOf (exec (.loopInputChange false) booth)).fire.loopOpenMeasure = some 0
    ∧ (nextOf (exec (.loopInputChange false) booth)).fire.loopHealthy = none := by decide

theorem test_booth_trip : tripped.fire.boothLatch = some .loop ∧ (tripped.machine .m1).state = .tripped
    ∧ (tripped.screen .s1).state = .halted ∧ (tripped.fire.shutters.get .m1).state = .dropping
    ∧ tripped.line.transmitter = some ⟨.report (.trip .loop .booth 0), 1⟩ := by decide

theorem test_gate_count_trips : (hot.machine .m1).state = .tripped ∧ hot.fire.machineLatch.get .m1 = some .gateHeat
    ∧ hot.fire.machineLatch.get .m2 = none ∧ (hot.circuit .s1 .house).output = 255 := by decide

theorem test_shutter_opens : ((nextOf (exec (.shutterSwitchChange .m1 .openSwitch true) booth)).fire.shutters.get .m1).state = .opened
    ∧ ((nextOf (exec (.shutterSwitchChange .m1 .openSwitch false) (showing 9))).fire.shutters.get .m1).state = .closed := by decide

/-- R127, R117: a booth trip ends the reel of M1 in RUNOUT. -/
theorem test_trip_in_runout : let t := nextOf (exec .loopOpenMeasureExpiry (onFire (fun u => { u with loopOpenMeasure := some 50000 }) runout1))
    (t.slot .s1 0).status = .shown ∧ (t.machine .m1).boundSlot = none ∧ (t.screen .s1).state = .halted := by decide

theorem test_shutter_sticks : let t := nextOf (exec (.confirmMeasureExpiry .m1) tripped)
    (t.fire.shutters.get .m1).state = .stuck ∧ t.fire.log.map IncidentRec.related = [some 0, none] := by decide

theorem test_reset_m : let t := nextOf (exec (.resetM (ops "1")) hot)
    (t.machine .m1).state = .empty ∧ (t.slot .s1 0).status = .cut ∧ (t.fire.shutters.get .m1).magnet = true := by decide

/-- R170: *RESET is made before the reply. -/
theorem test_reset_m_order : let t := nextOf (exec (.resetM (ops "1")) { hot with line := booth.line })
    t.line.transmitter = some ⟨.report (.resetMachine .m1), 1⟩ ∧ t.line.replyPlace = .full (.ok []) 2 := by decide

theorem test_reset_booth_reports : let t := nextOf (exec (.resetBooth []) { healthy with line := booth.line })
    t.line.replyPlace = .full (.ok []) 1 ∧ t.line.queue = [⟨.resetBooth, 2⟩] ∧ (t.machine .m1).state = .threaded := by decide

/-- R29: a machine returned to STOPPED by RESET BOOTH has its ring emptied. -/
theorem test_reset_booth_stopped : let t := nextOf (exec (.resetBooth [])
      (onM1 (fun r => { r with boundSlot := none, ring := [41660, 41650], pulseRef := true }) healthy))
    (t.machine .m1).state = .stopped ∧ (t.machine .m1).ring = [] ∧ (t.machine .m1).pulseRef = false := by decide

/-- R164: the absent light snapshot of a SHUTTER_STUCK record is a hyphen. -/
theorem test_incident_stuck : answerOf (.incident (ops "1"))
      { nextOf (exec (.confirmMeasureExpiry .m1) tripped) with line := booth.line }
    = txt "OK 1 20:40:58 SHUTTER_STUCK M1 0 M1 ON_SCREEN FEAT1 0 12410 2399 BURNING 302 - M1 STUCK" := by decide

theorem test_incident : answerOf (.incident (ops "1")) booth = txt "NO STATE" ∧ answerOf (.incident (ops "9")) booth = txt "NO RANGE" := by
  decide

theorem test_inclear : (nextOf (exec (.inclear []) { hot with fire := { hot.fire with machineLatch := Quad.same none } })).fire.log = []
    ∧ answerOf (.inclear []) { tripped with line := booth.line } = txt "NO TRIP" := by decide

theorem test_fstat : booth.fire.fields.take 10 = ops "CLEAR CLOSED 9 M1 CLEAR ON CLOSED 0 0 900"
    ∧ (nextOf (exec (.fstat []) booth)).line.replyPlace = .full (.ok booth.fire.fields) 1 := by decide

theorem test_fireset : ((nextOf (exec (.fireset (ops "1 RESET=899")) booth)).fire.gates.get .m1).resetThreshold = 899
    ∧ answerOf (.fireset (ops "1 RESET=900")) booth = txt "NO RANGE" := by decide

/-! ### One step: the line and power -/

theorem test_line_is_handed : let s := { booth with line := booth.line.receiveAll (txt "  MSTAT  2 ") }
    (nextOf (exec (.receivedCharacter 13#7 false false) s)).line.handed = some (.mstat [txt "2"]) := by decide

theorem test_lower_case_is_no_verb : let s := { booth with line := booth.line.receiveAll (txt "mstat 2") }
    (nextOf (exec (.receivedCharacter 13#7 false false) s)).line.replyPlace = .full (.no .verb) 1 := by decide

/-- 9.6.1: *STRIKE and then the LSTAT reply are sent, and PSTAT is dispatched. -/
theorem test_burst_961 :
    let s := { booth with line := { booth.line with
      transmitter := some ⟨.report (.strike .m1 none 9), 3⟩, replyPlace := .full (.ok []) 4, nextOrder := 5
      buffers := [⟨txt "PSTAT 1 1", false, false⟩, ⟨txt "TIME", false, false⟩] } }
    let t := nextOf (exec .lineSent s)
    let u := nextOf (exec .lineSent t)
    t.line.transmitter = some ⟨.reply (.ok []), 4⟩ ∧ t.line.buffers.length = 2 ∧ u.line.handed = some (.pstat (ops "1 1"))
      ∧ u.line.buffers = [⟨txt "TIME", false, false⟩] := by decide

theorem test_break_resets_the_line :
    let t := nextOf (exec .breakMeasureExpiry { booth with line := { sending with breakMeasure := some 1000000, atSpace := true } })
    t.line.queue = [⟨.ready, 3⟩] ∧ t.line.replyPlace = .empty ∧ t.line.breakHeld = true := by decide

theorem test_break_begins : (nextOf (exec (.receiveLineLevelChange true) booth)).line.breakMeasure = some 0 := by decide

theorem test_power_on : let t := nextOf (exec (.powerOn booth.straps ⟨Quad.same true, Quad.same true, Quad.same false,
      Quad.same true, true, false⟩) (showing 9))
    t.fire.boothLatch = some .power ∧ (t.machine .m1).state = .tripped ∧ t.fire.loopHealthy = some 0
      ∧ t.line.transmitter = some ⟨.report .ready, 0⟩ := by decide

theorem test_power_removed : let t := nextOf (exec .powerRemoved (showing 9))
    t.powered = false ∧ (t.machine .m1).motor = false ∧ (t.lamp .m1).contactorClosed = false := by decide

theorem test_restart : let t := nextOf (exec (.restart []) idle1)
    (t.slot .s1 0).status = .empty ∧ (t.lamp .m1).state = .dark ∧ (t.lamp .m1).trim = 400 ∧ t.plan.clock = some 86399
      ∧ t.line.queue = [⟨.ready, 2⟩] := by decide

end Sys2Proof.Tests
end

/-! The inquiries MSTAT and LSTAT (R25, R83): a served machine's operand is accepted, the command is taken and answered,
and the fields it writes are those of the record. -/

namespace Sys2Proof.Machine

open Sys2Proof Host

/-! ### A console command with power, and its operand m -/

/-- With power the owner acts on the state in which the command waits no longer (R169). -/
theorem State.takeCommand_of_powered {s : State} (hp : s.powered = true) (i : Instr) (f : State → State) :
    s.takeCommand i f = f (s.taken i) := by
  simp [State.takeCommand, State.whenPowered, State.taken, hp]

@[simp] theorem State.taken_machine (s : State) (c : Instr) (k : MachineId) : (s.taken c).machine k = s.machine k := rfl

@[simp] theorem State.taken_lamp (s : State) (c : Instr) (k : MachineId) : (s.taken c).lamp k = s.lamp k := rfl

/-- Taking a command leaves which words name which machines (R22, R176). -/
@[simp] theorem State.taken_namesMachine (s : State) (c : Instr) (w : Text) (m : MachineId) :
    (s.taken c).namesMachine w m ↔ s.namesMachine w m := Iff.rfl

/-- A served machine is no machine of a screen 2 that is not fitted (R176). -/
theorem State.wired_iff (s : State) (m : MachineId) :
    s.wired m = true ↔ ¬ (screenOf m = .s2 ∧ s.straps.screen2Fitted = false) := by
  cases m <;> simp [State.wired, screenOf]

/-- The number of a served machine is accepted as that machine (R22). -/
theorem onlyMachine_of_namesMachine {s : State} {a : Text} {m : MachineId} (h : s.namesMachine a m) :
    onlyMachine s [a] = .ok m := by
  obtain ⟨hnum, hwired⟩ := h
  obtain ⟨n, hn, hm⟩ := Option.bind_eq_some_iff.mp hnum
  have hoperand : machineOperand s n = .ok m := by
    simp [machineOperand, hm, (s.wired_iff m).mp hwired]
  calc onlyMachine s [a] = formOf (number? a) >>= machineOperand s := rfl
    _ = machineOperand s n := by rw [hn]; rfl
    _ = .ok m := hoperand

/-! ### MSTAT and LSTAT take and answer -/

theorem exec_mstat_answered {s : State} {a : Text} {m : MachineId} (hp : s.powered = true) (h : s.namesMachine a m) :
    exec (.mstat [a]) s = .next (s.answered (.mstat [a]) (.ok (mstatFields m (s.machine m)))) := by
  have hm : onlyMachine (s.taken (.mstat [a])) [a] = .ok m := onlyMachine_of_namesMachine (by simpa using h)
  change execMstat [a] s = _
  simp [execMstat, State.takeCommand_of_powered hp, hm, State.answered]

theorem exec_lstat_answered {s : State} {a : Text} {m : MachineId} (hp : s.powered = true) (h : s.namesMachine a m) :
    exec (.lstat [a]) s = .next (s.answered (.lstat [a]) (.ok (lstatFields m (s.lamp m)))) := by
  have hm : onlyMachine (s.taken (.lstat [a])) [a] = .ok m := onlyMachine_of_namesMachine (by simpa using h)
  change execLstat [a] s = _
  simp [execLstat, State.takeCommand_of_powered hp, hm, State.answered]

/-! ### The lamp record's fields -/

/-- The fault cause follows the state in FAULT; the phase, the attempt and RESTRIKE follow it in STRIKING (R83). -/
theorem lampStateFields_eq (l : LampRec) :
    lampStateFields l = [fLampState l.state]
      ++ (if l.state = .fault then [fOpt fLampFault l.faultCause] else [])
      ++ (if l.state = .striking then
            [fOpt fPhase l.phase, fNum l.attempt] ++ (if l.restrike = true then [txt "RESTRIKE"] else [])
          else []) := by
  unfold lampStateFields
  cases l.state <;> simp

/-- The rate in use is measured where six buckets are completed and their sum is not 0 (R76). -/
theorem LampRec.rateMeasured_iff (l : LampRec) : l.rateMeasured = true ↔ l.completed = 6 ∧ 0 < l.buckets.sum := by
  simp [LampRec.rateMeasured]

/-- The rate in use and its word: the bucket sum and MEAS, or the nominal rate and NOM (R76, R83). -/
theorem LampRec.rateFields_eq (l : LampRec) :
    [fNum l.rateInUse, if l.rateMeasured then txt "MEAS" else txt "NOM"]
      = if l.completed = 6 ∧ 0 < l.buckets.sum then [fNum l.buckets.sum, txt "MEAS"]
        else [fNum l.nominalRate, txt "NOM"] := by
  by_cases h : l.completed = 6 ∧ 0 < l.buckets.sum
  · simp [LampRec.rateInUse, l.rateMeasured_iff.mpr h, h]
  · simp [LampRec.rateInUse, mt l.rateMeasured_iff.mp h, h]

/-- The fields of LSTAT in the groups of R83: the state and what follows it, the figures up to the carbon remaining, the
rate in use, and the rest. -/
theorem lstatFields_eq (m : MachineId) (l : LampRec) :
    lstatFields m l = [fMachine m] ++ lampStateFields l
      ++ [fClosed l.contactorClosed, (if l.feedForward then txt "FWD" else txt "REV"), fNum l.feedDuty,
        fNum l.arcCount, fNum l.trim, fNum l.stub, fNum l.consumed, fNum l.carbonMm]
      ++ [fNum l.rateInUse, if l.rateMeasured then txt "MEAS" else txt "NOM"]
      ++ [fNum l.completed, fNum l.forecast, fOpt fNum l.boundLength, fOpt fYesNo l.carbonOk, fNum l.setpoint,
        fNum l.holdingDuty, fNum l.gain, fNum l.nominalRate, fNum l.strikeLead, fNum l.reserve] := by
  simp [lstatFields]

/-! ### The statement -/

/-- Settles O20: the command is taken and answered with the record's fields, and these agree with R25 and R83 field by
field; what `congr!` leaves are the fields that may be absent, written as a hyphen where they are. -/
theorem mstatAndLstatAnswerTheRecords : Obligations.MstatAndLstatAnswerTheRecords := by
  refine ⟨fun m a s hp hm => ?mstat, fun m a s hp hm => ?lstat⟩
  case mstat =>
    rw [exec_mstat_answered hp hm]
    simp only [mstatFields, fOnOff]
    congr!
    · cases (s.machine m).reelId <;> rfl
    · cases (s.machine m).boundSlot <;> rfl
    · cases (s.machine m).cfps <;> rfl
    · cases (s.machine m).pictureLost <;> rfl
  case lstat =>
    rw [exec_lstat_answered hp hm, lstatFields_eq, lampStateFields_eq, LampRec.rateFields_eq]
    simp only [fClosed, List.append_assoc, List.cons_append, List.nil_append]
    congr!
    · cases (s.lamp m).boundLength <;> rfl
    · rcases (s.lamp m).carbonOk with _ | _ | _ <;> rfl

end Sys2Proof.Machine

/-! The disposal of codes (R50, R51): what a rejection writes, the two windows, and the branches of Table 3-4. -/

namespace Sys2Proof.Machine

open Sys2Proof Host

/-! ### What a rejection writes -/

/-- A record change that keeps motor and state is no posting the decoder acts on (R47). -/
theorem DecoderRec.follow_of_kept {old new : MachineRec} (d : DecoderRec) (hmotor : new.motor = old.motor)
    (hstate : new.state = old.state) : d.follow old new = d := by
  simp [DecoderRec.follow, hmotor, hstate]

/-- A posting in a state that is not judged writes the last posting of its own machine and no more (R99). -/
theorem PlanStore.noteMachine_only (m : MachineId) (st : MachineState) (p : PlanStore) :
    p.noteMachine m st = { p with lastPosting := (p.noteMachine m st).lastPosting }
    ∧ ∀ j, j ≠ m → (p.noteMachine m st).lastPosting.get j = p.lastPosting.get j := by
  unfold PlanStore.noteMachine
  split
  · exact ⟨rfl, fun _ _ => rfl⟩
  · exact ⟨rfl, fun _ hj => Quad.get_set_ne _ _ hj⟩

theorem State.modMachine_onlyMachine (m : MachineId) (f : MachineRec → MachineRec) (s : State) :
    OnlyMachine m s (s.modMachine m f) := by
  obtain ⟨hplan, hposting⟩ := PlanStore.noteMachine_only m (f (s.machine m)).settleDouser.state s.plan
  refine ⟨rfl, hplan, fun j hj => ⟨?_, ?_, hposting j hj⟩⟩
  · simp [hj]
  · exact Quad.get_set_ne _ _ hj

theorem OnlyMachine.report {m : MachineId} {s t : State} (h : OnlyMachine m s t) (r : Report) :
    OnlyMachine m s (t.report r) := by
  obtain ⟨hrest, hplan, hothers⟩ := h
  refine ⟨?_, hplan, hothers⟩
  rw [hrest]
  rfl

theorem State.rejectCue_onlyMachine (m : MachineId) (code : Option Nat) (f : Nat) (why : RejectReason) (s : State) :
    OnlyMachine m s (s.rejectCue m code f why) :=
  (s.modMachine_onlyMachine m _).report _

@[simp] theorem State.rejectCue_decoder (m : MachineId) (code : Option Nat) (f : Nat) (why : RejectReason) (s : State) :
    (s.rejectCue m code f why).decoder m = s.decoder m := by
  simp [State.rejectCue, State.decoder, DecoderRec.follow_of_kept, MachineRec.settleDouser, MachineRec.countRejected]

@[simp] theorem State.rejectCue_line (m : MachineId) (code : Option Nat) (f : Nat) (why : RejectReason) (s : State) :
    (s.rejectCue m code f why).line = s.line.report (.reject (screenOf m) m code f why) := rfl

@[simp] theorem State.rejectCue_machine (m : MachineId) (code : Option Nat) (f : Nat) (why : RejectReason) (s : State) :
    (s.rejectCue m code f why).machine m = (s.machine m).countRejected.settleDouser := by
  simp [State.rejectCue]

/-! ### The windows (R51) -/

theorem State.motorInWindow_iff (s : State) (sc : ScreenId) (m : MachineId) (co f : Nat) :
    s.motorInWindow sc m co f = true ↔ ∃ n, s.startPoint sc m = some n ∧ 0 < co - f ∧ co - f ≤ n + 240 := by
  unfold State.motorInWindow
  cases s.startPoint sc m <;> simp

theorem changeoverInWindow_iff (co w f : Nat) :
    changeoverInWindow co w f = true ↔ co - w ≤ f ∧ f ≤ co + w := by
  simp [changeoverInWindow]

/-! ### MOTOR and CHANGEOVER codes -/

/-- Codes 1 and 2 go to the changeover tests for the ON_SCREEN machine alone (R50). -/
theorem State.disposeCode_changeover (m : MachineId) (isMotor : Bool) (f : Nat) (s : State) :
    s.disposeCode m (if isMotor then 1 else 2) f =
      if (s.machine m).state = .onScreen then s.changeoverCue m isMotor f
      else s.rejectCue m (some (if isMotor then 1 else 2)) f .source := by
  cases isMotor <;> rfl

theorem State.changeoverCue_of_noSuccessor {m : MachineId} {s : State} (isMotor : Bool) (f : Nat)
    (hsucc : s.successorWithCo (screenOf m) = false) :
    s.changeoverCue m isMotor f = s.rejectCue m (some (if isMotor then 1 else 2)) f .noSucc := by
  simp [State.changeoverCue, hsucc]

section Successor

variable {m : MachineId} {s : State} {e : SlotEntry} {co : Nat}
  (hsucc : s.successorWithCo (screenOf m) = true) (hentry : s.currentEntry (screenOf m) = some e) (hco : e.co = some co)

include hsucc hentry hco

theorem State.changeoverCue_of_foot (isMotor : Bool) (f : Nat) (hmode : e.mode = .foot) :
    s.changeoverCue m isMotor f = s.rejectCue m (some (if isMotor then 1 else 2)) f .foot := by
  cases e
  subst hco hmode
  simp [State.changeoverCue, hsucc, hentry]

/-- A MOTOR cue in its window is accepted, and a start falls due while a reel is on the screen (R53). -/
theorem State.changeoverCue_motor (f : Nat) (hmode : e.mode = .film) :
    s.changeoverCue m true f =
      if s.motorInWindow (screenOf m) m co f = true then
        if (s.screen (screenOf m)).state.shows = true then
          (s.report (.cue (screenOf m) m (.code 1) f .accept)).startDue (screenOf m) .cue true
        else s.report (.cue (screenOf m) m (.code 1) f .accept)
      else s.rejectCue m (some 1) f .window := by
  cases e
  subst hco hmode
  simp only [State.changeoverCue, hsucc, hentry, reduceCtorEq, if_true, if_false]
  cases (s.screen (screenOf m)).state <;> rfl

theorem State.changeoverCue_changeover (f : Nat) (hmode : e.mode = .film) :
    s.changeoverCue m false f =
      if changeoverInWindow co e.window f = true then
        (s.report (.cue (screenOf m) m (.code 2) f .accept)).reachPoint (screenOf m) .cue f
      else s.rejectCue m (some 2) f .window := by
  cases e
  subst hco hmode
  simp [State.changeoverCue, hsucc, hentry]

end Successor

/-! ### Effect codes -/

@[simp] theorem State.disposeCode_number (m : MachineId) (c : EffectCode) (f : Nat) (s : State) :
    s.disposeCode m c.number f = s.effectCue m c f := by
  cases c <;> rfl

theorem State.effectCue_of_onScreen {m : MachineId} {s : State} (c : EffectCode) (f : Nat)
    (hstate : (s.machine m).state = .onScreen) :
    s.effectCue m c f = s.execEffect (screenOf m) m c f := by
  simp [State.effectCue, hstate]

theorem State.effectCue_of_runup {m : MachineId} {s : State} (c : EffectCode) (f : Nat)
    (hstate : (s.machine m).state = .runup) : s.effectCue m c f = s.deferCue m c f := by
  simp [State.effectCue, hstate]

theorem State.effectCue_of_elsewhere {m : MachineId} {s : State} (c : EffectCode) (f : Nat)
    (hscreen : (s.machine m).state ≠ .onScreen) (hrunup : (s.machine m).state ≠ .runup) :
    s.effectCue m c f = s.rejectCue m (some c.number) f .source := by
  unfold State.effectCue
  split
  · contradiction
  · contradiction
  all_goals rfl

/-! ### The statement -/

/-- Settles O24: codes 1 and 2 by the tests in the order of Table 3-4, codes 3 to 6 by the source machine's state, and
what a rejection writes. -/
theorem codesAreDisposedOf : Obligations.CodesAreDisposedOf := by
  refine fun m f s => ⟨fun p hp => ?changeover, fun c => ?effect, rfl, fun code why => ?rejection⟩
  case changeover =>
    obtain ⟨isMotor, rfl⟩ : ∃ isMotor : Bool, p = if isMotor then 1 else 2 :=
      hp.elim (fun h => ⟨true, h⟩) (fun h => ⟨false, h⟩)
    rw [State.disposeCode_changeover]
    refine ⟨fun hsource => if_neg hsource, fun hsource hsucc => ?_, fun hsource hsucc e co hentry hco => ?_⟩
    · rw [if_pos hsource, State.changeoverCue_of_noSuccessor isMotor f hsucc]
    rw [if_pos hsource]
    refine ⟨State.changeoverCue_of_foot hsucc hentry hco isMotor f, fun hmode hmotor => ?motor,
      fun hmode hchangeover => ?window⟩
    case motor =>
      obtain rfl : isMotor = true := by simpa using hmotor
      rw [State.changeoverCue_motor hsucc hentry hco f hmode]
      refine ⟨fun n hn hpos hle => if_pos ?_, fun hout => if_neg ?_⟩
      · exact (s.motorInWindow_iff _ m co f).mpr ⟨n, hn, hpos, hle⟩
      · rw [State.motorInWindow_iff]
        rintro ⟨n, hn, hpos, hle⟩
        have := hout.imp_right fun h => h n hn
        omega
    case window =>
      obtain rfl : isMotor = false := by simpa using hchangeover
      rw [State.changeoverCue_changeover hsucc hentry hco f hmode]
      refine ⟨fun hlo hhi => if_pos ?_, fun hout => if_neg ?_⟩
      · exact (changeoverInWindow_iff co e.window f).mpr ⟨hlo, hhi⟩
      · rw [changeoverInWindow_iff]
        omega
  case effect =>
    rw [State.disposeCode_number]
    refine ⟨fun hscreen => State.effectCue_of_onScreen c f hscreen, fun hrunup hroom => ?_, fun hrunup hfull => ?_,
      State.effectCue_of_elsewhere c f⟩
    · rw [State.effectCue_of_runup c f hrunup]
      exact if_pos hroom
    · rw [State.effectCue_of_runup c f hrunup]
      exact if_neg (Nat.not_lt.mpr hfull)
  case rejection =>
    exact ⟨s.rejectCue_onlyMachine m code f why, s.rejectCue_decoder m code f why, s.rejectCue_line m code f why,
      by simp [MachineRec.countRejected, MachineRec.settleDouser]⟩

end Sys2Proof.Machine

/-! The feed order of a gate (R69): the duty of the regulation law, and the tests whose own order replaces it. -/

namespace Sys2Proof.Machine

open Sys2Proof Host

/-! ### The gate that completes -/

/-- The record of a completed gate before the rule of its state acts: its count is written and the next gate begun
(R63). -/
def LampRec.gateCounted (count : Nat) (l : LampRec) : LampRec :=
  { l with arcCount := min Config.maxArcCount count, gate := some 0 }

theorem LampRec.takeGate_of_burning {l : LampRec} (count : Nat) (hgate : l.gate.isSome = true)
    (hstate : l.state = .burning) : l.takeGate count = ((l.gateCounted count).burningGate, .quiet) := by
  obtain ⟨g, hg⟩ := Option.isSome_iff_exists.mp hgate
  simp only [LampRec.takeGate, LampRec.gateCounted, hg, hstate]

theorem LampRec.takeGate_of_prove {l : LampRec} (count : Nat) (hgate : l.gate.isSome = true)
    (hstate : l.state = .striking) (hphase : l.phase = some .prove) :
    l.takeGate count = (l.gateCounted count).proveGate := by
  obtain ⟨g, hg⟩ := Option.isSome_iff_exists.mp hgate
  simp only [LampRec.takeGate, LampRec.gateCounted, hg, hstate, hphase]

/-! ### The duty of the regulation law -/

/-- The regulation law over the integers: limited to 0 at the least, the sum is not cut by being kept as a natural
number. -/
theorem LampRec.regulationDuty_cast (l : LampRec) :
    (l.regulationDuty : Int) =
      if -15 ≤ (l.arcCount : Int) - l.setpoint ∧ (l.arcCount : Int) - l.setpoint ≤ 15 then (l.holdingDuty : Int)
      else max 0 (min 255 (l.holdingDuty + (((l.arcCount : Int) - l.setpoint) * l.gain).tdiv 16)) := by
  unfold LampRec.regulationDuty
  dsimp only
  split
  · rfl
  · exact Int.toNat_of_nonneg (le_max_left 0 _)

/-! ### The feed order a gate of BURNING leaves (R69 to R71) -/

/-- The feed order stands at FWD and the regulation duty where neither test of the gate acts. -/
theorem LampRec.burningGate_feed_of_noTest (l : LampRec) (hshort : ¬ (l.arcCount ≤ 200 ∧ 3 ≤ l.shortGapRun + 1))
    (hout : ¬ (1000 ≤ l.arcCount ∧ 3 ≤ l.arcOutRun + 1)) :
    l.burningGate.feedForward = true ∧ l.burningGate.feedDuty = l.regulationDuty := by
  have hshortRun : ¬ 3 ≤ if l.arcCount ≤ 200 then l.shortGapRun + 1 else 0 := by split <;> omega
  have houtRun : ¬ 3 ≤ if 1000 ≤ l.arcCount then l.arcOutRun + 1 else 0 := by split <;> omega
  simp only [LampRec.burningGate, Config.shortGapCount, Config.arcOutCount, hshortRun, houtRun, if_false, and_self]

/-- The third short gap retracts the carbons, whatever duty was formed (R70). -/
theorem LampRec.burningGate_feed_of_shortGap (l : LampRec) (hcount : l.arcCount ≤ 200) (hrun : 3 ≤ l.shortGapRun + 1) :
    l.burningGate.feedForward = false ∧ l.burningGate.feedDuty = 255 := by
  simp [LampRec.burningGate, Config.shortGapCount, hcount, hrun, LampRec.retractShortGap]

/-- The third arc-out gate begins the re-strike, whose FEED phase runs the feed at full duty (R71, R65): its count is no
short gap, so that the short-gap test before it does not act. -/
theorem LampRec.burningGate_feed_of_arcOut (l : LampRec) (hcount : 1000 ≤ l.arcCount) (hrun : 3 ≤ l.arcOutRun + 1) :
    l.burningGate.feedForward = true ∧ l.burningGate.feedDuty = 255 := by
  have hnotShort : ¬ l.arcCount ≤ 200 := by omega
  simp [LampRec.burningGate, Config.shortGapCount, Config.arcOutCount, hcount, hrun, hnotShort, LampRec.arcGoesOut,
    LampRec.recompute, LampRec.beginAttempt]

/-! ### The feed order a gate of PROVE leaves (R66, R67, R69) -/

/-- An attempt that fails opens the contactor and stops the feed, in each of its three outcomes (R67). -/
theorem LampRec.attemptFails_feedDuty (l : LampRec) : l.attemptFails.1.feedDuty = 0 := by
  unfold LampRec.attemptFails
  dsimp only
  split
  case isTrue => rfl
  case isFalse => split <;> rfl

theorem LampRec.proveGate_feedDuty_of_notHeld (l : LampRec) (hcount : 1000 ≤ l.arcCount) :
    l.proveGate.1.feedDuty = 0 := by
  unfold LampRec.proveGate
  rw [if_pos (show Config.arcOutCount ≤ l.arcCount from hcount)]
  exact LampRec.attemptFails_feedDuty _

/-- The arc that is held keeps the order formed at the gate, whether or not it is the third gate, which establishes the
arc. -/
theorem LampRec.proveGate_feed_of_held (l : LampRec) (hcount : l.arcCount < 1000) :
    l.proveGate.1.feedForward = true ∧ l.proveGate.1.feedDuty = l.regulationDuty := by
  unfold LampRec.proveGate
  rw [if_neg (show ¬ Config.arcOutCount ≤ l.arcCount from Nat.not_le.mpr hcount)]
  split
  case isTrue => exact ⟨rfl, rfl⟩
  case isFalse => exact ⟨rfl, rfl⟩

/-! ### The statement -/

/-- Settles O28: the gate of BURNING and the gate of PROVE each leave the order formed by the regulation law or that of
the test that acts; the law's duty over the integers is R69's. -/
theorem feedRegulation : Obligations.FeedRegulation := by
  intro l count hgate hlamp n e duty x
  have hduty : ((l.gateCounted count).regulationDuty : Int) = duty := LampRec.regulationDuty_cast _
  rcases hlamp with hburning | ⟨hstriking, hprove⟩
  case inl =>
    have hx : x = (l.gateCounted count).burningGate :=
      congrArg Prod.fst (LampRec.takeGate_of_burning count hgate hburning)
    have hnotStriking : l.state ≠ .striking := by simp [hburning]
    rw [hx, ← hduty, Nat.cast_inj]
    exact ⟨fun _ => (l.gateCounted count).burningGate_feed_of_noTest, fun h => absurd h hnotStriking,
      fun _ => (l.gateCounted count).burningGate_feed_of_shortGap,
      fun _ => (l.gateCounted count).burningGate_feed_of_arcOut, fun h => absurd h hnotStriking⟩
  case inr =>
    have hx : x = (l.gateCounted count).proveGate.1 :=
      congrArg Prod.fst (LampRec.takeGate_of_prove count hgate hstriking hprove)
    have hnotBurning : l.state ≠ .burning := by simp [hstriking]
    rw [hx, ← hduty, Nat.cast_inj]
    exact ⟨fun h => absurd h hnotBurning, fun _ => (l.gateCounted count).proveGate_feed_of_held,
      fun h => absurd h hnotBurning, fun h => absurd h hnotBurning,
      fun _ => (l.gateCounted count).proveGate_feedDuty_of_notHeld⟩

end Sys2Proof.Machine

/-! The claims of a circuit (R133 to R135): which rank is the highest, what begins to govern as a claim is placed and as one
is released, and the circuit that follows. -/

namespace Sys2Proof.Machine

open Sys2Proof

/-! ### Ranks above and below -/

/-- The ranks above a rank (R134). -/
def Rank.above : Rank → List Rank
  | .safety => []
  | .fault => [.safety]
  | .cue => [.safety, .fault]
  | .console => [.safety, .fault, .cue]

/-- The ranks below a rank, highest first (R134). -/
def Rank.below : Rank → List Rank
  | .safety => [.fault, .cue, .console]
  | .fault => [.cue, .console]
  | .cue => [.console]
  | .console => []

theorem Rank.ne_of_mem_above {r q : Rank} (h : q ∈ r.above) : q ≠ r := by
  rintro rfl
  cases q <;> exact absurd h (by decide)

theorem Rank.ne_of_mem_below {r q : Rank} (h : q ∈ r.below) : q ≠ r := by
  rintro rfl
  cases q <;> exact absurd h (by decide)

/-- A claim of a rank above `r` is present, under which a claim of rank `r` waits (R133). -/
def ClaimTable.Outranked (t : ClaimTable) (r : Rank) : Prop := ∃ q ∈ r.above, (t.get q).isSome = true

/-- What stands at rank `r` itself does not outrank it. -/
theorem ClaimTable.outranked_set_iff (t : ClaimTable) (r : Rank) (x : Option Claim) :
    (t.set r x).Outranked r ↔ t.Outranked r :=
  exists_congr fun q => and_congr_right fun hq => by rw [ClaimTable.get_set, if_neg (Rank.ne_of_mem_above hq)]

/-- The highest rank is found by looking down the ranks, and `r` has the ranks above it before it and the others behind. -/
theorem ClaimTable.top_eq_find? (t : ClaimTable) (r : Rank) :
    t.top = (r.above ++ r :: r.below).find? fun q => (t.get q).isSome := by
  have hranks : r.above ++ r :: r.below = [.safety, .fault, .cue, .console] := by cases r <;> rfl
  rw [hranks]
  unfold ClaimTable.top
  simp only [List.find?, ClaimTable.get]
  grind

/-- Under no higher rank, the highest is `r` where its claim is present, and else the first present below. -/
theorem ClaimTable.top_of_not_outranked {t : ClaimTable} {r : Rank} (hfree : ¬ t.Outranked r) :
    t.top = if (t.get r).isSome then some r else r.below.find? fun q => (t.get q).isSome := by
  have habove : (r.above.find? fun q => (t.get q).isSome) = none :=
    List.find?_eq_none.mpr fun q hq hpresent => hfree ⟨q, hq, hpresent⟩
  rw [ClaimTable.top_eq_find? t r, List.find?_append, habove, Option.none_or, List.find?_cons]
  cases (t.get r).isSome <;> rfl

/-- Under a higher rank, `r` is not the highest. -/
theorem ClaimTable.top_ne_of_outranked {t : ClaimTable} {r : Rank} (h : t.Outranked r) : t.top ≠ some r := by
  obtain ⟨q, hfound⟩ := Option.isSome_iff_exists.mp (List.find?_isSome.mpr h)
  rw [ClaimTable.top_eq_find? t r, List.find?_append, hfound, Option.some_or]
  exact fun heq => Rank.ne_of_mem_above (List.mem_of_find?_eq_some hfound) (Option.some.inj heq)

/-- Where the highest claim leaves, the next rank down is the highest (R135). -/
theorem ClaimTable.top_set_none {t : ClaimTable} {r : Rank} (hfree : ¬ t.Outranked r) :
    (t.set r none).top = r.below.find? fun q => (t.get q).isSome := by
  rw [ClaimTable.top_of_not_outranked (mt (t.outranked_set_iff r none).mp hfree), ClaimTable.get_set, if_pos rfl]
  exact List.find?_congr fun q hq => by rw [ClaimTable.get_set, if_neg (Rank.ne_of_mem_below hq)]

theorem ClaimTable.eq_empty_of_top_eq_none {t : ClaimTable} (h : t.top = none) : t = ⟨none, none, none, none⟩ := by
  obtain ⟨a, b, c, d⟩ := t
  have hget := ClaimTable.top_none h
  simp only [ClaimTable.mk.injEq]
  exact ⟨hget .safety, hget .fault, hget .cue, hget .console⟩

@[simp] theorem ClaimTable.allWaiting_set_set (t : ClaimTable) (r : Rank) (x y : Option Claim) :
    (t.set r x).allWaiting.set r y = t.allWaiting.set r y := by cases r <;> rfl

/-! ### A claim begins to govern (R134) -/

/-- `x` is the circuit `c` with the claim of rank `q`, of target `t` and fade `f`, governing from the present output, and
every other claim of `table` waiting: at once where the fade has no step, else over its `5 f` steps. -/
def Circuit.Governs (h : Nat) (c : Circuit) (q : Rank) (table : ClaimTable) (t f : Nat) (x : Circuit) : Prop :=
  (f * 5 = 0 → x = { c with
    claims := table.allWaiting.set q (some ⟨t, f, some ⟨c.output, 0, 0⟩⟩), output := t, delay := firingDelay h t
    armed := if t = 0 then none else c.armed, stepMeasure := none })
  ∧ (f * 5 ≠ 0 → x = { c with
    claims := table.allWaiting.set q (some ⟨t, f, some ⟨c.output, 0, f * 5⟩⟩), stepMeasure := some 0 })

theorem Circuit.govern_governs (h : Nat) (c : Circuit) {q : Rank} {table : ClaimTable} {y : Claim}
    (hy : table.get q = some y) :
    c.Governs h q table y.target y.fade ({ c with claims := table }.govern h q) := by
  constructor <;> intro hfade <;>
    simp [Circuit.govern, Circuit.setOutput, hy, Config.stepsPerTenth, hfade]

/-! ### Placing (R133) -/

/-- Under a higher rank a placed claim waits, and nothing else changes. -/
theorem Circuit.place_of_outranked (h target fade : Nat) {r : Rank} {c : Circuit} (hwait : c.claims.Outranked r) :
    c.place h r target fade = { c with claims := c.claims.set r (some ⟨target, fade, none⟩) } :=
  if_neg (ClaimTable.top_ne_of_outranked ((c.claims.outranked_set_iff r _).mpr hwait))

/-- As the highest, a placed claim governs. -/
theorem Circuit.place_governs (h target fade : Nat) {r : Rank} {c : Circuit} (hfree : ¬ c.claims.Outranked r) :
    c.Governs h r c.claims target fade (c.place h r target fade) := by
  have htop : (c.claims.set r (some ⟨target, fade, none⟩)).top = some r := by
    simp [ClaimTable.top_of_not_outranked (mt (c.claims.outranked_set_iff r _).mp hfree)]
  have hplace : c.place h r target fade
      = { c with claims := c.claims.set r (some ⟨target, fade, none⟩) }.govern h r := if_pos htop
  have hgoverns := c.govern_governs h (q := r) (y := ⟨target, fade, none⟩)
    (table := c.claims.set r (some ⟨target, fade, none⟩)) (by simp)
  rw [hplace]
  simpa [Circuit.Governs] using hgoverns

/-! ### Releasing (R135) -/

theorem Circuit.release_of_absent (h : Nat) {r : Rank} {c : Circuit} (habsent : c.claims.get r = none) :
    c.release h r = c := by
  simp [Circuit.release, habsent]

/-- A waiting claim leaves, and nothing else changes. -/
theorem Circuit.release_of_outranked (h : Nat) {r : Rank} {c : Circuit} (hpresent : (c.claims.get r).isSome = true)
    (hwait : c.claims.Outranked r) : c.release h r = { c with claims := c.claims.set r none } := by
  obtain ⟨x, hx⟩ := Option.isSome_iff_exists.mp hpresent
  simp [Circuit.release, hx, ClaimTable.top_ne_of_outranked hwait]

section Governing

variable (h : Nat) {r : Rank} {c : Circuit} (hpresent : (c.claims.get r).isSome = true)
  (hfree : ¬ c.claims.Outranked r)
include hpresent hfree

theorem Circuit.top_of_governing : c.claims.top = some r := by
  rw [ClaimTable.top_of_not_outranked hfree, if_pos hpresent]

/-- The governing claim leaves, and the next rank down governs. -/
theorem Circuit.release_governs {q : Rank} {y : Claim}
    (hnext : (r.below.find? fun q => (c.claims.get q).isSome) = some q) (hy : c.claims.get q = some y) :
    c.Governs h q (c.claims.set r none) y.target y.fade (c.release h r) := by
  obtain ⟨x, hx⟩ := Option.isSome_iff_exists.mp hpresent
  have hrelease : c.release h r = { c with claims := c.claims.set r none }.govern h q := by
    simp only [Circuit.release, hx, Circuit.top_of_governing hpresent hfree, if_true, ClaimTable.top_set_none hfree, hnext]
  have hne : q ≠ r := Rank.ne_of_mem_below (List.mem_of_find?_eq_some hnext)
  rw [hrelease]
  exact c.govern_governs h (by rw [ClaimTable.get_set, if_neg hne, hy])

/-- The last claim leaves, and the circuit goes to full at once. -/
theorem Circuit.release_to_full (hnext : (r.below.find? fun q => (c.claims.get q).isSome) = none) :
    c.release h r = { c with claims := ⟨none, none, none, none⟩, output := 255, delay := firingDelay h 255,
                             stepMeasure := none } := by
  obtain ⟨x, hx⟩ := Option.isSome_iff_exists.mp hpresent
  have htop : (c.claims.set r none).top = none := (ClaimTable.top_set_none hfree).trans hnext
  have hrelease : c.release h r = { ({ c with claims := c.claims.set r none } : Circuit).setOutput h Config.fullLevel with
      stepMeasure := none } := by
    simp only [Circuit.release, hx, Circuit.top_of_governing hpresent hfree, if_true, htop]
  rw [hrelease, ClaimTable.eq_empty_of_top_eq_none htop]
  rfl

end Governing

/-! ### The statement -/

/-- Settles O46: a claim waits under a higher rank and governs as the highest; the released governing claim gives way to the
first claim present below it. -/
theorem claimsArePlacedAndReleased : Obligations.ClaimsArePlacedAndReleased := by
  intro h target fade r c
  exact ⟨Circuit.place_of_outranked h target fade, Circuit.place_governs h target fade, Circuit.release_of_absent h,
    Circuit.release_of_outranked h, fun _ _ hpresent hfree => Circuit.release_governs h hpresent hfree,
    Circuit.release_to_full h⟩

end Sys2Proof.Machine

/-! The firing delay (R142): its figures, and the law of the house lights across every step, by which each circuit's delay
is that of its level. -/

namespace Sys2Proof.Machine

open Sys2Proof Host

/-! ### The figures -/

theorem firingDelay_zero (h : Nat) : firingDelay h 0 = none := rfl

/-- The quotient's difference, raised to 100 and lowered to `h - 300` (R142). -/
theorem firingDelay_of_pos {h l : Nat} (hh : 7500 ≤ h) (hl : 1 ≤ l) :
    firingDelay h l = some (if h - h * l * l / 65025 < 100 then 100
      else if h - 300 < h - h * l * l / 65025 then h - 300 else h - h * l * l / 65025) := by
  have hbound : ∀ q, max 100 (min (h - 300) (h - q))
      = if h - q < 100 then 100 else if h - 300 < h - q then h - 300 else h - q := fun q => by
    split_ifs <;> omega
  exact (if_neg (Nat.ne_of_gt hl)).trans (congrArg some (hbound _))

theorem firingDelay_bounds {h l d : Nat} (hh : 7500 ≤ h) (hd : firingDelay h l = some d) : 100 ≤ d ∧ d ≤ h - 300 := by
  unfold firingDelay at hd
  split at hd
  case isTrue => exact absurd hd (by simp)
  case isFalse =>
    have hform := Option.some.inj hd
    simp only [Config.minDelay, Config.endMargin] at hform
    omega

/-! ### A zero crossing (R141) -/

/-- The average that becomes H in use lies within 7,500 to 11,000. -/
theorem HouseLights.formHalfCycle_bounds {x : HouseLights} (h : 7500 ≤ x.halfCycle ∧ x.halfCycle ≤ 11000) :
    7500 ≤ x.formHalfCycle.halfCycle ∧ x.formHalfCycle.halfCycle ≤ 11000 := by
  unfold HouseLights.formHalfCycle
  split
  case isFalse => exact h
  case isTrue =>
    dsimp only
    split
    case isTrue hin => exact hin
    case isFalse => exact h

theorem HouseLights.timeCrossing_bounds {x : HouseLights} (h : 7500 ≤ x.halfCycle ∧ x.halfCycle ≤ 11000) :
    7500 ≤ x.timeCrossing.halfCycle ∧ x.timeCrossing.halfCycle ≤ 11000 := by
  unfold HouseLights.timeCrossing
  split
  case isTrue => exact HouseLights.formHalfCycle_bounds h
  case isFalse => exact h

@[simp] theorem HouseLights.formHalfCycle_circuits (x : HouseLights) : x.formHalfCycle.circuits = x.circuits := by
  unfold HouseLights.formHalfCycle
  split
  case isFalse => rfl
  case isTrue => dsimp only; split <;> rfl

@[simp] theorem HouseLights.timeCrossing_circuits (x : HouseLights) : x.timeCrossing.circuits = x.circuits := by
  unfold HouseLights.timeCrossing
  split
  case isTrue => exact HouseLights.formHalfCycle_circuits _
  case isFalse => rfl

/-- One circuit at a crossing: its delay is formed anew where H in use changes to `h'`, and it is armed from the second
crossing on. -/
def Circuit.crossed (reference : Bool) (h h' : Nat) (c : Circuit) : Circuit :=
  let delayed := if h' = h then c else c.newHalfCycle h'
  if reference then delayed.cross else delayed

theorem HouseLights.cross_circuit (x : HouseLights) (sc : ScreenId) (c : CircuitId) :
    (x.cross.circuits.get sc).get c
      = ((x.circuits.get sc).get c).crossed x.crossingRef x.halfCycle x.timeCrossing.halfCycle := by
  simp only [HouseLights.cross, Circuit.crossed, HouseLights.timeCrossing_circuits]
  split <;> split <;> simp

theorem CircuitLaw.crossed {h : Nat} {c : Circuit} (k : CircuitLaw h c) (reference : Bool) (h' : Nat) :
    CircuitLaw h' (c.crossed reference h h') := by
  have hdelayed : CircuitLaw h' (if h' = h then c else c.newHalfCycle h') := by
    split
    case isTrue heq => exact heq ▸ k
    case isFalse => exact k.newHalfCycle h'
  unfold Circuit.crossed
  dsimp only
  split
  case isTrue => exact hdelayed.cross
  case isFalse => exact hdelayed

@[simp] theorem Circuit.crossed_claims (reference : Bool) (h h' : Nat) (c : Circuit) :
    (c.crossed reference h h').claims = c.claims := by
  unfold Circuit.crossed
  dsimp only
  split <;> split <;> rfl

theorem LightsLaw.cross {s : State} (k : LightsLaw s) : LightsLaw (s.modLights HouseLights.cross) where
  halfCycle := HouseLights.timeCrossing_bounds k.halfCycle
  circuit sc c := by
    have hcircuit : (s.modLights HouseLights.cross).circuit sc c = _ := s.lights.cross_circuit sc c
    rw [hcircuit]
    exact (k.circuit sc c).crossed _ _
  safety sc c := by
    have hcircuit : (s.modLights HouseLights.cross).circuit sc c = _ := s.lights.cross_circuit sc c
    rw [hcircuit, Circuit.crossed_claims]
    exact k.safety sc c
  booth := k.booth

/-! ### Power (R148, R166) -/

/-- At power-on a SAFETY claim stands on every circuit, and every latch is set. -/
theorem LightsLaw.ofPowerOn {s : State} (hlights : s.lights = HouseLights.atPowerOn)
    (hlatch : s.fire.machineLatch = Quad.same (some .booth)) : LightsLaw s := by
  have hcircuit : ∀ sc c, s.circuit sc c = Circuit.atPowerOn := fun sc c => by
    rw [State.circuit, hlights]
    cases sc <;> cases c <;> rfl
  have hset : ∀ m, (s.fire.machineLatch.get m).isSome = true := fun m => by
    rw [hlatch]
    cases m <;> rfl
  refine ⟨by rw [hlights]; decide, fun sc c => ?_, fun sc c => ?_, fun _ => hset⟩
  · rw [hcircuit, hlights]
    refine ⟨fun r x htop hget => ?_, by decide, fun r x hwait hget => ?_, by decide, by decide, fun x hx => ?_⟩
    · cases Option.some.inj htop
      cases hget
      exact ⟨_, rfl, by decide⟩
    · cases r with
      | safety => exact absurd rfl hwait
      | fault => cases hget
      | cue => cases hget
      | console => cases hget
    · cases hx
      exact ⟨rfl, rfl⟩
  · simp [hcircuit, State.screenLatched, hset, Circuit.atPowerOn]

/-! ### Every step -/

/-- The law of the house lights is kept by every kind of change a command is made of. -/
theorem LightsLaw.keeper : Keeper LightsLaw where
  react h q := q.lights h
  line h _ _ := h.congr rfl rfl rfl
  plan h _ _ := h.congr rfl rfl rfl
  screen h _ _ := h.congr rfl rfl rfl
  decoder h _ _ _ := h.congr rfl rfl rfl
  elapse h dt := h.elapse dt
  mach h m f _ _ _ _ _ _ _ := h.modMachine m f
  lamp h m f _ _ _ := h.modLamp m f
  strike h m _ := h.modLamp m _
  circuit h sc c f hlaw hsafety := h.ofCircuit sc c f (hlaw _ _ (h.circuit sc c)) (hsafety _ _)
  cross h := h.cross
  scenes h _ _ _ := ⟨h.halfCycle, h.circuit, h.safety, h.booth⟩
  fire h _ _ hmachine hbooth _ := h.congr rfl hmachine hbooth
  boothTrip h _ n := h.boothTripOrders n
  machineTrip h m n := h.machineTripOrders m n
  slots h _ _ _ _ _ _ _ := h.congr rfl rfl rfl
  slot h _ _ _ _ _ := h.congr rfl rfl rfl
  bind h m _ _ _ _ _ _ _ := by
    refine LightsLaw.modLamp (LightsLaw.modMachine ?_ m _) m _
    exact h.congr rfl rfl rfl
  unthread h m _ := LightsLaw.modMachine
    (h.congr (State.endBinding_lights m .loaded _) (by rw [State.endBinding_fire]) (by rw [State.endBinding_fire])) m _
  resetM h m hbooth _ _ := h.resetMachineOrders m hbooth
  resetB h _ _ := h.resetBoothOrders
  restart h := h.restartBlocks
  power _ _ _ _ e := by cases e; exact LightsLaw.ofPowerOn rfl rfl
  off _ _ e := by cases e; exact LightsLaw.ofPowerOn rfl rfl
  pending h _ := h.congr rfl rfl rfl

/-- What every kind of change keeps, every step keeps: a command that waits or was handed, or a microsecond. -/
theorem Keeper.step_keeps {L : State → Prop} (K : Keeper L) {s t : State} (h : L s) (e : step s = .next t) : L t := by
  unfold step at e
  split at e
  next i rest _ => exact K.exec_keeps (K.pending h rest) i t e
  next =>
    split at e
    next i _ => exact K.exec_keeps h i t e
    next =>
      cases e
      exact State.whenPowered_keeps h fun _ => K.elapse h 1

/-! ### The statement -/

/-- Settles O47: the figures by the cases of the level, and the delay of a circuit by the law of the house lights, which
every step keeps. -/
theorem firingDelayIsFormed : Obligations.FiringDelayIsFormed := by
  refine ⟨fun h l hh _ hl _ => ?figures, firingDelay_zero, fun s t hlaw hstep sc c => ?kept⟩
  case figures =>
    exact ⟨firingDelay_of_pos hh hl, _, firingDelay_of_pos hh hl, firingDelay_bounds hh (firingDelay_of_pos hh hl)⟩
  case kept =>
    have hcircuit := (LightsLaw.keeper.step_keeps hlaw hstep).circuit sc c
    refine ⟨hcircuit.delay, fun hdark => ⟨by rw [hcircuit.delay, hdark, firingDelay_zero], ?_⟩⟩
    by_contra harmed
    exact hcircuit.armed (Option.isSome_iff_ne_none.mpr harmed) hdark

end Sys2Proof.Machine

/-! The inquiry HLSTAT (R147): a fitted screen's operand is accepted, the command is taken and answered, and the fields it
writes are those of the circuits and of the mains record. -/

namespace Sys2Proof.Machine

open Sys2Proof Host

/-- The number of a fitted screen is accepted as that screen (R176). -/
theorem onlyScreen_of_namesScreen {s : State} {a : Text} {sc : ScreenId} (h : s.namesScreen a sc) :
    onlyScreen s [a] = .ok sc := by
  obtain ⟨hnum, hfitted⟩ := h
  obtain ⟨n, hn, hsc⟩ := Option.bind_eq_some_iff.mp hnum
  have hoperand : screenOperand s n = .ok sc := by
    have hserved : ¬ (sc = .s2 ∧ s.straps.screen2Fitted = false) := fun ⟨h2, hnot⟩ => by simp [hfitted h2] at hnot
    simp [screenOperand, hsc, hserved]
  calc onlyScreen s [a] = formOf (number? a) >>= screenOperand s := rfl
    _ = screenOperand s n := by rw [hn]; rfl
    _ = .ok sc := hoperand

/-- Taking a command leaves which words name which screens. -/
@[simp] theorem State.taken_namesScreen (s : State) (c : Instr) (w : Text) (sc : ScreenId) :
    (s.taken c).namesScreen w sc ↔ s.namesScreen w sc := Iff.rfl

@[simp] theorem State.taken_hlstatFields (s : State) (c : Instr) (sc : ScreenId) :
    (s.taken c).hlstatFields sc = s.hlstatFields sc := rfl

theorem exec_hlstat_answered {s : State} {a : Text} {sc : ScreenId} (hp : s.powered = true) (h : s.namesScreen a sc) :
    exec (.hlstat [a]) s = .next (s.answered (.hlstat [a]) (.ok (s.hlstatFields sc))) := by
  have hsc : onlyScreen (s.taken (.hlstat [a])) [a] = .ok sc := onlyScreen_of_namesScreen (by simpa using h)
  change execHlstat [a] s = _
  simp [execHlstat, State.takeCommand_of_powered hp, hsc, State.answered]

/-- The fields of a circuit, the name of its governing rank written out (R147). -/
theorem circuitFields_eq (c : CircuitId) (x : Circuit) :
    circuitFields c x = [fCircuit c, fNum x.output, fOpt fNum x.delay,
        (if x.claims.safety.isSome then txt "SAFETY" else if x.claims.fault.isSome then txt "FAULT"
          else if x.claims.cue.isSome then txt "CUE" else if x.claims.console.isSome then txt "CONSOLE"
          else txt "NONE")]
      ++ claimFields .safety x.claims.safety ++ claimFields .fault x.claims.fault ++ claimFields .cue x.claims.cue
      ++ claimFields .console x.claims.console := by
  unfold circuitFields ClaimTable.top
  split_ifs <;> rfl

/-- Settles O21: the command is taken and answered with the fields of the circuits, and these agree with R147 circuit by
circuit. -/
theorem hlstatAnswersTheCircuits : Obligations.HlstatAnswersTheCircuits := by
  intro sc a s hp hsc claim circuit
  have hclaim : ∀ (name : String) (r : Rank) (x : Option Claim), fRank r = txt name → claimFields r x = claim name x := by
    intro name r x hname
    cases x with
    | none => rfl
    | some x =>
      obtain ⟨target, fade, governing⟩ := x
      cases governing <;> simp [claimFields, claim, hname]
  have hcircuit : ∀ (name : String) (k : CircuitId) (x : Circuit), fCircuit k = txt name →
      circuitFields k x = circuit name x := by
    intro name k x hname
    simp only [circuitFields_eq, circuit, hname, hclaim "SAFETY" .safety _ rfl,
      hclaim "FAULT" .fault _ rfl, hclaim "CUE" .cue _ rfl, hclaim "CONSOLE" .console _ rfl]
    cases x.delay <;> rfl
  rw [exec_hlstat_answered hp hsc]
  simp only [State.hlstatFields, hcircuit "HOUSE" .house _ rfl, hcircuit "AISLE" .aisle _ rfl,
    hcircuit "STAGE" .stage _ rfl]
  rfl

end Sys2Proof.Machine

/-! The laws of the booth, of the fire unit, of the line unit, of the cue decoders and of the plan are each kept by every
kind of change a command is made of (`Keeper`), and so by every step. -/

namespace Sys2Proof.Machine

open Sys2Proof Host

/-! ### The booth -/

/-- The records of POWER_ON and POWER_REMOVED: every latch set, every machine TRIPPED and every lamp DARK. -/
theorem BoothLaw.ofPowerOn {s : State} (hmachine : ∀ m, ∃ a b, s.machine m = MachineRec.atPowerOn a b)
    (hlamp : ∀ m, s.lamp m = LampRec.atPowerOn) (hlatch : ∀ m, (s.fire.machineLatch.get m).isSome = true)
    (hmagnet : ∀ m, (s.fire.shutters.get m).magnet = false) : BoothLaw s where
  machine m := by
    obtain ⟨a, b, h⟩ := hmachine m
    rw [h, hlamp]
    refine ⟨?_, rfl, rfl, rfl, rfl, rfl, rfl, nofun, nofun, rfl, fun _ => ⟨rfl, rfl⟩⟩
    simp [MachineRec.atPowerOn]
  lamp m := by
    rw [hlamp]
    exact ⟨rfl, rfl, rfl, by decide, rfl, rfl, by decide, by decide, by decide, rfl, by decide⟩
  latched m _ := by
    obtain ⟨a, b, h⟩ := hmachine m
    rw [h, hlamp]
    exact ⟨rfl, rfl, rfl, rfl, by decide, hmagnet m⟩
  unlatched m h := by
    have := hlatch m
    rw [h] at this
    cases this
  booth _ := hlatch

/-- A slot written on, a reel accepted and the lamp's notice taken: the three parts of THREAD's binding (R95). -/
theorem BoothLaw.bind {s : State} (h : BoothLaw s) (m : MachineId) (id : Text) (n : SlotIx) (e : SlotEntry) (f : Slot → Slot)
    (hempty : (s.machine m).state = .empty) (hmotor : (s.machine m).motor = false) :
    BoothLaw (((s.modSlot (screenOf m) n f).modMachine m (MachineRec.acceptReel id n)).modLamp m (LampRec.bind e.length)) := by
  have hslot := h.modSlot (screenOf m) n f
  refine BoothLaw.ofLamp (hslot.ofMachine m _ ((hslot.machine m).acceptReel id n hempty hmotor) (fun hset => ?_) fun hclear => ?_)
    m _ (by simpa using (h.lamp m).bind e.length) fun hset => ?_
  · exact absurd ((hslot.latched m hset).tripped.symm.trans hempty) (by decide)
  · exact ⟨by simp [MachineRec.acceptReel], (hslot.unlatched m hclear).fireFree⟩
  · exact ⟨(h.latched m hset).arcOpen, (h.latched m hset).arcOut⟩

/-- UNTHREAD of a machine that is not TRIPPED (R96). -/
theorem BoothLaw.unthread {s : State} (h : BoothLaw s) (m : MachineId) (hstate : (s.machine m).state ≠ .tripped) :
    BoothLaw ((s.endBinding m .loaded).modMachine m MachineRec.unthread) := by
  have hend := h.endBinding m .loaded
  have hkept := s.endBinding_machine m m .loaded
  have hnot : ((s.endBinding m .loaded).machine m).state ≠ .tripped := by rwa [hkept.1]
  refine hend.ofMachine m _ ((hend.machine m).unthread hnot) (fun hset => ?_) fun hclear => ?_
  · exact absurd (hend.latched m hset).tripped hnot
  · have hfree := (hend.unlatched m hclear).fireFree
    unfold MachineRec.unthread MachineRec.leaveBroken MachineRec.motorOff
    dsimp only
    split_ifs <;> simp_all [HoldSet.put]

/-- The law of the booth is kept by every kind of change a command is made of. -/
theorem BoothLaw.keeper : Keeper BoothLaw where
  react h q := q.booth h
  line h _ _ := h.congr rfl rfl rfl rfl fun _ => rfl
  plan h _ _ := h.congr rfl rfl rfl rfl fun _ => rfl
  screen h _ _ := h.congr rfl rfl rfl rfl fun _ => rfl
  decoder h _ _ _ := h.congr rfl rfl rfl rfl fun _ => rfl
  elapse h dt := h.elapse dt
  mach h m f hlaw hstate hmotor hfire _ _ _ := h.ofMachine' m f (hlaw (h.machine m)) hstate hmotor hfire
  lamp h m f hlaw hout _ := h.ofLamp m f (hlaw (h.lamp m)) fun hset =>
    hout (h.lamp m) (h.latched m hset).arcOpen (h.latched m hset).arcOut.1 (h.latched m hset).arcOut.2
  strike h m hstrike := Reaction.booth (.lamp m .strike _ hstrike) h
  circuit h _ _ _ _ _ := h.congr rfl rfl rfl rfl fun _ => rfl
  cross h := h.congr rfl rfl rfl rfl fun _ => rfl
  scenes h _ _ _ := h.congr rfl rfl rfl rfl fun _ => rfl
  fire h _ _ hmachine hbooth hmagnet := h.congr rfl rfl hmachine hbooth hmagnet
  boothTrip h _ n := h.boothTripOrders n
  machineTrip h m n := h.machineTripOrders m n
  slots h _ _ _ _ _ _ _ := h.congr rfl rfl rfl rfl fun _ => rfl
  slot h _ _ _ _ _ := h.congr rfl rfl rfl rfl fun _ => rfl
  bind h m id n e _ _ hempty hmotor := h.bind m id n e _ hempty hmotor
  unthread h m hstate := h.unthread m hstate
  resetM h m hbooth hset _ := h.resetMachineOrders m hbooth hset
  resetB h hset _ := h.resetBoothOrders hset
  restart h := h.restartBlocks
  power _ _ _ _ e := by
    cases e
    exact BoothLaw.ofPowerOn (fun m => ⟨_, _, by cases m <;> rfl⟩) (fun m => by cases m <;> rfl) (fun m => by cases m <;> rfl)
      (fun m => by cases m <;> rfl)
  off _ _ e := by
    cases e
    exact BoothLaw.ofPowerOn (fun m => ⟨false, false, by cases m <;> rfl⟩) (fun m => by cases m <;> rfl)
      (fun m => by cases m <;> rfl) (fun m => by cases m <;> rfl)
  pending h _ := h.congr rfl rfl rfl rfl fun _ => rfl

/-- Settles O5: the law of the booth is kept by every kind of change, and so by every step. -/
theorem boothLawKept : Obligations.BoothLawKept := fun _ _ h e => BoothLaw.keeper.step_keeps h e

end Sys2Proof.Machine

namespace Sys2Proof.Machine

open Sys2Proof Host

/-! ### The fire unit -/

theorem ShutterLaw.atPowerOn (a b : Bool) : ShutterLaw (ShutterRec.atPowerOn a b) :=
  ⟨rfl, rfl, rfl, nofun, nofun⟩

theorem GateLaw.atPowerOn : GateLaw GateRec.atPowerOn := ⟨by decide, by decide, by decide⟩

/-- The fire unit of POWER_ON, whatever its loop and its switches read (R166). -/
theorem FireLaw.atPowerOn (closed : Bool) (x : Quad ShutterRec) (h : ∀ m, ShutterLaw (x.get m)) :
    FireLaw (FireUnit.atPowerOn closed x) where
  shutter := h
  gate m := by cases m <;> exact GateLaw.atPowerOn
  logSize := by simp [FireUnit.atPowerOn]
  next := by simp [FireUnit.atPowerOn]
  sequence i r := by simp [FireUnit.atPowerOn]
  healthy := by cases closed <;> rfl
  openMeasure := nofun
  booth _ m := by cases m <;> rfl

/-- The law of the fire unit is kept by every kind of change a command is made of. -/
theorem FireLaw.keeper : Keeper fun s => FireLaw s.fire where
  react h q := by rw [q.frame.fire]; exact h
  line h _ _ := h
  plan h _ _ := h
  screen h _ _ := h
  decoder h _ _ _ := h
  elapse h dt := h.elapse dt
  mach h _ _ _ _ _ _ _ _ _ := h
  lamp h _ _ _ _ _ := by rw [State.modLamp_fire]; exact h
  strike h _ _ := by rw [State.modLamp_fire]; exact h
  circuit h _ _ _ _ _ := h
  cross h := h
  scenes h _ _ _ := h
  fire h _ hlaw _ _ _ := hlaw h
  boothTrip h hopen n := by rw [State.boothTripOrders_fire_eq]; exact h.boothLatches n hopen
  machineTrip h m n := by rw [State.machineTripOrders_fire_eq]; exact h.machineLatches m n
  slots h _ _ _ _ _ _ _ := h
  slot h _ _ _ _ _ := h
  bind h _ _ _ _ _ _ _ _ := by rw [State.modLamp_fire]; exact h
  unthread h m _ := by rw [State.modMachine_fire, State.endBinding_fire]; exact h
  resetM h m hbooth _ hdrop := h.resetMachineOrders m hbooth hdrop
  resetB h _ hdrop := h.resetBoothOrders hdrop
  restart {s} h := by rw [s.restartBlocks_keeps.2.1]; exact h
  power _ _ _ _ e := by
    cases e
    exact FireLaw.atPowerOn _ _ fun m => by cases m <;> exact ShutterLaw.atPowerOn _ _
  off _ _ e := by
    cases e
    exact FireLaw.atPowerOn _ _ fun m => by cases m <;> exact ShutterLaw.atPowerOn _ _
  pending h _ := h

/-! ### The line unit -/

theorem LineLaw.atPowerOn (space : Bool) : LineLaw (LineUnit.atPowerOn space) := by
  refine ⟨by simp [LineUnit.atPowerOn], by simp [LineUnit.atPowerOn], by simp [LineUnit.atPowerOn],
    List.Pairwise.nil, nofun, nofun, fun t ht => ?_, fun _ _ _ => nofun, nofun⟩
  cases ht
  exact Nat.one_pos

/-- A line unit without power: nothing sent and nothing waiting. -/
theorem LineLaw.unpowered : LineLaw { LineUnit.atPowerOn false with transmitter := none } := by
  refine ⟨by simp [LineUnit.atPowerOn], by simp [LineUnit.atPowerOn], by simp [LineUnit.atPowerOn],
    List.Pairwise.nil, nofun, nofun, nofun, nofun, fun _ => ⟨rfl, nofun⟩⟩

/-- The law of the line unit is kept by every kind of change a command is made of. -/
theorem LineLaw.keeper : Keeper fun s => LineLaw s.line where
  react h q := q.line h
  line h f hf := hf _ h
  plan h _ _ := h
  screen h _ _ := h
  decoder h _ _ _ := h
  elapse h dt := h.elapse dt
  mach h _ _ _ _ _ _ _ _ _ := h
  lamp h _ _ _ _ _ := by rw [State.modLamp_line]; exact h
  strike h _ _ := by rw [State.modLamp_line]; exact h
  circuit h _ _ _ _ _ := h
  cross h := h
  scenes h _ _ _ := h
  fire h _ _ _ _ _ := h
  boothTrip {s} h _ n := by
    rw [State.boothTripOrders_eq, State.placeSafety_line, State.placeSafety_line, State.tripAll,
      State.tripOrder_line, State.tripOrder_line, State.tripOrder_line, State.tripOrder_line]
    exact h
  machineTrip h m n := by
    rw [State.machineTripOrders_eq, State.placeSafety_line, State.tripOrder_line]
    exact h
  slots h _ _ _ _ _ _ _ := h
  slot h _ _ _ _ _ := h
  bind h _ _ _ _ _ _ _ _ := by rw [State.modLamp_line]; exact h
  unthread h m _ := by rw [State.modMachine_line, State.endBinding_line]; exact h
  resetM h m _ _ _ := by
    rw [State.resetMachineOrders, State.releaseSafety_line, State.modMachine_line, State.endBinding_line]
    exact h
  resetB {s} h _ _ := by
    rw [State.resetBoothOrders_eq, State.releaseSafety_line, State.releaseSafety_line,
      s.boothReleases_latch.2.2.2.2.1]
    exact h
  restart {s} h := by rw [s.restartBlocks_keeps.2.2]; exact h
  power _ _ _ _ e := by cases e; exact LineLaw.atPowerOn _
  off _ _ e := by cases e; exact LineLaw.unpowered
  pending h _ := h

/-! ### The cue decoders -/

theorem DecodersLaw.ofPowerOn {s : State} (h : s.decoders = Quad.same DecoderRec.atPowerOn) : DecodersLaw s := fun m => by
  rw [State.decoder, h, Quad.get_same]
  exact DecoderLaw.atPowerOn

/-- The law of the cue decoders is kept by every kind of change a command is made of. -/
theorem DecodersLaw.keeper : Keeper DecodersLaw where
  react h q := q.decoders h
  line h _ _ := h.congr rfl
  plan h _ _ := h.congr rfl
  screen h _ _ := h.congr rfl
  decoder h m f hf := h.modDecoder m f (hf (h m))
  elapse h _ := h.congr rfl
  mach h m f _ _ _ _ _ _ _ := h.modMachine m f
  lamp h m f _ _ _ := h.modLamp m f
  strike h m _ := h.modLamp m _
  circuit h _ _ _ _ _ := h.congr rfl
  cross h := h.congr rfl
  scenes h _ _ _ := h.congr rfl
  fire h f _ _ _ _ := h.modFire f
  boothTrip h _ n := h.boothTripOrders n
  machineTrip h m n := h.machineTripOrders m n
  slots h _ _ _ _ _ _ _ := h.congr rfl
  slot h _ _ _ _ _ := h.congr rfl
  bind h m _ _ _ _ _ _ _ := by
    refine DecodersLaw.modLamp (DecodersLaw.modMachine ?_ m _) m _
    exact h.congr rfl
  unthread h m _ := (h.endBinding m .loaded).modMachine m _
  resetM h m _ _ _ := h.resetMachineOrders m
  resetB h _ _ := h.resetBoothOrders
  restart h := h.restartBlocks
  power _ _ _ _ e := by cases e; exact DecodersLaw.ofPowerOn rfl
  off _ _ e := by cases e; exact DecodersLaw.ofPowerOn rfl
  pending h _ := h.congr rfl

/-- Settles O6: each law is kept by every kind of change, and so by every step. -/
theorem unitLawsKept : Obligations.UnitLawsKept :=
  ⟨fun _ _ h e => LightsLaw.keeper.step_keeps h e, fun _ _ h e => FireLaw.keeper.step_keeps h e,
    fun _ _ h e => LineLaw.keeper.step_keeps h e, fun _ _ h e => DecodersLaw.keeper.step_keeps h e⟩

/-! ### The plan -/

theorem State.slot_of_powerOn {s : State} (hplan : s.plan = PlanStore.atPowerOn) (sc : ScreenId) (n : SlotIx) :
    s.slot sc n = Slot.cleared := by
  rw [State.slot, hplan]
  exact (congrArg (·[n]) (Pair.get_same PlanTable.cleared sc)).trans (PlanTable.cleared_get n)

theorem PlanLaw.ofPowerOn {s : State} (hplan : s.plan = PlanStore.atPowerOn)
    (hmachine : ∀ m, ∃ a b, s.machine m = MachineRec.atPowerOn a b) (hlamp : ∀ m, s.lamp m = LampRec.atPowerOn) :
    PlanLaw s := by
  refine PlanLaw.ofCleared (State.slot_of_powerOn hplan) fun m => ?_
  obtain ⟨a, b, h⟩ := hmachine m
  rw [h, hlamp]
  exact ⟨rfl, rfl, rfl⟩

/-- The law of the plan is kept by every kind of change a command is made of. -/
theorem PlanLaw.keeper : Keeper PlanLaw where
  react h q := q.plan h
  line h _ _ := h.congr (fun _ _ => rfl) (fun _ => rfl) (fun _ => rfl) (fun _ => id) fun _ => rfl
  plan h f hf := h.congr (fun sc n => congrArg (fun t => (t.get sc)[n]) hf) (fun _ => rfl) (fun _ => rfl) (fun _ => id) fun _ => rfl
  screen h _ _ := h.congr (fun _ _ => rfl) (fun _ => rfl) (fun _ => rfl) (fun _ => id) fun _ => rfl
  decoder h _ _ _ := h.congr (fun _ _ => rfl) (fun _ => rfl) (fun _ => rfl) (fun _ => id) fun _ => rfl
  elapse h dt := h.elapse dt
  mach h m f _ _ _ _ hbound hreel hempty := h.ofMachine m f hbound hreel hempty
  lamp h m f _ _ hlength := h.ofLamp m f hlength
  strike h m hstrike := Reaction.plan (.lamp m .strike _ hstrike) h
  circuit h _ _ _ _ _ := h.congr (fun _ _ => rfl) (fun _ => rfl) (fun _ => rfl) (fun _ => id) fun _ => rfl
  cross h := h.congr (fun _ _ => rfl) (fun _ => rfl) (fun _ => rfl) (fun _ => id) fun _ => rfl
  scenes h _ _ _ := h.congr (fun _ _ => rfl) (fun _ => rfl) (fun _ => rfl) (fun _ => id) fun _ => rfl
  fire h f _ _ _ _ := h.modFire f
  boothTrip h _ n := h.boothTripOrders n
  machineTrip h m n := h.machineTripOrders m n
  slots h sc f c g hbound hg _ := h.putRange sc f c g hbound hg
  slot h sc n e hbound _ := h.writeSlot sc n _ hbound nofun (SlotLaw.loadedWith e)
  bind h m id n e hloaded hentry hempty _ := h.bind m id n e hloaded hentry hempty
  unthread h m _ := h.unthread m
  resetM h m _ _ _ := h.resetMachineOrders m
  resetB h _ _ := h.resetBoothOrders
  restart {s} _ := PlanLaw.restartBlocks s
  power _ _ _ _ e := by
    cases e
    exact PlanLaw.ofPowerOn rfl (fun m => ⟨_, _, by cases m <;> rfl⟩) fun m => by cases m <;> rfl
  off _ _ e := by
    cases e
    exact PlanLaw.ofPowerOn rfl (fun m => ⟨false, false, by cases m <;> rfl⟩) fun m => by cases m <;> rfl
  pending h _ := h.congr (fun _ _ => rfl) (fun _ => rfl) (fun _ => rfl) (fun _ => id) fun _ => rfl

/-! ### The entries of the plan -/

/-- Every entry of `t` is an entry of `s`: a law of the entries that holds of `s` holds of `t`. -/
theorem EntriesLaw.mono {s t : State} (h : EntriesLaw s)
    (k : ∀ sc n e, (t.slot sc n).entry = some e → ∃ x k, (s.slot x k).entry = some e) : EntriesLaw t := fun sc n e he =>
  let ⟨x, k, hk⟩ := k sc n e he
  h x k e hk

/-- Entries that stand where they stood. -/
theorem EntriesLaw.congr {s t : State} (h : EntriesLaw s) (k : ∀ sc n, (t.slot sc n).entry = (s.slot sc n).entry) :
    EntriesLaw t := h.mono fun sc n e he => ⟨sc, n, (k sc n).symm.trans he⟩

theorem EntriesLaw.ofCleared {s : State} (h : ∀ sc n, s.slot sc n = Slot.cleared) : EntriesLaw s := fun sc n e he => by
  rw [h] at he
  cases he

theorem State.tripOrder_slot (m : MachineId) (s : State) (sc : ScreenId) (n : SlotIx) :
    (s.tripOrder m).slot sc n = s.slot sc n := by
  rw [State.tripOrder, State.modLamp_slot, State.modMachine_slot]

theorem State.endBinding_entry (m : MachineId) (st : SlotStatus) (s : State) (sc : ScreenId) (n : SlotIx) :
    ((s.endBinding m st).slot sc n).entry = (s.slot sc n).entry := by
  unfold State.endBinding
  split
  · rfl
  · rw [State.modLamp_slot, State.modMachine_slot, State.modSlot_slot]
    split
    next h => obtain ⟨rfl, rfl⟩ := h; rfl
    next => rfl

/-- The law of the entries is kept by every kind of change a command is made of. -/
theorem EntriesLaw.keeper : Keeper EntriesLaw where
  react h q := h.congr fun sc n => (q.frame.slots sc n).entry
  line h _ _ := h
  plan h f hf := h.congr fun sc n => congrArg (fun t => (t.get sc)[n].entry) hf
  screen h _ _ := h
  decoder h _ _ _ := h
  elapse h dt := h.congr fun sc n => by rw [State.elapse_slot]
  mach h m f _ _ _ _ _ _ _ := h.congr fun sc n => by rw [State.modMachine_slot]
  lamp h m f _ _ _ := h.congr fun sc n => by rw [State.modLamp_slot]
  strike h m _ := h.congr fun sc n => by rw [State.modLamp_slot]
  circuit h _ _ _ _ _ := h
  cross h := h
  scenes h _ _ _ := h
  fire h _ _ _ _ _ := h
  boothTrip h _ n := h.congr fun sc k => by
    rw [State.boothTripOrders_eq, State.placeSafety_slot, State.placeSafety_slot, State.tripAll, State.tripOrder_slot,
      State.tripOrder_slot, State.tripOrder_slot, State.tripOrder_slot]
    rfl
  machineTrip h m n := h.congr fun sc k => by
    rw [State.machineTripOrders_eq, State.placeSafety_slot, State.tripOrder_slot]
    rfl
  slots h sc f c g _ _ hg := h.mono fun x n e he => by
    rw [State.putTable_slot] at he
    split at he
    · rw [PlanTable.writeRange_get] at he
      split at he
      · exact hg n e he
      · exact ⟨sc, n, he⟩
    · exact ⟨x, n, he⟩
  slot h sc n e _ he x k y hy := by
    rw [State.modSlot_slot] at hy
    split at hy
    · cases hy; exact he
    · exact h x k y hy
  bind h m id n e _ _ _ _ := h.congr fun sc k => by
    rw [State.modLamp_slot, State.modMachine_slot, State.modSlot_slot]
    split
    next q => obtain ⟨rfl, rfl⟩ := q; rfl
    next => rfl
  unthread h m _ := h.congr fun sc n => by rw [State.modMachine_slot, State.endBinding_entry]
  resetM h m _ _ _ := h.congr fun sc n => by
    rw [State.resetMachineOrders, State.releaseSafety_slot, State.modMachine_slot, State.endBinding_entry]
    rfl
  resetB {s} h _ _ := h.congr fun sc n => by
    rw [State.resetBoothOrders_eq, State.releaseSafety_slot, State.releaseSafety_slot]
    exact congrArg (fun t => (t.get sc)[n].entry) s.boothReleases_latch.2.2.2.2.2
  restart {s} _ := EntriesLaw.ofCleared s.restartBlocks_slot
  power _ _ _ _ e := by cases e; exact EntriesLaw.ofCleared (State.slot_of_powerOn rfl)
  off _ _ e := by cases e; exact EntriesLaw.ofCleared (State.slot_of_powerOn rfl)
  pending h _ := h

/-- Settles O7: both laws are kept by every kind of change, and so by every step. -/
theorem planLawKept : Obligations.PlanLawKept := fun _ _ hplan hentries e =>
  ⟨PlanLaw.keeper.step_keeps hplan e, EntriesLaw.keeper.step_keeps hentries e⟩

end Sys2Proof.Machine

/-! The step, the state after power-on, and what the law of the booth says of the outputs. -/

namespace Sys2Proof.Machine

open Sys2Proof Host

/-- Settles O1: the first arm of `step`. -/
theorem stepTakesTheFrontCommand : Obligations.StepTakesTheFrontCommand := fun _ _ _ => rfl

/-! ### The outputs -/

/-- An open douser means a safe picture (R15). -/
theorem BoothLaw.safePicture {t : State} (h : BoothLaw t) {m : MachineId} (hopen : (t.machine m).douser = .opened) :
    (t.machine m).state = .onScreen ∧ (t.machine m).speed = .atSpeed ∧ (t.lamp m).state = .burning
      ∧ (t.machine m).holds = ⟨false, false, false, false, false⟩ := by
  have law := h.machine m
  obtain ⟨hstate, -, hempty⟩ := law.douser.mp hopen
  have hfree := (HoldSet.isEmpty_iff _).mp hempty
  have hspeed : (t.machine m).holds.speed = false := hfree .speed
  have hlamp : (t.machine m).holds.lamp = false := hfree .lamp
  have hmotor : (t.machine m).motor = true := (law.motor_on (by rw [hstate]; rfl)).1
  refine ⟨hstate, ?_, ?_, ?_⟩
  · simpa [hmotor, hspeed] using law.speedHold.symm
  · simpa [hlamp] using law.lampHold.symm
  · have hbrk : (t.machine m).holds.brk = false := hfree .brk
    have hfire : (t.machine m).holds.fire = false := hfree .fire
    have hconsole : (t.machine m).holds.console = false := hfree .console
    calc (t.machine m).holds
        = ⟨(t.machine m).holds.speed, (t.machine m).holds.lamp, (t.machine m).holds.brk, (t.machine m).holds.fire,
            (t.machine m).holds.console⟩ := rfl
      _ = ⟨false, false, false, false, false⟩ := by rw [hspeed, hlamp, hbrk, hfire, hconsole]

/-- Settles O10: the law of the booth holds after the step, and it says what the outputs are (R15, R155). -/
theorem outputsAreSafe : Obligations.OutputsAreSafe := by
  refine ⟨fun s t m h e hopen => (BoothLaw.keeper.step_keeps h e).safePicture hopen, fun s t h e => ?_⟩
  have law := BoothLaw.keeper.step_keeps h e
  refine ⟨fun hbooth m => ?_, fun m hset => ?_⟩
  · have latched := law.latched m (law.booth hbooth m)
    exact ⟨latched.motorOff, latched.arcOpen, latched.magnetOff⟩
  · have latched := law.latched m hset
    exact ⟨latched.tripped, latched.motorOff, latched.arcOpen, latched.magnetOff⟩

/-! ### The state after power-on -/

/-- No machine that power has tripped is ARMED, nor posted so (R104). -/
theorem ArmedLaw.ofPowerOn {s : State} (hmachine : ∀ m, ∃ a b, s.machine m = MachineRec.atPowerOn a b)
    (hplan : s.plan = PlanStore.atPowerOn) : ArmedLaw s := by
  have hstate : ∀ m, (s.machine m).state = .tripped := fun m => by
    obtain ⟨a, b, h⟩ := hmachine m
    rw [h]
    rfl
  refine ⟨fun m => ?_, fun m => ?_, fun m h => ?_⟩
  · simp [hstate]
  · rw [hstate, hplan]
    exact Quad.get_same false m
  · simp [hstate] at h

/-- Idle screens, no machine ON_SCREEN and no FAULT claim (R130, R148). -/
theorem ScreensLaw.ofPowerOn {s : State} (hmachine : ∀ m, ∃ a b, s.machine m = MachineRec.atPowerOn a b)
    (hscreens : s.screens = Pair.same ScreenRec.atPowerOn) (hlights : s.lights = HouseLights.atPowerOn) : ScreensLaw s := by
  have hscreen : ∀ sc, s.screen sc = ScreenRec.atPowerOn := fun sc => by rw [State.screen, hscreens, Pair.get_same]
  refine ⟨fun sc => ?_, fun m => ?_, fun sc c => ?_⟩
  · rw [hscreen]
    exact ScreenLaw.atPowerOn sc
  · obtain ⟨a, b, h⟩ := hmachine m
    rw [h, hscreen]
    exact ⟨nofun, nofun⟩
  · rw [hscreen, State.circuit, hlights]
    cases sc <;> cases c <;> decide

/-- Settles O4: every law at the records of power-on. -/
theorem resetMeetsTheLaws : Obligations.ResetMeetsTheLaws := by
  have hmachine : ∀ m, ∃ a b, State.reset.machine m = MachineRec.atPowerOn a b :=
    fun m => ⟨false, false, by cases m <;> rfl⟩
  have hlamp : ∀ m, State.reset.lamp m = LampRec.atPowerOn := fun m => by cases m <;> rfl
  have hplan : PlanLaw State.reset := PlanLaw.ofPowerOn rfl hmachine hlamp
  refine ⟨BoothLaw.ofPowerOn hmachine hlamp (fun m => by cases m <;> rfl) (fun m => by cases m <;> rfl),
    LightsLaw.ofPowerOn rfl rfl,
    FireLaw.atPowerOn false _ fun m => by cases m <;> exact ShutterLaw.atPowerOn _ _, LineLaw.atPowerOn false, hplan,
    EntriesLaw.ofCleared (State.slot_of_powerOn rfl), ArmedLaw.ofPowerOn hmachine rfl,
    DecodersLaw.ofPowerOn rfl, ScreensLaw.ofPowerOn hmachine rfl rfl⟩

end Sys2Proof.Machine

/-! What the controller's operations on one screen do to the ARMED condition of every machine (R98 to R100) and to the other
screen (0.2): a run of the show on a screen, said once for each operation of Machine/Controller.lean. -/

namespace Sys2Proof.Machine

open Sys2Proof Host

/-! ### The next slot -/

/-- Two screen records that give the same next slot: the same current slot, and the same state but for SHOWING, RUNUP and
SWAP_DUE, which R88 does not tell apart. -/
def ScreenRec.SameNext (x y : ScreenRec) : Prop :=
  y.current = x.current ∧ (y.state = x.state ∨ x.state.shows = true ∧ y.state.shows = true)

theorem ScreenState.shows_iff (st : ScreenState) : st.shows = true ↔ st = .showing ∨ st = .runup ∨ st = .swapDue := by
  cases st <;> simp [ScreenState.shows]

/-- R88: the next slot and the on-deck slot depend on the screen's state and current slot and on which slots can be shown. -/
theorem State.nextSlot_congr {s t : State} {sc : ScreenId} (hscreen : (s.screen sc).SameNext (t.screen sc))
    (hslot : ∀ n, (t.slot sc n).status.showable = (s.slot sc n).status.showable) :
    t.nextSlot sc = s.nextSlot sc ∧ t.onDeck sc = s.onDeck sc := by
  obtain ⟨hcurrent, hstate⟩ := hscreen
  have habove : ∀ c, t.showableAbove sc c = s.showableAbove sc c := fun c => by
    simp only [State.showableAbove, hslot]
  have hlowest : t.lowestShowable sc = s.lowestShowable sc := by simp only [State.lowestShowable, hslot]
  have hdeck : t.onDeck sc = s.onDeck sc := by
    unfold State.onDeck
    rw [hcurrent]
    obtain hsame | ⟨hs, ht⟩ := hstate
    · rw [hsame]
      split <;> simp_all
    · obtain hs | hs | hs := (ScreenState.shows_iff _).mp hs <;>
      obtain ht | ht | ht := (ScreenState.shows_iff _).mp ht <;>
      · rw [hs, ht]
        cases (s.screen sc).current <;> simp [habove]
  refine ⟨?_, hdeck⟩
  unfold State.nextSlot
  rw [hcurrent, hdeck, hlowest]
  obtain hsame | ⟨hs, ht⟩ := hstate
  · rw [hsame]
  · obtain hs | hs | hs := (ScreenState.shows_iff _).mp hs <;>
    obtain ht | ht | ht := (ScreenState.shows_iff _).mp ht <;>
    rw [hs, ht]

/-! ### One machine and its posting -/

/-- The posting of machine `k` stands in step with its state on both sides (R17, R99). -/
structure PostedAt (s : State) (k : MachineId) : Prop where
  posting : s.plan.lastPosting.get k = ((s.machine k).state == .armed)
  copy : (s.machine k).state.judged = true → (s.machine k).armedPosting = ((s.machine k).state == .armed)

/-- Machine `k` is ARMED exactly while its condition holds, as posted (R98, R99). -/
structure ArmedAt (s : State) (k : MachineId) : Prop extends PostedAt s k where
  settled : (s.machine k).state.judged = true → s.armedCondition k = ((s.machine k).state == .armed)

theorem MachineState.judged_iff (st : MachineState) : st.judged = true ↔ st = .threaded ∨ st = .armed := by
  cases st <;> simp [MachineState.judged]

theorem MachineState.ne_armed_of_not_judged {st : MachineState} (h : st.judged = false) : (st == .armed) = false := by
  cases st <;> first | rfl | cases h

theorem armedLaw_iff (s : State) : ArmedLaw s ↔ ∀ k, ArmedAt s k := by
  constructor
  · refine fun h k => ⟨⟨h.posting k, fun hj => h.copy k ((MachineState.judged_iff _).mp hj)⟩, fun _ => ?_⟩
    rw [h.settled k, h.posting k]
  · refine fun h => ⟨fun k => ?_, fun k => (h k).posting, fun k hj => (h k).copy ((MachineState.judged_iff _).mpr hj)⟩
    rw [← s.armedCondition_iff k]
    cases hj : (s.machine k).state.judged with
    | true => rw [(h k).settled hj, beq_iff_eq]
    | false =>
      have hnot := MachineState.ne_armed_of_not_judged hj
      constructor
      · intro e; rw [e] at hnot; cases hnot
      · intro e
        unfold State.armedCondition at e
        simp [hj] at e

/-- A posting is in step where the records it is read from stand. -/
theorem PostedAt.congr {s t : State} {k : MachineId} (h : PostedAt s k)
    (hposting : t.plan.lastPosting.get k = s.plan.lastPosting.get k)
    (hrec : (t.machine k).state = (s.machine k).state ∧ (t.machine k).armedPosting = (s.machine k).armedPosting) :
    PostedAt t k := by
  obtain ⟨hstate, hcopy⟩ := hrec
  refine ⟨?_, ?_⟩
  · rw [hposting, hstate]
    exact h.posting
  · rw [hstate, hcopy]
    exact h.copy

/-! ### One machine's record -/

/-- A change of a machine's record that the ARMED condition does not see: the machine is not judged after it, or every item
stands. -/
def RecStill (r x : MachineRec) : Prop :=
  x.state.judged = true → x.state = r.state ∧ x.armedPosting = r.armedPosting ∧ x.boundSlot = r.boundSlot
    ∧ x.holds.fire = r.holds.fire ∧ x.holds.brk = r.holds.brk

theorem RecStill.refl (r : MachineRec) : RecStill r r := fun _ => ⟨rfl, rfl, rfl, rfl, rfl⟩

theorem RecStill.of_not_judged {r x : MachineRec} (h : x.state.judged = false) : RecStill r x := fun e => by
  rw [h] at e
  cases e

@[simp] theorem MachineRec.motorOn_state (t : Nat) (r : MachineRec) : (r.motorOn t).state = r.state := by
  unfold MachineRec.motorOn
  split <;> rfl

@[simp] theorem MachineRec.motorOff_state (r : MachineRec) : r.motorOff.state = r.state := r.motorOff_keeps.1

/-- Every order but a posting takes the machine out of the judged states, or leaves it as the condition reads it. -/
theorem Order.run_still (o : Order) (r : MachineRec) (h : ∀ y, o ≠ .posting y) : RecStill r (o.run r) := by
  cases o with
  | settle => exact .refl r
  | start t =>
    change RecStill r (r.startOrder t)
    unfold MachineRec.startOrder
    split
    · exact .of_not_judged (by rw [MachineRec.motorOn_state]; rfl)
    · exact .refl r
  | takeScreen l =>
    change RecStill r (r.takeScreen l)
    unfold MachineRec.takeScreen
    split
    · exact .of_not_judged rfl
    · exact .refl r
  | giveUp =>
    change RecStill r r.giveUp
    unfold MachineRec.giveUp
    split
    · exact .of_not_judged rfl
    · exact .refl r
  | stop =>
    refine .of_not_judged ?_
    change (MachineRec.motorOff _).state.judged = false
    rw [MachineRec.motorOff_state]
    rfl
  | fail c =>
    refine .of_not_judged ?_
    change (MachineRec.motorOff _).state.judged = false
    rw [MachineRec.motorOff_state]
    rfl
  | posting y => exact absurd rfl (h y)
  | reject => exact fun _ => ⟨rfl, rfl, rfl, rfl, rfl⟩

/-- The last posting after a machine's posting (R99). -/
@[simp] theorem PlanStore.noteMachine_posting (m k : MachineId) (st : MachineState) (p : PlanStore) :
    (p.noteMachine m st).lastPosting.get k = if k = m ∧ st.judged = false then false else p.lastPosting.get k := by
  unfold PlanStore.noteMachine
  cases st.judged <;> simp [Quad.get_set]

/-- The condition reads five items of the machine's record. -/
theorem State.armedCondition_still {s t : State} {k : MachineId} (hrec : RecStill (s.machine k) (t.machine k))
    (hj : (t.machine k).state.judged = true) (hok : (t.lamp k).carbonOk = (s.lamp k).carbonOk)
    (hlamp : ((t.lamp k).state = .fault ↔ (s.lamp k).state = .fault)
      ∧ ((t.lamp k).state = .exhausted ↔ (s.lamp k).state = .exhausted))
    (hfire : (t.fire.shutters.get k).state = .opened ↔ (s.fire.shutters.get k).state = .opened)
    (hnext : t.nextSlot (screenOf k) = s.nextSlot (screenOf k)) : t.armedCondition k = s.armedCondition k := by
  obtain ⟨hstate, -, hbound, hheld, hbrk⟩ := hrec hj
  rw [Bool.eq_iff_iff, s.armedCondition_iff, t.armedCondition_iff, hstate, hbound, hheld, hbrk, hok, hfire, hnext]
  simp only [ne_eq, hlamp]


/-- A posting stays in step with a machine that keeps its state and its copy, or is no more judged (R17, R99). -/
theorem PostedAt.ofMachine {s : State} {k : MachineId} (h : PostedAt s k) (m : MachineId) (f : MachineRec → MachineRec)
    (hrec : (f (s.machine m)).state.judged = true →
      (f (s.machine m)).state = (s.machine m).state ∧ (f (s.machine m)).armedPosting = (s.machine m).armedPosting) :
    PostedAt (s.modMachine m f) k := by
  by_cases hk : k = m
  · subst hk
    cases hj : (f (s.machine k)).state.judged with
    | true => exact h.congr (by simp [hj]) (by simpa using hrec hj)
    | false =>
      refine ⟨?_, fun e => ?_⟩
      · simp [hj, MachineState.ne_armed_of_not_judged hj]
      · simp [hj] at e
  · exact h.congr (by simp [hk]) (by simp [hk])

theorem RecStill.posting {r x : MachineRec} (h : RecStill r x) (hj : x.state.judged = true) :
    x.state = r.state ∧ x.armedPosting = r.armedPosting := ⟨(h hj).1, (h hj).2.1⟩

/-- ARMED stays in step across a change that the condition does not see. -/
theorem ArmedAt.keep {s t : State} {k : MachineId} (h : ArmedAt s k) (hposted : PostedAt t k)
    (hrec : RecStill (s.machine k) (t.machine k)) (hok : (t.lamp k).carbonOk = (s.lamp k).carbonOk)
    (hlamp : ((t.lamp k).state = .fault ↔ (s.lamp k).state = .fault)
      ∧ ((t.lamp k).state = .exhausted ↔ (s.lamp k).state = .exhausted))
    (hfire : (t.fire.shutters.get k).state = .opened ↔ (s.fire.shutters.get k).state = .opened)
    (hnext : t.nextSlot (screenOf k) = s.nextSlot (screenOf k)) : ArmedAt t k where
  toPostedAt := hposted
  settled hj := by
    rw [State.armedCondition_still hrec hj hok hlamp hfire hnext, (hrec hj).1]
    exact h.settled (by rw [← (hrec hj).1]; exact hj)

/-- A machine that is not judged is ARMED by no condition. -/
theorem ArmedAt.of_not_judged {t : State} {k : MachineId} (hposted : PostedAt t k)
    (hj : (t.machine k).state.judged = false) : ArmedAt t k where
  toPostedAt := hposted
  settled e := by rw [hj] at e; cases e

theorem State.modMachine_nextSlot (m : MachineId) (f : MachineRec → MachineRec) (s : State) (sc : ScreenId) :
    (s.modMachine m f).nextSlot sc = s.nextSlot sc :=
  (State.nextSlot_congr (s := s) (t := s.modMachine m f) ⟨rfl, .inl rfl⟩ fun n => by rw [State.modMachine_slot]).1

theorem ArmedAt.ofMachine {s : State} {k : MachineId} (h : ArmedAt s k) (m : MachineId) (f : MachineRec → MachineRec)
    (hrec : RecStill (s.machine m) (f (s.machine m))) : ArmedAt (s.modMachine m f) k := by
  refine h.keep (h.toPostedAt.ofMachine m f hrec.posting) ?_ rfl ⟨Iff.rfl, Iff.rfl⟩ Iff.rfl (s.modMachine_nextSlot m f _)
  rw [State.modMachine_machine]
  split
  next hk => subst hk; exact hrec
  next => exact .refl _

/-! ### One lamp's record -/

/-- A change of a lamp's record that the ARMED condition does not see. -/
def LampStill (l x : LampRec) : Prop :=
  x.carbonOk = l.carbonOk ∧ (x.state = .fault ↔ l.state = .fault) ∧ (x.state = .exhausted ↔ l.state = .exhausted)

/-- A lamp's change is a change of its record, followed where BURNING is entered or left by the LAMP request (R62). -/
theorem State.modLamp_split (m : MachineId) (f : LampRec → LampRec) (s : State) :
    let s1 := { s with lamps := s.lamps.set m (f (s.lamp m)) }
    s.modLamp m f = s1 ∨ ∃ b, s.modLamp m f = s1.holdRequest m .lamp b := by
  unfold State.modLamp
  dsimp only
  split
  · exact .inl rfl
  · exact .inr ⟨_, rfl⟩

theorem lampHold_still (r : MachineRec) (b : Bool) : RecStill r { r with holds := r.holds.put .lamp b } :=
  fun _ => ⟨rfl, rfl, rfl, rfl, rfl⟩

theorem PostedAt.ofLamp {s : State} {k : MachineId} (h : PostedAt s k) (m : MachineId) (f : LampRec → LampRec) :
    PostedAt (s.modLamp m f) k := by
  have hlamps : PostedAt { s with lamps := s.lamps.set m (f (s.lamp m)) } k := h.congr rfl ⟨rfl, rfl⟩
  obtain e | ⟨b, e⟩ := s.modLamp_split m f
  · rw [e]; exact hlamps
  · rw [e]; exact hlamps.ofMachine m _ (lampHold_still _ b).posting

/-- A change of a lamp that the condition does not see, or of the lamp of a machine that is not judged. -/
theorem ArmedAt.ofLamp {s : State} {k : MachineId} (h : ArmedAt s k) (m : MachineId) (f : LampRec → LampRec)
    (hsame : k = m → (s.machine m).state.judged = true → LampStill (s.lamp m) (f (s.lamp m))) : ArmedAt (s.modLamp m f) k := by
  have hlamps : ArmedAt { s with lamps := s.lamps.set m (f (s.lamp m)) } k := by
    have hposted : PostedAt { s with lamps := s.lamps.set m (f (s.lamp m)) } k := h.toPostedAt.congr rfl ⟨rfl, rfl⟩
    cases hj : (s.machine k).state.judged with
    | false => exact .of_not_judged hposted hj
    | true =>
      have hrec : State.lamp { s with lamps := s.lamps.set m (f (s.lamp m)) } k = if k = m then f (s.lamp m) else s.lamp k :=
        Quad.get_set _ _ _ _
      refine h.keep hposted (.refl _) ?_ ?_ Iff.rfl rfl
      all_goals
        rw [hrec]
        split
        next hk => subst hk; obtain ⟨hok, hstate⟩ := hsame rfl hj; assumption
        next => simp
  obtain e | ⟨b, e⟩ := s.modLamp_split m f
  · rw [e]; exact hlamps
  · rw [e]; exact hlamps.ofMachine m _ (lampHold_still _ b)

end Sys2Proof.Machine

namespace Sys2Proof.Machine

open Sys2Proof Host

/-! ### The other screen -/

theorem ScreenKept.refl (o : ScreenId) (s : State) : ScreenKept o s s :=
  ⟨fun _ _ => ⟨rfl, rfl, rfl, rfl⟩, fun _ _ => ⟨rfl, rfl, rfl⟩, fun _ => rfl, rfl, rfl, fun _ => rfl, rfl⟩

theorem ScreenKept.trans {o : ScreenId} {a b c : State} (h : ScreenKept o a b) (k : ScreenKept o b c) : ScreenKept o a c where
  machine m hm := by
    obtain ⟨h1, h2, h3, h4⟩ := h.machine m hm
    obtain ⟨k1, k2, k3, k4⟩ := k.machine m hm
    exact ⟨k1.trans h1, k2.trans h2, k3.trans h3, k4.trans h4⟩
  fire m hm := by
    obtain ⟨h1, h2, h3⟩ := h.fire m hm
    obtain ⟨k1, k2, k3⟩ := k.fire m hm
    exact ⟨k1.trans h1, k2.trans h2, k3.trans h3⟩
  slot n := (k.slot n).trans (h.slot n)
  showAt := k.showAt.trans h.showAt
  screen := k.screen.trans h.screen
  circuit c := (k.circuit c).trans (h.circuit c)
  scenes := k.scenes.trans h.scenes

theorem ScreenKept.ofLine (o : ScreenId) (f : LineUnit → LineUnit) (s : State) : ScreenKept o s (s.modLine f) :=
  ⟨fun _ _ => ⟨rfl, rfl, rfl, rfl⟩, fun _ _ => ⟨rfl, rfl, rfl⟩, fun _ => rfl, rfl, rfl, fun _ => rfl, rfl⟩

theorem ScreenKept.ofScreen {o sc : ScreenId} (h : o ≠ sc) (f : ScreenRec → ScreenRec) (s : State) :
    ScreenKept o s (s.modScreen sc f) :=
  ⟨fun _ _ => ⟨rfl, rfl, rfl, rfl⟩, fun _ _ => ⟨rfl, rfl, rfl⟩, fun _ => rfl, rfl, by simp [h], fun _ => rfl, rfl⟩

theorem ScreenKept.ofDecoder {o : ScreenId} {m : MachineId} (h : o ≠ screenOf m) (f : DecoderRec → DecoderRec) (s : State) :
    ScreenKept o s (s.modDecoder m f) := by
  refine ⟨fun k hk => ⟨rfl, ?_, rfl, rfl⟩, fun _ _ => ⟨rfl, rfl, rfl⟩, fun _ => rfl, rfl, rfl, fun _ => rfl, rfl⟩
  exact Quad.get_set_ne _ _ fun e => h (by rw [← hk, e])

theorem ScreenKept.ofMachine {o : ScreenId} {m : MachineId} (h : o ≠ screenOf m) (f : MachineRec → MachineRec) (s : State) :
    ScreenKept o s (s.modMachine m f) := by
  refine ⟨fun k hk => ?_, fun _ _ => ⟨rfl, rfl, rfl⟩, fun n => s.modMachine_slot m f o n, ?_, rfl, fun _ => rfl, rfl⟩
  · have hne : k ≠ m := fun e => h (by rw [← hk, e])
    exact ⟨by simp [hne], Quad.get_set_ne _ _ hne, rfl, by simp [hne]⟩
  · simp only [State.modMachine_plan, PlanStore.noteMachine]
    split <;> rfl

theorem ScreenKept.ofLamp {o : ScreenId} {m : MachineId} (h : o ≠ screenOf m) (f : LampRec → LampRec) (s : State) :
    ScreenKept o s (s.modLamp m f) := by
  have hlamps : ScreenKept o s { s with lamps := s.lamps.set m (f (s.lamp m)) } := by
    refine ⟨fun k hk => ⟨rfl, rfl, ?_, rfl⟩, fun _ _ => ⟨rfl, rfl, rfl⟩, fun _ => rfl, rfl, rfl, fun _ => rfl, rfl⟩
    exact Quad.get_set_ne _ _ fun e => h (by rw [← hk, e])
  obtain e | ⟨b, e⟩ := s.modLamp_split m f
  · rw [e]; exact hlamps
  · rw [e]; exact hlamps.trans (.ofMachine h _ _)

theorem ScreenKept.ofSlot {o sc : ScreenId} (h : o ≠ sc) (n : SlotIx) (f : Slot → Slot) (s : State) :
    ScreenKept o s (s.modSlot sc n f) :=
  ⟨fun _ _ => ⟨rfl, rfl, rfl, rfl⟩, fun _ _ => ⟨rfl, rfl, rfl⟩, fun k => by simp [State.modSlot_slot, h], rfl, rfl,
    fun _ => rfl, rfl⟩

theorem ScreenKept.ofCircuit {o sc : ScreenId} (h : o ≠ sc) (c : CircuitId) (f : Nat → Circuit → Circuit) (s : State) :
    ScreenKept o s (s.modCircuit sc c f) :=
  ⟨fun _ _ => ⟨rfl, rfl, rfl, rfl⟩, fun _ _ => ⟨rfl, rfl, rfl⟩, fun _ => rfl, rfl, rfl,
    fun k => by simp [State.modCircuit_circuit, h], rfl⟩

theorem ScreenKept.ofPosting {o : ScreenId} {m : MachineId} (h : o ≠ screenOf m) (y : Bool) (s : State) :
    ScreenKept o s (s.modPlan fun p => { p with lastPosting := p.lastPosting.set m y }) := by
  refine ⟨fun k hk => ⟨rfl, rfl, rfl, ?_⟩, fun _ _ => ⟨rfl, rfl, rfl⟩, fun _ => rfl, rfl, rfl, fun _ => rfl, rfl⟩
  exact Quad.get_set_ne _ _ fun e => h (by rw [← hk, e])

/-- A slot of one screen, bound to no machine of another, gives no notice to the other. -/
theorem ScreenKept.ofSlotNotice {o sc : ScreenId} (h : o ≠ sc) (n : SlotIx) (st : SlotStatus) (s : State)
    (hbound : ∀ m, (s.slot sc n).bound = some m → screenOf m = sc) : ScreenKept o s (s.slotNotice sc n st) := by
  unfold State.slotNotice
  split
  · dsimp only
    split
    · exact .ofSlot h n _ s
    next m hm =>
      have hne : o ≠ screenOf m := by rw [hbound m hm]; exact h
      exact ((ScreenKept.ofSlot h n _ s).trans (.ofMachine hne _ _)).trans (.ofLamp hne _ _)
  · exact .ofSlot h n _ s
  all_goals exact .refl o s

/-- What a machine's condition is read from stands on the other screen. -/
theorem ScreenKept.nextSlot {o : ScreenId} {s t : State} (h : ScreenKept o s t) : t.nextSlot o = s.nextSlot o :=
  (State.nextSlot_congr ⟨by rw [h.screen], .inl (by rw [h.screen])⟩ fun n => by rw [h.slot n]).1

/-! ### A run of the show on one screen -/

/-- Every ON_SCREEN machine that a screen names is of its pair (Table 6-1). -/
def Paired (s : State) : Prop := ∀ x m, (s.screen x).onScreen = some m → screenOf m = x

/-- A run of reactions on screen `sc` from a state that meets the law of the plan. The other screen stands where the ON_SCREEN
machines are of their pairs; every posting stays in step; and ARMED stays in step with its condition, but for the machines of
`sc` where the run is `loose`: their evaluation is still to come (R100). -/
structure Runs (sc : ScreenId) (loose : Bool) (a b : State) : Prop where
  plan : PlanLaw a
  reactions : Reactions a b
  paired : Paired a → Paired b
  other : Paired a → ∀ o, o ≠ sc → ScreenKept o a b
  posted : ∀ k, PostedAt a k → PostedAt b k
  armed : ∀ k, (loose = true → screenOf k ≠ sc) → ArmedAt a k → ArmedAt b k

/-- On the other screen ARMED stays as it was, and in step. -/
theorem ArmedAt.ofKept {s t : State} {k : MachineId} (q : ArmedAt s k) (h : ScreenKept (screenOf k) s t) :
    ArmedAt t k := by
  obtain ⟨hmachine, -, hlamp, hposting⟩ := h.machine k rfl
  refine q.keep (q.toPostedAt.congr hposting ⟨by rw [hmachine], by rw [hmachine]⟩) (by rw [hmachine]; exact .refl _)
    (by rw [hlamp]) ⟨by rw [hlamp], by rw [hlamp]⟩ (by rw [(h.fire k rfl).2.1]) h.nextSlot

namespace Runs

variable {sc : ScreenId} {l : Bool} {a b c : State}

theorem refl' (sc : ScreenId) (l : Bool) (h : PlanLaw a) : Runs sc l a a :=
  ⟨h, .refl, id, fun _ o _ => .refl o a, fun _ => id, fun _ _ => id⟩

theorem planLaw (h : Runs sc l a b) : PlanLaw b := h.reactions.plan h.plan

theorem trans (h : Runs sc l a b) (k : Runs sc l b c) : Runs sc l a c where
  plan := h.plan
  reactions := h.reactions.trans k.reactions
  paired p := k.paired (h.paired p)
  other p o ho := (h.other p o ho).trans (k.other (h.paired p) o ho)
  posted j q := k.posted j (h.posted j q)
  armed j hj q := k.armed j hj (h.armed j hj q)

/-- A run goes on from the law of the plan. -/
theorem next (h : Runs sc l a b) (k : PlanLaw b → Runs sc l b c) : Runs sc l a c := h.trans (k h.planLaw)

theorem loosen (h : Runs sc l a b) : Runs sc true a b :=
  { h with armed := fun j hj q => h.armed j (fun _ => hj rfl) q }

/-! ### One change -/

theorem report (r : Report) (h : Runs sc l a b) : Runs sc l a (b.report r) := h.next fun p =>
  ⟨p, .tail .refl (.report r b), id, fun _ o _ => .ofLine o _ b, fun _ q => q.congr rfl ⟨rfl, rfl⟩,
    fun _ _ q => q.keep (q.toPostedAt.congr rfl ⟨rfl, rfl⟩) (.refl _) rfl ⟨Iff.rfl, Iff.rfl⟩ Iff.rfl rfl⟩

theorem reportIf (x : Bool) (r : Report) (h : Runs sc l a b) : Runs sc l a (b.reportIf x r) := by
  unfold State.reportIf
  split
  · exact h.report r
  · exact h

/-- A change of the screen's record: the next slot stands, or the evaluation of the screen's machines is still to come. -/
theorem screen (f : ScreenRec → ScreenRec) (hset : KeepsSettings f)
    (hon : ∀ m, (f (b.screen sc)).onScreen = some m → (b.screen sc).onScreen = some m ∨ screenOf m = sc)
    (hnext : l = false → (b.screen sc).SameNext (f (b.screen sc))) (h : Runs sc l a b) : Runs sc l a (b.modScreen sc f) :=
  h.next fun p => by
    have hposted : ∀ k, PostedAt b k → PostedAt (b.modScreen sc f) k := fun _ q => q.congr rfl ⟨rfl, rfl⟩
    refine ⟨p, .tail .refl (.screen sc f b hset), fun hp x m hm => ?_, fun _ o ho => .ofScreen ho f b, hposted,
      fun k hk q => q.keep (hposted k q.toPostedAt) (.refl _) rfl ⟨Iff.rfl, Iff.rfl⟩ Iff.rfl ?_⟩
    · rw [State.modScreen_screen] at hm
      split at hm
      next hx => subst hx; exact (hon m hm).elim (hp x m) id
      next => exact hp x m hm
    · by_cases hsc : screenOf k = sc
      · cases l with
        | true => exact absurd hsc (hk rfl)
        | false => 
          subst hsc
          exact (State.nextSlot_congr (s := b) (t := b.modScreen _ f)
            (by rw [State.modScreen_screen, if_pos rfl]; exact hnext rfl) fun _ => rfl).1
      · exact (ScreenKept.ofScreen hsc f b).nextSlot

theorem decoder (m : MachineId) (f : DecoderRec → DecoderRec) (hm : screenOf m = sc) (hr : Reaction b (b.modDecoder m f))
    (h : Runs sc l a b) : Runs sc l a (b.modDecoder m f) := h.next fun p =>
  ⟨p, .tail .refl hr, id, fun _ o ho => .ofDecoder (by rw [hm]; exact ho) f b, fun _ q => q.congr rfl ⟨rfl, rfl⟩,
    fun _ _ q => q.keep (q.toPostedAt.congr rfl ⟨rfl, rfl⟩) (.refl _) rfl ⟨Iff.rfl, Iff.rfl⟩ Iff.rfl rfl⟩

/-- An order but for a posting, to a machine of the screen, leaves every condition as it is read. -/
theorem order (m : MachineId) (o : Order) (hm : Paired b → screenOf m = sc) (hok : o.allowed (b.machine m))
    (ho : ∀ y, o ≠ .posting y) (h : Runs sc l a b) : Runs sc l a (b.modMachine m o.run) := h.next fun p =>
  have hstill := o.run_still (b.machine m) ho
  ⟨p, .tail .refl (.order m o b hok), id, fun hp x hx => .ofMachine (by rw [hm hp]; exact hx) _ b,
    fun _ q => q.ofMachine m _ hstill.posting, fun _ _ q => q.ofMachine m _ hstill⟩

/-- An order to a lamp of the screen. One that the condition may see needs a machine that is not judged, or an evaluation still
to come. -/
theorem lamp (m : MachineId) (o : LampOrder) (hm : Paired b → screenOf m = sc)
    (hok : o.allowed (b.machine m).holds.fire (b.lamp m))
    (hsame : (b.machine m).state.judged = true → (l = true ∧ screenOf m = sc) ∨ LampStill (b.lamp m) (o.run (b.lamp m)))
    (h : Runs sc l a b) : Runs sc l a (b.modLamp m o.run) := h.next fun p => by
  refine ⟨p, .tail .refl (.lamp m o b hok), ?_, fun hp x hx => .ofLamp (by rw [hm hp]; exact hx) _ b, fun _ q => q.ofLamp m _,
    fun k hk q => q.ofLamp m _ fun e hj => ?_⟩
  · intro hp
    unfold Paired State.screen
    rw [State.modLamp_screens]
    exact hp
  · subst e
    obtain ⟨hl, hsc⟩ | hstill := hsame hj
    · exact absurd hsc (hk hl)
    · exact hstill

theorem strikeRequest (m : MachineId) (hm : screenOf m = sc) (h : Runs sc l a b) : Runs sc l a (b.strikeRequest m) := by
  unfold State.strikeRequest
  split
  next hdecline =>
    refine h.lamp m .strike (fun _ => hm) hdecline fun _ => .inr ?_
    have hdark : (b.lamp m).state = .dark := by
      unfold strikeDecline at hdecline
      by_contra hne
      split_ifs at hdecline
    exact ⟨rfl, by rw [hdark]; exact ⟨nofun, nofun⟩, by rw [hdark]; exact ⟨nofun, nofun⟩⟩
  next => exact h

/-- A lamp put out: of a machine that is not judged, or with its screen's evaluation still to come. -/
theorem lampOff (m : MachineId) (hm : Paired b → screenOf m = sc)
    (hout : (b.machine m).state.judged = true → l = true ∧ screenOf m = sc) (h : Runs sc l a b) : Runs sc l a (b.lampOff m) :=
  h.lamp m .putOut hm trivial fun hj => .inl (hout hj)

theorem shortfallTest (m : MachineId) (hm : screenOf m = sc) (h : Runs sc l a b) : Runs sc l a (b.shortfallTest m) := by
  unfold State.shortfallTest
  split
  · exact h
  · split
    · exact (h.report _).lamp m .flag (fun _ => hm) trivial fun _ => .inr ⟨rfl, Iff.rfl, Iff.rfl⟩
    · exact h

theorem slotNotice (n : SlotIx) (st : SlotStatus) (hst : st = .shown ∨ st = .cut) (h : Runs sc true a b) :
    Runs sc true a (b.slotNotice sc n st) := h.next fun p => by
  have hbound : ∀ m, (b.slot sc n).bound = some m → screenOf m = sc := fun m hm => (p.toMachine sc n m hm).1
  have hkept : ∀ o, o ≠ sc → ScreenKept o b (b.slotNotice sc n st) := fun o ho => .ofSlotNotice ho n st b hbound
  refine ⟨p, .tail .refl (.slot sc n st b hst), ?_, fun _ => hkept, fun k q => ?_, fun k hk q => q.ofKept (hkept _ (hk rfl))⟩
  · have hscreens : (b.slotNotice sc n st).screens = b.screens := by
      unfold State.slotNotice
      split
      · dsimp only
        split
        · rfl
        · rw [State.modLamp_screens]; rfl
      all_goals rfl
    intro hp
    unfold Paired State.screen
    rw [hscreens]
    exact hp
  · have hslot : ∀ f, PostedAt (b.modSlot sc n f) k := fun f => q.congr rfl ⟨rfl, rfl⟩
    unfold State.slotNotice
    split
    · dsimp only
      split
      · exact hslot _
      · exact ((hslot _).ofMachine _ _ fun _ => ⟨rfl, rfl⟩).ofLamp _ _
    · exact hslot _
    all_goals exact q

theorem circuit (c : CircuitId) (f : Nat → Circuit → Circuit) (hr : Reaction b (b.modCircuit sc c f)) (h : Runs sc l a b) :
    Runs sc l a (b.modCircuit sc c f) := h.next fun p =>
  ⟨p, .tail .refl hr, id, fun _ o ho => .ofCircuit ho c f b, fun _ q => q.congr rfl ⟨rfl, rfl⟩,
    fun _ _ q => q.keep (q.toPostedAt.congr rfl ⟨rfl, rfl⟩) (.refl _) rfl ⟨Iff.rfl, Iff.rfl⟩ Iff.rfl rfl⟩

/-! ### The lights -/

theorem placeThree (r : Rank) (x : SceneLevels) (f : Nat) (k : r.ofScreen) (h : Runs sc l a b) :
    Runs sc l a (b.placeThree sc r x f) :=
  ((h.circuit .house _ (.place sc .house r x.house f _ k)).circuit .aisle _ (.place sc .aisle r x.aisle f _ k)).circuit .stage _
    (.place sc .stage r x.stage f _ k)

theorem placeScene (r : Rank) (n : Fin 8) (f : Nat) (k : r.ofScreen) (h : Runs sc l a b) :
    Runs sc l a (b.placeScene sc r n f) := h.placeThree r _ f k

theorem placeLevel (r : Rank) (c : Option CircuitId) (x f : Nat) (k : r.ofScreen) (h : Runs sc l a b) :
    Runs sc l a (b.placeLevel sc r c x f) := by
  cases c with
  | none => exact h.placeThree r _ f k
  | some c => exact h.circuit c _ (.place sc c r x f _ k)

theorem releaseThree (r : Rank) (k : r.ofScreen) (h : Runs sc l a b) : Runs sc l a (b.releaseThree sc r) :=
  ((h.circuit .house _ (.release sc .house r _ k)).circuit .aisle _ (.release sc .aisle r _ k)).circuit .stage _
    (.release sc .stage r _ k)

/-- A change of the screen's record that leaves its state, its current slot and its ON_SCREEN machine. -/
theorem flags (f : ScreenRec → ScreenRec) (hset : KeepsSettings f)
    (hkeep : ∀ x, (f x).onScreen = x.onScreen ∧ (f x).current = x.current ∧ (f x).state = x.state) (h : Runs sc l a b) :
    Runs sc l a (b.modScreen sc f) :=
  h.screen f hset (fun m hm => .inl (by rw [← (hkeep _).1]; exact hm)) fun _ => ⟨(hkeep _).2.1, .inl (hkeep _).2.2⟩

theorem releaseFault (h : Runs sc l a b) : Runs sc l a (b.releaseFault sc) :=
  (h.releaseThree .fault trivial).flags _ (fun _ => ⟨rfl, rfl, rfl⟩) fun _ => ⟨rfl, rfl, rfl⟩

end Runs

end Sys2Proof.Machine

namespace Sys2Proof.Machine

open Sys2Proof Host

theorem screenOf_eq_iff (k : MachineId) (sc : ScreenId) : screenOf k = sc ↔ k = lowerOf sc ∨ k = upperOf sc := by
  cases k <;> cases sc <;> simp [screenOf, lowerOf, upperOf]

/-- The law of the plan keeps the successor and the machine waited on within their screen (R97). -/
theorem PlanLaw.machine?_screen {s : State} (h : PlanLaw s) {sc : ScreenId} {n : SlotIx} {m : MachineId}
    (hm : (s.slot sc n).machine? = some m) : screenOf m = sc := by
  unfold Slot.machine? at hm
  split at hm
  · exact (h.toMachine sc n m hm).1
  · cases hm

theorem PlanLaw.successor_screen {s : State} (h : PlanLaw s) {sc : ScreenId} {m : MachineId}
    (hm : s.successor sc = some m) : screenOf m = sc := by
  unfold State.successor at hm
  split at hm
  · cases hm
  · exact h.machine?_screen hm

theorem PlanLaw.waitedOn_screen {s : State} (h : PlanLaw s) {sc : ScreenId} {m : MachineId}
    (hm : s.waitedOn sc = some m) : screenOf m = sc := by
  unfold State.waitedOn at hm
  split at hm
  · split at hm
    · cases hm
    · exact h.machine?_screen hm
  · exact h.successor_screen hm

/-! ### The evaluation -/

/-- The plan store posts a result of the evaluation, and the machine unit takes it (R17, R99). -/
def State.posted (m : MachineId) (yes : Bool) (s : State) : State :=
  (s.modPlan fun p => { p with lastPosting := p.lastPosting.set m yes }).modMachine m (MachineRec.takePosting yes)

theorem MachineRec.takePosting_state (yes : Bool) {r : MachineRec} (hj : r.state.judged = true) :
    (r.takePosting yes).state = if yes then .armed else .threaded := by
  obtain h | h := (MachineState.judged_iff _).mp hj <;> cases yes <;> simp [MachineRec.takePosting, h]

theorem State.posted_machine (m k : MachineId) (yes : Bool) (s : State) :
    (s.posted m yes).machine k = if k = m then ((s.machine m).takePosting yes).settleDouser else s.machine k := by
  simp [State.posted, State.machine, Quad.get_set]

theorem State.posted_posting (m k : MachineId) (yes : Bool) (s : State) (hj : (s.machine m).state.judged = true) :
    (s.posted m yes).plan.lastPosting.get k = if k = m then yes else s.plan.lastPosting.get k := by
  have hstate : (((s.machine m).takePosting yes).state).judged = true := by
    rw [MachineRec.takePosting_state yes hj]; cases yes <;> rfl
  have hrec : (s.modPlan fun p => { p with lastPosting := p.lastPosting.set m yes }).machine m = s.machine m := rfl
  simp [State.posted, hrec, hstate, Quad.get_set]

theorem State.posted_nextSlot (m : MachineId) (yes : Bool) (s : State) (sc : ScreenId) :
    (s.posted m yes).nextSlot sc = s.nextSlot sc := by
  rw [State.posted, State.modMachine_nextSlot]
  rfl

theorem State.posted_condition (m : MachineId) (yes : Bool) (s : State) (hj : (s.machine m).state.judged = true) (k : MachineId) :
    (s.posted m yes).armedCondition k = s.armedCondition k := by
  by_cases hk : k = m
  · subst hk
    have hstate := MachineRec.takePosting_state yes hj
    unfold State.armedCondition
    rw [State.posted_nextSlot, State.posted_machine, if_pos rfl]
    simp only [MachineRec.settleDouser_state, MachineRec.settleDouser_boundSlot, MachineRec.settleDouser_holds, hstate, hj]
    cases yes <;> rfl
  · unfold State.armedCondition
    rw [State.posted_nextSlot, State.posted_machine, if_neg hk]
    rfl

/-- A posting puts its machine in step, and the others stay so. -/
theorem PostedAt.ofPosting {s : State} (m : MachineId) (yes : Bool) (hj : (s.machine m).state.judged = true) (k : MachineId)
    (h : k = m ∨ PostedAt s k) : PostedAt (s.posted m yes) k := by
  by_cases hk : k = m
  · subst hk
    have hstate := MachineRec.takePosting_state yes hj
    refine ⟨?_, fun _ => ?_⟩
    · rw [s.posted_posting k k yes hj, s.posted_machine, if_pos rfl, if_pos rfl, MachineRec.settleDouser_state, hstate]
      cases yes <;> rfl
    · rw [s.posted_machine, if_pos rfl, MachineRec.settleDouser_state, hstate]
      cases yes <;> rfl
  · refine (h.resolve_left hk).congr ?_ ?_
    · rw [s.posted_posting m k yes hj, if_neg hk]
    · rw [s.posted_machine, if_neg hk]
      exact ⟨rfl, rfl⟩

theorem ArmedAt.ofPosting {s : State} (m : MachineId) (hj : (s.machine m).state.judged = true) (k : MachineId)
    (h : k = m ∨ ArmedAt s k) : ArmedAt (s.posted m (s.armedCondition m)) k := by
  refine ⟨.ofPosting m _ hj k (h.imp_right (·.toPostedAt)), fun hk => ?_⟩
  rw [s.posted_condition m _ hj]
  by_cases e : k = m
  · subst e
    rw [s.posted_machine, if_pos rfl, MachineRec.settleDouser_state, MachineRec.takePosting_state _ hj]
    cases s.armedCondition k <;> rfl
  · rw [s.posted_machine, if_neg e] at hk ⊢
    exact (h.resolve_left e).settled hk

theorem State.posted_reactions (m : MachineId) (yes : Bool) (s : State) (hj : (s.machine m).state.judged = true) :
    Reactions s (s.posted m yes) :=
  .tail (.tail .refl (.notePosting m yes s hj)) (.order m (.posting yes) _ hj)

/-- R99: an evaluation posts its result and the controller takes it, or there is nothing new to post. -/
theorem State.evaluate_posted (m : MachineId) (s : State) :
    s.evaluate m = s ∧ ((s.machine m).state.judged = true → s.armedCondition m = s.plan.lastPosting.get m)
    ∨ (s.machine m).state.judged = true
      ∧ (s.evaluate m = (s.posted m (s.armedCondition m)).onArmed m
        ∨ s.evaluate m = (s.posted m (s.armedCondition m)).onDisarmed m) := by
  obtain ⟨e, h⟩ | ⟨hj, hyes, -, e⟩ | ⟨hj, hno, -, e⟩ := s.evaluate_cases m
  · exact .inl ⟨e, fun hj => h.resolve_left (by rw [hj]; exact nofun)⟩
  · exact .inr ⟨hj, .inl (by rw [hyes]; exact e)⟩
  · exact .inr ⟨hj, .inr (by rw [hno]; exact e)⟩

namespace Runs

variable {sc : ScreenId} {l : Bool} {a b c : State}

theorem post (m : MachineId) (hm : screenOf m = sc) (hj : (b.machine m).state.judged = true) (h : Runs sc l a b) :
    Runs sc l a (b.posted m (b.armedCondition m)) := h.next fun p =>
  ⟨p, b.posted_reactions m _ hj, id,
    fun _ o ho => (ScreenKept.ofPosting (by rw [hm]; exact ho) _ b).trans (.ofMachine (by rw [hm]; exact ho) _ _),
    fun k q => .ofPosting m _ hj k (.inr q), fun k _ q => .ofPosting m hj k (.inr q)⟩

/-! ### Starts -/

theorem successorLost (h : Runs sc l a b) : Runs sc l a (b.successorLost sc) := by
  refine h.screen _ (fun _ => ⟨rfl, rfl, rfl⟩) (fun m hm => .inl hm) fun _ => ⟨rfl, ?_⟩
  by_cases hx : (b.screen sc).state = .runup ∨ (b.screen sc).state = .swapDue
  · right
    rw [if_pos hx]
    obtain e | e := hx <;> rw [e] <;> exact ⟨rfl, rfl⟩
  · left
    exact if_neg hx

theorem breakMachine (m : MachineId) (c : BreakCause) (hm : screenOf m = sc) (k : (b.machine m).state.running = true)
    (h : Runs sc l a b) : Runs sc l a (b.breakMachine m c) :=
  (h.order m (.fail c) (fun _ => hm) k nofun).report _

theorem loopCheck (m : MachineId) (hm : screenOf m = sc) (h : Runs sc l a b) : Runs sc l a (b.loopCheck m) := by
  subst hm
  unfold State.loopCheck
  split
  next k => exact (h.breakMachine m _ rfl (by rw [k.1]; rfl)).successorLost
  next => exact h

theorem giveStart (m : MachineId) (c : MotorCause) (hm : screenOf m = sc) (h : Runs sc l a b) :
    Runs sc l a (b.giveStart m c) := by
  subst hm
  exact report _ (flags _ (fun _ => ⟨rfl, rfl, rfl⟩) (fun _ => ⟨rfl, rfl, rfl⟩)
    (order m (.start b.timebase) (fun _ => rfl) trivial nofun h))

theorem startSuccessor (m : MachineId) (c : MotorCause) (hm : screenOf m = sc) (h : Runs sc l a b) :
    Runs sc l a (b.startSuccessor m c) := by
  subst hm
  have hgiven := h.giveStart m c rfl
  have hscreen := hgiven.screen (fun x =>
    { x with state := if x.state = .showing then (if x.point.isSome then .swapDue else .runup) else x.state })
    (fun _ => ⟨rfl, rfl, rfl⟩) (fun _ hm => .inl hm) fun _ => ⟨rfl, by
      dsimp only
      split
      next e => right; rw [e]; exact ⟨rfl, by split <;> rfl⟩
      next => exact .inl rfl⟩
  unfold State.startSuccessor
  dsimp only
  split
  · exact (hscreen.strikeRequest m rfl).loopCheck m rfl
  · exact hscreen.loopCheck m rfl

theorem openingStep (hw : ∀ m, b.waitedOn sc = some m → screenOf m = sc) (h : Runs sc l a b) :
    Runs sc l a (b.openingStep sc) := by
  unfold State.openingStep
  split
  · exact h
  next m hm =>
    have hon := hw m hm
    split
    · split
      · exact h.strikeRequest m hon
      · dsimp only
        split
        · exact ((h.giveStart m _ hon).placeScene .cue _ _ trivial).loopCheck m hon
        · exact (h.giveStart m _ hon).loopCheck m hon
      all_goals exact h
    · exact h

theorem onArmed (m : MachineId) (hm : screenOf m = sc) (h : Runs sc l a b) : Runs sc l a (b.onArmed m) := by
  subst hm
  unfold State.onArmed
  dsimp only
  split
  next hw =>
    split
    · exact h.openingStep fun j hj => by rw [hw] at hj; cases hj; rfl
    all_goals first
      | exact h
      | (split; exacts [h.startSuccessor m _ rfl, h])
  next => exact h

theorem onDisarmed (m : MachineId) (hm : screenOf m = sc) (h : Runs sc l a b) : Runs sc l a (b.onDisarmed m) := by
  subst hm
  unfold State.onDisarmed
  dsimp only
  split
  · exact h.flags _ (fun _ => ⟨rfl, rfl, rfl⟩) fun _ => ⟨rfl, rfl, rfl⟩
  · exact h

/-! ### The evaluation puts its machines in step -/

theorem evaluate (m : MachineId) (hm : screenOf m = sc) (h : Runs sc l a b) : Runs sc l a (b.evaluate m) := by
  obtain ⟨e, -⟩ | ⟨hj, e | e⟩ := b.evaluate_posted m
  · rw [e]; exact h
  · rw [e]; exact (h.post m hm hj).onArmed m hm
  · rw [e]; exact (h.post m hm hj).onDisarmed m hm

/-- R99: the machine evaluated is in step with its condition. -/
theorem evaluate_settles (m : MachineId) (hp : PlanLaw b) (h : PostedAt b m) : ArmedAt (b.evaluate m) m := by
  obtain ⟨e, hsettled⟩ | ⟨hj, e | e⟩ := b.evaluate_posted m
  · rw [e]
    exact ⟨h, fun hj => by rw [hsettled hj, h.posting]⟩
  · have hposted := ArmedAt.ofPosting m hj m (.inl rfl)
    have hplan := (b.posted_reactions m (b.armedCondition m) hj).plan hp
    rw [e]
    exact ((refl' (screenOf m) false hplan).onArmed m rfl).armed m nofun hposted
  · have hposted := ArmedAt.ofPosting m hj m (.inl rfl)
    have hplan := (b.posted_reactions m (b.armedCondition m) hj).plan hp
    rw [e]
    exact ((refl' (screenOf m) false hplan).onDisarmed m rfl).armed m nofun hposted

/-- R100: the evaluation of both machines ends a loose run. -/
theorem evaluateScreen (h : Runs sc true a b) : Runs sc l a (b.evaluateScreen sc) := by
  have hlower := h.evaluate (lowerOf sc) (screenOf_lowerOf sc)
  have hupper := hlower.evaluate (upperOf sc) (screenOf_upperOf sc)
  refine { hupper with armed := fun k _ q => ?_ }
  by_cases hk : screenOf k = sc
  · obtain e | e := (screenOf_eq_iff k sc).mp hk
    · subst e
      exact ((refl' sc false hlower.planLaw).evaluate (upperOf sc) (screenOf_upperOf sc)).armed _ nofun
        (evaluate_settles _ h.planLaw (h.posted _ q.toPostedAt))
    · subst e
      exact evaluate_settles _ hlower.planLaw (hlower.posted _ q.toPostedAt)
  · exact hupper.armed k (fun _ => hk) q

end Runs

end Sys2Proof.Machine

namespace Sys2Proof.Machine

open Sys2Proof Host

namespace Runs

variable {sc : ScreenId} {l : Bool} {a b c : State}

/-! ### Action lists -/

theorem execAction (m : MachineId) (code f : Nat) (x : CueAction) (h : Runs sc l a b) :
    Runs sc l a (b.execAction sc m code f x) := by
  cases x with
  | scene n fade => exact h.placeScene .cue n fade trivial
  | level c x fade => exact h.placeLevel .cue c x fade trivial
  | sound x => exact h.flags (fun y => { y with sound := min Config.maxSound x }) (fun _ => ⟨rfl, rfl, rfl⟩) fun _ => ⟨rfl, rfl, rfl⟩
  | note => exact h.report _

theorem execActions (m : MachineId) (code f : Nat) (x : List CueAction) (h : Runs sc l a b) :
    Runs sc l a (State.execActions sc m code f x b) := by
  induction x generalizing b with
  | nil => exact h
  | cons x xs ih => exact ih (h.execAction m code f x)

theorem execEffect (m : MachineId) (c : EffectCode) (f : Nat) (h : Runs sc l a b) : Runs sc l a (b.execEffect sc m c f) :=
  h.execActions m _ f _

theorem execDeferred (m : MachineId) (x : List DeferredCue) (h : Runs sc l a b) :
    Runs sc l a (State.execDeferred sc m x b) := by
  induction x generalizing b with
  | nil => exact h
  | cons x xs ih => exact ih (h.execEffect m x.code x.frame)

theorem handOver (m : MachineId) (hm : screenOf m = sc) (h : Runs sc l a b) : Runs sc l a (b.handOver sc m) :=
  (h.decoder m _ hm (.emptyDeferred m b)).execDeferred m _

theorem issueScene (e : Option SlotEntry) (h : Runs sc l a b) : Runs sc l a (b.issueScene sc e) := by
  unfold State.issueScene
  split
  · exact h.placeScene .cue _ _ trivial
  · exact h

/-! ### Giving a machine the screen -/

/-- A change of the screen's record in a loose run: the evaluation of both machines is still to come. -/
theorem moved (f : ScreenRec → ScreenRec) (hset : KeepsSettings f)
    (hon : ∀ m, (f (b.screen sc)).onScreen = some m → (b.screen sc).onScreen = some m ∨ screenOf m = sc)
    (h : Runs sc true a b) : Runs sc true a (b.modScreen sc f) := h.screen f hset hon nofun

theorem enterDark (c : DarkCause) (m : MachineId) (f : Nat) (h : Runs sc true a b) :
    Runs sc l a (b.enterDark sc c m f) :=
  evaluateScreen (report _ (moved _ (fun _ => ⟨rfl, rfl, rfl⟩) (fun _ => .inl) (placeScene .fault 4 _ trivial
    (moved _ (fun _ => ⟨rfl, rfl, rfl⟩) nofun h))))

/-- The screen's record names one of its own machines as ON_SCREEN. -/
theorem takes {m : MachineId} (hm : screenOf m = sc) {x : Option MachineId} :
    ∀ j, some m = some j → x = some j ∨ screenOf j = sc := fun _ e => .inr (by cases e; exact hm)

theorem openingTake (h : Runs sc l a b) : Runs sc l a (b.openingTake sc) := by
  unfold State.openingTake
  split
  · exact h
  next m hw =>
    have hm := h.planLaw.waitedOn_screen hw
    split
    · exact evaluateScreen (moved _ (fun _ => ⟨rfl, rfl, rfl⟩) (fun _ => .inl) (handOver m hm (releaseFault
        (moved _ (fun _ => ⟨rfl, rfl, rfl⟩) (takes hm) (order m (.takeScreen none) (fun _ => hm) trivial nofun h.loosen)))))
    · exact h

theorem swap (out m : MachineId) (hout : Paired b → screenOf out = sc) (hm : screenOf m = sc) (h : Runs sc l a b) :
    Runs sc l a (b.swap sc out m) := by
  unfold State.swap
  dsimp only
  split
  next hstate =>
    have hgivenUp : Runs sc true a (b.modMachine out MachineRec.giveUp) := h.loosen.order out .giveUp hout trivial nofun
    have hgiven := hgivenUp.lampOff out (fun hp : Paired (b.modMachine out MachineRec.giveUp) => hout hp) fun hj => by
      simp [MachineRec.giveUp, hstate, MachineState.judged] at hj
    split
    · have htaken := moved (fun x => { x.discardTiming with
          onScreen := some m
          darkHold := .stopped
          mixer := if x.overlap = 0 then .machine m else .both
          overlapLeft := x.overlap }) (fun _ => ⟨rfl, rfl, rfl⟩) (takes hm)
        (order m (.takeScreen (some (b.pictureLostNow m))) (fun _ => hm) trivial nofun hgiven)
      refine report _ (evaluateScreen (moved _ (fun _ => ⟨rfl, rfl, rfl⟩) (fun _ => .inl) (handOver m hm (issueScene _ ?_))))
      split
      · exact htaken.releaseFault
      · exact htaken
    · exact hgiven.enterDark _ m _
  next => exact h

theorem recover (m : MachineId) (hm : screenOf m = sc) (h : Runs sc l a b) : Runs sc l a (b.recover sc m) := by
  unfold State.recover
  dsimp only
  split
  · exact report _ (evaluateScreen (moved _ (fun _ => ⟨rfl, rfl, rfl⟩) (fun _ => .inl) (handOver m hm (issueScene _
      (releaseFault (moved _ (fun _ => ⟨rfl, rfl, rfl⟩) (takes hm)
        (order m (.takeScreen (some (b.pictureLostNow m))) (fun _ => hm) trivial nofun h.loosen)))))))
  · exact h

theorem testReady (h : Runs sc l a b) : Runs sc l a (b.testReady sc) := by
  unfold State.testReady
  split
  · exact h
  next m hsucc =>
    have hm := h.planLaw.successor_screen hsucc
    split
    · split
      next out hst hon => exact h.swap out m (fun hp => hp sc out hon) hm
      next => exact h.recover m hm
      next => exact h
    · exact h

/-! ### Postings the controller takes -/

theorem watchPicture (h : Runs sc l a b) : Runs sc l a (b.watchPicture sc) := by
  unfold State.watchPicture
  split
  · exact h
  · dsimp only
    split
    · exact releaseFault (flags _ (fun _ => ⟨rfl, rfl, rfl⟩) (fun _ => ⟨rfl, rfl, rfl⟩) h)
    · exact flags _ (fun _ => ⟨rfl, rfl, rfl⟩) (fun _ => ⟨rfl, rfl, rfl⟩) h

theorem ite {p : Prop} [Decidable p] {x y : State} (h : p → Runs sc l a x) (k : ¬p → Runs sc l a y) :
    Runs sc l a (if p then x else y) := by
  split
  next e => exact h e
  next e => exact k e

theorem machinePosted (m : MachineId) (hm : screenOf m = sc) (h : Runs sc l a b) : Runs sc l a (b.machinePosted m) := by
  subst hm
  have hwatched := ite (p := (b.screen (screenOf m)).onScreen = some m) (fun _ => h.watchPicture) fun _ => h
  unfold State.machinePosted
  dsimp only
  generalize (if (b.screen (screenOf m)).onScreen = some m then b.watchPicture (screenOf m) else b) = c at hwatched
  have htaken := ite (p := c.waitedOn (screenOf m) = some m) (fun _ => hwatched.openingTake) fun _ => hwatched
  exact ite (fun _ => htaken.testReady) fun _ => htaken

theorem lampPosted (m : MachineId) (hm : screenOf m = sc) (h : Runs sc l a b) : Runs sc l a (b.lampPosted m) := by
  subst hm
  have hstruck := ite (p := b.waitedOn (screenOf m) = some m ∧ (b.screen (screenOf m)).startGiven = true
    ∧ (b.lamp m).state = .dark) (fun _ => h.strikeRequest m rfl) fun _ => h
  unfold State.lampPosted
  dsimp only
  generalize (if b.waitedOn (screenOf m) = some m ∧ (b.screen (screenOf m)).startGiven = true
    ∧ (b.lamp m).state = .dark then b.strikeRequest m else b) = c at hstruck
  refine machinePosted m rfl (ite (fun _ => ?_) fun _ => hstruck)
  exact hstruck.openingStep fun _ hw => hstruck.planLaw.waitedOn_screen hw

theorem lampSettled (m : MachineId) (hm : screenOf m = sc) (x : LampState) (h : Runs sc l a b) :
    Runs sc l a (b.lampSettled m x) :=
  evaluate m hm (ite (fun _ => h) fun _ => h.lampPosted m hm)

/-! ### The changeover in action -/

theorem startDue (c : MotorCause) (missed : Bool) (h : Runs sc l a b) : Runs sc l a (b.startDue sc c missed) := by
  unfold State.startDue
  split
  · dsimp only
    split
    next m hm =>
      refine h.startSuccessor m c ?_
      split at hm
      · cases hm
      next k hk =>
        split at hm
        · cases hm
          exact h.planLaw.successor_screen hk
        · cases hm
    next => exact reportIf _ _ (flags _ (fun _ => ⟨rfl, rfl, rfl⟩) (fun _ => ⟨rfl, rfl, rfl⟩) h)
  · exact h

theorem reachPoint (c : PointCause) (f : Nat) (h : Runs sc l a b) : Runs sc l a (b.reachPoint sc c f) := by
  unfold State.reachPoint
  dsimp only
  split
  next k =>
    refine testReady (startDue _ _ (reportIf _ _ (screen _ (fun _ => ⟨rfl, rfl, rfl⟩) (fun _ => .inl) (fun _ => ⟨rfl, .inr ⟨?_, rfl⟩⟩) h)))
    obtain e | e := k.1 <;> rw [e] <;> rfl
  next => exact h

theorem formTiming (on : MachineId) (f : Nat) (h : Runs sc l a b) : Runs sc l a (b.formTiming sc on f) := by
  unfold State.formTiming
  split
  all_goals exact flags _ (fun _ => ⟨rfl, rfl, rfl⟩) (fun _ => ⟨rfl, rfl, rfl⟩) h

theorem strikePoint (on : MachineId) (hon : screenOf on = sc) (h : Runs sc l a b) : Runs sc l a (b.strikePoint sc on) := by
  unfold State.strikePoint
  split
  · exact ite (fun _ => h.strikeRequest _ (by rw [screenOf_partnerOf]; exact hon)) fun _ => h
  · exact h

theorem startPointReached (h : Runs sc l a b) : Runs sc l a (b.startPointReached sc) := by
  unfold State.startPointReached
  split
  · exact ite (fun _ => h.startDue _ _) fun _ => h
  · exact h

theorem footagePoint (f : Nat) (h : Runs sc l a b) : Runs sc l a (b.footagePoint sc f) := by
  unfold State.footagePoint
  split
  · exact ite (fun _ => h.reachPoint _ f) fun _ => h
  · exact ite (fun _ => h.reachPoint _ f) fun _ => h
  · exact h

theorem overlapStep (on : MachineId) (h : Runs sc l a b) : Runs sc l a (b.overlapStep sc on) :=
  flags _ (fun x => by split <;> exact ⟨rfl, rfl, rfl⟩) (fun x => by split <;> exact ⟨rfl, rfl, rfl⟩) h

theorem frameNotice (m : MachineId) (hm : screenOf m = sc) (h : Runs sc l a b) : Runs sc l a (b.frameNotice m) := by
  subst hm
  have hstepped := h.overlapStep m
  unfold State.frameNotice
  dsimp only
  refine machinePosted m rfl (ite (fun _ => ?_) fun _ => h)
  split
  all_goals first
    | exact footagePoint _ (startPointReached (strikePoint m rfl (formTiming m _ hstepped)))
    | exact hstepped

/-! ### The end of a reel -/

theorem outgoingReelEnds (m : MachineId) (hm : screenOf m = sc) (h : Runs sc true a b) :
    Runs sc true a (b.outgoingReelEnds m) := by
  subst hm
  unfold State.outgoingReelEnds
  split
  · exact h
  · dsimp only
    split
    · exact h.slotNotice _ _ (.inl rfl)
    · exact reportIf _ _ (h.slotNotice _ _ (.inl rfl))

theorem goIdle (h : Runs sc true a b) : Runs sc true a (b.modScreen sc ScreenRec.goIdle) :=
  moved _ (fun _ => ⟨rfl, rfl, rfl⟩) nofun h

theorem endProgramme (h : Runs sc true a b) : Runs sc l a (b.endProgramme sc) :=
  report _ (evaluateScreen (goIdle (releaseFault (releaseThree .cue trivial h))))

theorem enterInterval (k : Nat) (h : Runs sc true a b) : Runs sc l a (b.enterInterval sc k) :=
  report _ (evaluateScreen (moved _ (fun _ => ⟨rfl, rfl, rfl⟩) (fun _ => .inl) (placeScene .cue 3 _ trivial
    (releaseFault (moved _ (fun _ => ⟨rfl, rfl, rfl⟩) (fun _ => .inl) h)))))

theorem onScreenReelEnds (m : MachineId) (h : Runs sc l a b) : Runs sc l a (b.onScreenReelEnds sc m) := by
  unfold State.onScreenReelEnds
  split
  · exact h
  next n _ =>
    dsimp only
    have hshown := h.loosen.slotNotice n .shown (.inl rfl)
    have k : ∀ c : State, Runs sc true a c → Runs sc true a
        (c.modScreen sc fun x => { x.discardTiming with onScreen := none, darkHold := .stopped }) :=
      fun c hc => moved _ (fun _ => ⟨rfl, rfl, rfl⟩) nofun hc
    cases (b.slot sc n).entry with
    | none => exact enterDark _ m _ (k _ hshown)
    | some e =>
      dsimp only
      refine ite (fun _ => endProgramme (k _ (reportIf _ _ hshown))) fun _ => ?_
      split
      · exact enterInterval _ (k _ (reportIf _ _ hshown))
      · exact enterDark _ m _ (k _ (reportIf _ _ hshown))

theorem openingReelEnds (h : Runs sc l a b) : Runs sc l a (b.openingReelEnds sc) := by
  unfold State.openingReelEnds
  split
  · exact h
  · exact evaluateScreen (goIdle (releaseFault (report _ (slotNotice _ _ (.inr rfl) h.loosen))))

theorem successorReelEnds (h : Runs sc l a b) : Runs sc l a (b.successorReelEnds sc) := by
  unfold State.successorReelEnds
  split
  · exact h
  · exact evaluateScreen (report _ (moved _ (fun _ => ⟨rfl, rfl, rfl⟩) (fun _ => .inl) (slotNotice _ _ (.inr rfl) h.loosen)))

theorem reelEndNotice (m : MachineId) (x : MachineState) (hm : screenOf m = sc) (h : Runs sc l a b) :
    Runs sc l a (b.reelEndNotice m x) := by
  subst hm
  unfold State.reelEndNotice
  exact ite (fun _ => evaluateScreen (h.loosen.outgoingReelEnds m rfl)) fun _ => ite (fun _ => h.onScreenReelEnds m) fun _ =>
    ite (fun _ => ite (fun _ => h.openingReelEnds) fun _ => h.successorReelEnds) fun _ => h

/-- A machine at rest stays in its state through a run of the show (R5, R7 to R9, R13, R17). -/
theorem resting (h : Runs sc l a b) {m : MachineId} (hrest : (a.machine m).state.resting = true) :
    (b.machine m).state = (a.machine m).state := by
  rw [h.reactions.frame.machineRested m hrest]

theorem reelEnd (m : MachineId) (hm : screenOf m = sc) (k : (b.machine m).state.running = true) (h : Runs sc l a b) :
    Runs sc l a (b.reelEnd m) := by
  have hstopped : Runs sc l a (b.modMachine m MachineRec.enterStopped) := h.order m .stop (fun _ => hm) k nofun
  have hnotice := (refl' sc l hstopped.planLaw).reelEndNotice m (b.machine m).state hm
  have hstate : ((b.modMachine m MachineRec.enterStopped).machine m).state = .stopped := by
    simp [MachineRec.enterStopped, MachineRec.clearRing]
  have hrest := hnotice.resting (m := m) (by rw [hstate]; rfl)
  refine lampSettled m hm _ (lampOff m (fun _ => hm) (fun hj => ?_) (hstopped.trans hnotice))
  rw [hrest, hstate] at hj
  cases hj

theorem breakNotice (m : MachineId) (x : MachineState) (hm : screenOf m = sc) (h : Runs sc l a b) :
    Runs sc l a (b.breakNotice m x) := by
  subst hm
  unfold State.breakNotice
  refine ite (fun _ => evaluateScreen (h.loosen.outgoingReelEnds m rfl)) fun _ => ite (fun _ => ?_) fun _ =>
    ite (fun _ => evaluateScreen h.loosen.successorLost) fun _ => h
  apply enterDark
  split
  · exact h.loosen
  · exact h.loosen.slotNotice _ _ (.inr rfl)

theorem breakRun (m : MachineId) (c : BreakCause) (hm : screenOf m = sc) (k : (b.machine m).state.running = true)
    (h : Runs sc l a b) : Runs sc l a (b.breakRun m c) :=
  (h.breakMachine m c hm k).breakNotice m _ hm

/-! ### Cues -/

theorem rejectCue (m : MachineId) (c : Option Nat) (f : Nat) (r : RejectReason) (hm : screenOf m = sc) (h : Runs sc l a b) :
    Runs sc l a (b.rejectCue m c f r) :=
  (h.order m .reject (fun _ => hm) trivial nofun).report _

theorem deferCue (m : MachineId) (c : EffectCode) (f : Nat) (hm : screenOf m = sc) (h : Runs sc l a b) :
    Runs sc l a (b.deferCue m c f) :=
  ite (fun k => (h.decoder m _ hm (.defer m ⟨c, f⟩ b k)).report _) fun _ => h.rejectCue m _ f _ hm

theorem effectCue (m : MachineId) (c : EffectCode) (f : Nat) (hm : screenOf m = sc) (h : Runs sc l a b) :
    Runs sc l a (b.effectCue m c f) := by
  subst hm
  unfold State.effectCue
  split
  · exact h.execEffect m c f
  · exact h.deferCue m c f rfl
  all_goals exact h.rejectCue m _ f _ rfl

theorem changeoverCue (m : MachineId) (i : Bool) (f : Nat) (hm : screenOf m = sc) (h : Runs sc l a b) :
    Runs sc l a (b.changeoverCue m i f) := by
  subst hm
  have hreject : ∀ r, Runs (screenOf m) l a (b.rejectCue m (some (if i then 1 else 2)) f r) := fun r => h.rejectCue m _ f r rfl
  unfold State.changeoverCue
  dsimp only
  split
  · refine ite (fun _ => hreject _) fun _ => ite (fun _ => ite (fun _ => ?_) fun _ => hreject _) fun _ =>
      ite (fun _ => (h.report _).reachPoint _ f) fun _ => hreject _
    split
    all_goals first
      | exact (h.report _).startDue _ _
      | exact h.report _
  · exact hreject _

theorem disposeCode (m : MachineId) (p f : Nat) (hm : screenOf m = sc) (h : Runs sc l a b) :
    Runs sc l a (b.disposeCode m p f) := by
  unfold State.disposeCode
  split
  · exact ite (fun _ => h.changeoverCue m _ f hm) fun _ => h.rejectCue m _ f _ hm
  · exact ite (fun _ => h.changeoverCue m _ f hm) fun _ => h.rejectCue m _ f _ hm
  · exact h.effectCue m _ f hm
  · exact h.effectCue m _ f hm
  · exact h.effectCue m _ f hm
  · exact h.effectCue m _ f hm
  · exact h.rejectCue m _ f _ hm

theorem groupNews (m : MachineId) (n : GroupNews) (hm : screenOf m = sc) (h : Runs sc l a b) :
    Runs sc l a (b.groupNews m n) := by
  unfold State.groupNews
  dsimp only
  split
  · exact h
  · exact ite (fun _ => h.report _) fun _ => h.rejectCue m _ _ _ hm
  · exact ite (fun _ => h.report _) fun _ => h.disposeCode m _ _ hm

/-! ### Openings, trips and ABORT -/

theorem openSlot (n : SlotIx) (h : Runs sc l a b) : Runs sc l a (b.openSlot sc n).1 := by
  have hopened : Runs sc l a ((b.modScreen sc (ScreenRec.enterOpening n)).evaluateScreen sc) :=
    evaluateScreen (moved _ (fun _ => ⟨rfl, rfl, rfl⟩) (fun _ => .inl) h.loosen)
  unfold State.openSlot
  dsimp only
  split
  · exact hopened.openingStep fun _ hw => hopened.planLaw.waitedOn_screen hw
  · exact flags (fun x => { x with startPending := true }) (fun _ => ⟨rfl, rfl, rfl⟩) (fun _ => ⟨rfl, rfl, rfl⟩) hopened

theorem leftRunout (m : MachineId) (x : MachineState) (hm : screenOf m = sc) (h : Runs sc true a b) :
    Runs sc true a (b.leftRunout m x) := ite (fun _ => h.outgoingReelEnds m hm) fun _ => h

theorem halt (h : Runs sc true a b) : Runs sc true a (b.modScreen sc ScreenRec.halt) :=
  moved _ (fun _ => ⟨rfl, rfl, rfl⟩) nofun h

theorem boothHalt (x y : MachineState) (h : Runs sc true a b) : Runs sc true a (b.boothHalt sc x y) := by
  have hleft := (h.leftRunout _ x (screenOf_lowerOf sc)).leftRunout _ y (screenOf_upperOf sc)
  exact ite (fun _ => hleft) fun _ => hleft.halt

/-- A stop order is taken by a running machine, and by no other (R9). -/
theorem stopOrder (m : MachineId) (hm : screenOf m = sc) (h : Runs sc l a b) : Runs sc l a (b.modMachine m MachineRec.stopOrder) := by
  by_cases k : (b.machine m).state.running = true
  · have e : b.modMachine m MachineRec.stopOrder = b.modMachine m (Order.run .stop) := by
      simp [State.modMachine, MachineRec.stopOrder, Order.run, k]
    rw [e]; exact h.order m .stop (fun _ => hm) k nofun
  · have e : b.modMachine m MachineRec.stopOrder = b.modMachine m (Order.run .settle) := by
      simp [State.modMachine, MachineRec.stopOrder, Order.run, k]
    rw [e]; exact h.order m .settle (fun _ => hm) trivial nofun

theorem machineHalt (m : MachineId) (x : MachineState) (hm : screenOf m = sc) (h : Runs sc true a b) :
    Runs sc true a (b.machineHalt m x) := by
  subst hm
  have hpartner : screenOf (partnerOf m) = screenOf m := screenOf_partnerOf m
  exact ite (fun _ => halt (leftRunout _ _ hpartner (lampOff _ (fun _ => hpartner) (fun _ => ⟨rfl, hpartner⟩) (h.stopOrder _ hpartner))))
    fun _ => ite (fun _ => h.outgoingReelEnds m rfl) fun _ => ite (fun _ => h.successorLost) fun _ => h

theorem abortMachine (m : MachineId) (hm : screenOf m = sc) (h : Runs sc true a b) : Runs sc true a (b.abortMachine m) := by
  have hstopped := ((h.stopOrder m hm).lampOff m (fun _ => hm) fun _ => ⟨rfl, hm⟩).decoder m _ hm (.emptyDeferred m _)
  exact ite (fun _ => hstopped.outgoingReelEnds m hm) fun _ => hstopped

theorem cutCurrent (h : Runs sc true a b) : Runs sc true a (b.cutCurrent sc) := by
  unfold State.cutCurrent
  split
  · exact h
  · exact h.slotNotice _ _ (.inr rfl)

theorem abort (h : Runs sc l a b) : Runs sc l a (b.abort sc) :=
  evaluateScreen (goIdle (releaseFault (releaseThree .cue trivial (cutCurrent (abortMachine _ (screenOf_upperOf sc)
    (abortMachine _ (screenOf_lowerOf sc) h.loosen))))))

end Runs

end Sys2Proof.Machine

/-! ### Events and commands, between one evaluation of ARMED and the next

An event or a command is a few changes of records, with runs of the show and evaluations between and after them. While the
evaluation of some machines is still to come, every other machine stays in step with its condition (R98 to R100). -/

namespace Sys2Proof.Machine

open Sys2Proof Host

theorem ScreenRec.elapse_kept (dt : Nat) (x : ScreenRec) :
    (x.elapse dt).state = x.state ∧ (x.elapse dt).current = x.current ∧ (x.elapse dt).onScreen = x.onScreen := by
  unfold ScreenRec.elapse
  dsimp only
  split <;> exact ⟨rfl, rfl, rfl⟩

/-- The law of the plan holds, the postings are in step, and every machine but those still to be evaluated is ARMED exactly
while its condition holds. -/
structure Settled (due : MachineId → Prop) (s : State) : Prop where
  plan : PlanLaw s
  posted : ∀ k, PostedAt s k
  armed : ∀ k, ¬ due k → ArmedAt s k

namespace Settled

variable {due : MachineId → Prop} {s t : State}

theorem ofLaw (hplan : PlanLaw s) (h : ArmedLaw s) : Settled (fun _ => False) s :=
  ⟨hplan, fun k => ((armedLaw_iff s).mp h k).toPostedAt, fun k _ => (armedLaw_iff s).mp h k⟩

theorem law (h : Settled (fun _ => False) s) : ArmedLaw s := (armedLaw_iff s).mpr fun k => h.armed k id

theorem mono {due' : MachineId → Prop} (h : Settled due s) (k : ∀ m, due m → due' m) : Settled due' s :=
  ⟨h.plan, h.posted, fun m hm => h.armed m fun e => hm (k m e)⟩

theorem runs {sc : ScreenId} {l : Bool} (h : Settled due s) (r : Runs sc l s t)
    (hdue : l = true → ∀ k, screenOf k = sc → due k) : Settled due t where
  plan := r.planLaw
  posted k := r.posted k (h.posted k)
  armed k hk := r.armed k (fun e hsc => hk (hdue e k hsc)) (h.armed k hk)

/-- A run that leaves nothing to be evaluated. -/
theorem run {sc : ScreenId} (h : Settled due s) (r : PlanLaw s → Runs sc false s t) : Settled due t :=
  h.runs (r h.plan) nofun

/-- R99: an evaluation settles its machine. -/
theorem evaluate (h : Settled due s) (m : MachineId) : Settled (fun k => due k ∧ k ≠ m) (s.evaluate m) := by
  have r := (Runs.refl' (screenOf m) false h.plan).evaluate m rfl
  refine ⟨r.planLaw, fun k => r.posted k (h.posted k), fun k hk => ?_⟩
  by_cases e : k = m
  · subst e
    exact Runs.evaluate_settles _ h.plan (h.posted _)
  · exact r.armed k nofun (h.armed k fun hdue => hk ⟨hdue, e⟩)

theorem evaluateScreen (h : Settled due s) (sc : ScreenId) :
    Settled (fun k => due k ∧ screenOf k ≠ sc) (s.evaluateScreen sc) := by
  refine ((h.evaluate (lowerOf sc)).evaluate (upperOf sc)).mono fun k ⟨⟨hdue, hlower⟩, hupper⟩ => ⟨hdue, fun e => ?_⟩
  exact ((screenOf_eq_iff k sc).mp e).elim hlower hupper

/-- The evaluation of the one machine that was to be evaluated. -/
theorem evaluateLast {m : MachineId} (h : Settled (· = m) s) : Settled (fun _ => False) (s.evaluate m) :=
  (h.evaluate m).mono fun _ ⟨e, k⟩ => k e

/-- The evaluation of the one screen whose machines were to be evaluated. -/
theorem evaluateScreenLast {sc : ScreenId} (h : Settled (screenOf · = sc) s) :
    Settled (fun _ => False) (s.evaluateScreen sc) := (h.evaluateScreen sc).mono fun _ ⟨e, k⟩ => k e

/-! ### Changes of one record -/

/-- A change that neither the postings nor the condition sees. -/
theorem unseen (h : Settled due s) (hplan : PlanLaw t) (hposting : t.plan.lastPosting = s.plan.lastPosting)
    (hmachine : ∀ k, (t.machine k).state = (s.machine k).state ∧ (t.machine k).armedPosting = (s.machine k).armedPosting
      ∧ RecStill (s.machine k) (t.machine k))
    (hlamp : ∀ k, LampStill (s.lamp k) (t.lamp k))
    (hshutter : ∀ k, (t.fire.shutters.get k).state = .opened ↔ (s.fire.shutters.get k).state = .opened)
    (hnext : ∀ sc, t.nextSlot sc = s.nextSlot sc) : Settled due t := by
  have hposted : ∀ k, PostedAt t k := fun k =>
    (h.posted k).congr (by rw [hposting]) ⟨(hmachine k).1, (hmachine k).2.1⟩
  refine ⟨hplan, hposted, fun k hk => ?_⟩
  obtain ⟨hok, hstates⟩ := hlamp k
  exact (h.armed k hk).keep (hposted k) (hmachine k).2.2 hok hstates (hshutter k) (hnext _)

theorem line (h : Settled due s) (f : LineUnit → LineUnit) : Settled due (s.modLine f) :=
  h.unseen (h.plan.congr (fun _ _ => rfl) (fun _ => rfl) (fun _ => rfl) (fun _ => id) fun _ => rfl) rfl
    (fun _ => ⟨rfl, rfl, .refl _⟩) (fun _ => ⟨rfl, Iff.rfl, Iff.rfl⟩) (fun _ => Iff.rfl) fun _ => rfl

theorem decoder (h : Settled due s) (m : MachineId) (f : DecoderRec → DecoderRec) : Settled due (s.modDecoder m f) :=
  h.unseen (h.plan.congr (fun _ _ => rfl) (fun _ => rfl) (fun _ => rfl) (fun _ => id) fun _ => rfl) rfl
    (fun _ => ⟨rfl, rfl, .refl _⟩) (fun _ => ⟨rfl, Iff.rfl, Iff.rfl⟩) (fun _ => Iff.rfl) fun _ => rfl

theorem lights (h : Settled due s) (f : HouseLights → HouseLights) : Settled due (s.modLights f) :=
  h.unseen (h.plan.congr (fun _ _ => rfl) (fun _ => rfl) (fun _ => rfl) (fun _ => id) fun _ => rfl) rfl
    (fun _ => ⟨rfl, rfl, .refl _⟩) (fun _ => ⟨rfl, Iff.rfl, Iff.rfl⟩) (fun _ => Iff.rfl) fun _ => rfl

theorem circuit (h : Settled due s) (sc : ScreenId) (c : CircuitId) (f : Nat → Circuit → Circuit) :
    Settled due (s.modCircuit sc c f) := h.lights _

/-- A change of a screen's record that leaves its state and its current slot. -/
theorem flags (h : Settled due s) (sc : ScreenId) (f : ScreenRec → ScreenRec)
    (hf : ∀ x, (f x).state = x.state ∧ (f x).current = x.current) : Settled due (s.modScreen sc f) := by
  refine h.unseen (h.plan.congr (fun _ _ => rfl) (fun _ => rfl) (fun _ => rfl) (fun _ => id) fun _ => rfl) rfl
    (fun _ => ⟨rfl, rfl, .refl _⟩) (fun _ => ⟨rfl, Iff.rfl, Iff.rfl⟩) (fun _ => Iff.rfl) fun sc' => ?_
  refine (State.nextSlot_congr (s := s) (t := s.modScreen sc f) ?_ fun _ => rfl).1
  rw [State.modScreen_screen]
  split
  next e => subst e; exact ⟨(hf _).2, .inl (hf _).1⟩
  next => exact ⟨rfl, .inl rfl⟩

/-- A change of the plan store that leaves the tables and the postings. -/
theorem planStore (h : Settled due s) (f : PlanStore → PlanStore) (htables : (f s.plan).tables = s.plan.tables)
    (hposting : (f s.plan).lastPosting = s.plan.lastPosting) : Settled due (s.modPlan f) := by
  have hslot : ∀ sc n, (s.modPlan f).slot sc n = s.slot sc n := fun sc n => congrArg (fun t => (t.get sc)[n]) htables
  refine h.unseen (h.plan.congr hslot (fun _ => rfl) (fun _ => rfl) (fun _ => id) fun _ => rfl) hposting
    (fun _ => ⟨rfl, rfl, .refl _⟩) (fun _ => ⟨rfl, Iff.rfl, Iff.rfl⟩) (fun _ => Iff.rfl) fun sc => ?_
  exact (State.nextSlot_congr (s := s) (t := s.modPlan f) ⟨rfl, .inl rfl⟩ fun n => by rw [hslot]).1

theorem elapse (h : Settled due s) (dt : Nat) : Settled due (s.elapse dt) := by
  refine h.unseen (h.plan.elapse dt) ?_ (fun k => ?_) (fun k => ?_) (fun k => ?_) fun sc => ?_
  · change (s.plan.elapse dt).lastPosting = _
    unfold PlanStore.elapse
    split <;> rfl
  · rw [State.elapse_machine]
    exact ⟨rfl, rfl, fun _ => ⟨rfl, rfl, rfl, rfl, rfl⟩⟩
  · rw [State.elapse_lamp]
    exact ⟨rfl, Iff.rfl, Iff.rfl⟩
  · change ((s.fire.elapse dt).shutters.get k).state = _ ↔ _
    rw [FireUnit.elapse_shutter]
    exact Iff.rfl
  · refine (State.nextSlot_congr (s := s) (t := s.elapse dt) ?_ fun n => by rw [State.elapse_slot]).1
    rw [State.elapse_screen]
    exact ⟨(ScreenRec.elapse_kept dt _).2.1, .inl (ScreenRec.elapse_kept dt _).1⟩

/-- A machine's change that leaves the state and the copy of the last posting, and what the condition reads of it, where the
machine is judged afterwards. -/
theorem machine (h : Settled due s) (m : MachineId) (f : MachineRec → MachineRec) (hplan : PlanLaw (s.modMachine m f))
    (hf : RecStill (s.machine m) (f (s.machine m))) : Settled due (s.modMachine m f) :=
  ⟨hplan, fun k => (h.posted k).ofMachine m f hf.posting, fun k hk => (h.armed k hk).ofMachine m f hf⟩

/-- A lamp's change, where the condition does not see it or the evaluation of its machine is still to come. -/
theorem lamp (h : Settled due s) (m : MachineId) (f : LampRec → LampRec) (hplan : PlanLaw (s.modLamp m f))
    (hf : ¬ due m → (s.machine m).state.judged = true → LampStill (s.lamp m) (f (s.lamp m))) : Settled due (s.modLamp m f) :=
  ⟨hplan, fun k => (h.posted k).ofLamp m f, fun k hk => (h.armed k hk).ofLamp m f fun e hj => hf (e ▸ hk) hj⟩

/-- A change of the fire unit under which only machines still to be evaluated have a shutter enter or leave OPEN. -/
theorem fire (h : Settled due s) (f : FireUnit → FireUnit)
    (hf : ∀ k, ¬ due k → (((f s.fire).shutters.get k).state = .opened ↔ (s.fire.shutters.get k).state = .opened)) :
    Settled due (s.modFire f) where
  plan := h.plan.modFire f
  posted k := (h.posted k).congr rfl ⟨rfl, rfl⟩
  armed k hk := (h.armed k hk).keep ((h.posted k).congr rfl ⟨rfl, rfl⟩) (.refl _) rfl ⟨Iff.rfl, Iff.rfl⟩ (hf k hk) rfl

/-- A change of one shutter's record. -/
theorem shutter (h : Settled due s) (m : MachineId) (f : ShutterRec → ShutterRec)
    (hf : ¬ due m → ((f (s.fire.shutters.get m)).state = .opened ↔ (s.fire.shutters.get m).state = .opened)) :
    Settled due (s.modShutter m f) := h.fire _ fun k hk => by
  change ((s.fire.shutters.set m _).get k).state = _ ↔ _
  rw [Quad.get_set]
  split
  next e => subst e; exact hf hk
  next => exact Iff.rfl

end Settled

end Sys2Proof.Machine

/-! ### Field events of one screen -/

namespace Sys2Proof.Machine

open Sys2Proof Host

/-- An event of screen `sc`, up to a state `b` in which the machines `due` are still to be evaluated: it leaves the other
screen, and keeps the rest of ARMED in step. -/
structure Acts (sc : ScreenId) (due : MachineId → Prop) (a b : State) : Prop where
  plan : PlanLaw b
  paired : Paired a → Paired b
  other : Paired a → ∀ o, o ≠ sc → ScreenKept o a b
  settled : Settled (fun _ => False) a → Settled due b

theorem ScreenKept.ofFire {o : ScreenId} (f : FireUnit → FireUnit) (s : State)
    (h : ∀ m, screenOf m = o → (f s.fire).machineLatch.get m = s.fire.machineLatch.get m
      ∧ (f s.fire).shutters.get m = s.fire.shutters.get m ∧ (f s.fire).gates.get m = s.fire.gates.get m) :
    ScreenKept o s (s.modFire f) :=
  ⟨fun _ _ => ⟨rfl, rfl, rfl, rfl⟩, h, fun _ => rfl, rfl, rfl, fun _ => rfl, rfl⟩

theorem ScreenKept.placeSafety {o sc : ScreenId} (h : o ≠ sc) (s : State) : ScreenKept o s (s.placeSafety sc) := by
  unfold State.placeSafety State.placeThree
  exact ((ScreenKept.ofCircuit h .house _ s).trans (.ofCircuit h .aisle _ _)).trans (.ofCircuit h .stage _ _)

theorem ScreenKept.ofShutter {o : ScreenId} {m : MachineId} (h : o ≠ screenOf m) (f : ShutterRec → ShutterRec) (s : State) :
    ScreenKept o s (s.modShutter m f) :=
  .ofFire _ s fun _ hk => ⟨rfl, Quad.get_set_ne _ _ fun e => h (by rw [← hk, e]), rfl⟩

theorem Paired.ofLamp {s : State} (h : Paired s) (m : MachineId) (f : LampRec → LampRec) : Paired (s.modLamp m f) := by
  unfold Paired State.screen
  rw [State.modLamp_screens]
  exact h

theorem MachineRec.firstAtSpeed_still (r : MachineRec) : RecStill r r.firstAtSpeed := by
  unfold MachineRec.firstAtSpeed
  dsimp only
  split
  · exact .of_not_judged rfl
  · exact fun _ => ⟨rfl, rfl, rfl, rfl, rfl⟩

theorem MachineRec.judgeSpeed_still (b : Bool) (r : MachineRec) : RecStill r (r.judgeSpeed b) := by
  unfold MachineRec.judgeSpeed
  dsimp only
  generalize (if b = true then min Config.bandRun (r.inBandRun + 1) else 0) = ins
  generalize (if b = true then 0 else min Config.bandRun (r.outBandRun + 1)) = outs
  split
  · split
    · exact fun hj => MachineRec.firstAtSpeed_still _ hj
    · exact fun _ => ⟨rfl, rfl, rfl, rfl, rfl⟩
  · split <;> exact fun _ => ⟨rfl, rfl, rfl, rfl, rfl⟩
  · split <;> exact fun _ => ⟨rfl, rfl, rfl, rfl, rfl⟩
  · exact fun _ => ⟨rfl, rfl, rfl, rfl, rfl⟩

/-- A frame pulse judges no machine: the condition does not see it. -/
theorem MachineRec.pulse_still (r : MachineRec) : RecStill r r.pulse := by
  have haverage : ∀ x : MachineRec, RecStill x x.enterPeriod := fun x => by
    unfold MachineRec.enterPeriod MachineRec.formAverage
    split
    · dsimp only
      split
      · exact MachineRec.judgeSpeed_still _ _
      · exact fun _ => ⟨rfl, rfl, rfl, rfl, rfl⟩
    · exact fun _ => ⟨rfl, rfl, rfl, rfl, rfl⟩
  have hcount : r.countFrame.state = r.state ∧ r.countFrame.armedPosting = r.armedPosting
      ∧ r.countFrame.boundSlot = r.boundSlot ∧ r.countFrame.holds = r.holds := by
    unfold MachineRec.countFrame
    split
    · exact ⟨rfl, rfl, rfl, rfl⟩
    · split <;> exact ⟨rfl, rfl, rfl, rfl⟩
  obtain ⟨hstate, hposting, hbound, hholds⟩ := hcount
  unfold MachineRec.pulse
  dsimp only
  split
  · intro hj
    obtain ⟨h1, h2, h3, h4, h5⟩ := haverage _ hj
    exact ⟨h1.trans hstate, h2.trans hposting, h3.trans hbound, h4.trans (by rw [← hholds]), h5.trans (by rw [← hholds])⟩
  · exact fun _ => ⟨hstate, hposting, hbound, by rw [← hholds], by rw [← hholds]⟩

/-- A change of one screen's records, after which that screen is to be evaluated. -/
theorem Settled.kept {due due' : MachineId → Prop} {sc : ScreenId} {s t : State} (h : Settled due s) (hplan : PlanLaw t)
    (hother : ∀ o, o ≠ sc → ScreenKept o s t) (hposted : ∀ k, PostedAt s k → PostedAt t k)
    (hdue : ∀ k, due k → due' k) (hscreen : ∀ k, screenOf k = sc → due' k) : Settled due' t where
  plan := hplan
  posted k := hposted k (h.posted k)
  armed k hk := (h.armed k fun e => hk (hdue k e)).ofKept (hother _ fun e => hk (hscreen k e))

namespace Acts

variable {sc : ScreenId} {due due' : MachineId → Prop} {a b c : State}

theorem refl (h : PlanLaw a) : Acts sc (fun _ => False) a a := ⟨h, id, fun _ o _ => .refl o a, id⟩

theorem next (h : Acts sc due a b) (hplan : PlanLaw c) (hpaired : Paired b → Paired c)
    (hother : Paired b → ∀ o, o ≠ sc → ScreenKept o b c) (hsettled : Settled due b → Settled due' c) : Acts sc due' a c where
  plan := hplan
  paired p := hpaired (h.paired p)
  other p o ho := (h.other p o ho).trans (hother (h.paired p) o ho)
  settled q := hsettled (h.settled q)

theorem run (h : Acts sc due a b) (r : PlanLaw b → Runs sc false b c) : Acts sc due a c :=
  have r := r h.plan
  h.next r.planLaw r.paired r.other fun q => q.runs r nofun

theorem report (h : Acts sc due a b) (r : Report) : Acts sc due a (b.report r) := h.run fun p => (Runs.refl' sc false p).report r

theorem machine (h : Acts sc due a b) (m : MachineId) (f : MachineRec → MachineRec) (hm : screenOf m = sc)
    (hplan : PlanLaw (b.modMachine m f)) (hf : RecStill (b.machine m) (f (b.machine m))) : Acts sc due a (b.modMachine m f) :=
  h.next hplan id (fun _ _ ho => .ofMachine (by rw [hm]; exact ho) f b) fun q => q.machine m f hplan hf

theorem lamp (h : Acts sc due a b) (m : MachineId) (f : LampRec → LampRec) (hm : screenOf m = sc)
    (hlength : (f (b.lamp m)).boundLength = (b.lamp m).boundLength) (hdue : due m) : Acts sc due a (b.modLamp m f) :=
  have hplan := h.plan.ofLamp m f hlength
  h.next hplan (fun p => p.ofLamp m f) (fun _ _ ho => .ofLamp (by rw [hm]; exact ho) f b)
    fun q => q.lamp m f hplan fun hk => absurd hdue hk

theorem fire (h : Acts sc due a b) (f : FireUnit → FireUnit)
    (hother : ∀ m, screenOf m ≠ sc → (f b.fire).machineLatch.get m = b.fire.machineLatch.get m
      ∧ (f b.fire).shutters.get m = b.fire.shutters.get m ∧ (f b.fire).gates.get m = b.fire.gates.get m)
    (hf : ∀ k, ¬ due k → (((f b.fire).shutters.get k).state = .opened ↔ (b.fire.shutters.get k).state = .opened)) :
    Acts sc due a (b.modFire f) :=
  h.next (h.plan.modFire f) id (fun _ _ ho => .ofFire f b fun m hm => hother m (by rw [hm]; exact ho)) fun q => q.fire f hf

theorem shutter (h : Acts sc due a b) (m : MachineId) (f : ShutterRec → ShutterRec) (hm : screenOf m = sc)
    (hf : ¬ due m → ((f (b.fire.shutters.get m)).state = .opened ↔ (b.fire.shutters.get m).state = .opened)) :
    Acts sc due a (b.modShutter m f) :=
  h.next (h.plan.modFire _) id (fun _ _ ho => .ofShutter (by rw [hm]; exact ho) f b) fun q => q.shutter m f hf

theorem circuit (h : Acts sc due a b) (x : CircuitId) (f : Nat → Circuit → Circuit) : Acts sc due a (b.modCircuit sc x f) :=
  h.next (h.plan.congr (fun _ _ => rfl) (fun _ => rfl) (fun _ => rfl) (fun _ => id) fun _ => rfl) id
    (fun _ _ ho => .ofCircuit ho x f b) fun q => q.circuit sc x f

theorem decoder (h : Acts sc due a b) (m : MachineId) (f : DecoderRec → DecoderRec) (hm : screenOf m = sc) :
    Acts sc due a (b.modDecoder m f) :=
  h.next (h.plan.congr (fun _ _ => rfl) (fun _ => rfl) (fun _ => rfl) (fun _ => id) fun _ => rfl) id
    (fun _ _ ho => .ofDecoder (by rw [hm]; exact ho) f b) fun q => q.decoder m f

theorem mono (h : Acts sc due a b) (k : ∀ m, due m → due' m) : Acts sc due' a b :=
  { h with settled := fun q => (h.settled q).mono k }

/-- Nothing is due yet, and machine `m` is to be evaluated. -/
theorem expect (h : Acts sc (fun _ => False) a b) (m : MachineId) : Acts sc (· = m) a b := h.mono fun _ => False.elim

theorem evaluateLast {m : MachineId} (h : Acts sc (· = m) a b) (hm : screenOf m = sc) :
    Acts sc (fun _ => False) a (b.evaluate m) :=
  have r := (Runs.refl' sc false h.plan).evaluate m hm
  h.next r.planLaw r.paired r.other Settled.evaluateLast

theorem evaluateScreenLast (h : Acts sc (screenOf · = sc) a b) : Acts sc (fun _ => False) a (b.evaluateScreen sc) :=
  have r := ((Runs.refl' sc false h.plan).evaluate _ (screenOf_lowerOf sc)).evaluate _ (screenOf_upperOf sc)
  h.next r.planLaw r.paired r.other Settled.evaluateScreenLast

theorem ite {p : Prop} [Decidable p] {x y : State} (h : p → Acts sc due a x) (k : ¬p → Acts sc due a y) :
    Acts sc due a (if p then x else y) := by
  split
  next e => exact h e
  next e => exact k e

/-! ### The machine's events -/

theorem framePulse (m : MachineId) (foil : Bool) (h : PlanLaw a) : Acts (screenOf m) (fun _ => False) a (a.framePulse m foil) := by
  obtain ⟨-, -, -, hbound, hreel, hempty⟩ := MachineRec.pulse_kept (a.machine m)
  have hpulsed : Acts (screenOf m) (fun _ => False) a (a.modMachine m MachineRec.pulse) :=
    (refl h).machine m _ rfl (h.ofMachine m _ hbound hreel hempty) (MachineRec.pulse_still _)
  have hreported : Acts (screenOf m) (fun _ => False) a
      ((a.modMachine m MachineRec.pulse).speedReport m (a.machine m).speed) := by
    unfold State.speedReport
    split
    · exact hpulsed.report _
    · exact hpulsed.report _
    · exact hpulsed
  unfold State.framePulse
  dsimp only
  refine run (c := State.frameNotice m _) (b := State.decoderNotice m foil _) ?_ fun p => (Runs.refl' _ _ p).frameNotice m rfl
  have hended := ite (p := State.atReelEnd _ m = true)
    (fun e => hreported.run fun p => (Runs.refl' _ _ p).reelEnd m rfl (Bool.and_eq_true _ _ ▸ e).1) fun _ => hreported
  unfold State.decoderNotice
  refine ite (fun _ => ?_) fun _ => hended
  exact (hended.decoder m _ rfl).run fun p => (Runs.refl' _ _ p).groupNews m _ rfl

theorem loopSwitch (m : MachineId) (closed : Bool) (h : PlanLaw a) : Acts (screenOf m) (fun _ => False) a
    (if closed then a.modMachine m fun r => { r with loopSwitchClosed := closed }
      else (a.modMachine m fun r => { r with loopSwitchClosed := closed }).loopOpened m) := by
  have hread := (refl (sc := screenOf m) h).machine m (fun r => { r with loopSwitchClosed := closed }) rfl
    (h.ofMachine m _ rfl rfl id) fun _ => ⟨rfl, rfl, rfl, rfl, rfl⟩
  refine ite (fun _ => hread) fun _ => ?_
  unfold State.loopOpened
  refine ite (fun k => ite (fun _ => ?_) fun _ => ?_) fun _ => hread
  · exact hread.run fun p => (Runs.refl' _ _ p).reelEnd m rfl k
  · exact hread.run fun p => (Runs.refl' _ _ p).breakRun m _ rfl k

theorem contactorSense (m : MachineId) (closed : Bool) (h : PlanLaw a) :
    Acts (screenOf m) (fun _ => False) a (a.modMachine m (MachineRec.takeContactorSense closed)) :=
  (refl h).machine m _ rfl (h.ofMachine m _ rfl rfl id) fun _ => ⟨rfl, rfl, rfl, rfl, rfl⟩

theorem contactorFails (m : MachineId) (h : PlanLaw a) : Acts (screenOf m) (fun _ => False) a (a.contactorFails m) := by
  unfold State.contactorFails
  refine ite (fun _ => ite (fun k => ?_) fun _ => ite (fun k => ?_) fun _ => refl h) fun _ => refl h
  · exact (refl h).run fun p => (Runs.refl' _ _ p).breakRun m _ rfl k
  · have hstate := (a.machine m).motorOff_state
    refine ((refl h).machine m MachineRec.motorOff rfl (h.ofMachine m _ ?_ ?_ ?_) (.of_not_judged ?_)).report _
    · unfold MachineRec.motorOff; split <;> rfl
    · unfold MachineRec.motorOff; split <;> rfl
    · rw [hstate]; exact id
    · rw [hstate, k.1]; rfl

theorem stall (m : MachineId) (h : PlanLaw a) : Acts (screenOf m) (fun _ => False) a
    (if (a.machine m).state.running && (a.machine m).stallMeasured then a.breakRun m .stall else a) :=
  ite (fun k => (refl h).run fun p => (Runs.refl' _ _ p).breakRun m _ rfl (Bool.and_eq_true _ _ ▸ k).1) fun _ => refl h

theorem noPulse (m : MachineId) (h : PlanLaw a) : Acts (screenOf m) (fun _ => False) a
    (if (a.machine m).noPulseTimer.isSome then (a.modMachine m MachineRec.noPulse).machinePosted m else a) :=
  ite (fun _ => ((refl h).machine m _ rfl (h.ofMachine m _ rfl rfl id) fun _ => ⟨rfl, rfl, rfl, rfl, rfl⟩).run
    fun p => (Runs.refl' _ _ p).machinePosted m rfl) fun _ => refl h

/-! ### The lamp's events -/

/-- A lamp event settles as its machine is evaluated, last. -/
theorem lampSettled {m : MachineId} (h : Acts sc (· = m) a b) (hm : screenOf m = sc) (x : LampState) :
    Acts sc (fun _ => False) a (b.lampSettled m x) := by
  unfold State.lampSettled
  exact evaluateLast (ite (fun _ => h) fun _ => h.run fun p => (Runs.refl' _ _ p).lampPosted m hm) hm

theorem shortfallTest (h : Acts sc due a b) (m : MachineId) (hm : screenOf m = sc) : Acts sc due a (b.shortfallTest m) :=
  h.run fun p => (Runs.refl' _ _ p).shortfallTest m hm

theorem lampEvent (m : MachineId) (f : LampRec → LampRec × LampNews)
    (hlength : (f (a.lamp m)).1.boundLength = (a.lamp m).boundLength) (h : PlanLaw a) :
    Acts (screenOf m) (fun _ => False) a (a.lampEvent m f) := by
  have hchanged := ((refl h).expect m).lamp m (fun _ => (f (a.lamp m)).1) rfl hlength rfl
  unfold State.lampEvent
  refine lampSettled (b := State.lampNews m _ _) ?_ rfl _
  unfold State.lampNews
  split
  · exact hchanged
  · exact (hchanged.shortfallTest m rfl).report _
  · exact hchanged.report _

theorem encoderPulse (m : MachineId) (forward : Bool) (h : PlanLaw a) :
    Acts (screenOf m) (fun _ => False) a (a.encoderPulse m forward) := by
  have hcounted := ((refl h).expect m).lamp m (LampRec.encoderPulse forward) rfl rfl rfl
  unfold State.encoderPulse State.exhaustTest
  exact lampSettled (ite (fun _ => (hcounted.lamp m _ rfl rfl rfl).report _) fun _ => hcounted) rfl _

theorem bucketExpires (m : MachineId) (h : PlanLaw a) : Acts (screenOf m) (fun _ => False) a
    (if (a.lamp m).state = .burning ∧ (a.lamp m).bucketMeasure.isSome = true then
      ((a.modLamp m LampRec.bucketExpires).shortfallTest m).lampSettled m .burning else a) :=
  ite (fun _ => ((((refl h).expect m).lamp m _ rfl rfl rfl).shortfallTest m rfl).lampSettled rfl _) fun _ => refl h

/-! ### The fire unit's events -/

theorem switchChange (m : MachineId) (sw : ShutterSwitch) (made : Bool) (h : PlanLaw a) :
    Acts (screenOf m) (fun _ => False) a (a.switchChange m sw made) := by
  unfold State.switchChange
  dsimp only
  refine ite (fun _ => refl h) fun _ => ?_
  have hread : Acts (screenOf m) (fun _ => False) a (a.modShutter m (ShutterRec.readSwitch sw made)) :=
    (refl h).shutter m _ rfl fun _ => by cases sw <;> exact Iff.rfl
  have hstate : ((a.modShutter m (ShutterRec.readSwitch sw made)).fire.shutters.get m).state = (a.fire.shutters.get m).state := by
    change ((a.fire.shutters.set m _).get m).state = _
    rw [Quad.get_set, if_pos rfl]
    cases sw <;> rfl
  have hclosed : (a.fire.shutters.get m).state ≠ .opened → Acts (screenOf m) (fun _ => False) a
      ((a.modShutter m (ShutterRec.readSwitch sw made)).modShutter m (ShutterRec.settle .closed)) := fun k =>
    hread.shutter m _ rfl fun _ => by rw [hstate]; exact ⟨nofun, fun e => absurd e k⟩
  split
  · exact hread
  · exact evaluateLast ((hread.expect m).shutter m _ rfl fun k => absurd rfl k) rfl
  · exact evaluateLast (((hread.expect m).shutter m _ rfl fun k => absurd rfl k).report _) rfl
  next e =>
    refine (hclosed fun k => ?_).fire _ (fun _ _ => ⟨rfl, rfl, rfl⟩) fun _ _ => Iff.rfl
    rw [k] at e
    generalize (a.fire.shutters.get m).magnet = x at e
    revert e
    cases x <;> cases sw <;> cases made <;> decide
  next e =>
    refine hclosed fun k => ?_
    rw [k] at e
    generalize (a.fire.shutters.get m).magnet = x at e
    revert e
    cases x <;> cases sw <;> cases made <;> decide

theorem confirmExpires (m : MachineId) (h : PlanLaw a) : Acts (screenOf m) (fun _ => False) a (a.confirmExpires m) := by
  unfold State.confirmExpires
  dsimp only
  split
  next hstate _ _ =>
    have hstuck : Acts (screenOf m) (fun _ => False) a
        (a.modShutter m fun y => { y with state := .stuck, confirm := none }) :=
      (refl h).shutter m _ rfl fun _ => by rw [hstate]; exact ⟨nofun, nofun⟩
    exact ((hstuck.fire _ (fun _ _ => ⟨rfl, rfl, rfl⟩) fun _ _ => Iff.rfl).fire _ (fun _ _ => ⟨rfl, rfl, rfl⟩)
      fun _ _ => Iff.rfl).report _
  · exact refl h

/-- The trip of one machine (R154): its screen is evaluated last. -/
theorem machineTrip (m : MachineId) (h : PlanLaw a) : Acts (screenOf m) (fun _ => False) a (a.machineTrip m) := by
  have hlatched : Acts (screenOf m) (screenOf · = screenOf m) a (a.machineLatches m a.fire.nextSequence) :=
    ((((refl h).mono fun _ => False.elim).fire (FireUnit.putLatch m (some .gateHeat))
      (fun k hk => ⟨Quad.get_set_ne _ _ fun e => hk (by rw [e]), rfl, rfl⟩) fun _ _ => Iff.rfl).shutter m _ rfl
        fun k => absurd rfl k)
  have htripped : Acts (screenOf m) (screenOf · = screenOf m) a (a.machineTripOrders m a.fire.nextSequence) := by
    rw [State.machineTripOrders_eq]
    refine hlatched.next (h.machineTripOrders m _) (fun p => ?_) (fun _ o ho => ?_) fun q => ?_
    · exact Paired.ofLamp (s := (a.machineLatches m a.fire.nextSequence).modMachine m MachineRec.trip) p m LampRec.putOut
    · exact ((ScreenKept.ofMachine ho _ _).trans (.ofLamp ho _ _)).trans (.placeSafety ho _)
    · exact q.kept (sc := screenOf m) (h.machineTripOrders m _)
        (fun o ho => ((ScreenKept.ofMachine ho _ _).trans (.ofLamp ho _ _)).trans (.placeSafety ho _))
        (fun k p => ((p.ofMachine m MachineRec.trip fun hj => by rw [MachineRec.trip_state] at hj; cases hj).ofLamp m LampRec.putOut).congr
          rfl ⟨rfl, rfl⟩)
        (fun _ => id) fun _ => id
  unfold State.machineTrip
  dsimp only
  refine evaluateScreenLast (report (fire (next (b := a.machineTripOrders m a.fire.nextSequence) htripped ?_ ?_ ?_ ?_) _
    (fun _ _ => ⟨rfl, rfl, rfl⟩) fun _ _ => Iff.rfl) _)
  all_goals have r := (Runs.refl' (screenOf m) true htripped.plan).machineHalt m (a.machine m).state rfl
  · exact r.planLaw
  · exact r.paired
  · exact r.other
  · exact fun q => q.runs r fun _ _ => id

end Acts

end Sys2Proof.Machine

namespace Sys2Proof.Machine

open Sys2Proof Host

/-- The state a field event acts on: time passes first at a frame pulse. -/
def eventBase (c : Instr) (s : State) : State :=
  match c with
  | .framePulse _ dt _ => s.elapse dt
  | _ => s

theorem LampRec.measures_boundLength (l : LampRec) : l.retractExpires.boundLength = l.boundLength
    ∧ l.pauseExpires.boundLength = l.boundLength ∧ l.shortGapExpires.boundLength = l.boundLength := by
  refine ⟨?_, ?_, ?_⟩
  · unfold LampRec.retractExpires; split <;> rfl
  · unfold LampRec.pauseExpires; split <;> rfl
  · unfold LampRec.shortGapExpires; split <;> rfl

theorem Acts.takeGateCount (m : MachineId) (count : Nat) {a : State} (h : PlanLaw a) :
    Acts (screenOf m) (fun _ => False) a (a.takeGateCount m count) := by
  have hcounted : Acts (screenOf m) (fun _ => False) a
      (a.modFire fun u => { u with gates := u.gates.set m ((u.gates.get m).take count) }) :=
    (Acts.refl h).fire _ (fun k hk => ⟨rfl, rfl, Quad.get_set_ne _ _ fun e => hk (by rw [e])⟩) fun _ _ => Iff.rfl
  unfold State.takeGateCount
  refine Acts.ite (fun _ => ?_) fun _ => hcounted
  have htripped := Acts.machineTrip m hcounted.plan
  exact hcounted.next htripped.plan htripped.paired htripped.other htripped.settled

theorem Acts.intervalEnds (sc : ScreenId) {a : State} (h : PlanLaw a) : Acts sc (fun _ => False) a (a.intervalEnds sc) := by
  refine (Acts.refl h).run fun p => ?_
  have r := Runs.refl' sc false p
  unfold State.intervalEnds State.openOnDeck
  split
  · split
    · exact (r.openSlot _).reportIf _ _
    · exact r.loosen.endProgramme
  · exact r

theorem Acts.darkHoldEnds (sc : ScreenId) {a : State} (h : PlanLaw a) : Acts sc (fun _ => False) a (a.darkHoldEnds sc) := by
  refine (Acts.refl h).run fun p => ?_
  have r := Runs.refl' sc false p
  unfold State.darkHoldEnds
  split
  · exact ((r.placeScene .fault 4 _ trivial).flags
      (fun x => { x with faultClaim := .picture, darkHold := .ranOut }) (fun _ => ⟨rfl, rfl, rfl⟩) fun _ => ⟨rfl, rfl, rfl⟩).report _
  · exact r

theorem State.whenPowered_next {f : State → State} {s t : State} (hp : s.powered = true)
    (e : (.next (s.whenPowered f) : Outcome State Fault Refusal) = .next t) : t = f s :=
  (Outcome.next.inj e).symm.trans (if_pos hp)

/-- Every field event of a screen acts on that screen. -/
theorem exec_acts {c : Instr} {sc : ScreenId} {s t : State} (hc : c.fieldScreen? = some sc) (hp : s.powered = true)
    (h : PlanLaw s) (e : exec c s = .next t) : Acts sc (fun _ => False) (eventBase c s) t := by
  cases c with
  | framePulse m dt foil =>
    cases hc
    rw [State.whenPowered_next hp e]
    exact Acts.ite (fun _ => Acts.framePulse m _ (h.elapse dt)) fun _ => Acts.refl (h.elapse dt)
  | loopSwitchOpen m flowing =>
    cases hc
    rw [State.whenPowered_next hp e]
    exact Acts.loopSwitch m _ h
  | contactorSenseChange m flowing =>
    cases hc
    rw [State.whenPowered_next hp e]
    exact Acts.contactorSense m _ h
  | contactorFailure m =>
    cases hc
    rw [State.whenPowered_next hp e]
    exact Acts.contactorFails m h
  | stall m =>
    cases hc
    rw [State.whenPowered_next hp e]
    exact Acts.stall m h
  | noPulseTimerExpiry m =>
    cases hc
    rw [State.whenPowered_next hp e]
    exact Acts.noPulse m h
  | arcGate m count =>
    cases hc
    rw [State.whenPowered_next hp e]
    exact Acts.lampEvent m _ (LampRec.takeGate_shape _ _).1 h
  | touchMeasureExpiry m =>
    cases hc
    rw [State.whenPowered_next hp e]
    exact Acts.lampEvent m _ (LampRec.touchExpires_shape _).1 h
  | retractMeasureExpiry m =>
    cases hc
    rw [State.whenPowered_next hp e]
    exact Acts.lampEvent m _ (LampRec.measures_boundLength _).1 h
  | pauseMeasureExpiry m =>
    cases hc
    rw [State.whenPowered_next hp e]
    exact Acts.lampEvent m _ (LampRec.measures_boundLength _).2.1 h
  | shortGapRetractExpiry m =>
    cases hc
    rw [State.whenPowered_next hp e]
    exact Acts.lampEvent m _ (LampRec.measures_boundLength _).2.2 h
  | feedEncoderPulse m flowing =>
    cases hc
    rw [State.whenPowered_next hp e]
    exact Acts.ite (fun _ => Acts.encoderPulse m _ h) fun _ => Acts.refl h
  | bucketMeasureExpiry m =>
    cases hc
    rw [State.whenPowered_next hp e]
    exact Acts.bucketExpires m h
  | intervalExpiry sc =>
    cases hc
    rw [State.whenPowered_next hp e]
    exact Acts.intervalEnds sc h
  | darkHoldExpiry sc =>
    cases hc
    rw [State.whenPowered_next hp e]
    exact Acts.darkHoldEnds sc h
  | fadeStep sc x =>
    cases hc
    rw [State.whenPowered_next hp e]
    exact (Acts.refl h).circuit x _
  | firingDelayExpiry sc x =>
    cases hc
    rw [State.whenPowered_next hp e]
    exact (Acts.refl h).circuit x _
  | gateCount m count =>
    cases hc
    rw [State.whenPowered_next hp e]
    exact Acts.takeGateCount m _ h
  | shutterSwitchChange m sw flowing =>
    cases hc
    rw [State.whenPowered_next hp e]
    exact Acts.switchChange m sw _ h
  | confirmMeasureExpiry m =>
    cases hc
    rw [State.whenPowered_next hp e]
    exact Acts.confirmExpires m h
  | _ => cases hc

end Sys2Proof.Machine

/-! ### What an accepted command satisfied -/

namespace Sys2Proof.Machine

open Sys2Proof Host

theorem motorTest_ok {r : MachineState} {u : Unit} (h : motorTest r = .ok u) : r = .empty := by
  unfold motorTest at h
  split at h
  · rfl
  all_goals cases h

theorem parseMotor_ok {s : State} {ops : List Text} {m : MachineId} {on : Bool} (h : parseMotor s ops = .ok (m, on)) :
    (s.machine m).state = .empty := by
  obtain ⟨⟨m', on'⟩, -, h⟩ := Except.bind_ok h
  obtain ⟨u, htest, h⟩ := Except.bind_ok h
  cases h
  exact motorTest_ok htest

/-- R23: MOTOR m ON leaves the state of the machine. -/
@[simp] theorem MachineRec.laceUpOn_state (t : Nat) (r : MachineRec) : (r.laceUpOn t).state = r.state := by
  unfold MachineRec.laceUpOn
  split
  · rfl
  · exact MachineRec.motorOn_state t r

theorem writableRange_ok {s : State} {sc : ScreenId} {f count : Nat} {u : Unit} (h : writableRange s sc f count = .ok u) :
    anyInRange f count (s.frozen sc) = false ∧ (anyInRange f count fun n => (s.slot sc n).status == .bound) = false := by
  obtain ⟨_, hfrozen, h⟩ := Except.bind_ok h
  exact ⟨by simpa using need_ok hfrozen, by simpa using need_ok h⟩

theorem parsePlancopy_ok {s : State} {ops : List Text} {o : CopyOrder} (h : parsePlancopy s ops = .ok o)
    (hcount : o.count ≠ 0) : (anyInRange o.to_ o.count fun n => (s.slot o.target n).status == .bound) = false := by
  unfold parsePlancopy at h
  split at h
  · obtain ⟨_, -, h⟩ := Except.bind_ok h
    obtain ⟨_, -, h⟩ := Except.bind_ok h
    obtain ⟨_, -, h⟩ := Except.bind_ok h
    obtain ⟨_, -, h⟩ := Except.bind_ok h
    obtain ⟨_, -, h⟩ := Except.bind_ok h
    obtain ⟨_, -, h⟩ := Except.bind_ok h
    obtain ⟨_, -, h⟩ := Except.bind_ok h
    obtain ⟨_, -, h⟩ := Except.bind_ok h
    split at h
    · cases h
      exact absurd rfl hcount
    · obtain ⟨_, hwritable, h⟩ := Except.bind_ok h
      cases h
      exact (writableRange_ok hwritable).2
  · cases h

theorem parsePlanclr_ok {s : State} {ops : List Text} {sc : ScreenId} {f count : Nat}
    (h : parsePlanclr s ops = .ok (sc, f, count)) (hcount : count ≠ 0) :
    (anyInRange f count fun n => (s.slot sc n).status == .bound) = false := by
  unfold parsePlanclr at h
  split at h
  · obtain ⟨_, -, h⟩ := Except.bind_ok h
    obtain ⟨_, -, h⟩ := Except.bind_ok h
    obtain ⟨_, -, h⟩ := Except.bind_ok h
    obtain ⟨_, -, h⟩ := Except.bind_ok h
    obtain ⟨_, -, h⟩ := Except.bind_ok h
    split at h
    · cases h
      exact absurd rfl hcount
    · obtain ⟨_, hwritable, h⟩ := Except.bind_ok h
      cases h
      exact (writableRange_ok hwritable).2
  · cases h

theorem State.slotNamed_some {s : State} {sc : ScreenId} {id : Text} {n : SlotIx} {e : SlotEntry}
    (h : s.slotNamed sc id = some (n, e)) : (s.slot sc n).status = .loaded ∧ (s.slot sc n).entry = some e := by
  unfold State.slotNamed at h
  obtain ⟨k, -, h⟩ := List.exists_of_findSome?_eq_some h
  split at h
  next hloaded hentry =>
    split at h
    · cases h
      exact ⟨hloaded, hentry⟩
    · cases h
  · cases h

theorem threadTest_ok {r : MachineState} {u : Unit} (h : threadTest r = .ok u) : r = .empty := by
  unfold threadTest at h
  split at h
  · rfl
  all_goals cases h

theorem parseThread_ok {s : State} {ops : List Text} {m : MachineId} {id : Text} {n : SlotIx} {e : SlotEntry}
    (h : parseThread s ops = .ok (m, id, n, e)) : (s.slot (screenOf m) n).status = .loaded
      ∧ (s.slot (screenOf m) n).entry = some e ∧ (s.machine m).state = .empty ∧ (s.machine m).motor = false := by
  unfold parseThread at h
  split at h
  · obtain ⟨_, -, h⟩ := Except.bind_ok h
    obtain ⟨_, -, h⟩ := Except.bind_ok h
    obtain ⟨_, -, h⟩ := Except.bind_ok h
    obtain ⟨_, htest, h⟩ := Except.bind_ok h
    split at h
    · cases h
    next hnamed =>
      obtain ⟨_, hmotor, h⟩ := Except.bind_ok h
      cases h
      obtain ⟨hloaded, hentry⟩ := State.slotNamed_some hnamed
      exact ⟨hloaded, hentry, threadTest_ok htest, by simpa using need_ok hmotor⟩
  · cases h

theorem parseReset_ok {s : State} {ops : List Text} {m : MachineId} (h : parseReset s ops = .ok m) :
    onlyMachine s ops = .ok m ∧ s.resetTests m = .ok () := by
  obtain ⟨k, hk, h⟩ := Except.bind_ok h
  obtain ⟨_, htest, h⟩ := Except.bind_ok h
  cases h
  exact ⟨hk, htest⟩

end Sys2Proof.Machine

/-! ### Every command keeps ARMED in step with its condition -/

namespace Sys2Proof.Machine

open Sys2Proof Host

/-- A machine that becomes THREADED with no ARMED posting from a state that is not ARMED, or is not judged afterwards. -/
theorem PostedAt.ofFresh {s : State} {k : MachineId} (h : PostedAt s k) (m : MachineId) (f : MachineRec → MachineRec)
    (hrec : (f (s.machine m)).state.judged = true → (f (s.machine m)).state = .threaded
      ∧ (f (s.machine m)).armedPosting = false ∧ (s.machine m).state ≠ .armed) : PostedAt (s.modMachine m f) k := by
  by_cases hk : k = m
  · subst hk
    cases hj : (f (s.machine k)).state.judged with
    | true =>
      obtain ⟨hstate, hcopy, hbefore⟩ := hrec hj
      have hposting : s.plan.lastPosting.get k = false := by rw [h.posting]; simpa using hbefore
      exact ⟨by simp [hstate, hposting, MachineState.judged], fun _ => by simp [hstate, hcopy]⟩
    | false =>
      refine ⟨?_, fun e => ?_⟩
      · simp [hj, MachineState.ne_armed_of_not_judged hj]
      · simp [hj] at e
  · exact h.congr (by simp [hk]) (by simp [hk])

theorem ScreenKept.ofPlan {o : ScreenId} (f : PlanStore → PlanStore) (s : State)
    (h : (f s.plan).tables.get o = s.plan.tables.get o ∧ (f s.plan).lastPosting = s.plan.lastPosting
      ∧ (f s.plan).showAt.get o = s.plan.showAt.get o) : ScreenKept o s (s.modPlan f) :=
  ⟨fun _ _ => ⟨rfl, rfl, rfl, congrArg (fun q => Quad.get q _) h.2.1⟩, fun _ _ => ⟨rfl, rfl, rfl⟩, fun n => congrArg (·[n]) h.1, h.2.2, rfl,
    fun _ => rfl, rfl⟩

theorem ScreenKept.putTable {o sc : ScreenId} (h : o ≠ sc) (x : PlanTable) (s : State) :
    ScreenKept o s (s.putTable sc x) := .ofPlan _ s ⟨Pair.get_set_ne _ _ h, rfl, rfl⟩

theorem ScreenKept.endBinding {o : ScreenId} {m : MachineId} (h : o ≠ screenOf m) (st : SlotStatus) (s : State) :
    ScreenKept o s (s.endBinding m st) := by
  unfold State.endBinding
  split
  · exact .refl o s
  · exact ((ScreenKept.ofSlot h _ _ s).trans (.ofMachine h _ _)).trans (.ofLamp h _ _)

theorem PostedAt.endBinding {s : State} {k : MachineId} (h : PostedAt s k) (m : MachineId) (st : SlotStatus) :
    PostedAt (s.endBinding m st) k := by
  unfold State.endBinding
  split
  · exact h
  next n _ =>
    have hslot : PostedAt (s.modSlot (screenOf m) n fun x => { x with status := st, bound := none }) k := h.congr rfl ⟨rfl, rfl⟩
    exact (hslot.ofMachine m _ fun _ => ⟨rfl, rfl⟩).ofLamp m _

theorem ScreenKept.releaseSafety {o sc : ScreenId} (h : o ≠ sc) (s : State) : ScreenKept o s (s.releaseSafety sc) := by
  unfold State.releaseSafety State.releaseThree
  split
  · exact ((ScreenKept.ofCircuit h .house _ s).trans (.ofCircuit h .aisle _ _)).trans (.ofCircuit h .stage _ _)
  · exact .refl o s

theorem PostedAt.releaseSafety {s : State} {k : MachineId} (h : PostedAt s k) (sc : ScreenId) :
    PostedAt (s.releaseSafety sc) k := by
  unfold State.releaseSafety
  split
  · exact h.congr rfl ⟨rfl, rfl⟩
  · exact h

theorem PostedAt.tripOrder {s : State} {k : MachineId} (h : PostedAt s k) (m : MachineId) : PostedAt (s.tripOrder m) k :=
  (h.ofMachine m MachineRec.trip fun hj => by rw [MachineRec.trip_state] at hj; cases hj).ofLamp m _

theorem PostedAt.placeSafety {s : State} {k : MachineId} (h : PostedAt s k) (sc : ScreenId) :
    PostedAt (s.placeSafety sc) k :=
  h.congr rfl (by rw [State.placeSafety_machine]; exact ⟨rfl, rfl⟩)

theorem MachineRec.unthread_unjudged (r : MachineRec) : r.unthread.state.judged = false := by
  unfold MachineRec.unthread
  split
  next h => rw [h]; rfl
  next => rw [MachineRec.motorOff_state]; rfl

namespace Settled

variable {due : MachineId → Prop} {s t : State}

theorem ite {p : Prop} [Decidable p] {x y : State} (h : p → Settled due x) (k : ¬p → Settled due y) :
    Settled due (if p then x else y) := by
  split
  next e => exact h e
  next e => exact k e

theorem answer (h : Settled due s) (r : Reply) : Settled due (s.answer r) := h.line _

theorem report (h : Settled due s) (r : Report) : Settled due (s.report r) := h.line _

theorem placeThree (h : Settled due s) (sc : ScreenId) (r : Rank) (x : SceneLevels) (f : Nat) :
    Settled due (s.placeThree sc r x f) := ((h.circuit sc .house _).circuit sc .aisle _).circuit sc .stage _

theorem releaseThree (h : Settled due s) (sc : ScreenId) (r : Rank) : Settled due (s.releaseThree sc r) :=
  ((h.circuit sc .house _).circuit sc .aisle _).circuit sc .stage _

/-- No machine is judged: the condition is met by none (R98). -/
theorem ofUnjudged (hplan : PlanLaw t) (hposted : ∀ k, PostedAt t k) (h : ∀ k, (t.machine k).state.judged = false) :
    Settled (fun _ => False) t := ⟨hplan, hposted, fun k _ => .of_not_judged (hposted k) (h k)⟩

theorem expect (h : Settled (fun _ => False) s) (m : MachineId) : Settled (· = m) s := h.mono fun _ => False.elim

theorem lampSettled {m : MachineId} (h : Settled (· = m) s) (x : LampState) :
    Settled (fun _ => False) (s.lampSettled m x) := by
  unfold State.lampSettled
  exact evaluateLast (ite (fun _ => h) fun _ => h.run fun p => (Runs.refl' _ _ p).lampPosted m rfl)

theorem shortfallTest (h : Settled due s) (m : MachineId) : Settled due (s.shortfallTest m) :=
  h.run fun p => (Runs.refl' _ _ p).shortfallTest m rfl

/-- A change of the lamp of the machine that is to be evaluated. -/
theorem lampDue {m : MachineId} (h : Settled (· = m) s) (f : LampRec → LampRec)
    (hlength : (f (s.lamp m)).boundLength = (s.lamp m).boundLength) : Settled (· = m) (s.modLamp m f) :=
  h.lamp m f (h.plan.ofLamp m f hlength) fun k => absurd rfl k

theorem exhaustTest {m : MachineId} (h : Settled (· = m) s) : Settled (· = m) (s.exhaustTest m) :=
  ite (fun _ => (h.lampDue _ rfl).report _) fun _ => h

theorem openSlot (h : Settled due s) (sc : ScreenId) (n : SlotIx) : Settled due (s.openSlot sc n).1 :=
  h.run fun p => (Runs.refl' sc _ p).openSlot n

theorem openOnDeck (h : Settled due s) (sc : ScreenId) (n : SlotIx) : Settled due (s.openOnDeck sc n) :=
  h.run fun p => ((Runs.refl' sc _ p).openSlot n).reportIf _ _

theorem showAtDue (h : Settled due s) (sc : ScreenId) (u : Nat) : Settled due (s.showAtDue sc u) := by
  unfold State.showAtDue
  refine ite (fun _ => ?_) fun _ => h
  have hcleared : Settled due (s.putShowAt sc none) := h.planStore _ rfl rfl
  unfold State.fireShowAt
  refine ite (fun _ => hcleared.report _) fun _ => ?_
  split
  · exact hcleared.report _
  · exact ite (fun _ => hcleared.report _) fun _ => hcleared.run fun p => ((Runs.refl' sc _ p).openSlot _).reportIf _ _

theorem clockTick (h : Settled due s) : Settled due s.clockTick := by
  unfold State.clockTick
  split
  · exact h
  · exact ((h.planStore _ rfl rfl).showAtDue .s1 _).showAtDue .s2 _

/-- R152: after a booth trip no machine is judged. -/
theorem boothTrip (h : Settled (fun _ => False) s) (hbooth : BoothLaw s) : Settled (fun _ => False) s.boothTrip := by
  have hplan := h.plan.boothTripOrders s.fire.nextSequence
  have htripped : ∀ k, ((s.boothTripOrders s.fire.nextSequence).machine k).state = .tripped := fun k => by
    refine ((hbooth.boothTripOrders s.fire.nextSequence).latched k ?_).tripped
    rw [State.boothTripOrders_fire_eq]
    exact (s.boothLatches_latched _ k).1
  have hposted : ∀ k, PostedAt (s.boothTripOrders s.fire.nextSequence) k := fun k => by
    have hlatched : PostedAt (s.boothLatches s.fire.nextSequence) k := (h.posted k).congr rfl ⟨rfl, rfl⟩
    have hall : PostedAt (s.boothLatches s.fire.nextSequence).tripAll k :=
      (((hlatched.tripOrder .m1).tripOrder .m2).tripOrder .m3).tripOrder .m4
    rw [State.boothTripOrders_eq]
    exact (hall.placeSafety .s1).placeSafety .s2
  have r := (Runs.refl' .s1 true hplan).boothHalt (s.machine .m1).state (s.machine .m2).state
  have q := (Runs.refl' .s2 true r.planLaw).boothHalt (s.machine .m3).state (s.machine .m4).state
  have hhalted := ofUnjudged q.planLaw (fun k => q.posted k (r.posted k (hposted k))) fun k => by
    have hfirst := (r.resting (m := k) (by rw [htripped]; rfl)).trans (htripped k)
    rw [q.resting (by rw [hfirst]; rfl), hfirst]
    rfl
  unfold State.boothTrip
  exact (hhalted.fire (FireUnit.record _) fun _ _ => Iff.rfl).report _

theorem loopOpenExpires (h : Settled (fun _ => False) s) (hbooth : BoothLaw s) : Settled (fun _ => False) s.loopOpenExpires := by
  unfold State.loopOpenExpires
  split
  · exact h
  · exact (h.fire _ fun _ _ => Iff.rfl).boothTrip (hbooth.congr rfl rfl rfl rfl fun _ => rfl)

/-- R95: the bound machine is evaluated; which slot is next does not change as a LOADED slot becomes BOUND. -/
theorem threadReel (h : Settled (fun _ => False) s) {m : MachineId} {id : Text} {n : SlotIx} {e : SlotEntry}
    (hloaded : (s.slot (screenOf m) n).status = .loaded) (hentry : (s.slot (screenOf m) n).entry = some e)
    (hempty : (s.machine m).state = .empty) : Settled (fun _ => False) (s.threadReel m id n e) := by
  have hnext : ∀ sc, (s.modSlot (screenOf m) n fun x => { x with status := .bound, bound := some m }).nextSlot sc = s.nextSlot sc :=
    fun sc => (State.nextSlot_congr (s := s)
      (t := s.modSlot (screenOf m) n fun x => { x with status := .bound, bound := some m }) ⟨rfl, .inl rfl⟩ fun k => by
        rw [State.modSlot_slot]
        split
        next q => obtain ⟨rfl, rfl⟩ := q; rw [hloaded]; rfl
        next => rfl).1
  have hposted : ∀ k, PostedAt (s.modSlot (screenOf m) n fun x => { x with status := .bound, bound := some m }) k :=
    fun k => (h.posted k).congr rfl ⟨rfl, rfl⟩
  refine evaluateLast ⟨h.plan.bind m id n e hloaded hentry hempty, fun k => ?_, fun k hk => ?_⟩
  · refine ((hposted k).ofFresh m (MachineRec.acceptReel id n) fun _ => ⟨rfl, rfl, ?_⟩).ofLamp m _
    exact fun q => by cases hempty.symm.trans q
  · have hslot : ArmedAt (s.modSlot (screenOf m) n fun x => { x with status := .bound, bound := some m }) k :=
      (h.armed k not_false).keep (hposted k) (.refl _) rfl ⟨Iff.rfl, Iff.rfl⟩ Iff.rfl (hnext _)
    refine ArmedAt.ofLamp ?_ m _ fun q => absurd q hk
    refine hslot.keep ((hposted k).ofFresh m (MachineRec.acceptReel id n) fun _ => ⟨rfl, rfl, ?_⟩) ?_ rfl
      ⟨Iff.rfl, Iff.rfl⟩ Iff.rfl (State.modMachine_nextSlot _ _ _ _)
    · exact fun q => by cases hempty.symm.trans q
    · rw [State.modMachine_machine, if_neg hk]
      exact .refl _

/-- R96, R18: the machine is unbound and emptied, and its screen evaluated. -/
theorem unthread (h : Settled (fun _ => False) s) (m : MachineId) :
    Settled (fun _ => False) (((s.endBinding m .loaded).modMachine m MachineRec.unthread).evaluateScreen (screenOf m)) := by
  refine evaluateScreenLast (h.kept (h.plan.unthread m)
    (fun o ho => (ScreenKept.endBinding ho _ s).trans (.ofMachine ho _ _)) (fun k q => ?_) (fun _ => False.elim) fun _ => id)
  refine (q.endBinding m .loaded).ofMachine m _ fun hj => ?_
  rw [(MachineRec.unthread_unjudged _)] at hj
  cases hj

/-- R160, R21: the machine is emptied, and its screen evaluated. -/
theorem resetMachine (h : Settled (fun _ => False) s) (m : MachineId) : Settled (fun _ => False) (s.resetMachine m) := by
  refine evaluateScreenLast (h.kept (h.plan.resetMachineOrders m) (fun o ho => ?_) (fun k q => ?_) (fun _ => False.elim)
    fun _ => id)
  · have hlatch : ScreenKept o s (s.modFire (FireUnit.putLatch m none)) :=
      .ofFire _ s fun k hk => ⟨Quad.get_set_ne _ _ fun e => ho (by rw [← hk, e]), rfl, rfl⟩
    exact (((hlatch.trans (.ofShutter ho _ _)).trans (.endBinding ho _ _)).trans (.ofMachine ho _ _)).trans (.releaseSafety ho _)
  · have hlatch : PostedAt ((s.modFire (FireUnit.putLatch m none)).modShutter m ShutterRec.energize) k := q.congr rfl ⟨rfl, rfl⟩
    exact (((hlatch.endBinding m _).ofMachine m MachineRec.releaseLost fun hj => by cases hj)).releaseSafety _

end Settled

/-! ### RESET BOOTH -/

theorem MachineRec.releaseKept_unarmed (r : MachineRec) : r.releaseKept.state ≠ .armed
    ∧ (r.releaseKept.state.judged = true → r.releaseKept.state = .threaded ∧ r.releaseKept.armedPosting = false) := by
  unfold MachineRec.releaseKept
  dsimp only
  split
  · exact ⟨nofun, nofun⟩
  · split
    · exact ⟨nofun, nofun⟩
    · split
      · exact ⟨nofun, fun _ => ⟨rfl, rfl⟩⟩
      · exact ⟨nofun, nofun⟩

/-- The postings are in step, and no machine whose latch stood BOOTH is ARMED. -/
structure ReleaseReady (latch : Quad (Option LatchCause)) (s : State) : Prop where
  posted : ∀ k, PostedAt s k
  unarmed : ∀ k, latch.get k = some .booth → (s.machine k).state ≠ .armed

theorem ReleaseReady.releaseKept {latch : Quad (Option LatchCause)} {s : State} (h : ReleaseReady latch s) (m : MachineId) :
    ReleaseReady latch (s.releaseKept m (latch.get m)) := by
  unfold State.releaseKept
  split
  next hlatch =>
    have hkept := (s.machine m).releaseKept_unarmed
    refine ⟨fun k => (h.posted k).ofFresh m _ fun hj => ?_, fun k hk => ?_⟩
    · obtain ⟨hstate, hcopy⟩ := hkept.2 hj
      exact ⟨hstate, hcopy, h.unarmed m hlatch⟩
    · rw [State.modMachine_machine]
      split
      · exact hkept.1
      · exact h.unarmed k hk
  · exact h

theorem ReleaseReady.energizeClear {latch : Quad (Option LatchCause)} {s : State} (h : ReleaseReady latch s) (m : MachineId) :
    ReleaseReady latch (s.energizeClear m) := by
  unfold State.energizeClear
  split
  · exact ⟨fun k => (h.posted k).congr rfl ⟨rfl, rfl⟩, h.unarmed⟩
  · exact h

theorem Settled.resetBooth {s : State} (h : Settled (fun _ => False) s) (hbooth : BoothLaw s) :
    Settled (fun _ => False) s.resetBooth := by
  have hready : ReleaseReady s.fire.machineLatch
      (s.modFire fun u => { u with boothLatch := none, machineLatch := u.machineLatch.map boothReleased }) :=
    ⟨fun k => (h.posted k).congr rfl ⟨rfl, rfl⟩, fun k hk e => by
      have htripped := (hbooth.latched k (by rw [hk]; rfl)).tripped
      cases htripped.symm.trans e⟩
  have hkept := (((hready.releaseKept .m1).releaseKept .m2).releaseKept .m3).releaseKept .m4
  have hclear := (((hkept.energizeClear .m1).energizeClear .m2).energizeClear .m3).energizeClear .m4
  have hdue : Settled (fun _ => True) s.resetBoothOrders :=
    ⟨h.plan.resetBoothOrders, fun k => ((hclear.posted k).releaseSafety .s1).releaseSafety .s2, fun _ hk => absurd trivial hk⟩
  unfold State.resetBooth
  refine ((hdue.evaluateScreen .s1).evaluateScreen .s2).mono fun k ⟨⟨_, h1⟩, h2⟩ => ?_
  cases k <;> first | exact h1 rfl | exact h2 rfl

/-! ### RESTART -/

theorem State.restartMachine_cleared {m k : MachineId} {s : State}
    (h : k = m ∨ (s.machine k).state = .tripped ∨ (s.machine k).state = .empty) :
    ((s.restartMachine m).machine k).state = .tripped ∨ ((s.restartMachine m).machine k).state = .empty := by
  have hstate : ((s.restartMachine m).machine k).state
      = if k = m then ((s.machine m).restart (s.fire.machineLatch.get m).isSome).state else (s.machine k).state := by
    unfold State.restartMachine
    rw [(State.modLamp_boundSlot m k _ _).2.1]
    by_cases e : k = m
    · subst e; simp
    · simp [e]
  rw [hstate]
  split
  · rw [(MachineRec.restart_fields _ _).1]
    split
    · exact .inl rfl
    · exact .inr rfl
  next e => exact h.resolve_left e

/-- R27: RESTART leaves every machine TRIPPED or EMPTY. -/
theorem State.restartBlocks_cleared (s : State) (k : MachineId) :
    (s.restartBlocks.machine k).state = .tripped ∨ (s.restartBlocks.machine k).state = .empty := by
  have hunits : s.restartBlocks.machine k = s.restartUnits.machine k := by
    unfold State.machine; rw [s.restartBlocks_units.1]
  rw [hunits]
  unfold State.restartUnits
  cases k with
  | m1 =>
    exact restartMachine_cleared (.inr (restartMachine_cleared (.inr (restartMachine_cleared (.inr
      (restartMachine_cleared (.inl rfl)))))))
  | m2 => exact restartMachine_cleared (.inr (restartMachine_cleared (.inr (restartMachine_cleared (.inl rfl)))))
  | m3 => exact restartMachine_cleared (.inr (restartMachine_cleared (.inl rfl)))
  | m4 => exact restartMachine_cleared (.inl rfl)

theorem State.restartBlocks_unjudged (s : State) (k : MachineId) : (s.restartBlocks.machine k).state.judged = false := by
  obtain e | e := s.restartBlocks_cleared k <;> rw [e] <;> rfl

theorem Settled.restartBlocks (s : State) : Settled (fun _ => False) s.restartBlocks :=
  ofUnjudged (PlanLaw.restartBlocks s) (fun k => ⟨by
    rw [MachineState.ne_armed_of_not_judged (s.restartBlocks_unjudged k)]
    exact Quad.get_same false k, fun hj => by rw [s.restartBlocks_unjudged k] at hj; cases hj⟩) s.restartBlocks_unjudged

end Sys2Proof.Machine

/-! ### The independence of the screens, and the ARMED condition over every step -/

namespace Sys2Proof.Machine

open Sys2Proof Host

/-- Without power every command but the two of power itself leaves the state (log entry 6): each acts through
`State.whenPowered`. -/
theorem exec_unpowered {c : Instr} {s : State} (hp : s.powered = false) (hon : ∀ p l, c ≠ .powerOn p l)
    (hoff : c ≠ .powerRemoved) : exec c s = .next s := by
  have hout : ∀ f : State → State, s.whenPowered f = s := fun f => if_neg (by rw [hp]; decide)
  cases c with
  | powerOn p l => exact absurd rfl (hon p l)
  | powerRemoved => exact absurd rfl hoff
  | _ => exact congrArg Outcome.next (hout _)

/-- Settles O13: a field event acts on its own screen, from the state in which its time has passed. -/
theorem screensAreIndependent : Obligations.ScreensAreIndependent := by
  intro c sc other s t hc hother hp hplan hpaired e
  have acts := exec_acts hc hp hplan e
  cases c with
  | framePulse m dt foil =>
    refine acts.other (fun x m hm => hpaired x m ?_) other hother
    have hon : ((s.elapse dt).screen x).onScreen = some m := hm
    rwa [State.elapse_screen, (ScreenRec.elapse_kept dt _).2.2] at hon
  | _ => exact acts.other hpaired other hother

namespace Settled

variable {s t : State}

theorem event {c : Instr} {sc : ScreenId} (h : Settled (fun _ => False) s) (hc : c.fieldScreen? = some sc)
    (e : exec c s = .next t) : Settled (fun _ => False) t := by
  by_cases hp : s.powered = true
  · have hbase : Settled (fun _ => False) (eventBase c s) := by
      unfold eventBase
      split
      · exact h.elapse _
      · exact h
    exact (exec_acts hc hp h.plan e).settled hbase
  · rw [exec_unpowered (by simpa using hp) (fun p l q => by subst q; cases hc) (fun q => by subst q; cases hc)] at e
    cases e
    exact h

theorem whenPowered {f : State → State} (h : Settled (fun _ => False) s) (k : Settled (fun _ => False) (f s)) :
    Settled (fun _ => False) (s.whenPowered f) := ite (fun _ => k) fun _ => h

/-- A console command acts on the state that has taken it from the line unit. -/
theorem takeCommand {i : Instr} {f : State → State} (h : Settled (fun _ => False) s)
    (k : ∀ s', Settled (fun _ => False) s' → Settled (fun _ => False) (f s')) : Settled (fun _ => False) (s.takeCommand i f) :=
  ite (fun _ => k _ (h.line _)) fun _ => h

/-- Every command keeps ARMED in step with its condition (R98 to R100). -/
theorem exec {c : Instr} (h : Settled (fun _ => False) s) (hbooth : BoothLaw s) (e : exec c s = .next t) :
    Settled (fun _ => False) t := by
  cases c with
  | clockAdvance dt => cases e; exact h.whenPowered (h.elapse dt).clockTick
  | zeroCrossing dt => cases e; exact h.whenPowered ((h.elapse dt).lights _)
  | loopInputChange flowing =>
    cases e
    refine h.whenPowered (h.fire _ fun k _ => ?_)
    unfold FireUnit.loopChange
    split
    · exact Iff.rfl
    · split <;> exact Iff.rfl
  | loopOpenMeasureExpiry => cases e; exact h.whenPowered (h.loopOpenExpires hbooth)
  | receivedCharacter code a b => cases e; exact h.whenPowered (h.line _)
  | lineSent => cases e; exact h.whenPowered (h.line _)
  | breakMeasureExpiry => cases e; exact h.whenPowered (h.line _)
  | receiveLineLevelChange b => cases e; exact h.whenPowered (h.line _)
  | powerOn p l =>
    have hplan := PlanLaw.keeper.power s p l t e
    cases e
    exact .ofLaw hplan (ArmedLaw.ofPowerOn (fun m => ⟨_, _, by cases m <;> rfl⟩) rfl)
  | powerRemoved =>
    have hplan := PlanLaw.keeper.off s t e
    cases e
    exact .ofLaw hplan (ArmedLaw.ofPowerOn (fun m => ⟨false, false, by cases m <;> rfl⟩) rfl)
  | motor ops =>
    cases e
    refine h.takeCommand fun s h => ?_
    split
    · exact h.answer _
    next m on hparse =>
      have hempty := parseMotor_ok hparse
      have hstate : (if on then (s.machine m).laceUpOn s.timebase else (s.machine m).motorOff).state = .empty := by
        split
        · exact (MachineRec.laceUpOn_state _ _).trans hempty
        · exact (MachineRec.motorOff_state _).trans hempty
      refine (h.machine m _ (h.plan.ofMachine m _ ?_ ?_ fun _ => hempty) (.of_not_judged (by rw [hstate]; rfl))).answer _
      all_goals
        split
        · unfold MachineRec.laceUpOn MachineRec.motorOn
          split <;> rfl
        · unfold MachineRec.motorOff
          split <;> rfl
  | douse ops =>
    cases e
    refine h.takeCommand fun s h => ?_
    split
    · exact h.answer _
    next m close _ =>
      have hheld : Settled (fun _ => False) (s.holdRequest m .console close) :=
        h.machine m _ (h.plan.ofMachine m _ rfl rfl id) fun _ => ⟨rfl, rfl, rfl, rfl, rfl⟩
      exact (hheld.run fun p => (Runs.refl' _ _ p).machinePosted m rfl).answer _
  | cuemap ops =>
    cases e
    refine h.takeCommand fun s h => ?_
    split
    · exact h.answer _
    · exact h.answer _
    · refine answer (h.flags _ _ ?_) _
      exact fun _ => ⟨rfl, rfl⟩
  | strike ops =>
    cases e
    refine h.takeCommand fun s h => ?_
    split
    · exact h.answer _
    next m hparse => exact (((h.expect m).lampDue _ rfl).lampSettled _).answer _
  | arcoff ops =>
    cases e
    refine h.takeCommand fun s h => ?_
    split
    · exact h.answer _
    next m hparse =>
      refine (((h.expect m).lampDue _ ?_).lampSettled _).answer _
      unfold LampRec.arcOff
      split
      · rfl
      all_goals exact LampRec.putOut_bound _
  | trim ops =>
    cases e
    refine h.takeCommand fun s h => ?_
    split
    · exact h.answer _
    next m mm hparse => exact ((((h.expect m).lampDue _ rfl).shortfallTest m).lampSettled _).answer _
  | lampset ops =>
    cases e
    refine h.takeCommand fun s h => ?_
    split
    · exact h.answer _
    next m x hparse => exact (((((h.expect m).lampDue _ rfl).shortfallTest m).exhaustTest).lampSettled _).answer _
  | reel ops =>
    cases e
    refine h.takeCommand fun s h => ?_
    split
    · exact h.answer _
    next sc n entry hparse =>
      refine (evaluateScreenLast (h.kept (h.plan.writeSlot sc n (fun _ => Slot.loadedWith entry)
        (parseReel_ok hparse).1 nofun (SlotLaw.loadedWith entry))
        (fun o ho => .ofSlot ho n _ s) (fun k q => q.congr rfl ⟨rfl, rfl⟩) (fun _ => False.elim) fun _ => id)).answer _
  | plancopy ops =>
    cases e
    refine h.takeCommand fun s h => ?_
    split
    · exact h.answer _
    next o hparse =>
      refine ite (fun _ => h.answer _) fun hcount => ?_
      exact (evaluateScreenLast (h.kept (h.plan.putRange _ _ _ _ (parsePlancopy_ok hparse hcount) fun n => SlotLaw.copied _)
        (fun k hk => .putTable hk _ s) (fun k q => q.congr rfl ⟨rfl, rfl⟩) (fun _ => False.elim) fun _ => id)).answer _
  | planclr ops =>
    cases e
    refine h.takeCommand fun s h => ?_
    split
    · exact h.answer _
    next sc f count hparse =>
      refine ite (fun _ => h.answer _) fun hcount => ?_
      exact (evaluateScreenLast (h.kept
        (h.plan.putRange _ _ _ _ (parsePlanclr_ok hparse hcount) fun n => ⟨SlotLaw.cleared, rfl⟩)
        (fun k hk => .putTable hk _ s) (fun k q => q.congr rfl ⟨rfl, rfl⟩) (fun _ => False.elim) fun _ => id)).answer _
  | thread ops =>
    cases e
    refine h.takeCommand fun s h => ?_
    split
    · exact h.answer _
    next m id n entry hparse =>
      obtain ⟨hloaded, hentry, hempty, -⟩ := parseThread_ok hparse
      exact (h.threadReel hloaded hentry hempty).answer _
  | unthread ops =>
    cases e
    refine h.takeCommand fun s h => ?_
    split
    · exact h.answer _
    next m _ => exact (h.unthread m).answer _
  | time ops =>
    cases e
    refine h.takeCommand fun s h => ?_
    split
    · exact h.answer _
    · exact h.answer _
    · exact (h.planStore _ rfl rfl).answer _
  | showat ops =>
    cases e
    refine h.takeCommand fun s h => ?_
    split
    · exact h.answer _
    · exact h.answer _
    · exact (h.planStore _ rfl rfl).answer _
    · exact (h.planStore _ rfl rfl).answer _
  | start ops =>
    cases e
    refine h.takeCommand fun s h => ?_
    split
    · exact h.answer _
    · exact (h.openSlot _ _).answer _
  | swapnow ops =>
    cases e
    refine h.takeCommand fun s h => ?_
    split
    · exact h.answer _
    next sc _ =>
      refine answer ?_ _
      unfold State.swapNow
      refine ite (fun _ => ?_) fun _ => h.run fun p => (Runs.refl' sc _ p).reachPoint _ _
      exact h.run fun p => ((Runs.refl' sc _ p).flags (fun x => { x with point := some .console }) (fun _ => ⟨rfl, rfl, rfl⟩)
        fun _ => ⟨rfl, rfl, rfl⟩).startDue _ _
  | sound ops =>
    cases e
    refine h.takeCommand fun s h => ?_
    split
    · exact h.answer _
    · exact h.answer _
    · refine answer (h.flags _ _ ?_) _
      exact fun _ => ⟨rfl, rfl⟩
  | resume ops =>
    cases e
    refine h.takeCommand fun s h => ?_
    split
    · exact h.answer _
    · exact (h.openOnDeck _ _).answer _
  | abort ops =>
    cases e
    refine h.takeCommand fun s h => ?_
    split
    · exact h.answer _
    next sc _ => exact (h.run fun p => (Runs.refl' sc _ p).abort).answer _
  | screenset ops =>
    cases e
    refine h.takeCommand fun s h => ?_
    split
    · exact h.answer _
    next sc x _ =>
      refine (h.flags _ _ fun y => ?_).answer _
      unfold ScreenRec.withSettings ScreenRec.setOverlap
      cases x.margin <;> cases x.ovl <;> exact ⟨rfl, rfl⟩
  | scenedef ops =>
    cases e
    refine h.takeCommand fun s h => ?_
    split
    · exact h.answer _
    · exact h.answer _
    · exact (h.lights _).answer _
  | level ops =>
    cases e
    refine h.takeCommand fun s h => ?_
    split
    · exact h.answer _
    next sc x level fade _ =>
      refine answer ?_ _
      cases x with
      | none => exact h.placeThree sc _ _ _
      | some k => exact h.circuit sc k fun y => Circuit.place y .console level fade
  | scene ops =>
    cases e
    refine h.takeCommand fun s h => ?_
    split
    · exact h.answer _
    · exact (h.placeThree _ _ _ _).answer _
  | release ops =>
    cases e
    refine h.takeCommand fun s h => ?_
    split
    · exact h.answer _
    next sc x _ =>
      refine answer ?_ _
      cases x with
      | none => exact h.releaseThree sc _
      | some k => exact h.circuit sc k fun y => Circuit.release y .console
  | resetM ops =>
    cases e
    refine h.takeCommand fun s h => ?_
    split
    · exact h.answer _
    next m _ => exact ((h.resetMachine m).report _).answer _
  | resetBooth ops =>
    cases e
    refine ite (fun _ => ?_) fun _ => h
    have htaken := h.line (LineUnit.unhand (.resetBooth ops))
    have hlaw : BoothLaw (s.modLine (LineUnit.unhand (.resetBooth ops))) := hbooth.congr rfl rfl rfl rfl fun _ => rfl
    split
    · exact htaken.answer _
    · exact ((htaken.resetBooth hlaw).answer _).report _
  | inclear ops =>
    cases e
    refine h.takeCommand fun s h => ?_
    split
    · exact h.answer _
    · exact (h.fire _ fun _ _ => Iff.rfl).answer _
  | fireset ops =>
    cases e
    refine h.takeCommand fun s h => ?_
    split
    · exact h.answer _
    · exact (h.fire _ fun _ _ => Iff.rfl).answer _
  | restart ops =>
    cases e
    refine h.takeCommand fun s h => ?_
    split
    · exact h.answer _
    · exact (((Settled.restartBlocks s).answer _).line _).report _
  | mstat ops | lstat ops | pstat ops | sstat ops | hlstat ops | incident ops | fstat ops | ident ops | status ops =>
    cases e
    refine h.takeCommand fun s h => ?_
    split <;> exact h.answer _
  | _ => exact h.event rfl e

end Settled

/-- Settles O9: a step takes one command, or lets time pass. -/
theorem armedConditionKept : Obligations.ArmedConditionKept := by
  intro s t hbooth hplan harmed e
  have h := Settled.ofLaw hplan harmed
  unfold step at e
  split at e
  next i rest _ =>
    have hrest : Settled (fun _ => False) { s with pending := rest } :=
      .ofLaw (PlanLaw.keeper.pending hplan rest) ⟨harmed.condition, harmed.posting, harmed.copy⟩
    exact (hrest.exec (BoothLaw.keeper.pending hbooth rest) e).law
  next =>
    split at e
    · exact (h.exec hbooth e).law
    · cases e
      exact (h.whenPowered (h.elapse 1)).law

end Sys2Proof.Machine

/-! ### The law of the screens across the controller's operations

Between the order to a machine and the change of its screen's record the law does not hold: the screen is then vacated, or held by
a machine its record does not name yet. -/

namespace Sys2Proof.Machine

open Sys2Proof Host

/-! ### Changes that leave the screens as they stand -/

/-- The records of the screens stand, no machine enters or leaves ON_SCREEN, and the FAULT claims stand. -/
structure ScreensStill (s t : State) : Prop where
  screens : t.screens = s.screens
  machine : ∀ j, (t.machine j).state = .onScreen ↔ (s.machine j).state = .onScreen
  fault : ∀ k d, (t.circuit k d).claims.fault.isSome = (s.circuit k d).claims.fault.isSome

namespace ScreensStill

variable {s t u : State}

theorem refl (s : State) : ScreensStill s s := ⟨rfl, fun _ => Iff.rfl, fun _ _ => rfl⟩

theorem trans (h : ScreensStill s t) (k : ScreensStill t u) : ScreensStill s u :=
  ⟨k.screens.trans h.screens, fun j => (k.machine j).trans (h.machine j), fun x d => (k.fault x d).trans (h.fault x d)⟩

theorem screen (h : ScreensStill s t) (k : ScreenId) : t.screen k = s.screen k := congrArg (·.get k) h.screens

theorem law (h : ScreensStill s t) (k : ScreensLaw s) : ScreensLaw t := k.congr h.machine h.screens h.fault

theorem ite {p : Prop} [Decidable p] {x y : State} (h : p → ScreensStill s x) (k : ¬p → ScreensStill s y) :
    ScreensStill s (if p then x else y) := by
  split
  next e => exact h e
  next e => exact k e

theorem line (f : LineUnit → LineUnit) (s : State) : ScreensStill s (s.modLine f) := ⟨rfl, fun _ => Iff.rfl, fun _ _ => rfl⟩

theorem report (r : Report) (s : State) : ScreensStill s (s.report r) := line _ s

theorem reportIf (x : Bool) (r : Report) (s : State) : ScreensStill s (s.reportIf x r) :=
  ite (fun _ => report r s) fun _ => refl s

theorem decoder (m : MachineId) (f : DecoderRec → DecoderRec) (s : State) : ScreensStill s (s.modDecoder m f) :=
  ⟨rfl, fun _ => Iff.rfl, fun _ _ => rfl⟩

theorem plan (f : PlanStore → PlanStore) (s : State) : ScreensStill s (s.modPlan f) := ⟨rfl, fun _ => Iff.rfl, fun _ _ => rfl⟩

theorem fire (f : FireUnit → FireUnit) (s : State) : ScreensStill s (s.modFire f) := ⟨rfl, fun _ => Iff.rfl, fun _ _ => rfl⟩

theorem shutter (m : MachineId) (f : ShutterRec → ShutterRec) (s : State) : ScreensStill s (s.modShutter m f) := fire _ s

theorem slot (sc : ScreenId) (n : SlotIx) (f : Slot → Slot) (s : State) : ScreensStill s (s.modSlot sc n f) :=
  ⟨rfl, fun _ => Iff.rfl, fun _ _ => rfl⟩

theorem modMachine (m : MachineId) (f : MachineRec → MachineRec) (s : State)
    (k : (f (s.machine m)).state = .onScreen ↔ (s.machine m).state = .onScreen) : ScreensStill s (s.modMachine m f) :=
  ⟨rfl, fun j => by
    rw [State.modMachine_machine]
    split
    next e => rw [e]; exact k
    next => exact Iff.rfl, fun _ _ => rfl⟩

theorem lamp (m : MachineId) (f : LampRec → LampRec) (s : State) : ScreensStill s (s.modLamp m f) :=
  ⟨State.modLamp_screens m f s, fun j => by rw [(State.modLamp_boundSlot m j f s).2.1], fun k d => by rw [State.modLamp_circuit]⟩

theorem strikeRequest (m : MachineId) (s : State) : ScreensStill s (s.strikeRequest m) := by
  unfold State.strikeRequest
  split
  · exact lamp m _ s
  · exact refl s

theorem shortfallTest (m : MachineId) (s : State) : ScreensStill s (s.shortfallTest m) := by
  unfold State.shortfallTest
  split
  · exact refl s
  · exact ite (fun _ => (report _ s).trans (lamp m _ _)) fun _ => refl s

theorem slotNotice (sc : ScreenId) (n : SlotIx) (st : SlotStatus) (s : State) : ScreensStill s (s.slotNotice sc n st) := by
  unfold State.slotNotice
  split
  · dsimp only
    split
    · exact slot sc n _ s
    · exact ((slot sc n _ s).trans (modMachine _ _ _ Iff.rfl)).trans (lamp _ _ _)
  · exact slot sc n _ s
  all_goals exact refl s

theorem endBinding (m : MachineId) (st : SlotStatus) (s : State) : ScreensStill s (s.endBinding m st) := by
  unfold State.endBinding
  split
  · exact refl s
  · exact ((slot _ _ _ s).trans (modMachine _ _ _ Iff.rfl)).trans (lamp _ _ _)

theorem outgoingReelEnds (m : MachineId) (s : State) : ScreensStill s (s.outgoingReelEnds m) := by
  unfold State.outgoingReelEnds
  split
  · exact refl s
  · dsimp only
    split
    · exact slotNotice _ _ _ s
    · exact (slotNotice _ _ _ s).trans (reportIf _ _ _)

/-- A claim of another rank than FAULT is placed or released. -/
theorem circuit (sc : ScreenId) (c : CircuitId) (f : Nat → Circuit → Circuit) (s : State)
    (hf : ∀ h x, (f h x).claims.fault.isSome = x.claims.fault.isSome) : ScreensStill s (s.modCircuit sc c f) :=
  ⟨rfl, fun _ => Iff.rfl, fun k d => by
    rw [State.modCircuit_circuit]
    split
    next e => obtain ⟨rfl, rfl⟩ := e; exact hf _ _
    next => rfl⟩

end ScreensStill

theorem sameClaim_isSome {a b : Option Claim} (h : sameClaim a b) : a.isSome = b.isSome := by
  simpa [sameClaim] using congrArg Option.isSome h

theorem Circuit.place_fault (h : Nat) {r : Rank} (hr : r ≠ .fault) (l f : Nat) (c : Circuit) :
    (c.place h r l f).claims.fault.isSome = c.claims.fault.isSome :=
  sameClaim_isSome (Circuit.place_claims h r l f c .fault hr.symm)

theorem Circuit.release_fault (h : Nat) {r : Rank} (hr : r ≠ .fault) (c : Circuit) :
    (c.release h r).claims.fault.isSome = c.claims.fault.isSome :=
  sameClaim_isSome (Circuit.release_claims h r c .fault hr.symm)

namespace ScreensStill

theorem placeThree (sc : ScreenId) {r : Rank} (hr : r ≠ .fault) (x : SceneLevels) (f : Nat) (s : State) :
    ScreensStill s (s.placeThree sc r x f) :=
  ((circuit sc .house (fun h => Circuit.place h r x.house f) s fun _ _ => Circuit.place_fault _ hr _ _ _).trans
    (circuit sc .aisle (fun h => Circuit.place h r x.aisle f) _ fun _ _ => Circuit.place_fault _ hr _ _ _)).trans
    (circuit sc .stage (fun h => Circuit.place h r x.stage f) _ fun _ _ => Circuit.place_fault _ hr _ _ _)

theorem placeScene (sc : ScreenId) {r : Rank} (hr : r ≠ .fault) (n : Fin 8) (f : Nat) (s : State) :
    ScreensStill s (s.placeScene sc r n f) := placeThree sc hr _ f s

theorem placeLevel (sc : ScreenId) {r : Rank} (hr : r ≠ .fault) (c : Option CircuitId) (x f : Nat) (s : State) :
    ScreensStill s (s.placeLevel sc r c x f) := by
  cases c with
  | none => exact placeThree sc hr _ f s
  | some c => exact circuit sc c (fun h => Circuit.place h r x f) s fun _ _ => Circuit.place_fault _ hr _ _ _

theorem releaseThree (sc : ScreenId) {r : Rank} (hr : r ≠ .fault) (s : State) : ScreensStill s (s.releaseThree sc r) :=
  ((circuit sc .house (fun h => Circuit.release h r) s fun _ _ => Circuit.release_fault _ hr _).trans
    (circuit sc .aisle (fun h => Circuit.release h r) _ fun _ _ => Circuit.release_fault _ hr _)).trans
    (circuit sc .stage (fun h => Circuit.release h r) _ fun _ _ => Circuit.release_fault _ hr _)

theorem issueScene (sc : ScreenId) (e : Option SlotEntry) (s : State) : ScreensStill s (s.issueScene sc e) := by
  unfold State.issueScene
  split
  · exact placeScene sc (by decide) _ _ s
  · exact refl s

theorem lampOff (m : MachineId) (s : State) : ScreensStill s (s.lampOff m) := lamp m _ s

theorem placeSafety (sc : ScreenId) (s : State) : ScreensStill s (s.placeSafety sc) := placeThree sc (by decide) _ _ s

theorem releaseSafety (sc : ScreenId) (s : State) : ScreensStill s (s.releaseSafety sc) :=
  ite (fun _ => releaseThree sc (by decide) s) fun _ => refl s

end ScreensStill

/-! ### A run of cues -/

/-- What cues leave: the records of the screens but for the sound level of `sc`, in its range, the machines and the FAULT claims. -/
structure CuesRun (sc : ScreenId) (s t : State) : Prop where
  other : ∀ k, k ≠ sc → t.screen k = s.screen k
  screen : ∃ n, t.screen sc = { s.screen sc with sound := n } ∧ ((s.screen sc).sound ≤ 15 → n ≤ 15)
  machine : ∀ j, t.machine j = s.machine j
  fault : ∀ k d, (t.circuit k d).claims.fault.isSome = (s.circuit k d).claims.fault.isSome

namespace CuesRun

variable {sc : ScreenId} {s t u : State}

theorem refl (sc : ScreenId) (s : State) : CuesRun sc s s := ⟨fun _ _ => rfl, ⟨_, rfl, id⟩, fun _ => rfl, fun _ _ => rfl⟩

theorem trans (h : CuesRun sc s t) (k : CuesRun sc t u) : CuesRun sc s u := by
  obtain ⟨a, ha, hin⟩ := h.screen
  obtain ⟨b, hb, kin⟩ := k.screen
  rw [ha] at hb kin
  exact ⟨fun x e => (k.other x e).trans (h.other x e), ⟨b, hb, fun e => kin (hin e)⟩,
    fun j => (k.machine j).trans (h.machine j), fun x d => (k.fault x d).trans (h.fault x d)⟩

theorem ofStill (h : ScreensStill s t) (hm : ∀ j, t.machine j = s.machine j) : CuesRun sc s t :=
  ⟨fun k _ => h.screen k, ⟨_, h.screen sc, id⟩, hm, h.fault⟩

theorem execAction (m : MachineId) (code f : Nat) (x : CueAction) (s : State) : CuesRun sc s (s.execAction sc m code f x) := by
  cases x with
  | scene n fade => exact ofStill (.placeScene sc (by decide) n fade s) fun _ => rfl
  | level c x fade => exact ofStill (.placeLevel sc (by decide) c x fade s) fun _ => by cases c <;> rfl
  | sound x =>
    refine ⟨fun k e => ?_, ⟨min Config.maxSound x, ?_, fun _ => Nat.min_le_left _ _⟩, fun _ => rfl, fun _ _ => rfl⟩
    · exact (State.modScreen_screen sc k _ s).trans (if_neg e)
    · exact (State.modScreen_screen sc sc _ s).trans (if_pos rfl)
  | note => exact ofStill (.report _ s) fun _ => rfl

theorem execActions (m : MachineId) (code f : Nat) (x : List CueAction) (s : State) :
    CuesRun sc s (State.execActions sc m code f x s) := by
  induction x generalizing s with
  | nil => exact refl sc s
  | cons x xs ih => exact (execAction m code f x s).trans (ih _)

theorem execEffect (m : MachineId) (c : EffectCode) (f : Nat) (s : State) : CuesRun sc s (s.execEffect sc m c f) :=
  execActions m _ f _ s

theorem execDeferred (m : MachineId) (x : List DeferredCue) (s : State) : CuesRun sc s (State.execDeferred sc m x s) := by
  induction x generalizing s with
  | nil => exact refl sc s
  | cons x xs ih => exact (execEffect m x.code x.frame s).trans (ih _)

theorem handOver (m : MachineId) (s : State) : CuesRun sc s (s.handOver sc m) :=
  (ofStill (.decoder m _ s) fun _ => rfl).trans (execDeferred m _ _)

theorem issueScene (e : Option SlotEntry) (s : State) : CuesRun sc s (s.issueScene sc e) :=
  ofStill (.issueScene sc e s) fun _ => by
    unfold State.issueScene
    split <;> rfl

/-- The law of a screen does not look at the sound level but for its range. -/
theorem ScreenLaw.sound {x : ScreenRec} (k : ScreenLaw sc x) {n : Nat} (h : n ≤ 15) : ScreenLaw sc { x with sound := n } :=
  ⟨k.onScreen, k.pair, k.current, k.interval, k.intervalTime, k.muted, k.selected, k.both, k.overlapLeft, k.darkHold,
    ⟨k.settings.1, k.settings.2.1, h⟩, k.showing, k.runup, k.swapDue, k.ended, k.dark⟩

theorem law (h : CuesRun sc s t) (k : ScreensLaw s) : ScreensLaw t := by
  obtain ⟨n, hn, hin⟩ := h.screen
  have hlaw := ScreenLaw.sound (k.screen sc) (hin (k.screen sc).settings.2.2)
  refine k.of sc (fun j => by rw [h.machine]) h.other (by rw [hn]; exact hlaw) (by rw [hn]) (by rw [hn]) h.fault

end CuesRun

/-! ### A screen between two lawful records -/

/-- Machine `on` of screen `sc`, or none, is ON_SCREEN, whatever the screen's record says, and all else is lawful. -/
structure Between (sc : ScreenId) (on : Option MachineId) (s : State) : Prop where
  other : ∀ k, k ≠ sc → ScreenLaw k (s.screen k)
  machine : ∀ j, screenOf j ≠ sc → ((s.machine j).state = .onScreen ↔ (s.screen (screenOf j)).onScreen = some j)
  pair : ∀ j, screenOf j = sc → ((s.machine j).state = .onScreen ↔ on = some j)
  fault : ∀ k c, (s.circuit k c).claims.fault.isSome = true ↔ (s.screen k).faultClaim ≠ .none
  settings : (s.screen sc).overlap ≤ 12 ∧ (s.screen sc).margin ≤ 1000000 ∧ (s.screen sc).sound ≤ 15

namespace Between

variable {sc : ScreenId} {on : Option MachineId} {s t : State}

theorem ofLaw (h : ScreensLaw s) (sc : ScreenId) : Between sc (s.screen sc).onScreen s :=
  ⟨fun k _ => h.screen k, fun j _ => h.machine j, fun j e => by rw [h.machine j, e], h.fault, (h.screen sc).settings⟩

/-- A record that names the machine that is ON_SCREEN and meets its own law settles the screens. -/
theorem law (h : Between sc on s) (hlaw : ScreenLaw sc (s.screen sc)) (hon : (s.screen sc).onScreen = on) : ScreensLaw s := by
  refine ⟨fun k => ?_, fun j => ?_, h.fault⟩
  · by_cases e : k = sc
    · subst e; exact hlaw
    · exact h.other k e
  · by_cases e : screenOf j = sc
    · rw [e, hon]; exact h.pair j e
    · exact h.machine j e

/-- A machine of the pair is changed. -/
theorem modMachine (h : Between sc on s) (m : MachineId) (f : MachineRec → MachineRec) (hm : screenOf m = sc)
    {on' : Option MachineId} (hself : (f (s.machine m)).state = .onScreen ↔ on' = some m)
    (hother : ∀ j, j ≠ m → (on = some j ↔ on' = some j)) : Between sc on' (s.modMachine m f) := by
  refine ⟨h.other, fun j e => ?_, fun j e => ?_, h.fault, h.settings⟩
  · rw [State.modMachine_machine, if_neg fun q => e (by rw [q, hm])]
    exact h.machine j e
  · rw [State.modMachine_machine]
    split
    next q => rw [q]; exact hself
    next q => exact (h.pair j e).trans (hother j q)

/-- The ON_SCREEN machine leaves that state. -/
theorem leaves {m : MachineId} (h : Between sc (some m) s) (f : MachineRec → MachineRec) (hm : screenOf m = sc)
    (hf : (f (s.machine m)).state ≠ .onScreen) : Between sc none (s.modMachine m f) :=
  h.modMachine m f hm (iff_of_false hf nofun) fun _ e => iff_of_false (fun q => e (Option.some.inj q).symm) nofun

/-- With none ON_SCREEN, a machine of the pair enters that state. -/
theorem takes (h : Between sc none s) (m : MachineId) (f : MachineRec → MachineRec) (hm : screenOf m = sc)
    (hf : (f (s.machine m)).state = .onScreen) : Between sc (some m) (s.modMachine m f) :=
  h.modMachine m f hm (iff_of_true hf rfl) fun _ e => iff_of_false nofun fun q => e (Option.some.inj q).symm

theorem still (h : Between sc on s) (k : ScreensStill s t) : Between sc on t := by
  refine ⟨fun x e => ?_, fun j e => ?_, fun j e => (k.machine j).trans (h.pair j e), fun x c => ?_, ?_⟩
  · rw [k.screen]; exact h.other x e
  · rw [k.machine, k.screen]; exact h.machine j e
  · rw [k.fault, k.screen]; exact h.fault x c
  · rw [k.screen]; exact h.settings

theorem cues (h : Between sc on s) (k : CuesRun sc s t) : Between sc on t := by
  obtain ⟨n, hn, hin⟩ := k.screen
  refine ⟨fun x e => ?_, fun j e => ?_, fun j e => by rw [k.machine]; exact h.pair j e, fun x c => ?_, ?_⟩
  · rw [k.other x e]; exact h.other x e
  · rw [k.machine, k.other _ e]; exact h.machine j e
  · rw [k.fault, h.fault x c]
    by_cases e : x = sc
    · rw [e, hn]
    · rw [k.other x e]
  · rw [hn]
    exact ⟨h.settings.1, h.settings.2.1, hin h.settings.2.2⟩

/-- A change of the screen's record, but for its settings and its FAULT claim. -/
theorem modScreen (h : Between sc on s) (f : ScreenRec → ScreenRec) (hf : ∀ x, (f x).overlap = x.overlap
    ∧ (f x).margin = x.margin ∧ (f x).sound = x.sound ∧ (f x).faultClaim = x.faultClaim) :
    Between sc on (s.modScreen sc f) := by
  obtain ⟨hoverlap, hmargin, hsound, hclaim⟩ := hf (s.screen sc)
  refine ⟨fun k e => ?_, fun j e => ?_, h.pair, fun k c => ?_, ?_⟩
  · rw [State.modScreen_screen, if_neg e]; exact h.other k e
  · rw [State.modScreen_screen, if_neg e]; exact h.machine j e
  · rw [State.modScreen_screen]
    split
    next e => subst e; rw [hclaim]; exact h.fault k c
    next => exact h.fault k c
  · rw [State.modScreen_screen, if_pos rfl, hoverlap, hmargin, hsound]; exact h.settings

/-- A FAULT claim is placed and recorded. -/
theorem placeFault (h : Between sc on s) (n : Fin 8) (fade : Nat) (f : ScreenRec → ScreenRec)
    (hf : ∀ x, (f x).overlap = x.overlap ∧ (f x).margin = x.margin ∧ (f x).sound = x.sound ∧ (f x).faultClaim ≠ .none) :
    Between sc on ((s.placeScene sc .fault n fade).modScreen sc f) := by
  obtain ⟨hoverlap, hmargin, hsound, hclaim⟩ := hf (s.screen sc)
  refine ⟨fun k e => ?_, fun j e => ?_, h.pair, fun k c => ?_, ?_⟩
  · rw [State.modScreen_screen, if_neg e]; exact h.other k e
  · rw [State.modScreen_screen, if_neg e]; exact h.machine j e
  · rw [State.modScreen_screen]
    change ((s.placeThree sc .fault _ fade).circuit k c).claims.fault.isSome = true ↔ _
    rw [State.placeThree_circuit]
    split
    next e =>
      subst e
      refine iff_of_true ?_ hclaim
      exact sameClaim_isSome (Circuit.place_self _ .fault _ _ _)
    next => exact h.fault k c
  · rw [State.modScreen_screen, if_pos rfl]
    change (f (s.screen sc)).overlap ≤ 12 ∧ (f (s.screen sc)).margin ≤ 1000000 ∧ (f (s.screen sc)).sound ≤ 15
    rw [hoverlap, hmargin, hsound]; exact h.settings

theorem releaseFault (h : Between sc on s) : Between sc on (s.releaseFault sc) := by
  refine ⟨fun k e => ?_, fun j e => ?_, h.pair, fun k c => ?_, ?_⟩
  · exact ((State.modScreen_screen sc k _ _).trans (if_neg e)).symm ▸ h.other k e
  · exact ((State.modScreen_screen sc _ _ _).trans (if_neg e)).symm ▸ h.machine j e
  · unfold State.releaseFault
    rw [State.modScreen_screen]
    change ((s.releaseThree sc .fault).circuit k c).claims.fault.isSome = true ↔ _
    rw [State.releaseThree_circuit]
    split
    next e =>
      refine iff_of_false ?_ fun q => q rfl
      rw [show (((s.circuit sc c).release s.lights.halfCycle .fault).claims.fault) = none from Circuit.release_self _ .fault _]
      nofun
    next => exact h.fault k c
  · exact ((State.modScreen_screen sc sc _ _).trans (if_pos rfl)).symm ▸ h.settings

end Between

end Sys2Proof.Machine

namespace Sys2Proof.Machine

open Sys2Proof Host

/-- The laws that the controller's operations need of each other. -/
structure Lawful (s : State) : Prop where
  plan : PlanLaw s
  entries : EntriesLaw s
  screens : ScreensLaw s

/-- The states in which a programme runs or stands between reels. -/
def ScreenState.active (st : ScreenState) : Prop := st ≠ .idle ∧ st ≠ .halted

theorem ScreenLaw.active {sc : ScreenId} {x : ScreenRec} (k : ScreenLaw sc x) (h : x.startPending = true ∨ x.startGiven = true) :
    x.state.active := by
  constructor
  all_goals
    intro e
    obtain ⟨-, hgiven, hpending⟩ := k.ended (by simp [e])
    simp [hgiven, hpending] at h

/-- R109: SHOWING goes to RUNUP, or to SWAP_DUE where the point has been reached. -/
def ScreenRec.leaveShowing (x : ScreenRec) : ScreenRec :=
  { x with state := if x.state = .showing then (if x.point.isSome then .swapDue else .runup) else x.state }

theorem ScreenRec.leaveShowing_active {x : ScreenRec} (h : x.state.active) : x.leaveShowing.state.active := by
  unfold ScreenRec.leaveShowing
  dsimp only
  split
  · split <;> exact ⟨nofun, nofun⟩
  · exact h

/-- R109, of the record: start given, and SHOWING left. -/
theorem ScreenLaw.started {sc : ScreenId} {x : ScreenRec} (k : ScreenLaw sc x) (h : x.state.active) :
    ScreenLaw sc { x with startGiven := true, startPending := false }.leaveShowing := by
  obtain ⟨hidle, hhalted⟩ := h
  obtain ⟨k1, k2, k3, k4, k5, k6, k7, k8, k9, k10, k11, k12, k13, k14, k15, k16⟩ := k
  by_cases hshow : x.state = .showing
  · constructor <;> cases hpoint : x.point <;> simp_all [ScreenRec.leaveShowing, ScreenState.shows]
  · constructor <;> simp_all [ScreenRec.leaveShowing, ScreenState.shows]

theorem MachineRec.startOrder_offScreen (t : Nat) (r : MachineRec) :
    (r.startOrder t).state = .onScreen ↔ r.state = .onScreen := by
  unfold MachineRec.startOrder
  split
  next e => rw [MachineRec.motorOn_state, e]; exact ⟨nofun, nofun⟩
  next => exact Iff.rfl

namespace Lawful

variable {s t : State}

theorem react (h : Lawful s) (r : Reactions s t) (k : ScreensLaw t) : Lawful t :=
  ⟨r.plan h.plan, EntriesLaw.keeper.react h.entries r, k⟩

theorem still (h : Lawful s) (r : Reactions s t) (k : ScreensStill s t) : Lawful t := h.react r (k.law h.screens)

theorem report (h : Lawful s) (r : Report) : Lawful (s.report r) := h.still (.tail .refl (.report r s)) (.report r s)

theorem reportIf (h : Lawful s) (x : Bool) (r : Report) : Lawful (s.reportIf x r) :=
  h.still (Reactions.reportIf x r .refl) (.reportIf x r s)

theorem ite {p : Prop} [Decidable p] {x y : State} (h : p → Lawful x) (k : ¬p → Lawful y) : Lawful (if p then x else y) := by
  split
  next e => exact h e
  next e => exact k e

/-- A change of one screen's record that keeps its own law, its ON_SCREEN machine and its FAULT claim. -/
theorem modScreen (h : Lawful s) (sc : ScreenId) (f : ScreenRec → ScreenRec) (hset : KeepsSettings f)
    (hlaw : ScreenLaw sc (s.screen sc) → ScreenLaw sc (f (s.screen sc)))
    (hkeep : (f (s.screen sc)).onScreen = (s.screen sc).onScreen ∧ (f (s.screen sc)).faultClaim = (s.screen sc).faultClaim) :
    Lawful (s.modScreen sc f) :=
  h.react (.tail .refl (.screen sc f s hset)) (h.screens.modScreen sc f (hlaw (h.screens.screen sc)) hkeep.1 hkeep.2)

/-- Start pending is set on an active screen. -/
theorem pend (h : Lawful s) (sc : ScreenId) (hactive : (s.screen sc).state.active) :
    Lawful (s.modScreen sc fun x => { x with startPending := true }) :=
  h.modScreen sc _ (fun _ => ⟨rfl, rfl, rfl⟩) (fun k => ⟨k.onScreen, k.pair, k.current, k.interval, k.intervalTime, k.muted,
    k.selected, k.both, k.overlapLeft, k.darkHold, k.settings, k.showing, k.runup, k.swapDue,
    fun e => (e.elim hactive.1 hactive.2).elim, k.dark⟩) ⟨rfl, rfl⟩

theorem strikeRequest (h : Lawful s) (m : MachineId) : Lawful (s.strikeRequest m) :=
  h.still (Reactions.strikeRequest m .refl) (.strikeRequest m s)

theorem loopCheck (h : Lawful s) (m : MachineId) (hactive : (s.screen (screenOf m)).state.active) : Lawful (s.loopCheck m) :=
  h.react (Reactions.loopCheck m .refl) (h.screens.loopCheck m hactive.1 hactive.2)

/-- A start order outside OPENING (R109), on an active screen. -/
theorem startSuccessor (h : Lawful s) (m : MachineId) (c : MotorCause) (hactive : (s.screen (screenOf m)).state.active) :
    Lawful (s.startSuccessor m c) := by
  have hgiven : Between (screenOf m) (s.screen (screenOf m)).onScreen (s.giveStart m c) :=
    (((Between.ofLaw h.screens _).still (.modMachine m _ s (MachineRec.startOrder_offScreen _ _))).modScreen
      (fun x => { x with startGiven := true, startPending := false }) fun _ => ⟨rfl, rfl, rfl, rfl⟩).still (.report _ _)
  have hmoved := hgiven.modScreen ScreenRec.leaveShowing fun _ => ⟨rfl, rfl, rfl, rfl⟩
  have hrec : ((s.giveStart m c).modScreen (screenOf m) ScreenRec.leaveShowing).screen (screenOf m)
      = { s.screen (screenOf m) with startGiven := true, startPending := false }.leaveShowing := by
    simp [State.giveStart]
  have hlaw := hmoved.law (by rw [hrec]; exact (h.screens.screen _).started hactive) (by rw [hrec]; rfl)
  have hstate : ((((s.giveStart m c).modScreen (screenOf m) ScreenRec.leaveShowing).screen (screenOf m)).state).active := by
    rw [hrec]
    exact ScreenRec.leaveShowing_active hactive
  have hstill := ScreensStill.strikeRequest m ((s.giveStart m c).modScreen (screenOf m) ScreenRec.leaveShowing)
  refine h.react (Reactions.startSuccessor m c .refl) ?_
  unfold State.startSuccessor
  dsimp only
  split
  · have hactive' := hstate
    rw [← hstill.screen] at hactive'
    exact (hstill.law hlaw).loopCheck m hactive'.1 hactive'.2
  · exact hlaw.loopCheck m hstate.1 hstate.2

/-- A start order in OPENING (R107). -/
theorem giveOpening (h : Lawful s) (m : MachineId) (c : MotorCause) (hactive : (s.screen (screenOf m)).state = .opening) :
    Lawful (s.giveStart m c) := by
  refine h.react (Reactions.giveStart m c .refl) ?_
  have hgiven : Between (screenOf m) (s.screen (screenOf m)).onScreen (s.giveStart m c) :=
    (((Between.ofLaw h.screens _).still (.modMachine m _ s (MachineRec.startOrder_offScreen _ _))).modScreen
      (fun x => { x with startGiven := true, startPending := false }) fun _ => ⟨rfl, rfl, rfl, rfl⟩).still (.report _ _)
  have hrec : (s.giveStart m c).screen (screenOf m)
      = { s.screen (screenOf m) with startGiven := true, startPending := false } := by
    simp [State.giveStart]
  refine hgiven.law ?_ (by rw [hrec])
  rw [hrec]
  have k := h.screens.screen (screenOf m)
  obtain ⟨k1, k2, k3, k4, k5, k6, k7, k8, k9, k10, k11, k12, k13, k14, k15, k16⟩ := k
  constructor <;> simp_all [ScreenState.shows]

theorem openingStep (h : Lawful s) (sc : ScreenId) : Lawful (s.openingStep sc) := by
  unfold State.openingStep
  split
  · exact h
  next m hm =>
    have hsc := h.plan.waitedOn_screen hm
    subst hsc
    split
    next hopening =>
      split
      · exact h.strikeRequest m
      · dsimp only
        have hgiven := h.giveOpening m (if (s.screen (screenOf m)).startPending then .pending else .opening) hopening.1
        have hstate : ((s.giveStart m (if (s.screen (screenOf m)).startPending then .pending else .opening)).screen
            (screenOf m)).state.active := by
          simp [State.giveStart, hopening.1, ScreenState.active]
        split
        · exact (hgiven.still (Reactions.placeScene _ .cue _ _ trivial .refl) (.placeScene _ (by decide) _ _ _)).loopCheck m
            hstate
        · exact hgiven.loopCheck m hstate
      all_goals exact h
    · exact h

theorem onArmed (h : Lawful s) (m : MachineId) : Lawful (s.onArmed m) := by
  unfold State.onArmed
  dsimp only
  split
  · split
    · exact h.openingStep _
    all_goals first
      | exact h
      | (rename_i hstate
         exact ite (fun _ => h.startSuccessor m _ (by rw [hstate]; exact ⟨nofun, nofun⟩)) fun _ => h)
  · exact h

theorem onDisarmed (h : Lawful s) (m : MachineId) : Lawful (s.onDisarmed m) :=
  ite (fun k => h.pend _ (by rw [k.2.1]; exact ⟨nofun, nofun⟩)) fun _ => h

theorem posted (h : Lawful s) (m : MachineId) (yes : Bool) (hj : (s.machine m).state.judged = true) :
    Lawful (s.posted m yes) := by
  refine h.still (s.posted_reactions m yes hj) ((ScreensStill.plan _ s).trans (.modMachine m _ _ ?_))
  change ((s.machine m).takePosting yes).state = _ ↔ (s.machine m).state = _
  rw [MachineRec.takePosting_state yes hj]
  obtain e | e := (MachineState.judged_iff _).mp hj <;> rw [e] <;> cases yes <;> exact ⟨nofun, nofun⟩

/-- R99, R17: an evaluation, with the start it may bring. -/
theorem evaluate (h : Lawful s) (m : MachineId) : Lawful (s.evaluate m) := by
  obtain ⟨e, -⟩ | ⟨hj, e | e⟩ := s.evaluate_posted m
  · rw [e]; exact h
  · rw [e]; exact (h.posted m _ hj).onArmed m
  · rw [e]; exact (h.posted m _ hj).onDisarmed m

theorem evaluateScreen (h : Lawful s) (sc : ScreenId) : Lawful (s.evaluateScreen sc) := (h.evaluate _).evaluate _

end Lawful

end Sys2Proof.Machine

/-! ### Giving a machine the screen -/

namespace Sys2Proof.Machine

open Sys2Proof Host

@[simp] theorem State.releaseFault_screen (sc k : ScreenId) (s : State) :
    (s.releaseFault sc).screen k = if k = sc then { s.screen sc with faultClaim := .none } else s.screen k := by
  unfold State.releaseFault
  rw [State.modScreen_screen]
  rfl

theorem MachineRec.takeScreen_state {r : MachineRec} (h : r.state = .runup) (lost : Option Nat) :
    (r.takeScreen lost).state = .onScreen := by simp [MachineRec.takeScreen, h]

theorem State.openReady_runup {s : State} {m : MachineId} (h : s.openReady m = true) : (s.machine m).state = .runup := by
  simp only [State.openReady, Bool.and_eq_true, beq_iff_eq] at h
  exact h.1.1.1

/-- R107, R121, of the record: machine `m` is ON_SCREEN, and its sound selected. -/
def ScreenRec.openedBy (m : MachineId) (x : ScreenRec) : ScreenRec :=
  { x.discardTiming with onScreen := some m, mixer := .machine m }

/-- R107, of the record: the opening ends in SHOWING. -/
def ScreenRec.showNow (x : ScreenRec) : ScreenRec := { x with state := .showing, startGiven := false }

/-- R114, R121, of the record: the slot on deck becomes the current slot, in SHOWING. -/
def ScreenRec.onTo (deck : Option SlotIx) (x : ScreenRec) : ScreenRec :=
  { x with current := deck, point := none, startGiven := false, startPending := false, state := .showing }

/-- R114, R115, of the record: machine `m` is ON_SCREEN after a swap, its sound over the outgoing machine's for the overlap. -/
def ScreenRec.swappedTo (m : MachineId) (x : ScreenRec) : ScreenRec :=
  { x.discardTiming with
    onScreen := some m
    darkHold := .stopped
    mixer := if x.overlap = 0 then .machine m else .both
    overlapLeft := x.overlap }

/-- R119, of the record: no machine is ON_SCREEN, the sound muted. -/
def ScreenRec.vacate (x : ScreenRec) : ScreenRec :=
  { x.discardTiming with onScreen := none, mixer := .mute, overlapLeft := 0, darkHold := .stopped }

/-- R119, of the record: the screen is DARK under its claim. -/
def ScreenRec.goDark (x : ScreenRec) : ScreenRec := { x with faultClaim := .dark, state := .dark }

theorem ScreenRec.vacate_goDark_law {sc : ScreenId} {x : ScreenRec} (hcurrent : x.current ≠ none) (hinterval : x.interval = none)
    (hset : x.overlap ≤ 12 ∧ x.margin ≤ 1000000 ∧ x.sound ≤ 15) : ScreenLaw sc x.vacate.goDark := by
  constructor <;> simp_all [ScreenRec.vacate, ScreenRec.goDark, ScreenRec.discardTiming, ScreenState.shows]

/-- R107, R114, R121, of the record: machine `m` has the screen, in SHOWING. -/
theorem ScreenLaw.given {sc : ScreenId} {x y : ScreenRec} {m : MachineId} (k : ScreenLaw sc x) (hm : screenOf m = sc)
    (hstate : y.state = .showing) (hon : y.onScreen = some m) (hcurrent : y.current ≠ none)
    (hinterval : x.interval = none ∧ y.interval = x.interval)
    (hmixer : y.mixer = .machine m ∧ y.overlapLeft = 0 ∨ y.mixer = .both ∧ 0 < y.overlapLeft ∧ y.overlapLeft ≤ 12)
    (hset : y.overlap = x.overlap ∧ y.margin = x.margin ∧ y.sound ≤ 15) (hgiven : y.startGiven = false) : ScreenLaw sc y := by
  obtain ⟨hoverlap, hmargin, hsound⟩ := hset
  have hsettings := k.settings
  refine ⟨by rw [hon, hstate]; rfl, fun j e => ?_, ?_, ?_, fun n e => ?_, ?_, fun j e => ?_, ?_, ?_, fun e => ?_,
    ⟨by rw [hoverlap]; exact hsettings.1, by rw [hmargin]; exact hsettings.2.1, hsound⟩, fun _ => hgiven, ?_, ?_, ?_, ?_⟩
  · rw [hon] at e; cases e; exact hm
  · rw [hstate]; exact iff_of_false hcurrent nofun
  · rw [hinterval.2, hinterval.1, hstate]; rfl
  · rw [hinterval.2, hinterval.1] at e; cases e
  · rw [hon]
    obtain ⟨e, -⟩ | ⟨e, -⟩ := hmixer <;> rw [e] <;> exact ⟨nofun, nofun⟩
  · obtain ⟨e', -⟩ | ⟨e', -⟩ := hmixer
    · rw [e'] at e; cases e; exact hon
    · rw [e'] at e; cases e
  · obtain ⟨e', hleft⟩ | ⟨e', hleft, -⟩ := hmixer
    · rw [e', hleft]; exact ⟨nofun, nofun⟩
    · rw [e']; exact iff_of_true rfl hleft
  · obtain ⟨-, hleft⟩ | ⟨-, -, hleft⟩ := hmixer
    · rw [hleft]; exact Nat.zero_le _
    · exact hleft
  · rw [hon] at e; cases e
  all_goals (intro e; simp [hstate] at e)

/-- After a run of cues a last change of the record settles the screens, whatever sound level the cues have set. -/
theorem Between.lawAfterCues {sc : ScreenId} {on : Option MachineId} {u w : State} (h : Between sc on u) (k : CuesRun sc u w)
    (f : ScreenRec → ScreenRec) (hf : ∀ x, (f x).overlap = x.overlap ∧ (f x).margin = x.margin ∧ (f x).sound = x.sound
      ∧ (f x).faultClaim = x.faultClaim)
    {x : ScreenRec} (hx : u.screen sc = x) (hlaw : ∀ n, n ≤ 15 → ScreenLaw sc (f { x with sound := n }))
    (hon : ∀ n, (f { x with sound := n }).onScreen = on) : ScreensLaw (w.modScreen sc f) := by
  subst hx
  obtain ⟨n, hn, hin⟩ := k.screen
  have hrec : (w.modScreen sc f).screen sc = f { u.screen sc with sound := n } := by
    rw [State.modScreen_screen, if_pos rfl, hn]
  refine ((h.cues k).modScreen f hf).law ?_ ?_
  · rw [hrec]; exact hlaw n (hin h.settings.2.2)
  · rw [hrec]; exact hon n

namespace Lawful

variable {s t : State}

/-- A screen whose record is lawful and shows nothing has none ON_SCREEN. -/
theorem dark (h : Lawful s) {sc : ScreenId} (hshow : (s.screen sc).state.shows = false) : (s.screen sc).onScreen = none := by
  have := (h.screens.screen sc).onScreen
  rw [hshow] at this
  simpa using this

theorem noInterval (h : Lawful s) {sc : ScreenId} (hstate : (s.screen sc).state ≠ .interval) :
    (s.screen sc).interval = none := by
  have := (h.screens.screen sc).interval
  rw [beq_eq_false_iff_ne.mpr hstate] at this
  simpa using this

theorem current (h : Lawful s) {sc : ScreenId} (hstate : (s.screen sc).state ≠ .idle) : (s.screen sc).current ≠ none :=
  fun e => hstate ((h.screens.screen sc).current.mp e)

/-- R107: the opened machine takes the screen. -/
theorem openingTake (h : Lawful s) (sc : ScreenId) : Lawful (s.openingTake sc) := by
  unfold State.openingTake
  split
  · exact h
  next m hw =>
    have hm := h.plan.waitedOn_screen hw
    split
    next hready =>
      obtain ⟨hopening, hready⟩ := hready
      have hnone := h.dark (sc := sc) (by rw [hopening]; rfl)
      have hfree : Between sc none s := by simpa [hnone] using Between.ofLaw h.screens sc
      have htaken := (((hfree.takes m (MachineRec.takeScreen none) hm
        (MachineRec.takeScreen_state (State.openReady_runup hready) none)).modScreen
          (ScreenRec.openedBy m) fun _ => ⟨rfl, rfl, rfl, rfl⟩).releaseFault)
      have hcues := CuesRun.handOver (sc := sc) m
        (((s.modMachine m (MachineRec.takeScreen none)).modScreen sc (ScreenRec.openedBy m)).releaseFault sc)
      have hrec : (((s.modMachine m (MachineRec.takeScreen none)).modScreen sc (ScreenRec.openedBy m)).releaseFault sc).screen sc
          = { (s.screen sc).openedBy m with faultClaim := .none } := by simp
      have k := h.screens.screen sc
      have hlaw := htaken.lawAfterCues hcues ScreenRec.showNow (fun _ => ⟨rfl, rfl, rfl, rfl⟩) hrec
        (fun n hn => k.given hm rfl rfl (h.current (sc := sc) (by rw [hopening]; decide))
          ⟨h.noInterval (by rw [hopening]; decide), rfl⟩ (.inl ⟨rfl, (k.silent hnone).2.1⟩) ⟨rfl, rfl, hn⟩ rfl) fun _ => rfl
      exact evaluateScreen (h.react (.tail (Reactions.handOver sc m (Reactions.releaseFault sc
        (.tail (.tail .refl (.order m (.takeScreen none) s trivial)) (.screen sc (ScreenRec.openedBy m) _ fun _ => ⟨rfl, rfl, rfl⟩))))
        (.screen sc ScreenRec.showNow _ fun _ => ⟨rfl, rfl, rfl⟩)) hlaw) sc
    · exact h

/-- R119: entry to DARK of a screen on which no machine stands any more. -/
theorem enterDark {sc : ScreenId} (h : Lawful s) (r : Reactions s t) (hfree : Between sc none t)
    (hcurrent : (t.screen sc).current ≠ none) (hinterval : (t.screen sc).interval = none) (c : DarkCause) (m : MachineId)
    (f : Nat) : Lawful (t.enterDark sc c m f) := by
  have hdark := (hfree.modScreen ScreenRec.vacate fun _ => ⟨rfl, rfl, rfl, rfl⟩).placeFault 4 Config.faultFade
    ScreenRec.goDark fun _ => ⟨rfl, rfl, rfl, nofun⟩
  have hrec : (((t.modScreen sc ScreenRec.vacate).placeScene sc .fault 4 Config.faultFade).modScreen sc
      ScreenRec.goDark).screen sc = (t.screen sc).vacate.goDark := by
    rw [State.modScreen_screen, if_pos rfl]
    exact congrArg ScreenRec.goDark ((State.modScreen_screen sc sc _ t).trans (if_pos rfl))
  have hlaw := hdark.law (by rw [hrec]; exact ScreenRec.vacate_goDark_law hcurrent hinterval hfree.settings) (by rw [hrec]; rfl)
  exact evaluateScreen (report (h.react (.tail (Reactions.placeScene sc .fault 4 _ trivial
    (.tail r (.screen sc ScreenRec.vacate _ fun _ => ⟨rfl, rfl, rfl⟩)))
    (.screen sc ScreenRec.goDark _ fun _ => ⟨rfl, rfl, rfl⟩)) hlaw) _) sc

/-- The swap (R114), with the successor a machine of the screen. -/
theorem swap (h : Lawful s) {sc : ScreenId} {out m : MachineId} (hon : (s.screen sc).onScreen = some out)
    (hm : screenOf m = sc) (hdeck : s.onDeck sc ≠ none) : Lawful (s.swap sc out m) := by
  have k := h.screens.screen sc
  have hshow : (s.screen sc).state.shows = true := k.onScreen.symm.trans (by rw [hon]; rfl)
  have hcurrent := h.current (sc := sc) fun e => by rw [e] at hshow; cases hshow
  have hinterval := h.noInterval (sc := sc) fun e => by rw [e] at hshow; cases hshow
  have hout := k.pair out hon
  unfold State.swap
  dsimp only
  split
  next hstate =>
    have hheld : Between sc (some out) s := by simpa [hon] using Between.ofLaw h.screens sc
    have hgiven : Reactions s ((s.modMachine out MachineRec.giveUp).lampOff out) :=
      Reactions.lampOff out (.tail .refl (.order out .giveUp s trivial))
    have hfree : Between sc none ((s.modMachine out MachineRec.giveUp).lampOff out) :=
      (hheld.leaves MachineRec.giveUp hout (by simp [MachineRec.giveUp, hstate])).still (.lampOff out _)
    have hstill : ((s.modMachine out MachineRec.giveUp).lampOff out).screen sc = s.screen sc :=
      (ScreensStill.lampOff out _).screen sc
    generalize (s.modMachine out MachineRec.giveUp).lampOff out = u at hgiven hfree hstill ⊢
    split
    next hrunup =>
      have htaken := (hfree.takes m (MachineRec.takeScreen (some (s.pictureLostNow m))) hm
        (MachineRec.takeScreen_state hrunup _)).modScreen (ScreenRec.swappedTo m) fun _ => ⟨rfl, rfl, rfl, rfl⟩
      have hscreen : ((u.modMachine m (MachineRec.takeScreen (some (s.pictureLostNow m)))).modScreen sc
          (ScreenRec.swappedTo m)).screen sc = (s.screen sc).swappedTo m := by
        rw [State.modScreen_screen, if_pos rfl]
        exact congrArg (ScreenRec.swappedTo m) hstill
      have hreact : Reactions s ((u.modMachine m (MachineRec.takeScreen (some (s.pictureLostNow m)))).modScreen sc
          (ScreenRec.swappedTo m)) :=
        .tail (.tail hgiven (.order m (.takeScreen _) u trivial)) (.screen sc (ScreenRec.swappedTo m) _ fun _ => ⟨rfl, rfl, rfl⟩)
      -- the PICTURE claim, where one stands, is released; the record then differs in that claim alone
      have hreleased : ∀ w : State, Between sc (some m) w → Reactions s w →
          (∃ x, w.screen sc = { (s.screen sc).swappedTo m with faultClaim := x }) → Lawful ((State.evaluateScreen sc
            (((w.issueScene sc (s.onDeckEntry sc)).handOver sc m).modScreen sc (ScreenRec.onTo (s.onDeck sc)))).report
              (.swap sc out m (s.onDeck sc) (s.pictureLostNow m) (s.screen sc).point)) := by
        intro w hw hr ⟨x, hx⟩
        have hcues := (CuesRun.issueScene (sc := sc) (s.onDeckEntry sc) w).trans (CuesRun.handOver m _)
        have hlaw := hw.lawAfterCues hcues (ScreenRec.onTo (s.onDeck sc)) (fun _ => ⟨rfl, rfl, rfl, rfl⟩) hx (fun n hn => ?_)
          fun _ => rfl
        · exact report (evaluateScreen (h.react (.tail (Reactions.handOver sc m (Reactions.issueScene sc _ hr))
            (.screen sc (ScreenRec.onTo _) _ fun _ => ⟨rfl, rfl, rfl⟩)) hlaw) sc) _
        · refine k.given hm rfl rfl hdeck ⟨hinterval, rfl⟩ ?_ ⟨rfl, rfl, hn⟩ rfl
          by_cases hoverlap : (s.screen sc).overlap = 0
          · exact .inl ⟨by simp [ScreenRec.onTo, ScreenRec.swappedTo, hoverlap], hoverlap⟩
          · exact .inr ⟨by simp [ScreenRec.onTo, ScreenRec.swappedTo, hoverlap], Nat.pos_of_ne_zero hoverlap, k.settings.1⟩
      refine hreleased _ ?_ ?_ ?_
      · split
        · exact htaken.releaseFault
        · exact htaken
      · split
        · exact Reactions.releaseFault sc hreact
        · exact hreact
      · split
        · exact ⟨.none, by
            rw [State.releaseFault_screen, if_pos rfl]
            exact congrArg (fun y : ScreenRec => { y with faultClaim := .none }) hscreen⟩
        · exact ⟨_, hscreen⟩
    next => exact h.enterDark hgiven hfree (by rw [hstill]; exact hcurrent) (by rw [hstill]; exact hinterval) _ _ _
  next => exact h

/-- The recovery of a DARK screen (R121), with the successor a machine of the screen. -/
theorem recover (h : Lawful s) {sc : ScreenId} {m : MachineId} (hdark : (s.screen sc).state = .dark) (hm : screenOf m = sc)
    (hdeck : s.onDeck sc ≠ none) : Lawful (s.recover sc m) := by
  have k := h.screens.screen sc
  have hnone := h.dark (sc := sc) (by rw [hdark]; rfl)
  unfold State.recover
  dsimp only
  split
  next hrunup =>
    have hfree : Between sc none s := by simpa [hnone] using Between.ofLaw h.screens sc
    have htaken := ((hfree.takes m (MachineRec.takeScreen (some (s.pictureLostNow m))) hm
      (MachineRec.takeScreen_state hrunup _)).modScreen (ScreenRec.openedBy m) fun _ => ⟨rfl, rfl, rfl, rfl⟩).releaseFault
    have hrec : (((s.modMachine m (MachineRec.takeScreen (some (s.pictureLostNow m)))).modScreen sc
        (ScreenRec.openedBy m)).releaseFault sc).screen sc = { (s.screen sc).openedBy m with faultClaim := .none } := by simp
    have hcues := (CuesRun.issueScene (sc := sc) (s.onDeckEntry sc) (((s.modMachine m (MachineRec.takeScreen
      (some (s.pictureLostNow m)))).modScreen sc (ScreenRec.openedBy m)).releaseFault sc)).trans (CuesRun.handOver m _)
    have hlaw := htaken.lawAfterCues hcues (ScreenRec.onTo (s.onDeck sc)) (fun _ => ⟨rfl, rfl, rfl, rfl⟩) hrec
      (fun n hn => k.given hm rfl rfl hdeck ⟨h.noInterval (by rw [hdark]; decide), rfl⟩ (.inl ⟨rfl, (k.silent hnone).2.1⟩)
        ⟨rfl, rfl, hn⟩ rfl) fun _ => rfl
    exact report (evaluateScreen (h.react (.tail (Reactions.handOver sc m (Reactions.issueScene sc _ (Reactions.releaseFault sc
      (.tail (.tail .refl (.order m (.takeScreen (some (s.pictureLostNow m))) s trivial))
        (.screen sc (ScreenRec.openedBy m) _ fun _ => ⟨rfl, rfl, rfl⟩)))))
      (.screen sc (ScreenRec.onTo _) _ fun _ => ⟨rfl, rfl, rfl⟩)) hlaw) sc) _
  next => exact h

theorem testReady (h : Lawful s) (sc : ScreenId) : Lawful (s.testReady sc) := by
  unfold State.testReady
  split
  · exact h
  next m hsucc =>
    have hm := h.plan.successor_screen hsucc
    have hdeck : s.onDeck sc ≠ none := fun e => by
      unfold State.successor at hsucc
      rw [e] at hsucc
      cases hsucc
    split
    · split
      next out hst hon => exact h.swap hon hm hdeck
      next hst => exact h.recover hst hm hdeck
      next => exact h
    · exact h

end Lawful

end Sys2Proof.Machine

/-! ### Postings, points, reel ends and cues -/

namespace Sys2Proof.Machine

open Sys2Proof Host

/-- R113, R115, R124: figures, settings apart, that the law of a screen does not look at. -/
theorem ScreenLaw.figures {sc : ScreenId} {x y : ScreenRec} (k : ScreenLaw sc x)
    (hsame : y.state = x.state ∧ y.current = x.current ∧ y.onScreen = x.onScreen ∧ y.startGiven = x.startGiven
      ∧ y.startPending = x.startPending ∧ y.point = x.point ∧ y.mixer = x.mixer ∧ y.sound = x.sound ∧ y.overlap = x.overlap
      ∧ y.overlapLeft = x.overlapLeft ∧ y.margin = x.margin ∧ y.interval = x.interval ∧ y.faultClaim = x.faultClaim)
    (hdark : x.onScreen = none → y.darkHold = .stopped) : ScreenLaw sc y := by
  obtain ⟨e1, e2, e3, e4, e5, e6, e7, e8, e9, e10, e11, e12, e13⟩ := hsame
  obtain ⟨k1, k2, k3, k4, k5, k6, k7, k8, k9, k10, k11, k12, k13, k14, k15, k16⟩ := k
  constructor <;> simp_all

/-- R111, of the record: the point is reached, in SWAP_DUE. -/
def ScreenRec.pointReached (c : PointCause) (x : ScreenRec) : ScreenRec := { x with point := some c, state := .swapDue }

theorem ScreenLaw.pointReached {sc : ScreenId} {x : ScreenRec} (k : ScreenLaw sc x) (c : PointCause)
    (h : x.state = .showing ∨ x.state = .runup) : ScreenLaw sc (x.pointReached c) := by
  obtain ⟨k1, k2, k3, k4, k5, k6, k7, k8, k9, k10, k11, k12, k13, k14, k15, k16⟩ := k
  obtain e | e := h <;> constructor <;> simp_all [ScreenRec.pointReached, ScreenState.shows]

/-- R122, of the record: the successor has run its reel behind a closed douser. -/
def ScreenRec.missSuccessor (x : ScreenRec) : ScreenRec :=
  { x with
    startGiven := false
    point := none
    state := if x.state = .runup ∨ x.state = .swapDue then .showing else x.state }

theorem ScreenLaw.missSuccessor {sc : ScreenId} {x : ScreenRec} (k : ScreenLaw sc x) : ScreenLaw sc x.missSuccessor := by
  obtain ⟨k1, k2, k3, k4, k5, k6, k7, k8, k9, k10, k11, k12, k13, k14, k15, k16⟩ := k
  by_cases h : x.state = .runup ∨ x.state = .swapDue
  · have hshow : x.missSuccessor.state = .showing := if_pos h
    constructor <;> obtain e | e := h <;> simp_all [ScreenRec.missSuccessor, ScreenState.shows]
  · have hstate : x.missSuccessor.state = x.state := if_neg h
    constructor <;> simp_all [ScreenRec.missSuccessor]

/-- R125, of the record: the interval begins. -/
def ScreenRec.beginInterval (minutes : Nat) (x : ScreenRec) : ScreenRec :=
  { x with
    interval := some (if minutes = 0 then .wait else .seconds (minutes * 60))
    intervalSub := 0
    state := .interval }

/-- R118, of the record: the ON_SCREEN machine has ended its reel. -/
def ScreenRec.unscreen (x : ScreenRec) : ScreenRec := { x.discardTiming with onScreen := none, darkHold := .stopped }

theorem ScreenState.active_of_shows {st : ScreenState} (h : st.shows = true) : st.active := by
  constructor <;> intro e <;> rw [e] at h <;> cases h

namespace Lawful

variable {s t : State}

theorem releaseFault (h : Lawful s) (sc : ScreenId) (hdark : (s.screen sc).state ≠ .dark) : Lawful (s.releaseFault sc) := by
  refine h.react (Reactions.releaseFault sc .refl) ((Between.ofLaw h.screens sc).releaseFault.law ?_ (by simp))
  have k := h.screens.screen sc
  rw [State.releaseFault_screen, if_pos rfl]
  exact ⟨k.onScreen, k.pair, k.current, k.interval, k.intervalTime, k.muted, k.selected, k.both, k.overlapLeft, k.darkHold,
    k.settings, k.showing, k.runup, k.swapDue, k.ended, fun e => absurd e hdark⟩

theorem watchPicture (h : Lawful s) (sc : ScreenId) : Lawful (s.watchPicture sc) := by
  unfold State.watchPicture
  split
  · exact h
  next m hon =>
    dsimp only
    generalize htimed : s.modScreen sc _ = w
    have hlaw : Lawful w := by
      rw [← htimed]
      exact h.modScreen sc _ (fun _ => ⟨rfl, rfl, rfl⟩) (fun k => k.figures
        ⟨rfl, rfl, rfl, rfl, rfl, rfl, rfl, rfl, rfl, rfl, rfl, rfl, rfl⟩ fun e => by rw [hon] at e; cases e) ⟨rfl, rfl⟩
    refine ite (fun k => hlaw.releaseFault sc fun e => ?_) fun _ => hlaw
    have hstate : (s.screen sc).state = .dark := by
      rw [← htimed, State.modScreen_screen, if_pos rfl] at e
      exact e
    have hclaim := (h.screens.screen sc).dark hstate
    rw [k.2] at hclaim
    cases hclaim

theorem machinePosted (h : Lawful s) (m : MachineId) : Lawful (s.machinePosted m) := by
  have hwatched := ite (p := (s.screen (screenOf m)).onScreen = some m) (fun _ => h.watchPicture (screenOf m)) fun _ => h
  unfold State.machinePosted
  dsimp only
  generalize (if (s.screen (screenOf m)).onScreen = some m then s.watchPicture (screenOf m) else s) = c at hwatched
  have htaken := ite (p := c.waitedOn (screenOf m) = some m) (fun _ => hwatched.openingTake (screenOf m)) fun _ => hwatched
  exact ite (fun _ => htaken.testReady _) fun _ => htaken

theorem lampPosted (h : Lawful s) (m : MachineId) : Lawful (s.lampPosted m) := by
  have hstruck := ite (p := s.waitedOn (screenOf m) = some m ∧ (s.screen (screenOf m)).startGiven = true
    ∧ (s.lamp m).state = .dark) (fun _ => h.strikeRequest m) fun _ => h
  unfold State.lampPosted
  dsimp only
  generalize (if s.waitedOn (screenOf m) = some m ∧ (s.screen (screenOf m)).startGiven = true
    ∧ (s.lamp m).state = .dark then s.strikeRequest m else s) = c at hstruck
  exact machinePosted (ite (fun _ => hstruck.openingStep _) fun _ => hstruck) m

theorem lampSettled (h : Lawful s) (m : MachineId) (x : LampState) : Lawful (s.lampSettled m x) :=
  evaluate (ite (fun _ => h) fun _ => h.lampPosted m) m

/-- A start falls due on an active screen (R109). -/
theorem startDue (h : Lawful s) (sc : ScreenId) (c : MotorCause) (missed : Bool) (hactive : (s.screen sc).state.active) :
    Lawful (s.startDue sc c missed) := by
  unfold State.startDue
  refine ite (fun _ => ?_) fun _ => h
  dsimp only
  split
  next m hm =>
    have hsc : screenOf m = sc := by
      split at hm
      · cases hm
      next k hk =>
        split at hm
        · cases hm
          exact h.plan.successor_screen hk
        · cases hm
    subst hsc
    exact h.startSuccessor m c hactive
  next => exact (h.pend sc hactive).reportIf _ _

/-- The screens after a start that falls due: an active screen stays active. -/
theorem reachPoint (h : Lawful s) (sc : ScreenId) (c : PointCause) (f : Nat) : Lawful (s.reachPoint sc c f) := by
  unfold State.reachPoint
  dsimp only
  refine ite (fun k => ?_) fun _ => h
  have hreached : Lawful (s.modScreen sc (ScreenRec.pointReached c)) :=
    h.modScreen sc _ (fun _ => ⟨rfl, rfl, rfl⟩) (fun l => l.pointReached c k.1) ⟨rfl, rfl⟩
  refine testReady (startDue (hreached.reportIf _ _) sc _ _ ?_) sc
  rw [(ScreensStill.reportIf _ _ _).screen, State.modScreen_screen, if_pos rfl]
  exact ⟨nofun, nofun⟩

/-- A change of the record's figures. -/
theorem figures (h : Lawful s) (sc : ScreenId) (f : ScreenRec → ScreenRec) (hset : KeepsSettings f)
    (hf : ∀ x, ScreenLaw sc x → ScreenLaw sc (f x)) (hkeep : ∀ x, (f x).onScreen = x.onScreen ∧ (f x).faultClaim = x.faultClaim) :
    Lawful (s.modScreen sc f) := h.modScreen sc f hset (hf _) (hkeep _)

theorem formTiming (h : Lawful s) (sc : ScreenId) (on : MachineId) (f : Nat) : Lawful (s.formTiming sc on f) := by
  unfold State.formTiming
  split
  all_goals
    refine h.figures sc _ (fun _ => ⟨rfl, rfl, rfl⟩) (fun x k => ?_) fun _ => ⟨rfl, rfl⟩
    exact k.figures ⟨rfl, rfl, rfl, rfl, rfl, rfl, rfl, rfl, rfl, rfl, rfl, rfl, rfl⟩ k.darkHold

theorem strikePoint (h : Lawful s) (sc : ScreenId) (on : MachineId) : Lawful (s.strikePoint sc on) := by
  unfold State.strikePoint
  split
  · exact ite (fun _ => h.strikeRequest _) fun _ => h
  · exact h

theorem startPointReached (h : Lawful s) (sc : ScreenId) (hactive : (s.screen sc).state.active) :
    Lawful (s.startPointReached sc) := by
  unfold State.startPointReached
  split
  · exact ite (fun _ => h.startDue _ _ _ hactive) fun _ => h
  · exact h

theorem footagePoint (h : Lawful s) (sc : ScreenId) (f : Nat) : Lawful (s.footagePoint sc f) := by
  unfold State.footagePoint
  split
  · exact ite (fun _ => h.reachPoint _ _ f) fun _ => h
  · exact ite (fun _ => h.reachPoint _ _ f) fun _ => h
  · exact h

theorem overlapStep (h : Lawful s) (sc : ScreenId) (m : MachineId) (hon : (s.screen sc).onScreen = some m) :
    Lawful (s.overlapStep sc m) :=
  h.modScreen sc _ (fun x => by split <;> exact ⟨rfl, rfl, rfl⟩) (fun k => k.overlapStep m hon)
    ⟨by split <;> rfl, by split <;> rfl⟩

theorem formTiming_state (sc : ScreenId) (on : MachineId) (f : Nat) (s : State) :
    ((s.formTiming sc on f).screen sc).state = (s.screen sc).state := by
  unfold State.formTiming
  split <;> simp [ScreenRec.discardTiming]

theorem strikePoint_still (sc : ScreenId) (on : MachineId) (s : State) : ScreensStill s (s.strikePoint sc on) := by
  unfold State.strikePoint
  split
  · exact .ite (fun _ => .strikeRequest _ s) fun _ => .refl s
  · exact .refl s

theorem frameNotice (h : Lawful s) (m : MachineId) : Lawful (s.frameNotice m) := by
  unfold State.frameNotice
  dsimp only
  refine machinePosted (ite (fun k => ?_) fun _ => h) m
  have hstepped := h.overlapStep (screenOf m) m k.1
  split
  all_goals first
    | exact hstepped
    | (rename_i hstate
       refine footagePoint (startPointReached (strikePoint (hstepped.formTiming _ m _) _ m) _ ?_) _ _
       rw [(strikePoint_still _ _ _).screen, formTiming_state, hstate]
       exact ⟨nofun, nofun⟩)

/-! ### The end of a reel -/

theorem outgoingReelEnds (h : Lawful s) (m : MachineId) : Lawful (s.outgoingReelEnds m) :=
  h.still (Reactions.outgoingReelEnds m .refl) (.outgoingReelEnds m s)

/-- R118, R126: the screen goes IDLE. -/
theorem goIdle {sc : ScreenId} (h : Lawful s) (r : Reactions s t) (hfree : Between sc none t) :
    Lawful (t.modScreen sc ScreenRec.goIdle) := by
  refine h.react (.tail r (.screen sc _ _ fun _ => ⟨rfl, rfl, rfl⟩))
    ((hfree.modScreen ScreenRec.goIdle fun _ => ⟨rfl, rfl, rfl, rfl⟩).law ?_ ?_)
  · rw [State.modScreen_screen, if_pos rfl]
    have hset := hfree.settings
    constructor <;> simp_all [ScreenRec.goIdle, ScreenRec.discardTiming, ScreenState.shows]
  · rw [State.modScreen_screen, if_pos rfl]
    rfl

theorem endProgramme {sc : ScreenId} (h : Lawful s) (r : Reactions s t) (hfree : Between sc none t) :
    Lawful (t.endProgramme sc) :=
  report (evaluateScreen (h.goIdle (Reactions.releaseFault sc (Reactions.releaseThree sc .cue trivial r))
    (hfree.still (.releaseThree sc (by decide) t)).releaseFault) sc) _

theorem enterInterval {sc : ScreenId} (h : Lawful s) (r : Reactions s t) (hfree : Between sc none t)
    (hrec : (t.screen sc).current ≠ none ∧ (t.screen sc).onScreen = none ∧ (t.screen sc).darkHold = .stopped) {k : Nat}
    (hk : k ≤ 30) : Lawful (t.enterInterval sc k) := by
  have hmuted := ((hfree.modScreen (fun x => { x with mixer := .mute, overlapLeft := 0 })
    fun _ => ⟨rfl, rfl, rfl, rfl⟩).releaseFault.still (.placeScene sc (r := .cue) (by decide) 3 Config.intervalFade _)).modScreen
      (ScreenRec.beginInterval k) fun _ => ⟨rfl, rfl, rfl, rfl⟩
  have hscreen : (((((t.modScreen sc fun x => { x with mixer := .mute, overlapLeft := 0 }).releaseFault sc).placeScene sc .cue 3
      Config.intervalFade).modScreen sc (ScreenRec.beginInterval k)).screen sc)
      = { t.screen sc with mixer := .mute, overlapLeft := 0, faultClaim := .none }.beginInterval k := by
    rw [State.modScreen_screen, if_pos rfl, (ScreensStill.placeScene sc (r := .cue) (by decide) 3 _ _).screen]
    simp
  have hset := hfree.settings
  obtain ⟨hcurrent, hon, hhold⟩ := hrec
  refine report (evaluateScreen (h.react (.tail (Reactions.placeScene sc .cue 3 _ trivial (Reactions.releaseFault sc
    (.tail r (.screen sc (fun x => { x with mixer := .mute, overlapLeft := 0 }) _ fun _ => ⟨rfl, rfl, rfl⟩))))
    (.screen sc (ScreenRec.beginInterval k) _ fun _ => ⟨rfl, rfl, rfl⟩)) (hmuted.law ?_ ?_)) sc) _
  · rw [hscreen]
    refine ⟨by simp [ScreenRec.beginInterval, hon, ScreenState.shows], by simp [ScreenRec.beginInterval, hon],
      by simp [ScreenRec.beginInterval, hcurrent], by simp [ScreenRec.beginInterval], fun n e => ?_, ?_, ?_, ?_, ?_, fun _ => hhold,
      hset, ?_, ?_, ?_, ?_, ?_⟩
    · simp only [ScreenRec.beginInterval] at e
      split at e
      · cases e
      · cases e; omega
    all_goals simp [ScreenRec.beginInterval, hon]
  · rw [hscreen]
    exact hon

/-- The end of the reel of the ON_SCREEN machine, which has stopped (R118). -/
theorem onScreenReelEnds {sc : ScreenId} (h : Lawful s) (r : Reactions s t) (hfree : Between sc none t)
    (hrec : t.screen sc = s.screen sc) (hshow : (s.screen sc).state.shows = true) (m : MachineId) :
    Lawful (t.onScreenReelEnds sc m) := by
  have hcurrent := h.current (sc := sc) fun e => by rw [e] at hshow; cases hshow
  have hinterval := h.noInterval (sc := sc) fun e => by rw [e] at hshow; cases hshow
  have hentries : EntriesLaw t := EntriesLaw.keeper.react h.entries r
  unfold State.onScreenReelEnds
  split
  next e => exact absurd (by rw [← hrec]; exact e) hcurrent
  next n _ =>
    dsimp only
    -- after the slot's notice and its report the record names no machine
    have hended : ∀ w : State, Reactions s w → ScreensStill t w → Reactions s (w.modScreen sc ScreenRec.unscreen)
        ∧ Between sc none (w.modScreen sc ScreenRec.unscreen)
        ∧ (w.modScreen sc ScreenRec.unscreen).screen sc = (s.screen sc).unscreen := fun w hr hw =>
      ⟨.tail hr (.screen sc _ _ fun _ => ⟨rfl, rfl, rfl⟩), (hfree.still hw).modScreen _ fun _ => ⟨rfl, rfl, rfl, rfl⟩, by
        rw [State.modScreen_screen, if_pos rfl, hw.screen, hrec]⟩
    have hshown := Reactions.slotNotice sc n .shown (.inl rfl) r
    have hstill := ScreensStill.slotNotice sc n .shown t
    have hgone : ∀ w : State, Reactions s w → ScreensStill t w → ∀ c f,
        Lawful ((w.modScreen sc ScreenRec.unscreen).enterDark sc c m f) := fun w hr hw c f => by
      obtain ⟨hr', hfree', hscreen⟩ := hended w hr hw
      exact h.enterDark hr' hfree' (by rw [hscreen]; exact hcurrent) (by rw [hscreen]; exact hinterval) c m f
    cases hentry : (t.slot sc n).entry with
    | none => exact hgone _ hshown hstill _ _
    | some e =>
      dsimp only
      have hr := Reactions.reportIf e.note (.reelEnd sc n e.reel) hshown
      have hw := hstill.trans (.reportIf e.note (.reelEnd sc n e.reel) _)
      obtain ⟨hr', hfree', hscreen⟩ := hended _ hr hw
      refine ite (fun _ => h.endProgramme hr' hfree') fun _ => ?_
      cases hint : e.int with
      | some k =>
        exact h.enterInterval hr' hfree' (by rw [hscreen]; exact ⟨hcurrent, rfl, rfl⟩) ((hentries sc n e hentry).int k hint)
      | none => exact hgone _ hr hw _ _

theorem openingReelEnds (h : Lawful s) (sc : ScreenId) (hopening : (s.screen sc).state = .opening) :
    Lawful (s.openingReelEnds sc) := by
  unfold State.openingReelEnds
  split
  · exact h
  next n _ =>
    have hnone := h.dark (sc := sc) (by rw [hopening]; rfl)
    have hfree : Between sc none s := by simpa [hnone] using Between.ofLaw h.screens sc
    exact evaluateScreen (h.goIdle (Reactions.releaseFault sc (.tail (Reactions.slotNotice sc n .cut (.inr rfl) .refl) (.report _ _)))
      ((hfree.still (.slotNotice sc n .cut s)).still (.report _ _)).releaseFault) sc

theorem successorReelEnds (h : Lawful s) (sc : ScreenId) : Lawful (s.successorReelEnds sc) := by
  unfold State.successorReelEnds
  split
  · exact h
  next n _ =>
    have hcut : Lawful (s.slotNotice sc n .cut) := h.still (Reactions.slotNotice sc n .cut (.inr rfl) .refl) (.slotNotice sc n .cut s)
    exact evaluateScreen (report (hcut.modScreen sc ScreenRec.missSuccessor (fun _ => ⟨rfl, rfl, rfl⟩)
      (fun k => k.missSuccessor) ⟨rfl, rfl⟩) _) sc

/-- A machine leaves a running state for one that is not ON_SCREEN: the law stands unless it had the screen. -/
theorem leftScreen (h : Lawful s) (m : MachineId) (f : MachineRec → MachineRec) (r : Reactions s (s.modMachine m f))
    (hf : (f (s.machine m)).state ≠ .onScreen) :
    ((s.screen (screenOf m)).onScreen = some m → Between (screenOf m) none (s.modMachine m f))
    ∧ ((s.screen (screenOf m)).onScreen ≠ some m → Lawful (s.modMachine m f)) := by
  refine ⟨fun hon => ?_, fun hon => h.still r (.modMachine m f s (iff_of_false hf ?_))⟩
  · have hheld := Between.ofLaw h.screens (screenOf m)
    rw [hon] at hheld
    exact hheld.leaves f rfl hf
  · rw [h.screens.machine m]
    exact hon

theorem reelEnd (h : Lawful s) (m : MachineId) (hrun : (s.machine m).state.running = true) : Lawful (s.reelEnd m) := by
  have hstop : (s.machine m).enterStopped.state ≠ .onScreen := by
    simp [MachineRec.enterStopped, MachineRec.clearRing]
  have r : Reactions s (s.modMachine m MachineRec.enterStopped) := .tail .refl (.order m .stop s hrun)
  obtain ⟨hheld, hfree⟩ := h.leftScreen m MachineRec.enterStopped r hstop
  have hnotice : Lawful ((s.modMachine m MachineRec.enterStopped).reelEndNotice m (s.machine m).state) := by
    unfold State.reelEndNotice
    dsimp only
    by_cases hon : (s.screen (screenOf m)).onScreen = some m
    · have hstate : (s.machine m).state = .onScreen := (h.screens.machine m).mpr hon
      have hshow : (s.screen (screenOf m)).state.shows = true := (h.screens.screen _).onScreen.symm.trans (by rw [hon]; rfl)
      exact ite (fun e => by rw [hstate] at e; cases e) fun _ =>
        ite (fun _ => h.onScreenReelEnds r (hheld hon) rfl hshow m) fun e => absurd hon e
    · have hlaw := hfree hon
      refine ite (fun _ => (hlaw.outgoingReelEnds m).evaluateScreen _) fun _ => ite (fun e => absurd e hon) fun _ =>
        ite (fun _ => ite (fun e => hlaw.openingReelEnds _ e) fun _ => hlaw.successorReelEnds _) fun _ => hlaw
  exact lampSettled (hnotice.still (Reactions.lampOff m .refl) (.lampOff m _)) m _

theorem breakRun (h : Lawful s) (m : MachineId) (c : BreakCause) (hrun : (s.machine m).state.running = true) :
    Lawful (s.breakRun m c) := by
  have hbroken : ((s.machine m).enterBroken c).state ≠ .onScreen := by simp [MachineRec.enterBroken]
  have r : Reactions s (s.modMachine m (MachineRec.enterBroken c)) := .tail .refl (.order m (.fail c) s hrun)
  obtain ⟨hheld, hfree⟩ := h.leftScreen m (MachineRec.enterBroken c) r hbroken
  unfold State.breakRun State.breakMachine State.breakNotice
  dsimp only
  by_cases hon : (s.screen (screenOf m)).onScreen = some m
  · have hstate : (s.machine m).state = .onScreen := (h.screens.machine m).mpr hon
    have hshow : (s.screen (screenOf m)).state.shows = true := (h.screens.screen _).onScreen.symm.trans (by rw [hon]; rfl)
    have hcurrent := h.current (sc := screenOf m) fun e => by rw [e] at hshow; cases hshow
    have hinterval := h.noInterval (sc := screenOf m) fun e => by rw [e] at hshow; cases hshow
    have hreport := Reactions.report (.broke m c (s.machine m).frameCount) r
    have hbetween := (hheld hon).still (.report (.broke m c (s.machine m).frameCount) _)
    refine ite (fun e => by rw [hstate] at e; cases e) fun _ => ite (fun _ => ?_) fun e => absurd hon e
    split
    · exact h.enterDark hreport hbetween hcurrent hinterval _ _ _
    next n _ =>
      have hstill := ScreensStill.slotNotice (screenOf m) n .cut ((s.modMachine m (MachineRec.enterBroken c)).report
        (.broke m c (s.machine m).frameCount))
      refine h.enterDark (Reactions.slotNotice _ n .cut (.inr rfl) hreport) (hbetween.still hstill) ?_ ?_ _ _ _
      · rw [hstill.screen]; exact hcurrent
      · rw [hstill.screen]; exact hinterval
  · have hlaw := (hfree hon).report (.broke m c (s.machine m).frameCount)
    refine ite (fun _ => (hlaw.outgoingReelEnds m).evaluateScreen _) fun _ => ite (fun e => absurd e hon) fun _ =>
      ite (fun k => ?_) fun _ => hlaw
    have hactive : (s.screen (screenOf m)).state ≠ .idle ∧ (s.screen (screenOf m)).state ≠ .halted := by
      have hawaits : (s.screen (screenOf m)).state.awaits = true := k.2
      constructor <;> intro e <;> rw [e] at hawaits <;> cases hawaits
    exact evaluateScreen (hlaw.react (Reactions.successorLost _ .refl) (hlaw.screens.successorLost _ hactive.1 hactive.2)) _

end Lawful

end Sys2Proof.Machine

namespace Sys2Proof.Machine

open Sys2Proof Host

theorem MachineRec.stopOrder_offScreen (r : MachineRec) : r.stopOrder.state ≠ .onScreen := by
  unfold MachineRec.stopOrder
  split
  · simp [MachineRec.enterStopped, MachineRec.clearRing]
  next h => exact fun e => h (by rw [e]; rfl)

/-- R9: a machine of the pair takes a stop order; none but another machine of it is ON_SCREEN afterwards. -/
theorem Between.stopOrder {sc : ScreenId} {on : Option MachineId} {s : State} (h : Between sc on s) (m : MachineId)
    (hm : screenOf m = sc) : Between sc (if on = some m then none else on) (s.modMachine m MachineRec.stopOrder) := by
  refine h.modMachine m _ hm (iff_of_false (MachineRec.stopOrder_offScreen _) ?_) fun j hj => ?_
  · split
    · nofun
    next e => exact e
  · split
    next e => exact iff_of_false (fun q => hj (Option.some.inj (q.symm.trans e))) nofun
    next => exact Iff.rfl

/-! ### A screen in OPENING stays there through an evaluation -/

theorem State.loopCheck_opening (m : MachineId) {s : State} {k : ScreenId} (h : (s.screen k).state = .opening) :
    ((s.loopCheck m).screen k).state = .opening := by
  unfold State.loopCheck
  split
  · unfold State.successorLost State.breakMachine
    rw [State.modScreen_screen]
    split
    next e => subst e; simp [h]
    next => simpa using h
  · exact h

theorem State.giveStart_opening (m : MachineId) (c : MotorCause) {s : State} {k : ScreenId} (h : (s.screen k).state = .opening) :
    ((s.giveStart m c).screen k).state = .opening := by
  unfold State.giveStart
  rw [State.report_screen, State.modScreen_screen]
  split
  next e => subst e; exact h
  next => exact h

theorem State.openingStep_opening (sc : ScreenId) {s : State} {k : ScreenId} (h : (s.screen k).state = .opening) :
    ((s.openingStep sc).screen k).state = .opening := by
  unfold State.openingStep
  split
  · exact h
  · split
    · split
      · rw [(ScreensStill.strikeRequest _ s).screen]; exact h
      · dsimp only
        split
        · exact loopCheck_opening _ (by rw [(ScreensStill.placeScene _ (by decide) _ _ _).screen]; exact giveStart_opening _ _ h)
        · exact loopCheck_opening _ (giveStart_opening _ _ h)
      all_goals exact h
    · exact h

theorem State.evaluate_opening (m : MachineId) {s : State} (h : (s.screen (screenOf m)).state = .opening) :
    ((s.evaluate m).screen (screenOf m)).state = .opening := by
  obtain ⟨e, -⟩ | ⟨-, e | e⟩ := s.evaluate_posted m
  · rw [e]; exact h
  · have hposted : ((s.posted m (s.armedCondition m)).screen (screenOf m)).state = .opening := h
    rw [e]
    unfold State.onArmed
    dsimp only
    split
    · rw [hposted]
      exact openingStep_opening _ hposted
    · exact h
  · rw [e]
    unfold State.onDisarmed
    dsimp only
    split
    · rw [State.modScreen_screen, if_pos rfl]; exact h
    · exact h

theorem State.evaluateScreen_opening (sc : ScreenId) {s : State} (h : (s.screen sc).state = .opening) :
    ((s.evaluateScreen sc).screen sc).state = .opening := by
  have hlower := State.evaluate_opening (lowerOf sc) (s := s) (by rw [screenOf_lowerOf]; exact h)
  rw [screenOf_lowerOf] at hlower
  have hupper := State.evaluate_opening (upperOf sc) (s := s.evaluate (lowerOf sc)) (by rw [screenOf_upperOf]; exact hlower)
  rwa [screenOf_upperOf] at hupper

namespace Lawful

variable {s t : State}

/-! ### Cues -/

theorem rejectCue (h : Lawful s) (m : MachineId) (c : Option Nat) (f : Nat) (r : RejectReason) : Lawful (s.rejectCue m c f r) :=
  report (h.still (.tail .refl (.order m .reject s trivial)) (.modMachine m _ s Iff.rfl)) _

theorem execEffect (h : Lawful s) (sc : ScreenId) (m : MachineId) (c : EffectCode) (f : Nat) : Lawful (s.execEffect sc m c f) :=
  h.react (Reactions.execEffect sc m c f .refl) ((CuesRun.execEffect m c f s).law h.screens)

theorem deferCue (h : Lawful s) (m : MachineId) (c : EffectCode) (f : Nat) : Lawful (s.deferCue m c f) :=
  ite (fun k => report (h.still (.tail .refl (.defer m ⟨c, f⟩ s k)) (.decoder m _ s)) _) fun _ => h.rejectCue m _ f _

theorem effectCue (h : Lawful s) (m : MachineId) (c : EffectCode) (f : Nat) : Lawful (s.effectCue m c f) := by
  unfold State.effectCue
  split
  · exact h.execEffect _ m c f
  · exact h.deferCue m c f
  all_goals exact h.rejectCue m _ f _

theorem changeoverCue (h : Lawful s) (m : MachineId) (i : Bool) (f : Nat) : Lawful (s.changeoverCue m i f) := by
  have hreject : ∀ r, Lawful (s.rejectCue m (some (if i then 1 else 2)) f r) := fun r => h.rejectCue m _ f r
  unfold State.changeoverCue
  dsimp only
  split
  · refine ite (fun _ => hreject _) fun _ => ite (fun _ => ite (fun _ => ?_) fun _ => hreject _) fun _ =>
      ite (fun _ => (h.report _).reachPoint _ _ f) fun _ => hreject _
    split
    all_goals first
      | exact h.report _
      | (rename_i hstate
         exact (h.report _).startDue _ _ _ (ScreenState.active_of_shows (by
           rw [State.report_screen, hstate]; rfl)))
  · exact hreject _

theorem disposeCode (h : Lawful s) (m : MachineId) (p f : Nat) : Lawful (s.disposeCode m p f) := by
  unfold State.disposeCode
  split
  · exact ite (fun _ => h.changeoverCue m _ f) fun _ => h.rejectCue m _ f _
  · exact ite (fun _ => h.changeoverCue m _ f) fun _ => h.rejectCue m _ f _
  · exact h.effectCue m _ f
  · exact h.effectCue m _ f
  · exact h.effectCue m _ f
  · exact h.effectCue m _ f
  · exact h.rejectCue m _ f _

theorem groupNews (h : Lawful s) (m : MachineId) (n : GroupNews) : Lawful (s.groupNews m n) := by
  unfold State.groupNews
  dsimp only
  split
  · exact h
  · exact ite (fun _ => h.report _) fun _ => h.rejectCue m _ _ _
  · exact ite (fun _ => h.report _) fun _ => h.disposeCode m _ _

/-! ### Openings and ABORT -/

theorem openSlot (h : Lawful s) {sc : ScreenId} (hnone : (s.screen sc).onScreen = none) (n : SlotIx) :
    Lawful (s.openSlot sc n).1 := by
  have hentered : Lawful (s.modScreen sc (ScreenRec.enterOpening n)) :=
    h.modScreen sc _ (fun _ => ⟨rfl, rfl, rfl⟩) (fun k => k.enterOpening n hnone) ⟨rfl, rfl⟩
  have hopened := hentered.evaluateScreen sc
  unfold State.openSlot
  dsimp only
  split
  · exact hopened.openingStep sc
  · refine hopened.pend sc ?_
    rw [State.evaluateScreen_opening sc (by rw [State.modScreen_screen, if_pos rfl]; rfl)]
    exact ⟨nofun, nofun⟩

/-- A machine of ABORT's screen (R126). -/
theorem abortMachine_between {sc : ScreenId} {on : Option MachineId} (h : Between sc on s) (m : MachineId) (hm : screenOf m = sc) :
    Between sc (if on = some m then none else on) (s.abortMachine m) := by
  have hstopped := ((h.stopOrder m hm).still (.lampOff m _)).still (.decoder m (fun d => { d with deferred := [] }) _)
  generalize (if on = some m then none else on) = on' at hstopped ⊢
  unfold State.abortMachine
  dsimp only
  split
  · exact hstopped.still (.outgoingReelEnds m _)
  · exact hstopped

theorem abort (h : Lawful s) (sc : ScreenId) : Lawful (s.abort sc) := by
  have hreact : ∀ {c : State} (m : MachineId), Reactions s c → Reactions s (c.abortMachine m) := fun m r => by
    have hstopped := Reactions.lampOff m (Reactions.stopOrder m r)
    have hemptied := hstopped.tail (.emptyDeferred m _)
    unfold State.abortMachine
    dsimp only
    split
    · exact Reactions.outgoingReelEnds m hemptied
    · exact hemptied
  have hstopped := abortMachine_between (abortMachine_between (Between.ofLaw h.screens sc) (lowerOf sc) (screenOf_lowerOf sc))
    (upperOf sc) (screenOf_upperOf sc)
  have hnone : (if (if (s.screen sc).onScreen = some (lowerOf sc) then none else (s.screen sc).onScreen) = some (upperOf sc)
      then none else if (s.screen sc).onScreen = some (lowerOf sc) then none else (s.screen sc).onScreen) = none := by
    cases hon : (s.screen sc).onScreen with
    | none => rfl
    | some m =>
      obtain e | e := (screenOf_eq_iff m sc).mp ((h.screens.screen sc).pair m hon)
      · simp [e]
      · by_cases q : upperOf sc = lowerOf sc
        · cases sc <;> cases q
        · simp [e, q]
  rw [hnone] at hstopped
  have r := hreact (upperOf sc) (hreact (lowerOf sc) .refl)
  unfold State.abort
  dsimp only
  generalize (s.abortMachine (lowerOf sc)).abortMachine (upperOf sc) = c at r hstopped
  have hcut : Reactions s (c.cutCurrent sc) ∧ ScreensStill c (c.cutCurrent sc) := by
    unfold State.cutCurrent
    split
    · exact ⟨r, .refl c⟩
    · exact ⟨Reactions.slotNotice _ _ _ (.inr rfl) r, .slotNotice _ _ _ c⟩
  exact evaluateScreen (h.goIdle (Reactions.releaseFault sc (Reactions.releaseThree sc .cue trivial hcut.1))
    ((hstopped.still hcut.2).still (.releaseThree sc (by decide) _)).releaseFault) sc

end Lawful

end Sys2Proof.Machine

/-! ### Every command keeps the law of the screens -/

namespace Sys2Proof.Machine

open Sys2Proof Host

theorem ScreenLaw.elapse {sc : ScreenId} {x : ScreenRec} (k : ScreenLaw sc x) (dt : Nat) : ScreenLaw sc (x.elapse dt) := by
  have hheld : ScreenLaw sc { x with darkHold := x.darkHold.advance dt } :=
    k.figures ⟨rfl, rfl, rfl, rfl, rfl, rfl, rfl, rfl, rfl, rfl, rfl, rfl, rfl⟩ fun e => by rw [k.darkHold e]; rfl
  unfold ScreenRec.elapse
  dsimp only
  split
  next n hn =>
    have hinterval := k.interval
    rw [hn] at hinterval
    refine ⟨hheld.onScreen, hheld.pair, hheld.current, hinterval, fun j e => ?_, hheld.muted, hheld.selected, hheld.both,
      hheld.overlapLeft, hheld.darkHold, hheld.settings, hheld.showing, hheld.runup, hheld.swapDue, hheld.ended, hheld.dark⟩
    cases e
    exact (Nat.sub_le _ _).trans (k.intervalTime n hn)
  next => exact hheld

/-- A fade step, a firing and a crossing leave which claims stand. -/
theorem Circuit.fadeStep_standing (h : Nat) (c : Circuit) (q : Rank) :
    ((c.fadeStep h).claims.get q).isSome = (c.claims.get q).isSome := by
  unfold Circuit.fadeStep
  split
  next r _ _ =>
    split
    next hclaim =>
      split
      · cases q <;> cases r <;> first | rfl | exact (congrArg Option.isSome hclaim).symm
      · rfl
    · rfl
  · rfl

theorem Circuit.dueStep_standing (h : Nat) (c : Circuit) (q : Rank) :
    ((c.dueStep h).claims.get q).isSome = (c.claims.get q).isSome := by
  unfold Circuit.dueStep
  split
  · exact Circuit.fadeStep_standing h c q
  · rfl

theorem Circuit.fire_claims (c : Circuit) : c.fire.claims = c.claims := by
  unfold Circuit.fire
  split <;> rfl

theorem Circuit.restart_fault (h : Nat) (c : Circuit) : (c.restart h).claims.fault = none := Circuit.release_self h .fault _

/-- R31, R5: a frame pulse leaves the state, but for the first AT_SPEED of a start. -/
theorem MachineRec.pulse_state (r : MachineRec) :
    r.pulse.state = r.state ∨ r.state = .starting ∧ r.pulse.state = .runup := by
  have hfirst : ∀ x : MachineRec, x.firstAtSpeed.state = x.state ∨ x.state = .starting ∧ x.firstAtSpeed.state = .runup := fun x => by
    unfold MachineRec.firstAtSpeed
    dsimp only
    split
    next e => exact .inr ⟨e, rfl⟩
    next => exact .inl rfl
  have hjudge : ∀ (x : MachineRec) (b : Bool),
      (x.judgeSpeed b).state = x.state ∨ x.state = .starting ∧ (x.judgeSpeed b).state = .runup := fun x b => by
    unfold MachineRec.judgeSpeed
    dsimp only
    generalize (if b = true then min Config.bandRun (x.inBandRun + 1) else 0) = ins
    generalize (if b = true then 0 else min Config.bandRun (x.outBandRun + 1)) = outs
    split
    · split
      · exact hfirst _
      · exact .inl rfl
    · split <;> exact .inl rfl
    · split <;> exact .inl rfl
    · exact .inl rfl
  have hperiod : ∀ x : MachineRec, x.enterPeriod.state = x.state ∨ x.state = .starting ∧ x.enterPeriod.state = .runup := fun x => by
    unfold MachineRec.enterPeriod MachineRec.formAverage
    split
    · dsimp only
      split
      · exact hjudge _ _
      · exact .inl rfl
    · exact .inl rfl
  have hcount : r.countFrame.state = r.state := by
    unfold MachineRec.countFrame
    split
    · rfl
    · split <;> rfl
  rw [← hcount]
  unfold MachineRec.pulse
  dsimp only
  split
  · exact hperiod _
  · exact .inl rfl

namespace Lawful

variable {s t : State}

theorem next (h : Lawful s) (hplan : PlanLaw t) (hentries : ∀ sc n, (t.slot sc n).entry = (s.slot sc n).entry)
    (k : ScreensStill s t) : Lawful t := ⟨hplan, h.entries.congr hentries, k.law h.screens⟩

theorem line (h : Lawful s) (f : LineUnit → LineUnit) : Lawful (s.modLine f) :=
  h.next (h.plan.congr (fun _ _ => rfl) (fun _ => rfl) (fun _ => rfl) (fun _ => id) fun _ => rfl) (fun _ _ => rfl) (.line f s)

theorem answer (h : Lawful s) (r : Reply) : Lawful (s.answer r) := h.line _

theorem decoder (h : Lawful s) (m : MachineId) (f : DecoderRec → DecoderRec) : Lawful (s.modDecoder m f) :=
  h.next (h.plan.congr (fun _ _ => rfl) (fun _ => rfl) (fun _ => rfl) (fun _ => id) fun _ => rfl) (fun _ _ => rfl) (.decoder m f s)

theorem fire (h : Lawful s) (f : FireUnit → FireUnit) : Lawful (s.modFire f) :=
  h.next (h.plan.modFire f) (fun _ _ => rfl) (.fire f s)

theorem machine (h : Lawful s) (m : MachineId) (f : MachineRec → MachineRec) (hplan : PlanLaw (s.modMachine m f))
    (k : (f (s.machine m)).state = .onScreen ↔ (s.machine m).state = .onScreen) : Lawful (s.modMachine m f) :=
  h.next hplan (fun _ _ => by rw [State.modMachine_slot]) (.modMachine m f s k)

theorem lamp (h : Lawful s) (m : MachineId) (f : LampRec → LampRec)
    (hlength : (f (s.lamp m)).boundLength = (s.lamp m).boundLength) : Lawful (s.modLamp m f) :=
  h.next (h.plan.ofLamp m f hlength) (fun _ _ => by rw [State.modLamp_slot]) (.lamp m f s)

theorem planStore (h : Lawful s) (f : PlanStore → PlanStore) (htables : (f s.plan).tables = s.plan.tables) :
    Lawful (s.modPlan f) :=
  have hslot : ∀ sc n, (s.modPlan f).slot sc n = s.slot sc n := fun sc n => congrArg (fun t => (t.get sc)[n]) htables
  h.next (h.plan.congr hslot (fun _ => rfl) (fun _ => rfl) (fun _ => id) fun _ => rfl) (fun sc n => by rw [hslot]) (.plan f s)

theorem lights (h : Lawful s) (f : HouseLights → HouseLights)
    (hf : ∀ k d, (((f s.lights).circuits.get k).get d).claims.fault.isSome = (s.circuit k d).claims.fault.isSome) :
    Lawful (s.modLights f) :=
  h.next (h.plan.congr (fun _ _ => rfl) (fun _ => rfl) (fun _ => rfl) (fun _ => id) fun _ => rfl) (fun _ _ => rfl)
    ⟨rfl, fun _ => Iff.rfl, hf⟩

theorem circuit (h : Lawful s) (sc : ScreenId) (c : CircuitId) (f : Nat → Circuit → Circuit)
    (hf : ∀ h x, (f h x).claims.fault.isSome = x.claims.fault.isSome) : Lawful (s.modCircuit sc c f) :=
  h.next (h.plan.congr (fun _ _ => rfl) (fun _ => rfl) (fun _ => rfl) (fun _ => id) fun _ => rfl) (fun _ _ => rfl)
    (.circuit sc c f s hf)

/-- A change of a screen's settings or its cue table. -/
theorem settings (h : Lawful s) (sc : ScreenId) (f : ScreenRec → ScreenRec) (hlaw : ScreenLaw sc (f (s.screen sc)))
    (hkeep : ∀ x, (f x).onScreen = x.onScreen ∧ (f x).faultClaim = x.faultClaim) : Lawful (s.modScreen sc f) :=
  ⟨h.plan.congr (fun _ _ => rfl) (fun _ => rfl) (fun _ => rfl) (fun _ => id) fun _ => rfl, h.entries.congr fun _ _ => rfl,
    h.screens.modScreen sc f hlaw (hkeep _).1 (hkeep _).2⟩

theorem elapse (h : Lawful s) (dt : Nat) : Lawful (s.elapse dt) := by
  refine ⟨h.plan.elapse dt, h.entries.congr fun sc n => by rw [State.elapse_slot], fun sc => ?_, fun m => ?_, fun sc c => ?_⟩
  · rw [State.elapse_screen]; exact (h.screens.screen sc).elapse dt
  · rw [State.elapse_machine, State.elapse_screen, (ScreenRec.elapse_kept dt _).2.2]
    exact h.screens.machine m
  · have hclaim : ((s.screen sc).elapse dt).faultClaim = (s.screen sc).faultClaim := by
      unfold ScreenRec.elapse; dsimp only; split <;> rfl
    rw [State.elapse_circuit, State.elapse_screen, hclaim]
    exact h.screens.fault sc c

theorem speedReport (h : Lawful s) (m : MachineId) (x : SpeedStatus) : Lawful (s.speedReport m x) := by
  unfold State.speedReport
  split
  · exact h.report _
  · exact h.report _
  · exact h

theorem pulse_onScreen (r : MachineRec) : r.pulse.state = .onScreen ↔ r.state = .onScreen := by
  obtain e | ⟨e, e'⟩ := r.pulse_state
  · rw [e]
  · rw [e, e']; exact ⟨nofun, nofun⟩

theorem framePulse (h : Lawful s) (m : MachineId) (foil : Bool) : Lawful (s.framePulse m foil) := by
  obtain ⟨-, -, -, hbound, hreel, hempty⟩ := MachineRec.pulse_kept (s.machine m)
  have hpulsed := (h.machine m MachineRec.pulse (h.plan.ofMachine m _ hbound hreel hempty) (pulse_onScreen _)).speedReport m
    (s.machine m).speed
  unfold State.framePulse
  dsimp only
  refine frameNotice (s := State.decoderNotice m foil _) ?_ m
  have hended := ite (p := State.atReelEnd _ m = true)
    (fun e => hpulsed.reelEnd m (Bool.and_eq_true _ _ ▸ e).1) fun _ => hpulsed
  unfold State.decoderNotice
  exact ite (fun _ => (hended.decoder m _).groupNews m _) fun _ => hended

theorem loopOpened (h : Lawful s) (m : MachineId) : Lawful (s.loopOpened m) :=
  ite (fun k => ite (fun _ => h.reelEnd m k) fun _ => h.breakRun m _ k) fun _ => h

theorem contactorFails (h : Lawful s) (m : MachineId) : Lawful (s.contactorFails m) := by
  unfold State.contactorFails
  refine ite (fun _ => ite (fun k => h.breakRun m _ k) fun _ => ite (fun k => ?_) fun _ => h) fun _ => h
  have hstate := (s.machine m).motorOff_state
  refine report (h.machine m MachineRec.motorOff (h.plan.ofMachine m _ ?_ ?_ ?_) (by rw [hstate])) _
  · unfold MachineRec.motorOff; split <;> rfl
  · unfold MachineRec.motorOff; split <;> rfl
  · rw [hstate]; exact id

theorem shortfallTest (h : Lawful s) (m : MachineId) : Lawful (s.shortfallTest m) :=
  h.still (Reactions.shortfallTest m .refl) (.shortfallTest m s)

theorem lampEvent (h : Lawful s) (m : MachineId) (f : LampRec → LampRec × LampNews)
    (hlength : (f (s.lamp m)).1.boundLength = (s.lamp m).boundLength) : Lawful (s.lampEvent m f) := by
  have hchanged := h.lamp m (fun _ => (f (s.lamp m)).1) hlength
  unfold State.lampEvent
  refine lampSettled (s := State.lampNews m _ _) ?_ m _
  unfold State.lampNews
  split
  · exact hchanged
  · exact (hchanged.shortfallTest m).report _
  · exact hchanged.report _

theorem exhaustTest (h : Lawful s) (m : MachineId) : Lawful (s.exhaustTest m) :=
  ite (fun _ => (h.lamp m _ rfl).report _) fun _ => h

theorem openOnDeck (h : Lawful s) {sc : ScreenId} (hnone : (s.screen sc).onScreen = none) (n : SlotIx) :
    Lawful (s.openOnDeck sc n) := (h.openSlot hnone n).reportIf _ _

theorem intervalEnds (h : Lawful s) (sc : ScreenId) : Lawful (s.intervalEnds sc) := by
  unfold State.intervalEnds
  split
  next hstate _ =>
    have hnone := h.dark (sc := sc) (by rw [hstate]; rfl)
    split
    · exact h.openOnDeck hnone _
    · exact h.endProgramme .refl (by simpa [hnone] using Between.ofLaw h.screens sc)
  · exact h

theorem darkHoldEnds (h : Lawful s) (sc : ScreenId) : Lawful (s.darkHoldEnds sc) := by
  unfold State.darkHoldEnds
  split
  next m _ hon =>
    have hplaced := (Between.ofLaw h.screens sc).placeFault 4 Config.faultFade
      (fun x => { x with faultClaim := .picture, darkHold := .ranOut }) fun _ => ⟨rfl, rfl, rfl, nofun⟩
    have k := h.screens.screen sc
    have hrec : ((s.placeScene sc .fault 4 Config.faultFade).modScreen sc fun x =>
        { x with faultClaim := .picture, darkHold := .ranOut }).screen sc
        = { s.screen sc with faultClaim := .picture, darkHold := .ranOut } := by
      rw [State.modScreen_screen, if_pos rfl]
      rfl
    refine report (h.react (.tail (Reactions.placeScene sc .fault 4 _ trivial .refl) (.screen sc
      (fun x => { x with faultClaim := .picture, darkHold := .ranOut }) _ fun _ => ⟨rfl, rfl, rfl⟩)) (hplaced.law ?_ (by rw [hrec]))) _
    rw [hrec]
    refine ⟨k.onScreen, k.pair, k.current, k.interval, k.intervalTime, k.muted, k.selected, k.both, k.overlapLeft,
      fun e => ?_, k.settings, k.showing, k.runup, k.swapDue, k.ended, fun e => ?_⟩
    · cases hon.symm.trans e
    · have hshow := k.onScreen
      rw [hon, show (s.screen sc).state = .dark from e] at hshow
      cases hshow
  · exact h

theorem switchChange (h : Lawful s) (m : MachineId) (sw : ShutterSwitch) (made : Bool) : Lawful (s.switchChange m sw made) := by
  unfold State.switchChange
  refine ite (fun _ => h) fun _ => ?_
  dsimp only
  split
  · exact h.fire _
  · exact ((h.fire _).fire _).evaluate m
  · exact (((h.fire _).fire _).report _).evaluate m
  · exact ((h.fire _).fire _).fire _
  · exact (h.fire _).fire _

theorem confirmExpires (h : Lawful s) (m : MachineId) : Lawful (s.confirmExpires m) := by
  unfold State.confirmExpires
  dsimp only
  split
  · exact (((h.fire _).fire _).fire _).report _
  · exact h

end Lawful

end Sys2Proof.Machine

/-! ### Trips, resets and RESTART keep the law of the screens -/

namespace Sys2Proof.Machine

open Sys2Proof Host

variable {s t : State}

theorem ScreensStill.leftRunout (m : MachineId) (x : MachineState) (s : State) : ScreensStill s (s.leftRunout m x) :=
  .ite (fun _ => .outgoingReelEnds m s) fun _ => .refl s

/-- R127: a booth trip halts a screen that is neither IDLE nor HALTED. -/
def ScreenRec.boothHalted (x : ScreenRec) : ScreenRec := if x.state = .idle ∨ x.state = .halted then x else x.halt

theorem ScreenLaw.boothHalted {sc : ScreenId} {x : ScreenRec} (k : ScreenLaw sc x) :
    ScreenLaw sc x.boothHalted ∧ x.boothHalted.onScreen = none ∧ x.boothHalted.faultClaim = x.faultClaim := by
  unfold ScreenRec.boothHalted
  split
  next h =>
    refine ⟨k, ?_, rfl⟩
    have hshow := k.onScreen
    obtain e | e := h <;> rw [e] at hshow <;> simpa [ScreenState.shows] using hshow
  next h => exact ⟨k.halt fun e => h (.inl e), rfl, rfl⟩

theorem State.boothHalt_screens (sc : ScreenId) (x y : MachineState) (s : State) :
    (∀ k, (s.boothHalt sc x y).screen k = if k = sc then (s.screen sc).boothHalted else s.screen k)
    ∧ ∀ k c, ((s.boothHalt sc x y).circuit k c).claims.fault.isSome = (s.circuit k c).claims.fault.isSome := by
  have hleft := (ScreensStill.leftRunout (lowerOf sc) x s).trans (.leftRunout (upperOf sc) y _)
  unfold State.boothHalt
  dsimp only
  rw [hleft.screen]
  unfold ScreenRec.boothHalted
  split
  · refine ⟨fun k => ?_, hleft.fault⟩
    rw [hleft.screen]
    split
    next e => rw [e]
    next => rfl
  · refine ⟨fun k => ?_, hleft.fault⟩
    rw [State.modScreen_screen, hleft.screen, hleft.screen]

theorem State.tripOrder_screens (m : MachineId) (s : State) : (s.tripOrder m).screens = s.screens := State.modLamp_screens m _ _

/-- R127, R152. -/
theorem ScreensLaw.boothTrip (h : ScreensLaw s) (hbooth : BoothLaw s) : ScreensLaw s.boothTrip := by
  have htripped : ∀ k, ((s.boothTripOrders s.fire.nextSequence).machine k).state = .tripped := fun k => by
    refine ((hbooth.boothTripOrders s.fire.nextSequence).latched k ?_).tripped
    rw [State.boothTripOrders_fire_eq]
    exact (s.boothLatches_latched _ k).1
  have horders : (s.boothTripOrders s.fire.nextSequence).screens = s.screens
      ∧ ∀ k c, ((s.boothTripOrders s.fire.nextSequence).circuit k c).claims.fault.isSome = (s.circuit k c).claims.fault.isSome := by
    have hsafety := (ScreensStill.placeSafety .s1 (s.boothLatches s.fire.nextSequence).tripAll).trans (.placeSafety .s2 _)
    have hlights := State.tripAll_lights (s.boothLatches s.fire.nextSequence)
    rw [State.boothTripOrders_eq]
    refine ⟨hsafety.screens.trans ?_, fun k c => (hsafety.fault k c).trans ?_⟩
    · simp only [State.tripAll, State.tripOrder_screens]
      rfl
    · simp only [State.circuit, hlights]
      rfl
  have q : Reactions (s.boothTripOrders s.fire.nextSequence) _ := Reactions.boothHalt .s2 (s.machine .m3).state
    (s.machine .m4).state (Reactions.boothHalt .s1 (s.machine .m1).state (s.machine .m2).state .refl)
  have hrest : ∀ k, (State.machine _ k).state = .tripped := fun k => by
    rw [q.frame.machineRested k (by rw [htripped]; rfl)]
    exact htripped k
  obtain ⟨hfirst, hfirstClaims⟩ := (s.boothTripOrders s.fire.nextSequence).boothHalt_screens .s1 (s.machine .m1).state
    (s.machine .m2).state
  obtain ⟨hsecond, hsecondClaims⟩ := ((s.boothTripOrders s.fire.nextSequence).boothHalt .s1 (s.machine .m1).state
    (s.machine .m2).state).boothHalt_screens .s2 (s.machine .m3).state (s.machine .m4).state
  unfold State.boothTrip
  dsimp only
  generalize ((s.boothTripOrders s.fire.nextSequence).boothHalt .s1 (s.machine .m1).state
    (s.machine .m2).state).boothHalt .s2 (s.machine .m3).state (s.machine .m4).state = w at q hrest hsecond hsecondClaims
  have hscreen : ∀ k, w.screen k = (s.screen k).boothHalted := fun k => by
    have hbase : ∀ j, (s.boothTripOrders s.fire.nextSequence).screen j = s.screen j := fun j => congrArg (·.get j) horders.1
    cases k with
    | s1 => rw [hsecond, if_neg (by decide), hfirst, if_pos rfl, hbase]
    | s2 => rw [hsecond, if_pos rfl, hfirst, if_neg (by decide), hbase]
  have hlaw : ScreensLaw w := by
    refine ⟨fun k => ?_, fun j => ?_, fun k c => ?_⟩
    · rw [hscreen]; exact (h.screen k).boothHalted.1
    · rw [hrest, hscreen, (h.screen _).boothHalted.2.1]; exact ⟨nofun, nofun⟩
    · rw [hsecondClaims, hfirstClaims, horders.2, hscreen, (h.screen k).boothHalted.2.2]; exact h.fault k c
  exact ((ScreensStill.fire _ w).trans (.report _ _)).law hlaw

/-- R128, R154: the trip of one machine. -/
theorem Lawful.machineTrip (h : Lawful s) (m : MachineId) : Lawful (s.machineTrip m) := by
  have hplan := h.plan.machineTripOrders m s.fire.nextSequence
  have hentries := EntriesLaw.keeper.machineTrip h.entries m s.fire.nextSequence
  have hlatched : ScreensStill s (s.machineLatches m s.fire.nextSequence) := 
    (ScreensStill.fire _ s).trans (.shutter m _ _)
  have horders : ∀ on, Between (screenOf m) on ((s.machineLatches m s.fire.nextSequence).modMachine m MachineRec.trip) →
      Between (screenOf m) on (s.machineTripOrders m s.fire.nextSequence) := fun on k => by
    rw [State.machineTripOrders_eq]
    exact (k.still (.lamp m _ _)).still (.placeSafety _ _)
  have hrec : (s.machineTripOrders m s.fire.nextSequence).screens = s.screens := by
    rw [State.machineTripOrders_eq]
    exact (ScreensStill.placeSafety _ _).screens.trans (State.tripOrder_screens m _)
  have hscreen : ∀ k, (s.machineTripOrders m s.fire.nextSequence).screen k = s.screen k := fun k => congrArg (·.get k) hrec
  have hhalted : Lawful ((s.machineTripOrders m s.fire.nextSequence).machineHalt m (s.machine m).state) := by
    have r : Reactions (s.machineTripOrders m s.fire.nextSequence) _ := Reactions.machineHalt m (s.machine m).state .refl
    refine ⟨r.plan hplan, EntriesLaw.keeper.react hentries r, ?_⟩
    have htripState : (MachineRec.trip ((s.machineLatches m s.fire.nextSequence).machine m)).state ≠ .onScreen := by
      rw [MachineRec.trip_state]; nofun
    have hbefore := (Between.ofLaw h.screens (screenOf m)).still hlatched
    by_cases hon : (s.screen (screenOf m)).onScreen = some m
    · have hshow : (s.screen (screenOf m)).state.shows = true := (h.screens.screen _).onScreen.symm.trans (by rw [hon]; rfl)
      rw [hon] at hbefore
      have hfree := horders none (hbefore.leaves MachineRec.trip rfl htripState)
      have hcond : ((s.machineTripOrders m s.fire.nextSequence).screen (screenOf m)).onScreen = some m
          ∧ ((s.machineTripOrders m s.fire.nextSequence).screen (screenOf m)).state.shows = true := by
        rw [hscreen]; exact ⟨hon, hshow⟩
      unfold State.machineHalt
      dsimp only
      rw [if_pos hcond]
      have hpartner := (hfree.stopOrder (partnerOf m) (screenOf_partnerOf m)).still ((ScreensStill.lampOff (partnerOf m) _).trans
        (.leftRunout (partnerOf m) ((s.machineTripOrders m s.fire.nextSequence).machine (partnerOf m)).state _))
      have hstill : ∀ k, (State.leftRunout (partnerOf m)
          ((s.machineTripOrders m s.fire.nextSequence).machine (partnerOf m)).state
          (((s.machineTripOrders m s.fire.nextSequence).modMachine (partnerOf m) MachineRec.stopOrder).lampOff
            (partnerOf m))).screen k = s.screen k := fun k => by
        rw [(ScreensStill.leftRunout _ _ _).screen, (ScreensStill.lampOff _ _).screen]
        exact hscreen k
      refine (hpartner.modScreen ScreenRec.halt fun _ => ⟨rfl, rfl, rfl, rfl⟩).law ?_ ?_
      · rw [State.modScreen_screen, if_pos rfl, hstill]
        exact (h.screens.screen _).halt (ScreenState.active_of_shows hshow).1
      · rw [State.modScreen_screen, if_pos rfl]
        rfl
    · have hsame : Between (screenOf m) (s.screen (screenOf m)).onScreen (s.machineTripOrders m s.fire.nextSequence) :=
        horders _ (hbefore.modMachine m MachineRec.trip rfl (iff_of_false htripState hon) fun _ _ => Iff.rfl)
      have hlaw : ScreensLaw (s.machineTripOrders m s.fire.nextSequence) :=
        hsame.law (by rw [hscreen]; exact h.screens.screen _) (by rw [hscreen])
      unfold State.machineHalt
      dsimp only
      rw [if_neg fun k => hon (by rw [← hscreen]; exact k.1)]
      split
      · exact (ScreensStill.outgoingReelEnds m _).law hlaw
      · split
        next k =>
          refine hlaw.successorLost _ ?_ ?_ <;> intro e <;> rw [e] at k <;> cases k.2
        next => exact hlaw
  exact ((hhalted.fire _).report _).evaluateScreen _

theorem Lawful.takeGateCount (h : Lawful s) (m : MachineId) (count : Nat) : Lawful (s.takeGateCount m count) :=
  .ite (fun _ => (h.fire _).machineTrip m) fun _ => h.fire _

/-! ### Bindings and resets -/

/-- R95: a machine that is EMPTY is bound. -/
theorem Lawful.threadReel (h : Lawful s) {m : MachineId} {id : Text} {n : SlotIx} {e : SlotEntry}
    (hloaded : (s.slot (screenOf m) n).status = .loaded) (hentry : (s.slot (screenOf m) n).entry = some e)
    (hempty : (s.machine m).state = .empty) (hmotor : (s.machine m).motor = false) : Lawful (s.threadReel m id n e) := by
  refine Lawful.evaluate ⟨h.plan.bind m id n e hloaded hentry hempty,
    EntriesLaw.keeper.bind h.entries m id n e hloaded hentry hempty hmotor, ?_⟩ m
  refine (((ScreensStill.slot _ n _ s).trans (.modMachine m (MachineRec.acceptReel id n) _ ?_)).trans (.lamp m _ _)).law h.screens
  change MachineState.threaded = .onScreen ↔ (s.machine m).state = .onScreen
  rw [hempty]
  exact ⟨nofun, nofun⟩

theorem Lawful.unthread (h : Lawful s) (m : MachineId) (hoff : (s.machine m).state ≠ .onScreen)
    (htripped : (s.machine m).state ≠ .tripped) :
    Lawful (((s.endBinding m .loaded).modMachine m MachineRec.unthread).evaluateScreen (screenOf m)) := by
  refine evaluateScreen ⟨h.plan.unthread m, EntriesLaw.keeper.unthread h.entries m htripped, ?_⟩ _
  have hended := ScreensStill.endBinding m .loaded s
  refine (hended.trans (.modMachine m _ _ (iff_of_false (fun e => ?_) ?_))).law h.screens
  · have hj := MachineRec.unthread_unjudged ((s.endBinding m .loaded).machine m)
    unfold MachineRec.unthread at e
    split at e
    next q => rw [q] at e; cases e
    next => rw [MachineRec.motorOff_state] at e; cases e
  · rw [hended.machine]; exact hoff

theorem Lawful.resetMachine (h : Lawful s) (m : MachineId) (hoff : (s.machine m).state ≠ .onScreen)
    (htests : s.resetTests m = .ok ()) : Lawful (s.resetMachine m) := by
  obtain ⟨_, hbooth, htests⟩ := Except.bind_ok htests
  obtain ⟨_, hset, htests⟩ := Except.bind_ok htests
  obtain ⟨_, hdrop, -⟩ := Except.bind_ok htests
  refine evaluateScreen ⟨h.plan.resetMachineOrders m, EntriesLaw.keeper.resetM h.entries m (by simpa using need_ok hbooth)
    (need_ok hset) (by simpa using need_ok hdrop), ?_⟩ _
  have hended := ((ScreensStill.fire (FireUnit.putLatch m none) s).trans (.shutter m ShutterRec.energize _)).trans
    (.endBinding m (s.lostStatus m) _)
  refine ((hended.trans (.modMachine m MachineRec.releaseLost _ (iff_of_false nofun ?_))).trans (.releaseSafety _ _)).law h.screens
  rw [hended.machine]; exact hoff

theorem MachineRec.releaseKept_offScreen (r : MachineRec) : r.releaseKept.state ≠ .onScreen := by
  unfold MachineRec.releaseKept
  dsimp only
  split
  · nofun
  · split
    · nofun
    · split <;> nofun

/-- No machine whose latch stood BOOTH is ON_SCREEN, and the screens stand. -/
structure ReleasesScreens (latch : Quad (Option LatchCause)) (s t : State) : Prop where
  still : ScreensStill s t
  off : ∀ k, latch.get k = some .booth → (t.machine k).state ≠ .onScreen

theorem ReleasesScreens.releaseKept {latch : Quad (Option LatchCause)} (h : ReleasesScreens latch s t) (m : MachineId) :
    ReleasesScreens latch s (t.releaseKept m (latch.get m)) := by
  unfold State.releaseKept
  split
  next hlatch =>
    have hstill := ScreensStill.modMachine m MachineRec.releaseKept t
      (iff_of_false (MachineRec.releaseKept_offScreen _) (h.off m hlatch))
    exact ⟨h.still.trans hstill, fun k hk => fun e => h.off k hk ((hstill.machine k).mp e)⟩
  next => exact h

theorem ReleasesScreens.energizeClear {latch : Quad (Option LatchCause)} (h : ReleasesScreens latch s t) (m : MachineId) :
    ReleasesScreens latch s (t.energizeClear m) := by
  unfold State.energizeClear
  split
  · exact ⟨h.still.trans (.fire _ t), h.off⟩
  · exact h

theorem Lawful.resetBooth (h : Lawful s) (hbooth : BoothLaw s) (hset : s.fire.boothLatch.isSome = true)
    (hdrop : s.anyDropping = false) : Lawful s.resetBooth := by
  have hready : ReleasesScreens s.fire.machineLatch s
      (s.modFire fun u => { u with boothLatch := none, machineLatch := u.machineLatch.map boothReleased }) :=
    ⟨.fire _ s, fun k hk e => by
      have htripped := (hbooth.latched k (by rw [hk]; rfl)).tripped
      cases htripped.symm.trans e⟩
  have hkept := (((hready.releaseKept .m1).releaseKept .m2).releaseKept .m3).releaseKept .m4
  have hclear := (((hkept.energizeClear .m1).energizeClear .m2).energizeClear .m3).energizeClear .m4
  have hlaw : ScreensLaw s.resetBoothOrders := ((hclear.still.trans (.releaseSafety .s1 _)).trans (.releaseSafety .s2 _)).law h.screens
  exact (Lawful.evaluateScreen ⟨h.plan.resetBoothOrders, EntriesLaw.keeper.resetB h.entries hset hdrop, hlaw⟩ .s1).evaluateScreen .s2

theorem Lawful.restartBlocks (s : State) : Lawful s.restartBlocks := by
  have hscreen : ∀ sc, s.restartBlocks.screen sc = ScreenRec.atPowerOn := fun sc => Pair.get_same _ sc
  refine ⟨PlanLaw.restartBlocks s, EntriesLaw.ofCleared s.restartBlocks_slot, fun sc => ?_, fun m => ?_, fun sc c => ?_⟩
  · rw [hscreen]; exact ScreenLaw.atPowerOn sc
  · rw [hscreen]
    refine iff_of_false (fun e => ?_) nofun
    obtain hstate | hstate := s.restartBlocks_cleared m <;> rw [e] at hstate <;> cases hstate
  · rw [hscreen, State.circuit, s.restartBlocks_keeps.1, HouseLights.restart]
    refine iff_of_false ?_ fun q => q rfl
    rw [Pair.get_map, Triple.get_map, Circuit.restart_fault]
    nofun

end Sys2Proof.Machine

namespace Sys2Proof.Machine

open Sys2Proof Host

namespace Lawful

variable {s t : State}

theorem whenPowered {f : State → State} (h : Lawful s) (k : Lawful (f s)) : Lawful (s.whenPowered f) := ite (fun _ => k) fun _ => h

/-- A console command acts on the state that has taken it from the line unit. -/
theorem takeCommand {i : Instr} {f : State → State} (h : Lawful s) (k : ∀ s', Lawful s' → Lawful (f s')) :
    Lawful (s.takeCommand i f) := ite (fun _ => k _ (h.line _)) fun _ => h

theorem placeThree (h : Lawful s) (sc : ScreenId) (x : SceneLevels) (f : Nat) : Lawful (s.placeThree sc .console x f) :=
  h.next (h.plan.congr (fun _ _ => rfl) (fun _ => rfl) (fun _ => rfl) (fun _ => id) fun _ => rfl) (fun _ _ => rfl)
    (.placeThree sc (by decide) x f s)

theorem releaseThree (h : Lawful s) (sc : ScreenId) : Lawful (s.releaseThree sc .console) :=
  h.next (h.plan.congr (fun _ _ => rfl) (fun _ => rfl) (fun _ => rfl) (fun _ => id) fun _ => rfl) (fun _ _ => rfl)
    (.releaseThree sc (by decide) s)

theorem showAtDue (h : Lawful s) (sc : ScreenId) (u : Nat) : Lawful (s.showAtDue sc u) := by
  unfold State.showAtDue
  refine ite (fun _ => ?_) fun _ => h
  have hcleared : Lawful (s.putShowAt sc none) := h.planStore _ rfl
  unfold State.fireShowAt
  refine ite (fun _ => hcleared.report _) fun hidle => ?_
  have hnone := hcleared.dark (sc := sc) (by rw [not_not.mp hidle]; rfl)
  split
  · exact hcleared.report _
  · exact ite (fun _ => hcleared.report _) fun _ => (hcleared.openSlot hnone _).reportIf _ _

theorem clockTick (h : Lawful s) : Lawful s.clockTick := by
  unfold State.clockTick
  split
  · exact h
  · exact ((h.planStore _ rfl).showAtDue .s1 _).showAtDue .s2 _

theorem cross (h : Lawful s) : Lawful (s.modLights HouseLights.cross) :=
  h.lights _ fun k d => by rw [HouseLights.cross_circuit, Circuit.crossed_claims]; rfl

end Lawful

/-- START is accepted of a screen in IDLE or HALTED alone (R106). -/
theorem parseStart_ok {s : State} {ops : List Text} {sc : ScreenId} {n : SlotIx} (h : parseStart s ops = .ok (sc, n)) :
    (s.screen sc).state = .idle ∨ (s.screen sc).state = .halted := by
  obtain ⟨⟨sc', named⟩, -, h⟩ := Except.bind_ok h
  obtain ⟨_, htest, h⟩ := Except.bind_ok h
  obtain ⟨_, -, h⟩ := Except.bind_ok h
  have hstate : (s.screen sc').state = .idle ∨ (s.screen sc').state = .halted := by
    unfold startStateTest at htest
    split at htest
    all_goals first
      | exact .inl ‹_›
      | exact .inr ‹_›
      | cases htest
  split at h
  · obtain ⟨_, -, h⟩ := Except.bind_ok h
    cases h
    exact hstate
  · obtain ⟨_, -, h⟩ := Except.bind_ok h
    cases h
    exact hstate

theorem parseResume_ok {s : State} {ops : List Text} {sc : ScreenId} {n : SlotIx} (h : parseResume s ops = .ok (sc, n)) :
    onlyScreen s ops = .ok sc ∧ (s.screen sc).state = .interval ∧ s.onDeck sc = some n := by
  obtain ⟨sc', hsc, h⟩ := Except.bind_ok h
  obtain ⟨_, htest, h⟩ := Except.bind_ok h
  obtain ⟨k, hdeck, h⟩ := Except.bind_ok h
  cases h
  refine ⟨hsc, by simpa using need_ok htest, ?_⟩
  unfold slotOr at hdeck
  split at hdeck
  · cases hdeck
  next e => cases hdeck; exact e

/-- An accepted SWAPNOW finds its screen DARK, in SHOWING or in RUNUP (R111). -/
theorem parseSwapnow_ok {s : State} {ops : List Text} {sc : ScreenId} (h : parseSwapnow s ops = .ok sc) :
    (s.screen sc).state.active := by
  obtain ⟨sc', -, h⟩ := Except.bind_ok h
  split at h
  all_goals first
    | cases h
    | (obtain ⟨_, -, h⟩ := Except.bind_ok h
       cases h
       rename_i e
       rw [e]
       exact ⟨nofun, nofun⟩)

theorem parseScreenset_ok {s : State} {ops : List Text} {sc : ScreenId} {x : ScreenSettings}
    (h : parseScreenset s ops = .ok (sc, x)) : within 0 1000 x.margin = true ∧ within 0 12 x.ovl = true := by
  unfold parseScreenset at h
  split at h
  · obtain ⟨_, -, h⟩ := Except.bind_ok h
    obtain ⟨_, -, h⟩ := Except.bind_ok h
    obtain ⟨_, -, h⟩ := Except.bind_ok h
    obtain ⟨_, hrange, h⟩ := Except.bind_ok h
    cases h
    simpa using need_ok hrange
  · cases h

theorem ScreenLaw.withSettings {sc : ScreenId} {r : ScreenRec} (k : ScreenLaw sc r) {x : ScreenSettings}
    (hmargin : within 0 1000 x.margin = true) (hovl : within 0 12 x.ovl = true) : ScreenLaw sc (r.withSettings x) := by
  have hset : ScreenLaw sc (match x.margin with | none => r | some ms => { r with margin := ms * 1000 }) := by
    cases e : x.margin with
    | none => exact k
    | some ms =>
      have hms := (within_some hmargin e).2
      refine ⟨k.onScreen, k.pair, k.current, k.interval, k.intervalTime, k.muted, k.selected, k.both, k.overlapLeft, k.darkHold,
        ⟨k.settings.1, ?_, k.settings.2.2⟩, k.showing, k.runup, k.swapDue, k.ended, k.dark⟩
      change ms * 1000 ≤ 1000000
      omega
  unfold ScreenRec.withSettings
  cases e : x.ovl with
  | none => exact hset
  | some n => exact hset.setOverlap (within_some hovl e).2

theorem ScreenRec.withSettings_kept (x : ScreenSettings) (r : ScreenRec) :
    (r.withSettings x).onScreen = r.onScreen ∧ (r.withSettings x).faultClaim = r.faultClaim := by
  unfold ScreenRec.withSettings ScreenRec.setOverlap
  cases x.margin <;> cases x.ovl <;> exact ⟨rfl, rfl⟩

theorem parseUnthread_ok {s : State} {ops : List Text} {m : MachineId} (h : parseUnthread s ops = .ok m) :
    onlyMachine s ops = .ok m ∧ unthreadTest (s.machine m).state = .ok () := by
  obtain ⟨k, hk, h⟩ := Except.bind_ok h
  obtain ⟨_, htest, h⟩ := Except.bind_ok h
  cases h
  exact ⟨hk, htest⟩

namespace Lawful

variable {s t : State}

/-- Every command keeps the laws of the plan, its entries and the screens. -/
theorem exec {c : Instr} (h : Lawful s) (hbooth : BoothLaw s) (e : exec c s = .next t) : Lawful t := by
  cases c with
  | framePulse m dt foil =>
    cases e
    exact h.whenPowered (ite (fun _ => (h.elapse dt).framePulse m _) fun _ => h.elapse dt)
  | contactorSenseChange m flowing =>
    cases e
    exact h.whenPowered (h.machine m _ (h.plan.ofMachine m _ rfl rfl id) Iff.rfl)
  | contactorFailure m =>
    cases e
    exact h.whenPowered (h.contactorFails m)
  | stall m =>
    cases e
    exact h.whenPowered (ite (fun k => h.breakRun m _ (Bool.and_eq_true _ _ ▸ k).1) fun _ => h)
  | noPulseTimerExpiry m =>
    cases e
    exact h.whenPowered (ite (fun _ => (h.machine m MachineRec.noPulse (h.plan.ofMachine m _ rfl rfl id) Iff.rfl).machinePosted m) fun _ => h)
  | arcGate m count =>
    cases e
    exact h.whenPowered (h.lampEvent m _ (LampRec.takeGate_shape _ _).1)
  | touchMeasureExpiry m =>
    cases e
    exact h.whenPowered (h.lampEvent m _ (LampRec.touchExpires_shape _).1)
  | retractMeasureExpiry m =>
    cases e
    exact h.whenPowered (h.lampEvent m _ (LampRec.measures_boundLength _).1)
  | pauseMeasureExpiry m =>
    cases e
    exact h.whenPowered (h.lampEvent m _ (LampRec.measures_boundLength _).2.1)
  | shortGapRetractExpiry m =>
    cases e
    exact h.whenPowered (h.lampEvent m _ (LampRec.measures_boundLength _).2.2)
  | feedEncoderPulse m flowing =>
    cases e
    exact h.whenPowered (ite (fun _ => ((h.lamp m _ rfl).exhaustTest m).lampSettled m _) fun _ => h)
  | bucketMeasureExpiry m =>
    cases e
    exact h.whenPowered (ite (fun _ => ((h.lamp m _ rfl).shortfallTest m).lampSettled m _) fun _ => h)
  | clockAdvance dt =>
    cases e
    exact h.whenPowered ((h.elapse dt).clockTick)
  | intervalExpiry sc =>
    cases e
    exact h.whenPowered (h.intervalEnds sc)
  | darkHoldExpiry sc =>
    cases e
    exact h.whenPowered (h.darkHoldEnds sc)
  | fadeStep sc x =>
    cases e
    exact h.whenPowered (h.circuit sc x _ fun _ _ => Circuit.dueStep_standing _ _ .fault)
  | zeroCrossing dt =>
    cases e
    exact h.whenPowered ((h.elapse dt).cross)
  | firingDelayExpiry sc x =>
    cases e
    exact h.whenPowered (h.circuit sc x _ fun _ y => by rw [Circuit.fire_claims])
  | loopInputChange flowing =>
    cases e
    exact h.whenPowered (h.fire _)
  | gateCount m count =>
    cases e
    exact h.whenPowered (h.takeGateCount m _)
  | shutterSwitchChange m sw flowing =>
    cases e
    exact h.whenPowered (h.switchChange m sw _)
  | confirmMeasureExpiry m =>
    cases e
    exact h.whenPowered (h.confirmExpires m)
  | receivedCharacter code x y =>
    cases e
    exact h.whenPowered (h.line _)
  | lineSent =>
    cases e
    exact h.whenPowered (h.line _)
  | breakMeasureExpiry =>
    cases e
    exact h.whenPowered (h.line _)
  | receiveLineLevelChange x =>
    cases e
    exact h.whenPowered (h.line _)
  | loopSwitchOpen m flowing =>
    cases e
    have hread := h.machine m (fun r => { r with loopSwitchClosed := s.sense m s.straps.loopSwitch flowing })
      (h.plan.ofMachine m _ rfl rfl id) Iff.rfl
    exact h.whenPowered (ite (fun _ => hread) fun _ => hread.loopOpened m)
  | loopOpenMeasureExpiry =>
    cases e
    refine h.whenPowered ?_
    unfold State.loopOpenExpires
    split
    · exact h
    · have hstopped := h.fire fun u => { u with loopOpenMeasure := none }
      exact ⟨PlanLaw.keeper.boothTrip_all hstopped.plan rfl, EntriesLaw.keeper.boothTrip_all hstopped.entries rfl,
        hstopped.screens.boothTrip (hbooth.congr rfl rfl rfl rfl fun _ => rfl)⟩
  | powerOn p l =>
    have hplan := PlanLaw.keeper.power s p l t e
    have hentries := EntriesLaw.keeper.power s p l t e
    cases e
    exact ⟨hplan, hentries, ScreensLaw.ofPowerOn (fun m => ⟨_, _, by cases m <;> rfl⟩) rfl rfl⟩
  | powerRemoved =>
    have hplan := PlanLaw.keeper.off s t e
    have hentries := EntriesLaw.keeper.off s t e
    cases e
    exact ⟨hplan, hentries, ScreensLaw.ofPowerOn (fun m => ⟨false, false, by cases m <;> rfl⟩) rfl rfl⟩
  | motor ops =>
    cases e
    refine h.takeCommand fun s h => ?_
    split
    · exact h.answer _
    next m on hparse =>
      have hempty := parseMotor_ok hparse
      have hstate : (if on then (s.machine m).laceUpOn s.timebase else (s.machine m).motorOff).state = .empty := by
        split
        · exact (MachineRec.laceUpOn_state _ _).trans hempty
        · exact (MachineRec.motorOff_state _).trans hempty
      refine answer (h.machine m _ (h.plan.ofMachine m _ ?_ ?_ fun _ => hempty) (by rw [hstate, hempty])) _
      all_goals
        split
        · unfold MachineRec.laceUpOn MachineRec.motorOn
          split <;> rfl
        · unfold MachineRec.motorOff
          split <;> rfl
  | douse ops =>
    cases e
    refine h.takeCommand fun s h => ?_
    split
    · exact h.answer _
    next m close _ =>
      have hheld : Lawful (s.holdRequest m .console close) := h.machine m _ (h.plan.ofMachine m _ rfl rfl id) Iff.rfl
      exact (hheld.machinePosted m).answer _
  | cuemap ops =>
    cases e
    refine h.takeCommand fun s h => ?_
    split
    · exact h.answer _
    · exact h.answer _
    next sc _ _ _ =>
      have k := h.screens.screen sc
      refine answer (h.settings sc _ ?_ ?_) _
      · exact k.figures ⟨rfl, rfl, rfl, rfl, rfl, rfl, rfl, rfl, rfl, rfl, rfl, rfl, rfl⟩ k.darkHold
      · exact fun _ => ⟨rfl, rfl⟩
  | strike ops =>
    cases e
    refine h.takeCommand fun s h => ?_
    split
    · exact h.answer _
    · exact ((h.lamp _ _ rfl).lampSettled _ _).answer _
  | arcoff ops =>
    cases e
    refine h.takeCommand fun s h => ?_
    split
    · exact h.answer _
    next m hparse =>
      refine ((h.lamp m LampRec.arcOff ?_).lampSettled m _).answer _
      unfold LampRec.arcOff
      split
      · rfl
      all_goals exact LampRec.putOut_bound _
  | trim ops =>
    cases e
    refine h.takeCommand fun s h => ?_
    split
    · exact h.answer _
    · exact (((h.lamp _ _ rfl).shortfallTest _).lampSettled _ _).answer _
  | lampset ops =>
    cases e
    refine h.takeCommand fun s h => ?_
    split
    · exact h.answer _
    · exact ((((h.lamp _ _ rfl).shortfallTest _).exhaustTest _).lampSettled _ _).answer _
  | reel ops =>
    cases e
    refine h.takeCommand fun s h => ?_
    split
    · exact h.answer _
    next sc n entry hparse =>
      obtain ⟨hbound, hentry⟩ := parseReel_ok hparse
      exact answer (evaluateScreen ⟨h.plan.writeSlot sc n (fun _ => Slot.loadedWith entry) hbound nofun (SlotLaw.loadedWith entry),
        EntriesLaw.keeper.slot h.entries sc n entry hbound hentry, (ScreensStill.slot sc n _ s).law h.screens⟩ sc) _
  | plancopy ops =>
    cases e
    refine h.takeCommand fun s h => ?_
    split
    · exact h.answer _
    next o hparse =>
      refine ite (fun _ => h.answer _) fun hcount => ?_
      have hfree := parsePlancopy_ok hparse hcount
      exact answer (evaluateScreen ⟨h.plan.putRange _ _ _ _ hfree fun n => SlotLaw.copied _,
        EntriesLaw.keeper.slots h.entries _ _ _ _ hfree (fun n => SlotLaw.copied _)
          fun n e q => PlanTable.at_entry (by simpa [Slot.copied_entry] using q), (ScreensStill.plan _ s).law h.screens⟩ _) _
  | planclr ops =>
    cases e
    refine h.takeCommand fun s h => ?_
    split
    · exact h.answer _
    next sc f count hparse =>
      refine ite (fun _ => h.answer _) fun hcount => ?_
      have hfree := parsePlanclr_ok hparse hcount
      exact answer (evaluateScreen ⟨h.plan.putRange _ _ _ _ hfree fun n => ⟨SlotLaw.cleared, rfl⟩,
        EntriesLaw.keeper.slots h.entries _ _ _ _ hfree (fun n => ⟨SlotLaw.cleared, rfl⟩)
          fun n e q => absurd q (by simp [Slot.cleared]), (ScreensStill.plan _ s).law h.screens⟩ _) _
  | thread ops =>
    cases e
    refine h.takeCommand fun s h => ?_
    split
    · exact h.answer _
    next m id n entry hparse =>
      obtain ⟨hloaded, hentry, hempty, hmotor⟩ := parseThread_ok hparse
      exact (h.threadReel hloaded hentry hempty hmotor).answer _
  | unthread ops =>
    cases e
    refine h.takeCommand fun s h => ?_
    split
    · exact h.answer _
    next m hparse =>
      have htest := (parseUnthread_ok hparse).2
      refine (h.unthread m ?_ ?_).answer _ <;> intro e <;> rw [e] at htest <;> cases htest
  | time ops =>
    cases e
    refine h.takeCommand fun s h => ?_
    split
    · exact h.answer _
    · exact h.answer _
    · exact (h.planStore _ rfl).answer _
  | showat ops =>
    cases e
    refine h.takeCommand fun s h => ?_
    split
    · exact h.answer _
    · exact h.answer _
    · exact (h.planStore _ rfl).answer _
    · exact (h.planStore _ rfl).answer _
  | start ops =>
    cases e
    refine h.takeCommand fun s h => ?_
    split
    · exact h.answer _
    next hparse =>
      refine (h.openSlot (h.dark ?_) _).answer _
      obtain e | e := parseStart_ok hparse <;> rw [e] <;> rfl
  | swapnow ops =>
    cases e
    refine h.takeCommand fun s h => ?_
    split
    · exact h.answer _
    next sc hparse =>
      refine answer ?_ _
      unfold State.swapNow
      refine ite (fun hdark => ?_) fun _ => h.reachPoint _ _ _
      have hpoint : Lawful (s.modScreen sc fun x => { x with point := some .console }) := by
        refine h.settings sc _ ?_ fun _ => ⟨rfl, rfl⟩
        have k := h.screens.screen sc
        refine ⟨k.onScreen, k.pair, k.current, k.interval, k.intervalTime, k.muted, k.selected, k.both, k.overlapLeft, k.darkHold,
          k.settings, k.showing, k.runup, fun _ => rfl, fun e => ?_, k.dark⟩
        rw [show ({ s.screen sc with point := some PointCause.console } : ScreenRec).state = .dark from hdark] at e
        simp at e
      exact hpoint.startDue sc _ _ (by rw [State.modScreen_screen, if_pos rfl]; exact parseSwapnow_ok hparse)
  | sound ops =>
    cases e
    refine h.takeCommand fun s h => ?_
    split
    · exact h.answer _
    · exact h.answer _
    next sc _ _ =>
      refine answer (h.settings sc _ (CuesRun.ScreenLaw.sound (h.screens.screen sc) (Nat.min_le_left _ _)) ?_) _
      exact fun _ => ⟨rfl, rfl⟩
  | resume ops =>
    cases e
    refine h.takeCommand fun s h => ?_
    split
    · exact h.answer _
    next hparse => exact (h.openOnDeck (h.dark (by rw [(parseResume_ok hparse).2.1]; rfl)) _).answer _
  | abort ops =>
    cases e
    refine h.takeCommand fun s h => ?_
    split
    · exact h.answer _
    · exact (h.abort _).answer _
  | screenset ops =>
    cases e
    refine h.takeCommand fun s h => ?_
    split
    · exact h.answer _
    next sc x hparse =>
      obtain ⟨hmargin, hovl⟩ := parseScreenset_ok hparse
      exact answer (h.settings sc _ ((h.screens.screen sc).withSettings hmargin hovl) fun y => y.withSettings_kept x) _
  | scenedef ops =>
    cases e
    refine h.takeCommand fun s h => ?_
    split
    · exact h.answer _
    · exact h.answer _
    · exact (h.lights _ fun _ _ => rfl).answer _
  | level ops =>
    cases e
    refine h.takeCommand fun s h => ?_
    split
    · exact h.answer _
    next sc x level fade _ =>
      refine answer ?_ _
      cases x with
      | none => exact h.placeThree sc _ _
      | some k =>
        exact h.circuit sc k (fun y => Circuit.place y .console level fade) fun _ _ => Circuit.place_fault _ (by decide) _ _ _
  | scene ops =>
    cases e
    refine h.takeCommand fun s h => ?_
    split
    · exact h.answer _
    · exact (h.placeThree _ _ _).answer _
  | release ops =>
    cases e
    refine h.takeCommand fun s h => ?_
    split
    · exact h.answer _
    next sc x _ =>
      refine answer ?_ _
      cases x with
      | none => exact h.releaseThree sc
      | some k => exact h.circuit sc k (fun y => Circuit.release y .console) fun _ _ => Circuit.release_fault _ (by decide) _
  | resetM ops =>
    cases e
    refine ite (fun _ => ?_) fun _ => h
    have htaken := h.line (LineUnit.unhand (.resetM ops))
    have hlaw : BoothLaw (s.modLine (LineUnit.unhand (.resetM ops))) := hbooth.congr rfl rfl rfl rfl fun _ => rfl
    split
    · exact htaken.answer _
    next m hparse =>
      have htests := (parseReset_ok hparse).2
      refine ((htaken.resetMachine m ?_ htests).report _).answer _
      obtain ⟨_, -, htests⟩ := Except.bind_ok htests
      obtain ⟨_, hset, -⟩ := Except.bind_ok htests
      rw [(hlaw.latched m (need_ok hset)).tripped]
      nofun
  | resetBooth ops =>
    cases e
    refine ite (fun _ => ?_) fun _ => h
    have htaken := h.line (LineUnit.unhand (.resetBooth ops))
    have hlaw : BoothLaw (s.modLine (LineUnit.unhand (.resetBooth ops))) := hbooth.congr rfl rfl rfl rfl fun _ => rfl
    split
    · exact htaken.answer _
    next hparse =>
      obtain ⟨_, -, hparse⟩ := Except.bind_ok hparse
      obtain ⟨_, hset, hparse⟩ := Except.bind_ok hparse
      obtain ⟨_, -, hdrop⟩ := Except.bind_ok hparse
      exact ((htaken.resetBooth hlaw (need_ok hset) (by simpa using need_ok hdrop)).answer _).report _
  | inclear ops =>
    cases e
    refine h.takeCommand fun s h => ?_
    split
    · exact h.answer _
    · exact (h.fire _).answer _
  | fireset ops =>
    cases e
    refine h.takeCommand fun s h => ?_
    split
    · exact h.answer _
    · exact (h.fire _).answer _
  | restart ops =>
    cases e
    refine h.takeCommand fun s h => ?_
    split
    · exact h.answer _
    · exact (((Lawful.restartBlocks s).answer _).line _).report _
  | mstat ops | lstat ops | pstat ops | sstat ops | hlstat ops | incident ops | fstat ops | ident ops | status ops =>
    cases e
    refine h.takeCommand fun s h => ?_
    split <;> exact h.answer _

end Lawful

/-- Settles O8: a step takes one command, or lets time pass. -/
theorem screensLawKept : Obligations.ScreensLawKept := by
  intro s t hbooth hplan hentries hscreens e
  have h : Lawful s := ⟨hplan, hentries, hscreens⟩
  unfold step at e
  split at e
  next i rest _ =>
    have hrest : Lawful { s with pending := rest } := ⟨PlanLaw.keeper.pending hplan rest, EntriesLaw.keeper.pending hentries rest,
      ⟨hscreens.screen, hscreens.machine, hscreens.fault⟩⟩
    exact (hrest.exec (BoothLaw.keeper.pending hbooth rest) e).screens
  next =>
    split at e
    · exact (h.exec hbooth e).screens
    · cases e
      exact (h.whenPowered (h.elapse 1)).screens

end Sys2Proof.Machine

/-! The frame pulse and the speed evaluation, of the machine record. -/

namespace Sys2Proof.Machine

open Sys2Proof Host

/-! ### The speed evaluation -/

section Judged

variable {r : MachineRec} {isIn : Bool}

/-- The runs an evaluation leaves, before a change of status clears them. -/
def MachineRec.runsCounted (isIn : Bool) (r : MachineRec) : MachineRec :=
  { r with
    inBandRun := if isIn then min 8 (r.inBandRun + 1) else 0
    outBandRun := if isIn then 0 else min 8 (r.outBandRun + 1) }

theorem MachineRec.judgeSpeed_of_accel (h : r.speed = .accel) :
    r.judgeSpeed isIn = if (r.runsCounted isIn).inBandRun = 8 then (r.runsCounted isIn).firstAtSpeed
      else r.runsCounted isIn := by
  simp only [judgeSpeed, h, runsCounted, Config.bandRun]

theorem MachineRec.judgeSpeed_of_atSpeed (h : r.speed = .atSpeed) :
    r.judgeSpeed isIn = if (r.runsCounted isIn).outBandRun = 8 then
        { r with speed := .offSpeed, holds := { r.holds with speed := true }, inBandRun := 0, outBandRun := 0 }
      else r.runsCounted isIn := by
  simp only [judgeSpeed, h, runsCounted, Config.bandRun, HoldSet.put]

theorem MachineRec.judgeSpeed_of_offSpeed (h : r.speed = .offSpeed) :
    r.judgeSpeed isIn = if (r.runsCounted isIn).inBandRun = 8 then
        { r with speed := .atSpeed, holds := { r.holds with speed := false }, inBandRun := 0, outBandRun := 0 }
      else r.runsCounted isIn := by
  simp only [judgeSpeed, h, runsCounted, Config.bandRun, HoldSet.put]

theorem MachineRec.judgeSpeed_of_stopped (h : r.speed = .stopped) : r.judgeSpeed isIn = r.runsCounted isIn := by
  simp only [judgeSpeed, h, runsCounted, Config.bandRun]

end Judged

/-- Settles O15: each status has its one run that can change it. -/
theorem speedEvaluationChangesStatus : Obligations.SpeedEvaluationChangesStatus := by
  unfold Obligations.SpeedEvaluationChangesStatus
  intro r isIn a b x
  refine ⟨?_, fun h hb => ?_, fun h ha => ?_, fun h ha hs => ?_, fun h ha hs => ?_⟩
  · rintro (⟨h, ha⟩ | ⟨h, hb⟩ | ⟨h, ha⟩ | h)
    · exact (MachineRec.judgeSpeed_of_accel h).trans (if_neg ha)
    · exact (MachineRec.judgeSpeed_of_atSpeed h).trans (if_neg hb)
    · exact (MachineRec.judgeSpeed_of_offSpeed h).trans (if_neg ha)
    · exact MachineRec.judgeSpeed_of_stopped h
  · exact (MachineRec.judgeSpeed_of_atSpeed h).trans (if_pos hb)
  · exact (MachineRec.judgeSpeed_of_offSpeed h).trans (if_pos ha)
  · refine (MachineRec.judgeSpeed_of_accel h).trans ((if_pos ha).trans ?_)
    simp [MachineRec.firstAtSpeed, MachineRec.runsCounted, hs, HoldSet.put]
  · refine (MachineRec.judgeSpeed_of_accel h).trans ((if_pos ha).trans ?_)
    simp [MachineRec.firstAtSpeed, MachineRec.runsCounted, hs, HoldSet.put, learnedAllowance, Config.maxAllowance,
      Config.nominalPeriod]

/-! ### The pulse -/

theorem MachineRec.countFrame_of_empty {r : MachineRec} (h : r.state = .empty) : r.countFrame = r := by
  simp [countFrame, h]

theorem MachineRec.countFrame_of_room {r : MachineRec} (h : r.state ≠ .empty) (hroom : r.frameCount < 99999) :
    r.countFrame = { r with frameCount := r.frameCount + 1 } := by
  simp [countFrame, h, hroom, Config.maxFrames]

theorem MachineRec.countFrame_of_full {r : MachineRec} (h : r.state ≠ .empty) (hfull : 99999 ≤ r.frameCount) :
    r.countFrame = { r with saturated := true } := by
  simp [countFrame, h, Nat.not_lt.2 hfull, Config.maxFrames]

theorem ringJoin_eq (ring : List Nat) (p : Nat) : ringJoin ring p = (ring ++ [p]).drop (ring.length + 1 - 8) := by
  unfold ringJoin Config.ringSize
  split
  next hroom => rw [Nat.sub_eq_zero_of_le (by omega), List.drop_zero]
  next hfull => rw [List.drop_append_of_le_length (by omega)]

/-- The record that a speed evaluation at a pulse judges: counted, the period `p` entered, the average not yet formed. -/
def MachineRec.timed (r : MachineRec) : MachineRec :=
  { r.countFrame with
    framesSinceOn := min 99999 (r.framesSinceOn + 1)
    startMeasure := none
    pulseMeasure := if r.atSpeedReached then some 0 else r.pulseMeasure
    ring := (r.ring ++ [max 20000 (min 1000000 (r.periodTimer.getD 0))]).drop (r.ring.length + 1 - 8)
    pulseRef := true
    periodTimer := some 0 }

/-- What the count of a frame leaves of the record. -/
theorem MachineRec.countFrame_kept (r : MachineRec) :
    r.countFrame = { r with frameCount := r.countFrame.frameCount, saturated := r.countFrame.saturated } := by
  unfold countFrame
  split_ifs <;> rfl

theorem MachineRec.pulse_of_off {r : MachineRec} (h : r.motor = false) :
    r.pulse = { r.countFrame with noPulseTimer := r.noPulseTimer.map fun _ => 0 } := by
  simp [pulse, h]

theorem MachineRec.pulse_of_reference {r : MachineRec} (h : r.motor = true) (href : r.pulseRef = false) :
    r.pulse = { r.countFrame with
      framesSinceOn := min 99999 (r.framesSinceOn + 1)
      startMeasure := none
      pulseMeasure := if r.atSpeedReached then some 0 else r.pulseMeasure
      pulseRef := true
      periodTimer := some 0 } := by
  have hcount : r.countFrame.pulseRef = false := by rw [countFrame_kept]; exact href
  simp [pulse, h, enterPeriod, hcount, Config.maxFrames]

theorem MachineRec.pulse_of_period {r : MachineRec} (h : r.motor = true) (href : r.pulseRef = true) :
    r.pulse = r.timed.formAverage := by
  have hcount : r.countFrame.pulseRef = true := by rw [countFrame_kept]; exact href
  have hring : r.countFrame.ring = r.ring := by rw [countFrame_kept]
  have htimer : r.countFrame.periodTimer = r.periodTimer := by rw [countFrame_kept]
  simp only [pulse, h, enterPeriod, hcount, hring, htimer, ringJoin_eq, Config.maxFrames, Config.minPeriod,
    Config.maxPeriod, if_true, timed]

theorem MachineRec.formAverage_of_full {r : MachineRec} (h : r.ring.length = 8) :
    r.formAverage = MachineRec.judgeSpeed
      (decide (2352 ≤ 100000000 / (r.ring.sum / 8) ∧ 100000000 / (r.ring.sum / 8) ≤ 2448))
      { r with average := some (r.ring.sum / 8), lastAverage := some (r.ring.sum / 8)
               cfps := some (100000000 / (r.ring.sum / 8)) } := by
  simp [formAverage, h, Config.ringSize, inBand, cfpsOf, Config.bandLow, Config.bandHigh]
  rfl

theorem MachineRec.formAverage_of_open {r : MachineRec} (h : r.ring.length ≠ 8) : r.formAverage = r := by
  simp [formAverage, h, Config.ringSize]

/-- What a speed evaluation never writes. -/
theorem MachineRec.judgeSpeed_kept (isIn : Bool) (r : MachineRec) :
    (r.judgeSpeed isIn).frameCount = r.frameCount ∧ (r.judgeSpeed isIn).saturated = r.saturated
      ∧ (r.judgeSpeed isIn).framesSinceOn = r.framesSinceOn ∧ (r.judgeSpeed isIn).startMeasure = r.startMeasure
      ∧ (r.judgeSpeed isIn).pulseRef = r.pulseRef ∧ (r.judgeSpeed isIn).periodTimer = r.periodTimer
      ∧ (r.judgeSpeed isIn).ring = r.ring ∧ (r.judgeSpeed isIn).average = r.average
      ∧ (r.judgeSpeed isIn).lastAverage = r.lastAverage ∧ (r.judgeSpeed isIn).cfps = r.cfps := by
  have hfirst (x : MachineRec) : x.firstAtSpeed.frameCount = x.frameCount ∧ x.firstAtSpeed.saturated = x.saturated
      ∧ x.firstAtSpeed.framesSinceOn = x.framesSinceOn ∧ x.firstAtSpeed.startMeasure = x.startMeasure
      ∧ x.firstAtSpeed.pulseRef = x.pulseRef ∧ x.firstAtSpeed.periodTimer = x.periodTimer
      ∧ x.firstAtSpeed.ring = x.ring ∧ x.firstAtSpeed.average = x.average
      ∧ x.firstAtSpeed.lastAverage = x.lastAverage ∧ x.firstAtSpeed.cfps = x.cfps := by
    unfold firstAtSpeed
    split <;> simp
  cases hs : r.speed with
  | stopped => rw [judgeSpeed_of_stopped hs]; simp [runsCounted]
  | accel =>
    rw [judgeSpeed_of_accel hs]
    split
    · exact hfirst _
    · simp [runsCounted]
  | atSpeed => rw [judgeSpeed_of_atSpeed hs]; split <;> simp [runsCounted]
  | offSpeed => rw [judgeSpeed_of_offSpeed hs]; split <;> simp [runsCounted]

/-- What a pulse with the motor ON writes apart from the speed evaluation. -/
theorem MachineRec.pulse_of_on {r : MachineRec} (h : r.motor = true) :
    r.pulse.frameCount = r.countFrame.frameCount ∧ r.pulse.saturated = r.countFrame.saturated
      ∧ r.pulse.framesSinceOn = min 99999 (r.framesSinceOn + 1) ∧ r.pulse.startMeasure = none := by
  cases href : r.pulseRef with
  | false => rw [pulse_of_reference h href]; exact ⟨rfl, rfl, rfl, rfl⟩
  | true =>
    rw [pulse_of_period h href]
    by_cases hfull : r.timed.ring.length = 8
    · obtain ⟨hframe, hsat, hsince, hstart, -⟩ := judgeSpeed_kept
        (decide (2352 ≤ 100000000 / (r.timed.ring.sum / 8) ∧ 100000000 / (r.timed.ring.sum / 8) ≤ 2448))
        { r.timed with average := some (r.timed.ring.sum / 8), lastAverage := some (r.timed.ring.sum / 8)
                       cfps := some (100000000 / (r.timed.ring.sum / 8)) }
      rw [formAverage_of_full hfull, hframe, hsat, hsince, hstart]
      exact ⟨rfl, rfl, rfl, rfl⟩
    · rw [formAverage_of_open hfull]; exact ⟨rfl, rfl, rfl, rfl⟩

/-- The frame count is the one of `countFrame`, whether the motor is ON or OFF. -/
theorem MachineRec.pulse_count (r : MachineRec) :
    r.pulse.frameCount = r.countFrame.frameCount ∧ r.pulse.saturated = r.countFrame.saturated := by
  cases h : r.motor with
  | false => rw [pulse_of_off h]; exact ⟨rfl, rfl⟩
  | true => exact ⟨(pulse_of_on h).1, (pulse_of_on h).2.1⟩

/-- A ring not yet full is left to grow, and nothing is judged. -/
theorem MachineRec.pulse_of_openRing {r : MachineRec} (h : r.motor = true) (href : r.pulseRef = true)
    (hopen : r.timed.ring.length ≠ 8) :
    r.pulse = r.timed := by
  rw [pulse_of_period h href, formAverage_of_open hopen]

/-- A full ring gives average and cfps, and is judged. -/
theorem MachineRec.pulse_of_fullRing {r : MachineRec} (h : r.motor = true) (href : r.pulseRef = true)
    (hfull : r.timed.ring.length = 8) :
    r.pulse = MachineRec.judgeSpeed
      (decide (2352 ≤ 100000000 / (r.timed.ring.sum / 8) ∧ 100000000 / (r.timed.ring.sum / 8) ≤ 2448))
      { r.timed with average := some (r.timed.ring.sum / 8), lastAverage := some (r.timed.ring.sum / 8)
                     cfps := some (100000000 / (r.timed.ring.sum / 8)) } := by
  rw [pulse_of_period h href, formAverage_of_full hfull]

/-- The period entered by a pulse after the reference, in a full ring or an open one. -/
theorem MachineRec.pulse_ring {r : MachineRec} (h : r.motor = true) (href : r.pulseRef = true) :
    r.pulse.pulseRef = true ∧ r.pulse.periodTimer = some 0 ∧ r.pulse.ring = r.timed.ring := by
  by_cases hfull : r.timed.ring.length = 8
  · rw [pulse_of_fullRing h href hfull]
    obtain ⟨-, -, -, -, hpulse, htimer, hring, -⟩ := judgeSpeed_kept
      (decide (2352 ≤ 100000000 / (r.timed.ring.sum / 8) ∧ 100000000 / (r.timed.ring.sum / 8) ≤ 2448))
      { r.timed with average := some (r.timed.ring.sum / 8), lastAverage := some (r.timed.ring.sum / 8)
                     cfps := some (100000000 / (r.timed.ring.sum / 8)) }
    exact ⟨hpulse, htimer, hring⟩
  · rw [pulse_of_openRing h href hfull]
    exact ⟨rfl, rfl, rfl⟩

/-- Settles O14, by the reference, the period and the full ring. -/
theorem framePulseCountsAndTimes : Obligations.FramePulseCountsAndTimes := by
  unfold Obligations.FramePulseCountsAndTimes
  intro r
  refine ⟨fun h => ?_, fun h hroom => ?_, fun h hfull => ?_, fun h => ?_, fun h href => ?_, fun h href => ?_, fun h => ?_⟩
  · rw [r.pulse_count.1, r.pulse_count.2, MachineRec.countFrame_of_empty h]
    exact ⟨rfl, rfl⟩
  · rw [r.pulse_count.1, r.pulse_count.2, MachineRec.countFrame_of_room h hroom]
    exact ⟨rfl, rfl⟩
  · rw [r.pulse_count.1, r.pulse_count.2, MachineRec.countFrame_of_full h hfull]
    exact ⟨rfl, rfl⟩
  · obtain ⟨-, -, hsince, hstart⟩ := MachineRec.pulse_of_on h
    exact ⟨hsince, hstart⟩
  · rw [MachineRec.pulse_of_reference h href, MachineRec.countFrame_kept]
    exact ⟨rfl, rfl, rfl, rfl⟩
  · obtain ⟨hpulseRef, htimer, hring⟩ := MachineRec.pulse_ring h href
    rw [hring]
    refine ⟨hpulseRef, htimer, rfl, fun hfull => ?_, fun hopen => ?_, fun hfull => ?_⟩
    · rw [MachineRec.pulse_of_fullRing h href hfull]
      obtain ⟨-, -, -, -, -, -, -, haverage, hlast, hcfps⟩ := MachineRec.judgeSpeed_kept
        (decide (2352 ≤ 100000000 / (r.timed.ring.sum / 8) ∧ 100000000 / (r.timed.ring.sum / 8) ≤ 2448))
        { r.timed with average := some (r.timed.ring.sum / 8), lastAverage := some (r.timed.ring.sum / 8)
                       cfps := some (100000000 / (r.timed.ring.sum / 8)) }
      exact ⟨haverage, hlast, hcfps⟩
    · rw [MachineRec.pulse_of_openRing h href hopen, MachineRec.timed, MachineRec.countFrame_kept]
      exact ⟨rfl, rfl, rfl, rfl⟩
    · intro p
      rw [r.pulse_count.1, r.pulse_count.2, MachineRec.pulse_of_fullRing h href hfull]
      congr 1
      rw [MachineRec.timed, MachineRec.countFrame_kept]
      simp [href, p, MachineRec.timed]
  · rw [MachineRec.pulse_of_off h, MachineRec.countFrame_kept]
    exact ⟨rfl, rfl, rfl, rfl, rfl, rfl⟩

end Sys2Proof.Machine

/-! What a machine that stands still keeps while the show reacts, and the events that stop a machine: the frame pulse, the
loop switch, the stall and the contactor failure. -/

namespace Sys2Proof.Machine

open Sys2Proof Host

/-! ### The douser of every machine a reaction writes follows the rule of R15 -/

/-- Each machine's record is as it was, or has its douser settled. -/
def DouserFollows (a b : State) : Prop := ∀ m, b.machine m = a.machine m ∨ ∃ r : MachineRec, b.machine m = r.settleDouser

theorem DouserFollows.refl (s : State) : DouserFollows s s := fun _ => .inl rfl

theorem DouserFollows.trans {a b c : State} (h : DouserFollows a b) (k : DouserFollows b c) : DouserFollows a c := by
  intro m
  rcases k m with e | e
  · rw [e]; exact h m
  · exact .inr e

theorem DouserFollows.of_machine_eq {a b : State} (h : ∀ m, b.machine m = a.machine m) : DouserFollows a b :=
  fun m => .inl (h m)

theorem DouserFollows.modMachine (m : MachineId) (f : MachineRec → MachineRec) (s : State) :
    DouserFollows s (s.modMachine m f) := by
  intro k
  rw [State.modMachine_machine]
  split
  · exact .inr ⟨_, rfl⟩
  · exact .inl rfl

theorem DouserFollows.modLamp (m : MachineId) (f : LampRec → LampRec) (s : State) :
    DouserFollows s (s.modLamp m f) := by
  intro k
  rw [State.modLamp_machine]
  split
  · exact .inr ⟨_, rfl⟩
  · exact .inl rfl

theorem DouserFollows.slotNotice (sc : ScreenId) (n : SlotIx) (st : SlotStatus) (s : State) :
    DouserFollows s (s.slotNotice sc n st) := by
  unfold State.slotNotice
  split
  · dsimp only
    split
    · exact .of_machine_eq fun _ => by simp
    · exact (((DouserFollows.of_machine_eq fun _ => by simp).trans (.modMachine _ _ _)).trans (.modLamp _ _ _))
  · exact .of_machine_eq fun _ => by simp
  all_goals exact .refl s

theorem Reaction.douser {a b : State} (h : Reaction a b) : DouserFollows a b := by
  cases h with
  | report | screen | emptyDeferred | defer | notePosting | place | release => exact .of_machine_eq fun _ => by simp
  | order => exact .modMachine _ _ _
  | lamp => exact .modLamp _ _ _
  | slot => exact .slotNotice _ _ _ _

theorem Reactions.douser {a b : State} (h : Reactions a b) : DouserFollows a b := by
  induction h with
  | refl => exact .refl a
  | tail _ step ih => exact ih.trans step.douser

theorem MachineState.resting_ne_onScreen {st : MachineState} (h : st.resting = true) : st ≠ .onScreen := by
  rintro rfl
  exact absurd h (by decide)

theorem MachineRec.settleDouser_closed {r : MachineRec} (h : r.state ≠ .onScreen) : r.settleDouser.douser = .closed := by
  simp [settleDouser, h]

/-- A resting machine with its douser CLOSED is left by every reaction but for its binding, its rejected cues and its LAMP
hold. -/
theorem Reactions.machine_of_resting {a b : State} {m : MachineId} (h : Reactions a b)
    (hrest : (a.machine m).state.resting = true) (hdouser : (a.machine m).douser = .closed) :
    b.machine m = { a.machine m with
      boundSlot := (b.machine m).boundSlot, rejected := (b.machine m).rejected
      holds := { (a.machine m).holds with lamp := (b.machine m).holds.lamp } } := by
  have hrested := h.frame.machineRested m hrest
  have hclosed : (b.machine m).douser = (a.machine m).douser := by
    rcases h.douser m with e | ⟨r, e⟩
    · rw [e]
    · have hstate : r.state = (a.machine m).state := by
        have := congrArg MachineRec.state hrested
        rwa [e, MachineRec.settleDouser_state] at this
      rw [e, hdouser, MachineRec.settleDouser_closed (hstate ▸ MachineState.resting_ne_onScreen hrest)]
  rw [hclosed] at hrested
  exact hrested

/-! ### The records of a machine that stops or breaks -/

theorem MachineRec.motorOff_motor (r : MachineRec) : r.motorOff.motor = false := (motorOff_keeps r).2.2.1

theorem MachineRec.enterStopped_state (r : MachineRec) : r.enterStopped.state = .stopped :=
  (motorOff_keeps _).1

/-- What the entry to STOPPED leaves (R9, R10, R29). -/
theorem MachineRec.enterStopped_fields (r : MachineRec) :
    r.enterStopped.motor = false ∧ r.enterStopped.douserRequest = .closed ∧ r.enterStopped.ring = []
      ∧ r.enterStopped.cfps = none ∧ r.enterStopped.frameCount = r.frameCount := by
  refine ⟨motorOff_motor _, ?_, rfl, rfl, ?_⟩ <;> unfold enterStopped motorOff <;> split <;> rfl

/-- What the entry to BROKEN leaves (R13, R2). -/
theorem MachineRec.enterBroken_fields (cause : BreakCause) (r : MachineRec) :
    (r.enterBroken cause).state = .broken ∧ (r.enterBroken cause).breakCause = some cause
      ∧ (r.enterBroken cause).motor = false
      ∧ (r.enterBroken cause).laceUp = (if r.motor then false else r.laceUp)
      ∧ (r.enterBroken cause).holds.brk = true ∧ (r.enterBroken cause).douserRequest = .closed
      ∧ (r.enterBroken cause).frameCount = r.frameCount ∧ (r.enterBroken cause).accelAllowance = r.accelAllowance := by
  refine ⟨(motorOff_keeps _).1, ?_, motorOff_motor _, ?_, ?_, ?_, ?_, ?_⟩ <;> unfold enterBroken motorOff
    <;> cases r.motor <;> rfl

/-- A reel end is the entry to STOPPED and what the show makes of it. -/
theorem State.reelEnd_reactions (m : MachineId) (s : State) :
    Reactions (s.modMachine m MachineRec.enterStopped) (s.reelEnd m) := by
  unfold State.reelEnd
  exact .lampSettled m _ (.lampOff m (.reelEndNotice m _ (.refl' _)))

/-- A break is the entry to BROKEN and what the show makes of it. -/
theorem State.breakRun_reactions (m : MachineId) (cause : BreakCause) (s : State) :
    Reactions (s.modMachine m (MachineRec.enterBroken cause)) (s.breakRun m cause) :=
  .breakNotice m _ (.report _ (.refl' _))

/-- A machine stopped by a modification stays so, whatever the show makes of it. -/
theorem Reactions.machine_of_stopped {s t : State} {m : MachineId}
    (h : Reactions (s.modMachine m MachineRec.enterStopped) t) :
    (t.machine m).state = .stopped ∧ (t.machine m).motor = false ∧ (t.machine m).douserRequest = .closed
      ∧ (t.machine m).douser = .closed ∧ (t.machine m).ring = [] ∧ (t.machine m).cfps = none
      ∧ (t.machine m).frameCount = (s.machine m).frameCount := by
  have hrec : (s.modMachine m MachineRec.enterStopped).machine m = (s.machine m).enterStopped.settleDouser := by simp
  have hstate := (s.machine m).enterStopped_state
  have hrested : ((s.machine m).enterStopped.settleDouser.state).resting = true := by
    rw [MachineRec.settleDouser_state, hstate]; rfl
  have hdouser : (s.machine m).enterStopped.settleDouser.douser = .closed :=
    MachineRec.settleDouser_closed (by rw [hstate]; simp)
  have hkept := h.machine_of_resting (by rw [hrec]; exact hrested) (by rw [hrec]; exact hdouser)
  rw [hrec] at hkept
  obtain ⟨hmotor, hrequest, hring, hcfps, hcount⟩ := (s.machine m).enterStopped_fields
  rw [hkept]
  exact ⟨hstate, hmotor, hrequest, hdouser, hring, hcfps, hcount⟩

/-- A machine broken by a modification stays so, whatever the show makes of it. -/
theorem Reactions.machine_of_broken {s t : State} {m : MachineId} {cause : BreakCause}
    (h : Reactions (s.modMachine m (MachineRec.enterBroken cause)) t) :
    (t.machine m).state = .broken ∧ (t.machine m).breakCause = some cause ∧ (t.machine m).motor = false
      ∧ (t.machine m).laceUp = (if (s.machine m).motor then false else (s.machine m).laceUp)
      ∧ (t.machine m).holds.brk = true ∧ (t.machine m).douserRequest = .closed ∧ (t.machine m).douser = .closed
      ∧ (t.machine m).frameCount = (s.machine m).frameCount
      ∧ (t.machine m).accelAllowance = (s.machine m).accelAllowance := by
  have hrec : (s.modMachine m (MachineRec.enterBroken cause)).machine m
      = ((s.machine m).enterBroken cause).settleDouser := by simp
  obtain ⟨hstate, hcause, hmotor, hlace, hbrk, hrequest, hcount, hallow⟩ := (s.machine m).enterBroken_fields cause
  have hrested : (((s.machine m).enterBroken cause).settleDouser.state).resting = true := by
    rw [MachineRec.settleDouser_state, hstate]; rfl
  have hdouser : ((s.machine m).enterBroken cause).settleDouser.douser = .closed :=
    MachineRec.settleDouser_closed (by rw [hstate]; simp)
  have hkept := h.machine_of_resting (by rw [hrec]; exact hrested) (by rw [hrec]; exact hdouser)
  rw [hrec] at hkept
  rw [hkept]
  exact ⟨hstate, hcause, hmotor, hlace, hbrk, hrequest, hdouser, hcount, hallow⟩

/-! ### The frame pulse -/

/-- A decoder's sample stays in the show's frame. -/
theorem ShowFrame.decoderNotice (m : MachineId) (foil : Bool) (s : State) : ShowFrame s (s.decoderNotice m foil) := by
  unfold State.decoderNotice
  split
  · exact (ShowFrame.ofDecoder m _ s).trans (Reactions.groupNews m _ (.refl' _)).frame
  · exact .refl s

theorem State.decoderNotice_of_motorOff {m : MachineId} {s : State} (foil : Bool) (h : (s.machine m).motor = false) :
    s.decoderNotice m foil = s := by
  simp [State.decoderNotice, h]

theorem State.speedReport_reactions (m : MachineId) (before : SpeedStatus) (s : State) :
    Reactions s (s.speedReport m before) := by
  unfold State.speedReport
  split <;> first | exact .report _ (.refl' s) | exact .refl' s

/-- A speed report is of the line alone. -/
theorem State.speedReport_line (m : MachineId) (before : SpeedStatus) (s : State) :
    ∃ l : LineUnit, s.speedReport m before = s.modLine fun _ => l := by
  unfold State.speedReport
  split <;> exact ⟨_, rfl⟩

@[simp] theorem State.speedReport_machine (m : MachineId) (before : SpeedStatus) (s : State) (k : MachineId) :
    (s.speedReport m before).machine k = s.machine k := by
  obtain ⟨l, h⟩ := s.speedReport_line m before
  rw [h, State.modLine_machine]

theorem State.speedReport_atReelEnd (m : MachineId) (before : SpeedStatus) (s : State) :
    (s.speedReport m before).atReelEnd m = s.atReelEnd m := by
  obtain ⟨l, h⟩ := s.speedReport_line m before
  rw [h]
  rfl

theorem State.atReelEnd_iff (s : State) (m : MachineId) :
    s.atReelEnd m = true ↔
      (s.machine m).state.running = true ∧ ∃ len, s.boundLength m = some len ∧ len ≤ (s.machine m).frameCount := by
  unfold State.atReelEnd
  cases s.boundLength m <;> simp

theorem State.framePulse_frame (m : MachineId) (foil : Bool) (s : State) :
    ShowFrame (s.modMachine m MachineRec.pulse) (s.framePulse m foil) := by
  unfold State.framePulse
  have hreport := State.speedReport_reactions m (s.machine m).speed (s.modMachine m MachineRec.pulse)
  refine ShowFrame.trans ?_ (Reactions.frameNotice m (.refl' _)).frame
  refine ShowFrame.trans ?_ (ShowFrame.decoderNotice m foil _)
  split
  next hend => exact (hreport.reelEnd m ((State.atReelEnd_iff _ _).1 hend).1).frame
  next => exact hreport.frame

theorem exec_framePulse_wired {m : MachineId} {dt : Nat} {foil : Bool} {s : State} (hp : s.powered = true)
    (hw : s.wired m = true) :
    exec (.framePulse m dt foil) s = .next ((s.elapse dt).framePulse m (s.sense m s.straps.foil foil)) := by
  have hw' : (s.elapse dt).wired m = true := hw
  change execFramePulse m dt foil s = _
  simp only [execFramePulse, State.whenPowered, hp, hw', if_true]
  rfl

theorem exec_framePulse_unwired {m : MachineId} {dt : Nat} {foil : Bool} {s : State} (hp : s.powered = true)
    (hw : s.wired m = false) : exec (.framePulse m dt foil) s = .next (s.elapse dt) := by
  have hw' : (s.elapse dt).wired m = false := hw
  change execFramePulse m dt foil s = _
  simp [execFramePulse, State.whenPowered, hp, hw']

/-- Settles O16: the reel end is the entry to STOPPED, which neither the decoder nor the controller then undoes. -/
theorem framePulseCompletes : Obligations.FramePulseCompletes := by
  unfold Obligations.FramePulseCompletes
  intro m dt foil s hp
  refine ⟨exec_framePulse_unwired hp, fun hw => ⟨_, exec_framePulse_wired hp hw, State.framePulse_frame m _ _, ?_, ?_⟩⟩
  · rw [State.framePulse, State.speedReport_atReelEnd]
    rfl
  · intro len hlen hrun hle
    have hend : ((s.elapse dt).modMachine m MachineRec.pulse).atReelEnd m = true :=
      (State.atReelEnd_iff _ _).2 ⟨by simpa using hrun, len, hlen, by simpa using hle⟩
    rw [State.framePulse, State.speedReport_atReelEnd, if_pos hend]
    generalize hu : ((s.elapse dt).modMachine m MachineRec.pulse).speedReport m ((s.elapse dt).machine m).speed = u
    have hstop := (u.reelEnd_reactions m).machine_of_stopped
    rw [State.decoderNotice_of_motorOff _ hstop.2.1]
    have hcount : (u.machine m).frameCount = ((s.elapse dt).machine m).pulse.frameCount := by
      rw [← hu]; simp
    rw [← hcount]
    exact ((u.reelEnd_reactions m).frameNotice m).machine_of_stopped

/-! ### Loop switch, stall and contactor failure -/

/-- The state with the loop switch of machine `m` read. -/
def State.loopRead (m : MachineId) (closed : Bool) (s : State) : State :=
  s.modMachine m fun r => { r with loopSwitchClosed := closed }

theorem exec_loopSwitchOpen {s : State} (m : MachineId) (flowing : Bool) (hp : s.powered = true) :
    exec (.loopSwitchOpen m flowing) s = .next
      (if s.sense m s.straps.loopSwitch flowing then s.loopRead m (s.sense m s.straps.loopSwitch flowing)
        else (s.loopRead m (s.sense m s.straps.loopSwitch flowing)).loopOpened m) := by
  change execLoopSwitchOpen m flowing s = _
  simp only [execLoopSwitchOpen, State.whenPowered, hp, if_true, State.loopRead]

theorem State.loopRead_state (m : MachineId) (closed : Bool) (s : State) :
    ((s.loopRead m closed).machine m).state = (s.machine m).state := by simp [loopRead]

theorem State.loopRead_tailDue (m : MachineId) (closed : Bool) (s : State) :
    (s.loopRead m closed).tailDue m = s.tailDue m := by
  have hslot (n : SlotIx) : (s.loopRead m closed).slot (screenOf m) n = s.slot (screenOf m) n :=
    State.modMachine_slot _ _ _ _ _
  have hrec : (s.loopRead m closed).machine m
      = { s.machine m with loopSwitchClosed := closed, douser := ((s.loopRead m closed).machine m).douser } := by
    simp [State.loopRead, MachineRec.settleDouser]
  have hentry : (s.loopRead m closed).boundEntry m = s.boundEntry m := by
    rw [State.boundEntry, hrec]
    simp only [hslot, State.boundEntry]
  rw [State.tailDue, hentry, hrec]
  rfl

theorem State.tailDue_of_entry {s : State} {m : MachineId} {e : SlotEntry} (he : s.boundEntry m = some e)
    (hlen : e.length ≤ (s.machine m).frameCount + 100)
    (hstate : (s.machine m).state = .runout
      ∨ ((s.machine m).state = .onScreen ∧ (e.last = true ∨ e.int.isSome = true))) : s.tailDue m = true := by
  simp only [State.tailDue, he, Config.tailFrames, Bool.and_eq_true, Bool.or_eq_true, beq_iff_eq, decide_eq_true_eq]
  exact ⟨hstate, hlen⟩

theorem exec_contactorFailure {s : State} (m : MachineId) (hp : s.powered = true) :
    exec (.contactorFailure m) s = .next (s.contactorFails m) := by
  change execContactorFailure m s = _
  simp only [execContactorFailure, State.whenPowered, hp, if_true]

theorem State.contactorFails_of_running {s : State} {m : MachineId} (hrun : (s.machine m).state.running = true)
    (hmeasure : (s.machine m).contactorMeasure.isSome = true) : s.contactorFails m = s.breakRun m .contactor := by
  rw [State.contactorFails, if_pos hmeasure, if_pos hrun]

theorem exec_stall_of_running {s : State} {m : MachineId} (hp : s.powered = true)
    (hrun : (s.machine m).state.running = true) (hmeasure : (s.machine m).stallMeasured = true) :
    exec (.stall m) s = .next (s.breakRun m .stall) := by
  change execStall m s = _
  simp [execStall, State.whenPowered, hp, hrun, hmeasure]

/-- Settles O17: each is the break, or in the runout tail the reel end, whose records no reaction undoes. -/
theorem loopSwitchStallAndFailureComplete : Obligations.LoopSwitchStallAndFailureComplete := by
  unfold Obligations.LoopSwitchStallAndFailureComplete
  have hbreak (u : State) (m : MachineId) (cause : BreakCause) := (u.breakRun_reactions m cause).machine_of_broken
  have hframe (u : State) (m : MachineId) (cause : BreakCause) := (u.breakRun_reactions m cause).frame
  refine ⟨fun m s hp hrun => ⟨fun flowing hopen htail => ?_, fun hmeasure => ?_, fun hmeasure => ?_⟩,
    fun m flowing s hp => ⟨fun hcase => ?_, fun hopen e he hlen hstate => ?_⟩⟩
  · refine ⟨(s.loopRead m false).breakRun m .loop, ?_, ?_⟩
    · rw [exec_loopSwitchOpen m flowing hp, hopen, State.loopOpened, State.loopRead_state, State.loopRead_tailDue]
      simp [hrun, htail]
    · obtain ⟨hstate, hcause, hmotor, hlace, hbrk, hrequest, hdouser, hcount, hallow⟩ :=
        hbreak (s.loopRead m false) m .loop
      exact ⟨hstate, hcause, hmotor, by simpa [State.loopRead] using hlace, hbrk, hrequest, hdouser,
        by simpa [State.loopRead] using hcount, by simpa [State.loopRead] using hallow, hframe _ _ _, rfl⟩
  · refine ⟨s.breakRun m .contactor, ?_, ?_⟩
    · rw [exec_contactorFailure m hp, State.contactorFails_of_running hrun hmeasure]
    · obtain ⟨hstate, hcause, hmotor, hlace, hbrk, hrequest, hdouser, hcount, hallow⟩ := hbreak s m .contactor
      exact ⟨hstate, hcause, hmotor, hlace, hbrk, hrequest, hdouser, hcount, hallow, hframe _ _ _, rfl⟩
  · have hmeasured : (s.machine m).stallMeasured = true := by
      simpa [MachineRec.stallMeasured] using hmeasure
    refine ⟨s.breakRun m .stall, exec_stall_of_running hp hrun hmeasured, ?_⟩
    obtain ⟨hstate, hcause, hmotor, hlace, hbrk, hrequest, hdouser, hcount, hallow⟩ := hbreak s m .stall
    exact ⟨hstate, hcause, hmotor, hlace, hbrk, hrequest, hdouser, hcount, hallow, hframe _ _ _, rfl⟩
  · rw [exec_loopSwitchOpen m flowing hp]
    rcases hcase with hclosed | hrest
    · rw [if_pos hclosed]
      rfl
    · rw [State.loopOpened, State.loopRead_state, hrest]
      simp [State.loopRead]
  · have hrun : (s.machine m).state.running = true := by
      rcases hstate with h | ⟨h, -⟩ <;> rw [h] <;> rfl
    refine ⟨(s.loopRead m false).reelEnd m, ?_, ?_⟩
    · rw [exec_loopSwitchOpen m flowing hp, hopen, State.loopOpened, State.loopRead_state, State.loopRead_tailDue,
        State.tailDue_of_entry he hlen hstate]
      simp [hrun]
    · obtain ⟨hstopped, hmotor, hrequest, hdouser, hring, -, hcount⟩ :=
        ((s.loopRead m false).reelEnd_reactions m).machine_of_stopped
      rw [hopen]
      exact ⟨hstopped, hmotor, hrequest, hdouser, hring, by simpa [State.loopRead] using hcount,
        ((s.loopRead m false).reelEnd_reactions m).frame, rfl⟩

end Sys2Proof.Machine

/-! A refused console command is answered its reason and changes nothing else. -/

namespace Sys2Proof.Machine

open Sys2Proof Host

theorem reasonOf_eq_some {α : Type} {x : Except Reason α} {r : Reason} : reasonOf x = some r ↔ x = .error r := by
  cases x <;> simp [reasonOf]

/-- A command whose owner answers it at once, and does nothing else, leaves the state answered. -/
theorem next_takeCommand_answered {s : State} {c : Instr} {f : State → State} {r : Reply} (hp : s.powered = true)
    (h : f (s.taken c) = (s.taken c).answer r) :
    (Outcome.next (s.takeCommand c f) : Outcome State Fault Refusal) = .next (s.answered c r) := by
  rw [State.takeCommand_of_powered hp, h]
  rfl

/-- A console command that its parse or a test refuses is answered the reason, and only the line unit differs: in each
owner the refusal is the first branch. -/
theorem exec_refused {s : State} {c : Instr} {r : Reason} (hp : s.powered = true) (h : Instr.refusal? s c = some r) :
    exec c s = .next (s.answered c (.no r)) := by
  cases c with
  | motor w =>
    have hparse : parseMotor (s.taken (.motor w)) w = .error r := reasonOf_eq_some.1 h
    exact next_takeCommand_answered hp (by simp only [hparse])
  | douse w =>
    have hparse : machineAndWord (s.taken (.douse w)) (txt "CLOSE") (txt "OPEN") w = .error r := reasonOf_eq_some.1 h
    exact next_takeCommand_answered hp (by simp only [hparse])
  | mstat w =>
    have hparse : onlyMachine (s.taken (.mstat w)) w = .error r := reasonOf_eq_some.1 h
    exact next_takeCommand_answered hp (by simp only [hparse])
  | arcoff w =>
    have hparse : onlyMachine (s.taken (.arcoff w)) w = .error r := reasonOf_eq_some.1 h
    exact next_takeCommand_answered hp (by simp only [hparse])
  | lstat w =>
    have hparse : onlyMachine (s.taken (.lstat w)) w = .error r := reasonOf_eq_some.1 h
    exact next_takeCommand_answered hp (by simp only [hparse])
  | cuemap w =>
    have hparse : parseCuemap (s.taken (.cuemap w)) w = .error r := reasonOf_eq_some.1 h
    exact next_takeCommand_answered hp (by simp only [hparse])
  | strike w =>
    have hparse : parseStrike (s.taken (.strike w)) w = .error r := reasonOf_eq_some.1 h
    exact next_takeCommand_answered hp (by simp only [hparse])
  | trim w =>
    have hparse : parseTrim (s.taken (.trim w)) w = .error r := reasonOf_eq_some.1 h
    exact next_takeCommand_answered hp (by simp only [hparse])
  | lampset w =>
    have hparse : parseLampset (s.taken (.lampset w)) w = .error r := reasonOf_eq_some.1 h
    exact next_takeCommand_answered hp (by simp only [hparse])
  | reel w =>
    have hparse : parseReel (s.taken (.reel w)) w = .error r := reasonOf_eq_some.1 h
    exact next_takeCommand_answered hp (by simp only [hparse])
  | plancopy w =>
    have hparse : parsePlancopy (s.taken (.plancopy w)) w = .error r := reasonOf_eq_some.1 h
    exact next_takeCommand_answered hp (by simp only [hparse])
  | planclr w =>
    have hparse : parsePlanclr (s.taken (.planclr w)) w = .error r := reasonOf_eq_some.1 h
    exact next_takeCommand_answered hp (by simp only [hparse])
  | pstat w =>
    have hparse : screenAndSlot (s.taken (.pstat w)) w = .error r := reasonOf_eq_some.1 h
    exact next_takeCommand_answered hp (by simp only [hparse])
  | thread w =>
    have hparse : parseThread (s.taken (.thread w)) w = .error r := reasonOf_eq_some.1 h
    exact next_takeCommand_answered hp (by simp only [hparse])
  | unthread w =>
    have hparse : parseUnthread (s.taken (.unthread w)) w = .error r := reasonOf_eq_some.1 h
    exact next_takeCommand_answered hp (by simp only [hparse])
  | showat w =>
    have hparse : parseShowat (s.taken (.showat w)) w = .error r := reasonOf_eq_some.1 h
    exact next_takeCommand_answered hp (by simp only [hparse])
  | start w =>
    have hparse : parseStart (s.taken (.start w)) w = .error r := reasonOf_eq_some.1 h
    exact next_takeCommand_answered hp (by simp only [hparse])
  | swapnow w =>
    have hparse : parseSwapnow (s.taken (.swapnow w)) w = .error r := reasonOf_eq_some.1 h
    exact next_takeCommand_answered hp (by simp only [hparse])
  | sound w =>
    have hparse : parseSound (s.taken (.sound w)) w = .error r := reasonOf_eq_some.1 h
    exact next_takeCommand_answered hp (by simp only [hparse])
  | resume w =>
    have hparse : parseResume (s.taken (.resume w)) w = .error r := reasonOf_eq_some.1 h
    exact next_takeCommand_answered hp (by simp only [hparse])
  | abort w =>
    have hparse : parseAbort (s.taken (.abort w)) w = .error r := reasonOf_eq_some.1 h
    exact next_takeCommand_answered hp (by simp only [hparse])
  | screenset w =>
    have hparse : parseScreenset (s.taken (.screenset w)) w = .error r := reasonOf_eq_some.1 h
    exact next_takeCommand_answered hp (by simp only [hparse])
  | sstat w =>
    have hparse : onlyScreen (s.taken (.sstat w)) w = .error r := reasonOf_eq_some.1 h
    exact next_takeCommand_answered hp (by simp only [hparse])
  | hlstat w =>
    have hparse : onlyScreen (s.taken (.hlstat w)) w = .error r := reasonOf_eq_some.1 h
    exact next_takeCommand_answered hp (by simp only [hparse])
  | scenedef w =>
    have hparse : parseScenedef (s.taken (.scenedef w)) w = .error r := reasonOf_eq_some.1 h
    exact next_takeCommand_answered hp (by simp only [hparse])
  | level w =>
    have hparse : parseLevel (s.taken (.level w)) w = .error r := reasonOf_eq_some.1 h
    exact next_takeCommand_answered hp (by simp only [hparse])
  | scene w =>
    have hparse : parseScene (s.taken (.scene w)) w = .error r := reasonOf_eq_some.1 h
    exact next_takeCommand_answered hp (by simp only [hparse])
  | release w =>
    have hparse : parseRelease (s.taken (.release w)) w = .error r := reasonOf_eq_some.1 h
    exact next_takeCommand_answered hp (by simp only [hparse])
  | resetM w =>
    have hparse : parseReset (s.taken (.resetM w)) w = .error r := reasonOf_eq_some.1 h
    exact next_takeCommand_answered hp (by simp only [hparse])
  | resetBooth w =>
    have hparse : parseResetBooth (s.taken (.resetBooth w)) w = .error r := reasonOf_eq_some.1 h
    exact next_takeCommand_answered hp (by simp only [hparse])
  | incident w =>
    have hparse : parseIncident (s.taken (.incident w)) w = .error r := reasonOf_eq_some.1 h
    exact next_takeCommand_answered hp (by simp only [hparse])
  | inclear w =>
    have hparse : parseInclear (s.taken (.inclear w)) w = .error r := reasonOf_eq_some.1 h
    exact next_takeCommand_answered hp (by simp only [hparse])
  | fireset w =>
    have hparse : parseFireset (s.taken (.fireset w)) w = .error r := reasonOf_eq_some.1 h
    exact next_takeCommand_answered hp (by simp only [hparse])
  | time w =>
    exact next_takeCommand_answered hp (by simp only [reasonOf_eq_some.1 h])
  | fstat w =>
    exact next_takeCommand_answered hp (by simp only [reasonOf_eq_some.1 h])
  | ident w =>
    exact next_takeCommand_answered hp (by simp only [reasonOf_eq_some.1 h])
  | status w =>
    exact next_takeCommand_answered hp (by simp only [reasonOf_eq_some.1 h])
  | restart w =>
    exact next_takeCommand_answered hp (by simp only [reasonOf_eq_some.1 h])
  | _ => exact absurd h (by simp [Instr.refusal?])

/-- Settles O3. -/
theorem refusedCommandChangesNothing : Obligations.RefusedCommandChangesNothing := by
  unfold Obligations.RefusedCommandChangesNothing
  intro c r s hp h
  exact ⟨_, exec_refused hp h, rfl, rfl⟩

end Sys2Proof.Machine

/-! The machine unit's own events and commands: the contactor sense, the no-pulse timer, MOTOR and DOUSE. -/

namespace Sys2Proof.Machine

open Sys2Proof Host

/-! ### Parses, step by step -/

@[simp] theorem ok_bind {α β : Type} (a : α) (f : α → Except Reason β) : (Except.ok a >>= f) = f a := rfl

@[simp] theorem error_bind {α β : Type} (r : Reason) (f : α → Except Reason β) :
    ((Except.error r : Except Reason α) >>= f) = .error r := rfl

@[simp] theorem pure_ok {α : Type} (a : α) : (pure a : Except Reason α) = .ok a := rfl

@[simp] theorem formOf_some {α : Type} (a : α) : formOf (some a) = .ok a := rfl

@[simp] theorem formOf_none {α : Type} : formOf (none : Option α) = .error .form := rfl

@[simp] theorem need_true (r : Reason) : need true r = .ok () := rfl

@[simp] theorem need_false (r : Reason) : need false r = .error r := rfl

/-! ### A machine number as an operand -/

theorem machineOperand_of_namesMachine {s : State} {a : Text} {m : MachineId} (h : s.namesMachine a m) :
    ∃ n, number? a = some n ∧ machineOperand s n = .ok m := by
  obtain ⟨hnum, hwired⟩ := h
  obtain ⟨n, hn, hm⟩ := Option.bind_eq_some_iff.mp hnum
  exact ⟨n, hn, by simp [machineOperand, hm, (s.wired_iff m).mp hwired]⟩

/-- A number that is no machine's, or that of a machine not fitted, is out of range (R22, R176). -/
theorem machineOperand_range {s : State} {n : Nat}
    (h : n < 1 ∨ 4 < n ∨ (3 ≤ n ∧ s.straps.screen2Fitted = false)) : machineOperand s n = .error .range := by
  match n, h with
  | 0, _ | _ + 5, _ => rfl
  | 1, h | 2, h => omega
  | 3, h | 4, h =>
    have hfit : s.straps.screen2Fitted = false := by
      rcases h with h | h | ⟨-, h⟩
      · omega
      · omega
      · exact h
    simp [machineOperand, machineOf?, screenOf, hfit]

/-- A machine's number and one of the two words are read as that machine and that word. -/
theorem machineAndWord_ok {s : State} {yes no a w : Text} {m : MachineId} {b : Bool} (h : s.namesMachine a m)
    (hw : eitherWord? yes no w = some b) : machineAndWord s yes no [a, w] = .ok (m, b) := by
  obtain ⟨n, hn, hm⟩ := machineOperand_of_namesMachine h
  simp [machineAndWord, hn, hw, hm]

theorem machineAndWord_range {s : State} {yes no a w : Text} {n : Nat} {b : Bool} (hn : number? a = some n)
    (hw : eitherWord? yes no w = some b) (hrange : machineOperand s n = .error .range) :
    machineAndWord s yes no [a, w] = .error .range := by
  simp [machineAndWord, hn, hw, hrange]

theorem eitherWord_isSome {yes no w : Text} (h : (eitherWord? yes no w).isSome = true) : w = yes ∨ w = no := by
  unfold eitherWord? at h
  split_ifs at h with hyes hno
  · exact .inl hyes
  · exact .inr hno
  · exact absurd h (by simp)

/-- Operands that are not a number and one of the two words are malformed. -/
theorem machineAndWord_form {s : State} {yes no : Text} {ops : List Text}
    (h : ¬ ∃ a w n, ops = [a, w] ∧ number? a = some n ∧ (w = yes ∨ w = no)) :
    machineAndWord s yes no ops = .error .form := by
  match ops with
  | [] | [_] | _ :: _ :: _ :: _ => rfl
  | [a, w] =>
    cases hn : number? a with
    | none => simp [machineAndWord, hn]
    | some n =>
      cases hw : eitherWord? yes no w with
      | none => simp [machineAndWord, hn, hw]
      | some b => exact absurd ⟨a, w, n, rfl, hn, eitherWord_isSome (by rw [hw]; rfl)⟩ h

theorem onlyMachine_range {s : State} {a : Text} {n : Nat} (hn : number? a = some n)
    (hrange : machineOperand s n = .error .range) : onlyMachine s [a] = .error .range := by
  simp [onlyMachine, hn, hrange]

/-- Operands that are not one number are malformed. -/
theorem onlyMachine_form {s : State} {ops : List Text} (h : ¬ ∃ a n, ops = [a] ∧ number? a = some n) :
    onlyMachine s ops = .error .form := by
  match ops with
  | [] | _ :: _ :: _ => rfl
  | [a] =>
    cases hn : number? a with
    | none => simp [onlyMachine, hn]
    | some n => exact absurd ⟨a, n, rfl, hn⟩ h

theorem motorOperands (w : Text) (h : w = txt "ON" ∨ w = txt "OFF") :
    ∃ b, eitherWord? (txt "ON") (txt "OFF") w = some b := by
  rcases h with rfl | rfl
  · exact ⟨true, by decide⟩
  · exact ⟨false, by decide⟩

theorem douseOperands (w : Text) (h : w = txt "CLOSE" ∨ w = txt "OPEN") :
    ∃ b, eitherWord? (txt "CLOSE") (txt "OPEN") w = some b := by
  rcases h with rfl | rfl
  · exact ⟨true, by decide⟩
  · exact ⟨false, by decide⟩

/-! ### DOUSE -/

theorem exec_douse_ok {s : State} {ops : List Text} {m : MachineId} {close : Bool} (hp : s.powered = true)
    (h : machineAndWord s (txt "CLOSE") (txt "OPEN") ops = .ok (m, close)) :
    exec (.douse ops) s
      = .next ((((s.taken (.douse ops)).holdRequest m .console close).machinePosted m).answer (.ok [])) := by
  have hparse : machineAndWord (s.taken (.douse ops)) (txt "CLOSE") (txt "OPEN") ops = .ok (m, close) := h
  change execDouse ops s = _
  simp only [execDouse, State.takeCommand_of_powered hp, hparse]

/-- What a held request sets off at the controller keeps the hold. -/
theorem machinePosted_console (m : MachineId) (close : Bool) (s : State) :
    (((s.holdRequest m .console close).machinePosted m).machine m).holds.console = close := by
  rw [((Reactions.refl' (s.holdRequest m .console close)).machinePosted m).frame.machine m |>.console]
  simp [State.holdRequest, HoldSet.put]

theorem HoldSet.isEmpty_of_console {h : HoldSet} (hheld : h.console = true) : h.isEmpty = false := by
  simp [isEmpty, hheld]

/-- Where the law of the booth holds, a machine with CONSOLE held has its douser CLOSED. -/
theorem BoothLaw.douser_of_console {s : State} (h : BoothLaw s) {m : MachineId}
    (hheld : (s.machine m).holds.console = true) : (s.machine m).douser = .closed := by
  cases hd : (s.machine m).douser with
  | closed => rfl
  | opened =>
    obtain ⟨-, -, hempty⟩ := (h.machine m).douser.1 hd
    rw [HoldSet.isEmpty_of_console hheld] at hempty
    exact absurd hempty (by simp)

/-- Settles O19: the hold is written at once, and no posting of it writes it again; each refusal is the parse's. -/
theorem douseAndMachineCommandTests : Obligations.DouseAndMachineCommandTests := by
  unfold Obligations.DouseAndMachineCommandTests
  have hframe (m : MachineId) (s : State) : ShowFrame s (s.machinePosted m) :=
    ((Reactions.refl' s).machinePosted m).frame
  refine ⟨fun m a s hp ha => ⟨?_, ?_⟩,
    fun s hp => ⟨fun ops h => ?_, fun ops h => ?_, fun ops h => ?_, fun a n hn hrange => ⟨fun w hw => ?_, fun w hw => ?_, ?_⟩⟩⟩
  · refine ⟨_, exec_douse_ok hp (machineAndWord_ok ha (by decide)), machinePosted_console m true _, fun hlaw => ?_,
      hframe m _, rfl⟩
    have hbooth : BoothLaw (s.taken (.douse [a, txt "CLOSE"])) := hlaw.congr rfl rfl rfl rfl fun _ => rfl
    exact (((Reactions.refl' _).machinePosted m).booth (BoothLaw.keeper.consoleHold hbooth m true)).douser_of_console
      (machinePosted_console m true _)
  · exact ⟨_, exec_douse_ok hp (machineAndWord_ok ha (by decide)), machinePosted_console m false _, hframe m _, rfl⟩
  · exact exec_refused hp (reasonOf_eq_some.2 (by simp [parseMotor, machineAndWord_form h]))
  · exact exec_refused hp (reasonOf_eq_some.2 (machineAndWord_form h))
  · exact exec_refused hp (reasonOf_eq_some.2 (onlyMachine_form h))
  · obtain ⟨b, hb⟩ := motorOperands w hw
    exact exec_refused hp (reasonOf_eq_some.2 (by
      simp [parseMotor, machineAndWord_range hn hb (machineOperand_range hrange)]))
  · obtain ⟨b, hb⟩ := douseOperands w hw
    exact exec_refused hp (reasonOf_eq_some.2 (machineAndWord_range hn hb (machineOperand_range hrange)))
  · exact exec_refused hp (reasonOf_eq_some.2 (onlyMachine_range hn (machineOperand_range hrange)))

/-! ### MOTOR, the contactor sense and the no-pulse timer -/

theorem exec_motor_ok {s : State} {ops : List Text} {m : MachineId} {on : Bool} (hp : s.powered = true)
    (h : parseMotor s ops = .ok (m, on)) :
    exec (.motor ops) s = .next (((s.taken (.motor ops)).modMachine m fun r =>
      if on then r.laceUpOn s.timebase else r.motorOff).answer (.ok [])) := by
  have hparse : parseMotor (s.taken (.motor ops)) ops = .ok (m, on) := h
  change execMotor ops s = _
  simp only [execMotor, State.takeCommand_of_powered hp, hparse]
  rfl

theorem parseMotor_of_empty {s : State} {a w : Text} {m : MachineId} {b : Bool} (ha : s.namesMachine a m)
    (hw : eitherWord? (txt "ON") (txt "OFF") w = some b) (hstate : (s.machine m).state = .empty) :
    parseMotor s [a, w] = .ok (m, b) := by
  simp [parseMotor, machineAndWord_ok ha hw, hstate, motorTest]

theorem parseMotor_refused {s : State} {a w : Text} {m : MachineId} {b : Bool} {r : Reason} (ha : s.namesMachine a m)
    (hw : eitherWord? (txt "ON") (txt "OFF") w = some b) (h : motorTest (s.machine m).state = .error r) :
    parseMotor s [a, w] = .error r := by
  simp [parseMotor, machineAndWord_ok ha hw, h]

theorem motorTest_state {st : MachineState} (hempty : st ≠ .empty) (htripped : st ≠ .tripped) :
    motorTest st = .error .state := by
  cases st with
  | empty => exact absurd rfl hempty
  | tripped => exact absurd rfl htripped
  | _ => rfl

/-- Taking and answering a command besides writes the line alone. -/
theorem OnlyMachine.of_taken {m : MachineId} {s t : State} {c : Instr} (h : OnlyMachine m (s.taken c) t) (r : Reply) :
    OnlyMachine m s (t.answer r) := by
  obtain ⟨hrest, hplan, hothers⟩ := h
  refine ⟨?_, hplan, hothers⟩
  rw [hrest]
  rfl

/-! ### A posting of a machine that is not ready -/

theorem State.openingTake_of_notReady {s : State} {sc : ScreenId} {m : MachineId} (hwait : s.waitedOn sc = some m)
    (h : s.openReady m = false) : s.openingTake sc = s := by
  simp [State.openingTake, hwait, h]

theorem State.testReady_of_notReady {s : State} {sc : ScreenId} {m : MachineId} (hsucc : s.successor sc = some m)
    (h : s.openReady m = false) : s.testReady sc = s := by
  simp [State.testReady, hsucc, State.swapReady, h]

/-- A posting of a machine that is not ready is watched for the picture alone. -/
theorem State.machinePosted_of_notReady {s : State} {m : MachineId}
    (h : (if (s.screen (screenOf m)).onScreen = some m then s.watchPicture (screenOf m) else s).openReady m = false) :
    s.machinePosted m
      = if (s.screen (screenOf m)).onScreen = some m then s.watchPicture (screenOf m) else s := by
  unfold State.machinePosted
  dsimp only
  generalize (if (s.screen (screenOf m)).onScreen = some m then s.watchPicture (screenOf m) else s) = u at h ⊢
  have htake : (if u.waitedOn (screenOf m) = some m then u.openingTake (screenOf m) else u) = u := by
    split
    next hwait => exact State.openingTake_of_notReady hwait h
    next => rfl
  rw [htake]
  split
  next hsucc => exact State.testReady_of_notReady hsucc h
  next => rfl

@[simp] theorem State.releaseFault_machine (sc : ScreenId) (s : State) (k : MachineId) :
    (s.releaseFault sc).machine k = s.machine k := by
  simp [State.releaseFault, State.releaseThree]

@[simp] theorem State.watchPicture_machine (sc : ScreenId) (s : State) (k : MachineId) :
    (s.watchPicture sc).machine k = s.machine k := by
  unfold State.watchPicture
  split
  · rfl
  · dsimp only
    split <;> simp

theorem State.openReady_of_speed {s : State} {m : MachineId} (h : (s.machine m).speed ≠ .atSpeed) :
    s.openReady m = false := by
  simp [State.openReady, h]

/-- A posting of a machine that is not AT_SPEED leaves every machine as it is. -/
theorem State.machinePosted_machine_of_speed {s : State} {m : MachineId} (h : (s.machine m).speed ≠ .atSpeed)
    (k : MachineId) : (s.machinePosted m).machine k = s.machine k := by
  have hmachine (j : MachineId) :
      (if (s.screen (screenOf m)).onScreen = some m then s.watchPicture (screenOf m) else s).machine j = s.machine j := by
    split <;> simp
  rw [State.machinePosted_of_notReady (State.openReady_of_speed (by rw [hmachine]; exact h)), hmachine]

/-! ### The decoder at a lace-up run -/

/-- The motor going on clears the group and keeps the queue (R47). -/
theorem DecoderRec.follow_of_motorOn {old new : MachineRec} (d : DecoderRec) (hold : old.motor = false)
    (hnew : new.motor = true) (hstate : new.state = old.state) :
    d.follow old new = { decode := .idle, patchCount := 0, patchLength := 0, gapFrames := 0, deferred := d.deferred } := by
  simp [DecoderRec.follow, hold, hnew, hstate, DecoderRec.clearGroup]

/-- The motor going off clears the group and empties the queue (R47). -/
theorem DecoderRec.follow_of_motorOff {old new : MachineRec} (d : DecoderRec) (hold : old.motor = true)
    (hnew : new.motor = false) :
    d.follow old new = { decode := .idle, patchCount := 0, patchLength := 0, gapFrames := 0, deferred := [] } := by
  simp [DecoderRec.follow, hold, hnew, DecoderRec.clearGroup]

theorem State.modMachine_decoder_self (m : MachineId) (f : MachineRec → MachineRec) (s : State) :
    (s.modMachine m f).decoder m = (s.decoder m).follow (s.machine m) (f (s.machine m)).settleDouser :=
  Quad.get_set_self _ _ _

theorem MachineRec.settleDouser_of_off {r : MachineRec} (h : r.state ≠ .onScreen) :
    r.settleDouser = { r with douser := .closed } := by
  simp [settleDouser, h]

theorem MachineRec.motorOff_of_on {r : MachineRec} (h : r.motor = true) :
    r.motorOff = { r with
      motor := false, laceUp := false, holds := { r.holds with speed := false }, noPulseTimer := some 0
      accelTimer := none, startMeasure := none, pulseMeasure := none, contactorMeasure := none } := by
  simp [motorOff, h, HoldSet.put]

theorem MachineRec.motorOff_of_off {r : MachineRec} (h : r.motor = false) : r.motorOff = r := by
  simp [motorOff, h]

theorem MachineRec.laceUpOn_of_on {r : MachineRec} (t : Nat) (h : r.motor = true) : r.laceUpOn t = r := by
  simp [laceUpOn, h]

theorem MachineRec.laceUpOn_of_off {r : MachineRec} (t : Nat) (h : r.motor = false) :
    r.laceUpOn t = { r with
      motor := true, laceUp := true, speed := .accel, holds := { r.holds with speed := true }
      motorOnTime := t, framesSinceOn := 0, atSpeedReached := false, ring := [], pulseRef := false
      periodTimer := none, average := none, cfps := none, inBandRun := 0, outBandRun := 0
      noPulseTimer := none, accelTimer := some 0, startMeasure := some 0, pulseMeasure := none
      contactorMeasure := if r.contactorClosed then none else some 0 } := by
  simp [laceUpOn, h, motorOn, clearRing, HoldSet.put]

/-- Settles O18: each writes the record of the one machine. -/
theorem motorAndContactorComplete : Obligations.MotorAndContactorComplete := by
  unfold Obligations.MotorAndContactorComplete
  refine ⟨fun m s hp => ⟨fun flowing => ?_, fun hstate hlace hmotor hmeasure => ?_, fun htimer => ?_⟩,
    fun m a s hp ha => ⟨fun hstate => ?_, fun hstate => ?_, fun w hw => ⟨fun hstate => ?_, fun hempty htrip => ?_⟩⟩⟩
  · refine ⟨s.modMachine m (MachineRec.takeContactorSense (s.sense m s.straps.contactorSense flowing)), ?_,
      State.modMachine_onlyMachine m _ s, rfl, ?_⟩
    · change execContactorSenseChange m flowing s = _
      simp only [execContactorSenseChange, State.whenPowered, hp, if_true]
    · simp [MachineRec.takeContactorSense, MachineRec.settleDouser]
  · refine ⟨(s.modMachine m MachineRec.motorOff).report (.broke m .contactor (s.machine m).frameCount), ?_,
      (State.modMachine_onlyMachine m _ s).report _, rfl, ?_⟩
    · rw [exec_contactorFailure m hp, State.contactorFails, if_pos hmeasure]
      simp [hstate, hlace, MachineState.running]
    · simp [MachineRec.motorOff_of_on hmotor, hstate]
  · have hspeed : ((s.modMachine m MachineRec.noPulse).machine m).speed ≠ .atSpeed := by simp [MachineRec.noPulse]
    refine ⟨(s.modMachine m MachineRec.noPulse).machinePosted m, ?_, ((Reactions.refl' _).machinePosted m).frame, ?_,
      fun j hj => ?_⟩
    · change execNoPulseTimerExpiry m s = _
      simp only [execNoPulseTimerExpiry, State.whenPowered, hp, htimer, if_true]
    · rw [State.machinePosted_machine_of_speed hspeed]
      simp [MachineRec.noPulse, MachineRec.clearRing, MachineRec.settleDouser]
    · rw [State.machinePosted_machine_of_speed hspeed]
      simp [hj]
  · have hrest : (s.machine m).state ≠ .onScreen := by rw [hstate]; simp
    refine ⟨_, exec_motor_ok hp (parseMotor_of_empty (b := true) ha (by decide) hstate),
      (State.modMachine_onlyMachine m _ _).of_taken _, rfl, fun hmotor => ?_, fun hmotor => ⟨?_, ?_⟩⟩
    · simp [MachineRec.laceUpOn_of_on _ hmotor, MachineRec.settleDouser_of_off hrest]
    · refine (State.modMachine_decoder_self m _ _).trans (DecoderRec.follow_of_motorOn _ hmotor ?_ ?_)
        <;> simp [MachineRec.laceUpOn_of_off _ hmotor]
    · simp [MachineRec.laceUpOn_of_off _ hmotor, MachineRec.settleDouser, hstate, State.taken]
  · have hrest : (s.machine m).state ≠ .onScreen := by rw [hstate]; simp
    refine ⟨_, exec_motor_ok hp (parseMotor_of_empty (b := false) ha (by decide) hstate),
      (State.modMachine_onlyMachine m _ _).of_taken _, rfl, fun hmotor => ?_, fun hmotor => ⟨?_, ?_⟩⟩
    · simp [MachineRec.motorOff_of_off hmotor, MachineRec.settleDouser_of_off hrest]
    · refine (State.modMachine_decoder_self m _ _).trans (DecoderRec.follow_of_motorOff _ hmotor ?_)
      simp [MachineRec.motorOff_of_on hmotor]
    · simp [MachineRec.motorOff_of_on hmotor, MachineRec.settleDouser, hstate]
  · obtain ⟨b, hb⟩ := motorOperands w hw
    exact exec_refused hp (reasonOf_eq_some.2 (parseMotor_refused ha hb (by rw [hstate]; rfl)))
  · obtain ⟨b, hb⟩ := motorOperands w hw
    exact exec_refused hp (reasonOf_eq_some.2 (parseMotor_refused ha hb (motorTest_state hempty htrip)))

end Sys2Proof.Machine

/-! The show's own commands stay in the show's frame: each is a run of reactions. -/

namespace Sys2Proof.Machine

open Sys2Proof Host

namespace Reactions

variable {a b : State}

theorem abortMachine (m : MachineId) (h : Reactions a b) : Reactions a (b.abortMachine m) := by
  have hemptied := (lampOff m (stopOrder m h)).tail (.emptyDeferred m _)
  unfold State.abortMachine
  dsimp only
  split
  · exact outgoingReelEnds m hemptied
  · exact hemptied

theorem cutCurrent (sc : ScreenId) (h : Reactions a b) : Reactions a (b.cutCurrent sc) := by
  unfold State.cutCurrent
  split
  · exact h
  · exact slotNotice _ _ _ (.inr rfl) h

theorem abort (sc : ScreenId) (h : Reactions a b) : Reactions a (b.abort sc) :=
  evaluateScreen _ (goIdle _ (releaseFault _ (releaseThree _ .cue trivial
    (cutCurrent _ (abortMachine _ (abortMachine _ h))))))

theorem openOnDeck (sc : ScreenId) (n : SlotIx) (h : Reactions a b) : Reactions a (b.openOnDeck sc n) :=
  reportIf _ _ (openSlot sc n h)

theorem swapNow (sc : ScreenId) (h : Reactions a b) : Reactions a (b.swapNow sc) := by
  unfold State.swapNow
  split
  · exact startDue sc _ _ (screen sc (fun x => { x with point := some .console }) (fun _ => ⟨rfl, rfl, rfl⟩) h)
  · exact reachPoint sc _ _ h

theorem intervalEnds (sc : ScreenId) (h : Reactions a b) : Reactions a (b.intervalEnds sc) := by
  unfold State.intervalEnds
  split
  · split
    · exact openOnDeck sc _ h
    · exact endProgramme sc h
  · exact h

theorem darkHoldEnds (sc : ScreenId) (h : Reactions a b) : Reactions a (b.darkHoldEnds sc) := by
  unfold State.darkHoldEnds
  split
  · exact report _ (screen sc (fun x => { x with faultClaim := .picture, darkHold := .ranOut }) (fun _ => ⟨rfl, rfl, rfl⟩)
      (placeScene sc .fault 4 _ trivial h))
  · exact h

/-- A break of a running machine, and of no other. -/
theorem contactorFails (m : MachineId) (k : (b.machine m).state.running = true) (h : Reactions a b) :
    Reactions a (b.contactorFails m) := by
  unfold State.contactorFails
  rw [if_pos k]
  split
  · exact breakRun m _ k h
  · exact h

end Reactions

/-! ### Frames of events and of commands -/

theorem ShowFrame.answer {s t : State} (h : ShowFrame s t) (r : Reply) : ShowFrame s (t.answer r) :=
  h.trans (.ofLine _ t (LineUnit.answer_receiver r t.line))

/-- An event that the show reacts to, and that nothing follows without power, stays in the frame. -/
theorem frame_of_whenPowered {f : State → State} {s t : State}
    (h : (.next (s.whenPowered f) : Outcome State Fault Refusal) = .next t) (hf : Reactions s (f s)) : ShowFrame s t := by
  rw [← Outcome.next.inj h]
  unfold State.whenPowered
  split
  · exact hf.frame
  · exact .refl s

/-- A command taken and answered stays in the frame of the state it is taken in. -/
theorem frame_of_takeCommand {c : Instr} {f : State → State} {s t : State}
    (h : (.next (s.takeCommand c f) : Outcome State Fault Refusal) = .next t)
    (hf : ShowFrame (s.taken c) (f (s.taken c))) : ShowFrame (if s.powered then s.taken c else s) t := by
  rw [← Outcome.next.inj h]
  unfold State.takeCommand State.whenPowered
  split
  · exact hf
  · exact .refl s

/-- Settles O12: each of these commands is a run of reactions, answered where it is the console's. -/
theorem showCommandsStayInTheirFrame : Obligations.ShowCommandsStayInTheirFrame := by
  unfold Obligations.ShowCommandsStayInTheirFrame
  refine fun s t => ⟨fun m hrun h => ?_, fun m h => ?_, fun sc h => ?_, fun sc h => ?_, fun w h => ?_, fun w h => ?_,
    fun w h => ?_, fun w h => ?_⟩
  · exact frame_of_whenPowered h (.contactorFails m hrun (.refl' s))
  · refine frame_of_whenPowered h ?_
    split
    next hstall => exact .breakRun m _ (Bool.and_eq_true_iff.1 hstall).1 (.refl' s)
    next => exact .refl' s
  · exact frame_of_whenPowered h (.intervalEnds sc (.refl' s))
  · exact frame_of_whenPowered h (.darkHoldEnds sc (.refl' s))
  · refine frame_of_takeCommand h ?_
    split
    · exact (ShowFrame.refl _).answer _
    · exact (Reactions.openSlot _ _ (.refl' _)).frame.answer _
  · refine frame_of_takeCommand h ?_
    split
    · exact (ShowFrame.refl _).answer _
    · exact (Reactions.swapNow _ (.refl' _)).frame.answer _
  · refine frame_of_takeCommand h ?_
    split
    · exact (ShowFrame.refl _).answer _
    · exact (Reactions.openOnDeck _ _ (.refl' _)).frame.answer _
  · refine frame_of_takeCommand h ?_
    split
    · exact (ShowFrame.refl _).answer _
    · exact (Reactions.abort _ (.refl' _)).frame.answer _

end Sys2Proof.Machine

/-! What every command but the resets, RESTART and power leaves standing: the waiting commands, the set latches, the
de-energized magnets and the TRIPPED machines. -/

namespace Sys2Proof.Machine

open Sys2Proof Host

/-- The commands wait on, no latch is cleared, no magnet energized and no machine released from TRIPPED. -/
structure Held (s t : State) : Prop where
  pending : t.pending = s.pending
  booth : s.fire.boothLatch.isSome = true → t.fire.boothLatch.isSome = true
  latch : ∀ m, (s.fire.machineLatch.get m).isSome = true → (t.fire.machineLatch.get m).isSome = true
  magnet : ∀ m, (s.fire.shutters.get m).magnet = false → (t.fire.shutters.get m).magnet = false
  tripped : ∀ m, (s.machine m).state = .tripped → (t.machine m).state = .tripped

namespace Held

variable {s t u : State}

theorem refl (s : State) : Held s s := ⟨rfl, id, fun _ => id, fun _ => id, fun _ => id⟩

theorem trans (h : Held s t) (k : Held t u) : Held s u :=
  ⟨k.pending.trans h.pending, k.booth ∘ h.booth, fun m => k.latch m ∘ h.latch m, fun m => k.magnet m ∘ h.magnet m,
    fun m => k.tripped m ∘ h.tripped m⟩

/-- A change of neither the queue, the fire unit nor a machine's state. -/
theorem of_eq (hpending : t.pending = s.pending) (hfire : t.fire = s.fire)
    (hstate : ∀ m, (t.machine m).state = (s.machine m).state) : Held s t :=
  ⟨hpending, by rw [hfire]; exact id, by rw [hfire]; exact fun _ => id, by rw [hfire]; exact fun _ => id,
    fun m h => (hstate m).trans h⟩

theorem frame (h : ShowFrame s t) : Held s t where
  pending := h.pending
  booth := by rw [h.fire]; exact id
  latch := by rw [h.fire]; exact fun _ => id
  magnet := by rw [h.fire]; exact fun _ => id
  tripped m e := by
    have hrested := congrArg MachineRec.state (h.machineRested m (by rw [e]; rfl))
    exact hrested.trans e

theorem react (h : Reactions s t) : Held s t := frame h.frame

theorem answer (h : Held s t) (r : Reply) : Held s (t.answer r) := h.trans (of_eq rfl rfl fun _ => rfl)

theorem report (h : Held s t) (r : Report) : Held s (t.report r) := h.trans (of_eq rfl rfl fun _ => rfl)

theorem modLine (f : LineUnit → LineUnit) (s : State) : Held s (s.modLine f) := of_eq rfl rfl fun _ => rfl

theorem modPlan (f : PlanStore → PlanStore) (s : State) : Held s (s.modPlan f) := of_eq rfl rfl fun _ => rfl

theorem modScreen (sc : ScreenId) (f : ScreenRec → ScreenRec) (s : State) : Held s (s.modScreen sc f) :=
  of_eq rfl rfl fun _ => rfl

theorem modDecoder (m : MachineId) (f : DecoderRec → DecoderRec) (s : State) : Held s (s.modDecoder m f) :=
  of_eq rfl rfl fun _ => rfl

theorem modLights (f : HouseLights → HouseLights) (s : State) : Held s (s.modLights f) := of_eq rfl rfl fun _ => rfl

theorem modCircuit (sc : ScreenId) (c : CircuitId) (f : Nat → Circuit → Circuit) (s : State) :
    Held s (s.modCircuit sc c f) :=
  of_eq rfl rfl fun _ => rfl

theorem modSlot (sc : ScreenId) (n : SlotIx) (f : Slot → Slot) (s : State) : Held s (s.modSlot sc n f) :=
  of_eq rfl rfl fun _ => rfl

theorem modLamp (m : MachineId) (f : LampRec → LampRec) (s : State) : Held s (s.modLamp m f) :=
  of_eq (by simp) (by simp) fun k => (State.modLamp_boundSlot m k f s).2.1

theorem modMachine (m : MachineId) (f : MachineRec → MachineRec) (s : State)
    (h : (s.machine m).state = .tripped → (f (s.machine m)).state = .tripped) : Held s (s.modMachine m f) :=
  ⟨by simp, by simp, fun k => by simp, fun k => by simp, fun k e => by
    rw [State.modMachine_machine]
    split
    next hk => subst hk; exact h e
    next => exact e⟩

theorem modFire (f : FireUnit → FireUnit) (s : State)
    (hbooth : s.fire.boothLatch.isSome = true → (f s.fire).boothLatch.isSome = true)
    (hlatch : ∀ m, (s.fire.machineLatch.get m).isSome = true → ((f s.fire).machineLatch.get m).isSome = true)
    (hmagnet : ∀ m, (s.fire.shutters.get m).magnet = false → ((f s.fire).shutters.get m).magnet = false) :
    Held s (s.modFire f) :=
  ⟨rfl, hbooth, hlatch, hmagnet, fun _ => id⟩

/-- A change of the fire unit's other records. -/
theorem modFire_other (f : FireUnit → FireUnit) (s : State) (hbooth : (f s.fire).boothLatch = s.fire.boothLatch)
    (hlatch : (f s.fire).machineLatch = s.fire.machineLatch) (hshutter : (f s.fire).shutters = s.fire.shutters) :
    Held s (s.modFire f) :=
  modFire f s (by rw [hbooth]; exact id) (by rw [hlatch]; exact fun _ => id) (by rw [hshutter]; exact fun _ => id)

theorem modShutter (m : MachineId) (f : ShutterRec → ShutterRec) (s : State)
    (h : (s.fire.shutters.get m).magnet = false → (f (s.fire.shutters.get m)).magnet = false) :
    Held s (s.modShutter m f) := by
  refine modFire _ s id (fun _ => id) fun k hk => ?_
  simp only [Quad.get_set]
  split
  next e => subst e; exact h hk
  next => exact hk

theorem elapse (dt : Nat) (s : State) : Held s (s.elapse dt) where
  pending := rfl
  booth := by rw [show (s.elapse dt).fire = s.fire.elapse dt from rfl, (FireUnit.elapse_latches dt s.fire).2.1]; exact id
  latch := by rw [show (s.elapse dt).fire = s.fire.elapse dt from rfl, (FireUnit.elapse_latches dt s.fire).1]; exact fun _ => id
  magnet m h := by rw [show (s.elapse dt).fire = s.fire.elapse dt from rfl, FireUnit.elapse_shutter]; exact h
  tripped m h := by rw [State.elapse_machine]; exact h

theorem ite {p : Prop} [Decidable p] {x y : State} (h : p → Held s x) (k : ¬p → Held s y) : Held s (if p then x else y) := by
  split
  next e => exact h e
  next e => exact k e

/-! ### Events and commands -/

theorem whenPowered {f : State → State} (e : (.next (s.whenPowered f) : Outcome State Fault Refusal) = .next t)
    (h : ∀ s, Held s (f s)) : Held s t := by
  rw [← Outcome.next.inj e]
  exact ite (fun _ => h s) fun _ => refl s

theorem takeCommand {i : Instr} {f : State → State}
    (e : (.next (s.takeCommand i f) : Outcome State Fault Refusal) = .next t) (h : ∀ s, Held s (f s)) : Held s t :=
  whenPowered e fun s => (modLine _ s).trans (h _)

theorem tripOrder (m : MachineId) (s : State) : Held s (s.tripOrder m) :=
  (modMachine m _ s fun _ => MachineRec.trip_state _).trans (modLamp m _ _)

theorem placeThree (sc : ScreenId) (r : Rank) (l : SceneLevels) (f : Nat) (s : State) :
    Held s (s.placeThree sc r l f) :=
  ((modCircuit sc .house _ s).trans (modCircuit sc .aisle _ _)).trans (modCircuit sc .stage _ _)

theorem releaseThree (sc : ScreenId) (r : Rank) (s : State) : Held s (s.releaseThree sc r) :=
  ((modCircuit sc .house _ s).trans (modCircuit sc .aisle _ _)).trans (modCircuit sc .stage _ _)

theorem placeSafety (sc : ScreenId) (s : State) : Held s (s.placeSafety sc) := placeThree sc _ _ _ s

theorem lampEvent (m : MachineId) (f : LampRec → LampRec × LampNews) (s : State) : Held s (s.lampEvent m f) := by
  unfold State.lampEvent
  refine ((modLamp m (fun _ => (f (s.lamp m)).1) s).trans ?_).trans (react (.lampSettled m _ (.refl' _)))
  unfold State.lampNews
  split
  · exact refl _
  · exact (react (.shortfallTest m (.refl' _))).report _
  · exact (refl _).report _

theorem endBinding (m : MachineId) (st : SlotStatus) (s : State) : Held s (s.endBinding m st) := by
  unfold State.endBinding
  split
  · exact refl s
  · exact ((modSlot _ _ _ s).trans (modMachine m (fun r => { r with boundSlot := none }) _ id)).trans (modLamp m _ _)

theorem placeLevel (sc : ScreenId) (r : Rank) (c : Option CircuitId) (l f : Nat) (s : State) :
    Held s (s.placeLevel sc r c l f) := by
  cases c
  · exact placeThree sc r _ f s
  · exact modCircuit sc _ (fun h => Circuit.place h r l f) s

theorem releaseLevel (sc : ScreenId) (r : Rank) (c : Option CircuitId) (s : State) : Held s (s.releaseLevel sc r c) := by
  cases c
  · exact releaseThree sc r s
  · exact modCircuit sc _ (fun h => Circuit.release h r) s

theorem exhaustTest (m : MachineId) (s : State) : Held s (s.exhaustTest m) :=
  ite (fun _ => (modLamp m _ s).report _) fun _ => refl s

theorem fireShowAt (sc : ScreenId) (s : State) : Held s (s.fireShowAt sc) := by
  unfold State.fireShowAt
  refine ite (fun _ => (refl s).report _) fun _ => ?_
  split
  · exact (refl s).report _
  · exact ite (fun _ => (refl s).report _) fun _ => react (.reportIf _ _ (.openSlot sc _ (.refl' s)))

theorem showAtDue (sc : ScreenId) (x : Nat) (s : State) : Held s (s.showAtDue sc x) :=
  ite (fun _ => (modPlan _ s).trans (fireShowAt sc _)) fun _ => refl s

theorem clockTick (s : State) : Held s s.clockTick := by
  unfold State.clockTick
  split
  · exact refl s
  · exact ((modPlan _ s).trans (showAtDue .s1 _ _)).trans (showAtDue .s2 _ _)

theorem boothTripOrders (n : Nat) (s : State) : Held s (s.boothTripOrders n) := by
  have hlatches : Held s (s.boothLatches n) :=
    modFire _ s (fun _ => rfl) (fun m _ => (s.boothLatches_latched n m).1) fun m _ => (s.boothLatches_latched n m).2
  have htrips : Held (s.boothLatches n) (s.boothLatches n).tripAll :=
    (((tripOrder .m1 _).trans (tripOrder .m2 _)).trans (tripOrder .m3 _)).trans (tripOrder .m4 _)
  rw [State.boothTripOrders_eq]
  exact ((hlatches.trans htrips).trans (placeSafety .s1 _)).trans (placeSafety .s2 _)

theorem boothTrip (s : State) : Held s s.boothTrip := by
  unfold State.boothTrip
  exact (((boothTripOrders _ s).trans (react (.boothHalt .s2 _ _ (.boothHalt .s1 _ _ (.refl' _))))).trans
    (modFire_other _ _ rfl rfl rfl)).report _

theorem machineTrip (m : MachineId) (s : State) : Held s (s.machineTrip m) := by
  unfold State.machineTrip
  have horders : Held s (s.machineTripOrders m s.fire.nextSequence) := by
    rw [State.machineTripOrders_eq]
    refine Held.trans (Held.trans ?_ (tripOrder m _)) (placeSafety _ _)
    refine Held.trans (modFire (FireUnit.putLatch m (some .gateHeat)) s id (fun k hk => ?_) fun _ => id)
      (modShutter m _ _ fun _ => ShutterRec.drop_magnet _ _ _)
    simp only [FireUnit.putLatch, Quad.get_set]
    split
    · rfl
    · exact hk
  exact ((((horders.trans (react (.machineHalt m _ (.refl' _)))).trans (modFire_other _ _ rfl rfl rfl)).report _)).trans
    (react (.evaluateScreen _ (.refl' _)))

theorem switchChange (m : MachineId) (sw : ShutterSwitch) (made : Bool) (s : State) : Held s (s.switchChange m sw made) := by
  unfold State.switchChange
  refine ite (fun _ => refl s) fun _ => ?_
  have hread : Held s (s.modShutter m (ShutterRec.readSwitch sw made)) :=
    modShutter m _ s fun h => by cases sw <;> exact h
  have hsettle (st : ShutterState) (v : State) : Held v (v.modShutter m (ShutterRec.settle st)) :=
    modShutter m _ v id
  dsimp only
  split
  · exact hread
  · exact (hread.trans (hsettle _ _)).trans (react (.evaluate m (.refl' _)))
  · exact ((hread.trans (hsettle _ _)).report _).trans (react (.evaluate m (.refl' _)))
  · exact (hread.trans (hsettle _ _)).trans (modFire_other _ _ rfl rfl rfl)
  · exact hread.trans (hsettle _ _)

theorem confirmExpires (m : MachineId) (s : State) : Held s (s.confirmExpires m) := by
  unfold State.confirmExpires
  dsimp only
  split
  · exact ((((modShutter m (fun y => { y with state := .stuck, confirm := none }) s id).trans
      (modFire_other _ _ rfl rfl rfl)).trans (modFire_other _ _ rfl rfl rfl))).report _
  · exact refl s

end Held

/-! ### The commands that may release -/

/-- The resets, and RESTART. -/
def releases : Instr → Bool
  | .resetM _ | .resetBooth _ | .restart _ => true
  | _ => false

/-- Every record of the fire unit's outputs stands inactive at power-on and power-off (R177, 10.4). -/
theorem Held.power {s t : State} (hpending : t.pending = s.pending) (hbooth : t.fire.boothLatch.isSome = true)
    (hlatch : ∀ m, (t.fire.machineLatch.get m).isSome = true) (hmagnet : ∀ m, (t.fire.shutters.get m).magnet = false)
    (htripped : ∀ m, (t.machine m).state = .tripped) : Held s t :=
  ⟨hpending, fun _ => hbooth, fun m _ => hlatch m, fun m _ => hmagnet m, fun m _ => htripped m⟩

/-- Every command but the resets and RESTART holds what is held. -/
theorem exec_held {c : Instr} {s t : State} (hc : releases c = false) (e : exec c s = .next t) : Held s t := by
  cases c with
  | framePulse m dt foil =>
    refine Held.whenPowered e fun s => (Held.elapse dt s).trans ?_
    refine Held.ite (fun _ => ?_) fun _ => Held.refl _
    exact (Held.modMachine m _ _ fun h => (MachineRec.pulse_kept _).1.2 h).trans (Held.frame (State.framePulse_frame m _ _))
  | loopSwitchOpen m flowing =>
    refine Held.whenPowered e fun s => ?_
    have hread : Held s (s.loopRead m (s.sense m s.straps.loopSwitch flowing)) := Held.modMachine m _ s id
    refine Held.ite (fun _ => hread) fun _ => hread.trans ?_
    change Held _ ((s.loopRead m _).loopOpened m)
    unfold State.loopOpened
    exact Held.ite (fun h => Held.ite (fun _ => .react (.reelEnd m h (.refl' _))) fun _ => .react (.breakRun m _ h (.refl' _)))
      fun _ => .refl _
  | contactorSenseChange m flowing => exact Held.whenPowered e fun s => Held.modMachine m _ s id
  | contactorFailure m =>
    refine Held.whenPowered e fun s => Held.ite (fun _ => ?_) fun _ => .refl s
    refine Held.ite (fun h => .react (.breakRun m _ h (.refl' s))) fun _ => ?_
    exact Held.ite (fun _ => (Held.modMachine m _ s fun h => (MachineRec.motorOff_keeps _).1.trans h).report _) fun _ => .refl s
  | stall m =>
    exact Held.whenPowered e fun s => Held.ite
      (fun h => .react (.breakRun m _ (Bool.and_eq_true_iff.1 h).1 (.refl' s))) fun _ => .refl s
  | noPulseTimerExpiry m =>
    exact Held.whenPowered e fun s => Held.ite
      (fun _ => (Held.modMachine m _ s id).trans (.react (.machinePosted m (.refl' _)))) fun _ => .refl s
  | arcGate m count => exact Held.whenPowered e fun s => Held.lampEvent m _ s
  | touchMeasureExpiry m => exact Held.whenPowered e fun s => Held.lampEvent m _ s
  | retractMeasureExpiry m => exact Held.whenPowered e fun s => Held.lampEvent m _ s
  | pauseMeasureExpiry m => exact Held.whenPowered e fun s => Held.lampEvent m _ s
  | shortGapRetractExpiry m => exact Held.whenPowered e fun s => Held.lampEvent m _ s
  | feedEncoderPulse m flowing =>
    exact Held.whenPowered e fun s => Held.ite (fun _ =>
      ((Held.modLamp m _ s).trans (Held.exhaustTest m _)).trans (.react (.lampSettled m _ (.refl' _)))) fun _ => .refl s
  | bucketMeasureExpiry m =>
    exact Held.whenPowered e fun s => Held.ite (fun _ =>
      (Held.modLamp m _ s).trans (.react (.lampSettled m _ (.shortfallTest m (.refl' _))))) fun _ => .refl s
  | clockAdvance dt => exact Held.whenPowered e fun s => (Held.elapse dt s).trans (Held.clockTick _)
  | intervalExpiry sc => exact Held.whenPowered e fun s => .react (.intervalEnds sc (.refl' s))
  | darkHoldExpiry sc => exact Held.whenPowered e fun s => .react (.darkHoldEnds sc (.refl' s))
  | fadeStep sc c => exact Held.whenPowered e fun s => Held.modCircuit sc c _ s
  | zeroCrossing dt => exact Held.whenPowered e fun s => (Held.elapse dt s).trans (Held.modLights _ _)
  | firingDelayExpiry sc c => exact Held.whenPowered e fun s => Held.modCircuit sc c _ s
  | loopInputChange flowing =>
    refine Held.whenPowered e fun s => ?_
    refine Held.modFire_other _ s ?_ ?_ ?_ <;> unfold FireUnit.loopChange <;> split_ifs <;> rfl
  | loopOpenMeasureExpiry =>
    refine Held.whenPowered e fun s => ?_
    unfold State.loopOpenExpires
    split
    · exact .refl s
    · exact (Held.modFire_other (fun u => { u with loopOpenMeasure := none }) s rfl rfl rfl).trans (.boothTrip _)
  | gateCount m count =>
    refine Held.whenPowered e fun s => ?_
    have hcount : Held s (s.modFire fun u => { u with gates := u.gates.set m ((u.gates.get m).take (s.counted m count)) }) :=
      Held.modFire_other _ s rfl rfl rfl
    exact Held.ite (fun _ => hcount.trans (Held.machineTrip m _)) fun _ => hcount
  | shutterSwitchChange m sw flowing => exact Held.whenPowered e fun s => Held.switchChange m sw _ s
  | confirmMeasureExpiry m => exact Held.whenPowered e fun s => Held.confirmExpires m s
  | receivedCharacter | lineSent | breakMeasureExpiry | receiveLineLevelChange =>
    exact Held.whenPowered e fun s => Held.modLine _ s
  | powerOn p l =>
    cases e
    exact Held.power rfl rfl (fun m => by cases m <;> rfl) (fun m => by cases m <;> rfl) fun m => by cases m <;> rfl
  | powerRemoved =>
    cases e
    exact Held.power rfl rfl (fun m => by cases m <;> rfl) (fun m => by cases m <;> rfl) fun m => by cases m <;> rfl
  | motor w =>
    refine Held.takeCommand e fun s => ?_
    split
    · exact (Held.refl s).answer _
    next m on _ =>
      refine (Held.modMachine m _ s fun h => ?_).answer _
      cases on
      · exact (MachineRec.motorOff_keeps _).1.trans h
      · exact (MachineRec.laceUpOn_state _ _).trans h
  | douse w =>
    refine Held.takeCommand e fun s => ?_
    split
    · exact (Held.refl s).answer _
    · exact ((Held.modMachine _ _ s id).trans (.react (.machinePosted _ (.refl' _)))).answer _
  | cuemap w =>
    refine Held.takeCommand e fun s => ?_
    split
    · exact (Held.refl s).answer _
    · exact (Held.refl s).answer _
    · exact (Held.modScreen _ _ s).answer _
  | strike w =>
    refine Held.takeCommand e fun s => ?_
    split
    · exact (Held.refl s).answer _
    · exact ((Held.modLamp _ _ s).trans (.react (.lampSettled _ _ (.refl' _)))).answer _
  | arcoff w =>
    refine Held.takeCommand e fun s => ?_
    split
    · exact (Held.refl s).answer _
    · exact ((Held.modLamp _ _ s).trans (.react (.lampSettled _ _ (.refl' _)))).answer _
  | trim w =>
    refine Held.takeCommand e fun s => ?_
    split
    · exact (Held.refl s).answer _
    · exact ((Held.modLamp _ _ s).trans (.react (.lampSettled _ _ (.shortfallTest _ (.refl' _))))).answer _
  | lampset w =>
    refine Held.takeCommand e fun s => ?_
    split
    · exact (Held.refl s).answer _
    · exact ((((Held.modLamp _ _ s).trans (.react (.shortfallTest _ (.refl' _)))).trans (Held.exhaustTest _ _)).trans
        (.react (.lampSettled _ _ (.refl' _)))).answer _
  | reel w =>
    refine Held.takeCommand e fun s => ?_
    split
    · exact (Held.refl s).answer _
    · exact ((Held.modSlot _ _ _ s).trans (.react (.evaluateScreen _ (.refl' _)))).answer _
  | plancopy w =>
    refine Held.takeCommand e fun s => ?_
    split
    · exact (Held.refl s).answer _
    · exact Held.ite (fun _ => (Held.refl s).answer _) fun _ =>
        ((Held.modPlan _ s).trans (.react (.evaluateScreen _ (.refl' _)))).answer _
  | planclr w =>
    refine Held.takeCommand e fun s => ?_
    split
    · exact (Held.refl s).answer _
    · exact Held.ite (fun _ => (Held.refl s).answer _) fun _ =>
        ((Held.modPlan _ s).trans (.react (.evaluateScreen _ (.refl' _)))).answer _
  | thread w =>
    refine Held.takeCommand e fun s => ?_
    split
    · exact (Held.refl s).answer _
    next m id k x h =>
      obtain ⟨-, -, hempty, -⟩ := parseThread_ok h
      have hnot : ((s.modSlot (screenOf m) k fun y => { y with status := .bound, bound := some m }).machine m).state
          ≠ .tripped := by rw [State.modSlot_machine, hempty]; simp
      exact ((((Held.modSlot _ _ _ s).trans (Held.modMachine m _ _ fun htripped => absurd htripped hnot)).trans
        (Held.modLamp m _ _)).trans (.react (.evaluate m (.refl' _)))).answer _
  | unthread w =>
    refine Held.takeCommand e fun s => ?_
    split
    · exact (Held.refl s).answer _
    next m h =>
      have htest := (parseUnthread_ok h).2
      have hnot : ((s.endBinding m .loaded).machine m).state ≠ .tripped := by
        rw [(s.endBinding_machine m m .loaded).1]
        intro htripped
        rw [htripped] at htest
        cases htest
      exact (((Held.endBinding m _ s).trans (Held.modMachine m _ _ fun htripped => absurd htripped hnot)).trans
        (.react (.evaluateScreen _ (.refl' _)))).answer _
  | time w =>
    refine Held.takeCommand e fun s => ?_
    split
    · exact (Held.refl s).answer _
    · exact (Held.refl s).answer _
    · exact (Held.modPlan _ s).answer _
  | showat w =>
    refine Held.takeCommand e fun s => ?_
    split
    · exact (Held.refl s).answer _
    · exact (Held.refl s).answer _
    · exact (Held.modPlan _ s).answer _
    · exact (Held.modPlan _ s).answer _
  | start w =>
    refine Held.takeCommand e fun s => ?_
    split
    · exact (Held.refl s).answer _
    · exact (Held.react (.openSlot _ _ (.refl' _))).answer _
  | swapnow w =>
    refine Held.takeCommand e fun s => ?_
    split
    · exact (Held.refl s).answer _
    · exact (Held.react (.swapNow _ (.refl' _))).answer _
  | sound w =>
    refine Held.takeCommand e fun s => ?_
    split
    · exact (Held.refl s).answer _
    · exact (Held.refl s).answer _
    · exact (Held.modScreen _ _ s).answer _
  | resume w =>
    refine Held.takeCommand e fun s => ?_
    split
    · exact (Held.refl s).answer _
    · exact (Held.react (.openOnDeck _ _ (.refl' _))).answer _
  | abort w =>
    refine Held.takeCommand e fun s => ?_
    split
    · exact (Held.refl s).answer _
    · exact (Held.react (.abort _ (.refl' _))).answer _
  | screenset w =>
    refine Held.takeCommand e fun s => ?_
    split
    · exact (Held.refl s).answer _
    · exact (Held.modScreen _ _ s).answer _
  | scenedef w =>
    refine Held.takeCommand e fun s => ?_
    split
    · exact (Held.refl s).answer _
    · exact (Held.refl s).answer _
    · exact (Held.modLights _ s).answer _
  | level w =>
    refine Held.takeCommand e fun s => ?_
    split
    · exact (Held.refl s).answer _
    · exact (Held.placeLevel _ _ _ _ _ s).answer _
  | scene w =>
    refine Held.takeCommand e fun s => ?_
    split
    · exact (Held.refl s).answer _
    · exact (Held.placeThree _ _ _ _ s).answer _
  | release w =>
    refine Held.takeCommand e fun s => ?_
    split
    · exact (Held.refl s).answer _
    · exact (Held.releaseLevel _ _ _ s).answer _
  | inclear w =>
    refine Held.takeCommand e fun s => ?_
    split
    · exact (Held.refl s).answer _
    · exact (Held.modFire_other _ s rfl rfl rfl).answer _
  | fireset w =>
    refine Held.takeCommand e fun s => ?_
    split
    · exact (Held.refl s).answer _
    · exact (Held.modFire_other _ s rfl rfl rfl).answer _
  | mstat w | lstat w | pstat w | sstat w | hlstat w | incident w | fstat w | ident w | status w =>
    refine Held.takeCommand e fun s => ?_
    split <;> exact (Held.refl s).answer _
  | resetM | resetBooth | restart => exact absurd hc (by simp [releases])

/-! ### The resets and RESTART -/

theorem State.releaseSafety_pending (sc : ScreenId) (s : State) : (s.releaseSafety sc).pending = s.pending := by
  unfold State.releaseSafety
  split <;> rfl

theorem State.evaluateScreen_reactions (sc : ScreenId) (s : State) : Reactions s (s.evaluateScreen sc) :=
  .evaluateScreen sc (.refl' s)

theorem State.evaluateScreen_pending (sc : ScreenId) (s : State) : (s.evaluateScreen sc).pending = s.pending :=
  (s.evaluateScreen_reactions sc).frame.pending

theorem State.evaluateScreen_fire (sc : ScreenId) (s : State) : (s.evaluateScreen sc).fire = s.fire :=
  (s.evaluateScreen_reactions sc).frame.fire

theorem State.resetMachine_pending (m : MachineId) (s : State) : (s.resetMachine m).pending = s.pending := by
  unfold State.resetMachine State.resetMachineOrders
  rw [State.evaluateScreen_pending, State.releaseSafety_pending, State.modMachine_pending,
    (Held.endBinding m _ _).pending]
  rfl

theorem State.resetMachine_fire (m : MachineId) (s : State) :
    (s.resetMachine m).fire
      = ((s.modFire (FireUnit.putLatch m none)).modShutter m ShutterRec.energize).fire := by
  unfold State.resetMachine State.resetMachineOrders
  rw [State.evaluateScreen_fire, State.releaseSafety_fire, State.modMachine_fire, State.endBinding_fire]

theorem State.releaseSafety_held (sc : ScreenId) (s : State) : Held s (s.releaseSafety sc) := by
  unfold State.releaseSafety
  exact Held.ite (fun _ => Held.releaseThree sc _ s) fun _ => Held.refl s

/-- RESET m releases no other machine (R160, R21). -/
theorem State.resetMachine_tripped {m k : MachineId} (hk : k ≠ m) {s : State} (h : (s.machine k).state = .tripped) :
    ((s.resetMachine m).machine k).state = .tripped := by
  unfold State.resetMachine State.resetMachineOrders
  refine (Held.react (State.evaluateScreen_reactions _ _)).tripped k ((State.releaseSafety_held _ _).tripped k ?_)
  rw [State.modMachine_machine, if_neg hk]
  exact (Held.endBinding m _ _).tripped k h

theorem State.releaseKept_pending (m : MachineId) (l : Option LatchCause) (s : State) :
    (s.releaseKept m l).pending = s.pending := by
  unfold State.releaseKept
  split <;> rfl

theorem State.energizeClear_pending (m : MachineId) (s : State) : (s.energizeClear m).pending = s.pending := by
  unfold State.energizeClear
  split <;> rfl

theorem State.resetBooth_pending (s : State) : s.resetBooth.pending = s.pending := by
  unfold State.resetBooth State.resetBoothOrders
  simp only [State.evaluateScreen_pending, State.releaseSafety_pending, State.energizeClear_pending,
    State.releaseKept_pending]
  rfl

/-- A magnet that RESET BOOTH energizes is that of a machine whose latch is then clear (R161). -/
theorem State.energizeClear_magnet {m k : MachineId} {s : State} (hoff : (s.fire.shutters.get k).magnet = false)
    (hon : ((s.energizeClear m).fire.shutters.get k).magnet = true) : s.fire.machineLatch.get k = none := by
  unfold State.energizeClear at hon
  split at hon
  next hclear =>
    simp only [State.modShutter_fire, Quad.get_set] at hon
    split at hon
    next hk => subst hk; exact Option.isNone_iff_eq_none.1 hclear
    next => rw [hoff] at hon; cases hon
  next => rw [hoff] at hon; cases hon

theorem State.boothReleases_magnet {s : State} {k : MachineId} (hoff : (s.fire.shutters.get k).magnet = false)
    (hon : (s.boothReleases.fire.shutters.get k).magnet = true) : s.boothReleases.fire.machineLatch.get k = none := by
  unfold State.boothReleases at hon ⊢
  dsimp only at hon ⊢
  generalize hw : State.releaseKept .m4 _ _ = w at hon ⊢
  have hfire : w.fire.shutters = s.fire.shutters := by
    rw [← hw]
    simp only [(State.releaseKept_keeps _ _ _).1]
    rfl
  rw [← hfire] at hoff
  simp only [(State.energizeClear_keeps _ _).1]
  have hsame (m : MachineId) (v : State) : (v.energizeClear m).fire.machineLatch = v.fire.machineLatch :=
    (v.energizeClear_keeps m).1
  by_cases h1 : ((w.energizeClear .m1).fire.shutters.get k).magnet = true
  · exact State.energizeClear_magnet hoff h1
  by_cases h2 : (((w.energizeClear .m1).energizeClear .m2).fire.shutters.get k).magnet = true
  · simpa only [hsame] using State.energizeClear_magnet (by simpa using h1) h2
  by_cases h3 : ((((w.energizeClear .m1).energizeClear .m2).energizeClear .m3).fire.shutters.get k).magnet = true
  · simpa only [hsame] using State.energizeClear_magnet (by simpa using h2) h3
  · simpa only [hsame] using State.energizeClear_magnet (by simpa using h3) hon

theorem takeCommand_cases {s t : State} {c : Instr} {f : State → State}
    (e : (.next (s.takeCommand c f) : Outcome State Fault Refusal) = .next t) :
    t = s ∨ t = f (s.taken c) := by
  rw [← Outcome.next.inj e]
  unfold State.takeCommand State.whenPowered
  split
  · exact .inr rfl
  · exact .inl rfl

theorem resetTests_ok {s : State} {m : MachineId} (h : s.resetTests m = .ok ()) :
    s.fire.boothLatch = none ∧ (s.fire.machineLatch.get m).isSome = true ∧ (s.fire.shutters.get m).state ≠ .dropping
      ∧ (s.fire.gates.get m).count < (s.fire.gates.get m).resetThreshold := by
  obtain ⟨_, hbooth, h⟩ := Except.bind_ok h
  obtain ⟨_, hlatch, h⟩ := Except.bind_ok h
  obtain ⟨_, hshutter, h⟩ := Except.bind_ok h
  exact ⟨Option.isNone_iff_eq_none.1 (need_ok hbooth), need_ok hlatch, by simpa using need_ok hshutter,
    by simpa using need_ok h⟩

/-- RESET m releases its machine, or holds what is held. -/
theorem exec_resetM_cases {s t : State} {w : List Text} (e : exec (.resetM w) s = .next t) :
    Held s t ∨ ∃ m, onlyMachine s w = .ok m ∧ t.pending = s.pending ∧ s.fire.boothLatch = none
      ∧ t.fire = ((s.modFire (FireUnit.putLatch m none)).modShutter m ShutterRec.energize).fire
      ∧ ∀ k, k ≠ m → (s.machine k).state = .tripped → (t.machine k).state = .tripped := by
  obtain rfl | rfl := takeCommand_cases e
  · exact .inl (.refl _)
  · have htaken : Held s (s.taken (.resetM w)) := Held.modLine _ s
    split
    · exact .inl (htaken.answer _)
    next m hparse =>
      obtain ⟨hm, htests⟩ := parseReset_ok hparse
      obtain ⟨hbooth, -⟩ := resetTests_ok htests
      refine .inr ⟨m, hm, ?_, hbooth, ?_, fun k hk h => ?_⟩
      · exact State.resetMachine_pending m (s.taken (.resetM w))
      · exact State.resetMachine_fire m (s.taken (.resetM w))
      · exact State.resetMachine_tripped hk (s := s.taken (.resetM w)) h

/-- RESET BOOTH energizes the magnets of the machines whose latch it leaves clear. -/
theorem exec_resetBooth_cases {s t : State} {w : List Text} (e : exec (.resetBooth w) s = .next t) :
    Held s t ∨ t.pending = s.pending ∧ ∀ k, (s.fire.shutters.get k).magnet = false →
      (t.fire.shutters.get k).magnet = true → t.fire.machineLatch.get k = none := by
  obtain rfl | rfl := takeCommand_cases e
  · exact .inl (.refl _)
  · have htaken : Held s (s.taken (.resetBooth w)) := Held.modLine _ s
    split
    · exact .inl (htaken.answer _)
    · refine .inr ⟨State.resetBooth_pending (s.taken (.resetBooth w)), fun k hoff hon => ?_⟩
      have hfire : (s.taken (.resetBooth w)).resetBooth.fire = (s.taken (.resetBooth w)).boothReleases.fire := by
        rw [State.resetBooth, State.evaluateScreen_fire, State.evaluateScreen_fire, State.resetBoothOrders_eq,
          State.releaseSafety_fire, State.releaseSafety_fire]
      simp only [State.report_fire, State.answer_fire, hfire] at hon ⊢
      exact State.boothReleases_magnet (s := s.taken (.resetBooth w)) hoff hon

theorem State.restartMachine_pending (m : MachineId) (s : State) : (s.restartMachine m).pending = s.pending := by
  unfold State.restartMachine
  simp

theorem State.restartBlocks_pending (s : State) : s.restartBlocks.pending = s.pending := by
  unfold State.restartBlocks
  dsimp only
  generalize hw : State.restartMachine .m4 _ = w
  have hpending : w.pending = s.pending := by
    rw [← hw]
    simp only [State.restartMachine_pending]
  exact hpending

/-- R27: RESTART leaves a machine by its latch. -/
theorem State.restartMachine_state (m k : MachineId) (s : State) :
    ((s.restartMachine m).machine k).state
      = if k = m then (if (s.fire.machineLatch.get m).isSome then .tripped else .empty) else (s.machine k).state := by
  unfold State.restartMachine
  rw [(State.modLamp_boundSlot m k _ _).2.1]
  by_cases hk : k = m
  · subst hk
    simp [(MachineRec.restart_fields _ _).1]
  · simp [hk]

theorem State.restartBlocks_state (k : MachineId) (s : State) :
    (s.restartBlocks.machine k).state = if (s.fire.machineLatch.get k).isSome then .tripped else .empty := by
  have hunits : s.restartBlocks.machine k = s.restartUnits.machine k := by
    unfold State.machine; rw [s.restartBlocks_units.1]
  rw [hunits]
  unfold State.restartUnits
  simp only [State.restartMachine_state, (State.restartMachine_keeps _ _).2.1]
  cases k <;> rfl

theorem exec_restart_cases {s t : State} {w : List Text} (e : exec (.restart w) s = .next t) :
    Held s t ∨ t.pending = s.pending ∧ t.fire = s.fire
      ∧ ∀ k, (t.machine k).state = if (s.fire.machineLatch.get k).isSome then .tripped else .empty := by
  obtain rfl | rfl := takeCommand_cases e
  · exact .inl (.refl _)
  · have htaken : Held s (s.taken (.restart w)) := Held.modLine _ s
    split
    · exact .inl (htaken.answer _)
    · have hpending := State.restartBlocks_pending (s.taken (.restart w))
      have hfire := (State.restartBlocks_keeps (s.taken (.restart w))).2.1
      have hstate := fun k => State.restartBlocks_state k (s.taken (.restart w))
      generalize (s.taken (.restart w)).restartBlocks = u at hpending hfire hstate ⊢
      exact .inr ⟨hpending, hfire, hstate⟩

theorem releases_cases {c : Instr} (h : releases c = true) :
    (∃ w, c = .resetM w) ∨ (∃ w, c = .resetBooth w) ∨ ∃ w, c = .restart w := by
  cases c with
  | resetM w => exact .inl ⟨w, rfl⟩
  | resetBooth w => exact .inr (.inl ⟨w, rfl⟩)
  | restart w => exact .inr (.inr ⟨w, rfl⟩)
  | _ => exact absurd h (by simp [releases])

theorem exec_pending {c : Instr} {s t : State} (e : exec c s = .next t) : t.pending = s.pending := by
  cases hc : releases c with
  | false => exact (exec_held hc e).pending
  | true =>
    obtain ⟨w, rfl⟩ | ⟨w, rfl⟩ | ⟨w, rfl⟩ := releases_cases hc
    · obtain h | ⟨m, -, hpending, -⟩ := exec_resetM_cases e
      · exact h.pending
      · exact hpending
    · obtain h | ⟨hpending, -⟩ := exec_resetBooth_cases e
      · exact h.pending
      · exact hpending
    · obtain h | ⟨hpending, -⟩ := exec_restart_cases e
      · exact h.pending
      · exact hpending

/-- Settles O2. -/
theorem idleStepsAndTheQueue : Obligations.IdleStepsAndTheQueue := by
  unfold Obligations.IdleStepsAndTheQueue
  refine ⟨fun c s hq hh => ?_, fun s hq hh hp => ?_, fun c s t e => exec_pending e, fun c s hp hon hoff => ?_⟩
  · simp only [step, hq, hh]
  · simp only [step, hq, hh, State.whenPowered, hp, if_true]
  · exact exec_unpowered hp hon hoff

/-- What a command that holds what is held can claim of a release: nothing happened. -/
theorem Held.not_released {s t : State} (h : Held s t) {b : Prop} {r q : MachineId → Prop} :
    (s.fire.boothLatch.isSome = true → t.fire.boothLatch = none → b)
      ∧ ∀ m, ((s.fire.machineLatch.get m).isSome = true → t.fire.machineLatch.get m = none → r m)
        ∧ ((s.fire.shutters.get m).magnet = false → (t.fire.shutters.get m).magnet = true →
            t.fire.machineLatch.get m = none ∧ r m)
        ∧ ((s.machine m).state = .tripped → (t.machine m).state ≠ .tripped → q m) := by
  refine ⟨fun hs ht => ?_, fun m => ⟨fun hs ht => ?_, fun hs ht => ?_, fun hs ht => absurd (h.tripped m hs) ht⟩⟩
  · have := h.booth hs
    rw [ht] at this
    cases this
  · have := h.latch m hs
    rw [ht] at this
    cases this
  · have := h.magnet m hs
    rw [ht] at this
    cases this

/-- Settles O11: every command but these three holds what is held, and each of these releases only as it may. -/
theorem onlyResetsReleaseTheBooth : Obligations.OnlyResetsReleaseTheBooth := by
  unfold Obligations.OnlyResetsReleaseTheBooth
  intro c s t e
  cases hc : releases c with
  | false =>
    obtain ⟨hbooth, hmachine⟩ := (exec_held hc e).not_released (b := ∃ w, c = .resetBooth w)
      (r := fun m => (∃ w, c = .resetM w ∧ onlyMachine s w = .ok m) ∨ ∃ w, c = .resetBooth w)
      (q := fun m => (∃ w, c = .resetM w ∧ onlyMachine s w = .ok m) ∨ (∃ w, c = .resetBooth w) ∨
            (∃ w, c = .restart w ∧ s.fire.machineLatch.get m = none))
    exact ⟨hbooth, hmachine⟩
  | true =>
    obtain ⟨w, rfl⟩ | ⟨w, rfl⟩ | ⟨w, rfl⟩ := releases_cases hc
    · obtain h | ⟨m, hm, -, hbooth, hfire, htripped⟩ := exec_resetM_cases e
      · exact h.not_released
      · refine ⟨fun hs => ?_, fun k => ?_⟩
        · rw [hbooth] at hs
          cases hs
        · have hmine : k = m → (∃ v, Instr.resetM w = .resetM v ∧ onlyMachine s v = .ok k) := by
            rintro rfl
            exact ⟨w, rfl, hm⟩
          by_cases hk : k = m
          · refine ⟨fun _ _ => .inl (hmine hk), fun _ _ => ⟨?_, .inl (hmine hk)⟩, fun _ _ => .inl (hmine hk)⟩
            rw [hfire, hk]
            simp [FireUnit.putLatch]
          · have hlatch : t.fire.machineLatch.get k = s.fire.machineLatch.get k := by
              rw [hfire]
              simp [FireUnit.putLatch, Quad.get_set, hk]
            have hshutter : t.fire.shutters.get k = s.fire.shutters.get k := by
              rw [hfire]
              simp [FireUnit.putLatch, Quad.get_set, hk]
            refine ⟨fun hs ht => ?_, fun hs ht => ?_, fun hs ht => absurd (htripped k hk hs) ht⟩
            · rw [← hlatch, ht] at hs
              cases hs
            · rw [hshutter, hs] at ht
              cases ht
    · have hboothReset : ∃ v, Instr.resetBooth w = .resetBooth v := ⟨w, rfl⟩
      refine ⟨fun _ _ => hboothReset, fun k => ⟨fun _ _ => .inr hboothReset, fun hs ht => ⟨?_, .inr hboothReset⟩,
        fun _ _ => .inr (.inl hboothReset)⟩⟩
      obtain h | ⟨-, hmagnet⟩ := exec_resetBooth_cases e
      · have := h.magnet k hs
        rw [ht] at this
        cases this
      · exact hmagnet k hs ht
    · obtain h | ⟨-, hfire, hstate⟩ := exec_restart_cases e
      · exact h.not_released
      · rw [hfire]
        refine ⟨fun hs ht => ?_, fun k => ⟨fun hs ht => ?_, fun hs ht => ?_, fun _ ht => .inr (.inr ⟨w, rfl, ?_⟩)⟩⟩
        · rw [ht] at hs
          cases hs
        · rw [ht] at hs
          cases hs
        · rw [hs] at ht
          cases ht
        · rw [hstate k] at ht
          split at ht
          · exact absurd rfl ht
          next h => exact Option.isSome_eq_false_iff.1 (by simpa using h) |> Option.isNone_iff_eq_none.1

end Sys2Proof.Machine

/-! Power and RESTART: what every block is left with. -/

namespace Sys2Proof.Machine

open Sys2Proof Host

/-! ### Power -/

@[simp] theorem Quad.get_each {α : Type} (f : MachineId → α) (m : MachineId) : (Quad.each f).get m = f m := by
  cases m <;> rfl

/-- The lines of machines not fitted carry no current (R175 to R177, log entry 7). -/
theorem lineReading_eq (p : Straps) (pol : Quad Polarity) (line : Quad Bool) (m : MachineId) :
    lineReading p pol line m
      = (pol.get m).read (if screenOf m = .s2 ∧ p.screen2Fitted = false then false else line.get m) := by
  unfold lineReading
  congr 1
  cases screenOf m <;> cases p.screen2Fitted <;> simp

/-- The state POWER_ON leaves. -/
def State.poweredOn (straps : Straps) (lines : Lines) (waiting : List Instr) : State :=
  { State.reset with
    straps := straps
    machines := Quad.each fun m =>
      MachineRec.atPowerOn (lineReading straps straps.loopSwitch lines.loopSwitch m)
        (lineReading straps straps.contactorSense lines.contactorSense m)
    fire := FireUnit.atPowerOn (straps.fireLoop.read lines.fireLoop)
      (Quad.each fun m =>
        ShutterRec.atPowerOn (lineReading straps straps.shutterOpen lines.shutterOpen m)
          (lineReading straps straps.shutterClosed lines.shutterClosed m))
    line := LineUnit.atPowerOn lines.receiveSpace
    pending := waiting }

section PoweredOn

variable (p : Straps) (x : Lines) (q : List Instr)

theorem State.poweredOn_machine (m : MachineId) : (State.poweredOn p x q).machine m
    = MachineRec.atPowerOn (lineReading p p.loopSwitch x.loopSwitch m)
        (lineReading p p.contactorSense x.contactorSense m) := by
  simp [State.machine, State.poweredOn]

theorem State.poweredOn_decoder (m : MachineId) : (State.poweredOn p x q).decoder m = DecoderRec.atPowerOn :=
  Quad.get_same _ m

theorem State.poweredOn_lamp (m : MachineId) : (State.poweredOn p x q).lamp m = LampRec.atPowerOn :=
  Quad.get_same _ m

theorem State.poweredOn_latch (m : MachineId) : (State.poweredOn p x q).fire.machineLatch.get m = some .booth :=
  Quad.get_same _ m

theorem State.poweredOn_gate (m : MachineId) : (State.poweredOn p x q).fire.gates.get m = GateRec.atPowerOn :=
  Quad.get_same _ m

theorem State.poweredOn_shutter (m : MachineId) : (State.poweredOn p x q).fire.shutters.get m
    = ShutterRec.atPowerOn (lineReading p p.shutterOpen x.shutterOpen m) (lineReading p p.shutterClosed x.shutterClosed m) := by
  simp [State.poweredOn, FireUnit.atPowerOn]

theorem State.poweredOn_screen (sc : ScreenId) : (State.poweredOn p x q).screen sc = ScreenRec.atPowerOn :=
  Pair.get_same _ sc

theorem State.poweredOn_slot (sc : ScreenId) (n : SlotIx) : (State.poweredOn p x q).slot sc n = Slot.cleared := by
  have htable : (State.poweredOn p x q).plan.tables.get sc = PlanTable.cleared := Pair.get_same _ sc
  rw [State.slot, htable, PlanTable.cleared_get]

theorem State.poweredOn_circuit (sc : ScreenId) (c : CircuitId) :
    (State.poweredOn p x q).circuit sc c = Circuit.atPowerOn := by
  have hcircuits : (State.poweredOn p x q).lights.circuits.get sc = Triple.same Circuit.atPowerOn := Pair.get_same _ sc
  rw [State.circuit, hcircuits, Triple.get_same]

end PoweredOn

/-- Settles O59: the records are those of power-on, read field by field. -/
theorem powerSetsTheRecords : Obligations.PowerSetsTheRecords := by
  unfold Obligations.PowerSetsTheRecords
  refine ⟨fun p x s => ?_, fun s => ⟨_, rfl, rfl, rfl, rfl, rfl, fun m => by cases m <;> exact ⟨rfl, rfl, rfl, rfl⟩⟩⟩
  dsimp only
  refine ⟨State.poweredOn p x s.pending, rfl, rfl, rfl, rfl, rfl, fun m => ?_, rfl, fun m => Quad.get_same _ m,
    fun sc => ⟨Pair.get_same _ sc, State.poweredOn_screen p x _ sc, ?_, ?_, ?_, ?_, ?_, State.poweredOn_slot p x _ sc,
      Pair.get_same _ sc, fun c => ?_⟩, rfl, rfl, rfl, rfl, rfl, rfl, rfl, rfl, rfl, rfl, rfl, rfl, rfl⟩
  · rw [State.poweredOn_machine, State.poweredOn_decoder, State.poweredOn_lamp, State.poweredOn_latch,
      State.poweredOn_gate, State.poweredOn_shutter]
    simp only [MachineRec.atPowerOn, ShutterRec.atPowerOn, lineReading_eq, DecoderRec.atPowerOn, LampRec.atPowerOn,
      GateRec.atPowerOn, Config.firstAllowance, Config.firstTrip, Config.firstReset, and_self]
  · rw [State.poweredOn_screen]; rfl
  · rw [State.poweredOn_screen]; rfl
  · rw [State.poweredOn_screen]; rfl
  · rw [State.poweredOn_screen]; rfl
  · rw [State.poweredOn_screen]; rfl
  · rw [State.poweredOn_circuit]
    exact ⟨rfl, rfl, ⟨_, rfl, rfl, rfl, rfl⟩, rfl, rfl, rfl, rfl, rfl, rfl⟩

end Sys2Proof.Machine

/-! RESTART: what every block is left with. -/

namespace Sys2Proof.Machine

open Sys2Proof Host

/-! ### What a lamp's change leaves of the rest -/

/-- A lamp's change writes the LAMP hold of its own machine, and the douser that follows (R62, R15). -/
theorem State.modLamp_machine_kept (m k : MachineId) (f : LampRec → LampRec) (s : State) :
    (s.modLamp m f).machine k = { s.machine k with
      holds := { (s.machine k).holds with lamp := ((s.modLamp m f).machine k).holds.lamp }
      douser := ((s.modLamp m f).machine k).douser } := by
  rw [State.modLamp_machine']
  split
  next hk =>
    subst hk
    split <;> rfl
  next => rfl

theorem State.modLamp_decoder (m k : MachineId) (f : LampRec → LampRec) (s : State) :
    (s.modLamp m f).decoder k = s.decoder k := by
  obtain e | ⟨b, e⟩ := s.modLamp_split m f
  · rw [e]; rfl
  · rw [e]
    simp only [State.decoder, State.holdRequest, State.modMachine_decoders, Quad.get_set]
    split
    next hk => subst hk; exact DecoderRec.follow_of_kept _ rfl rfl
    next => rfl

/-- A lamp's change writes no more of the plan store than the last ARMED posting. -/
theorem State.modLamp_plan (m : MachineId) (f : LampRec → LampRec) (s : State) :
    (s.modLamp m f).plan = { s.plan with lastPosting := (s.modLamp m f).plan.lastPosting } := by
  obtain e | ⟨b, e⟩ := s.modLamp_split m f
  · rw [e]
  · rw [e]
    exact (PlanStore.noteMachine_only m _ s.plan).1

/-! ### One machine, its decoder and its lamp -/

/-- A lamp that RESTART puts out is not BURNING, so a BURNING lamp's machine is given LAMP. -/
def restartedMachine (latched : Bool) (l : LampRec) (r : MachineRec) : MachineRec :=
  if l.state = .burning then
    MachineRec.settleDouser { r.restart latched with holds := { (r.restart latched).holds with lamp := true } }
  else (r.restart latched).settleDouser

theorem State.restartMachine_machine (m k : MachineId) (s : State) :
    (s.restartMachine m).machine k
      = if k = m then restartedMachine (s.fire.machineLatch.get m).isSome (s.lamp m) (s.machine m) else s.machine k := by
  have hout : ((s.lamp m).restart.state == .burning) = false := by simpa using (s.lamp m).restart_out.2.1
  unfold State.restartMachine
  rw [State.modLamp_machine']
  by_cases hk : k = m
  · subst hk
    by_cases hburn : (s.lamp k).state = .burning
    · have hlit : ((s.lamp k).restart.state != .burning) = true := by simpa using (s.lamp k).restart_out.2.1
      simp [restartedMachine, hburn, hlit, (s.lamp k).restart_out.2.1, HoldSet.put, MachineRec.settleDouser]
    · have hlamp : ((s.lamp k).state == .burning) = false := by simpa using hburn
      simp [restartedMachine, hburn, hout, hlamp]
  · simp [hk]

theorem State.restartMachine_lamp (m k : MachineId) (s : State) :
    (s.restartMachine m).lamp k = if k = m then (s.lamp m).restart else s.lamp k := by
  unfold State.restartMachine
  simp

theorem State.restartMachine_decoder (m k : MachineId) (s : State) :
    (s.restartMachine m).decoder k = if k = m then DecoderRec.atPowerOn else s.decoder k := by
  unfold State.restartMachine
  rw [State.modLamp_decoder, State.modDecoder_decoder]
  split
  · rfl
  next hk => exact Quad.get_set_ne _ _ hk

theorem State.restartMachine_plan (m : MachineId) (s : State) :
    (s.restartMachine m).plan = { s.plan with lastPosting := (s.restartMachine m).plan.lastPosting } := by
  unfold State.restartMachine
  rw [State.modLamp_plan]
  simp only [State.modDecoder_plan, State.modMachine_plan]
  rw [(PlanStore.noteMachine_only m _ s.plan).1]

theorem State.restartMachine_rest (m : MachineId) (s : State) :
    (s.restartMachine m).powered = s.powered ∧ (s.restartMachine m).straps = s.straps
      ∧ (s.restartMachine m).timebase = s.timebase := by
  unfold State.restartMachine
  simp

/-! ### The four machines together -/

theorem State.restartUnits_machine (k : MachineId) (s : State) :
    s.restartUnits.machine k
      = restartedMachine (s.fire.machineLatch.get k).isSome (s.lamp k) (s.machine k) := by
  simp only [State.restartUnits, State.restartMachine_machine, State.restartMachine_lamp,
    (State.restartMachine_keeps _ _).2.1]
  cases k <;> rfl

theorem State.restartUnits_lamp (k : MachineId) (s : State) : s.restartUnits.lamp k = (s.lamp k).restart := by
  simp only [State.restartUnits, State.restartMachine_lamp]
  cases k <;> rfl

theorem State.restartUnits_decoder (k : MachineId) (s : State) : s.restartUnits.decoder k = DecoderRec.atPowerOn := by
  simp only [State.restartUnits, State.restartMachine_decoder]
  cases k <;> rfl

theorem State.restartUnits_plan (s : State) :
    s.restartUnits.plan = { s.plan with lastPosting := s.restartUnits.plan.lastPosting } := by
  rw [State.restartUnits, State.restartMachine_plan, State.restartMachine_plan .m3, State.restartMachine_plan .m2,
    State.restartMachine_plan .m1]

theorem State.restartUnits_rest (s : State) :
    s.restartUnits.powered = s.powered ∧ s.restartUnits.straps = s.straps ∧ s.restartUnits.timebase = s.timebase
      ∧ s.restartUnits.lights = s.lights := by
  simp only [State.restartUnits, (State.restartMachine_rest _ _).1, (State.restartMachine_rest _ _).2.1,
    (State.restartMachine_rest _ _).2.2, (State.restartMachine_keeps _ _).1, and_self]

theorem State.restartBlocks_eq (s : State) :
    s.restartBlocks = { (s.restartUnits.modPlan PlanStore.restart).modLights HouseLights.restart with
      screens := Pair.same ScreenRec.atPowerOn } := rfl

/-! ### What each record is left with -/

theorem restartedMachine_fields (latched : Bool) (l : LampRec) (r : MachineRec) :
    let x := restartedMachine latched l r
    x.state = (if latched then .tripped else .empty) ∧ x.stateBeforeTrip = (if latched then some .empty else none)
      ∧ x.motor = false ∧ x.laceUp = r.motorOff.laceUp ∧ x.reelId = none ∧ x.boundSlot = none ∧ x.frameCount = 0
      ∧ x.saturated = false ∧ x.armedPosting = false ∧ x.rejected = 0 ∧ x.pictureLost = none ∧ x.breakCause = none
      ∧ x.douserRequest = .closed ∧ x.holds.console = false ∧ x.holds.brk = false
      ∧ x.holds.fire = r.holds.fire ∧ x.accelAllowance = r.accelAllowance ∧ x.douser = .closed := by
  have hfields := r.restart_fields latched
  have hdouser : ∀ y : MachineRec, y.douserRequest = .closed → y.settleDouser.douser = .closed := by
    intro y hy
    simp [MachineRec.settleDouser, hy]
  have hallowance : r.motorOff.accelAllowance = r.accelAllowance := by unfold MachineRec.motorOff; split <;> rfl
  unfold restartedMachine
  split <;>
    exact ⟨hfields.1, rfl, hfields.2.1, rfl, rfl, rfl, rfl, rfl, rfl, rfl, rfl, rfl, rfl, rfl, rfl, hfields.2.2.1,
      hallowance, hdouser _ rfl⟩

/-- R42: the speed records. -/
theorem restartedMachine_speed (latched : Bool) (l : LampRec) (r : MachineRec) :
    let x := restartedMachine latched l r
    x.ring = [] ∧ x.pulseRef = false ∧ x.periodTimer = none ∧ x.accelTimer = none ∧ x.average = none
      ∧ x.cfps = none ∧ x.inBandRun = 0 ∧ x.outBandRun = 0 ∧ x.lastAverage = r.lastAverage ∧ x.speed = r.speed
      ∧ x.noPulseTimer = (if r.motor then some 0 else r.noPulseTimer)
      ∧ x.holds.speed = (if r.motor then false else r.holds.speed)
      ∧ (l.state = .burning → x.holds.lamp = true) := by
  unfold restartedMachine
  by_cases hmotor : r.motor = true <;> by_cases hburn : l.state = .burning <;>
    simp [hmotor, hburn, MachineRec.restart, MachineRec.motorOff, MachineRec.clearRing, HoldSet.put]

theorem LampRec.restart_fields (x : LampRec) :
    let y := x.restart
    (y.state = if x.state = .exhausted then .exhausted else .dark) ∧ y.faultCause = none
      ∧ y.phase = none ∧ y.attempt = 0 ∧ y.restrike = false ∧ y.shortGapRetract = none
      ∧ y.contactorClosed = false ∧ y.feedDuty = 0 ∧ y.openBucket = none ∧ y.bucketMeasure = none
      ∧ y.trim = x.trim ∧ y.consumed = x.consumed ∧ y.buckets = x.buckets ∧ y.completed = x.completed
      ∧ y.stub = 40 ∧ y.nominalRate = 140 ∧ y.setpoint = 550 ∧ y.holdingDuty = 96 ∧ y.gain = 8
      ∧ y.strikeLead = 60 ∧ y.reserve = 60 ∧ y.forecast = min 65535 (y.remaining * 60 / y.rateInUse)
      ∧ y.boundLength = none ∧ y.carbonOk = none ∧ y.shortfallReported = false := by
  refine ⟨rfl, rfl, rfl, rfl, rfl, rfl, rfl, rfl, rfl, rfl, rfl, rfl, rfl, rfl, rfl, rfl, rfl, rfl, rfl, rfl, rfl, ?_,
    rfl, rfl, rfl⟩
  rfl

/-! ### The circuits -/

/-- The circuit that its last claim has left stands at full (R135). -/
theorem Circuit.release_last {h : Nat} {r : Rank} {c : Circuit} (hpresent : (c.claims.get r).isSome = true)
    (hlast : (c.release h r).claims.top = none) : (c.release h r).output = 255 ∧ (c.release h r).stepMeasure = none := by
  by_cases hwait : c.claims.Outranked r
  · rw [Circuit.release_of_outranked h hpresent hwait] at hlast
    have hstill : (c.claims.set r none).Outranked r := (c.claims.outranked_set_iff r none).2 hwait
    obtain ⟨q, -, hq⟩ := hstill
    rw [ClaimTable.top_none hlast q] at hq
    exact absurd hq (by simp)
  · cases hnext : r.below.find? fun q => (c.claims.get q).isSome with
    | none =>
      rw [Circuit.release_to_full h hpresent hwait hnext]
      exact ⟨rfl, rfl⟩
    | some q =>
      have hq : (c.claims.get q).isSome = true := List.find?_some (p := fun q => (c.claims.get q).isSome) hnext
      have hne : q ≠ r := Rank.ne_of_mem_below (List.mem_of_find?_eq_some hnext)
      have hsame := Circuit.release_claims h r c q hne
      rw [ClaimTable.top_none hlast q] at hsame
      obtain ⟨y, hy⟩ := Option.isSome_iff_exists.mp hq
      rw [hy] at hsame
      exact absurd hsame (by simp [sameClaim])

/-- At full with no fade, as the last claim leaves a circuit (R135). -/
def Circuit.Rests (c : Circuit) : Prop := c.claims.top = none → c.output = 255 ∧ c.stepMeasure = none

theorem Circuit.Rests.release {h : Nat} {r : Rank} {c : Circuit} (k : c.Rests ∨ (c.claims.get r).isSome = true) :
    (c.release h r).Rests := by
  intro hlast
  by_cases hpresent : (c.claims.get r).isSome = true
  · exact Circuit.release_last hpresent hlast
  · have habsent : c.claims.get r = none := by simpa using hpresent
    rw [Circuit.release_of_absent h habsent] at hlast ⊢
    obtain hrests | hsome := k
    · exact hrests hlast
    · exact absurd hsome hpresent

theorem sameClaim.isSome_eq {a b : Option Claim} (h : sameClaim a b) : a.isSome = b.isSome := by
  have := congrArg Option.isSome h
  simpa using this

theorem sameClaim.trans {a b c : Option Claim} (h : sameClaim a b) (k : sameClaim b c) : sameClaim a c := Eq.trans h k

theorem sameClaim.eq_none {a : Option Claim} (h : sameClaim a none) : a = none := by
  cases a with
  | none => rfl
  | some x => exact absurd h (by simp [sameClaim])

theorem Circuit.restart_claims (h : Nat) (c : Circuit) :
    (c.restart h).claims.fault = none ∧ (c.restart h).claims.cue = none ∧ (c.restart h).claims.console = none
      ∧ sameClaim (c.restart h).claims.safety c.claims.safety := by
  have hkept : ∀ (r q : Rank) (x : Circuit), q ≠ r → x.claims.get q = none → (x.release h r).claims.get q = none :=
    fun r q x hne hnone => by
      have := Circuit.release_claims h r x q hne
      rw [hnone] at this
      exact this.eq_none
  refine ⟨Circuit.release_self h .fault _, hkept .fault .cue _ (by decide) (Circuit.release_self h .cue _),
    hkept .fault .console _ (by decide) (hkept .cue .console _ (by decide) (Circuit.release_self h .console c)), ?_⟩
  have hsafety := fun (r : Rank) (x : Circuit) (hne : Rank.safety ≠ r) => Circuit.release_claims h r x .safety hne
  exact (hsafety .fault _ (by decide)).trans ((hsafety .cue _ (by decide)).trans (hsafety .console c (by decide)))

theorem Circuit.restart_rests (h : Nat) (c : Circuit)
    (hclaimed : c.claims.fault.isSome ∨ c.claims.cue.isSome ∨ c.claims.console.isSome) : (c.restart h).Rests := by
  have hkept := fun (r q : Rank) (x : Circuit) (hne : q ≠ r) => (Circuit.release_claims h r x q hne).isSome_eq
  obtain hfault | hcue | hconsole := hclaimed
  · refine Circuit.Rests.release (.inr ?_)
    rw [hkept _ _ _ (by decide), hkept _ _ _ (by decide)]
    exact hfault
  · refine Circuit.Rests.release (.inl (Circuit.Rests.release (.inr ?_)))
    rw [hkept _ _ _ (by decide)]
    exact hcue
  · exact Circuit.Rests.release (.inl (Circuit.Rests.release (.inl (Circuit.Rests.release (.inr hconsole)))))

theorem Circuit.restart_full (h : Nat) (c : Circuit) (hsafety : c.claims.safety = none)
    (hclaimed : c.claims.fault.isSome ∨ c.claims.cue.isSome ∨ c.claims.console.isSome) :
    (c.restart h).output = 255 ∧ (c.restart h).stepMeasure = none := by
  obtain ⟨hfault, hcue, hconsole, hsame⟩ := c.restart_claims h
  rw [hsafety] at hsame
  refine c.restart_rests h hclaimed ?_
  simp [ClaimTable.top, hfault, hcue, hconsole, hsame.eq_none]

/-! ### The line unit -/

theorem LineUnit.restartReply (l : LineUnit) :
    let x := LineUnit.report .ready { l.answer (.ok []) with queue := [] }
    x.assembly = l.assembly ∧ x.buffers = l.buffers ∧ x.nextOrder = l.nextOrder + 2
      ∧ x.replyPlace = .full (.ok []) l.nextOrder
      ∧ (l.transmitter.isSome = true → x.transmitter = l.transmitter)
      ∧ (l.transmitter = none → l.queue = [] → x.transmitter = some ⟨.reply (.ok []), l.nextOrder⟩)
      ∧ x.queue = [⟨.ready, l.nextOrder + 1⟩] := by
  cases htransmitter : l.transmitter with
  | some y => simp [LineUnit.answer, LineUnit.report, LineUnit.pump, htransmitter, queueJoin]
  | none =>
    cases hqueue : l.queue with
    | nil => simp [LineUnit.answer, LineUnit.report, LineUnit.pump, htransmitter, hqueue, queueJoin]
    | cons q qs =>
      by_cases horder : l.nextOrder < q.order <;>
        simp [LineUnit.answer, LineUnit.report, LineUnit.pump, htransmitter, hqueue, horder, queueJoin]

/-! ### The command -/

theorem State.bothIdle_iff (s : State) :
    s.bothIdle = true ↔ (s.screen .s1).state = .idle ∧ (s.screen .s2).state = .idle := by
  simp [State.bothIdle]

/-- What RESTART reads of the screens: as it was dispatched, and else as they stand (log entry 3). -/
theorem State.idleRead_iff (s : State) :
    s.idleRead [] = true ↔
      if s.line.handed = some (.restart []) ∧ s.line.reading = some (.bothIdle true) then True
      else if s.line.handed = some (.restart []) ∧ s.line.reading = some (.bothIdle false) then False
      else (s.screen .s1).state = .idle ∧ (s.screen .s2).state = .idle := by
  unfold State.idleRead State.readingFor
  by_cases hhanded : s.line.handed = some (.restart [])
  · match hreading : s.line.reading with
    | some (.bothIdle true) => simp [hhanded]
    | some (.bothIdle false) => simp [hhanded]
    | some (.status ..) => simp [hhanded, State.bothIdle_iff]
    | none => simp [hhanded, State.bothIdle_iff]
  · simp [hhanded, State.bothIdle_iff]

/-- The state that a RESTART which is carried out leaves. -/
def State.restarted (s : State) : State :=
  (((s.taken (.restart [])).restartBlocks.answer (.ok [])).modLine fun l => { l with queue := [] }).report .ready

theorem exec_restart_idle {s : State} (hp : s.powered = true) (hidle : s.idleRead [] = true) :
    exec (.restart []) s = .next s.restarted := by
  change execRestart [] s = _
  have hparse : parseRestart (s.idleRead []) [] = .ok () := by rw [hidle]; rfl
  simp only [execRestart, State.takeCommand_of_powered hp, hparse]
  rfl

theorem State.restartBlocks_machine (k : MachineId) (s : State) :
    s.restartBlocks.machine k
      = restartedMachine (s.fire.machineLatch.get k).isSome (s.lamp k) (s.machine k) := by
  rw [← State.restartUnits_machine]
  simp only [State.machine, s.restartBlocks_units.1]

theorem State.restartBlocks_lamp (k : MachineId) (s : State) : s.restartBlocks.lamp k = (s.lamp k).restart := by
  rw [← State.restartUnits_lamp]
  simp only [State.lamp, s.restartBlocks_units.2.1]

theorem State.restartBlocks_decoder (k : MachineId) (s : State) : s.restartBlocks.decoder k = DecoderRec.atPowerOn := by
  rw [← s.restartUnits_decoder k, State.restartBlocks_eq]
  generalize s.restartUnits = u
  rfl

theorem State.restartBlocks_clock (s : State) :
    s.restartBlocks.plan.clock = s.plan.clock ∧ s.restartBlocks.plan.clockSecond = s.plan.clockSecond := by
  have hplan := s.restartUnits_plan
  rw [State.restartBlocks_eq]
  generalize s.restartUnits = u at hplan ⊢
  change u.plan.clock = _ ∧ u.plan.clockSecond = _
  rw [hplan]
  exact ⟨rfl, rfl⟩

theorem State.restartBlocks_plan (s : State) :
    s.restartBlocks.plan.showAt = Pair.same none ∧ s.restartBlocks.plan.lastPosting = Quad.same false
      ∧ s.restartBlocks.screens = Pair.same ScreenRec.atPowerOn := by
  rw [State.restartBlocks_eq]
  generalize s.restartUnits = u
  exact ⟨rfl, rfl, rfl⟩

theorem State.restartBlocks_circuit (sc : ScreenId) (c : CircuitId) (s : State) :
    s.restartBlocks.circuit sc c = (s.circuit sc c).restart s.lights.halfCycle := by
  simp only [State.circuit, (State.restartBlocks_keeps s).1, HouseLights.restart]
  cases sc <;> cases c <;> rfl

theorem State.restartBlocks_rest (s : State) :
    s.restartBlocks.powered = s.powered ∧ s.restartBlocks.straps = s.straps
      ∧ s.restartBlocks.timebase = s.timebase := by
  obtain ⟨hpowered, hstraps, htimebase, -⟩ := s.restartUnits_rest
  rw [State.restartBlocks_eq]
  generalize s.restartUnits = u at hpowered hstraps htimebase ⊢
  exact ⟨hpowered, hstraps, htimebase⟩

theorem MachineRec.motorOff_laceUp {r : MachineRec} (h : r.laceUp = true → r.motor = true) :
    r.motorOff.laceUp = false := by
  unfold MachineRec.motorOff
  split
  · rfl
  next hmotor => simpa using mt h hmotor

/-- Settles O60: machine by machine, circuit by circuit, and the line unit with its reply and *READY. -/
theorem restartClearsTheShow : Obligations.RestartClearsTheShow := by
  intro ops s hp idle
  have hread : s.idleRead [] = true ↔ idle := s.idleRead_iff
  refine ⟨fun hops => ?_, fun hbusy => ?_, fun hidle => ?_⟩
  · refine exec_refused hp (reasonOf_eq_some.2 ?_)
    cases ops with
    | nil => exact absurd rfl hops
    | cons _ _ => rfl
  · refine exec_refused hp (reasonOf_eq_some.2 ?_)
    have hno : s.idleRead [] = false := by simpa using mt hread.1 hbusy
    change parseRestart (s.idleRead []) [] = _
    rw [hno]
    rfl
  · intro l
    refine ⟨s.restarted, exec_restart_idle hp (hread.2 hidle), ?_⟩
    have hmachine := fun m => State.restartBlocks_machine m (s.taken (.restart []))
    have hlamp := fun m => State.restartBlocks_lamp m (s.taken (.restart []))
    have hdecoder := fun m => State.restartBlocks_decoder m (s.taken (.restart []))
    have hslot := State.restartBlocks_slot (s.taken (.restart []))
    have hcircuit := fun sc c => State.restartBlocks_circuit sc c (s.taken (.restart []))
    obtain ⟨hshowAt, hposting, hscreens⟩ := (s.taken (.restart [])).restartBlocks_plan
    obtain ⟨hlights, hfire, hline⟩ := (s.taken (.restart [])).restartBlocks_keeps
    obtain ⟨hclock, hsecond⟩ := (s.taken (.restart [])).restartBlocks_clock
    obtain ⟨hpowered, hstraps, htimebase⟩ := (s.taken (.restart [])).restartBlocks_rest
    have hpending := (s.taken (.restart [])).restartBlocks_pending
    obtain ⟨hassembly, hbuffers, hreply⟩ := LineUnit.restartReply l
    unfold State.restarted
    generalize (s.taken (.restart [])).restartBlocks = u at *
    have hlineLeft : ((((u.answer (.ok [])).modLine fun l => { l with queue := [] }).report .ready)).line
        = LineUnit.report .ready { l.answer (.ok []) with queue := [] } := by
      rw [State.report_line, State.modLine_line, State.answer_line, hline]
    refine ⟨hpowered.trans hp, hstraps, htimebase, hfire, hpending, fun m => ?_, hclock, hsecond, fun sc => ?_,
      fun m => ?_, ?_, ?_, ?_, ?_, ?_⟩
    · intro a b x y
      have hb : b = restartedMachine (s.fire.machineLatch.get m).isSome x a := hmachine m
      have hy : y = x.restart := hlamp m
      have hd : (((u.answer (.ok [])).modLine fun l => { l with queue := [] }).report .ready).decoder m
          = DecoderRec.atPowerOn := hdecoder m
      have hfields := restartedMachine_fields (s.fire.machineLatch.get m).isSome x a
      have hspeed := restartedMachine_speed (s.fire.machineLatch.get m).isSome x a
      have hlampFields := x.restart_fields
      rw [← hb] at hfields hspeed
      rw [← hy] at hlampFields
      obtain ⟨hstate, hbefore, hmotor, hlaceUp, hreel, hbound, hcount, hsaturated, harmed, hrejected, hpicture, hbreak,
        hrequest, hconsole, hbrk, hfireHold, hallowance, hdouser⟩ := hfields
      obtain ⟨hring, hpulse, hperiod, haccel, haverage, hcfps, hin, hout, hlast, hstatus, hnoPulse, hspeedHold,
        hlit⟩ := hspeed
      obtain ⟨hlampState, hcause, hlampRest⟩ := hlampFields
      refine ⟨hstate, hbefore, hmotor, fun hbooth => ?_, hreel, hbound, hcount, hsaturated, harmed, hrejected, hpicture,
        hbreak, hrequest, hconsole, hbrk, hfireHold, hallowance, hdouser, hring, hpulse, hperiod, haccel, haverage, hcfps,
        hin, hout, hlast, hstatus, hnoPulse, hspeedHold, hd, hlampState, hcause, hlit, hlampRest⟩
      rw [hlaceUp]
      have hlaw : MachineLaw (s.machine m) (s.lamp m) := hbooth.machine m
      exact MachineRec.motorOff_laceUp fun h => hlaw.motor.trans (by rw [h, Bool.or_true])
    · refine ⟨?_, hslot sc, ?_, ?_, fun c => ?_⟩
      · change u.plan.showAt.get sc = _
        rw [hshowAt, Pair.get_same]
      · change u.screens.get sc = _
        rw [hscreens, Pair.get_same]
      · change u.lights.scenes.get sc = _
        rw [hlights]
        exact Pair.get_same _ sc
      · intro x y
        have hy : y = x.restart s.lights.halfCycle := hcircuit sc c
        obtain ⟨hfault, hcue, hconsole, hsafety⟩ := x.restart_claims s.lights.halfCycle
        rw [hy]
        exact ⟨hfault, hcue, hconsole, hsafety, x.restart_full s.lights.halfCycle⟩
    · change u.plan.lastPosting.get m = _
      rw [hposting, Quad.get_same]
    · change u.lights.crossings = _
      rw [hlights]; rfl
    · change u.lights.crossingRef = _
      rw [hlights]; rfl
    · change u.lights.halfCycle = _
      rw [hlights]; rfl
    · change u.lights.valid = _
      rw [hlights]; rfl
    · rw [hlineLeft]
      exact ⟨hassembly, hbuffers, hreply⟩

end Sys2Proof.Machine

/-! The carbon account, and the report queue with what the idle transmitter takes. -/

namespace Sys2Proof.Machine

open Sys2Proof Host

/-! ### The carbon account -/

theorem LampRec.rateInUse_eq (l : LampRec) :
    l.rateInUse = if l.completed = 6 ∧ 0 < l.buckets.sum then l.buckets.sum else l.nominalRate := by
  simp only [LampRec.rateInUse, LampRec.rateMeasured_iff]

theorem LampRec.recompute_forecast (l : LampRec) :
    l.recompute.forecast = min 65535 (l.remaining * 60 / l.rateInUse) := rfl

/-- At 20 pulses or more in a minute, 11,600 pulses last 34,800 s at most. -/
theorem LampRec.recompute_forecast_le {l : LampRec} (hremaining : l.remaining ≤ 11600) (hrate : 20 ≤ l.rateInUse) :
    l.recompute.forecast ≤ 34800 := by
  have hquotient : l.remaining * 60 / l.rateInUse ≤ l.remaining * 60 / 20 := Nat.div_le_div_left hrate (by decide)
  rw [LampRec.recompute_forecast]
  omega

/-- The forecast's limit is met only where 11,600 pulses last so long. -/
theorem LampRec.rateInUse_of_longest {l : LampRec} (hremaining : l.remaining ≤ 11600)
    (hlongest : l.recompute.forecast = 65535) : l.rateInUse ≤ 10 := by
  by_contra hfast
  have hquotient : l.remaining * 60 / l.rateInUse ≤ l.remaining * 60 / 11 :=
    Nat.div_le_div_left (by omega) (by decide)
  rw [LampRec.recompute_forecast] at hlongest
  omega

/-- Settles O30: the quantities of the account, and their bounds by the rate in use. -/
theorem carbonAccount : Obligations.CarbonAccount := by
  intro l len
  refine ⟨rfl, fun htrim hstub => ?_, fun htrim => ?_, l.rateInUse_eq, rfl, fun hremaining hnominal hunmeasured => ?_,
    fun hremaining hnominal hlongest => ?_, fun hlead hlead' hreserve hlen hlen' => ?_⟩
  · simp only [LampRec.remaining, Config.pulsesPerMm]
    omega
  · simp [LampRec.remaining, htrim]
  · refine LampRec.recompute_forecast_le hremaining ?_
    rw [l.rateInUse_eq, if_neg hunmeasured]
    exact hnominal
  · have hslow := LampRec.rateInUse_of_longest hremaining hlongest
    rw [l.rateInUse_eq] at hslow
    split at hslow
    next hmeasured => exact ⟨hmeasured.1, hmeasured.2, hslow⟩
    next => omega
  · simp only [LampRec.need, ceilDiv]
    omega

/-! ### The report queue -/

theorem queueJoin_of_room {q : List QueuedReport} (new : QueuedReport) (h : q.length < 32) :
    queueJoin q new = q ++ [new] := if_pos h

theorem QueuedReport.isInfo_iff (q : QueuedReport) : q.isInfo = true ↔ q.report.class_ = .info := by
  simp [QueuedReport.isInfo]

theorem QueuedReport.isInfo_of_alarm {q : QueuedReport} (h : q.report.class_ = .alarm) : q.isInfo = false := by
  simp [QueuedReport.isInfo, h]

theorem queueJoin_info {q : List QueuedReport} {new : QueuedReport} (hfull : 32 ≤ q.length)
    (hinfo : new.report.class_ = .info) : queueJoin q new = q := by
  have hnoRoom : ¬ q.length < Config.queueSize := Nat.not_lt.2 hfull
  rw [queueJoin, if_neg hnoRoom, if_pos (new.isInfo_iff.2 hinfo)]

/-- In a full queue an ALARM report takes the place of the oldest INFO report, where one is queued. -/
theorem queueJoin_alarm {q : List QueuedReport} {new : QueuedReport} (hfull : 32 ≤ q.length)
    (halarm : new.report.class_ = .alarm) :
    queueJoin q new = if q.any QueuedReport.isInfo then q.eraseP QueuedReport.isInfo ++ [new] else q := by
  have hnoRoom : ¬ q.length < Config.queueSize := Nat.not_lt.2 hfull
  have hnotInfo : ¬ new.isInfo = true := by simp [QueuedReport.isInfo_of_alarm halarm]
  rw [queueJoin, if_neg hnoRoom, if_neg hnotInfo]

theorem Report.class_alarm_iff (r : Report) :
    r.class_ = .alarm ↔
      (∃ a b c, r = .trip a b c) ∨ (∃ a b c, r = .shutterStuck a b c) ∨ (∃ a, r = .shutterSag a)
        ∨ (∃ a b c d, r = .dark a b c d) ∨ (∃ a b c, r = .missed a b c) ∨ (∃ a b c, r = .broke a b c)
        ∨ (∃ a b, r = .arcOut a b) ∨ (∃ a, r = .exhaust a) ∨ (∃ a b c, r = .carbon a b c)
        ∨ (∃ a b, r = .showLate a b) ∨ (∃ a b c, r = .lateFallback a b c) ∨ (∃ a b, r = .lateArmed a b) := by
  cases r <;> simp [Report.class_]

/-- Settles O56: the queue by its room and the class of the report, and the transmitter by what waits. -/
theorem queueTakesReports : Obligations.QueueTakesReports := by
  refine ⟨fun q new => ⟨queueJoin_of_room new, queueJoin_info, fun hfull halarm => ⟨?_, ?_⟩⟩, ?_, Report.class_alarm_iff⟩
  · intro a x b hq halarms hinfo
    have hx : x.isInfo = true := x.isInfo_iff.2 hinfo
    have ha : ∀ y ∈ a, ¬ y.isInfo = true := fun y hy => by simp [QueuedReport.isInfo_of_alarm (halarms y hy)]
    rw [queueJoin_alarm hfull halarm, if_pos (by simp [hq, hx]), hq, List.eraseP_append_right _ ha,
      List.eraseP_cons_of_pos hx]
  · intro halarms
    have hnone : ¬ q.any QueuedReport.isInfo = true := by
      simp only [List.any_eq_true, not_exists, not_and]
      exact fun y hy => by simp [QueuedReport.isInfo_of_alarm (halarms y hy)]
    rw [queueJoin_alarm hfull halarm, if_neg hnone]
  · rintro r s l rfl queue made
    have hreport : s.report r = { s with line := LineUnit.pump made } := rfl
    rw [hreport]
    unfold LineUnit.pump
    rfl

end Sys2Proof.Machine

/-! Operand words: numbers as they are written and read, keyword operands, and the numbers of screens, slots and scenes. -/

namespace Sys2Proof.Machine

open Sys2Proof Host

/-! ### Numbers -/

/-- A number as the console line writes it is read as that number (0.6, R172). -/
@[simp] theorem number_fNum (n : Nat) : number? (fNum n) = some n := by
  have hne : (fNum n).isEmpty = false := by simp [fNum, Nat.toDigits_ne_nil]
  have hdigits : (fNum n).all Char.isDigit = true := List.all_eq_true.2 fun c hc =>
    Nat.isDigit_of_mem_toDigits (by decide) (by decide) hc
  have hvalue : (fNum n).foldl (fun k c => 10 * k + (c.toNat - 48)) 0 = n := by
    have := Nat.ofDigitChars_ten_toDigits (n := n)
    rwa [Nat.ofDigitChars_eq_foldl] at this
  simp [number?, hne, hdigits, hvalue]

/-! ### Keyword operands -/

theorem cutAt_append {c : Char} {k : Text} (hk : c ∉ k) (v : Text) : cutAt c (k ++ c :: v) = (k, some v) := by
  induction k with
  | nil => simp [cutAt]
  | cons x xs ih =>
    obtain ⟨hne, hxs⟩ : c ≠ x ∧ c ∉ xs := by simpa using hk
    simp [cutAt, hne.symm, ih hxs]

/-- An operand written `keyword=value` is read as that keyword and that value. -/
theorem keyValue_append {k : Text} (hk : '=' ∉ k) (v : Text) : keyValue? (k ++ txt "=" ++ v) = some (k, v) := by
  have hword : k ++ txt "=" ++ v = k ++ '=' :: v := by simp [txt]
  simp [keyValue?, hword, cutAt_append hk]

/-! ### Screens, slots and scenes -/

theorem screenOperand_of_namesScreen {s : State} {a : Text} {sc : ScreenId} (h : s.namesScreen a sc) :
    ∃ n, number? a = some n ∧ screenOperand s n = .ok sc := by
  obtain ⟨hnum, hfit⟩ := h
  obtain ⟨n, hn, hsc⟩ := Option.bind_eq_some_iff.mp hnum
  refine ⟨n, hn, ?_⟩
  have hin : ¬ (sc = .s2 ∧ s.straps.screen2Fitted = false) := fun ⟨hs2, hunfit⟩ => by simp [hfit hs2] at hunfit
  simp [screenOperand, hsc, hin]

theorem slotOperand_of_namesSlot {a : Text} {n : SlotIx} (h : namesSlot a n) :
    ∃ k, number? a = some k ∧ slotOperand k = .ok n := by
  obtain ⟨k, hk, hslot⟩ := Option.bind_eq_some_iff.mp h
  exact ⟨k, hk, by simp [slotOperand, hslot]⟩

theorem sceneOperand_of_namesScene {a : Text} {n : Fin 8} (h : namesScene a n) :
    ∃ k, number? a = some k ∧ sceneOperand k = .ok n := by
  obtain ⟨k, hk, hscene⟩ := Option.bind_eq_some_iff.mp h
  exact ⟨k, hk, by simp [sceneOperand, hscene]⟩

/-! ### The house lights' commands -/

@[simp] theorem circuitOperand_fCircuit (k : CircuitId) : circuitOperand? (fCircuit k) = some (some k) := by
  cases k <;> decide

@[simp] theorem circuitOperand_all : circuitOperand? (txt "ALL") = some none := by decide

/-- Settles O49: each command's operands are read, and its claims placed or released. -/
theorem lightCommandsComplete : Obligations.LightCommandsComplete := by
  intro sc a b w1 w2 w3 n v1 v2 v3 s hp hsc hn hv1 hv2 hv3 place three release done l
  obtain ⟨i, hi, hscreen⟩ := screenOperand_of_namesScreen hsc
  obtain ⟨j, hj, hscene⟩ := sceneOperand_of_namesScene hn
  have hscreen' : ∀ c, screenOperand (s.taken c) i = .ok sc := fun c => hscreen
  refine ⟨?_, ?_, fun k => ?_, ?_, fun k => ?_, ?_⟩
  · change execScenedef _ s = _
    simp [execScenedef, State.takeCommand_of_powered hp, parseScenedef, hi, hj, hv1, hv2, hv3, hscreen', hscene]
    rfl
  · change execScene _ s = _
    simp [execScene, State.takeCommand_of_powered hp, parseScene, hi, hj, hv1, hscreen', hscene]
    rfl
  · change execLevel _ s = _
    simp [execLevel, State.takeCommand_of_powered hp, parseLevel, hi, hv1, hv2, hscreen']
    rfl
  · change execLevel _ s = _
    simp [execLevel, State.takeCommand_of_powered hp, parseLevel, hi, hv1, hv2, hscreen']
    rfl
  · change execRelease _ s = _
    simp [execRelease, State.takeCommand_of_powered hp, parseRelease, hi, hscreen']
    rfl
  · change execRelease _ s = _
    simp [execRelease, State.takeCommand_of_powered hp, parseRelease, hi, hscreen']
    rfl

/-! ### SOUND and SCREENSET -/

theorem keyValue_margin (v : Text) : keyValue? (txt "MARGIN=" ++ v) = some (txt "MARGIN", v) :=
  keyValue_append (k := txt "MARGIN") (by decide) v

theorem keyValue_ovl (v : Text) : keyValue? (txt "OVL=" ++ v) = some (txt "OVL", v) :=
  keyValue_append (k := txt "OVL") (by decide) v

@[simp] theorem ScreenSettings.take_margin (x : ScreenSettings) (ms : Nat) :
    x.take (txt "MARGIN=" ++ fNum ms) = (once x.margin ms).map fun v => { x with margin := v } := by
  simp only [ScreenSettings.take, keyValue_margin, formOf_some, ok_bind, number_fNum, if_true]
  cases x.margin <;> rfl

@[simp] theorem ScreenSettings.take_ovl (x : ScreenSettings) (n : Nat) :
    x.take (txt "OVL=" ++ fNum n) = (once x.ovl n).map fun v => { x with ovl := v } := by
  have hkey : ¬ txt "OVL" = txt "MARGIN" := by decide
  simp only [ScreenSettings.take, keyValue_ovl, formOf_some, ok_bind, number_fNum, if_neg hkey, if_true]
  cases x.ovl <;> rfl

section

variable {s : State} {a : Text} {sc : ScreenId} (hp : s.powered = true) (hsc : s.namesScreen a sc)
include hp hsc

/-- SCREENSET writes the settings its operands spell, where they are within their limits. -/
theorem exec_screenset_ok {w : Text} {ws : List Text} {x : ScreenSettings}
    (htaken : ScreenSettings.takeAll ⟨none, none⟩ (w :: ws) = .ok x)
    (hrange : (within 0 1000 x.margin && within 0 12 x.ovl) = true) :
    exec (.screenset (a :: w :: ws)) s = .next (((s.taken (.screenset (a :: w :: ws))).modScreen sc
      (ScreenRec.withSettings x)).answer (.ok [])) := by
  obtain ⟨i, hi, hscreen⟩ := screenOperand_of_namesScreen hsc
  have hscreen' : ∀ c, screenOperand (s.taken c) i = .ok sc := fun c => hscreen
  change execScreenset _ s = _
  simp [execScreenset, State.takeCommand_of_powered hp, parseScreenset, hi, hscreen', htaken, hrange]

theorem exec_screenset_range {w : Text} {ws : List Text} {x : ScreenSettings}
    (htaken : ScreenSettings.takeAll ⟨none, none⟩ (w :: ws) = .ok x)
    (hrange : (within 0 1000 x.margin && within 0 12 x.ovl) = false) :
    exec (.screenset (a :: w :: ws)) s = .next (s.answered (.screenset (a :: w :: ws)) (.no .range)) := by
  obtain ⟨i, hi, hscreen⟩ := screenOperand_of_namesScreen hsc
  refine exec_refused hp (reasonOf_eq_some.2 ?_)
  simp [parseScreenset, hi, hscreen, htaken, hrange]

theorem exec_screenset_form {ws : List Text}
    (htaken : ws = [] ∨ ScreenSettings.takeAll ⟨none, none⟩ ws = .error .form) :
    exec (.screenset (a :: ws)) s = .next (s.answered (.screenset (a :: ws)) (.no .form)) := by
  obtain ⟨i, hi, -⟩ := screenOperand_of_namesScreen hsc
  refine exec_refused hp (reasonOf_eq_some.2 ?_)
  cases ws with
  | nil => rfl
  | cons w ws =>
    have herror : ScreenSettings.takeAll ⟨none, none⟩ (w :: ws) = .error .form := htaken.resolve_left (by simp)
    simp [parseScreenset, hi, herror]

end

/-- Settles O43: SOUND's level, then SCREENSET by the operands it carries. -/
theorem screenSettingsAreWritten : Obligations.ScreenSettingsAreWritten := by
  intro sc a s hp hsc
  refine ⟨fun w k hk => ?_, ?_⟩
  · obtain ⟨i, hi, hscreen⟩ := screenOperand_of_namesScreen hsc
    have hscreen' : ∀ c, screenOperand (s.taken c) i = .ok sc := fun c => hscreen
    have hlimit : min Config.maxSound k = if 15 < k then 15 else k := by simp only [Config.maxSound]; split <;> omega
    change execSound _ s = _
    simp [execSound, State.takeCommand_of_powered hp, parseSound, hi, hk, hscreen', hlimit]
  intro ms n set refused margin ovl overlapped
  have hmargin : ScreenSettings.takeAll ⟨none, none⟩ [margin] = .ok ⟨some ms, none⟩ := by
    simp [ScreenSettings.takeAll, margin, once, Except.map]
  have hovl : ScreenSettings.takeAll ⟨none, none⟩ [ovl] = .ok ⟨none, some n⟩ := by
    simp [ScreenSettings.takeAll, ovl, once, Except.map]
  have hboth : ScreenSettings.takeAll ⟨none, none⟩ [margin, ovl] = .ok ⟨some ms, some n⟩ := by
    simp [ScreenSettings.takeAll, margin, ovl, once, Except.map]
  have hboth' : ScreenSettings.takeAll ⟨none, none⟩ [ovl, margin] = .ok ⟨some ms, some n⟩ := by
    simp [ScreenSettings.takeAll, margin, ovl, once, Except.map]
  have hmargins : ScreenSettings.takeAll ⟨none, none⟩ [margin, margin] = .error .form := by
    simp [ScreenSettings.takeAll, margin, once, Except.map]
  have hovls : ScreenSettings.takeAll ⟨none, none⟩ [ovl, ovl] = .error .form := by
    simp [ScreenSettings.takeAll, ovl, once, Except.map]
  refine ⟨fun hms => ?_, fun hn => ?_, fun hms hn => ⟨?_, ?_⟩, fun hms => ?_, fun hn => ?_, ?_, ?_, ?_⟩
  · exact exec_screenset_ok hp hsc hmargin (by simp [within, hms])
  · exact exec_screenset_ok hp hsc hovl (by simp [within, hn])
  · exact exec_screenset_ok hp hsc hboth (by simp [within, hms, hn])
  · exact exec_screenset_ok hp hsc hboth' (by simp [within, hms, hn])
  · exact exec_screenset_range hp hsc hmargin (by simp [within, hms])
  · exact exec_screenset_range hp hsc hovl (by simp [within, hn])
  · exact exec_screenset_form hp hsc (.inl rfl)
  · exact exec_screenset_form hp hsc (.inr hmargins)
  · exact exec_screenset_form hp hsc (.inr hovls)

end Sys2Proof.Machine

/-! The fire unit's settings: INCLEAR and FIRESET. -/

namespace Sys2Proof.Machine

open Sys2Proof Host

/-! ### INCLEAR -/

theorem FireUnit.anyLatch_iff (u : FireUnit) :
    u.anyLatch = true ↔ u.boothLatch.isSome = true ∨ ∃ j, (u.machineLatch.get j).isSome = true := by
  unfold FireUnit.anyLatch
  constructor
  · intro h
    simp only [Bool.or_eq_true] at h
    obtain (((h | h) | h) | h) | h := h
    · exact .inl h
    · exact .inr ⟨.m1, h⟩
    · exact .inr ⟨.m2, h⟩
    · exact .inr ⟨.m3, h⟩
    · exact .inr ⟨.m4, h⟩
  · rintro (h | ⟨j, h⟩)
    · simp [h]
    · cases j <;> simp only [Quad.get] at h <;> simp [h]

/-! ### The operands of FIRESET -/

theorem keyValue_trip (v : Text) : keyValue? (txt "TRIP=" ++ v) = some (txt "TRIP", v) :=
  keyValue_append (k := txt "TRIP") (by decide) v

theorem keyValue_reset (v : Text) : keyValue? (txt "RESET=" ++ v) = some (txt "RESET", v) :=
  keyValue_append (k := txt "RESET") (by decide) v

/-- The threshold of a keyword. -/
def Thresholds.named (k : Text) (x : Thresholds) : Option Nat := if k = txt "TRIP" then x.trip else x.reset

/-- A word is taken where it spells a keyword with a number, the keyword not given before. -/
theorem Thresholds.take_spelled {x : Thresholds} {w k v : Text} {n : Nat} (hw : keyValue? w = some (k, v))
    (hn : number? v = some n) : x.take w =
      if k = txt "TRIP" then (once x.trip n).map fun t => { x with trip := t }
      else if k = txt "RESET" then (once x.reset n).map fun t => { x with reset := t }
      else .error .form := by
  simp only [Thresholds.take, hw, hn, formOf_some, ok_bind]
  split_ifs
  · cases x.trip <;> rfl
  · cases x.reset <;> rfl
  · rfl

/-- A word that spells no keyword with a number is malformed. -/
theorem Thresholds.take_unspelled {x : Thresholds} {w : Text}
    (h : ∀ k v n, keyValue? w = some (k, v) → number? v = some n → k ≠ txt "TRIP" ∧ k ≠ txt "RESET") :
    x.take w = .error .form := by
  cases hw : keyValue? w with
  | none => simp [Thresholds.take, hw]
  | some kv =>
    obtain ⟨k, v⟩ := kv
    cases hn : number? v with
    | none => simp [Thresholds.take, hw, hn]
    | some n =>
      obtain ⟨htrip, hreset⟩ := h k v n hw hn
      rw [Thresholds.take_spelled hw hn, if_neg htrip, if_neg hreset]

/-- A word that is taken gives its keyword, until then without one, a value; every other value stands. -/
theorem Thresholds.take_ok {x y : Thresholds} {w : Text} (h : x.take w = .ok y) :
    ∃ k v n, keyValue? w = some (k, v) ∧ number? v = some n ∧ (k = txt "TRIP" ∨ k = txt "RESET")
      ∧ x.named k = none ∧ y.named k = some n ∧ ∀ k', x.named k' ≠ none → y.named k' ≠ none := by
  have hkeys : ¬ txt "RESET" = txt "TRIP" := by decide
  by_contra hnone
  by_cases hspelled : ∃ k v n, keyValue? w = some (k, v) ∧ number? v = some n ∧ (k = txt "TRIP" ∨ k = txt "RESET")
  · obtain ⟨k, v, n, hw, hn, hk⟩ := hspelled
    refine hnone ⟨k, v, n, hw, hn, hk, ?_⟩
    rw [Thresholds.take_spelled hw hn] at h
    obtain rfl | rfl := hk
    · cases htrip : x.trip with
      | none =>
        obtain rfl : { x with trip := some n } = y := by simpa [htrip, once, Except.map] using h
        exact ⟨by simp [Thresholds.named, htrip], by simp [Thresholds.named], fun k' hk' => by
          unfold Thresholds.named at hk' ⊢
          split_ifs at hk' ⊢ <;> simp_all⟩
      | some t => simp [htrip, once, Except.map] at h
    · rw [if_neg hkeys] at h
      cases hreset : x.reset with
      | none =>
        obtain rfl : { x with reset := some n } = y := by simpa [hreset, once, Except.map] using h
        exact ⟨by simp [Thresholds.named, hkeys, hreset], by simp [Thresholds.named, hkeys], fun k' hk' => by
          unfold Thresholds.named at hk' ⊢
          split_ifs at hk' ⊢ <;> simp_all⟩
      | some t => simp [hreset, once, Except.map] at h
  · rw [Thresholds.take_unspelled fun k v n hw hn => not_or.1 fun hk => hspelled ⟨k, v, n, hw, hn, hk⟩] at h
    exact absurd h (by simp)

/-- Every operand that is not taken is malformed. -/
theorem Thresholds.take_error {x : Thresholds} {w : Text} {r : Reason} (h : x.take w = .error r) : r = .form := by
  by_cases hspelled : ∃ k v n, keyValue? w = some (k, v) ∧ number? v = some n ∧ (k = txt "TRIP" ∨ k = txt "RESET")
  · obtain ⟨k, v, n, hw, hn, hk⟩ := hspelled
    rw [Thresholds.take_spelled hw hn] at h
    split_ifs at h
    · cases htrip : x.trip <;> simp [htrip, once, Except.map] at h
      exact h.symm
    · cases hreset : x.reset <;> simp [hreset, once, Except.map] at h
      exact h.symm
    · exact (Except.error.inj h).symm
  · rw [Thresholds.take_unspelled fun k v n hw hn => not_or.1 fun hk => hspelled ⟨k, v, n, hw, hn, hk⟩] at h
    exact (Except.error.inj h).symm

theorem Thresholds.takeAll_error {x : Thresholds} {ws : List Text} {r : Reason} (h : x.takeAll ws = .error r) :
    r = .form := by
  induction ws generalizing x with
  | nil => exact absurd h (by simp [Thresholds.takeAll])
  | cons w ws ih =>
    cases hw : x.take w with
    | error e =>
      rw [Thresholds.takeAll, hw, error_bind] at h
      exact (Except.error.inj h).symm.trans (Thresholds.take_error hw)
    | ok y =>
      rw [Thresholds.takeAll, hw, ok_bind] at h
      exact ih h

theorem Thresholds.takeAll_spells {x y : Thresholds} {ws : List Text} (h : x.takeAll ws = .ok y) {w : Text}
    (hw : w ∈ ws) : ∃ k v n, keyValue? w = some (k, v) ∧ number? v = some n ∧ (k = txt "TRIP" ∨ k = txt "RESET") := by
  induction ws generalizing x with
  | nil => exact absurd hw (by simp)
  | cons w' ws ih =>
    obtain ⟨z, hz, hrest⟩ := Except.bind_ok h
    obtain rfl | hw := List.mem_cons.1 hw
    · obtain ⟨k, v, n, hkv, hn, hk, -⟩ := Thresholds.take_ok hz
      exact ⟨k, v, n, hkv, hn, hk⟩
    · exact ih hrest hw

/-- A keyword given is not given again. -/
theorem Thresholds.takeAll_given {x y : Thresholds} {ws : List Text} (h : x.takeAll ws = .ok y) {k : Text}
    (hk : x.named k ≠ none) {w v : Text} (hw : w ∈ ws) : keyValue? w ≠ some (k, v) := by
  induction ws generalizing x with
  | nil => exact absurd hw (by simp)
  | cons w' ws ih =>
    obtain ⟨z, hz, hrest⟩ := Except.bind_ok h
    obtain ⟨k', v', n, hkv, -, -, hnot, -, hkept⟩ := Thresholds.take_ok hz
    obtain rfl | hw := List.mem_cons.1 hw
    · intro hsame
      rw [hkv] at hsame
      obtain ⟨rfl, -⟩ := Prod.mk.inj (Option.some.inj hsame)
      exact hk hnot
    · exact ih hrest (hkept k hk) hw

theorem Thresholds.takeAll_once {x y : Thresholds} {ws : List Text} (h : x.takeAll ws = .ok y) {k w w' v v' : Text}
    (hw : keyValue? w = some (k, v)) (hw' : keyValue? w' = some (k, v')) : ¬ [w, w'].Sublist ws := by
  induction ws generalizing x with
  | nil => exact fun hsub => absurd hsub (by simp)
  | cons u ws ih =>
    obtain ⟨z, hz, hrest⟩ := Except.bind_ok h
    intro hsub
    cases hsub with
    | cons _ hsub => exact ih hrest hsub
    | cons_cons _ hsub =>
      obtain ⟨k', _, n, hkv, -, -, -, hgiven, -⟩ := Thresholds.take_ok hz
      rw [hw] at hkv
      obtain ⟨rfl, -⟩ := Prod.mk.inj (Option.some.inj hkv)
      exact Thresholds.takeAll_given hrest (by simp [hgiven]) (hsub.subset (List.mem_singleton.2 rfl)) hw'

/-! ### The command -/

section

variable {s : State} {a : Text} {m : MachineId} (hp : s.powered = true) (hm : s.namesMachine a m)
include hp hm

theorem exec_fireset_ok {w : Text} {ws : List Text} {x : Thresholds}
    (htaken : Thresholds.takeAll ⟨none, none⟩ (w :: ws) = .ok x)
    (hrange : (within 1 4095 x.trip && within 0 4094 x.reset) = true)
    (hbelow : ((s.fire.gates.get m).withThresholds x).resetThreshold
      < ((s.fire.gates.get m).withThresholds x).tripThreshold) :
    exec (.fireset (a :: w :: ws)) s = .next (((s.taken (.fireset (a :: w :: ws))).modFire fun u =>
      { u with gates := u.gates.set m ((s.fire.gates.get m).withThresholds x) }).answer (.ok [])) := by
  obtain ⟨i, hi, hmachine⟩ := machineOperand_of_namesMachine hm
  have hmachine' : ∀ c, machineOperand (s.taken c) i = .ok m := fun c => hmachine
  have hfire : ∀ c, (s.taken c).fire = s.fire := fun c => rfl
  change execFireset _ s = _
  simp [execFireset, State.takeCommand_of_powered hp, parseFireset, hi, hmachine', htaken, hrange, hfire, hbelow]
  rfl

theorem exec_fireset_range {w : Text} {ws : List Text} {x : Thresholds}
    (htaken : Thresholds.takeAll ⟨none, none⟩ (w :: ws) = .ok x)
    (hout : (within 1 4095 x.trip && within 0 4094 x.reset) = true →
      ((s.fire.gates.get m).withThresholds x).tripThreshold
        ≤ ((s.fire.gates.get m).withThresholds x).resetThreshold) :
    exec (.fireset (a :: w :: ws)) s = .next (s.answered (.fireset (a :: w :: ws)) (.no .range)) := by
  obtain ⟨i, hi, hmachine⟩ := machineOperand_of_namesMachine hm
  refine exec_refused hp (reasonOf_eq_some.2 ?_)
  by_cases hrange : (within 1 4095 x.trip && within 0 4094 x.reset) = true
  · simp [parseFireset, hi, hmachine, htaken, hrange, Nat.not_lt.2 (hout hrange)]
  · simp [parseFireset, hi, hmachine, htaken, hrange]

theorem exec_fireset_form {ws : List Text} (hnot : ws = [] ∨ ∀ x, Thresholds.takeAll ⟨none, none⟩ ws ≠ .ok x) :
    exec (.fireset (a :: ws)) s = .next (s.answered (.fireset (a :: ws)) (.no .form)) := by
  obtain ⟨i, hi, hmachine⟩ := machineOperand_of_namesMachine hm
  refine exec_refused hp (reasonOf_eq_some.2 ?_)
  cases ws with
  | nil => simp [parseFireset, hi, hmachine]
  | cons w ws =>
    cases htaken : Thresholds.takeAll ⟨none, none⟩ (w :: ws) with
    | ok x => exact absurd htaken (hnot.resolve_left (by simp) x)
    | error r =>
      obtain rfl := Thresholds.takeAll_error htaken
      simp [parseFireset, hi, hmachine, htaken]

end

/-- A machine operand that is no number, or the number of no machine fitted, is refused first (R165). -/
theorem exec_fireset_machine {s : State} (hp : s.powered = true) (b : Text) (ws : List Text) :
    (number? b = none → exec (.fireset (b :: ws)) s = .next (s.answered (.fireset (b :: ws)) (.no .form)))
      ∧ ∀ n, number? b = some n → (n < 1 ∨ 4 < n ∨ (3 ≤ n ∧ s.straps.screen2Fitted = false)) →
        exec (.fireset (b :: ws)) s = .next (s.answered (.fireset (b :: ws)) (.no .range)) := by
  refine ⟨fun hb => exec_refused hp (reasonOf_eq_some.2 ?_), fun n hb hn => exec_refused hp (reasonOf_eq_some.2 ?_)⟩
  · simp [parseFireset, hb]
  · simp [parseFireset, hb, machineOperand_range hn]

theorem Thresholds.takeAll_trip (x : Nat) :
    Thresholds.takeAll ⟨none, none⟩ [txt "TRIP=" ++ fNum x] = .ok ⟨some x, none⟩ := by
  rw [Thresholds.takeAll, Thresholds.take_spelled (keyValue_trip _) (number_fNum x)]
  rfl

theorem Thresholds.takeAll_reset (y : Nat) :
    Thresholds.takeAll ⟨none, none⟩ [txt "RESET=" ++ fNum y] = .ok ⟨none, some y⟩ := by
  rw [Thresholds.takeAll, Thresholds.take_spelled (keyValue_reset _) (number_fNum y)]
  rfl

theorem Thresholds.takeAll_both (x y : Nat) :
    Thresholds.takeAll ⟨none, none⟩ [txt "TRIP=" ++ fNum x, txt "RESET=" ++ fNum y] = .ok ⟨some x, some y⟩
      ∧ Thresholds.takeAll ⟨none, none⟩ [txt "RESET=" ++ fNum y, txt "TRIP=" ++ fNum x] = .ok ⟨some x, some y⟩ := by
  simp only [Thresholds.takeAll, Thresholds.take_spelled (keyValue_reset _) (number_fNum y),
    Thresholds.take_spelled (keyValue_trip _) (number_fNum x)]
  exact ⟨rfl, rfl⟩

/-- Settles O55: INCLEAR by the latches, then FIRESET by its operands. -/
theorem fireSettingsAreWritten : Obligations.FireSettingsAreWritten := by
  intro m a s hp hm
  refine ⟨fun ⟨hbooth, hmachines⟩ => ?_, fun hlatch => ?_, fun w hw => ?_, ?_⟩
  · have hclear : s.fire.anyLatch = false := by
      rw [Bool.eq_false_iff, Ne, FireUnit.anyLatch_iff]
      rintro (h | ⟨j, h⟩)
      · simp [hbooth] at h
      · simp [hmachines j] at h
    have hparse : parseInclear (s.taken (.inclear [])) [] = .ok () := by
      change need (!s.fire.anyLatch) .trip = _
      rw [hclear]
      rfl
    change execInclear _ s = _
    simp only [execInclear, State.takeCommand_of_powered hp, hparse]
  · refine exec_refused hp (reasonOf_eq_some.2 ?_)
    change need (!s.fire.anyLatch) .trip = _
    rw [s.fire.anyLatch_iff.2 hlatch]
    rfl
  · refine exec_refused hp (reasonOf_eq_some.2 ?_)
    cases w with
    | nil => exact absurd rfl hw
    | cons _ _ => rfl
  intro x y trip reset g set no
  have htrip := Thresholds.takeAll_trip x
  have hreset := Thresholds.takeAll_reset y
  obtain ⟨hboth, hboth'⟩ := Thresholds.takeAll_both x y
  refine ⟨fun hlow hhigh hbelow => ?_, fun hhigh hbelow => ?_, fun hhigh hbelow => ⟨?_, ?_⟩, fun hout => ⟨?_, ?_⟩,
    fun hout => ?_, fun hout => ?_, ?_, fun ws w hw hword => ?_, fun ws k v v' hk hsub => ?_, ?_, exec_fireset_machine hp⟩
  · exact exec_fireset_ok hp hm htrip (by simp [within, hlow, hhigh]) (by simpa [GateRec.withThresholds] using hbelow)
  · exact exec_fireset_ok hp hm hreset (by simp [within, hhigh]) (by simpa [GateRec.withThresholds] using hbelow)
  · exact exec_fireset_ok hp hm hboth (by simp [within]; omega) (by simpa [GateRec.withThresholds] using hbelow)
  · exact exec_fireset_ok hp hm hboth' (by simp [within]; omega) (by simpa [GateRec.withThresholds] using hbelow)
  · refine exec_fireset_range hp hm hboth fun hrange => ?_
    simp only [within, Bool.and_eq_true, decide_eq_true_eq] at hrange
    change x ≤ y
    omega
  · refine exec_fireset_range hp hm hboth' fun hrange => ?_
    simp only [within, Bool.and_eq_true, decide_eq_true_eq] at hrange
    change x ≤ y
    omega
  · refine exec_fireset_range hp hm htrip fun hrange => ?_
    simp only [within, Bool.and_eq_true, decide_eq_true_eq] at hrange
    change x ≤ g.resetThreshold
    omega
  · refine exec_fireset_range hp hm hreset fun hrange => ?_
    simp only [within, Bool.and_eq_true, decide_eq_true_eq] at hrange
    change g.tripThreshold ≤ y
    omega
  · exact exec_fireset_form hp hm (.inl rfl)
  · refine exec_fireset_form hp hm (.inr fun x htaken => ?_)
    obtain ⟨k, v, n, hkv, hn, hk⟩ := Thresholds.takeAll_spells htaken hw
    obtain ⟨hnotTrip, hnotReset⟩ := hword k v n hkv hn
    exact hk.elim hnotTrip hnotReset
  · have hplain : '=' ∉ k := by
      obtain rfl | rfl := hk <;> decide
    exact exec_fireset_form hp hm (.inr fun x htaken =>
      Thresholds.takeAll_once htaken (keyValue_append hplain v) (keyValue_append hplain v') hsub)
  · exact exec_refused hp rfl

end Sys2Proof.Machine

/-! The shutters: their switches and the confirm measure. -/

namespace Sys2Proof.Machine

open Sys2Proof Host

/-- Two writes of one shutter are one. -/
theorem State.modShutter_modShutter (m : MachineId) (f g : ShutterRec → ShutterRec) (s : State) :
    (s.modShutter m f).modShutter m g = s.modShutter m fun x => g (f x) := by
  simp [State.modShutter, State.modFire]

theorem FireUnit.confirm_eq (m : MachineId) (o : ShutterOutcome) (u : FireUnit) :
    u.confirm m o = { u with log := u.log.map fun r =>
      { r with outcomes := r.outcomes.map fun e => if e = (m, .pending) then (m, o) else e } } := by
  have hrecord : IncidentRec.confirm m o = fun r =>
      { r with outcomes := r.outcomes.map fun e => if e = (m, .pending) then (m, o) else e } := by
    funext r
    simp only [IncidentRec.confirm, Prod.ext_iff]
  rw [FireUnit.confirm, hrecord]

/-! ### The rows of R156's table -/

/-- The rows of the open switch. -/
theorem switchOutcome_open (st : ShutterState) (magnet made : Bool) :
    switchOutcome st magnet .openSwitch made =
      if magnet = true ∧ made = true ∧ (st = .closed ∨ st = .stuck) then .opens
      else if magnet = true ∧ made = false ∧ st = .opened then .sags else .none := by
  cases st <;> cases magnet <;> cases made <;> rfl

/-- The rows of the closed switch. -/
theorem switchOutcome_closed (st : ShutterState) (magnet made : Bool) :
    switchOutcome st magnet .closedSwitch made =
      if made = true ∧ st = .stuck then .frees
      else if made = true ∧ st = .dropping ∧ magnet = false then .confirms else .none := by
  cases st <;> cases magnet <;> cases made <;> rfl

theorem exec_shutterSwitchChange {s : State} (hp : s.powered = true) (m : MachineId) (sw : ShutterSwitch)
    (flowing : Bool) : exec (.shutterSwitchChange m sw flowing) s
      = .next (s.switchChange m sw (s.sense m (shutterStraps s.straps sw) flowing)) := by
  change execShutterSwitchChange m sw flowing s = _
  simp [execShutterSwitchChange, State.whenPowered, hp]

theorem State.switchChange_same {m : MachineId} {sw : ShutterSwitch} {made : Bool} {s : State}
    (h : made = (s.fire.shutters.get m).switch sw) : s.switchChange m sw made = s := by
  simp [State.switchChange, h]

/-- A switch that changes is read, and then its row of the table is carried out. -/
theorem State.switchChange_changed {m : MachineId} {sw : ShutterSwitch} {made : Bool} {s : State}
    (h : made ≠ (s.fire.shutters.get m).switch sw) :
    s.switchChange m sw made =
      match switchOutcome (s.fire.shutters.get m).state (s.fire.shutters.get m).magnet sw made with
      | .none => s.modShutter m (ShutterRec.readSwitch sw made)
      | .opens => (s.modShutter m fun x => (x.readSwitch sw made).settle .opened).evaluate m
      | .sags => ((s.modShutter m fun x => (x.readSwitch sw made).settle .closed).report (.shutterSag m)).evaluate m
      | .confirms =>
        (s.modShutter m fun x => (x.readSwitch sw made).settle .closed).modFire (FireUnit.confirm m .closed)
      | .frees => s.modShutter m fun x => (x.readSwitch sw made).settle .closed := by
  simp only [State.switchChange, if_neg h.symm, State.modShutter_modShutter] <;> rfl

/-! ### The confirm measure -/

theorem exec_confirmMeasureExpiry {s : State} (hp : s.powered = true) (m : MachineId) :
    exec (.confirmMeasureExpiry m) s = .next (s.confirmExpires m) := by
  change execConfirmMeasureExpiry m s = _
  simp [execConfirmMeasureExpiry, State.whenPowered, hp]

theorem State.confirmExpires_idle {m : MachineId} {s : State}
    (h : (s.fire.shutters.get m).state ≠ .dropping ∨ (s.fire.shutters.get m).confirm = none) :
    s.confirmExpires m = s := by
  unfold State.confirmExpires
  dsimp only
  split
  next hstate hconfirm _ =>
    obtain hnot | hnone := h
    · exact absurd hstate hnot
    · exact absurd (hnone.symm.trans hconfirm) (by simp)
  next => rfl

theorem State.confirmExpires_stuck {m : MachineId} {s : State} {snap : MachineSnapshot}
    (hstate : (s.fire.shutters.get m).state = .dropping) (hconfirm : (s.fire.shutters.get m).confirm.isSome = true)
    (hsnap : (s.fire.shutters.get m).dropSnapshot = some snap) :
    s.confirmExpires m =
      (((s.modShutter m fun y => { y with state := .stuck, confirm := none }).modFire (FireUnit.confirm m .stuck)).modFire
        (FireUnit.record
          { sequence := s.fire.nextSequence, timeOfDay := s.plan.clock, cause := .shutterStuck, scope := .machine m,
            machines := [snap], lights := [], outcomes := [(m, .stuck)],
            related := (s.fire.shutters.get m).dropSequence })).report
        (.shutterStuck m s.fire.nextSequence (s.fire.shutters.get m).dropSequence) := by
  obtain ⟨t, ht⟩ := Option.isSome_iff_exists.mp hconfirm
  simp only [State.confirmExpires, hstate, ht, hsnap]

/-- Settles O52: by the row of the table that the switch's change meets, and by the measure. -/
theorem shuttersFollowTheirSwitches : Obligations.ShuttersFollowTheirSwitches := by
  intro m flowing s hp x put settled madeO madeC o c openSw closedSw
  have hopen : openSw = .next (s.switchChange m .openSwitch madeO) := exec_shutterSwitchChange hp m .openSwitch flowing
  have hclosed : closedSw = .next (s.switchChange m .closedSwitch madeC) :=
    exec_shutterSwitchChange hp m .closedSwitch flowing
  have hchangedO := fun h : madeO ≠ x.openMade => State.switchChange_changed (s := s) (sw := .openSwitch) h
  have hchangedC := fun h : madeC ≠ x.closedMade => State.switchChange_changed (s := s) (sw := .closedSwitch) h
  refine ⟨fun h => ?_, fun h => ?_, fun hmade hwas hmagnet hstate => ?_, fun hmade hwas hmagnet hstate => ?_,
    fun hmade hrow => ?_, fun hmade hwas hmagnet hstate => ?_, fun hmade hwas hstate => ?_, fun hmade hrow => ?_,
    ?_, fun h => ?_⟩
  · rw [hopen, State.switchChange_same h]
  · rw [hclosed, State.switchChange_same h]
  · rw [hopen, hchangedO (by simp [hmade, hwas]), switchOutcome_open, if_pos ⟨hmagnet, hmade, hstate⟩]
    rfl
  · rw [hopen, hchangedO (by simp [hmade, hwas]), switchOutcome_open, if_neg (by simp [hmade]),
      if_pos ⟨hmagnet, hmade, hstate⟩]
    rfl
  · rw [hopen, hchangedO hmade, switchOutcome_open, if_neg fun h => hrow ⟨h.1, .inl h.2⟩,
      if_neg fun h => hrow ⟨h.1, .inr h.2⟩]
    rfl
  · rw [hclosed, hchangedC (by simp [hmade, hwas]), switchOutcome_closed, if_neg (by rw [hstate]; simp),
      if_pos ⟨hmade, hstate, hmagnet⟩]
    simp only [State.modFire, FireUnit.confirm_eq]
    rfl
  · rw [hclosed, hchangedC (by simp [hmade, hwas]), switchOutcome_closed, if_pos ⟨hmade, hstate⟩]
    rfl
  · rw [hclosed, hchangedC hmade, switchOutcome_closed, if_neg fun h => hrow ⟨h.1, .inl h.2⟩,
      if_neg fun h => hrow ⟨h.1, .inr h.2⟩]
    rfl
  · intro snap hstate hconfirm hsnap n
    rw [exec_confirmMeasureExpiry hp, State.confirmExpires_stuck hstate hconfirm hsnap]
    simp only [State.modFire, State.modShutter, FireUnit.confirm_eq]
    rfl
  · rw [exec_confirmMeasureExpiry hp, State.confirmExpires_idle h]

end Sys2Proof.Machine

/-! What a start and its order can reach: one machine, the record and the lights of its screen, and the line. -/

namespace Sys2Proof.Machine

open Sys2Proof Host

/-! ### The reach of a start -/

/-- What the start orders, strike requests, scenes and ARMED postings of machine `m` leave: everything but that machine,
its decoder, lamp and last posting, the start flags and the state of its screen, that screen's lights, and the line. Of the
machine its reel and binding stand, and of its lamp the binding. -/
structure StartsOnly (m : MachineId) (s t : State) : Prop where
  rest : t = { s with machines := t.machines, decoders := t.decoders, lamps := t.lamps, plan := t.plan,
                      screens := t.screens, lights := t.lights, line := t.line }
  plan : t.plan = { s.plan with lastPosting := t.plan.lastPosting }
  posting : ∀ j, j ≠ m → t.plan.lastPosting.get j = s.plan.lastPosting.get j
  others : ∀ j, j ≠ m → t.machine j = s.machine j ∧ t.decoder j = s.decoder j ∧ t.lamp j = s.lamp j
  reel : (t.machine m).boundSlot = (s.machine m).boundSlot ∧ (t.machine m).rejected = (s.machine m).rejected
  bound : (t.lamp m).boundLength = (s.lamp m).boundLength
    ∧ (t.lamp m).shortfallReported = (s.lamp m).shortfallReported
  screens : ∀ z, z ≠ screenOf m → t.screen z = s.screen z
  screen : t.screen (screenOf m) = { s.screen (screenOf m) with
    state := (t.screen (screenOf m)).state, startGiven := (t.screen (screenOf m)).startGiven
    startPending := (t.screen (screenOf m)).startPending }
  lights : t.lights = { s.lights with circuits := t.lights.circuits }
  circuits : ∀ z, z ≠ screenOf m → ∀ c, t.circuit z c = s.circuit z c

namespace StartsOnly

variable {m : MachineId} {s t u : State}

theorem refl (m : MachineId) (s : State) : StartsOnly m s s :=
  ⟨rfl, rfl, fun _ _ => rfl, fun _ _ => ⟨rfl, rfl, rfl⟩, ⟨rfl, rfl⟩, ⟨rfl, rfl⟩, fun _ _ => rfl, rfl, rfl,
    fun _ _ _ => rfl⟩

theorem trans (h : StartsOnly m s t) (k : StartsOnly m t u) : StartsOnly m s u where
  rest := by
    have hk := k.rest
    rw [h.rest] at hk
    exact hk
  plan := by
    have hk := k.plan
    rw [h.plan] at hk
    exact hk
  posting j hj := (k.posting j hj).trans (h.posting j hj)
  others j hj := by
    obtain ⟨a, b, c⟩ := h.others j hj
    obtain ⟨d, e, f⟩ := k.others j hj
    exact ⟨d.trans a, e.trans b, f.trans c⟩
  reel := ⟨k.reel.1.trans h.reel.1, k.reel.2.trans h.reel.2⟩
  bound := ⟨k.bound.1.trans h.bound.1, k.bound.2.trans h.bound.2⟩
  screens z hz := (k.screens z hz).trans (h.screens z hz)
  screen := by
    have hk := k.screen
    rw [h.screen] at hk
    exact hk
  lights := by
    have hk := k.lights
    rw [h.lights] at hk
    exact hk
  circuits z hz c := (k.circuits z hz c).trans (h.circuits z hz c)

/-! ### Its steps -/

theorem machine (f : MachineRec → MachineRec) (hbound : (f (s.machine m)).boundSlot = (s.machine m).boundSlot)
    (hrejected : (f (s.machine m)).rejected = (s.machine m).rejected) : StartsOnly m s (s.modMachine m f) where
  rest := rfl
  plan := (PlanStore.noteMachine_only m _ s.plan).1
  posting := (PlanStore.noteMachine_only m _ s.plan).2
  others j hj := ⟨by rw [State.modMachine_machine, if_neg hj],
    by simp only [State.decoder, State.modMachine_decoders, Quad.get_set_ne _ _ hj], rfl⟩
  reel := by
    rw [State.modMachine_machine, if_pos rfl]
    exact ⟨hbound, hrejected⟩
  bound := ⟨rfl, rfl⟩
  screens _ _ := rfl
  screen := rfl
  lights := rfl
  circuits _ _ _ := rfl

theorem lampRecord (f : LampRec → LampRec) (hbound : (f (s.lamp m)).boundLength = (s.lamp m).boundLength)
    (hshort : (f (s.lamp m)).shortfallReported = (s.lamp m).shortfallReported) :
    StartsOnly m s { s with lamps := s.lamps.set m (f (s.lamp m)) } where
  rest := rfl
  plan := rfl
  posting _ _ := rfl
  others j hj := ⟨rfl, rfl, Quad.get_set_ne _ _ hj⟩
  reel := ⟨rfl, rfl⟩
  bound := by
    simp only [State.lamp, Quad.get_set_self]
    exact ⟨hbound, hshort⟩
  screens _ _ := rfl
  screen := rfl
  lights := rfl
  circuits _ _ _ := rfl

theorem lamp (f : LampRec → LampRec) (hbound : (f (s.lamp m)).boundLength = (s.lamp m).boundLength)
    (hshort : (f (s.lamp m)).shortfallReported = (s.lamp m).shortfallReported) : StartsOnly m s (s.modLamp m f) := by
  have hrecord := StartsOnly.lampRecord f hbound hshort
  obtain e | ⟨b, e⟩ := s.modLamp_split m f
  · rw [e]; exact hrecord
  · rw [e]
    exact hrecord.trans (machine _ rfl rfl)

theorem record (f : ScreenRec → ScreenRec) (hf : f (s.screen (screenOf m)) = { s.screen (screenOf m) with
      state := (f (s.screen (screenOf m))).state, startGiven := (f (s.screen (screenOf m))).startGiven
      startPending := (f (s.screen (screenOf m))).startPending }) :
    StartsOnly m s (s.modScreen (screenOf m) f) where
  rest := rfl
  plan := rfl
  posting _ _ := rfl
  others _ _ := ⟨rfl, rfl, rfl⟩
  reel := ⟨rfl, rfl⟩
  bound := ⟨rfl, rfl⟩
  screens z hz := by simp [hz]
  screen := by simpa using hf
  lights := rfl
  circuits _ _ _ := rfl

theorem report (r : Report) : StartsOnly m s (s.report r) :=
  ⟨rfl, rfl, fun _ _ => rfl, fun _ _ => ⟨rfl, rfl, rfl⟩, ⟨rfl, rfl⟩, ⟨rfl, rfl⟩, fun _ _ => rfl, rfl, rfl,
    fun _ _ _ => rfl⟩

theorem circuit (c : CircuitId) (f : Nat → Circuit → Circuit) : StartsOnly m s (s.modCircuit (screenOf m) c f) :=
  ⟨rfl, rfl, fun _ _ => rfl, fun _ _ => ⟨rfl, rfl, rfl⟩, ⟨rfl, rfl⟩, ⟨rfl, rfl⟩, fun _ _ => rfl, rfl, rfl,
    fun z hz k => by rw [State.modCircuit_circuit, if_neg fun h => hz h.1]⟩

theorem posting' (y : Bool) :
    StartsOnly m s (s.modPlan fun p => { p with lastPosting := p.lastPosting.set m y }) :=
  ⟨rfl, rfl, fun _ hj => Quad.get_set_ne _ _ hj, fun _ _ => ⟨rfl, rfl, rfl⟩, ⟨rfl, rfl⟩, ⟨rfl, rfl⟩, fun _ _ => rfl,
    rfl, rfl, fun _ _ _ => rfl⟩

theorem placeThree (r : Rank) (l : SceneLevels) (fade : Nat) : StartsOnly m s (s.placeThree (screenOf m) r l fade) :=
  ((circuit .house _).trans (circuit .aisle _)).trans (circuit .stage _)

theorem strikeRequest : StartsOnly m s (s.strikeRequest m) := by
  unfold State.strikeRequest
  split
  · exact lamp _ rfl rfl
  · exact refl m s

theorem breakMachine (cause : BreakCause) : StartsOnly m s (s.breakMachine m cause) := by
  refine (machine _ ?_ ?_).trans (report _) <;> (unfold MachineRec.enterBroken MachineRec.motorOff; split <;> rfl)

theorem loopCheck : StartsOnly m s (s.loopCheck m) := by
  unfold State.loopCheck
  split
  · exact (breakMachine .loop).trans (record _ rfl)
  · exact refl m s

theorem giveStart (cause : MotorCause) : StartsOnly m s (s.giveStart m cause) := by
  refine ((machine _ ?_ ?_).trans (record _ rfl)).trans (report _) <;>
    (unfold MachineRec.startOrder MachineRec.motorOn; split <;> [split; skip] <;> rfl)

theorem startSuccessor (cause : MotorCause) : StartsOnly m s (s.startSuccessor m cause) := by
  unfold State.startSuccessor
  refine .trans ?_ loopCheck
  split
  · exact ((giveStart cause).trans (record _ rfl)).trans strikeRequest
  · exact (giveStart cause).trans (record _ rfl)

theorem openingStep (hwait : s.waitedOn (screenOf m) = some m) : StartsOnly m s (s.openingStep (screenOf m)) := by
  simp only [State.openingStep, hwait]
  split
  · cases (s.lamp m).state with
    | dark => exact strikeRequest
    | burning =>
      refine .trans ?_ loopCheck
      split
      · exact (giveStart _).trans (placeThree _ _ _)
      · exact giveStart _
    | striking | fault | exhausted => exact refl m s
  · exact refl m s

theorem onArmed : StartsOnly m s (s.onArmed m) := by
  have hpending : StartsOnly m s
      (if (s.screen (screenOf m)).startPending then s.startSuccessor m .pending else s) := by
    split
    · exact startSuccessor _
    · exact refl m s
  unfold State.onArmed
  dsimp only
  split
  next hwait =>
    cases (s.screen (screenOf m)).state with
    | opening => exact openingStep hwait
    | showing | runup | swapDue | dark => exact hpending
    | idle | interval | halted => exact refl m s
  · exact refl m s

theorem onDisarmed : StartsOnly m s (s.onDisarmed m) := by
  unfold State.onDisarmed
  dsimp only
  split
  · exact record _ rfl
  · exact refl m s

theorem evaluate : StartsOnly m s (s.evaluate m) := by
  have hposted : ∀ yes, StartsOnly m s (s.posted m yes) := fun yes => (posting' yes).trans (machine _ rfl rfl)
  obtain ⟨e, -⟩ | ⟨-, e | e⟩ := s.evaluate_posted m
  · rw [e]
    exact refl m s
  · rw [e]
    exact (hposted _).trans onArmed
  · rw [e]
    exact (hposted _).trans onDisarmed

/-! ### What it leaves -/

theorem slot (h : StartsOnly m s t) (sc : ScreenId) (n : SlotIx) : t.slot sc n = s.slot sc n := by
  unfold State.slot
  rw [h.plan]

theorem sound (h : StartsOnly m s t) (z : ScreenId) : (t.screen z).sound = (s.screen z).sound := by
  by_cases hz : z = screenOf m
  · subst hz
    rw [h.screen]
  · rw [h.screens z hz]

theorem onDeck (h : StartsOnly m s t) (hstate : (t.screen (screenOf m)).state = (s.screen (screenOf m)).state)
    (sc : ScreenId) : t.onDeck sc = s.onDeck sc := by
  have hscreen : (t.screen sc).state = (s.screen sc).state ∧ (t.screen sc).current = (s.screen sc).current := by
    by_cases hz : sc = screenOf m
    · subst hz
      exact ⟨hstate, by rw [h.screen]⟩
    · rw [h.screens sc hz]
      exact ⟨rfl, rfl⟩
  simp only [State.onDeck, hscreen.1, hscreen.2, State.showableAbove, h.slot]

end StartsOnly

/-- An evaluation of a machine that is neither THREADED nor ARMED does nothing. -/
theorem State.evaluate_unjudged {m : MachineId} {s : State} (h : (s.machine m).state.judged = false) :
    s.evaluate m = s := by
  simp [State.evaluate, h]

end Sys2Proof.Machine

/-! A start order outside OPENING, in full. -/

namespace Sys2Proof.Machine

open Sys2Proof Host

/-! ### A strike request -/

/-- The lamp after a strike request of the controller: a DARK lamp with carbon strikes where FIRE is not held (R64). -/
def LampRec.asked (fireHeld : Bool) (l : LampRec) : LampRec :=
  if l.state = .dark ∧ l.remaining ≠ 0 ∧ fireHeld = false then l.beginStrike else l

theorem strikeDecline_none_iff (fireHeld : Bool) (l : LampRec) :
    strikeDecline fireHeld l = none ↔ l.state = .dark ∧ l.remaining ≠ 0 ∧ fireHeld = false := by
  unfold strikeDecline
  cases fireHeld <;> by_cases hdark : l.state = .dark <;> by_cases hcarbon : l.remaining = 0 <;> simp [hdark, hcarbon]

/-- A strike request is a change of the lamp's record alone: no arc burns before it or after it. -/
theorem State.strikeRequest_eq (m : MachineId) (s : State) :
    s.strikeRequest m = { s with lamps := s.lamps.set m ((s.lamp m).asked (s.machine m).holds.fire) } := by
  by_cases htaken : strikeDecline (s.machine m).holds.fire (s.lamp m) = none
  · have hasked := (strikeDecline_none_iff _ _).1 htaken
    have hdark := hasked.1
    have hstill : ((s.lamp m).state == .burning) = ((s.lamp m).beginStrike.state == .burning) := by rw [hdark]; rfl
    simp only [State.strikeRequest, htaken, LampRec.asked, if_pos hasked, State.modLamp, if_pos hstill]
  · have hnot := mt (strikeDecline_none_iff _ _).2 htaken
    have hsame : s.lamps.set m (s.lamp m) = s.lamps := by simp [State.lamp]
    unfold State.strikeRequest
    split
    next hnone => exact absurd hnone htaken
    next => rw [LampRec.asked, if_neg hnot, hsame]

/-! ### The start order of an ARMED machine -/

/-- The record of an ARMED machine that takes its start order at time `t` (R2, R5). -/
def MachineRec.startedAt (t : Nat) (r : MachineRec) : MachineRec := (r.startOrder t).settleDouser

theorem MachineRec.startedAt_fields {t : Nat} {r : MachineRec} (h : r.state = .armed) :
    (r.startedAt t).state = .starting ∧ (r.startedAt t).motor = true ∧ (r.startedAt t).holds.fire = r.holds.fire
      ∧ (r.startedAt t).loopSwitchClosed = r.loopSwitchClosed ∧ (r.startedAt t).frameCount = r.frameCount := by
  unfold MachineRec.startedAt MachineRec.startOrder MachineRec.motorOn
  rw [if_pos h]
  cases hmotor : r.motor <;> simp [hmotor, HoldSet.put, MachineRec.clearRing]

theorem MachineRec.startedAt_of_off {t : Nat} {r : MachineRec} (h : r.state = .armed) (hmotor : r.motor = false) :
    r.startedAt t = { r with
      state := .starting, motor := true, speed := .accel, holds := { r.holds with speed := true }
      motorOnTime := t, framesSinceOn := 0, atSpeedReached := false, ring := [], pulseRef := false
      periodTimer := none, average := none, cfps := none, inBandRun := 0, outBandRun := 0
      noPulseTimer := none, accelTimer := some 0, startMeasure := some 0, pulseMeasure := none
      contactorMeasure := if r.contactorClosed then none else some 0, douser := .closed } := by
  unfold MachineRec.startedAt MachineRec.startOrder MachineRec.motorOn
  rw [if_pos h]
  simp [hmotor, HoldSet.put, MachineRec.clearRing, MachineRec.settleDouser]

/-- The start order, the flags and state of the screen, *MOTOR and the strike, before the loop switch is looked at. -/
def State.startOrdered (m : MachineId) (cause : MotorCause) (s : State) : State :=
  let s1 := (s.giveStart m cause).modScreen (screenOf m) fun x =>
    { x with state := if x.state = .showing then (if x.point.isSome then .swapDue else .runup) else x.state }
  if (s1.lamp m).state = .dark then s1.strikeRequest m else s1

theorem State.startSuccessor_eq (m : MachineId) (cause : MotorCause) (s : State) :
    s.startSuccessor m cause = (s.startOrdered m cause).loopCheck m := rfl

/-- The screen's record once the start is given. -/
def ScreenRec.startGivenNow (x : ScreenRec) : ScreenRec :=
  { x with startGiven := true, startPending := false
           state := if x.state = .showing then (if x.point.isSome then .swapDue else .runup) else x.state }

/-- The start order as one change of the state. -/
theorem State.startOrdered_eq (m : MachineId) (cause : MotorCause) (s : State) :
    s.startOrdered m cause = { s with
      machines := s.machines.set m ((s.machine m).startedAt s.timebase)
      decoders := s.decoders.set m ((s.decoder m).follow (s.machine m) ((s.machine m).startedAt s.timebase))
      lamps := s.lamps.set m ((s.lamp m).asked ((s.machine m).startedAt s.timebase).holds.fire)
      plan := s.plan.noteMachine m ((s.machine m).startedAt s.timebase).state
      screens := s.screens.set (screenOf m) (s.screen (screenOf m)).startGivenNow
      line := s.line.report (.motor (screenOf m) m (s.waitedSlot (screenOf m)) cause) } := by
  unfold State.startOrdered
  have hasked : ∀ u : State, (if (u.lamp m).state = .dark then u.strikeRequest m else u)
      = { u with lamps := u.lamps.set m ((u.lamp m).asked (u.machine m).holds.fire) } := by
    intro u
    rw [← State.strikeRequest_eq]
    split
    · rfl
    next hdark =>
      have hdeclined : (u.lamp m).asked (u.machine m).holds.fire = u.lamp m := if_neg fun h => hdark h.1
      rw [State.strikeRequest_eq, hdeclined]
      simp [State.lamp]
  rw [hasked]
  simp only [State.giveStart, State.modMachine, State.modScreen, State.report, State.modLine, State.lamp, State.machine,
    State.screen, Quad.get_set_self, Pair.set_set, Pair.get_set_self]
  rfl

/-! ### The loop switch at a start -/

theorem State.loopCheck_closed {m : MachineId} {s : State} (h : (s.machine m).loopSwitchClosed = true) :
    s.loopCheck m = s := by
  simp [State.loopCheck, h]

/-- A machine started with its loop switch reading OPEN breaks (R11), and its screen is as without the start (R123). -/
theorem State.loopCheck_open {m : MachineId} {s : State} (hstate : (s.machine m).state = .starting)
    (hopen : (s.machine m).loopSwitchClosed = false) :
    s.loopCheck m = (s.breakMachine m .loop).successorLost (screenOf m) := by
  simp [State.loopCheck, hstate, hopen]

section

variable {m : MachineId} {s : State} (harmed : (s.machine m).state = .armed) (cause : MotorCause)
include harmed

theorem State.startOrdered_machine :
    (s.startOrdered m cause).machine m = (s.machine m).startedAt s.timebase := by
  rw [State.startOrdered_eq]
  exact Quad.get_set_self _ _ _

theorem State.startOrdered_loop :
    ((s.startOrdered m cause).machine m).loopSwitchClosed = (s.machine m).loopSwitchClosed := by
  obtain ⟨-, -, -, hloop, -⟩ := MachineRec.startedAt_fields (t := s.timebase) harmed
  rw [State.startOrdered_machine harmed, hloop]

/-- With the loop switch CLOSED the start stands. -/
theorem State.startSuccessor_closed (h : (s.machine m).loopSwitchClosed = true) :
    s.startSuccessor m cause = s.startOrdered m cause := by
  rw [State.startSuccessor_eq, State.loopCheck_closed]
  rw [State.startOrdered_loop harmed, h]

theorem State.startSuccessor_open (h : (s.machine m).loopSwitchClosed = false) :
    s.startSuccessor m cause
      = ((s.startOrdered m cause).breakMachine m .loop).successorLost (screenOf m) := by
  rw [State.startSuccessor_eq, State.loopCheck_open]
  · rw [State.startOrdered_machine harmed]
    exact (MachineRec.startedAt_fields harmed).1
  · rw [State.startOrdered_loop harmed, h]

theorem State.startOrdered_lamp :
    (s.startOrdered m cause).lamp m = (s.lamp m).asked (s.machine m).holds.fire := by
  obtain ⟨-, -, hfire, -⟩ := MachineRec.startedAt_fields (t := s.timebase) harmed
  rw [State.startOrdered_eq, hfire]
  exact Quad.get_set_self _ _ _

theorem State.startOrdered_posting (j : MachineId) :
    (s.startOrdered m cause).plan.lastPosting.get j = if j = m then false else s.plan.lastPosting.get j := by
  obtain ⟨hstate, -⟩ := MachineRec.startedAt_fields (t := s.timebase) harmed
  have hunjudged : ((s.machine m).startedAt s.timebase).state.judged = false := by rw [hstate]; rfl
  rw [State.startOrdered_eq]
  simp [hunjudged]

end

theorem State.startOrdered_screen (m : MachineId) (cause : MotorCause) (s : State) :
    (s.startOrdered m cause).screen (screenOf m) = (s.screen (screenOf m)).startGivenNow := by
  rw [State.startOrdered_eq]
  exact Pair.get_set_self _ _ _

theorem State.startOrdered_line (m : MachineId) (cause : MotorCause) (s : State) :
    (s.startOrdered m cause).line
      = s.line.report (.motor (screenOf m) m (s.waitedSlot (screenOf m)) cause) := by
  rw [State.startOrdered_eq]

theorem State.startSuccessor_lights (m : MachineId) (cause : MotorCause) (s : State) :
    (s.startSuccessor m cause).lights = s.lights := by
  rw [State.startSuccessor_eq]
  unfold State.loopCheck
  split
  · simp only [State.successorLost, State.breakMachine, State.modScreen_lights, State.report_lights,
      State.modMachine_lights, State.startOrdered_eq]
  · rw [State.startOrdered_eq]

/-! ### The record of a machine that breaks as it is started -/

/-- A machine that breaks: motor OFF, BREAK held, the cause recorded, its count kept (R13). -/
theorem MachineRec.brokenNow_fields (cause : BreakCause) (r : MachineRec) :
    let x := (r.enterBroken cause).settleDouser
    x.state = .broken ∧ x.breakCause = some cause ∧ x.motor = false ∧ x.holds.brk = true ∧ x.douserRequest = .closed
      ∧ x.douser = .closed ∧ x.frameCount = r.frameCount := by
  obtain ⟨hstate, hcause, hmotor, -, hbrk, hrequest, hcount, -⟩ := r.enterBroken_fields cause
  exact ⟨hstate, hcause, hmotor, hbrk, hrequest, by simp [MachineRec.settleDouser, hrequest], hcount⟩

theorem State.breakMachine_machine (m : MachineId) (cause : BreakCause) (s : State) :
    (s.breakMachine m cause).machine m = ((s.machine m).enterBroken cause).settleDouser := by
  simp [State.breakMachine]

theorem State.breakMachine_decoder {m : MachineId} {cause : BreakCause} {s : State} (hmotor : (s.machine m).motor = true) :
    ((s.breakMachine m cause).decoder m).deferred = [] := by
  obtain ⟨-, -, hoff, -⟩ := (s.machine m).brokenNow_fields cause
  have hdecoder : (s.breakMachine m cause).decoder m
      = (s.decoder m).follow (s.machine m) ((s.machine m).enterBroken cause).settleDouser :=
    State.modMachine_decoder_self m _ s
  rw [hdecoder, DecoderRec.follow_of_motorOff _ hmotor hoff]

theorem State.breakMachine_posting (m : MachineId) (cause : BreakCause) (s : State) :
    (s.breakMachine m cause).plan.lastPosting.get m = false := by
  obtain ⟨hstate, -⟩ := (s.machine m).brokenNow_fields cause
  have hunjudged : ((s.machine m).enterBroken cause).settleDouser.state.judged = false := by rw [hstate]; rfl
  have hplan : (s.breakMachine m cause).plan
      = s.plan.noteMachine m ((s.machine m).enterBroken cause).settleDouser.state := rfl
  rw [hplan, PlanStore.noteMachine_posting, if_pos ⟨rfl, hunjudged⟩]

end Sys2Proof.Machine

/-! Starts that fall due, and the plan store's evaluation with its posting. -/

namespace Sys2Proof.Machine

open Sys2Proof Host

theorem State.modMachine_congr {m : MachineId} {f g : MachineRec → MachineRec} {s : State}
    (h : f (s.machine m) = g (s.machine m)) : s.modMachine m f = s.modMachine m g := by
  simp only [State.modMachine, h]

/-! ### What waits on what, across a start's reach -/

theorem State.waitedOn_of_notOpening {s : State} {sc : ScreenId} (h : (s.screen sc).state ≠ .opening) :
    s.waitedOn sc = s.successor sc := if_neg h

theorem State.waitedSlot_of_notOpening {s : State} {sc : ScreenId} (h : (s.screen sc).state ≠ .opening) :
    s.waitedSlot sc = s.onDeck sc := if_neg h

theorem StartsOnly.waitedOn {m : MachineId} {s t : State} (h : StartsOnly m s t)
    (hstate : (t.screen (screenOf m)).state = (s.screen (screenOf m)).state) (sc : ScreenId) :
    t.waitedOn sc = s.waitedOn sc ∧ t.successor sc = s.successor sc := by
  have hdeck := h.onDeck hstate sc
  have hscreen : (t.screen sc).state = (s.screen sc).state ∧ (t.screen sc).current = (s.screen sc).current := by
    by_cases hz : sc = screenOf m
    · subst hz
      exact ⟨hstate, by rw [h.screen]⟩
    · rw [h.screens sc hz]
      exact ⟨rfl, rfl⟩
  have hsucc : t.successor sc = s.successor sc := by simp only [State.successor, hdeck, h.slot]
  exact ⟨by simp only [State.waitedOn, hscreen.1, hscreen.2, hsucc, h.slot], hsucc⟩

theorem StartsOnly.posted (m : MachineId) (yes : Bool) (s : State) : StartsOnly m s (s.posted m yes) :=
  (StartsOnly.posting' yes).trans (.machine _ rfl rfl)

theorem State.posted_screen (m : MachineId) (yes : Bool) (s : State) (sc : ScreenId) :
    (s.posted m yes).screen sc = s.screen sc := rfl

theorem State.posted_waitedOn (m : MachineId) (yes : Bool) (s : State) (sc : ScreenId) :
    (s.posted m yes).waitedOn sc = s.waitedOn sc := ((StartsOnly.posted m yes s).waitedOn rfl sc).1

/-! ### The decoder at a start -/

/-- The motor going ON clears the group and leaves the deferred queue (R47). -/
theorem DecoderRec.follow_of_started {old new : MachineRec} (d : DecoderRec) (hold : old.motor = false)
    (hnew : new.motor = true) (hstate : new.state = .starting) :
    d.follow old new = { decode := .idle, patchCount := 0, patchLength := 0, gapFrames := 0, deferred := d.deferred } := by
  simp [DecoderRec.follow, hold, hnew, hstate, DecoderRec.clearGroup, MachineState.emptiesQueue]

/-! ### The evaluation, case by case -/

section

variable {m : MachineId} {s : State}

theorem State.evaluate_armed (hstate : (s.machine m).state = .threaded) (hyes : s.armedCondition m = true)
    (hlast : s.plan.lastPosting.get m = false) : s.evaluate m = (s.posted m true).onArmed m := by
  have hjudged : (s.machine m).state.judged = true := by rw [hstate]; rfl
  simp [State.evaluate, hjudged, hyes, hlast, State.posted]

theorem State.evaluate_disarmed (hstate : (s.machine m).state = .armed) (hno : s.armedCondition m = false)
    (hlast : s.plan.lastPosting.get m = true) : s.evaluate m = (s.posted m false).onDisarmed m := by
  have hjudged : (s.machine m).state.judged = true := by rw [hstate]; rfl
  simp [State.evaluate, hjudged, hno, hlast, State.posted]

theorem State.onArmed_pending (hwait : s.waitedOn (screenOf m) = some m)
    (hstate : (s.screen (screenOf m)).state = .showing ∨ (s.screen (screenOf m)).state = .runup
      ∨ (s.screen (screenOf m)).state = .swapDue ∨ (s.screen (screenOf m)).state = .dark) :
    s.onArmed m = if (s.screen (screenOf m)).startPending then s.startSuccessor m .pending else s := by
  obtain h | h | h | h := hstate <;> simp [State.onArmed, hwait, h]

theorem State.onArmed_opening (hwait : s.waitedOn (screenOf m) = some m)
    (hstate : (s.screen (screenOf m)).state = .opening) : s.onArmed m = s.openingStep (screenOf m) := by
  simp [State.onArmed, hwait, hstate]

theorem State.onArmed_idle (h : (s.screen (screenOf m)).state = .idle ∨ (s.screen (screenOf m)).state = .interval
    ∨ (s.screen (screenOf m)).state = .halted ∨ s.waitedOn (screenOf m) ≠ some m) : s.onArmed m = s := by
  by_cases hwait : s.waitedOn (screenOf m) = some m
  · obtain h | h | h | h := h
    · simp [State.onArmed, h]
    · simp [State.onArmed, h]
    · simp [State.onArmed, h]
    · exact absurd hwait h
  · simp [State.onArmed, hwait]

theorem State.evaluate_settled' (h : ((s.machine m).state ≠ .threaded ∧ (s.machine m).state ≠ .armed)
    ∨ s.armedCondition m = s.plan.lastPosting.get m) : s.evaluate m = s := by
  obtain ⟨hthreaded, harmed⟩ | h := h
  · refine State.evaluate_unjudged ?_
    cases hstate : (s.machine m).state <;> simp_all [MachineState.judged]
  · exact State.evaluate_settled h

end

/-! ### A start that falls due -/

section

variable {sc : ScreenId} {s : State} (cause : MotorCause) (missed : Bool)

theorem State.startDue_given (h : (s.screen sc).startGiven = true ∨ (s.screen sc).startPending = true) :
    s.startDue sc cause missed = s := by
  unfold State.startDue
  rw [if_neg]
  rintro ⟨hgiven, hpending⟩
  simp [hgiven, hpending] at h

theorem State.startDue_armed {m : MachineId} (hgiven : (s.screen sc).startGiven = false)
    (hpending : (s.screen sc).startPending = false) (hsucc : s.successor sc = some m)
    (harmed : (s.machine m).state = .armed) : s.startDue sc cause missed = s.startSuccessor m cause := by
  simp [State.startDue, hgiven, hpending, hsucc, harmed]

theorem State.startDue_unarmed (hgiven : (s.screen sc).startGiven = false)
    (hpending : (s.screen sc).startPending = false)
    (hnone : ∀ m, s.successor sc = some m → (s.machine m).state ≠ .armed) :
    s.startDue sc cause missed = (s.modScreen sc fun x => { x with startPending := true }).reportIf missed
      (.missed sc (s.onDeck sc) .armed) := by
  unfold State.startDue
  rw [if_pos ⟨hgiven, hpending⟩]
  cases hsucc : s.successor sc with
  | none => rfl
  | some m => simp [hnone m hsucc]

end

/-! ### What a started successor leaves -/

/-- The screen's record as a started machine breaks at once (R123). -/
theorem ScreenRec.startLost_eq {x : ScreenRec}
    (h : x.state = .showing ∨ x.state = .runup ∨ x.state = .swapDue ∨ x.state = .dark) :
    ({ x.startGivenNow with
        startGiven := false, startPending := true
        state := if x.startGivenNow.state = .runup ∨ x.startGivenNow.state = .swapDue then .showing
          else x.startGivenNow.state } : ScreenRec)
      = { x with startGiven := false, startPending := true, state := if x.state = .dark then .dark else .showing } := by
  obtain h | h | h | h := h <;> simp only [ScreenRec.startGivenNow, h] <;> cases x.point <;> rfl

section

variable {m : MachineId} {s : State} (harmed : (s.machine m).state = .armed) (cause : MotorCause)
include harmed

theorem State.startSuccessor_lamp : (s.startSuccessor m cause).lamp m = (s.lamp m).asked (s.machine m).holds.fire := by
  cases hloop : (s.machine m).loopSwitchClosed with
  | true => rw [State.startSuccessor_closed harmed cause hloop, State.startOrdered_lamp harmed]
  | false =>
    rw [State.startSuccessor_open harmed cause hloop]
    exact State.startOrdered_lamp harmed cause

theorem State.startSuccessor_posting : (s.startSuccessor m cause).plan.lastPosting.get m = false := by
  cases hloop : (s.machine m).loopSwitchClosed with
  | true => rw [State.startSuccessor_closed harmed cause hloop, State.startOrdered_posting harmed, if_pos rfl]
  | false =>
    rw [State.startSuccessor_open harmed cause hloop]
    exact State.breakMachine_posting m .loop _

/-- With the loop switch reading OPEN: the screen's record, the line, the machine and its decoder. -/
theorem State.startSuccessor_broken (hloop : (s.machine m).loopSwitchClosed = false) :
    let t := s.startSuccessor m cause
    t.line = (s.line.report (.motor (screenOf m) m (s.waitedSlot (screenOf m)) cause)).report
        (.broke m .loop (s.machine m).frameCount)
      ∧ (t.decoder m).deferred = []
      ∧ t.machine m = (((s.machine m).startedAt s.timebase).enterBroken .loop).settleDouser
      ∧ t.screen (screenOf m) = { (s.screen (screenOf m)).startGivenNow with
          startGiven := false, startPending := true
          state := if (s.screen (screenOf m)).startGivenNow.state = .runup
              ∨ (s.screen (screenOf m)).startGivenNow.state = .swapDue then .showing
            else (s.screen (screenOf m)).startGivenNow.state } := by
  obtain ⟨-, hmotor, -, -, hcount⟩ := MachineRec.startedAt_fields (t := s.timebase) harmed
  have hmachine := State.startOrdered_machine harmed cause
  have hon : ((s.startOrdered m cause).machine m).motor = true := by rw [hmachine, hmotor]
  dsimp only
  rw [State.startSuccessor_open harmed cause hloop]
  refine ⟨?_, State.breakMachine_decoder (cause := .loop) hon, ?_, ?_⟩
  · change (State.breakMachine m .loop _).line = _
    rw [State.breakMachine, State.report_line, State.modMachine_line, State.startOrdered_line, hmachine, hcount]
  · change (State.breakMachine m .loop _).machine m = _
    rw [State.breakMachine_machine, hmachine]
  · have hscreen : ((s.startOrdered m cause).breakMachine m .loop).screen (screenOf m)
        = (s.screen (screenOf m)).startGivenNow := State.startOrdered_screen m cause s
    rw [State.successorLost, State.modScreen_screen, if_pos rfl, hscreen]

end

/-- Settles O45: the start order by the loop switch, and the evaluation by what it posts. -/
theorem startsFallDue : Obligations.StartsFallDue := by
  intro sc s x waits started
  have hstarted : ∀ (m : MachineId) (k : MotorCause) (u : State), screenOf m = sc →
      ((u.screen sc).state = .showing ∨ (u.screen sc).state = .runup ∨ (u.screen sc).state = .swapDue
        ∨ (u.screen sc).state = .dark) → (u.machine m).state = .armed → started m k u (u.startSuccessor m k) := by
    rintro m k u rfl hwaits harmed
    have hreach := StartsOnly.startSuccessor (m := m) (s := u) k
    have hlights := State.startSuccessor_lights m k u
    have hopening : (u.screen (screenOf m)).state ≠ .opening := by
      obtain h | h | h | h := hwaits <;> rw [h] <;> decide
    have hslot := State.waitedSlot_of_notOpening hopening
    refine ⟨?_, hreach.plan, fun j => ?_, hreach.others, hreach.screens, State.startSuccessor_lamp harmed k,
      fun hclosed => ?_, fun hopen => ?_⟩
    · have hrest := hreach.rest
      rw [hlights] at hrest
      exact hrest
    · split
      next hj => rw [hj]; exact State.startSuccessor_posting harmed k
      next hj => exact hreach.posting j hj
    · rw [State.startSuccessor_closed harmed k hclosed]
      have hmachine := State.startOrdered_machine harmed k
      obtain ⟨hstate, hmotor, -⟩ := MachineRec.startedAt_fields (t := u.timebase) harmed
      refine ⟨State.startOrdered_screen m k u, ?_, by rw [hmachine, hstate], by rw [hmachine, hmotor], fun hoff => ⟨?_, ?_⟩⟩
      · rw [State.startOrdered_line, hslot]
      · have hdecoder : (u.startOrdered m k).decoder m
            = (u.decoder m).follow (u.machine m) ((u.machine m).startedAt u.timebase) := by
          rw [State.startOrdered_eq]
          exact Quad.get_set_self _ _ _
        rw [hdecoder, DecoderRec.follow_of_started _ hoff hmotor hstate]
      · rw [hmachine, MachineRec.startedAt_of_off harmed hoff]
    · obtain ⟨hline, hdecoder, hmachine, hscreen⟩ := State.startSuccessor_broken harmed k hopen
      obtain ⟨-, -, -, -, hcount⟩ := MachineRec.startedAt_fields (t := u.timebase) harmed
      obtain ⟨hstate, hcause, hmotor, hbrk, hrequest, hdouser, hkept⟩ :=
        ((u.machine m).startedAt u.timebase).brokenNow_fields .loop
      rw [← hmachine] at hstate hcause hmotor hbrk hrequest hdouser hkept
      refine ⟨?_, ?_, hdecoder, hstate, hcause, hmotor, hbrk, hrequest, hdouser, hkept.trans hcount⟩
      · rw [hscreen, ScreenRec.startLost_eq hwaits]
      · rw [hline, hslot]
  refine ⟨fun k missed h => State.startDue_given k missed h, fun k missed hgiven hpending => ⟨fun hnone => ?_, ?_⟩, ?_⟩
  · exact State.startDue_unarmed k missed hgiven hpending hnone
  · intro m hm hwaits hsucc harmed
    rw [State.startDue_armed k missed hgiven hpending hsucc harmed]
    exact hstarted m k s hm hwaits harmed
  · rintro m rfl r posted
    have hpostedArmed : r.state = .threaded → s.posted m true = posted true .armed := fun hstate =>
      State.modMachine_congr (by
        change (s.machine m).takePosting true = _
        simp [MachineRec.takePosting, show (s.machine m).state = .threaded from hstate])
    have hpostedThreaded : r.state = .armed → s.posted m false = posted false .threaded := fun hstate =>
      State.modMachine_congr (by
        change (s.machine m).takePosting false = _
        simp [MachineRec.takePosting, show (s.machine m).state = .armed from hstate])
    refine ⟨State.evaluate_settled', fun hstate hyes hlast => ?_, fun hstate hno hlast => ?_⟩
    · have hevaluate := State.evaluate_armed hstate hyes hlast
      have hwaited := State.posted_waitedOn m true s (screenOf m)
      have harmed : ((s.posted m true).machine m).state = .armed := by
        rw [State.posted_machine, if_pos rfl]
        simp [MachineRec.takePosting, show (s.machine m).state = .threaded from hstate]
      have hsuccessor : waits → s.successor (screenOf m) = some m → (s.posted m true).waitedOn (screenOf m) = some m := by
        intro hwaits hsucc
        have hopening : (s.screen (screenOf m)).state ≠ .opening := by
          obtain h | h | h | h := (hwaits : _ ∨ _) <;> rw [h] <;> decide
        rw [hwaited, State.waitedOn_of_notOpening hopening, hsucc]
      refine ⟨fun hwaits hsucc hpending => ?_, fun hwaits hsucc hpending => ?_, fun hopening hwait => ?_, fun hidle => ?_⟩
      · rw [hevaluate, State.onArmed_pending (hsuccessor hwaits hsucc) hwaits, ← hpostedArmed hstate]
        have hp : ((s.posted m true).screen (screenOf m)).startPending = true := hpending
        rw [if_pos hp]
        exact hstarted m .pending _ rfl hwaits harmed
      · have hp : ((s.posted m true).screen (screenOf m)).startPending ≠ true := by
          rw [State.posted_screen, Ne, Bool.not_eq_true]
          exact hpending
        rw [hevaluate, State.onArmed_pending (hsuccessor hwaits hsucc) hwaits, if_neg hp, hpostedArmed hstate]
      · rw [hevaluate, State.onArmed_opening (hwaited.trans hwait) hopening, hpostedArmed hstate]
      · rw [hevaluate, State.onArmed_idle, hpostedArmed hstate]
        rw [hwaited]
        exact hidle
    · have hwaited := State.posted_waitedOn m false s (screenOf m)
      rw [State.evaluate_disarmed hstate hno hlast]
      unfold State.onDisarmed
      dsimp only
      rw [hwaited, hpostedThreaded hstate]
      rfl

end Sys2Proof.Machine

/-! THREAD and UNTHREAD. -/

namespace Sys2Proof.Machine

open Sys2Proof Host

/-! ### The lowest slot -/

theorem allSlots_sorted : allSlots.Pairwise (· < ·) := by decide

/-- The first slot found is the lowest. -/
theorem find_lowest {p : SlotIx → Bool} {k : SlotIx} (hk : p k = true) (hlow : ∀ j, j < k → p j = false) :
    allSlots.find? p = some k := by
  obtain ⟨before, after, hsplit⟩ := List.append_of_mem (mem_allSlots k)
  refine List.find?_eq_some_iff_append.2 ⟨hk, before, after, hsplit, fun j hj => ?_⟩
  have hsorted := allSlots_sorted
  rw [hsplit, List.pairwise_append] at hsorted
  rw [hlow j (hsorted.2.2 j hj k (List.mem_cons_self))]
  rfl

theorem findSome_lowest {β : Type} {f : SlotIx → Option β} {k : SlotIx} {b : β} (hk : f k = some b)
    (hlow : ∀ j, j < k → f j = none) : allSlots.findSome? f = some b := by
  obtain ⟨before, after, hsplit⟩ := List.append_of_mem (mem_allSlots k)
  refine List.findSome?_eq_some_iff.2 ⟨before, k, after, hsplit, hk, fun j hj => ?_⟩
  have hsorted := allSlots_sorted
  rw [hsplit, List.pairwise_append] at hsorted
  exact hlow j (hsorted.2.2 j hj k (List.mem_cons_self))

/-! ### The slot that names a reel -/

/-- Slot `n` of a screen is LOADED and names the reel `id` (R95). -/
def State.Named (s : State) (sc : ScreenId) (id : Text) (n : SlotIx) : Prop :=
  (s.slot sc n).status = .loaded ∧ (s.slot sc n).entry.map SlotEntry.reel = some id

theorem State.slotNamed_lowest {s : State} {sc : ScreenId} {id : Text} {k : SlotIx} {e : SlotEntry}
    (hk : s.Named sc id k) (hlow : ∀ j, j < k → ¬ s.Named sc id j) (he : (s.slot sc k).entry = some e) :
    s.slotNamed sc id = some (k, e) := by
  obtain ⟨hloaded, hreel⟩ := hk
  have hid : e.reel = id := by simpa [he] using hreel
  unfold State.slotNamed
  refine findSome_lowest (k := k) ?_ fun j hj => ?_
  · simp [hloaded, he, hid]
  · have hnot := hlow j hj
    cases hs : (s.slot sc j).status <;> cases hej : (s.slot sc j).entry <;> simp_all [State.Named]

theorem State.slotNamed_none {s : State} {sc : ScreenId} {id : Text} (h : ∀ n, ¬ s.Named sc id n) :
    s.slotNamed sc id = none := by
  refine List.findSome?_eq_none_iff.2 fun j _ => ?_
  have hnot := h j
  cases hs : (s.slot sc j).status <;> cases hej : (s.slot sc j).entry <;> simp_all [State.Named]

theorem State.slotNamed_isSome {s : State} {sc : ScreenId} {id : Text} {n : SlotIx} (h : s.Named sc id n) :
    ∃ k e, s.slotNamed sc id = some (k, e) := by
  obtain ⟨hloaded, hreel⟩ := h
  obtain ⟨e, he, hid⟩ := Option.map_eq_some_iff.1 hreel
  have hsome : (s.slotNamed sc id).isSome = true :=
    List.findSome?_isSome_iff.2 ⟨n, mem_allSlots n, by simp [hloaded, he, hid]⟩
  obtain ⟨⟨k, e⟩, hke⟩ := Option.isSome_iff_exists.1 hsome
  exact ⟨k, e, hke⟩

/-! ### THREAD -/

theorem State.modSlot_congr {sc : ScreenId} {n : SlotIx} {f g : Slot → Slot} {s : State}
    (h : f (s.slot sc n) = g (s.slot sc n)) : s.modSlot sc n f = s.modSlot sc n g := by
  simp only [State.modSlot, h]

/-- A change of a lamp that leaves its state is a change of its record alone. -/
theorem State.modLamp_of_state {m : MachineId} {f : LampRec → LampRec} {s : State}
    (h : (f (s.lamp m)).state = (s.lamp m).state) :
    s.modLamp m f = { s with lamps := s.lamps.set m (f (s.lamp m)) } := by
  simp [State.modLamp, h]

/-- The state in which both sides of a binding stand, before ARMED is evaluated (R95). -/
def State.threaded (m : MachineId) (id : Text) (k : SlotIx) (e : SlotEntry) (s : State) : State :=
  ((s.modSlot (screenOf m) k fun _ => ⟨.bound, some m, some e⟩).modMachine m (MachineRec.acceptReel id k)).modLamp m
    (LampRec.bind e.length)

theorem State.threadReel_eq {m : MachineId} {id : Text} {k : SlotIx} {e : SlotEntry} {s : State}
    (he : (s.slot (screenOf m) k).entry = some e) : s.threadReel m id k e = (s.threaded m id k e).evaluate m := by
  have hslot : s.modSlot (screenOf m) k (fun x => { x with status := .bound, bound := some m })
      = s.modSlot (screenOf m) k fun _ => ⟨.bound, some m, some e⟩ := State.modSlot_congr (by rw [he])
  rw [State.threadReel, hslot]
  rfl

theorem State.threaded_slot (m : MachineId) (id : Text) (k : SlotIx) (e : SlotEntry) (s : State) (x : ScreenId)
    (n : SlotIx) : (s.threaded m id k e).slot x n
      = if x = screenOf m ∧ n = k then ⟨.bound, some m, some e⟩ else s.slot x n := by
  rw [State.threaded, State.modLamp_slot, State.modMachine_slot, State.modSlot_slot]

theorem State.threaded_machine (m : MachineId) (id : Text) (k : SlotIx) (e : SlotEntry) (s : State) :
    (s.threaded m id k e).machine m = ((s.machine m).acceptReel id k).settleDouser := by
  rw [State.threaded, State.modLamp_of_state rfl]
  simp [State.machine]

theorem State.threaded_lamp (m : MachineId) (id : Text) (k : SlotIx) (e : SlotEntry) (s : State) :
    (s.threaded m id k e).lamp m = (s.lamp m).bind e.length := by
  rw [State.threaded, State.modLamp_of_state rfl]
  simp [State.lamp]

/-- R95: which slot is next does not change as a LOADED slot becomes BOUND. -/
theorem State.threaded_nextSlot {m : MachineId} {id : Text} {k : SlotIx} {e : SlotEntry} {s : State}
    (hloaded : (s.slot (screenOf m) k).status = .loaded) :
    (s.threaded m id k e).nextSlot (screenOf m) = s.nextSlot (screenOf m) := by
  refine (State.nextSlot_congr (s := s) (t := s.threaded m id k e) ⟨?_, ?_⟩ fun n => ?_).1
  · rw [State.threaded, State.modLamp_screen]
    rfl
  · rw [State.threaded, State.modLamp_screen]
    exact .inl rfl
  · rw [State.threaded_slot]
    split
    next h => obtain ⟨-, rfl⟩ := h; rw [hloaded]; rfl
    next => rfl

/-- A THREADED machine whose condition does not hold is left THREADED. -/
theorem State.evaluate_threaded {m : MachineId} {s : State} (hstate : (s.machine m).state = .threaded)
    (hno : s.armedCondition m = false) : ((s.evaluate m).machine m).state = .threaded := by
  obtain ⟨e, -⟩ | ⟨-, hyes, -⟩ | ⟨-, -, -, e⟩ := s.evaluate_cases m
  · rw [e, hstate]
  · rw [hno] at hyes
    exact absurd hyes (by simp)
  · have hposted : ((s.posted m false).machine m).state = .threaded := by
      rw [State.posted_machine, if_pos rfl]
      simp [MachineRec.takePosting, hstate]
    rw [e]
    unfold State.onDisarmed
    dsimp only
    split
    · exact hposted
    · exact hposted

/-- Settles O34: the binding on both sides, what the evaluation leaves of it, and the tests in their order. -/
theorem threadBindsTheReel : Obligations.ThreadBindsTheReel := by
  intro m a id s hp hm hid sc c named
  obtain ⟨i, hi, hmachine⟩ := machineOperand_of_namesMachine hm
  have hmachine' : ∀ c, machineOperand (s.taken c) i = .ok m := fun c => hmachine
  refine ⟨fun k e hempty hoff hnamed hlow he => ?_, fun hstate => ?_, fun htripped hempty => ?_, fun hempty hnone => ?_,
    fun hempty hsome hon => ?_⟩
  · have hslot : (s.taken c).slotNamed (screenOf m) id = some (k, e) := State.slotNamed_lowest hnamed hlow he
    have hparse : parseThread (s.taken c) [a, id] = .ok (m, id, k, e) := by
      simp [parseThread, hi, hid, hmachine', hempty, threadTest, hslot, hoff]
    have hexec : exec c s = .next (((s.taken c).threadReel m id k e).answer (.ok [])) := by
      change execThread [a, id] s = _
      simp only [execThread, State.takeCommand_of_powered hp, hparse, c]
    rw [State.threadReel_eq (by exact he)] at hexec
    have hreach := StartsOnly.evaluate (m := m) (s := (s.taken c).threaded m id k e)
    have hframe := (Reactions.evaluate m (.refl' ((s.taken c).threaded m id k e))).frame
    have hmachine₀ := State.threaded_machine m id k e (s.taken c)
    have hlamp := State.threaded_lamp m id k e (s.taken c)
    have hslots := State.threaded_slot m id k e (s.taken c)
    have hkept := hframe.machine m
    refine ⟨_, hexec, ?_, fun x n hne => ?_, ?_, ?_, ?_, ?_, ?_, fun hnext => ?_, ?_, ?_, hframe⟩
    · rw [hreach.slot, hslots, if_pos ⟨rfl, rfl⟩]
    · rw [hreach.slot, hslots, if_neg fun h => hne.elim (fun g => g h.1) fun g => g h.2]
      rfl
    · rw [hreach.reel.1, hmachine₀]; rfl
    · rw [hkept.reelId, hmachine₀]; rfl
    · rw [hkept.frameCount, hmachine₀]; rfl
    · rw [hkept.saturated, hmachine₀]; rfl
    · rw [hreach.reel.2, hmachine₀]; rfl
    · refine State.evaluate_threaded (by rw [hmachine₀]; rfl) ?_
      rw [Bool.eq_false_iff, Ne, State.armedCondition_iff]
      rintro ⟨-, ⟨n, hn, hnextSlot⟩, -⟩
      have hboundSlot : (((s.taken c).threaded m id k e).machine m).boundSlot = some k := by rw [hmachine₀]; rfl
      rw [State.threaded_nextSlot (s := s.taken c) hnamed.1, ← hn, hboundSlot] at hnextSlot
      exact hnext hnextSlot
    · rw [hreach.bound.1, hlamp]; rfl
    · rw [hreach.bound.2, hlamp]; rfl
  · exact exec_refused hp (reasonOf_eq_some.2 (by simp [parseThread, hi, hid, hmachine, hstate, threadTest]))
  · refine exec_refused hp (reasonOf_eq_some.2 ?_)
    have htest : threadTest (s.machine m).state = .error .state := by
      cases hstate : (s.machine m).state <;> simp_all [threadTest]
    simp [parseThread, hi, hid, hmachine, htest]
  · refine exec_refused hp (reasonOf_eq_some.2 ?_)
    have hslot : s.slotNamed (screenOf m) id = none := State.slotNamed_none hnone
    simp [parseThread, hi, hid, hmachine, hempty, threadTest, hslot]
  · refine exec_refused hp (reasonOf_eq_some.2 ?_)
    obtain ⟨n, hn⟩ := hsome
    obtain ⟨k, e, hslot⟩ := State.slotNamed_isSome (s := s) (sc := screenOf m) hn
    simp [parseThread, hi, hid, hmachine, hempty, threadTest, hslot, hon]

end Sys2Proof.Machine

/-! UNTHREAD. -/

namespace Sys2Proof.Machine

open Sys2Proof Host

/-! ### The end of a binding -/

/-- The end of a binding as one change of the state, on both sides and at the lamp (R97, R78). -/
theorem State.endBinding_bound {m : MachineId} {st : SlotStatus} {s : State} {n : SlotIx}
    (h : (s.machine m).boundSlot = some n) :
    s.endBinding m st = { (s.modSlot (screenOf m) n fun x => { x with status := st, bound := none }).modMachine m
        (fun r => { r with boundSlot := none }) with lamps := s.lamps.set m (s.lamp m).unbind } := by
  simp only [State.endBinding, h]
  exact State.modLamp_of_state rfl

theorem State.endBinding_slot {m : MachineId} {st : SlotStatus} {s : State} {n : SlotIx}
    (h : (s.machine m).boundSlot = some n) (x : ScreenId) (k : SlotIx) : (s.endBinding m st).slot x k
      = if x = screenOf m ∧ k = n then { s.slot (screenOf m) n with status := st, bound := none } else s.slot x k := by
  simp only [State.endBinding, h]
  rw [State.modLamp_slot, State.modMachine_slot, State.modSlot_slot]

theorem State.endBinding_unbound {m : MachineId} {st : SlotStatus} {s : State} (h : (s.machine m).boundSlot = none) :
    s.endBinding m st = s := by
  simp [State.endBinding, h]

/-- Of its machine the end of a binding writes the slot alone, and the douser is settled. -/
theorem State.endBinding_record (m : MachineId) (st : SlotStatus) (s : State) :
    ∃ d, (s.endBinding m st).machine m = { s.machine m with boundSlot := none, douser := d } := by
  cases h : (s.machine m).boundSlot with
  | none => exact ⟨(s.machine m).douser, by rw [State.endBinding_unbound h, ← h]⟩
  | some n =>
    refine ⟨({ s.machine m with boundSlot := none } : MachineRec).settleDouser.douser, ?_⟩
    rw [State.endBinding_bound h]
    exact Quad.get_set_self _ _ _

theorem State.endBinding_decoder (m k : MachineId) (st : SlotStatus) (s : State) :
    (s.endBinding m st).decoder k = s.decoder k := by
  cases h : (s.machine m).boundSlot with
  | none => rw [State.endBinding_unbound h]
  | some n =>
    rw [State.endBinding_bound h]
    by_cases hk : k = m
    · subst hk
      refine (State.modMachine_decoder_self k (fun r => { r with boundSlot := none }) _).trans ?_
      exact DecoderRec.follow_of_kept _ rfl rfl
    · exact Quad.get_set_ne _ _ hk

/-- Plan stores with the same times and clock differ in their tables and postings alone. -/
theorem PlanStore.eq_of_clock {p q : PlanStore} (hshowAt : q.showAt = p.showAt) (hclock : q.clock = p.clock)
    (hsecond : q.clockSecond = p.clockSecond) : q = { p with tables := q.tables, lastPosting := q.lastPosting } := by
  rw [← hshowAt, ← hclock, ← hsecond]

theorem State.modMachine_planOnly (m : MachineId) (f : MachineRec → MachineRec) (s : State) :
    (s.modMachine m f).plan = { s.plan with lastPosting := (s.modMachine m f).plan.lastPosting }
      ∧ ∀ j, j ≠ m → (s.modMachine m f).plan.lastPosting.get j = s.plan.lastPosting.get j :=
  PlanStore.noteMachine_only m _ s.plan

/-- What else the end of a binding leaves. -/
theorem State.endBinding_others (m : MachineId) (st : SlotStatus) (s : State) :
    (s.endBinding m st = { s with machines := (s.endBinding m st).machines, decoders := (s.endBinding m st).decoders,
                                  lamps := (s.endBinding m st).lamps, plan := (s.endBinding m st).plan })
      ∧ (s.endBinding m st).plan = { s.plan with tables := (s.endBinding m st).plan.tables,
                                                 lastPosting := (s.endBinding m st).plan.lastPosting }
      ∧ ∀ j, j ≠ m → (s.endBinding m st).machine j = s.machine j ∧ (s.endBinding m st).lamp j = s.lamp j
        ∧ (s.endBinding m st).plan.lastPosting.get j = s.plan.lastPosting.get j := by
  cases h : (s.machine m).boundSlot with
  | none =>
    rw [State.endBinding_unbound h]
    exact ⟨rfl, rfl, fun _ _ => ⟨rfl, rfl, rfl⟩⟩
  | some n =>
    rw [State.endBinding_bound h]
    have hplan := State.modMachine_planOnly m (fun r => { r with boundSlot := none })
      (s.modSlot (screenOf m) n fun x => { x with status := st, bound := none })
    refine ⟨rfl, ?_, fun j hj => ⟨?_, ?_, ?_⟩⟩
    · have hshowAt := congrArg PlanStore.showAt hplan.1
      have hclock := congrArg PlanStore.clock hplan.1
      have hsecond := congrArg PlanStore.clockSecond hplan.1
      exact PlanStore.eq_of_clock hshowAt hclock hsecond
    · exact Quad.get_set_ne _ _ hj
    · exact Quad.get_set_ne _ _ hj
    · exact hplan.2 j hj

/-! ### A machine that the evaluation of its screen leaves -/

/-- An evaluation leaves every machine that is neither THREADED nor ARMED. -/
theorem State.evaluate_leaves (a : MachineId) {m : MachineId} {s : State} (h : (s.machine m).state.judged = false) :
    (s.evaluate a).machine m = s.machine m ∧ (s.evaluate a).decoder m = s.decoder m
      ∧ (s.evaluate a).lamp m = s.lamp m := by
  by_cases hm : m = a
  · rw [← hm, State.evaluate_unjudged h]
    exact ⟨rfl, rfl, rfl⟩
  · exact StartsOnly.evaluate.others m hm

theorem State.evaluateScreen_leaves (sc : ScreenId) {m : MachineId} {s : State}
    (h : (s.machine m).state.judged = false) :
    (s.evaluateScreen sc).machine m = s.machine m ∧ (s.evaluateScreen sc).decoder m = s.decoder m
      ∧ (s.evaluateScreen sc).lamp m = s.lamp m := by
  obtain ⟨hmachine, hdecoder, hlamp⟩ := State.evaluate_leaves (lowerOf sc) h
  obtain ⟨hmachine', hdecoder', hlamp'⟩ := State.evaluate_leaves (upperOf sc) (s := s.evaluate (lowerOf sc))
    (by rw [hmachine]; exact h)
  exact ⟨hmachine'.trans hmachine, hdecoder'.trans hdecoder, hlamp'.trans hlamp⟩

theorem StartsOnly.screenKept {m : MachineId} {s t : State} (h : StartsOnly m s t) {z : ScreenId} (hz : z ≠ screenOf m) :
    ScreenKept z s t := by
  have hother : ∀ j, screenOf j = z → j ≠ m := fun j hj hm => hz (by rw [← hj, hm])
  refine ⟨fun j hj => ?_, fun j _ => ?_, h.slot z, ?_, h.screens z hz, h.circuits z hz, ?_⟩
  · obtain ⟨hmachine, hdecoder, hlamp⟩ := h.others j (hother j hj)
    exact ⟨hmachine, hdecoder, hlamp, h.posting j (hother j hj)⟩
  · rw [h.rest]
    exact ⟨rfl, rfl, rfl⟩
  · rw [h.plan]
  · rw [h.lights]

/-- What the evaluation of a screen's machines leaves: every slot, the sound, and the other screen. -/
theorem State.evaluateScreen_only (sc : ScreenId) (s : State) :
    (∀ x n, (s.evaluateScreen sc).slot x n = s.slot x n)
      ∧ (∀ z, ((s.evaluateScreen sc).screen z).sound = (s.screen z).sound)
      ∧ ∀ z, z ≠ sc → ScreenKept z s (s.evaluateScreen sc) := by
  have hlower : StartsOnly (lowerOf sc) s (s.evaluate (lowerOf sc)) := StartsOnly.evaluate
  have hupper : StartsOnly (upperOf sc) (s.evaluate (lowerOf sc)) (s.evaluateScreen sc) := StartsOnly.evaluate
  refine ⟨fun x n => (hupper.slot x n).trans (hlower.slot x n), fun z => (hupper.sound z).trans (hlower.sound z),
    fun z hz => ?_⟩
  exact (hlower.screenKept (by rwa [screenOf_lowerOf])).trans (hupper.screenKept (by rwa [screenOf_upperOf]))

/-! ### The queue of a machine that is emptied -/

/-- Entry to a state that empties the deferred queue empties it (R1, R47). -/
theorem DecoderRec.follow_emptied {old new : MachineRec} (d : DecoderRec) (hchanged : new.state ≠ old.state)
    (hempties : new.state.emptiesQueue = true) : (d.follow old new).deferred = [] := by
  simp [DecoderRec.follow, hchanged, hempties]

theorem DecoderRec.follow_emptied_of_off {old new : MachineRec} (d : DecoderRec) (hchanged : new.state ≠ old.state)
    (hempties : new.state.emptiesQueue = true) (hmotor : new.motor = old.motor) :
    d.follow old new = { d with deferred := [] } := by
  simp [DecoderRec.follow, hchanged, hempties, hmotor]

/-! ### The record of an unthreaded machine -/

theorem MachineRec.unthread_of_empty {r : MachineRec} (h : r.state = .empty) : r.unthread = r := if_pos h

theorem MachineRec.unthread_of_off {r : MachineRec} (h : r.state ≠ .empty) (hoff : r.motor = false) :
    r.unthread = { r with
      state := .empty, reelId := none, frameCount := 0, saturated := false, armedPosting := false
      breakCause := if r.state = .broken then none else r.breakCause
      holds := { r.holds with brk := if r.state = .broken then false else r.holds.brk } } := by
  have hmotor : ({ r.leaveBroken with
      state := .empty, reelId := none, frameCount := 0, saturated := false, armedPosting := false } : MachineRec).motor
      = false := by
    unfold MachineRec.leaveBroken
    split <;> exact hoff
  rw [MachineRec.unthread, if_neg h, MachineRec.motorOff_of_off hmotor]
  unfold MachineRec.leaveBroken
  split <;> rfl

theorem MachineRec.unthread_fields {r : MachineRec} (h : r.state ≠ .empty) :
    r.unthread.reelId = none ∧ r.unthread.frameCount = 0 ∧ r.unthread.saturated = false
      ∧ r.unthread.armedPosting = false ∧ r.unthread.motor = false ∧ r.unthread.rejected = r.rejected := by
  unfold MachineRec.unthread
  rw [if_neg h]
  have hkept : ∀ x : MachineRec, x.motorOff.reelId = x.reelId ∧ x.motorOff.frameCount = x.frameCount
      ∧ x.motorOff.saturated = x.saturated ∧ x.motorOff.armedPosting = x.armedPosting
      ∧ x.motorOff.rejected = x.rejected := fun x => by
    unfold MachineRec.motorOff
    split <;> exact ⟨rfl, rfl, rfl, rfl, rfl⟩
  have hrejected : r.leaveBroken.rejected = r.rejected := by
    unfold MachineRec.leaveBroken
    split <;> rfl
  obtain ⟨hreel, hcount, hsaturated, harmed, hrej⟩ := hkept { r.leaveBroken with
    state := .empty, reelId := none, frameCount := 0, saturated := false, armedPosting := false }
  exact ⟨hreel, hcount, hsaturated, harmed, MachineRec.motorOff_motor _, hrej.trans hrejected⟩

theorem MachineRec.unthread_state (r : MachineRec) : r.unthread.state = .empty := by
  unfold MachineRec.unthread
  split
  next h => exact h
  next => exact MachineRec.motorOff_state _

/-! ### The command -/

/-- What UNTHREAD does itself (R96, R18). -/
def State.unthreaded (m : MachineId) (s : State) : State := (s.endBinding m .loaded).modMachine m MachineRec.unthread

theorem State.unthreaded_machine (m : MachineId) (s : State) :
    ∃ d, (s.unthreaded m).machine m
      = ({ s.machine m with boundSlot := none, douser := d } : MachineRec).unthread.settleDouser := by
  obtain ⟨d, hd⟩ := s.endBinding_record m .loaded
  exact ⟨d, by rw [State.unthreaded, State.modMachine_machine, if_pos rfl, hd]⟩

theorem State.unthreaded_decoder (m : MachineId) (s : State) :
    (s.unthreaded m).decoder m
      = (s.decoder m).follow ((s.endBinding m .loaded).machine m) ((s.unthreaded m).machine m) := by
  rw [State.unthreaded, State.modMachine_decoder_self, State.endBinding_decoder, State.modMachine_machine, if_pos rfl]

theorem parseUnthread_error {s : State} {a : Text} {m : MachineId} {r : Reason} (hm : s.namesMachine a m)
    (htest : unthreadTest (s.machine m).state = .error r) : parseUnthread s [a] = .error r := by
  obtain ⟨n, hn, hmachine⟩ := machineOperand_of_namesMachine hm
  simp [parseUnthread, onlyMachine, hn, hmachine, htest]

/-- Settles O35: what the command does itself, what the evaluation leaves of it, and the tests. -/
theorem unthreadEmptiesTheMachine : Obligations.UnthreadEmptiesTheMachine := by
  intro m a s hp hm c r sc
  refine ⟨fun hstate => ?_, fun htripped => ?_, fun hrunning => ?_⟩
  · have hparse : parseUnthread (s.taken c) [a] = .ok m := by
      obtain ⟨n, hn, hmachine⟩ := machineOperand_of_namesMachine hm
      have hmachine' : machineOperand (s.taken c) n = .ok m := hmachine
      have htest : unthreadTest (s.machine m).state = .ok () := by
        obtain h | h | h | h | h := hstate <;> rw [show (s.machine m).state = _ from h] <;> rfl
      simp [parseUnthread, onlyMachine, hn, hmachine', htest]
    have hexec : exec c s = .next ((((s.taken c).unthreaded m).evaluateScreen sc).answer (.ok [])) := by
      change execUnthread [a] s = _
      simp only [execUnthread, State.takeCommand_of_powered hp, hparse, c]
      rfl
    obtain ⟨hrest, hplan, hothers⟩ := (s.taken c).endBinding_others m .loaded
    obtain ⟨d, hrecord⟩ := (s.taken c).unthreaded_machine m
    have hdecoder := (s.taken c).unthreaded_decoder m
    have hplan' := State.modMachine_planOnly m MachineRec.unthread ((s.taken c).endBinding m .loaded)
    have hempty : (((s.taken c).unthreaded m).machine m).state = .empty := by
      rw [hrecord]
      exact MachineRec.unthread_state _
    have hframe := (State.evaluateScreen_reactions sc ((s.taken c).unthreaded m)).frame
    obtain ⟨hslots, hsound, hkept⟩ := State.evaluateScreen_only sc ((s.taken c).unthreaded m)
    obtain ⟨hsame, hsame', hsame''⟩ := State.evaluateScreen_leaves sc (s := (s.taken c).unthreaded m) (m := m)
      (by rw [hempty]; rfl)
    refine ⟨(s.taken c).unthreaded m, hexec, ?_, ?_, fun j => ?_, fun j hj => ?_, hframe, hkept, fun z => ?_, hslots, hsame,
      hsame', hsame'', hempty, ?_, ?_, fun he => ?_, fun hne => ?_, fun n hn => ?_, fun hnone => ?_⟩
    · have hstep : (s.taken c).unthreaded m = { (s.taken c).endBinding m .loaded with
          machines := ((s.taken c).unthreaded m).machines, decoders := ((s.taken c).unthreaded m).decoders
          plan := ((s.taken c).unthreaded m).plan } := rfl
      rw [hrest] at hstep
      exact hstep
    · have hstep : ((s.taken c).unthreaded m).plan = { ((s.taken c).endBinding m .loaded).plan with
          lastPosting := ((s.taken c).unthreaded m).plan.lastPosting } := hplan'.1
      have hshowAt := congrArg PlanStore.showAt hstep
      have hclock := congrArg PlanStore.clock hstep
      have hsecond := congrArg PlanStore.clockSecond hstep
      rw [hplan] at hshowAt hclock hsecond
      exact PlanStore.eq_of_clock hshowAt hclock hsecond
    · split
      next hj =>
        have hunjudged : (((s.taken c).unthreaded m).machine m).state.judged = false := by rw [hempty]; rfl
        rw [hj, State.unthreaded, State.modMachine_plan, PlanStore.noteMachine_posting, if_pos]
        rw [State.unthreaded, State.modMachine_machine, if_pos rfl] at hunjudged
        exact ⟨rfl, hunjudged⟩
      next hj =>
        obtain ⟨-, -, hposting⟩ := hothers j hj
        exact (hplan'.2 j hj).trans hposting
    · obtain ⟨hmachine, hlamp, -⟩ := hothers j hj
      refine ⟨?_, ?_, hlamp⟩
      · rw [State.unthreaded, State.modMachine_machine, if_neg hj]
        exact hmachine
      · rw [State.unthreaded, State.decoder, State.modMachine_decoders, Quad.get_set_ne _ _ hj]
        exact State.endBinding_decoder m j .loaded (s.taken c)
    · have hscreens : ((s.taken c).unthreaded m).screens = s.screens := by
        have hkeptScreens := congrArg State.screens hrest
        exact hkeptScreens
      rw [hsound, State.screen, hscreens]
      rfl
    · rw [hrecord]
      exact MachineRec.unthread_bound _
    · rw [hrecord, MachineRec.settleDouser_of_off (by rw [MachineRec.unthread_state]; decide)]
    · have hempty' : ({ (s.taken c).machine m with boundSlot := none, douser := d } : MachineRec).state = .empty := he
      have hmachine : ((s.taken c).unthreaded m).machine m = { r with boundSlot := none, douser := .closed } := by
        rw [hrecord, MachineRec.unthread_of_empty hempty', MachineRec.settleDouser_of_off (by rw [hempty']; decide)]
        rfl
      refine ⟨hmachine, ?_⟩
      obtain ⟨d', hbinding⟩ := (s.taken c).endBinding_record m .loaded
      rw [hdecoder, hmachine, hbinding]
      exact DecoderRec.follow_of_kept _ rfl rfl
    · obtain ⟨d', hbinding⟩ := (s.taken c).endBinding_record m .loaded
      have hne' : ({ (s.taken c).machine m with boundSlot := none, douser := d } : MachineRec).state ≠ .empty := hne
      obtain ⟨hreel, hcount, hsaturated, harmed, hmotor, hrejected⟩ := MachineRec.unthread_fields hne'
      have hchanged : (((s.taken c).unthreaded m).machine m).state
          ≠ (((s.taken c).endBinding m .loaded).machine m).state := by
        rw [hempty, hbinding]
        exact fun h => hne h.symm
      have hempties : (((s.taken c).unthreaded m).machine m).state.emptiesQueue = true := by rw [hempty]; rfl
      have hqueue : (((s.taken c).unthreaded m).decoder m).deferred = [] := by
        rw [hdecoder]
        exact DecoderRec.follow_emptied _ hchanged hempties
      have hmotorNow : (((s.taken c).unthreaded m).machine m).motor = false := by rw [hrecord]; exact hmotor
      rw [hrecord]
      refine ⟨hreel, hcount, hsaturated, harmed, hmotor, hrejected, hqueue, fun hoff => ⟨?_, ?_⟩⟩
      · rw [hdecoder, DecoderRec.follow_emptied_of_off _ hchanged hempties (by rw [hmotorNow, hbinding]; exact hoff.symm)]
        rfl
      · rw [MachineRec.unthread_of_off hne' hoff, MachineRec.settleDouser_of_off (by simp)]
        rfl
    · have hbound : ((s.taken c).machine m).boundSlot = some n := hn
      have hunbound := State.endBinding_bound (st := .loaded) hbound
      refine ⟨?_, fun x k => ?_⟩
      · change ((s.taken c).endBinding m .loaded).lamp m = _
        rw [hunbound]
        exact Quad.get_set_self _ _ _
      · rw [State.unthreaded, State.modMachine_slot, State.endBinding_slot hbound]
        split
        next h => obtain ⟨rfl, rfl⟩ := h; rfl
        next => rfl
    · have hunbound := State.endBinding_unbound (st := .loaded) (s := s.taken c) hnone
      refine ⟨?_, fun x k => ?_⟩
      · change ((s.taken c).endBinding m .loaded).lamp m = _
        rw [hunbound]
        rfl
      · rw [State.unthreaded, State.modMachine_slot, hunbound]
        rfl
  · exact exec_refused hp (reasonOf_eq_some.2 (parseUnthread_error hm (by rw [htripped]; rfl)))
  · refine exec_refused hp (reasonOf_eq_some.2 (parseUnthread_error hm ?_))
    cases hst : (s.machine m).state <;> rw [hst] at hrunning <;> simp_all [unthreadTest, MachineState.running]

end Sys2Proof.Machine

/-! The step of an opening: the strike of a DARK lamp, the start that a BURNING one brings, and the slot's scene. -/

namespace Sys2Proof.Machine

open Sys2Proof Host

/-! ### The scene of a slot -/

theorem State.issueScene_some {sc : ScreenId} {e : Option SlotEntry} {k : Fin 8} (h : e.bind (·.scene) = some k)
    (s : State) : s.issueScene sc e = s.placeThree sc .cue (s.lights.scenes.get sc)[k] 50 := by
  match e, h with
  | some ⟨_, _, _, _, _, _, some n, _, _, _⟩, h =>
    obtain rfl : n = k := by simpa using h
    rfl

theorem State.issueScene_none {sc : ScreenId} {e : Option SlotEntry} (h : e.bind (·.scene) = none) (s : State) :
    s.issueScene sc e = s := by
  match e, h with
  | none, _ => rfl
  | some ⟨_, _, _, _, _, _, none, _, _, _⟩, _ => rfl

/-- Issuing a scene is a change of one screen's circuits alone. -/
theorem State.issueScene_eq (sc : ScreenId) (e : Option SlotEntry) (s : State) :
    s.issueScene sc e = { s with lights := (s.issueScene sc e).lights } := by
  cases h : e.bind (·.scene) with
  | none => rw [State.issueScene_none h]
  | some k => rw [State.issueScene_some h]; rfl

theorem State.issueScene_sceneIssued {sc : ScreenId} {n : SlotIx} {s u : State}
    (hcircuit : ∀ c, u.circuit sc c = (s.issueScene sc (s.slot sc n).entry).circuit sc c) : s.sceneIssued u sc n := by
  intro c
  rw [hcircuit]
  cases h : (s.slot sc n).entry.bind (·.scene) with
  | none => rw [State.issueScene_none h]
  | some k => rw [State.issueScene_some h, State.placeThree_circuit, if_pos rfl]

/-- Scenes issued from states with the same lights light a screen alike. -/
theorem State.issueScene_lights {sc : ScreenId} {e : Option SlotEntry} {s t : State} (h : t.lights = s.lights) :
    (t.issueScene sc e).lights = (s.issueScene sc e).lights := by
  cases hscene : e.bind (·.scene) with
  | none => rw [State.issueScene_none hscene, State.issueScene_none hscene, h]
  | some k =>
    rw [State.issueScene_some hscene, State.issueScene_some hscene, h]
    simp only [State.placeThree, State.modCircuit, State.modLights, State.circuit, h]

/-! ### The step of an opening -/

section

variable {m : MachineId} {s : State}

variable (hwait : s.waitedOn (screenOf m) = some m)
include hwait

/-- With the start given, or the machine not ARMED, an opening waits. -/
theorem State.openingStep_waits
    (h : (s.screen (screenOf m)).startGiven = true ∨ (s.machine m).state ≠ .armed) :
    s.openingStep (screenOf m) = s := by
  simp only [State.openingStep, hwait]
  rw [if_neg]
  rintro ⟨-, hgiven, harmed⟩
  obtain h | h := h
  · simp [hgiven] at h
  · exact h harmed

variable (hstate : (s.screen (screenOf m)).state = .opening) (hgiven : (s.screen (screenOf m)).startGiven = false)
  (harmed : (s.machine m).state = .armed)
include hstate hgiven harmed

/-- A lamp that does not burn is asked to strike, and only a DARK one takes it (R107, R64). -/
theorem State.openingStep_unlit (hlamp : (s.lamp m).state ≠ .burning) :
    s.openingStep (screenOf m)
      = { s with lamps := s.lamps.set m ((s.lamp m).asked (s.machine m).holds.fire) } := by
  have hopen : s.openingStep (screenOf m) = if (s.lamp m).state = .dark then s.strikeRequest m else s := by
    simp only [State.openingStep, hwait]
    rw [if_pos ⟨hstate, hgiven, harmed⟩]
    cases h : (s.lamp m).state <;> simp_all
  rw [hopen]
  split
  · exact State.strikeRequest_eq m s
  next hdark =>
    rw [LampRec.asked, if_neg fun h => hdark h.1]
    simp [State.lamp]

/-- A BURNING lamp brings the start and the scene, and then the loop switch is looked at. -/
theorem State.openingStep_burning_eq (hlamp : (s.lamp m).state = .burning) :
    s.openingStep (screenOf m)
      = (((s.giveStart m (if (s.screen (screenOf m)).startPending then .pending else .opening)).issueScene (screenOf m)
          (s.currentEntry (screenOf m))).loopCheck m) := by
  simp only [State.openingStep, hwait]
  rw [if_pos ⟨hstate, hgiven, harmed⟩]
  simp only [hlamp]
  rfl

end

/-! ### The start of an opening -/

/-- The start order as one change of the state (R5, R109). -/
theorem State.giveStart_eq (m : MachineId) (cause : MotorCause) (s : State) :
    s.giveStart m cause = { s with
      machines := s.machines.set m ((s.machine m).startedAt s.timebase)
      decoders := s.decoders.set m ((s.decoder m).follow (s.machine m) ((s.machine m).startedAt s.timebase))
      plan := s.plan.noteMachine m ((s.machine m).startedAt s.timebase).state
      screens := s.screens.set (screenOf m)
        { s.screen (screenOf m) with startGiven := true, startPending := false }
      line := s.line.report (.motor (screenOf m) m (s.waitedSlot (screenOf m)) cause) } := rfl

/-- The start and the scene of an opening, before the loop switch is looked at. -/
def State.openingStarted (m : MachineId) (cause : MotorCause) (s : State) : State :=
  (s.giveStart m cause).issueScene (screenOf m) (s.currentEntry (screenOf m))

section

variable (m : MachineId) (cause : MotorCause) (s : State)

theorem State.openingStarted_machine :
    (s.openingStarted m cause).machine m = (s.machine m).startedAt s.timebase := by
  rw [State.openingStarted, State.issueScene_eq, State.giveStart_eq]
  exact Quad.get_set_self _ _ _

theorem State.openingStarted_lamp : (s.openingStarted m cause).lamp m = s.lamp m := by
  rw [State.openingStarted, State.issueScene_eq]
  rfl

theorem State.openingStarted_screen : (s.openingStarted m cause).screen (screenOf m)
    = { s.screen (screenOf m) with startGiven := true, startPending := false } := by
  rw [State.openingStarted, State.issueScene_eq, State.giveStart_eq]
  exact Pair.get_set_self _ _ _

theorem State.openingStarted_line : (s.openingStarted m cause).line
    = s.line.report (.motor (screenOf m) m (s.waitedSlot (screenOf m)) cause) := by
  rw [State.openingStarted, State.issueScene_eq]
  rfl

theorem State.openingStarted_lights : (s.openingStarted m cause).lights
    = (s.issueScene (screenOf m) (s.currentEntry (screenOf m))).lights := by
  rw [State.openingStarted]
  exact State.issueScene_lights rfl

end

/-- What an opening's start leaves, by the loop switch: the machine STARTING, or BROKEN with start pending (R107, R11). -/
structure OpeningStarted (m : MachineId) (cause : MotorCause) (s t : State) : Prop where
  lamp : t.lamp m = s.lamp m
  lights : t.lights = (s.issueScene (screenOf m) (s.currentEntry (screenOf m))).lights
  closed : (s.machine m).loopSwitchClosed = true →
    t.machine m = (s.machine m).startedAt s.timebase
      ∧ t.screen (screenOf m) = { s.screen (screenOf m) with startGiven := true, startPending := false }
      ∧ t.line = s.line.report (.motor (screenOf m) m (s.screen (screenOf m)).current cause)
  opened : (s.machine m).loopSwitchClosed = false →
    t.machine m = (((s.machine m).startedAt s.timebase).enterBroken .loop).settleDouser
      ∧ t.screen (screenOf m) = { s.screen (screenOf m) with startGiven := false, startPending := true }
      ∧ t.line = (s.line.report (.motor (screenOf m) m (s.screen (screenOf m)).current cause)).report
          (.broke m .loop (s.machine m).frameCount)

theorem State.openingStep_burning {m : MachineId} {s : State} (hwait : s.waitedOn (screenOf m) = some m)
    (hstate : (s.screen (screenOf m)).state = .opening) (hgiven : (s.screen (screenOf m)).startGiven = false)
    (harmed : (s.machine m).state = .armed) (hlamp : (s.lamp m).state = .burning) :
    OpeningStarted m (if (s.screen (screenOf m)).startPending then .pending else .opening) s
      (s.openingStep (screenOf m)) := by
  rw [State.openingStep_burning_eq hwait hstate hgiven harmed hlamp]
  change OpeningStarted m _ s ((s.openingStarted m _).loopCheck m)
  generalize (if (s.screen (screenOf m)).startPending then MotorCause.pending else .opening) = cause
  have hmachine := State.openingStarted_machine m cause s
  have hslot : s.waitedSlot (screenOf m) = (s.screen (screenOf m)).current := if_pos hstate
  obtain ⟨hstarting, -, -, hloop, hcount⟩ := MachineRec.startedAt_fields (t := s.timebase) harmed
  cases hclosed : (s.machine m).loopSwitchClosed with
  | true =>
    rw [State.loopCheck_closed (by rw [hmachine, hloop, hclosed])]
    refine ⟨State.openingStarted_lamp m cause s, State.openingStarted_lights m cause s, fun _ => ⟨hmachine, ?_, ?_⟩,
      fun h => absurd (hclosed.symm.trans h) (by decide)⟩
    · exact State.openingStarted_screen m cause s
    · rw [State.openingStarted_line, hslot]
  | false =>
    rw [State.loopCheck_open (by rw [hmachine, hstarting]) (by rw [hmachine, hloop, hclosed])]
    refine ⟨State.openingStarted_lamp m cause s, State.openingStarted_lights m cause s,
      fun h => absurd (hclosed.symm.trans h) (by decide), fun _ => ⟨?_, ?_, ?_⟩⟩
    · change (State.breakMachine m .loop _).machine m = _
      rw [State.breakMachine_machine, hmachine]
    · have hscreen : ((s.openingStarted m cause).breakMachine m .loop).screen (screenOf m)
          = { s.screen (screenOf m) with startGiven := true, startPending := false } :=
        State.openingStarted_screen m cause s
      rw [State.successorLost, State.modScreen_screen, if_pos rfl, hscreen]
      simp [hstate]
    · change (State.breakMachine m .loop _).line = _
      rw [State.breakMachine, State.report_line, State.modMachine_line, State.openingStarted_line, hslot, hmachine, hcount]

end Sys2Proof.Machine

/-! The opening of a screen at a slot: what the evaluation there makes of the slot's machine, and the opening's step. -/

namespace Sys2Proof.Machine

open Sys2Proof Host

/-- A lamp that has been asked to strike is not changed by being asked again. -/
theorem LampRec.asked_asked (fireHeld : Bool) (l : LampRec) : (l.asked fireHeld).asked fireHeld = l.asked fireHeld := by
  by_cases h : l.state = .dark ∧ l.remaining ≠ 0 ∧ fireHeld = false
  · have hstriking : ¬ l.beginStrike.state = .dark := (by decide : ¬ LampState.striking = .dark)
    rw [LampRec.asked, if_neg fun g => ?_]
    rw [LampRec.asked, if_pos h] at g
    exact hstriking g.1
  · have hsame : l.asked fireHeld = l := if_neg h
    rw [hsame, hsame]

/-! ### The machine of an opening -/

/-- The machine waited on is ARMED in `t`, and nothing that its opening reads or writes has changed since `o`. -/
structure OpeningReady (m : MachineId) (o t : State) : Prop where
  armed : (t.machine m).state = .armed
  fire : (t.machine m).holds.fire = (o.machine m).holds.fire
  loop : (t.machine m).loopSwitchClosed = (o.machine m).loopSwitchClosed
  count : (t.machine m).frameCount = (o.machine m).frameCount
  lamp : t.lamp m = o.lamp m
  screen : t.screen (screenOf m) = o.screen (screenOf m)
  line : t.line = o.line
  lights : t.lights = o.lights
  slots : ∀ n, t.slot (screenOf m) n = o.slot (screenOf m) n

/-- The opening in `o` of an ARMED machine has gone as far as the lamp and the loop switch take it (R107, R11). -/
structure OpeningBegun (m : MachineId) (o t : State) : Prop where
  opening : (t.screen (screenOf m)).state = .opening
  current : (t.screen (screenOf m)).current = (o.screen (screenOf m)).current
  slots : ∀ n, t.slot (screenOf m) n = o.slot (screenOf m) n
  unlit : (o.lamp m).state ≠ .burning → t.screen (screenOf m) = o.screen (screenOf m) ∧ (t.machine m).state = .armed
    ∧ (t.machine m).holds.fire = (o.machine m).holds.fire ∧ t.line = o.line
    ∧ t.lamp m = (o.lamp m).asked (o.machine m).holds.fire
  closed : (o.lamp m).state = .burning → (o.machine m).loopSwitchClosed = true →
    (t.screen (screenOf m)).startGiven = true ∧ (t.screen (screenOf m)).startPending = false
    ∧ (t.machine m).state = .starting ∧ (t.machine m).motor = true
    ∧ t.line = o.line.report (.motor (screenOf m) m (o.screen (screenOf m)).current .opening)
    ∧ t.lights = (o.issueScene (screenOf m) (o.currentEntry (screenOf m))).lights
  opened : (o.lamp m).state = .burning → (o.machine m).loopSwitchClosed = false →
    (t.screen (screenOf m)).startGiven = false ∧ (t.screen (screenOf m)).startPending = true
    ∧ (t.machine m).state = .broken
    ∧ t.line = (o.line.report (.motor (screenOf m) m (o.screen (screenOf m)).current .opening)).report
        (.broke m .loop (o.machine m).frameCount)
    ∧ t.lights = (o.issueScene (screenOf m) (o.currentEntry (screenOf m))).lights

/-- The machine waited on is not ARMED in `t`, and its start was not given since `o`. -/
structure OpeningLapsed (m : MachineId) (o t : State) : Prop where
  unarmed : (t.machine m).state ≠ .armed
  unbroken : (o.machine m).state.judged = true → (t.machine m).state ≠ .broken
  given : (t.screen (screenOf m)).startGiven = false
  line : t.line = o.line

/-! ### The partner's posting -/

/-- A posting of another machine changes nothing that an opening of `m` reads. -/
structure PostedBeside (m : MachineId) (s t : State) : Prop where
  machine : t.machine m = s.machine m
  lamp : t.lamp m = s.lamp m
  screen : ∀ sc, t.screen sc = s.screen sc
  line : t.line = s.line
  lights : t.lights = s.lights
  fire : t.fire = s.fire
  slots : ∀ sc n, t.slot sc n = s.slot sc n
  posting : t.plan.lastPosting.get m = s.plan.lastPosting.get m

theorem PostedBeside.refl (m : MachineId) (s : State) : PostedBeside m s s :=
  ⟨rfl, rfl, fun _ => rfl, rfl, rfl, rfl, fun _ _ => rfl, rfl⟩

theorem PostedBeside.posted {m q : MachineId} (h : m ≠ q) (yes : Bool) (s : State) : PostedBeside m s (s.posted q yes) := by
  have hreach := StartsOnly.posted q yes s
  obtain ⟨hmachine, -, hlamp⟩ := hreach.others m h
  exact ⟨hmachine, hlamp, fun _ => rfl, rfl, rfl, rfl, hreach.slot, hreach.posting m h⟩

/-- The machine that a screen does not wait on is posted, and no more (R17, R107). -/
theorem State.evaluate_beside {m q : MachineId} (hmq : m ≠ q) {s : State}
    (hwait : s.waitedOn (screenOf q) ≠ some q) : PostedBeside m s (s.evaluate q) := by
  obtain ⟨e, -⟩ | ⟨-, e | e⟩ := s.evaluate_posted q
  · rw [e]
    exact .refl m s
  · rw [e, State.onArmed_idle (.inr (.inr (.inr (by rw [State.posted_waitedOn]; exact hwait))))]
    exact .posted hmq _ s
  · have hnot : (s.posted q (s.armedCondition q)).onDisarmed q = s.posted q (s.armedCondition q) := by
      unfold State.onDisarmed
      dsimp only
      rw [State.posted_waitedOn, if_neg fun h => hwait h.1]
    rw [e, hnot]
    exact .posted hmq _ s

theorem PostedBeside.waitedOn {m : MachineId} {s t : State} (h : PostedBeside m s t) (sc : ScreenId) :
    t.waitedOn sc = s.waitedOn sc := by
  simp only [State.waitedOn, State.successor, State.onDeck, State.showableAbove, h.screen, h.slots]

theorem PostedBeside.armedCondition {m : MachineId} {s t : State} (h : PostedBeside m s t) :
    t.armedCondition m = s.armedCondition m :=
  State.armedCondition_congr h.machine h.lamp (by rw [h.fire])
    (by simp only [State.nextSlot, State.onDeck, State.showableAbove, State.lowestShowable, h.screen, h.slots])

namespace OpeningReady

variable {m : MachineId} {o t u : State}

theorem beside (h : OpeningReady m o t) (k : PostedBeside m t u) : OpeningReady m o u where
  armed := by rw [k.machine]; exact h.armed
  fire := by rw [k.machine]; exact h.fire
  loop := by rw [k.machine]; exact h.loop
  count := by rw [k.machine]; exact h.count
  lamp := k.lamp.trans h.lamp
  screen := (k.screen _).trans h.screen
  line := k.line.trans h.line
  lights := k.lights.trans h.lights
  slots n := (k.slots _ n).trans (h.slots n)

theorem waitedOn (h : OpeningReady m o t) (hstate : (o.screen (screenOf m)).state = .opening) :
    t.waitedOn (screenOf m) = o.waitedOn (screenOf m) := by
  simp only [State.waitedOn, h.screen, hstate, if_true, h.slots]

theorem begins (h : OpeningReady m o t) (hstate : (o.screen (screenOf m)).state = .opening)
    (hgiven : (o.screen (screenOf m)).startGiven = false) (hpending : (o.screen (screenOf m)).startPending = false)
    (hwait : o.waitedOn (screenOf m) = some m) : OpeningBegun m o (t.openingStep (screenOf m)) := by
  have hreach : StartsOnly m t (t.openingStep (screenOf m)) :=
    StartsOnly.openingStep ((h.waitedOn hstate).trans hwait)
  have hwait' := (h.waitedOn hstate).trans hwait
  have hstate' : (t.screen (screenOf m)).state = .opening := by rw [h.screen]; exact hstate
  have hgiven' : (t.screen (screenOf m)).startGiven = false := by rw [h.screen]; exact hgiven
  have hcurrent : ((t.openingStep (screenOf m)).screen (screenOf m)).current = (o.screen (screenOf m)).current := by
    rw [hreach.screen, h.screen]
  have hentry : t.currentEntry (screenOf m) = o.currentEntry (screenOf m) := by
    simp only [State.currentEntry, h.screen, h.slots]
  by_cases hlamp : (t.lamp m).state = .burning
  · have hstarted := State.openingStep_burning hwait' hstate' hgiven' h.armed hlamp
    have hcause : (if (t.screen (screenOf m)).startPending then MotorCause.pending else .opening) = .opening := by
      rw [h.screen, hpending]; rfl
    rw [hcause] at hstarted
    have hlights := hstarted.lights
    rw [hentry, State.issueScene_lights h.lights] at hlights
    refine ⟨?_, hcurrent, fun n => (hreach.slot _ n).trans (h.slots n), fun hunlit => ?_, fun _ hclosed => ?_,
      fun _ hopen => ?_⟩
    · cases hloop : (t.machine m).loopSwitchClosed with
      | true =>
        obtain ⟨-, hscreen, -⟩ := hstarted.closed hloop
        rw [hscreen]; exact hstate'
      | false =>
        obtain ⟨-, hscreen, -⟩ := hstarted.opened hloop
        rw [hscreen]; exact hstate'
    · rw [h.lamp] at hlamp
      exact absurd hlamp hunlit
    · obtain ⟨hmachine, hscreen, hline⟩ := hstarted.closed (h.loop.trans hclosed)
      obtain ⟨hstarting, hmotor, -⟩ := MachineRec.startedAt_fields (t := t.timebase) h.armed
      rw [hscreen, hmachine]
      refine ⟨rfl, rfl, hstarting, hmotor, ?_, hlights⟩
      rw [hline, h.line, h.screen]
    · obtain ⟨hmachine, hscreen, hline⟩ := hstarted.opened (h.loop.trans hopen)
      rw [hscreen, hmachine]
      refine ⟨rfl, rfl, (MachineRec.brokenNow_fields .loop _).1, ?_, hlights⟩
      rw [hline, h.line, h.screen, h.count]
  · have hunlit := State.openingStep_unlit hwait' hstate' hgiven' h.armed hlamp
    have hlampO : (o.lamp m).state ≠ .burning := by rw [← h.lamp]; exact hlamp
    refine ⟨?_, hcurrent, fun n => (hreach.slot _ n).trans (h.slots n), fun _ => ?_, fun hburning => absurd hburning hlampO,
      fun hburning => absurd hburning hlampO⟩
    · rw [hunlit]; exact hstate'
    · rw [hunlit]
      refine ⟨h.screen, h.armed, h.fire, h.line, ?_⟩
      rw [← h.lamp, ← h.fire]
      exact Quad.get_set_self _ _ _

end OpeningReady

namespace OpeningBegun

variable {m : MachineId} {o t u : State}

theorem beside (h : OpeningBegun m o t) (k : PostedBeside m t u) : OpeningBegun m o u where
  opening := by rw [k.screen]; exact h.opening
  current := by rw [k.screen]; exact h.current
  slots n := (k.slots _ n).trans (h.slots n)
  unlit := by rw [k.screen, k.machine, k.line, k.lamp]; exact h.unlit
  closed := by rw [k.screen, k.machine, k.line, k.lights]; exact h.closed
  opened := by rw [k.screen, k.machine, k.line, k.lights]; exact h.opened

theorem waitedOn (h : OpeningBegun m o t) (hstate : (o.screen (screenOf m)).state = .opening) :
    t.waitedOn (screenOf m) = o.waitedOn (screenOf m) := by
  simp only [State.waitedOn, h.opening, h.current, hstate, if_true, h.slots]


/-- The step of an opening that has begun does nothing more. -/
theorem again (h : OpeningBegun m o t) (hstate : (o.screen (screenOf m)).state = .opening)
    (hgiven : (o.screen (screenOf m)).startGiven = false) (hwait : o.waitedOn (screenOf m) = some m) :
    OpeningBegun m o (t.openingStep (screenOf m)) := by
  have hwait' := (h.waitedOn hstate).trans hwait
  by_cases hlamp : (o.lamp m).state = .burning
  · have hwaits : (t.screen (screenOf m)).startGiven = true ∨ (t.machine m).state ≠ .armed := by
      cases hloop : (o.machine m).loopSwitchClosed with
      | true => exact .inl (h.closed hlamp hloop).1
      | false =>
        obtain ⟨-, -, hbroken, -⟩ := h.opened hlamp hloop
        exact .inr (by rw [hbroken]; decide)
    rw [State.openingStep_waits hwait' hwaits]
    exact h
  · obtain ⟨hscreen, harmed, hfire, hline, hasked⟩ := h.unlit hlamp
    have hnot : (t.lamp m).state ≠ .burning := by
      rw [hasked]
      unfold LampRec.asked
      split
      · exact (by decide : LampState.striking ≠ .burning)
      · exact hlamp
    rw [State.openingStep_unlit hwait' h.opening (by rw [hscreen]; exact hgiven) harmed hnot]
    refine ⟨h.opening, h.current, h.slots, fun _ => ⟨hscreen, harmed, hfire, hline, ?_⟩, fun hburning => absurd hburning hlamp,
      fun hburning => absurd hburning hlamp⟩
    refine (Quad.get_set_self _ _ _).trans ?_
    rw [hasked, hfire]
    exact LampRec.asked_asked _ _

end OpeningBegun

theorem OpeningLapsed.beside {m : MachineId} {o t u : State} (h : OpeningLapsed m o t) (k : PostedBeside m t u) :
    OpeningLapsed m o u where
  unarmed := by rw [k.machine]; exact h.unarmed
  unbroken := by rw [k.machine]; exact h.unbroken
  given := by rw [k.screen]; exact h.given
  line := k.line.trans h.line

theorem State.onDisarmed_keeps (m : MachineId) (s : State) :
    (s.onDisarmed m).machine m = s.machine m
      ∧ ((s.onDisarmed m).screen (screenOf m)).startGiven = (s.screen (screenOf m)).startGiven
      ∧ (s.onDisarmed m).line = s.line := by
  have hcases : s.onDisarmed m = s ∨ s.onDisarmed m = s.modScreen (screenOf m) fun x => { x with startPending := true } := by
    unfold State.onDisarmed
    dsimp only
    split
    · exact .inr rfl
    · exact .inl rfl
  obtain e | e := hcases <;> rw [e]
  · exact ⟨rfl, rfl, rfl⟩
  · exact ⟨rfl, by rw [State.modScreen_screen, if_pos rfl], rfl⟩

/-! ### The evaluation of the machine waited on -/

/-- The evaluation at an opening finds the machine ARMED, or leaves or makes it so (R99, R106). -/
def State.FoundArmed (o : State) (m : MachineId) : Prop :=
  ((o.machine m).state = .threaded ∨ (o.machine m).state = .armed)
    ∧ if o.armedCondition m = o.plan.lastPosting.get m then (o.machine m).state = .armed else o.armedCondition m = true

section

variable {m : MachineId} {o w : State} (hstate : (o.screen (screenOf m)).state = .opening)
  (hgiven : (o.screen (screenOf m)).startGiven = false) (hpending : (o.screen (screenOf m)).startPending = false)
  (hwait : o.waitedOn (screenOf m) = some m) (hbeside : PostedBeside m o w)
include hstate hgiven hpending hwait hbeside

theorem State.evaluate_found (hfound : o.FoundArmed m) :
    OpeningReady m o (w.evaluate m) ∨ OpeningBegun m o (w.evaluate m) := by
  obtain ⟨hjudgedO, hresult⟩ := hfound
  have hjudged : (w.machine m).state.judged = true := by
    rw [hbeside.machine]
    obtain h | h := hjudgedO <;> rw [h] <;> rfl
  rw [← hbeside.armedCondition, ← hbeside.posting, ← hbeside.machine] at hresult
  split at hresult
  next hsettled =>
    rw [State.evaluate_settled hsettled]
    exact .inl ⟨hresult, by rw [hbeside.machine], by rw [hbeside.machine], by rw [hbeside.machine], hbeside.lamp,
      hbeside.screen _, hbeside.line, hbeside.lights, hbeside.slots _⟩
  next hnew =>
    have hready : OpeningReady m o (w.posted m true) := by
      have hmachine : (w.posted m true).machine m = ((w.machine m).takePosting true).settleDouser := by
        rw [State.posted_machine, if_pos rfl]
      refine ⟨?_, ?_, ?_, ?_, hbeside.lamp, hbeside.screen _, hbeside.line, hbeside.lights, fun n => ?_⟩
      · rw [hmachine, MachineRec.settleDouser_state, MachineRec.takePosting_state true hjudged]
        rfl
      · rw [hmachine, ← hbeside.machine]; rfl
      · rw [hmachine, ← hbeside.machine]; rfl
      · rw [hmachine, ← hbeside.machine]; rfl
      · exact ((StartsOnly.posted m true w).slot _ n).trans (hbeside.slots _ n)
    have hevaluate : w.evaluate m = (w.posted m true).onArmed m := by
      have hlast : w.plan.lastPosting.get m = false := by
        rw [hresult] at hnew
        simpa using Ne.symm hnew
      simp [State.evaluate, hjudged, hresult, hlast, State.posted]
    rw [hevaluate, State.onArmed_opening ((hready.waitedOn hstate).trans hwait) (by rw [hready.screen]; exact hstate)]
    exact .inr (hready.begins hstate hgiven hpending hwait)

theorem State.evaluate_lapsed (hnot : ¬ o.FoundArmed m) : OpeningLapsed m o (w.evaluate m) := by
  have hjudgedO : (o.machine m).state.judged = true ↔ (o.machine m).state = .threaded ∨ (o.machine m).state = .armed := by
    cases (o.machine m).state <;> decide
  have hgivenW : (w.screen (screenOf m)).startGiven = false := by rw [hbeside.screen]; exact hgiven
  obtain ⟨e, hsettled⟩ | ⟨hjudged, hyes, hlast, -⟩ | ⟨hjudged, -, -, e⟩ := w.evaluate_cases m
  · rw [e]
    rw [hbeside.armedCondition, hbeside.posting, hbeside.machine] at hsettled
    refine ⟨fun harmed => ?_, fun hjudged hbroken => ?_, hgivenW, hbeside.line⟩
    · rw [hbeside.machine] at harmed
      refine hnot ⟨.inr harmed, ?_⟩
      obtain hunjudged | hsettled := hsettled
      · rw [harmed] at hunjudged
        exact absurd hunjudged (by decide)
      · rw [if_pos hsettled]
        exact harmed
    · rw [hbeside.machine] at hbroken
      rw [hbroken] at hjudged
      exact absurd hjudged (by decide)
  · rw [hbeside.machine] at hjudged
    rw [hbeside.armedCondition] at hyes
    rw [hbeside.posting] at hlast
    refine absurd ⟨hjudgedO.1 hjudged, ?_⟩ hnot
    rw [hyes, hlast]
    exact rfl
  · have hthreaded : ((w.posted m false).machine m).state = .threaded := by
      rw [State.posted_machine, if_pos rfl, MachineRec.settleDouser_state, MachineRec.takePosting_state false hjudged]
      rfl
    have hleft : ((w.evaluate m).machine m).state = .threaded ∧ ((w.evaluate m).screen (screenOf m)).startGiven = false
        ∧ (w.evaluate m).line = o.line := by
      rw [e]
      change (((w.posted m false).onDisarmed m).machine m).state = _ ∧ _
      obtain ⟨hmachine, hgivenSame, hlineSame⟩ := (w.posted m false).onDisarmed_keeps m
      exact ⟨by rw [hmachine, hthreaded], hgivenSame.trans hgivenW, hlineSame.trans hbeside.line⟩
    obtain ⟨hstateNow, hgivenNow, hline⟩ := hleft
    exact ⟨by rw [hstateNow]; decide, fun _ => by rw [hstateNow]; decide, hgivenNow, hline⟩

end

/-! ### The evaluation of both machines of the screen -/

/-- The machines of a screen are evaluated one after the other, the lower first. -/
theorem State.evaluateScreen_pair (m : MachineId) (s : State) :
    s.evaluateScreen (screenOf m) = (s.evaluate m).evaluate (partnerOf m)
      ∨ s.evaluateScreen (screenOf m) = (s.evaluate (partnerOf m)).evaluate m := by
  cases m with
  | m1 | m3 => exact .inl rfl
  | m2 | m4 => exact .inr rfl

section

variable {m : MachineId} {o : State} (hstate : (o.screen (screenOf m)).state = .opening)
  (hgiven : (o.screen (screenOf m)).startGiven = false) (hpending : (o.screen (screenOf m)).startPending = false)
  (hwait : o.waitedOn (screenOf m) = some m)
include hstate hwait

/-- In OPENING the partner of the machine waited on is posted and no more, before that machine or after it. -/
theorem State.evaluatePartner_beside {t : State} (hopening : (t.screen (screenOf m)).state = .opening)
    (hwaits : t.waitedOn (screenOf m) = o.waitedOn (screenOf m)) : PostedBeside m t (t.evaluate (partnerOf m)) := by
  refine State.evaluate_beside (partnerOf_ne m).symm ?_
  rw [screenOf_partnerOf, hwaits, hwait]
  exact fun h => partnerOf_ne m (Option.some.inj h).symm

include hgiven hpending

theorem State.evaluateScreen_found (hfound : o.FoundArmed m) :
    OpeningReady m o (o.evaluateScreen (screenOf m)) ∨ OpeningBegun m o (o.evaluateScreen (screenOf m)) := by
  obtain e | e := o.evaluateScreen_pair m
  · rw [e]
    obtain h | h := State.evaluate_found hstate hgiven hpending hwait (.refl m o) hfound
    · exact .inl (h.beside (State.evaluatePartner_beside hstate hwait (by rw [h.screen]; exact hstate) (h.waitedOn hstate)))
    · exact .inr (h.beside (State.evaluatePartner_beside hstate hwait h.opening (h.waitedOn hstate)))
  · rw [e]
    exact State.evaluate_found hstate hgiven hpending hwait (State.evaluatePartner_beside hstate hwait hstate rfl) hfound

theorem State.evaluateScreen_lapsed (hnot : ¬ o.FoundArmed m) :
    OpeningLapsed m o (o.evaluateScreen (screenOf m)) := by
  obtain e | e := o.evaluateScreen_pair m
  · rw [e]
    have hlapsed := State.evaluate_lapsed hstate hgiven hpending hwait (.refl m o) hnot
    have hopening : ((o.evaluate m).screen (screenOf m)).state = .opening := State.evaluate_opening m hstate
    refine hlapsed.beside (State.evaluatePartner_beside hstate hwait hopening ?_)
    exact (StartsOnly.evaluate.waitedOn (hopening.trans hstate.symm) _).1
  · rw [e]
    exact State.evaluate_lapsed hstate hgiven hpending hwait (State.evaluatePartner_beside hstate hwait hstate rfl) hnot

end

end Sys2Proof.Machine

/-! A screen that opens a slot: what START, RESUME, an interval's end and SHOWAT share. -/

namespace Sys2Proof.Machine

open Sys2Proof Host

/-! ### The record of an opening screen -/

/-- Only the start flags differ. -/
def ScreenRec.FlagsOnly (x y : ScreenRec) : Prop := y = { x with startGiven := y.startGiven, startPending := y.startPending }

theorem ScreenRec.FlagsOnly.refl (x : ScreenRec) : ScreenRec.FlagsOnly x x := rfl

theorem ScreenRec.FlagsOnly.trans {x y z : ScreenRec} (h : ScreenRec.FlagsOnly x y) (k : ScreenRec.FlagsOnly y z) :
    ScreenRec.FlagsOnly x z := by
  unfold ScreenRec.FlagsOnly at h k ⊢
  rw [h] at k
  exact k

theorem StartsOnly.flagsOnly {m : MachineId} {s t : State} (h : StartsOnly m s t)
    (hstate : (t.screen (screenOf m)).state = (s.screen (screenOf m)).state) :
    ScreenRec.FlagsOnly (s.screen (screenOf m)) (t.screen (screenOf m)) := by
  have hscreen := h.screen
  rw [hstate] at hscreen
  exact hscreen

theorem State.evaluate_flags (j : MachineId) {s : State} (h : (s.screen (screenOf j)).state = .opening) :
    ScreenRec.FlagsOnly (s.screen (screenOf j)) ((s.evaluate j).screen (screenOf j)) :=
  StartsOnly.evaluate.flagsOnly ((State.evaluate_opening j h).trans h.symm)

theorem State.evaluateScreen_flags {sc : ScreenId} {s : State} (h : (s.screen sc).state = .opening) :
    ScreenRec.FlagsOnly (s.screen sc) ((s.evaluateScreen sc).screen sc) := by
  have hlower := State.evaluate_flags (lowerOf sc) (s := s) (by rwa [screenOf_lowerOf])
  have hopening := State.evaluate_opening (lowerOf sc) (s := s) (by rwa [screenOf_lowerOf])
  rw [screenOf_lowerOf] at hlower hopening
  have hupper := State.evaluate_flags (upperOf sc) (s := s.evaluate (lowerOf sc)) (by rwa [screenOf_upperOf])
  rw [screenOf_upperOf] at hupper
  exact hlower.trans hupper

/-- The start of a machine of the other screen leaves this screen's record. -/
theorem State.openingStep_beside {sc : ScreenId} {m : MachineId} {s : State} (hwait : s.waitedOn sc = some m)
    (hne : screenOf m ≠ sc) : (s.openingStep sc).screen sc = s.screen sc := by
  have hreach : ∀ t : State, StartsOnly m s t → t.screen sc = s.screen sc := fun t h => h.screens sc hne.symm
  have hissued : ∀ (cause : MotorCause) (e : Option SlotEntry),
      (((s.giveStart m cause).issueScene sc e).loopCheck m).screen sc = s.screen sc := fun cause e => by
    have hloop : StartsOnly m ((s.giveStart m cause).issueScene sc e)
        (((s.giveStart m cause).issueScene sc e).loopCheck m) := StartsOnly.loopCheck
    rw [hloop.screens sc hne.symm, State.issueScene_eq]
    exact (StartsOnly.giveStart cause).screens sc hne.symm
  simp only [State.openingStep, hwait]
  split
  · cases (s.lamp m).state with
    | dark => exact hreach _ StartsOnly.strikeRequest
    | burning => exact hissued _ (s.currentEntry sc)
    | striking | fault | exhausted => rfl
  · rfl

theorem State.openingStep_flags {sc : ScreenId} {s : State} (h : (s.screen sc).state = .opening) :
    ScreenRec.FlagsOnly (s.screen sc) ((s.openingStep sc).screen sc) := by
  cases hwait : s.waitedOn sc with
  | none =>
    have hsame : s.openingStep sc = s := by simp only [State.openingStep, hwait]
    rw [hsame]
    exact .refl _
  | some m =>
    by_cases hne : screenOf m = sc
    · subst hne
      exact (StartsOnly.openingStep hwait).flagsOnly ((State.openingStep_opening _ h).trans h.symm)
    · rw [State.openingStep_beside hwait hne]
      exact .refl _

/-! ### Opening a slot -/

/-- The state in which a screen has entered OPENING at a slot. -/
def State.openedAt (sc : ScreenId) (n : SlotIx) (s : State) : State := s.modScreen sc (ScreenRec.enterOpening n)

theorem State.openedAt_screen (sc : ScreenId) (n : SlotIx) (s : State) :
    (s.openedAt sc n).screen sc = (s.screen sc).enterOpening n := by
  rw [State.openedAt, State.modScreen_screen, if_pos rfl]

theorem State.openedAt_waitedOn (sc : ScreenId) (n : SlotIx) (s : State) :
    (s.openedAt sc n).waitedOn sc = (s.slot sc n).machine? := by
  simp only [State.waitedOn, State.openedAt_screen]
  rfl

theorem State.openSlot_answer (sc : ScreenId) (n : SlotIx) (s : State) :
    s.openSlot sc n = if s.armedFor ((s.openedAt sc n).evaluateScreen sc) sc n
      then (((s.openedAt sc n).evaluateScreen sc).openingStep sc, false)
      else (((s.openedAt sc n).evaluateScreen sc).modScreen sc fun x => { x with startPending := true }, true) := rfl

/-- However the opening goes, the screen is OPENING at its slot (R106). -/
theorem State.openSlot_screen (sc : ScreenId) (n : SlotIx) (s : State) :
    ScreenRec.FlagsOnly ((s.screen sc).enterOpening n) ((s.openSlot sc n).1.screen sc) := by
  have hopened := s.openedAt_screen sc n
  have hopening : ((s.openedAt sc n).screen sc).state = .opening := by rw [hopened]; rfl
  have hevaluated := State.evaluateScreen_flags hopening
  have hopening' := State.evaluateScreen_opening sc hopening
  rw [hopened] at hevaluated
  rw [State.openSlot_answer]
  split
  · exact hevaluated.trans (State.openingStep_flags hopening')
  · refine hevaluated.trans ?_
    rw [State.modScreen_screen, if_pos rfl]
    rfl

theorem State.openSlot_frame (sc : ScreenId) (n : SlotIx) (s : State) : ShowFrame s (s.openSlot sc n).1 :=
  (Reactions.openSlot sc n (.refl' s)).frame

/-- Where the slot's machine is not found ARMED, start pending is set and the line has nothing new (R106). -/
structure OpeningPends (sc : ScreenId) (s : State) (x : State × Bool) : Prop where
  answer : x.2 = true
  pending : (x.1.screen sc).startPending = true
  given : (x.1.screen sc).startGiven = false
  line : x.1.line = s.line

theorem State.openSlot_pends_of {sc : ScreenId} {n : SlotIx} {s : State}
    (hnot : s.armedFor ((s.openedAt sc n).evaluateScreen sc) sc n = false)
    (hgiven : (((s.openedAt sc n).evaluateScreen sc).screen sc).startGiven = false)
    (hline : ((s.openedAt sc n).evaluateScreen sc).line = s.line) : OpeningPends sc s (s.openSlot sc n) := by
  rw [State.openSlot_answer, if_neg (by simp [hnot])]
  refine ⟨rfl, ?_, ?_, hline⟩ <;> rw [State.modScreen_screen, if_pos rfl]
  exact hgiven

/-- With no machine in the slot both machines of the screen are posted, and no more. -/
theorem State.openSlot_unbound {sc : ScreenId} {n : SlotIx} {s : State} (h : (s.slot sc n).machine? = none) :
    OpeningPends sc s (s.openSlot sc n) := by
  have hnone : (s.openedAt sc n).waitedOn sc = none := (s.openedAt_waitedOn sc n).trans h
  have hlower : PostedBeside (partnerOf (lowerOf sc)) (s.openedAt sc n) ((s.openedAt sc n).evaluate (lowerOf sc)) :=
    State.evaluate_beside (partnerOf_ne _) (by rw [screenOf_lowerOf, hnone]; exact nofun)
  have hupper : PostedBeside (partnerOf (upperOf sc)) ((s.openedAt sc n).evaluate (lowerOf sc))
      ((s.openedAt sc n).evaluateScreen sc) :=
    State.evaluate_beside (partnerOf_ne _) (by rw [screenOf_upperOf, hlower.waitedOn, hnone]; exact nofun)
  have hslot : ((s.openedAt sc n).evaluateScreen sc).slot sc n = s.slot sc n :=
    (hupper.slots sc n).trans (hlower.slots sc n)
  have hscreen : ((s.openedAt sc n).evaluateScreen sc).screen sc = (s.screen sc).enterOpening n :=
    ((hupper.screen sc).trans (hlower.screen sc)).trans (s.openedAt_screen sc n)
  refine State.openSlot_pends_of ?_ ?_ (hupper.line.trans hlower.line)
  · simp only [State.armedFor, hslot, h]
  · rw [hscreen]
    rfl

/-- An opening answered PENDING has start pending set and no start given. -/
theorem State.openSlot_pending {sc : ScreenId} {n : SlotIx} {s : State} (h : (s.openSlot sc n).2 = true) :
    ((s.openSlot sc n).1.screen sc).startPending = true ∧ ((s.openSlot sc n).1.screen sc).startGiven = false := by
  cases hbound : (s.slot sc n).machine? with
  | none => exact ⟨(State.openSlot_unbound hbound).pending, (State.openSlot_unbound hbound).given⟩
  | some m =>
    rw [State.openSlot_answer] at h ⊢
    split at h
    · exact absurd h (by simp)
    next hnot =>
      have hslot := (State.evaluateScreen_only sc (s.openedAt sc n)).1 sc n
      have hslot' : ((s.openedAt sc n).evaluateScreen sc).slot sc n = s.slot sc n := hslot
      have hgiven : (((s.openedAt sc n).evaluateScreen sc).screen sc).startGiven = false := by
        simp only [State.armedFor, hslot', hbound] at hnot
        simp only [Bool.or_eq_true, not_or, Bool.not_eq_true] at hnot
        exact hnot.1.2
      rw [if_neg hnot, State.modScreen_screen, if_pos rfl]
      exact ⟨rfl, hgiven⟩

section

variable {m : MachineId} {n : SlotIx} {s : State} (hbound : (s.slot (screenOf m) n).machine? = some m)
include hbound

theorem State.openedAt_ready : (((s.openedAt (screenOf m) n).screen (screenOf m)).state = .opening)
    ∧ ((s.openedAt (screenOf m) n).screen (screenOf m)).startGiven = false
    ∧ ((s.openedAt (screenOf m) n).screen (screenOf m)).startPending = false
    ∧ (s.openedAt (screenOf m) n).waitedOn (screenOf m) = some m := by
  rw [State.openedAt_screen]
  exact ⟨rfl, rfl, rfl, (s.openedAt_waitedOn _ n).trans hbound⟩

theorem State.openSlot_lapsed (hnot : ¬ s.foundArmed (screenOf m) n m) :
    OpeningPends (screenOf m) s (s.openSlot (screenOf m) n) := by
  obtain ⟨hstate, hgiven, hpending, hwait⟩ := State.openedAt_ready hbound
  have hlapsed : OpeningLapsed m (s.openedAt (screenOf m) n) _ :=
    State.evaluateScreen_lapsed hstate hgiven hpending hwait hnot
  have hslot := (State.evaluateScreen_only (screenOf m) (s.openedAt (screenOf m) n)).1 (screenOf m) n
  have hslot' : ((s.openedAt (screenOf m) n).evaluateScreen (screenOf m)).slot (screenOf m) n
      = s.slot (screenOf m) n := hslot
  refine State.openSlot_pends_of ?_ hlapsed.given hlapsed.line
  have hunbroken := hlapsed.unbroken
  simp only [State.armedFor, hslot', hbound, hlapsed.given]
  simp only [Bool.or_false, Bool.or_eq_false_iff, beq_eq_false_iff_ne, Bool.and_eq_false_iff]
  refine ⟨hlapsed.unarmed, ?_⟩
  cases hjudged : (s.machine m).state.judged with
  | false => exact .inl rfl
  | true => exact .inr (hunbroken hjudged)

/-- Where the slot's machine is found ARMED the opening begins with it at once (R106, R107). -/
theorem State.openSlot_found (hfound : s.foundArmed (screenOf m) n m) :
    (s.openSlot (screenOf m) n).2 = false
      ∧ OpeningBegun m (s.openedAt (screenOf m) n) (s.openSlot (screenOf m) n).1 := by
  obtain ⟨hstate, hgiven, hpending, hwait⟩ := State.openedAt_ready hbound
  have hslot := (State.evaluateScreen_only (screenOf m) (s.openedAt (screenOf m) n)).1 (screenOf m) n
  have hslot' : ((s.openedAt (screenOf m) n).evaluateScreen (screenOf m)).slot (screenOf m) n
      = s.slot (screenOf m) n := hslot
  have hjudged : (s.machine m).state.judged = true := by
    obtain ⟨h | h, -⟩ := hfound <;> rw [h] <;> rfl
  obtain hready | hbegun := State.evaluateScreen_found hstate hgiven hpending hwait hfound
  · have harmed : s.armedFor ((s.openedAt (screenOf m) n).evaluateScreen (screenOf m)) (screenOf m) n = true := by
      simp [State.armedFor, hslot', hbound, hready.armed]
    rw [State.openSlot_answer, if_pos harmed]
    exact ⟨rfl, hready.begins hstate hgiven hpending hwait⟩
  · have harmed : s.armedFor ((s.openedAt (screenOf m) n).evaluateScreen (screenOf m)) (screenOf m) n = true := by
      simp only [State.armedFor, hslot', hbound]
      by_cases hlamp : ((s.openedAt (screenOf m) n).lamp m).state = .burning
      · cases hloop : ((s.openedAt (screenOf m) n).machine m).loopSwitchClosed with
        | true => simp [(hbegun.closed hlamp hloop).1]
        | false =>
          obtain ⟨-, -, hbroken, -⟩ := hbegun.opened hlamp hloop
          simp [hbroken, hjudged]
      · obtain ⟨-, harmed, -⟩ := hbegun.unlit hlamp
        simp [harmed]
    rw [State.openSlot_answer, if_pos harmed]
    exact ⟨rfl, hbegun.again hstate hgiven hwait⟩

/-- What the opening with a machine found ARMED leaves, by its lamp and its loop switch. -/
theorem State.openSlot_told (hfound : s.foundArmed (screenOf m) n m) :
    let u := (s.openSlot (screenOf m) n).1
    ((s.lamp m).state ≠ .burning → (u.screen (screenOf m)).startPending = false
        ∧ (u.screen (screenOf m)).startGiven = false ∧ (u.machine m).state = .armed ∧ u.line = s.line
        ∧ u.lamp m = (s.lamp m).asked (s.machine m).holds.fire)
      ∧ ((s.lamp m).state = .burning → (s.machine m).loopSwitchClosed = true →
        (u.screen (screenOf m)).startPending = false ∧ (u.screen (screenOf m)).startGiven = true
          ∧ (u.machine m).state = .starting ∧ (u.machine m).motor = true ∧ s.sceneIssued u (screenOf m) n
          ∧ u.line = s.line.report (.motor (screenOf m) m (some n) .opening))
      ∧ ((s.lamp m).state = .burning → (s.machine m).loopSwitchClosed = false →
        (u.screen (screenOf m)).startPending = true ∧ (u.screen (screenOf m)).startGiven = false
          ∧ (u.machine m).state = .broken ∧ s.sceneIssued u (screenOf m) n
          ∧ u.line = (s.line.report (.motor (screenOf m) m (some n) .opening)).report
              (.broke m .loop (s.machine m).frameCount)) := by
  have hopened := s.openedAt_screen (screenOf m) n
  have hcurrent : ((s.openedAt (screenOf m) n).screen (screenOf m)).current = some n := by rw [hopened]; rfl
  have hentry : (s.openedAt (screenOf m) n).currentEntry (screenOf m) = (s.slot (screenOf m) n).entry := by
    simp only [State.currentEntry, hcurrent]
    rfl
  have hbegun := (State.openSlot_found hbound hfound).2
  have hscene : ∀ {u : State}, u.lights = ((s.openedAt (screenOf m) n).issueScene (screenOf m)
      ((s.openedAt (screenOf m) n).currentEntry (screenOf m))).lights → s.sceneIssued u (screenOf m) n := by
    intro u hlights
    refine State.issueScene_sceneIssued fun c => ?_
    rw [hentry] at hlights
    simp only [State.circuit, hlights]
    rw [State.issueScene_lights (s := s) (t := s.openedAt (screenOf m) n) rfl]
  refine ⟨fun hlamp => ?_, fun hlamp hloop => ?_, fun hlamp hloop => ?_⟩
  · obtain ⟨hscreen, harmed, -, hline, hasked⟩ := hbegun.unlit hlamp
    rw [hscreen, hopened]
    exact ⟨rfl, rfl, harmed, hline, hasked⟩
  · obtain ⟨hgiven, hpending, hstarting, hmotor, hline, hlights⟩ := hbegun.closed hlamp hloop
    rw [hcurrent] at hline
    exact ⟨hpending, hgiven, hstarting, hmotor, hscene hlights, hline⟩
  · obtain ⟨hgiven, hpending, hbroken, hline, hlights⟩ := hbegun.opened hlamp hloop
    rw [hcurrent] at hline
    exact ⟨hpending, hgiven, hbroken, hscene hlights, hline⟩

end

end Sys2Proof.Machine

/-! START and its tests. -/

namespace Sys2Proof.Machine

open Sys2Proof Host

/-! ### START's operands and tests -/

section

variable {s : State} {sc : ScreenId} {n : SlotIx} {a b : Text} (hsc : s.namesScreen a sc)
include hsc

theorem startOperands_screen : startOperands s [a] = .ok (sc, none) := by
  obtain ⟨i, hi, hscreen⟩ := screenOperand_of_namesScreen hsc
  simp [startOperands, hi, hscreen]

theorem startOperands_slot (hn : namesSlot b n) : startOperands s [a, b] = .ok (sc, some n) := by
  obtain ⟨i, hi, hscreen⟩ := screenOperand_of_namesScreen hsc
  obtain ⟨j, hj, hslot⟩ := slotOperand_of_namesSlot hn
  simp [startOperands, hi, hj, hscreen, hslot]

end

theorem startStateTest_busy {st : ScreenState} (named : Bool) (hidle : st ≠ .idle) (hhalted : st ≠ .halted) :
    startStateTest st named = .error .state := by
  cases st <;> simp_all [startStateTest]

/-- The lowest LOADED or BOUND slot. -/
theorem State.lowestShowable_eq {s : State} {sc : ScreenId} {n : SlotIx}
    (h : (s.slot sc n).status.showable = true ∧ ∀ j, j < n → (s.slot sc j).status.showable = false) :
    s.lowestShowable sc = some n := by
  unfold State.lowestShowable
  exact find_lowest h.1 h.2

theorem State.lowestShowable_none {s : State} {sc : ScreenId} (h : ∀ j, (s.slot sc j).status.showable = false) :
    s.lowestShowable sc = none := by
  unfold State.lowestShowable
  exact List.find?_eq_none.2 fun j _ => by simp [h j]

/-! ### START taken -/

theorem exec_start_ok {s : State} {w : List Text} {sc : ScreenId} {n : SlotIx} (hp : s.powered = true)
    (h : parseStart s w = .ok (sc, n)) :
    exec (.start w) s = .next (((s.taken (.start w)).openSlot sc n).1.answer
      (.ok (if ((s.taken (.start w)).openSlot sc n).2 then [txt "PENDING"] else []))) := by
  have hparse : parseStart (s.taken (.start w)) w = .ok (sc, n) := h
  change execStart w s = _
  simp only [execStart, State.takeCommand_of_powered hp, hparse]

/-- A slot that is not BOUND has no machine. -/
theorem Slot.machine_none {x : Slot} (h : x.status ≠ .bound) : x.machine? = none := if_neg h

theorem Slot.machine_bound {x : Slot} {m : MachineId} (hstatus : x.status = .bound) (hbound : x.bound = some m) :
    x.machine? = some m := by rw [Slot.machine?, if_pos hstatus, hbound]

/-- Settles O37: the opening by what the slot's machine is found to be, and the tests in their order. -/
theorem startOpensTheScreen : Obligations.StartOpensTheScreen := by
  intro sc n a b s hp hsc hn lowest opens st
  have hopens : ∀ w, parseStart s w = .ok (sc, n) → opens (.start w) := by
    intro w hparse
    have hexec := exec_start_ok hp hparse
    have hflags := State.openSlot_screen sc n (s.taken (.start w))
    have hframe := State.openSlot_frame sc n (s.taken (.start w))
    have hopened : ((((s.taken (.start w)).openSlot sc n).1.screen sc).state = .opening
        ∧ (((s.taken (.start w)).openSlot sc n).1.screen sc).current = some n
        ∧ (((s.taken (.start w)).openSlot sc n).1.screen sc).point = none
        ∧ (((s.taken (.start w)).openSlot sc n).1.screen sc).interval = none
        ∧ ShowFrame (s.taken (.start w)) ((s.taken (.start w)).openSlot sc n).1) := by
      rw [hflags]
      exact ⟨rfl, rfl, rfl, rfl, hframe⟩
    have hpends : OpeningPends sc (s.taken (.start w)) ((s.taken (.start w)).openSlot sc n) →
        exec (.start w) s = .next (((s.taken (.start w)).openSlot sc n).1.answer (.ok [txt "PENDING"]))
          ∧ (((s.taken (.start w)).openSlot sc n).1.screen sc).startPending = true
          ∧ (((s.taken (.start w)).openSlot sc n).1.screen sc).startGiven = false := fun h => by
      rw [h.answer] at hexec
      exact ⟨hexec, h.pending, h.given⟩
    refine ⟨⟨_, ?_, hopened⟩, fun hloaded => ⟨_, hpends (State.openSlot_unbound ?_), hopened⟩, ?_⟩
    · cases hanswer : ((s.taken (.start w)).openSlot sc n).2 with
      | false =>
        rw [hanswer] at hexec
        exact .inl hexec
      | true =>
        rw [hanswer] at hexec
        obtain ⟨hpending, hgiven⟩ := State.openSlot_pending hanswer
        exact .inr ⟨hexec, hpending, hgiven⟩
    · exact Slot.machine_none (x := s.slot sc n) (by rw [hloaded]; decide)
    · rintro m rfl hstatus hbound
      have hmachine : ((s.taken (.start w)).slot (screenOf m) n).machine? = some m :=
        Slot.machine_bound (x := s.slot (screenOf m) n) hstatus hbound
      refine ⟨fun hnot => ⟨_, hpends (State.openSlot_lapsed hmachine hnot), hopened⟩, fun hfound => ?_⟩
      rw [(State.openSlot_found hmachine hfound).1] at hexec
      obtain ⟨hunlit, hlit, hbroken⟩ := State.openSlot_told hmachine hfound
      refine ⟨_, hexec, hopened, fun h => ?_, hlit, hbroken⟩
      obtain ⟨hpending, hgiven, harmed, -, hlamp⟩ := hunlit h
      exact ⟨hpending, hgiven, harmed, hlamp⟩
  have hone := startOperands_screen hsc
  have htwo := startOperands_slot hsc hn
  refine ⟨fun hidle hclear hlowest => hopens _ ?_, fun hstate hclear hshow => hopens _ ?_, fun w hw hidle hhalted => ?_,
    fun hhalted => ?_, fun w hw hblocked => ?_, fun hstate hclear hnot => ?_, fun hidle hclear hnone => ?_⟩
  · have hlow := State.lowestShowable_eq hlowest
    simp [parseStart, hone, show (s.screen sc).state = .idle from hidle, startStateTest, hclear, hlow, slotOr]
  · obtain h | h := hstate <;>
      simp [parseStart, htwo, show (s.screen sc).state = _ from h, startStateTest, hclear, hshow]
  · refine exec_refused hp (reasonOf_eq_some.2 ?_)
    have hbusy : ∀ named, startStateTest (s.screen sc).state named = .error .state := fun named =>
      startStateTest_busy named hidle hhalted
    obtain rfl | rfl := hw <;> simp [parseStart, hone, htwo, hbusy]
  · refine exec_refused hp (reasonOf_eq_some.2 ?_)
    simp [parseStart, hone, show (s.screen sc).state = .halted from hhalted, startStateTest]
  · refine exec_refused hp (reasonOf_eq_some.2 ?_)
    obtain ⟨rfl, h⟩ | ⟨rfl, h | h⟩ := hw <;>
      simp [parseStart, hone, htwo, show (s.screen sc).state = _ from h, startStateTest, hblocked]
  · refine exec_refused hp (reasonOf_eq_some.2 ?_)
    obtain h | h := hstate <;>
      simp [parseStart, htwo, show (s.screen sc).state = _ from h, startStateTest, hclear, hnot]
  · refine exec_refused hp (reasonOf_eq_some.2 ?_)
    simp [parseStart, hone, show (s.screen sc).state = .idle from hidle, startStateTest, hclear,
      State.lowestShowable_none hnone, slotOr]

end Sys2Proof.Machine

/-! The evaluation of ARMED on a screen that gives no start by it, and the ends of a screen's timers. -/

namespace Sys2Proof.Machine

open Sys2Proof Host

/-! ### An evaluation that gives no start -/

/-- A screen to which an ARMED posting means nothing: it is not OPENING, and no start is pending in a state that would
take one (R108, R109). -/
def ScreenRec.Deaf (x : ScreenRec) : Prop :=
  x.state ≠ .opening ∧ (x.startPending = true → x.state = .idle ∨ x.state = .interval ∨ x.state = .halted)

/-- ARMED postings that no controller acts on: of the machines the state, between THREADED and ARMED, the stored posting
and the douser that follows, and the last postings. -/
structure PostingsOnly (s t : State) : Prop where
  rest : t = { s with machines := t.machines, plan := { s.plan with lastPosting := t.plan.lastPosting } }
  machine : ∀ k, t.machine k = { s.machine k with
    state := (t.machine k).state, armedPosting := (t.machine k).armedPosting, douser := (t.machine k).douser }
  judged : ∀ k, t.machine k = s.machine k ∨ (s.machine k).state.judged = true ∧ (t.machine k).state.judged = true

namespace PostingsOnly

variable {s t u : State}

theorem refl (s : State) : PostingsOnly s s := ⟨rfl, fun _ => rfl, fun _ => .inl rfl⟩

theorem trans (h : PostingsOnly s t) (k : PostingsOnly t u) : PostingsOnly s u where
  rest := by
    have hk := k.rest
    rw [h.rest] at hk
    exact hk
  machine j := by
    have hk := k.machine j
    rw [h.machine j] at hk
    exact hk
  judged j := by
    obtain h' | ⟨hs, ht⟩ := h.judged j
    · rw [← h']
      exact k.judged j
    · obtain k' | ⟨-, hu⟩ := k.judged j
      · exact .inr ⟨hs, by rw [k']; exact ht⟩
      · exact .inr ⟨hs, hu⟩

theorem posted {m : MachineId} (yes : Bool) (hjudged : (s.machine m).state.judged = true) :
    PostingsOnly s (s.posted m yes) := by
  have hposted : ((s.machine m).takePosting yes).settleDouser.state.judged = true := by
    change ((s.machine m).takePosting yes).state.judged = true
    rw [MachineRec.takePosting_state yes hjudged]
    cases yes <;> rfl
  have hmotor : ((s.machine m).takePosting yes).settleDouser.motor = (s.machine m).motor := rfl
  have hqueue : ((s.machine m).takePosting yes).settleDouser.state.emptiesQueue = false := by
    obtain h | h := (MachineState.judged_iff _).mp hposted <;> rw [h] <;> rfl
  have hdecoder : (s.decoder m).follow (s.machine m) ((s.machine m).takePosting yes).settleDouser = s.decoder m := by
    unfold DecoderRec.follow
    simp only [hmotor, hqueue, Bool.and_not_self, Bool.and_false, Bool.or_false, if_true, Bool.false_eq_true, if_false]
  refine ⟨?_, fun k => ?_, fun k => ?_⟩
  · have hdecoders : (s.posted m yes).decoders = s.decoders := by
      change s.decoders.set m ((s.decoder m).follow (s.machine m) ((s.machine m).takePosting yes).settleDouser) = _
      rw [hdecoder]
      exact Quad.set_get_self _ _
    have hplan : (s.posted m yes).plan = { s.plan with lastPosting := (s.posted m yes).plan.lastPosting } := by
      exact (State.modMachine_planOnly m _ _).1
    have hrest : s.posted m yes = { s with
        machines := (s.posted m yes).machines, decoders := (s.posted m yes).decoders
        plan := (s.posted m yes).plan } := rfl
    rw [hdecoders, hplan] at hrest
    exact hrest
  · by_cases hk : k = m
    · subst hk
      rw [State.posted, State.modMachine_machine, if_pos rfl]
      rfl
    · rw [State.posted, State.modMachine_machine, if_neg hk]
      rfl
  · by_cases hk : k = m
    · subst hk
      refine .inr ⟨hjudged, ?_⟩
      rw [State.posted, State.modMachine_machine, if_pos rfl]
      exact hposted
    · left
      rw [State.posted, State.modMachine_machine, if_neg hk]
      rfl

section

variable (h : PostingsOnly s t)
include h

theorem screens : t.screens = s.screens := by rw [h.rest]

theorem screen (z : ScreenId) : t.screen z = s.screen z := by rw [h.rest]; rfl

theorem lights : t.lights = s.lights := by rw [h.rest]

theorem circuit (z : ScreenId) (c : CircuitId) : t.circuit z c = s.circuit z c := by rw [h.rest]; rfl

theorem line : t.line = s.line := by rw [h.rest]

theorem lamp (k : MachineId) : t.lamp k = s.lamp k := by rw [h.rest]; rfl

theorem decoder (k : MachineId) : t.decoder k = s.decoder k := by rw [h.rest]; rfl

theorem slot (z : ScreenId) (n : SlotIx) : t.slot z n = s.slot z n := by rw [h.rest]; rfl

/-- A machine in a state that the plan store does not judge stands. -/
theorem unjudged {k : MachineId} (hnot : (s.machine k).state.judged = false) : t.machine k = s.machine k :=
  (h.judged k).resolve_right fun ⟨hj, _⟩ => by simp [hnot] at hj

end

end PostingsOnly

theorem State.onArmed_deaf {m : MachineId} {s : State} (h : (s.screen (screenOf m)).Deaf) : s.onArmed m = s := by
  obtain ⟨hopening, hpending⟩ := h
  cases hp : (s.screen (screenOf m)).startPending with
  | true =>
    refine State.onArmed_idle ?_
    obtain h | h | h := hpending hp
    · exact .inl h
    · exact .inr (.inl h)
    · exact .inr (.inr (.inl h))
  | false => cases hstate : (s.screen (screenOf m)).state <;> simp_all [State.onArmed]

theorem State.evaluate_deaf {m : MachineId} {s : State} (h : (s.screen (screenOf m)).Deaf) :
    PostingsOnly s (s.evaluate m) := by
  obtain ⟨e, -⟩ | ⟨hjudged, e | e⟩ := s.evaluate_posted m <;> rw [e]
  · exact .refl s
  · rw [State.onArmed_deaf (by rw [State.posted_screen]; exact h)]
    exact .posted _ hjudged
  · have hnot : (s.posted m (s.armedCondition m)).onDisarmed m = s.posted m (s.armedCondition m) :=
      if_neg fun hopen => h.1 hopen.2.1
    rw [hnot]
    exact .posted _ hjudged

/-- The plan's evaluation of a screen that is deaf to it posts, and nothing acts on the postings (R99, R17). -/
theorem State.evaluateScreen_deaf {sc : ScreenId} {s : State} (h : (s.screen sc).Deaf) :
    PostingsOnly s (s.evaluateScreen sc) := by
  have hlower := State.evaluate_deaf (m := lowerOf sc) (s := s) (by rwa [screenOf_lowerOf])
  exact hlower.trans (State.evaluate_deaf (by rw [screenOf_upperOf, hlower.screen]; exact h))

theorem ScreenRec.goIdle_deaf (x : ScreenRec) : x.goIdle.Deaf := ⟨nofun, nofun⟩

/-! ### The release of CUE and FAULT claims -/

theorem State.releaseFault_circuit (sc k : ScreenId) (c : CircuitId) (s : State) :
    (s.releaseFault sc).circuit k c
      = if k = sc then (s.circuit sc c).release s.lights.halfCycle .fault else s.circuit k c :=
  s.releaseThree_circuit sc k .fault c

theorem State.releaseFault_line (sc : ScreenId) (s : State) :
    ((s.releaseThree sc .cue).releaseFault sc).line = s.line := by
  simp only [State.releaseFault, State.releaseThree, State.modScreen_line, State.modCircuit_line]

theorem Circuit.release_other_none {h : Nat} {r q : Rank} {c : Circuit} (hne : q ≠ r) (hnone : c.claims.get q = none) :
    (c.release h r).claims.get q = none := by
  have hsame := Circuit.release_claims h r c q hne
  rw [hnone] at hsame
  exact hsame.eq_none

/-- As a show ends no CUE and no FAULT claim is left on its three circuits (R125, R126). -/
theorem State.releaseFault_claims (sc : ScreenId) (c : CircuitId) (s : State) :
    (((s.releaseThree sc .cue).releaseFault sc).circuit sc c).claims.cue = none
      ∧ (((s.releaseThree sc .cue).releaseFault sc).circuit sc c).claims.fault = none := by
  rw [State.releaseFault_circuit, if_pos rfl, State.releaseThree_circuit, if_pos rfl]
  exact ⟨Circuit.release_other_none (q := .cue) (by decide) (Circuit.release_self _ .cue _),
    Circuit.release_self _ .fault _⟩

/-! ### The on-deck slot is opened (R125) -/

theorem State.openOnDeck_frame (sc : ScreenId) (n : SlotIx) (s : State) : ShowFrame s (s.openOnDeck sc n) :=
  (Reactions.openOnDeck sc n (.refl' s)).frame

theorem State.openOnDeck_screen (sc : ScreenId) (n : SlotIx) (s : State) :
    ScreenRec.FlagsOnly ((s.screen sc).enterOpening n) ((s.openOnDeck sc n).screen sc) := by
  have hscreen : (s.openOnDeck sc n).screen sc = (s.openSlot sc n).1.screen sc := by
    unfold State.openOnDeck State.reportIf
    split <;> rfl
  rw [hscreen]
  exact s.openSlot_screen sc n

/-- An opening whose machine is not found ARMED is reported *LATE. -/
theorem OpeningPends.late {sc : ScreenId} {n : SlotIx} {s : State} (h : OpeningPends sc s (s.openSlot sc n)) :
    ((s.openOnDeck sc n).screen sc).startPending = true ∧ ((s.openOnDeck sc n).screen sc).startGiven = false
      ∧ (s.openOnDeck sc n).line = s.line.report (.lateArmed sc (some n)) := by
  unfold State.openOnDeck State.reportIf
  rw [if_pos h.answer, ← h.line]
  exact ⟨h.pending, h.given, rfl⟩

theorem State.openOnDeck_found {m : MachineId} {n : SlotIx} {s : State}
    (hbound : (s.slot (screenOf m) n).machine? = some m) (hfound : s.foundArmed (screenOf m) n m) :
    s.openOnDeck (screenOf m) n = (s.openSlot (screenOf m) n).1 := by
  unfold State.openOnDeck State.reportIf
  rw [if_neg (by simp [(State.openSlot_found hbound hfound).1])]

/-! ### The end of the programme (R125) -/

/-- A screen that goes IDLE: its evaluation posts, and nothing acts on it. -/
def State.idled (sc : ScreenId) (s : State) : State := (s.modScreen sc ScreenRec.goIdle).evaluateScreen sc

theorem State.idled_posts (sc : ScreenId) (s : State) : PostingsOnly (s.modScreen sc ScreenRec.goIdle) (s.idled sc) :=
  State.evaluateScreen_deaf (by rw [State.modScreen_screen, if_pos rfl]; exact (s.screen sc).goIdle_deaf)

theorem State.idled_screen (sc : ScreenId) (s : State) : (s.idled sc).screen sc = (s.screen sc).goIdle := by
  rw [(s.idled_posts sc).screen, State.modScreen_screen, if_pos rfl]

theorem State.idled_line (sc : ScreenId) (s : State) : (s.idled sc).line = s.line := (s.idled_posts sc).line

theorem State.idled_circuit (sc : ScreenId) (c : CircuitId) (s : State) : (s.idled sc).circuit sc c = s.circuit sc c :=
  (s.idled_posts sc).circuit sc c

theorem State.endProgramme_eq (sc : ScreenId) (s : State) :
    s.endProgramme sc
      = (((s.releaseThree sc .cue).releaseFault sc).idled sc).report (.planEnd sc (s.screen sc).current) := rfl

theorem State.endProgramme_told (sc : ScreenId) (s : State) :
    (s.endProgramme sc).screen sc = { (s.screen sc).goIdle with faultClaim := .none }
      ∧ (s.endProgramme sc).line = s.line.report (.planEnd sc (s.screen sc).current)
      ∧ ∀ c, ((s.endProgramme sc).circuit sc c).claims.cue = none ∧ ((s.endProgramme sc).circuit sc c).claims.fault = none := by
  have hscreen : ((s.releaseThree sc .cue).releaseFault sc).screen sc = { s.screen sc with faultClaim := .none } := by
    rw [State.releaseFault_screen, if_pos rfl]
    simp only [State.releaseThree, State.modCircuit_screen]
  have hline : ((s.releaseThree sc .cue).releaseFault sc).line = s.line := State.releaseFault_line sc _
  have hclaims := fun c => s.releaseFault_claims sc c
  rw [State.endProgramme_eq]
  generalize (s.releaseThree sc .cue).releaseFault sc = b at *
  refine ⟨?_, ?_, fun c => ?_⟩
  · change (b.idled sc).screen sc = _
    rw [State.idled_screen, hscreen]
    rfl
  · change (b.idled sc).line.report _ = _
    rw [State.idled_line, hline]
  · change ((b.idled sc).circuit sc c).claims.cue = none ∧ ((b.idled sc).circuit sc c).claims.fault = none
    rw [State.idled_circuit]
    exact hclaims c

/-! ### RESUME and the timers -/

theorem exec_resume_ok {s : State} {w : List Text} {sc : ScreenId} {n : SlotIx} (hp : s.powered = true)
    (h : parseResume s w = .ok (sc, n)) :
    exec (.resume w) s = .next (((s.taken (.resume w)).openOnDeck sc n).answer (.ok [])) := by
  have hparse : parseResume (s.taken (.resume w)) w = .ok (sc, n) := h
  change execResume w s = _
  simp only [execResume, State.takeCommand_of_powered hp, hparse]

theorem exec_intervalExpiry {s : State} (hp : s.powered = true) (sc : ScreenId) :
    exec (.intervalExpiry sc) s = .next (s.intervalEnds sc) := by
  change Outcome.next (s.whenPowered _) = _
  rw [State.whenPowered, if_pos hp]

theorem exec_darkHoldExpiry {s : State} (hp : s.powered = true) (sc : ScreenId) :
    exec (.darkHoldExpiry sc) s = .next (s.darkHoldEnds sc) := by
  change Outcome.next (s.whenPowered _) = _
  rw [State.whenPowered, if_pos hp]

/-- Settles O41: the on-deck slot opened or the programme ended, and the dark hold run out. -/
theorem screenTimersEnd : Obligations.ScreenTimersEnd := by
  intro sc a s hp hsc c opened told
  have hone := onlyScreen_of_namesScreen hsc
  have hopened : ∀ (w : State) (n : SlotIx), w = s ∨ w = s.taken c → opened (w.openOnDeck sc n) n := by
    intro w n hw
    have hflags := w.openOnDeck_screen sc n
    have hslot : w.slot sc n = s.slot sc n := by obtain rfl | rfl := hw <;> rfl
    have hpending : (s.slot sc n).status = .loaded → ((w.openOnDeck sc n).screen sc).startPending = true := fun hloaded =>
      (State.openSlot_unbound (Slot.machine_none (x := w.slot sc n) (by rw [hslot, hloaded]; decide))).late.1
    have hrecord : ((w.openOnDeck sc n).screen sc).state = .opening ∧ ((w.openOnDeck sc n).screen sc).current = some n
        ∧ ((w.openOnDeck sc n).screen sc).interval = none ∧ ((w.openOnDeck sc n).screen sc).point = none := by
      rw [hflags]
      exact ⟨rfl, rfl, rfl, rfl⟩
    obtain ⟨hstate, hcurrent, hinterval, hpoint⟩ := hrecord
    exact ⟨hstate, hcurrent, hinterval, hpoint, hpending⟩
  have htold : ∀ (w : State) (n : SlotIx), w = s ∨ w = s.taken c → told w.line (w.openOnDeck sc n) n := by
    intro w n hw
    have hslot : w.slot sc n = s.slot sc n := by obtain rfl | rfl := hw <;> rfl
    refine ⟨fun hnot => (State.openSlot_unbound (Slot.machine_none (x := w.slot sc n) (by rw [hslot]; exact hnot))).late, ?_⟩
    rintro m rfl hstatus hbound
    have hmachine : (w.slot (screenOf m) n).machine? = some m := by
      rw [hslot]
      exact Slot.machine_bound hstatus hbound
    have hsame : w.foundArmed (screenOf m) n m ↔ s.foundArmed (screenOf m) n m := by
      obtain rfl | rfl := hw <;> rfl
    refine ⟨fun hnot => (State.openSlot_lapsed hmachine (mt hsame.1 hnot)).late, fun hfound => ?_⟩
    rw [State.openOnDeck_found hmachine (hsame.2 hfound)]
    obtain ⟨hunlit, hlit, hbroken⟩ := State.openSlot_told hmachine (hsame.2 hfound)
    obtain rfl | rfl := hw <;> exact ⟨hunlit, hlit, hbroken⟩
  refine ⟨fun hnot => exec_refused hp (reasonOf_eq_some.2 ?_), fun n hstate hdeck => ?_, fun n k hstate hdeck hinterval => ?_,
    fun k hstate hdeck hinterval => ?_, fun hnot => ?_, fun m t hdark hon => ?_, fun hnot => ?_⟩
  · cases hstate : (s.screen sc).state == .interval with
    | true =>
      have hdeck := hnot.resolve_left (fun h => h (by simpa using hstate))
      simp [parseResume, hone, hstate, hdeck, slotOr]
    | false => simp [parseResume, hone, hstate]
  · have hparse : parseResume s [a] = .ok (sc, n) := by simp [parseResume, hone, hstate, hdeck, slotOr]
    exact ⟨_, exec_resume_ok hp hparse, hopened _ n (.inr rfl), htold _ n (.inr rfl), State.openOnDeck_frame sc n _⟩
  · have hend : s.intervalEnds sc = s.openOnDeck sc n := by simp [State.intervalEnds, hstate, hinterval, hdeck]
    exact ⟨_, by rw [exec_intervalExpiry hp, hend], hopened _ n (.inl rfl), htold _ n (.inl rfl), State.openOnDeck_frame sc n s⟩
  · have hend : s.intervalEnds sc = s.endProgramme sc := by simp [State.intervalEnds, hstate, hinterval, hdeck]
    obtain ⟨hscreen, hline, hclaims⟩ := s.endProgramme_told sc
    refine ⟨_, by rw [exec_intervalExpiry hp, hend], ?_, ?_, ?_, hline, hclaims, (Reactions.endProgramme sc (.refl' s)).frame⟩ <;>
      rw [hscreen] <;> rfl
  · rw [exec_intervalExpiry hp]
    unfold State.intervalEnds
    split
    next h1 h2 => exact absurd h1 (hnot.resolve_right fun h => h _ h2)
    next => rfl
  · rw [exec_darkHoldExpiry hp]
    simp only [State.darkHoldEnds, hdark, hon]
    rfl
  · rw [exec_darkHoldExpiry hp]
    unfold State.darkHoldEnds
    split
    next h1 h2 =>
      obtain h | h := hnot
      · exact absurd h1 (h _)
      · simp [h] at h2
    next => rfl

end Sys2Proof.Machine

/-! The booth clock: TIME, SHOWAT and the advance of a second. -/

namespace Sys2Proof.Machine

open Sys2Proof Host

/-! ### Times of day, spelled and read -/

theorem twoDigits_fTwo : ∀ n, n ≤ 99 → twoDigits? (fTwo n) = some n := by decide

theorem colon_not_mem_fTwo : ∀ n, n ≤ 99 → ':' ∉ fTwo n := by decide

section

variable {h m x : Nat} (hh : h ≤ 99) (hm : m ≤ 99)
include hh hm

theorem hoursMinutes_spelled : hoursMinutes? (fTwo h ++ txt ":" ++ fTwo m) = some (h, m) := by
  have hcut : cutAt ':' (fTwo h ++ txt ":" ++ fTwo m) = (fTwo h, some (fTwo m)) := by
    rw [List.append_assoc]
    exact cutAt_append (colon_not_mem_fTwo h hh) _
  rw [hoursMinutes?, hcut]
  simp [twoDigits_fTwo h hh, twoDigits_fTwo m hm]

theorem hoursMinutesSeconds_spelled (hx : x ≤ 99) :
    hoursMinutesSeconds? (fTwo h ++ txt ":" ++ fTwo m ++ txt ":" ++ fTwo x) = some (h, m, x) := by
  have hcut : cutAt ':' (fTwo h ++ txt ":" ++ fTwo m ++ txt ":" ++ fTwo x)
      = (fTwo h, some (fTwo m ++ txt ":" ++ fTwo x)) := by
    simp only [List.append_assoc]
    exact cutAt_append (colon_not_mem_fTwo h hh) _
  have hcut' : cutAt ':' (fTwo m ++ txt ":" ++ fTwo x) = (fTwo m, some (fTwo x)) := by
    rw [List.append_assoc]
    exact cutAt_append (colon_not_mem_fTwo m hm) _
  rw [hoursMinutesSeconds?, hcut]
  simp only [hcut']
  simp [twoDigits_fTwo h hh, twoDigits_fTwo m hm, twoDigits_fTwo x hx]

end

/-! ### An opening by what stands in the records -/

section

variable {sc : ScreenId} {n : SlotIx} {s : State}

/-- Opening a slot of which the other screen's machine is named leaves that machine as it was (no reachable plan names
one). -/
theorem State.evaluateScreen_apart {m : MachineId} (hbound : (s.slot sc n).machine? = some m) (hne : screenOf m ≠ sc) :
    PostedBeside m (s.openedAt sc n) ((s.openedAt sc n).evaluateScreen sc) := by
  have hwait : (s.openedAt sc n).waitedOn sc = some m := (s.openedAt_waitedOn sc n).trans hbound
  have hother : ∀ q, screenOf q = sc → m ≠ q := fun q hq hmq => hne (by rw [hmq]; exact hq)
  have hlower : PostedBeside m (s.openedAt sc n) ((s.openedAt sc n).evaluate (lowerOf sc)) :=
    State.evaluate_beside (hother _ (screenOf_lowerOf sc)) (by
      rw [screenOf_lowerOf, hwait]
      exact fun h => hother _ (screenOf_lowerOf sc) (Option.some.inj h))
  have hupper : PostedBeside m ((s.openedAt sc n).evaluate (lowerOf sc)) ((s.openedAt sc n).evaluateScreen sc) :=
    State.evaluate_beside (hother _ (screenOf_upperOf sc)) (by
      rw [screenOf_upperOf, hlower.waitedOn, hwait]
      exact fun h => hother _ (screenOf_upperOf sc) (Option.some.inj h))
  exact ⟨hupper.machine.trans hlower.machine, hupper.lamp.trans hlower.lamp,
    fun z => (hupper.screen z).trans (hlower.screen z), hupper.line.trans hlower.line,
    hupper.lights.trans hlower.lights, hupper.fire.trans hlower.fire,
    fun z k => (hupper.slots z k).trans (hlower.slots z k), hupper.posting.trans hlower.posting⟩

theorem State.openedAt_slot (z : ScreenId) (k : SlotIx) :
    ((s.openedAt sc n).evaluateScreen sc).slot z k = s.slot z k :=
  (State.evaluateScreen_only sc (s.openedAt sc n)).1 z k

/-- A slot whose machine, where it has one, is not ARMED and does not meet the condition opens with start pending
(R103, R106). -/
theorem State.openSlot_unarmed (h : ∀ m, (s.slot sc n).machine? = some m → (s.machine m).state ≠ .armed
    ∧ ((s.machine m).state = .threaded → (s.openedAt sc n).armedCondition m = false)) :
    OpeningPends sc s (s.openSlot sc n) := by
  cases hbound : (s.slot sc n).machine? with
  | none => exact State.openSlot_unbound hbound
  | some m =>
    obtain ⟨hnot, hno⟩ := h m hbound
    by_cases hscreen : screenOf m = sc
    · subst hscreen
      refine State.openSlot_lapsed hbound fun hfound => ?_
      obtain ⟨hjudged, hresult⟩ := hfound
      have hno' := hno (hjudged.resolve_right hnot)
      split at hresult
      · exact hnot hresult
      · exact absurd (hno'.symm.trans hresult) (by decide)
    · have hbeside := State.evaluateScreen_apart hbound hscreen
      have hopened := s.openedAt_screen sc n
      have hgiven : (((s.openedAt sc n).evaluateScreen sc).screen sc).startGiven = false := by
        rw [hbeside.screen, hopened]
        rfl
      refine State.openSlot_pends_of ?_ hgiven hbeside.line
      have hmachine : ((s.openedAt sc n).evaluateScreen sc).machine m = s.machine m := hbeside.machine
      simp only [State.armedFor, State.openedAt_slot, hbound, hmachine, hgiven]
      cases hstate : (s.machine m).state <;> simp_all [MachineState.judged]

/-- A slot whose machine is ARMED and meets the condition goes on as its opening step says (R103, R107). -/
theorem State.openSlot_armed {m : MachineId} (hbound : (s.slot sc n).machine? = some m)
    (harmed : (s.machine m).state = .armed) (hyes : (s.openedAt sc n).armedCondition m = true) :
    s.openSlot sc n = (((s.openedAt sc n).evaluateScreen sc).openingStep sc, false) := by
  rw [State.openSlot_answer]
  by_cases hscreen : screenOf m = sc
  · subst hscreen
    have hfound : s.foundArmed (screenOf m) n m := by
      refine ⟨.inr harmed, ?_⟩
      split
      · exact harmed
      · exact hyes
    have hanswer := (State.openSlot_found hbound hfound).1
    rw [State.openSlot_answer] at hanswer
    split at hanswer
    next h => rw [if_pos h]
    next => exact absurd hanswer (by simp)
  · have hmachine : ((s.openedAt sc n).evaluateScreen sc).machine m = s.machine m :=
      (State.evaluateScreen_apart hbound hscreen).machine
    rw [if_pos (by simp [State.armedFor, State.openedAt_slot, hbound, hmachine, harmed])]

/-- An opening whose slot is bound within its screen leaves the other screen as it was. -/
theorem State.openSlot_keeps (hpair : ∀ m, (s.slot sc n).machine? = some m → screenOf m = sc) {z : ScreenId} (hz : z ≠ sc) :
    ScreenKept z s (s.openSlot sc n).1 := by
  have hopened : ScreenKept z s (s.openedAt sc n) := .ofScreen hz _ _
  have hevaluated : ScreenKept z s ((s.openedAt sc n).evaluateScreen sc) :=
    hopened.trans ((State.evaluateScreen_only sc (s.openedAt sc n)).2.2 z hz)
  have hflags := State.evaluateScreen_flags (sc := sc) (s := s.openedAt sc n) (by rw [State.openedAt_screen]; rfl)
  have hwait : ((s.openedAt sc n).evaluateScreen sc).waitedOn sc = (s.slot sc n).machine? := by
    rw [State.openedAt_screen] at hflags
    have hopening : (((s.openedAt sc n).evaluateScreen sc).screen sc).state = .opening
        ∧ (((s.openedAt sc n).evaluateScreen sc).screen sc).current = some n := by
      rw [hflags]
      exact ⟨rfl, rfl⟩
    simp only [State.waitedOn, hopening.1, hopening.2, State.openedAt_slot, if_true]
  rw [State.openSlot_answer]
  split
  · cases hbound : (s.slot sc n).machine? with
    | none =>
      have hsame : ((s.openedAt sc n).evaluateScreen sc).openingStep sc = (s.openedAt sc n).evaluateScreen sc := by
        simp only [State.openingStep, hwait, hbound]
      rwa [hsame]
    | some m =>
      have hscreen := hpair m hbound
      subst hscreen
      exact hevaluated.trans ((StartsOnly.openingStep (hwait.trans hbound)).screenKept hz)
  · exact hevaluated.trans (ScreenKept.ofScreen (s := (s.openedAt sc n).evaluateScreen sc) hz
      fun x => { x with startPending := true })

end

/-! ### A SHOWAT time that fires (R103) -/

section

variable {sc : ScreenId} {s : State}

theorem State.fireShowAt_busy (h : (s.screen sc).state ≠ .idle) : s.fireShowAt sc = s.report (.showLate sc .busy) :=
  if_pos h

variable (hidle : (s.screen sc).state = .idle)
include hidle

theorem State.nextSlot_idle : s.nextSlot sc = s.lowestShowable sc := by rw [State.nextSlot, hidle]

theorem State.fireShowAt_blocked (hsome : ∃ n, (s.slot sc n).status.showable = true) (hblocked : s.startBlocked sc = true) :
    s.fireShowAt sc = s.report (.showLate sc .trip) := by
  obtain ⟨n, hn⟩ := hsome
  have hfound : (s.lowestShowable sc).isSome = true := List.find?_isSome.2 ⟨n, mem_allSlots n, hn⟩
  obtain ⟨k, hk⟩ := Option.isSome_iff_exists.1 hfound
  simp [State.fireShowAt, hidle, State.nextSlot_idle hidle, hk, hblocked]

theorem State.fireShowAt_empty (hnone : ∀ n, (s.slot sc n).status.showable = false) :
    s.fireShowAt sc = s.report (.showLate sc .empty) := by
  simp [State.fireShowAt, hidle, State.nextSlot_idle hidle, State.lowestShowable_none hnone]

variable {n : SlotIx} (hlowest : (s.slot sc n).status.showable = true ∧ ∀ j, j < n → (s.slot sc j).status.showable = false)
include hlowest

theorem State.fireShowAt_opens (hclear : s.startBlocked sc = false) :
    s.fireShowAt sc = (s.openSlot sc n).1.reportIf (s.openSlot sc n).2 (.showLate sc .armed) := by
  simp [State.fireShowAt, hidle, State.nextSlot_idle hidle, State.lowestShowable_eq hlowest, hclear]

theorem State.fireShowAt_opening (hclear : s.startBlocked sc = false) :
    ((s.fireShowAt sc).screen sc).state = .opening ∧ ((s.fireShowAt sc).screen sc).current = some n
      ∧ ((s.fireShowAt sc).screen sc).point = none := by
  have hscreen : (s.fireShowAt sc).screen sc = (s.openSlot sc n).1.screen sc := by
    rw [State.fireShowAt_opens hidle hlowest hclear]
    unfold State.reportIf
    split <;> rfl
  rw [hscreen, s.openSlot_screen sc n]
  exact ⟨rfl, rfl, rfl⟩

theorem State.fireShowAt_pends (hclear : s.startBlocked sc = false)
    (h : ∀ m, (s.slot sc n).machine? = some m → (s.machine m).state ≠ .armed
      ∧ ((s.machine m).state = .threaded → (s.openedAt sc n).armedCondition m = false)) :
    s.fireShowAt sc = (((s.openedAt sc n).evaluateScreen sc).modScreen sc fun x => { x with startPending := true }).report
      (.showLate sc .armed) := by
  have hanswer := (State.openSlot_unarmed h).answer
  rw [State.fireShowAt_opens hidle hlowest hclear, hanswer]
  rw [State.openSlot_answer] at hanswer ⊢
  split at hanswer
  · exact absurd hanswer (by simp)
  next hnot => rw [if_neg hnot]; rfl

theorem State.fireShowAt_armed (hclear : s.startBlocked sc = false) {m : MachineId}
    (hbound : (s.slot sc n).machine? = some m) (harmed : (s.machine m).state = .armed)
    (hyes : (s.openedAt sc n).armedCondition m = true) :
    s.fireShowAt sc = ((s.openedAt sc n).evaluateScreen sc).openingStep sc := by
  rw [State.fireShowAt_opens hidle hlowest hclear, State.openSlot_armed hbound harmed hyes]
  rfl

end

theorem State.fireShowAt_frame (sc : ScreenId) (s : State) : ShowFrame s (s.fireShowAt sc) := by
  unfold State.fireShowAt
  split
  · exact (Reactions.report _ (.refl' s)).frame
  · split
    · exact (Reactions.report _ (.refl' s)).frame
    · split
      · exact (Reactions.report _ (.refl' s)).frame
      · exact (Reactions.reportIf _ _ (Reactions.openSlot sc _ (.refl' s))).frame

/-- A SHOWAT time that opens nothing leaves the screens' records (R103). -/
theorem State.fireShowAt_still {sc : ScreenId} {s : State} (h : (s.screen sc).state ≠ .idle
    ∨ (∀ n, (s.slot sc n).status.showable = false) ∨ s.startBlocked sc = true) : (s.fireShowAt sc).screens = s.screens := by
  unfold State.fireShowAt
  split
  · rfl
  next hidle =>
    have hidle' : (s.screen sc).state = .idle := not_not.1 hidle
    split
    · rfl
    next n hnext =>
      obtain h | h | h := h
      · exact absurd h hidle
      · rw [State.nextSlot_idle hidle', State.lowestShowable_none h] at hnext
        exact absurd hnext (by simp)
      · rw [if_pos h]
        rfl

theorem ScreenKept.ofReportIf {z : ScreenId} {a b : State} (h : ScreenKept z a b) (yes : Bool) (r : Report) :
    ScreenKept z a (b.reportIf yes r) := by
  unfold State.reportIf
  split
  · exact h.trans (.ofLine z (LineUnit.report r) b)
  · exact h

/-- A SHOWAT time of one screen leaves the other screen as it was (R103). -/
theorem State.fireShowAt_keeps {sc : ScreenId} {s : State} (hpair : ∀ n m, (s.slot sc n).machine? = some m → screenOf m = sc)
    {z : ScreenId} (hz : z ≠ sc) : ScreenKept z s (s.fireShowAt sc) := by
  unfold State.fireShowAt
  split
  · exact .ofLine z (LineUnit.report _) s
  · split
    · exact .ofLine z (LineUnit.report _) s
    next n hnext =>
      split
      · exact .ofLine z (LineUnit.report _) s
      · exact (State.openSlot_keeps (fun m => hpair n m) hz).ofReportIf _ _

/-! ### The commands -/

theorem PlanStore.elapse_eq (dt : Nat) (p : PlanStore) :
    p.elapse dt = { p with clockSecond := (p.elapse dt).clockSecond } := by
  unfold PlanStore.elapse
  split <;> rfl

theorem PlanStore.elapse_clock (dt : Nat) (p : PlanStore) : (p.elapse dt).clock = p.clock := by rw [p.elapse_eq dt]

theorem ScreenRec.elapse_state (dt : Nat) (x : ScreenRec) : (x.elapse dt).state = x.state := by
  unfold ScreenRec.elapse
  split <;> rfl

theorem MachineRec.elapse_state (dt : Nat) (r : MachineRec) : (r.elapse dt).state = r.state := rfl

theorem Slot.bound_of_machine {x : Slot} {m : MachineId} (h : x.machine? = some m) : x.bound = some m := by
  unfold Slot.machine? at h
  split at h
  · exact h
  · exact absurd h (by simp)

theorem exec_time_set {s : State} {w : List Text} {t : Nat} (hp : s.powered = true) (h : parseTime w = .ok (some t)) :
    exec (.time w) s
      = .next (((s.taken (.time w)).modPlan fun p => { p with clock := some t, clockSecond := 0 }).answer (.ok [])) := by
  change execTime w s = _
  simp only [execTime, State.takeCommand_of_powered hp, h]

theorem exec_showat {s : State} {w : List Text} {sc : ScreenId} {o : ShowAtOrder} (hp : s.powered = true)
    (h : parseShowat s w = .ok (sc, o)) (ho : o ≠ .read) :
    exec (.showat w) s = .next (((s.taken (.showat w)).putShowAt sc
      (match o with | .set t => some t | _ => none)).answer (.ok [])) := by
  have hparse : parseShowat (s.taken (.showat w)) w = .ok (sc, o) := h
  change execShowat w s = _
  cases o with
  | read => exact absurd rfl ho
  | off => simp only [execShowat, State.takeCommand_of_powered hp, hparse]
  | set t => simp only [execShowat, State.takeCommand_of_powered hp, hparse]

theorem exec_clockAdvance {s : State} (hp : s.powered = true) (dt : Nat) :
    exec (.clockAdvance dt) s = .next (s.elapse dt).clockTick := by
  change Outcome.next (s.whenPowered _) = _
  rw [State.whenPowered, if_pos hp]

/-- The state a second later, before a SHOWAT time fires. -/
def State.secondLater (dt t : Nat) (s : State) : State :=
  (s.elapse dt).modPlan fun p => { p with clock := some ((t + 1) % 86400), clockSecond := 0 }

theorem exec_clockAdvance_set {s : State} (hp : s.powered = true) (dt : Nat) {t : Nat} (hclock : s.plan.clock = some t) :
    exec (.clockAdvance dt) s
      = .next (((s.secondLater dt t).showAtDue .s1 ((t + 1) % 86400)).showAtDue .s2 ((t + 1) % 86400)) := by
  have hclock' : (s.elapse dt).plan.clock = some t := (s.plan.elapse_clock dt).trans hclock
  rw [exec_clockAdvance hp]
  simp only [State.clockTick, hclock']
  rfl

/-- The one screen whose time it is has its time cleared and fires (R103). -/
theorem State.showAtDue_one {sc : ScreenId} {now : Nat} {u : State} (hdue : u.plan.showAt.get sc = some now)
    (hother : ∀ x, x ≠ sc → u.plan.showAt.get x ≠ some now) :
    (u.showAtDue .s1 now).showAtDue .s2 now = (u.putShowAt sc none).fireShowAt sc := by
  cases sc with
  | s1 =>
    have hfirst : u.showAtDue .s1 now = (u.putShowAt .s1 none).fireShowAt .s1 := if_pos hdue
    have hstill : (((u.putShowAt .s1 none).fireShowAt .s1).plan.showAt.get .s2) = u.plan.showAt.get .s2 := by
      rw [(State.fireShowAt_frame .s1 (u.putShowAt .s1 none)).showAt]
      rfl
    rw [hfirst]
    exact if_neg (by rw [hstill]; exact hother .s2 (by decide))
  | s2 =>
    have hfirst : u.showAtDue .s1 now = u := if_neg (hother .s1 (by decide))
    rw [hfirst]
    exact if_pos hdue

/-- Both screens' times at one second: screen 1's fires first. -/
theorem State.showAtDue_both {now : Nat} {u : State} (h1 : u.plan.showAt.get .s1 = some now)
    (h2 : u.plan.showAt.get .s2 = some now) :
    (u.showAtDue .s1 now).showAtDue .s2 now
      = (((u.putShowAt .s1 none).fireShowAt .s1).putShowAt .s2 none).fireShowAt .s2 := by
  have hfirst : u.showAtDue .s1 now = (u.putShowAt .s1 none).fireShowAt .s1 := if_pos h1
  have hstill : (((u.putShowAt .s1 none).fireShowAt .s1).plan.showAt.get .s2) = u.plan.showAt.get .s2 := by
    rw [(State.fireShowAt_frame .s1 (u.putShowAt .s1 none)).showAt]
    rfl
  rw [hfirst]
  exact if_pos (by rw [hstill, h2])

section

variable (dt t : Nat) (s : State) (sc : ScreenId)

theorem State.secondLater_state : ((s.secondLater dt t).screen sc).state = (s.screen sc).state :=
  (congrArg ScreenRec.state (s.elapse_screen dt sc)).trans (ScreenRec.elapse_state dt _)

theorem State.secondLater_showAt : (s.secondLater dt t).plan.showAt = s.plan.showAt := by
  change (s.plan.elapse dt).showAt = _
  rw [PlanStore.elapse_eq]

theorem State.secondLater_slot (n : SlotIx) : (s.secondLater dt t).slot sc n = s.slot sc n := s.elapse_slot dt sc n

theorem State.secondLater_blocked : (s.secondLater dt t).startBlocked sc = s.startBlocked sc := by
  simp only [State.startBlocked, State.secondLater, State.modPlan_fire, State.elapse_fire, FireUnit.elapse_latches]

theorem State.secondLater_machine (m : MachineId) : ((s.secondLater dt t).machine m).state = (s.machine m).state :=
  (congrArg MachineRec.state (s.elapse_machine dt m)).trans (MachineRec.elapse_state dt _)

end

/-- What SHOWAT's firing reads of a screen is in `w` what it is in `s`. -/
structure SameDesk (sc : ScreenId) (s w : State) : Prop where
  state : (w.screen sc).state = (s.screen sc).state
  slot : ∀ n, w.slot sc n = s.slot sc n
  blocked : w.startBlocked sc = s.startBlocked sc

theorem SameDesk.later {dt t : Nat} {s : State} {sc z : ScreenId} :
    SameDesk sc s ((s.secondLater dt t).putShowAt z none) where
  state := s.secondLater_state dt t sc
  slot := s.secondLater_slot dt t sc
  blocked := s.secondLater_blocked dt t sc

/-- One of the two firings, by what the screen was before the second. -/
theorem SameDesk.fired {sc : ScreenId} {s w : State} (h : SameDesk sc s w) :
    ((s.screen sc).state ≠ .idle ∨ (∀ n, (s.slot sc n).status.showable = false) ∨ s.startBlocked sc = true →
        (w.fireShowAt sc).screen sc = w.screen sc)
      ∧ ∀ n, (s.screen sc).state = .idle → (s.slot sc n).status.showable = true →
          (∀ j, j < n → (s.slot sc j).status.showable = false) → s.startBlocked sc = false →
          ((w.fireShowAt sc).screen sc).state = .opening ∧ ((w.fireShowAt sc).screen sc).current = some n := by
  obtain ⟨hstate, hslot, hblocked⟩ := h
  simp only [← hstate, ← hslot, ← hblocked]
  refine ⟨fun hnot => congrArg (Pair.get · sc) (State.fireShowAt_still hnot), fun n hidle hshow hlow hclear => ?_⟩
  obtain ⟨hopening, hcurrent, -⟩ := State.fireShowAt_opening hidle ⟨hshow, hlow⟩ hclear
  exact ⟨hopening, hcurrent⟩

/-- Settles O36: the clock and the SHOWAT times, one screen's and both at one advance. -/
theorem clockAndShowAt : Obligations.ClockAndShowAt := by
  refine ⟨?_, ?_⟩
  · intro sc a h m x s hp hsc hh hm hx hms hm'
    obtain ⟨i, hi, hscreen⟩ := screenOperand_of_namesScreen hsc
    have hread : hoursMinutesSeconds? hms = some (h, m, x) := hoursMinutesSeconds_spelled hh hm hx
    have hread' : hoursMinutes? hm' = some (h, m) := hoursMinutes_spelled hh hm
    have hoff : hm' ≠ txt "OFF" := fun e => by
      rw [e] at hread'
      exact absurd hread' (by simp [hoursMinutes?, txt, cutAt])
    refine ⟨fun h1 h2 h3 => exec_time_set hp ?_, fun hout => exec_refused hp (reasonOf_eq_some.2 ?_), fun h1 h2 hclock => ?_,
      fun h1 h2 hclock => exec_refused hp (reasonOf_eq_some.2 ?_), fun hout => exec_refused hp (reasonOf_eq_some.2 ?_), ?_⟩
    · simp [parseTime, hread, h1, h2, h3]
    · have hbad : (decide (h ≤ 23) && decide (m ≤ 59) && decide (x ≤ 59)) = false := by
        rw [← Bool.not_eq_true, Bool.and_eq_true, Bool.and_eq_true]
        simp only [decide_eq_true_eq]
        omega
      simp [parseTime, hread, hbad]
    · exact exec_showat (o := .set (h * 3600 + m * 60)) hp
        (by simp [parseShowat, hi, hoff, hread', hscreen, h1, h2, hclock]) (by simp)
    · simp [parseShowat, hi, hoff, hread', hscreen, h1, h2, hclock]
    · have hbad : (decide (h ≤ 23) && decide (m ≤ 59)) = false := by
        rw [← Bool.not_eq_true, Bool.and_eq_true]
        simp only [decide_eq_true_eq]
        omega
      simp [parseShowat, hi, hoff, hread', hscreen, hbad]
    · exact exec_showat (o := .off) hp (by simp [parseShowat, hi, hscreen]) (by simp)
  · intro dt s hp
    refine ⟨fun hclock => ?_, ?_⟩
    · have hclock' : (s.elapse dt).plan.clock = none := (s.plan.elapse_clock dt).trans hclock
      rw [exec_clockAdvance hp]
      simp only [State.clockTick, hclock']
    intro t hclock now u
    have hexec := exec_clockAdvance_set hp dt hclock
    have hshowAt : (s.secondLater dt t).plan.showAt = s.plan.showAt := s.secondLater_showAt dt t
    refine ⟨fun h1 h2 => ?_, fun sc hdue hother => ?_, fun h1 h2 hlaw => ?_⟩
    · have hfirst : (s.secondLater dt t).showAtDue .s1 now = s.secondLater dt t := if_neg (by rw [hshowAt]; exact h1)
      have hsecond : (s.secondLater dt t).showAtDue .s2 now = s.secondLater dt t := if_neg (by rw [hshowAt]; exact h2)
      rw [hexec, hfirst, hsecond]
      rfl
    · intro v
      have hdesk : SameDesk sc s ((s.secondLater dt t).putShowAt sc none) := .later
      have hmachine : ∀ m, (((s.secondLater dt t).putShowAt sc none).machine m).state = (s.machine m).state :=
        s.secondLater_machine dt t
      rw [State.showAtDue_one (sc := sc) (by rw [hshowAt]; exact hdue) (by rw [hshowAt]; exact hother)] at hexec
      have hv : v = (s.secondLater dt t).putShowAt sc none := rfl
      rw [← hv] at hexec hdesk hmachine
      clear_value v
      obtain ⟨hstate, hslot, hblocked⟩ := hdesk
      simp only [← hstate, ← hslot, ← hblocked, ← hmachine]
      rw [hexec]
      refine ⟨fun hbusy => ?_, fun hidle hnone => ?_, fun hidle ⟨n, hn⟩ htrip => ?_, fun n hidle hshow hlow hclear => ?_⟩
      · rw [State.fireShowAt_busy hbusy]
      · rw [State.fireShowAt_empty hidle hnone]
      · rw [State.fireShowAt_blocked hidle ⟨n, hn⟩ htrip]
      · obtain ⟨hopening, hcurrent, hpoint⟩ := State.fireShowAt_opening hidle ⟨hshow, hlow⟩ hclear
        refine ⟨_, rfl, hopening, hcurrent, hpoint, v.fireShowAt_frame sc, fun hloaded => ?_, fun h => ?_, fun m hm ha hy => ?_⟩
        · have hnone : (v.slot sc n).machine? = none := Slot.machine_none (by rw [hloaded]; decide)
          have hp := State.openSlot_unbound (sc := sc) (n := n) hnone
          rw [State.fireShowAt_opens hidle ⟨hshow, hlow⟩ hclear, State.reportIf, if_pos hp.answer]
          exact ⟨hp.pending, hp.given⟩
        · exact State.fireShowAt_pends hidle ⟨hshow, hlow⟩ hclear h
        · exact State.fireShowAt_armed hidle ⟨hshow, hlow⟩ hclear hm ha hy
    · rw [State.showAtDue_both (by rw [hshowAt]; exact h1) (by rw [hshowAt]; exact h2)] at hexec
      refine ⟨_, hexec, rfl, ?_⟩
      have hlater : ∀ sc, SameDesk sc s ((s.secondLater dt t).putShowAt .s1 none) := fun _ => .later
      have hplan : ((s.secondLater dt t).putShowAt .s1 none).plan.showAt = s.plan.showAt.set .s1 none :=
        congrArg (Pair.set · .s1 none) hshowAt
      have hscreens : ((s.secondLater dt t).putShowAt .s1 none).screens = u.screens := rfl
      clear_value u
      generalize (s.secondLater dt t).putShowAt .s1 none = w at *
      have hpair : ∀ (z : ScreenId) (n : SlotIx) (m : MachineId), (w.slot z n).machine? = some m → screenOf m = z := by
        intro z n m hm
        rw [(hlater z).slot] at hm
        exact (hlaw.toMachine z n m (Slot.bound_of_machine hm)).1
      have hfirst : ScreenKept .s2 w (w.fireShowAt .s1) := State.fireShowAt_keeps (hpair .s1) (by decide)
      have hframe := w.fireShowAt_frame .s1
      have hfired := (hlater .s1).fired
      have hscreen : ∀ z, w.screen z = u.screen z := fun z => congrArg (Pair.get · z) hscreens
      generalize w.fireShowAt .s1 = v at *
      have hdesk : SameDesk .s2 s (v.putShowAt .s2 none) :=
        ⟨(congrArg ScreenRec.state hfirst.screen).trans (hlater .s2).state, fun n => (hfirst.slot n).trans ((hlater .s2).slot n),
          (congrArg (fun f : FireUnit => f.boothLatch.isSome || (f.machineLatch.get .m3).isSome
            || (f.machineLatch.get .m4).isSome) hframe.fire).trans (hlater .s2).blocked⟩
      have hkept : ScreenKept .s1 (v.putShowAt .s2 none) ((v.putShowAt .s2 none).fireShowAt .s2) :=
        State.fireShowAt_keeps (fun n m hm => by rw [hdesk.slot, ← (hlater .s2).slot] at hm; exact hpair .s2 n m hm) (by decide)
      have hcleared : ∀ z, ((v.putShowAt .s2 none).fireShowAt .s2).plan.showAt.get z = none := by
        intro z
        rw [(State.fireShowAt_frame .s2 (v.putShowAt .s2 none)).showAt]
        change (v.plan.showAt.set .s2 none).get z = none
        rw [hframe.showAt, hplan]
        cases z <;> rfl
      intro z
      refine ⟨hcleared z, ?_⟩
      cases z with
      | s1 =>
        rw [show ((v.putShowAt .s2 none).fireShowAt .s2).screen .s1 = v.screen .s1 from hkept.screen, ← hscreen]
        exact hfired
      | s2 =>
        rw [← hscreen, ← show (v.putShowAt .s2 none).screen .s2 = w.screen .s2 from hfirst.screen]
        exact hdesk.fired

end Sys2Proof.Machine

/-! The changeover point reached, and SWAPNOW. -/

namespace Sys2Proof.Machine

open Sys2Proof Host

/-! ### The successor of a screen whose record has changed -/

/-- The on-deck slot and the successor follow from the current slot, from whether the screen is IDLE, and from the slots
(R88). -/
theorem State.onDeck_congr {sc : ScreenId} {s t : State} (hcurrent : (t.screen sc).current = (s.screen sc).current)
    (hidle : (t.screen sc).state = .idle ↔ (s.screen sc).state = .idle) (hslot : ∀ n, t.slot sc n = s.slot sc n) :
    t.onDeck sc = s.onDeck sc ∧ t.successor sc = s.successor sc := by
  have hdeck : t.onDeck sc = s.onDeck sc := by
    by_cases h : (s.screen sc).state = .idle
    · simp only [State.onDeck, h, hidle.2 h]
    · have h' : (t.screen sc).state ≠ .idle := mt hidle.1 h
      unfold State.onDeck State.showableAbove
      simp only [hcurrent, hslot]
      split <;> simp_all
  refine ⟨hdeck, ?_⟩
  simp only [State.successor, hdeck, hslot]

theorem State.modScreen_desk {sc : ScreenId} {s : State} (f : ScreenRec → ScreenRec)
    (hcurrent : (f (s.screen sc)).current = (s.screen sc).current) (hstate : (f (s.screen sc)).state = (s.screen sc).state) :
    (s.modScreen sc f).onDeck sc = s.onDeck sc ∧ (s.modScreen sc f).successor sc = s.successor sc := by
  have hscreen : (s.modScreen sc f).screen sc = f (s.screen sc) := by rw [State.modScreen_screen, if_pos rfl]
  exact State.onDeck_congr (by rw [hscreen, hcurrent]) (by rw [hscreen, hstate]) fun _ => rfl

theorem State.modScreen_modScreen (sc : ScreenId) (f g : ScreenRec → ScreenRec) (s : State) :
    (s.modScreen sc f).modScreen sc g = s.modScreen sc fun x => g (f x) := by
  have hscreen : (s.modScreen sc f).screen sc = f (s.screen sc) := by rw [State.modScreen_screen, if_pos rfl]
  change ({ s with screens := (s.screens.set sc (f (s.screen sc))).set sc (g ((s.modScreen sc f).screen sc)) } : State) = _
  rw [hscreen, Pair.set_set]
  rfl

/-- Readiness is a matter of a machine in RUNUP. -/
theorem State.testReady_idle {sc : ScreenId} {s : State}
    (h : ∀ m, s.successor sc = some m → (s.machine m).state ≠ .runup) : s.testReady sc = s := by
  cases hsucc : s.successor sc with
  | none => simp only [State.testReady, hsucc]
  | some m =>
    refine State.testReady_of_notReady hsucc ?_
    cases hready : s.openReady m with
    | false => rfl
    | true => exact absurd (State.openReady_runup hready) (h m hsucc)

/-! ### A started successor is not ready -/

section

variable {m : MachineId} {s : State} (harmed : (s.machine m).state = .armed) (cause : MotorCause)
include harmed

theorem State.startSuccessor_state :
    ((s.startSuccessor m cause).machine m).state
      = if (s.machine m).loopSwitchClosed = true then .starting else .broken := by
  cases hloop : (s.machine m).loopSwitchClosed with
  | true =>
    rw [State.startSuccessor_closed harmed cause hloop, State.startOrdered_machine harmed, if_pos rfl]
    exact (MachineRec.startedAt_fields harmed).1
  | false =>
    obtain ⟨-, -, hmachine, -⟩ := State.startSuccessor_broken harmed cause hloop
    rw [hmachine, if_neg (by simp)]
    exact ((s.machine m).startedAt s.timebase).brokenNow_fields .loop |>.1

theorem State.startSuccessor_given (hloop : (s.machine m).loopSwitchClosed = true) :
    (s.startSuccessor m cause).screen (screenOf m) = (s.screen (screenOf m)).startGivenNow
      ∧ (s.startSuccessor m cause).line = s.line.report (.motor (screenOf m) m (s.waitedSlot (screenOf m)) cause)
      ∧ ((s.startSuccessor m cause).machine m).motor = true := by
  rw [State.startSuccessor_closed harmed cause hloop, State.startOrdered_machine harmed]
  exact ⟨State.startOrdered_screen m cause s, State.startOrdered_line m cause s, (MachineRec.startedAt_fields harmed).2.1⟩

theorem State.startSuccessor_lost (hloop : (s.machine m).loopSwitchClosed = false)
    (hstate : (s.screen (screenOf m)).state = .showing ∨ (s.screen (screenOf m)).state = .runup
      ∨ (s.screen (screenOf m)).state = .swapDue ∨ (s.screen (screenOf m)).state = .dark) :
    (s.startSuccessor m cause).screen (screenOf m) = { s.screen (screenOf m) with
        startGiven := false, startPending := true
        state := if (s.screen (screenOf m)).state = .dark then .dark else .showing }
      ∧ ((s.startSuccessor m cause).machine m).breakCause = some .loop
      ∧ ((s.startSuccessor m cause).machine m).motor = false := by
  obtain ⟨-, -, hmachine, hscreen⟩ := State.startSuccessor_broken harmed cause hloop
  obtain ⟨-, hcause, hmotor, -⟩ := ((s.machine m).startedAt s.timebase).brokenNow_fields .loop
  rw [hmachine]
  exact ⟨hscreen.trans (ScreenRec.startLost_eq hstate), hcause, hmotor⟩

/-- A started successor is STARTING or BROKEN, so a readiness test after it finds nothing. -/
theorem State.startSuccessor_unready (hsucc : s.successor (screenOf m) = some m)
    (hstate : (s.screen (screenOf m)).state = .showing ∨ (s.screen (screenOf m)).state = .runup
      ∨ (s.screen (screenOf m)).state = .swapDue ∨ (s.screen (screenOf m)).state = .dark) :
    (s.startSuccessor m cause).testReady (screenOf m) = s.startSuccessor m cause := by
  have hreach : StartsOnly m s (s.startSuccessor m cause) := .startSuccessor cause
  have hnotIdle : (s.screen (screenOf m)).state ≠ .idle := by
    obtain h | h | h | h := hstate <;> simp [h]
  have hnotIdle' : ((s.startSuccessor m cause).screen (screenOf m)).state ≠ .idle := by
    cases hloop : (s.machine m).loopSwitchClosed with
    | true =>
      obtain ⟨hscreen, -⟩ := State.startSuccessor_given harmed cause hloop
      rw [hscreen]
      obtain h | h | h | h := hstate <;> cases hp : (s.screen (screenOf m)).point <;> simp [ScreenRec.startGivenNow, h, hp]
    | false =>
      obtain ⟨hscreen, -⟩ := State.startSuccessor_lost harmed cause hloop hstate
      rw [hscreen]
      dsimp only
      split <;> simp
  have hcurrent : ((s.startSuccessor m cause).screen (screenOf m)).current = (s.screen (screenOf m)).current := by
    rw [hreach.screen]
  have hkept := (State.onDeck_congr hcurrent ⟨fun h => absurd h hnotIdle', fun h => absurd h hnotIdle⟩
    (hreach.slot (screenOf m))).2
  refine State.testReady_idle fun k hk => ?_
  rw [hkept, hsucc] at hk
  obtain rfl := Option.some.inj hk
  rw [State.startSuccessor_state harmed]
  split <;> simp

end

/-! ### The point -/

/-- The point is recorded with its cause, and SWAP_DUE entered (R111). -/
def State.pointed (sc : ScreenId) (cause : PointCause) (s : State) : State :=
  s.modScreen sc fun y => { y with point := some cause, state := .swapDue }

theorem State.pointed_screen (sc : ScreenId) (cause : PointCause) (s : State) :
    (s.pointed sc cause).screen sc = { s.screen sc with point := some cause, state := .swapDue } := by
  rw [State.pointed, State.modScreen_screen, if_pos rfl]

section

variable {sc : ScreenId} {s : State} (cause : PointCause)
    (hshow : (s.screen sc).state = .showing ∨ (s.screen sc).state = .runup)
include hshow

theorem State.pointed_desk : (s.pointed sc cause).onDeck sc = s.onDeck sc
    ∧ (s.pointed sc cause).successor sc = s.successor sc := by
  refine State.onDeck_congr ?_ ?_ fun _ => rfl
  · rw [State.pointed_screen]
  · rw [State.pointed_screen]
    obtain h | h := hshow <;> simp [h]

/-- A point already reached, or none to reach, leaves the state (R111). -/
theorem State.reachPoint_stands (f : Nat) (h : (s.screen sc).point.isSome = true ∨ s.successorWithCo sc = false) :
    s.reachPoint sc cause f = s := by
  unfold State.reachPoint
  dsimp only
  rw [if_neg]
  rintro ⟨-, hco, hnone⟩
  obtain h | h := h
  · simp [hnone] at h
  · simp [hco] at h

variable (hco : s.successorWithCo sc = true) (hpoint : (s.screen sc).point = none)
include hco hpoint

theorem State.reachPoint_eq (f : Nat) :
    s.reachPoint sc cause f
      = ((((s.pointed sc cause).reportIf (cause == .fallback) (.lateFallback sc (s.screen sc).current f)).startDue sc
          .change true).testReady sc) := by
  unfold State.reachPoint
  dsimp only
  rw [if_pos ⟨hshow, hco, hpoint⟩]
  rfl

section

variable (f : Nat) (hcause : cause ≠ .fallback)
include hcause

theorem State.reachPoint_quiet :
    s.reachPoint sc cause f = ((s.pointed sc cause).startDue sc .change true).testReady sc := by
  have hno : (cause == .fallback) = false := by simpa using hcause
  rw [State.reachPoint_eq cause hshow hco hpoint, hno]
  rfl

/-- With a start given or pending none falls due anew, and readiness is tested (R111, R113). -/
theorem State.reachPoint_given (h : (s.screen sc).startGiven = true ∨ (s.screen sc).startPending = true) :
    s.reachPoint sc cause f = (s.pointed sc cause).testReady sc := by
  rw [State.reachPoint_quiet cause hshow hco hpoint f hcause, State.startDue_given]
  rw [State.pointed_screen]
  exact h

variable (hgiven : (s.screen sc).startGiven = false) (hpending : (s.screen sc).startPending = false)
include hgiven hpending

/-- With nothing to start *MISSED is reported and the start is pending (R109, R111). -/
theorem State.reachPoint_missed
    (hnone : ∀ m, s.successor sc = some m → (s.machine m).state ≠ .armed ∧ (s.machine m).state ≠ .runup) :
    s.reachPoint sc cause f = ((s.pointed sc cause).modScreen sc fun x => { x with startPending := true }).report
      (.missed sc (s.onDeck sc) .armed) := by
  obtain ⟨hdeck, hsucc⟩ := s.pointed_desk cause hshow
  rw [State.reachPoint_quiet cause hshow hco hpoint f hcause, State.startDue_unarmed, hdeck]
  · refine State.testReady_idle fun m hm => ?_
    have hdesk := ((s.pointed sc cause).modScreen_desk (sc := sc) (fun x => { x with startPending := true }) rfl rfl).2
    exact (hnone m (by rw [← hsucc, ← hdesk]; exact hm)).2
  · rw [State.pointed_screen]; exact hgiven
  · rw [State.pointed_screen]; exact hpending
  · intro m hm
    exact (hnone m (by rw [← hsucc]; exact hm)).1

/-- An ARMED successor is started with cause CHANGE (R109, R111). -/
theorem State.reachPoint_starts {m : MachineId} (hm : screenOf m = sc) (hsucc : s.successor sc = some m)
    (harmed : (s.machine m).state = .armed) :
    s.reachPoint sc cause f = (s.pointed sc cause).startSuccessor m .change := by
  subst hm
  have hpointed := s.pointed_screen (screenOf m) cause
  have hsucc' : (s.pointed (screenOf m) cause).successor (screenOf m) = some m := by
    rw [(s.pointed_desk cause hshow).2, hsucc]
  rw [State.reachPoint_quiet cause hshow hco hpoint f hcause,
    State.startDue_armed .change true (by rw [hpointed]; exact hgiven) (by rw [hpointed]; exact hpending) hsucc' harmed]
  exact State.startSuccessor_unready (s := s.pointed (screenOf m) cause) harmed .change hsucc'
    (.inr (.inr (.inl (by rw [hpointed]))))

end

end

/-! ### SWAPNOW (R112) -/

theorem exec_swapnow_ok {s : State} {w : List Text} {sc : ScreenId} (hp : s.powered = true)
    (h : parseSwapnow s w = .ok sc) :
    exec (.swapnow w) s = .next (((s.taken (.swapnow w)).swapNow sc).answer (.ok [])) := by
  have hparse : parseSwapnow (s.taken (.swapnow w)) w = .ok sc := h
  change execSwapnow w s = _
  simp only [execSwapnow, State.takeCommand_of_powered hp, hparse]

theorem State.swapNow_shown {sc : ScreenId} {s : State} (h : (s.screen sc).state = .showing ∨ (s.screen sc).state = .runup) :
    s.swapNow sc = s.reachPoint sc .console 0 := by
  obtain h | h := h <;> simp [State.swapNow, h]

/-- The point recorded on a DARK screen, whose state stands (R112). -/
def State.darkPointed (sc : ScreenId) (s : State) : State := s.modScreen sc fun x => { x with point := some .console }

theorem State.darkPointed_screen (sc : ScreenId) (s : State) :
    (s.darkPointed sc).screen sc = { s.screen sc with point := some .console } := by
  rw [State.darkPointed, State.modScreen_screen, if_pos rfl]

theorem State.swapNow_dark {sc : ScreenId} {s : State} (h : (s.screen sc).state = .dark) :
    s.swapNow sc = (s.darkPointed sc).startDue sc .console false := if_pos h

theorem State.darkPointed_successor (sc : ScreenId) (s : State) : (s.darkPointed sc).successor sc = s.successor sc :=
  (State.modScreen_desk _ rfl rfl).2

section

variable {sc : ScreenId} {s : State} {m : MachineId} (h : (s.screen sc).state = .dark)
    (hgiven : (s.screen sc).startGiven = false) (hpending : (s.screen sc).startPending = false)
    (hsucc : s.successor sc = some m)
include h hgiven hpending hsucc

theorem State.swapNow_dark_unarmed (hnot : (s.machine m).state ≠ .armed) :
    s.swapNow sc = s.modScreen sc fun y => { y with point := some .console, startPending := true } := by
  have hpointed := s.darkPointed_screen sc
  rw [State.swapNow_dark h, State.startDue_unarmed]
  · simp only [State.reportIf, Bool.false_eq_true, if_false, State.darkPointed, State.modScreen_modScreen]
  · rw [hpointed]; exact hgiven
  · rw [hpointed]; exact hpending
  · intro k hk
    rw [State.darkPointed_successor, hsucc] at hk
    obtain rfl := Option.some.inj hk
    exact hnot

theorem State.swapNow_dark_armed (harmed : (s.machine m).state = .armed) :
    s.swapNow sc = (s.darkPointed sc).startSuccessor m .console := by
  have hpointed := s.darkPointed_screen sc
  rw [State.swapNow_dark h, State.startDue_armed _ _ (by rw [hpointed]; exact hgiven) (by rw [hpointed]; exact hpending)
    ((s.darkPointed_successor sc).trans hsucc) harmed]

end

/-- Settles O38: SWAPNOW by the state of the screen and of its successor. -/
theorem swapnowReachesThePoint : Obligations.SwapnowReachesThePoint := by
  intro sc a s hp hsc c x showing dark
  have hone := onlyScreen_of_namesScreen hsc
  have hparse : showing ∨ dark → parseSwapnow s [a] = .ok sc := by
    rintro (⟨h | h, hco⟩ | ⟨h, hsome, hgiven, hpending⟩)
    · simp [parseSwapnow, hone, show (s.screen sc).state = _ from h, hco]
    · simp [parseSwapnow, hone, show (s.screen sc).state = _ from h, hco]
    · simp [parseSwapnow, hone, show (s.screen sc).state = _ from h, hsome, show (s.screen sc).startGiven = _ from hgiven,
        show (s.screen sc).startPending = _ from hpending]
  have hexec : showing ∨ dark → exec c s = .next (((s.taken c).swapNow sc).answer (.ok [])) := fun h =>
    exec_swapnow_ok hp (hparse h)
  have hshown : showing → exec c s = .next (((s.taken c).reachPoint sc .console 0).answer (.ok [])) := fun h => by
    rw [hexec (.inl h), State.swapNow_shown (s := s.taken c) h.1]
  have hlit : ∀ (u : State) (m : MachineId), u.lamp m = ((s.taken c).lamp m).asked ((s.taken c).machine m).holds.fire →
      (s.lamp m).state = .dark → (s.lamp m).remaining ≠ 0 → (s.machine m).holds.fire = false →
      u.lamp m = (s.lamp m).beginStrike := fun u m hu h1 h2 h3 => hu.trans (if_pos ⟨h1, h2, h3⟩)
  refine ⟨fun hnot hnot' => exec_refused hp (reasonOf_eq_some.2 ?_), fun h => ⟨_, hexec h, ?_⟩,
    fun hshow hpoint hgiven hpending hnone => ?_, ?_, ?_, fun hshow hpoint hstarted => ?_, fun hshow hpoint => ?_,
    fun m hdark hsucc hnot => ?_, ?_⟩
  · cases hstate : (s.screen sc).state with
    | showing | runup =>
      cases hco : s.successorWithCo sc with
      | true => exact absurd ⟨by simp [x, hstate], hco⟩ hnot
      | false => simp [parseSwapnow, hone, hstate, hco]
    | dark =>
      cases hall : (s.successor sc).isSome && !(s.screen sc).startGiven && !(s.screen sc).startPending with
      | true =>
        simp only [Bool.and_eq_true, Bool.not_eq_true'] at hall
        exact absurd ⟨hstate, hall.1.1, hall.1.2, hall.2⟩ hnot'
      | false => simp [parseSwapnow, hone, hstate, hall]
    | _ => simp [parseSwapnow, hone, hstate]
  · exact (Reactions.swapNow sc (.refl' _)).frame
  · have hreach := State.reachPoint_missed (s := s.taken c) .console hshow.1 hshow.2 hpoint 0 (by decide) hgiven hpending hnone
    rw [hshown hshow, hreach, State.pointed, State.modScreen_modScreen]
    rfl
  · rintro m rfl hshow hpoint hgiven hpending hsucc harmed hloop
    have hreach := State.reachPoint_starts (s := s.taken c) .console hshow.1 hshow.2 hpoint 0 (by decide) hgiven hpending rfl
      hsucc harmed
    have hpointed := (s.taken c).pointed_screen (screenOf m) .console
    rw [hshown hshow, hreach]
    obtain ⟨hscreen, -, hmotor⟩ := State.startSuccessor_given (s := (s.taken c).pointed (screenOf m) .console) harmed .change hloop
    have hstate := State.startSuccessor_state (s := (s.taken c).pointed (screenOf m) .console) harmed .change
    have hlamp := State.startSuccessor_lamp (s := (s.taken c).pointed (screenOf m) .console) harmed .change
    rw [hpointed] at hscreen
    refine ⟨_, rfl, ?_, ?_, ?_, ?_, hstate.trans (if_pos hloop), hmotor, hlit _ m hlamp⟩ <;> rw [hscreen] <;> rfl
  · rintro m rfl hpoint hgiven hpending hsucc harmed hloop hwhich
    have hstarted : ∃ (w : State) (k : MotorCause), exec c s = .next ((w.startSuccessor m k).answer (.ok []))
        ∧ w.machine m = s.machine m ∧ w.lamp m = s.lamp m
        ∧ ((w.screen (screenOf m)).state = .swapDue ∨ (w.screen (screenOf m)).state = .dark)
        ∧ ({ w.screen (screenOf m) with
              startGiven := false, startPending := true,
              state := if (w.screen (screenOf m)).state = .dark then .dark else .showing } : ScreenRec)
          = { x with
              point := some .console, startGiven := false, startPending := true,
              state := if x.state = .dark then .dark else .showing } := by
      obtain hshow | hdark := hwhich
      · have hreach := State.reachPoint_starts (s := s.taken c) .console hshow.1 hshow.2 hpoint 0 (by decide) hgiven hpending
          rfl hsucc harmed
        refine ⟨(s.taken c).pointed (screenOf m) .console, .change, by rw [hshown hshow, hreach], rfl, rfl, .inl ?_, ?_⟩
        · rw [State.pointed_screen]
        · rw [State.pointed_screen, if_neg (by simp), if_neg (by obtain h | h := hshow.1 <;> simp [h])]
          rfl
      · have hstart := State.swapNow_dark_armed (s := s.taken c) hdark.1 hgiven hpending hsucc harmed
        refine ⟨(s.taken c).darkPointed (screenOf m), .console, by rw [hexec (.inr hdark), hstart], rfl, rfl, .inr ?_, ?_⟩
        · rw [State.darkPointed_screen]
          exact hdark.1
        · rw [State.darkPointed_screen]
          rfl
    obtain ⟨w, k, hw, hmachine, hlamp, hstate, hscreen⟩ := hstarted
    have harmed' : (w.machine m).state = .armed := by rw [hmachine]; exact harmed
    have hloop' : (w.machine m).loopSwitchClosed = false := by rw [hmachine]; exact hloop
    obtain ⟨hlost, hcause, hmotor⟩ := State.startSuccessor_lost harmed' k hloop' (.inr (.inr hstate))
    have hbroken := State.startSuccessor_state harmed' k
    rw [if_neg (by simp [hloop'])] at hbroken
    exact ⟨_, hw, hlost.trans hscreen, hbroken, hcause, hmotor,
      hlit _ m (by rw [State.startSuccessor_lamp harmed' k, hlamp, hmachine]; rfl)⟩
  · have hreach := State.reachPoint_given (s := s.taken c) .console hshow.1 hshow.2 hpoint 0 (by decide) hstarted
    rw [hshown hshow, hreach]
    rfl
  · have hreach := State.reachPoint_stands (s := s.taken c) .console hshow.1 0 (.inl hpoint)
    rw [hshown hshow, hreach]
    rfl
  · obtain ⟨hstate, -, hgiven, hpending⟩ := id hdark
    rw [hexec (.inr hdark), State.swapNow_dark_unarmed (s := s.taken c) hstate hgiven hpending hsucc hnot]
  · rintro m rfl hdark hsucc harmed hloop
    obtain ⟨hdarkState, -, hgiven, hpending⟩ := id hdark
    have hstart := State.swapNow_dark_armed (s := s.taken c) hdarkState hgiven hpending hsucc harmed
    rw [hexec (.inr hdark), hstart]
    have hpointed := (s.taken c).darkPointed_screen (screenOf m)
    obtain ⟨hscreen, -, -⟩ := State.startSuccessor_given (s := (s.taken c).darkPointed (screenOf m)) harmed .console hloop
    have hstate := State.startSuccessor_state (s := (s.taken c).darkPointed (screenOf m)) harmed .console
    rw [hpointed] at hscreen
    have hkept : (ScreenRec.startGivenNow { (s.taken c).screen (screenOf m) with point := some .console }).state = .dark := by
      have h : ((s.taken c).screen (screenOf m)).state = .dark := hdarkState
      simp [ScreenRec.startGivenNow, h]
    refine ⟨_, rfl, ?_, ?_, ?_, ?_, hstate.trans (if_pos hloop)⟩ <;> rw [hscreen]
    · exact hkept
    all_goals rfl

end Sys2Proof.Machine

/-! The figures of the start timing, and the frame notice at the controller. -/

namespace Sys2Proof.Machine

open Sys2Proof Host

/-! ### The figures (R34 to R37) -/

/-- A quotient rounded up is the least that covers. -/
theorem ceilDiv_bounds {a p : Nat} (hp : 0 < p) : a ≤ ceilDiv a p * p ∧ ceilDiv a p * p < a + p := by
  have hdiv := Nat.div_add_mod (a + p - 1) p
  have hmod := Nat.mod_lt (a + p - 1) hp
  rw [Nat.mul_comm] at hdiv
  unfold ceilDiv
  omega

theorem MachineRec.timingPeriod_eq (r : MachineRec) :
    r.timingPeriod = match r.average, r.lastAverage with
      | some a, _ => a
      | none, some a => a
      | none, none => 41667 := by
  unfold MachineRec.timingPeriod
  cases r.average <;> cases r.lastAverage <;> rfl

section

variable {sc : ScreenId} {s : State} {e : SlotEntry} {co : Nat} (he : s.currentEntry sc = some e)
include he

theorem State.formTiming_of_co (hco : e.co = some co) (on : MachineId) (f : Nat) :
    s.formTiming sc on f = s.modScreen sc fun x =>
      { x with
        framesToGo := some (co - f)
        nStart := s.startPoint sc on
        strikeFrames := (s.startPoint sc on).map fun _ => s.strikeFramesNow on } := by
  obtain ⟨_, _, co', _, _, _, _, _, _, _⟩ := e
  obtain rfl : co' = some co := hco
  simp only [State.formTiming, he]

theorem State.footagePoint_foot (hco : e.co = some co) (hmode : e.mode = .foot) (f : Nat) :
    s.footagePoint sc f = if co ≤ f then s.reachPoint sc .footage f else s := by
  obtain ⟨_, _, co', _, _, mode', _, _, _, _⟩ := e
  obtain rfl : co' = some co := hco
  obtain rfl : mode' = .foot := hmode
  simp only [State.footagePoint, he]

theorem State.footagePoint_film (hco : e.co = some co) (hmode : e.mode = .film) (f : Nat) :
    s.footagePoint sc f = if co + e.window ≤ f then s.reachPoint sc .fallback f else s := by
  obtain ⟨_, _, co', _, _, mode', _, _, _, _⟩ := e
  obtain rfl : co' = some co := hco
  obtain rfl : mode' = .film := hmode
  simp only [State.footagePoint, he]

end

theorem State.formTiming_none {sc : ScreenId} {s : State} (h : ∀ e, s.currentEntry sc = some e → e.co = none)
    (on : MachineId) (f : Nat) : s.formTiming sc on f = s.modScreen sc ScreenRec.discardTiming := by
  unfold State.formTiming
  split
  next he => exact absurd (h _ he) (by simp)
  next => rfl

theorem State.footagePoint_none {sc : ScreenId} {s : State} (h : ∀ e, s.currentEntry sc = some e → e.co = none) (f : Nat) :
    s.footagePoint sc f = s := by
  unfold State.footagePoint
  split
  next he => exact absurd (h _ he) (by simp)
  next he => exact absurd (h _ he) (by simp)
  next => rfl

/-- A footage frame reaches no point where the screen does not wait for one (R111). -/
theorem State.footagePoint_stands {sc : ScreenId} {s : State} {f : Nat} (h : ∀ cause, s.reachPoint sc cause f = s) :
    s.footagePoint sc f = s := by
  unfold State.footagePoint
  split
  · split
    · exact h _
    · rfl
  · split
    · exact h _
    · rfl
  · rfl

theorem State.reachPoint_elsewhere {sc : ScreenId} {s : State} (h : (s.screen sc).state ≠ .showing ∧ (s.screen sc).state ≠ .runup)
    (cause : PointCause) (f : Nat) : s.reachPoint sc cause f = s := by
  unfold State.reachPoint
  dsimp only
  rw [if_neg]
  rintro ⟨h' | h', -⟩
  · exact h.1 h'
  · exact h.2 h'

/-- The point is reached only once, and only with a successor with CO on a SHOWING or RUNUP screen (R111). -/
theorem State.reachPoint_of_not {sc : ScreenId} {s : State} (h : (s.screen sc).point.isSome = true
    ∨ s.successorWithCo sc = false ∨ ((s.screen sc).state ≠ .showing ∧ (s.screen sc).state ≠ .runup))
    (cause : PointCause) (f : Nat) : s.reachPoint sc cause f = s := by
  by_cases hshow : (s.screen sc).state = .showing ∨ (s.screen sc).state = .runup
  · obtain h | h | h := h
    · exact State.reachPoint_stands cause hshow f (.inl h)
    · exact State.reachPoint_stands cause hshow f (.inr h)
    · exact absurd hshow (by simpa [not_or] using h)
  · exact State.reachPoint_elsewhere (not_or.1 hshow) cause f

/-! ### Changes of a screen's record alone -/

theorem State.modScreen_congr {sc : ScreenId} {s : State} {f g : ScreenRec → ScreenRec}
    (h : f (s.screen sc) = g (s.screen sc)) : s.modScreen sc f = s.modScreen sc g := by
  simp only [State.modScreen, h]

theorem State.overlapStep_eq (sc : ScreenId) (m : MachineId) (s : State) :
    s.overlapStep sc m = s.modScreen sc fun y =>
      if y.mixer ≠ .both then y
      else if y.overlapLeft ≤ 1 then { y with overlapLeft := 0, mixer := .machine m }
      else { y with overlapLeft := y.overlapLeft - 1 } := by
  refine State.modScreen_congr ?_
  generalize s.screen sc = y
  by_cases hboth : y.mixer = .both
  · by_cases hlast : y.overlapLeft ≤ 1
    · have hzero : y.overlapLeft - 1 = 0 := by omega
      simp [hboth, hlast, hzero]
    · simp only [hboth, if_true, hlast, if_false, ne_eq, not_true_eq_false]
  · simp [hboth]

theorem State.overlapStep_state (sc : ScreenId) (m : MachineId) (s : State) :
    ((s.overlapStep sc m).screen sc).state = (s.screen sc).state := by
  rw [State.overlapStep, State.modScreen_screen, if_pos rfl]
  split <;> rfl

/-! ### The dark hold watch (R124) -/

/-- The dark hold timer after a posting of the ON_SCREEN machine: it starts as the picture is first lost, and is stopped
when it is not. -/
def ScreenRec.holdAfter (lost : Bool) (x : ScreenRec) : DarkHold :=
  if (x.state = .showing ∨ x.state = .runup ∨ x.state = .swapDue) ∧ lost = true then
    if x.darkHold = .stopped then .running 0 else x.darkHold
  else .stopped

theorem State.watchPicture_eq {sc : ScreenId} {m : MachineId} {s : State} (hon : (s.screen sc).onScreen = some m) :
    s.watchPicture sc
      = if (s.machine m).douser = .opened ∧ (s.screen sc).faultClaim = .picture then
          (s.modScreen sc fun x => { x with darkHold := (s.screen sc).holdAfter (s.pictureLostTo m) }).releaseFault sc
        else s.modScreen sc fun x => { x with darkHold := (s.screen sc).holdAfter (s.pictureLostTo m) } := by
  have hhold : (s.modScreen sc fun x => { x with
      darkHold := if (match (s.screen sc).state with
          | .showing | .runup | .swapDue => true
          | .idle | .opening | .dark | .interval | .halted => false) && s.pictureLostTo m then
            (match x.darkHold with | .stopped => .running 0 | t => t) else .stopped })
      = s.modScreen sc fun x => { x with darkHold := (s.screen sc).holdAfter (s.pictureLostTo m) } := by
    refine State.modScreen_congr ?_
    generalize s.screen sc = x
    generalize s.pictureLostTo m = lost
    unfold ScreenRec.holdAfter
    cases hstate : x.state <;> cases lost <;> cases hdark : x.darkHold <;> simp
  unfold State.watchPicture
  simp only [hon]
  rw [← hhold] <;> rfl

theorem State.watchPicture_screen {sc : ScreenId} {m : MachineId} {s : State} (hon : (s.screen sc).onScreen = some m) :
    ((s.watchPicture sc).screen sc).current = (s.screen sc).current
      ∧ ((s.watchPicture sc).screen sc).state = (s.screen sc).state ∧ ∀ n, (s.watchPicture sc).slot sc n = s.slot sc n := by
  rw [State.watchPicture_eq hon]
  split
  · rw [State.releaseFault_screen, if_pos rfl, State.modScreen_screen, if_pos rfl]
    exact ⟨rfl, rfl, fun n => by simp [State.releaseFault, State.releaseThree]⟩
  · rw [State.modScreen_screen, if_pos rfl]
    exact ⟨rfl, rfl, fun n => rfl⟩

theorem State.machinePosted_watches {m : MachineId} {s : State} (hon : (s.screen (screenOf m)).onScreen = some m)
    (hwait : s.waitedOn (screenOf m) ≠ some m) (hsucc : s.successor (screenOf m) ≠ some m) :
    s.machinePosted m = s.watchPicture (screenOf m) := by
  obtain ⟨hcurrent, hstate, hslot⟩ := State.watchPicture_screen hon
  have hsucc' := (State.onDeck_congr hcurrent (by rw [hstate]) hslot).2
  have hwait' : (s.watchPicture (screenOf m)).waitedOn (screenOf m) = s.waitedOn (screenOf m) := by
    simp only [State.waitedOn, hstate, hcurrent, hsucc', hslot]
  unfold State.machinePosted
  dsimp only
  rw [if_pos hon, hwait', if_neg hwait, hsucc', if_neg hsucc]

/-! ### The figures and their conditions, as O44 states them -/

theorem State.formTiming_figures (sc : ScreenId) (on : MachineId) (f : Nat) (s : State) {p : Nat} (hpos : 0 < p)
    (hp : (s.machine on).timingPeriod = p) {e : SlotEntry} {co : Nat} (he : s.currentEntry sc = some e)
    (hco : e.co = some co) :
    let x := (s.formTiming sc on f).screen sc
    let lam := fun (d : SlotEntry) =>
      (s.machine (partnerOf on)).accelAllowance + d.runUp * 41667 + (s.screen sc).margin
    x.framesToGo = some (co - f)
      ∧ (s.onDeckEntry sc = none → x.nStart = none ∧ x.strikeFrames = none)
      ∧ ∀ d, s.onDeckEntry sc = some d → ∃ n k, x.nStart = some n ∧ x.strikeFrames = some k
          ∧ lam d ≤ n * p ∧ n * p < lam d + p
          ∧ (s.lamp (partnerOf on)).strikeLead * 1000000 ≤ k * p
          ∧ k * p < (s.lamp (partnerOf on)).strikeLead * 1000000 + p := by
  dsimp only
  rw [State.formTiming_of_co he hco, State.modScreen_screen, if_pos rfl]
  refine ⟨rfl, fun hnone => ?_, fun d hd => ?_⟩
  · simp [State.startPoint, hnone]
  · obtain ⟨hlead, hlead'⟩ := ceilDiv_bounds (a := leadTime (s.machine (partnerOf on)).accelAllowance d.runUp (s.screen sc).margin)
      hpos
    obtain ⟨hstrike, hstrike'⟩ := ceilDiv_bounds (a := (s.lamp (partnerOf on)).strikeLead * 1000000) hpos
    refine ⟨_, _, by simp only [State.startPoint, hd, Option.map_some, hp], ?_, hlead, hlead', hstrike, hstrike'⟩
    simp only [State.startPoint, hd, Option.map_some, State.strikeFramesNow, hp]

theorem State.strikePoint_eq {sc : ScreenId} {s : State} {g n k : Nat} (on : MachineId) (hg : (s.screen sc).framesToGo = some g)
    (hn : (s.screen sc).nStart = some n) (hk : (s.screen sc).strikeFrames = some k) :
    s.strikePoint sc on
      = if g ≤ n + k ∧ (s.machine (partnerOf on)).state = .armed ∧ (s.lamp (partnerOf on)).state = .dark then
          s.strikeRequest (partnerOf on) else s := by
  simp only [State.strikePoint, hg, hn, hk]

theorem State.startPointReached_eq {sc : ScreenId} {s : State} {g n : Nat} (hg : (s.screen sc).framesToGo = some g)
    (hn : (s.screen sc).nStart = some n) :
    s.startPointReached sc = if g ≤ n then s.startDue sc .point true else s := by
  simp only [State.startPointReached, hg, hn]

/-- The frame notice of the ON_SCREEN machine: the overlap, and in the states that show the figures and what falls due by
them (R34, R110, R111, R115). -/
theorem State.frameNotice_on {m : MachineId} {s : State} (hon : (s.screen (screenOf m)).onScreen = some m)
    (hstate : (s.machine m).state = .onScreen) :
    s.frameNotice m = (if (s.screen (screenOf m)).state = .showing ∨ (s.screen (screenOf m)).state = .runup
        ∨ (s.screen (screenOf m)).state = .swapDue then
      (((((s.overlapStep (screenOf m) m).formTiming (screenOf m) m (s.machine m).frameCount).strikePoint (screenOf m)
        m).startPointReached (screenOf m)).footagePoint (screenOf m) (s.machine m).frameCount)
      else s.overlapStep (screenOf m) m).machinePosted m := by
  have hkept := s.overlapStep_state (screenOf m) m
  unfold State.frameNotice
  dsimp only
  rw [if_pos ⟨hon, hstate⟩]
  refine congrArg (State.machinePosted m) ?_
  rw [hkept]
  cases (s.screen (screenOf m)).state <;> rfl

theorem State.frameNotice_off {m : MachineId} {s : State} (h : (s.screen (screenOf m)).onScreen ≠ some m
    ∨ (s.machine m).state ≠ .onScreen) : s.frameNotice m = s.machinePosted m := by
  unfold State.frameNotice
  dsimp only
  rw [if_neg]
  rintro ⟨hon, hstate⟩
  exact h.elim (fun h => h hon) fun h => h hstate

/-- The point by FOOTAGE or FALLBACK (R111): what it brings, by the starts given and pending. -/
theorem State.footagePoint_reaches {sc : ScreenId} {s : State} {e : SlotEntry} {co f : Nat} {cause : PointCause}
    (he : s.currentEntry sc = some e) (hco : e.co = some co)
    (hshow : (s.screen sc).state = .showing ∨ (s.screen sc).state = .runup) (hdeck : (s.onDeck sc).isSome = true)
    (hpoint : (s.screen sc).point = none)
    (hcause : (e.mode = .foot ∧ co ≤ f ∧ cause = PointCause.footage)
      ∨ (e.mode = .film ∧ co + e.window ≤ f ∧ cause = .fallback)) :
    s.footagePoint sc f
      = (((s.pointed sc cause).reportIf (cause == .fallback) (.lateFallback sc (s.screen sc).current f)).startDue sc
          .change true).testReady sc := by
  have hwith : s.successorWithCo sc = true := by simp [State.successorWithCo, he, hco, hdeck]
  have hreach : s.footagePoint sc f = s.reachPoint sc cause f := by
    obtain ⟨hmode, hf, rfl⟩ | ⟨hmode, hf, rfl⟩ := hcause
    · rw [State.footagePoint_foot he hco hmode, if_pos hf]
    · rw [State.footagePoint_film he hco hmode, if_pos hf]
  rw [hreach, State.reachPoint_eq cause hshow hwith hpoint]

/-- Settles O44: the figures, the frame notice, the points and the dark hold watch. -/
theorem startTimingFigures : Obligations.StartTimingFigures := by
  refine ⟨?_, ?_⟩
  · intro sc on f s x p lam
    refine ⟨fun e co he hco hpos => State.formTiming_figures sc on f s hpos (MachineRec.timingPeriod_eq _) he hco,
      fun hnone => ?_, fun g n k hg hn hk => ⟨fun hle harmed hdark => ?_, fun hnot => ?_, fun hle => ?_, fun hlt => ?_⟩⟩
    · have hx : x = (s.screen sc).discardTiming := by
        simp only [x]
        rw [State.formTiming_none hnone, State.modScreen_screen, if_pos rfl]
      rw [hx]
      exact ⟨rfl, rfl, rfl⟩
    · rw [State.strikePoint_eq on hg hn hk, if_pos ⟨hle, harmed, hdark⟩]
    · rw [State.strikePoint_eq on hg hn hk, if_neg]
      rintro ⟨hle, harmed, hdark⟩
      obtain h | h | h := hnot
      · omega
      · exact h harmed
      · exact h hdark
    · rw [State.startPointReached_eq hg hn, if_pos hle]
    · rw [State.startPointReached_eq hg hn, if_neg (by omega)]
  · intro m s sc x f shows mixed
    have hmixed : s.overlapStep sc m = mixed := s.overlapStep_eq sc m
    refine ⟨fun hon hstate => ⟨fun hshows => ?_, fun hnot => ?_⟩, State.frameNotice_off,
      fun e co cause he hco hshow hdeck hpoint hcause => ?_, fun hnot => ?_, fun hon hwait hsucc => ?_, ?_⟩
    · rw [State.frameNotice_on hon hstate, if_pos hshows, hmixed]
    · rw [State.frameNotice_on hon hstate, if_neg hnot, hmixed]
    · intro y late
      have hlate : (s.pointed sc cause).reportIf (cause == .fallback) (.lateFallback sc x.current f) = late := by
        simp only [late, State.reportIf, beq_iff_eq]
        rfl
      have hscreen : late.screen sc = { s.screen sc with point := some cause, state := .swapDue } := by
        rw [← hlate]
        unfold State.reportIf
        split <;> exact s.pointed_screen sc cause
      have hdesk : late.onDeck sc = s.onDeck sc ∧ late.successor sc = s.successor sc := by
        rw [← hlate]
        unfold State.reportIf
        split <;> exact s.pointed_desk cause hshow
      have hmachine : ∀ j, late.machine j = s.machine j := by
        intro j
        rw [← hlate]
        unfold State.reportIf
        split <;> rfl
      have hreach := State.footagePoint_reaches he hco hshow hdeck hpoint hcause
      rw [hlate] at hreach
      refine ⟨fun hstarted => ?_, fun hgiven hpending => ⟨fun j hj harmed => ?_, fun hnone => ?_⟩⟩
      · rw [hreach, State.startDue_given _ _ (by rw [hscreen]; exact hstarted)]
      · rw [hreach, State.startDue_armed _ _ (by rw [hscreen]; exact hgiven) (by rw [hscreen]; exact hpending)
          (hdesk.2.trans hj) (by rw [hmachine]; exact harmed)]
      · rw [hreach, State.startDue_unarmed _ _ (by rw [hscreen]; exact hgiven) (by rw [hscreen]; exact hpending)
          (fun k hk => by rw [hmachine]; exact hnone k (hdesk.2.symm.trans hk)), hdesk.1]
        rfl
    · obtain hearly | hrest := hnot
      · cases he : s.currentEntry sc with
        | none => exact State.footagePoint_none (by simp [he]) f
        | some e =>
          cases hco : e.co with
          | none => exact State.footagePoint_none (by simp [he, hco]) f
          | some co =>
            obtain ⟨hmode, hlt⟩ | ⟨hmode, hlt⟩ := hearly e co he hco
            · rw [State.footagePoint_foot he hco hmode, if_neg (by omega)]
            · rw [State.footagePoint_film he hco hmode, if_neg (by omega)]
      · refine State.footagePoint_stands fun cause => State.reachPoint_of_not ?_ cause f
        obtain h | h | h := hrest
        · exact .inl h
        · exact .inr (.inl (by simp [State.successorWithCo, h]))
        · exact .inr (.inr h)
    · intro lost hold watched
      have hhold : (s.screen sc).holdAfter (s.pictureLostTo m) = hold := by
        have hlost : s.pictureLostTo m = true ↔ lost := by
          simp [State.pictureLostTo, lost]
        simp only [ScreenRec.holdAfter, hlost]
        rfl
      rw [State.machinePosted_watches hon hwait hsucc, State.watchPicture_eq hon]
      refine ⟨fun hopen => ?_, fun hnot => ?_⟩
      · rw [if_pos hopen, hhold]
        rfl
      · rw [if_neg hnot, hhold]
    · intro sc f s x y t
      refine ⟨fun h => State.reachPoint_of_not h .cue f, fun hshow hco hpoint => ⟨?_, fun hstarted => ?_,
        fun hgiven hpending => ⟨?_, fun hnone => ?_⟩⟩⟩
      · exact State.reachPoint_quiet .cue hshow hco hpoint f (by decide)
      · exact State.reachPoint_given .cue hshow hco hpoint f (by decide) hstarted
      · rintro j rfl hsucc harmed hloop
        have ht : t = (s.pointed (screenOf j) .cue).startSuccessor j .change :=
          State.reachPoint_starts .cue hshow hco hpoint f (by decide) hgiven hpending rfl hsucc harmed
        obtain ⟨hscreen, hline, hmotor⟩ := State.startSuccessor_given (s := s.pointed (screenOf j) .cue) harmed .change hloop
        have hstate := State.startSuccessor_state (s := s.pointed (screenOf j) .cue) harmed .change
        have hslot : (s.pointed (screenOf j) .cue).waitedSlot (screenOf j) = s.onDeck (screenOf j) := by
          rw [State.waitedSlot, if_neg (by rw [State.pointed_screen]; simp), (s.pointed_desk .cue hshow).1]
        rw [hslot] at hline
        rw [ht]
        refine ⟨hscreen.trans ?_, hstate.trans (if_pos hloop), hmotor, hline⟩
        rw [State.pointed_screen]
        rfl
      · exact State.reachPoint_missed .cue hshow hco hpoint f (by decide) hgiven hpending hnone

end Sys2Proof.Machine

/-! Action lists, the hand-over of a deferred queue, and the giving of a screen. -/

namespace Sys2Proof.Machine

open Sys2Proof Host

/-! ### What cues write -/

/-- Cues write the lights' circuits, the screens' records and the line, and no more. -/
structure CuesOnly (s t : State) : Prop where
  rest : t = { s with screens := t.screens, lights := t.lights, line := t.line }
  lights : t.lights = { s.lights with circuits := t.lights.circuits }

namespace CuesOnly

variable {s t u : State}

theorem refl (s : State) : CuesOnly s s := ⟨rfl, rfl⟩

theorem trans (h : CuesOnly s t) (k : CuesOnly t u) : CuesOnly s u where
  rest := by
    have hk := k.rest
    rw [h.rest] at hk
    exact hk
  lights := by
    have hk := k.lights
    rw [h.lights] at hk
    exact hk

theorem placeThree (sc : ScreenId) (r : Rank) (l : SceneLevels) (f : Nat) (s : State) : CuesOnly s (s.placeThree sc r l f) :=
  ⟨rfl, rfl⟩

theorem placeLevel (sc : ScreenId) (r : Rank) (c : Option CircuitId) (v f : Nat) (s : State) :
    CuesOnly s (s.placeLevel sc r c v f) := by
  cases c with
  | none => exact placeThree sc r _ f s
  | some k => exact ⟨rfl, rfl⟩

theorem execAction (sc : ScreenId) (m : MachineId) (code f : Nat) (a : CueAction) (s : State) :
    CuesOnly s (s.execAction sc m code f a) := by
  cases a with
  | scene n fade => exact placeThree sc .cue _ fade s
  | level c v fade => exact placeLevel sc .cue c v fade s
  | sound v => exact ⟨rfl, rfl⟩
  | note => exact ⟨rfl, rfl⟩

theorem execActions (sc : ScreenId) (m : MachineId) (code f : Nat) (l : List CueAction) (s : State) :
    CuesOnly s (State.execActions sc m code f l s) := by
  induction l generalizing s with
  | nil => exact refl s
  | cons a as ih => exact (execAction sc m code f a s).trans (ih _)

theorem execDeferred (sc : ScreenId) (m : MachineId) (q : List DeferredCue) (s : State) :
    CuesOnly s (State.execDeferred sc m q s) := by
  induction q generalizing s with
  | nil => exact refl s
  | cons d ds ih => exact (execActions sc m _ d.frame _ s).trans (ih _)

theorem issueScene (sc : ScreenId) (e : Option SlotEntry) (s : State) : CuesOnly s (s.issueScene sc e) := by
  unfold State.issueScene
  split
  · exact placeThree sc .cue _ _ s
  · exact refl s

section

variable (h : CuesOnly s t)
include h

theorem machine (k : MachineId) : t.machine k = s.machine k := by rw [h.rest]; rfl
theorem decoder (k : MachineId) : t.decoder k = s.decoder k := by rw [h.rest]; rfl
theorem lamp (k : MachineId) : t.lamp k = s.lamp k := by rw [h.rest]; rfl
theorem slot (z : ScreenId) (n : SlotIx) : t.slot z n = s.slot z n := by rw [h.rest]; rfl

end

end CuesOnly

/-- The hand-over as a run of cues from the state whose queue is emptied. -/
theorem State.handOver_only (sc : ScreenId) (m : MachineId) (s : State) :
    CuesOnly (s.modDecoder m fun d => { d with deferred := [] }) (s.handOver sc m) := .execDeferred sc m _ _

theorem State.handOver_decoder (sc : ScreenId) (m : MachineId) (s : State) : ((s.handOver sc m).decoder m).deferred = [] := by
  rw [(s.handOver_only sc m).decoder]
  exact congrArg DecoderRec.deferred (Quad.get_set_self _ _ _)

/-! ### Lists and queues in their order -/

theorem State.execActions_append (sc : ScreenId) (m : MachineId) (code f : Nat) (l k : List CueAction) (s : State) :
    State.execActions sc m code f (l ++ k) s = State.execActions sc m code f k (State.execActions sc m code f l s) := by
  induction l generalizing s with
  | nil => rfl
  | cons a as ih => exact ih _

/-- The cue table is not written by cues, so a queue is executed by the lists as they stand at the hand-over (R58). -/
theorem State.execDeferred_fold (sc : ScreenId) (m : MachineId) (t : CueTable) (q : List DeferredCue) (s : State)
    (ht : (s.screen sc).cueTable = t) :
    State.execDeferred sc m q s
      = q.foldl (fun u d => State.execActions sc m d.code.number d.frame (t.get d.code) u) s := by
  induction q generalizing s with
  | nil => rfl
  | cons d ds ih =>
    obtain ⟨n, hscreen, -⟩ := (CuesRun.execEffect (sc := sc) m d.code d.frame s).screen
    rw [State.execDeferred, ih _ (by rw [hscreen]; exact ht), List.foldl_cons]
    rw [State.execEffect, ht]

/-! ### What cues do depends on little -/

/-- Two states alike in the lights, and in the sound level and the cue table of a screen. -/
structure SameLights (sc : ScreenId) (a b : State) : Prop where
  lights : a.lights = b.lights
  sound : (a.screen sc).sound = (b.screen sc).sound
  table : (a.screen sc).cueTable = (b.screen sc).cueTable

namespace SameLights

variable {sc : ScreenId} {a b : State}

theorem circuits (h : SameLights sc a b) (y : ScreenId) (c : CircuitId) : a.circuit y c = b.circuit y c := by
  simp only [State.circuit, h.lights]

theorem placeThree (h : SameLights sc a b) (r : Rank) (l : SceneLevels) (f : Nat) :
    SameLights sc (a.placeThree sc r l f) (b.placeThree sc r l f) where
  lights := congrArg (fun x => ({ a with lights := x }.placeThree sc r l f).lights) h.lights
  sound := h.sound
  table := h.table

theorem placeLevel (h : SameLights sc a b) (r : Rank) (c : Option CircuitId) (v f : Nat) :
    SameLights sc (a.placeLevel sc r c v f) (b.placeLevel sc r c v f) := by
  cases c with
  | none => exact h.placeThree r _ f
  | some k => exact ⟨congrArg (fun x => ({ a with lights := x }.placeLevel sc r (some k) v f).lights) h.lights, h.sound, h.table⟩

theorem placeScene (h : SameLights sc a b) (r : Rank) (n : Fin 8) (f : Nat) :
    SameLights sc (a.placeScene sc r n f) (b.placeScene sc r n f) := by
  have hlevels : a.sceneLevels sc n = b.sceneLevels sc n := by simp only [State.sceneLevels, h.lights]
  rw [State.placeScene, State.placeScene, hlevels]
  exact h.placeThree r _ f

theorem issueScene (h : SameLights sc a b) (e : Option SlotEntry) :
    SameLights sc (a.issueScene sc e) (b.issueScene sc e) := by
  unfold State.issueScene
  split
  · exact h.placeScene .cue _ _
  · exact h

theorem execAction (h : SameLights sc a b) (m : MachineId) (code f : Nat) (x : CueAction) :
    SameLights sc (a.execAction sc m code f x) (b.execAction sc m code f x) := by
  cases x with
  | scene n fade => exact h.placeScene .cue n fade
  | level c v fade => exact h.placeLevel .cue c v fade
  | sound v =>
    have hscreen : ∀ s : State, (s.execAction sc m code f (.sound v)).screen sc
        = { s.screen sc with sound := min Config.maxSound v } := fun s => (State.modScreen_screen sc sc _ s).trans (if_pos rfl)
    exact ⟨h.lights, by rw [hscreen, hscreen], by rw [hscreen, hscreen]; exact h.table⟩
  | note => exact ⟨h.lights, h.sound, h.table⟩

theorem execActions (h : SameLights sc a b) (m : MachineId) (code f : Nat) (l : List CueAction) :
    SameLights sc (State.execActions sc m code f l a) (State.execActions sc m code f l b) := by
  induction l generalizing a b with
  | nil => exact h
  | cons x xs ih => exact ih (h.execAction m code f x)

theorem execDeferred (h : SameLights sc a b) (m : MachineId) (q : List DeferredCue) :
    SameLights sc (State.execDeferred sc m q a) (State.execDeferred sc m q b) := by
  induction q generalizing a b with
  | nil => exact h
  | cons d ds ih =>
    refine ih ?_
    rw [State.execEffect, State.execEffect, h.table]
    exact h.execActions m _ _ _

theorem handOver (h : SameLights sc a b) {m : MachineId} (hqueue : (a.decoder m).deferred = (b.decoder m).deferred) :
    SameLights sc (a.handOver sc m) (b.handOver sc m) := by
  have hempty : SameLights sc (a.modDecoder m fun d => { d with deferred := [] })
      (b.modDecoder m fun d => { d with deferred := [] }) := ⟨h.lights, h.sound, h.table⟩
  rw [State.handOver, State.handOver, hqueue]
  exact hempty.execDeferred m _

end SameLights

/-! ### What cues report -/

section

variable {sc : ScreenId} {a b : State}

theorem State.execAction_line (h : a.line = b.line) (m : MachineId) (code f : Nat) (x : CueAction) :
    (a.execAction sc m code f x).line = (b.execAction sc m code f x).line := by
  cases x with
  | scene n fade => exact h
  | level c v fade => cases c <;> exact h
  | sound v => exact h
  | note => exact congrArg (LineUnit.report _) h

theorem State.execActions_line (h : a.line = b.line) (m : MachineId) (code f : Nat) (l : List CueAction) :
    (State.execActions sc m code f l a).line = (State.execActions sc m code f l b).line := by
  induction l generalizing a b with
  | nil => exact h
  | cons x xs ih => exact ih (State.execAction_line h m code f x)

theorem State.execDeferred_line (h : a.line = b.line) (ht : (a.screen sc).cueTable = (b.screen sc).cueTable) (m : MachineId)
    (q : List DeferredCue) : (State.execDeferred sc m q a).line = (State.execDeferred sc m q b).line := by
  induction q generalizing a b with
  | nil => exact h
  | cons d ds ih =>
    obtain ⟨n, hn, -⟩ := (CuesRun.execEffect (sc := sc) m d.code d.frame a).screen
    obtain ⟨k, hk, -⟩ := (CuesRun.execEffect (sc := sc) m d.code d.frame b).screen
    refine ih ?_ (by rw [hn, hk]; exact ht)
    rw [State.execEffect, State.execEffect, ht]
    exact State.execActions_line h m _ _ _

theorem State.handOver_line (h : a.line = b.line) (ht : (a.screen sc).cueTable = (b.screen sc).cueTable) {m : MachineId}
    (hqueue : (a.decoder m).deferred = (b.decoder m).deferred) : (a.handOver sc m).line = (b.handOver sc m).line := by
  rw [State.handOver, State.handOver, hqueue]
  exact State.execDeferred_line (a := a.modDecoder m fun d => { d with deferred := [] })
    (b := b.modDecoder m fun d => { d with deferred := [] }) h ht m _

end

/-! ### An evaluation outside an opening leaves the lights -/

theorem ScreenRec.startGivenNow_notOpening {x : ScreenRec} (h : x.state ≠ .opening) : x.startGivenNow.state ≠ .opening := by
  unfold ScreenRec.startGivenNow
  dsimp only
  split
  · split <;> simp
  · exact h

theorem State.startSuccessor_notOpening {m : MachineId} {s : State} (cause : MotorCause)
    (h : (s.screen (screenOf m)).state ≠ .opening) :
    ((s.startSuccessor m cause).screen (screenOf m)).state ≠ .opening := by
  have hgiven := ScreenRec.startGivenNow_notOpening h
  have hscreen := State.startOrdered_screen m cause s
  rw [← hscreen] at hgiven
  rw [State.startSuccessor_eq]
  generalize s.startOrdered m cause = t at hgiven
  unfold State.loopCheck
  split
  · have hbroken : (t.breakMachine m .loop).screen (screenOf m) = t.screen (screenOf m) := rfl
    rw [State.successorLost, State.modScreen_screen, if_pos rfl, hbroken]
    dsimp only
    split
    · simp
    · exact hgiven
  · exact hgiven

theorem State.evaluate_lights {m : MachineId} {s : State} (h : (s.screen (screenOf m)).state ≠ .opening) :
    (s.evaluate m).lights = s.lights ∧ ((s.evaluate m).screen (screenOf m)).state ≠ .opening := by
  have harmed : ∀ t : State, t.screen (screenOf m) = s.screen (screenOf m) →
      (t.onArmed m).lights = t.lights ∧ ((t.onArmed m).screen (screenOf m)).state ≠ .opening := by
    intro t ht
    have ht' : (t.screen (screenOf m)).state ≠ .opening := by rw [ht]; exact h
    have hstarts : t.onArmed m = t ∨ t.onArmed m = t.startSuccessor m .pending := by
      unfold State.onArmed
      dsimp only
      split
      · cases hstate : (t.screen (screenOf m)).state <;>
          cases hpending : (t.screen (screenOf m)).startPending <;> simp_all
      · exact .inl rfl
    obtain e | e := hstarts <;> rw [e]
    · exact ⟨rfl, ht'⟩
    · exact ⟨State.startSuccessor_lights m _ t, State.startSuccessor_notOpening _ ht'⟩
  obtain ⟨e, -⟩ | ⟨-, e | e⟩ := s.evaluate_posted m <;> rw [e]
  · exact ⟨rfl, h⟩
  · exact harmed (s.posted m _) (State.posted_screen ..)
  · have hnot : (s.posted m (s.armedCondition m)).onDisarmed m = s.posted m (s.armedCondition m) :=
      if_neg fun hopen => h hopen.2.1
    rw [hnot]
    exact ⟨rfl, h⟩

theorem State.evaluateScreen_lights {sc : ScreenId} {s : State} (h : (s.screen sc).state ≠ .opening) :
    (s.evaluateScreen sc).lights = s.lights := by
  obtain ⟨hlights, hstate⟩ := State.evaluate_lights (m := lowerOf sc) (s := s) (by rwa [screenOf_lowerOf])
  rw [screenOf_lowerOf] at hstate
  exact (State.evaluate_lights (m := upperOf sc) (by rwa [screenOf_upperOf])).1.trans hlights

end Sys2Proof.Machine

/-! The giving of a screen: the state as a machine takes it, the hand-over, and the evaluation. -/

namespace Sys2Proof.Machine

open Sys2Proof Host

/-! ### A machine takes the screen -/

/-- The machine takes the screen, its sound is selected and the FAULT claim released (R107, R121). -/
def State.screenTaken (sc : ScreenId) (m : MachineId) (lost : Option Nat) (s : State) : State :=
  ((s.modMachine m (MachineRec.takeScreen lost)).modScreen sc (ScreenRec.openedBy m)).releaseFault sc

/-- The outgoing machine gives up and its lamp goes out (R114). -/
def State.gaveUp (out : MachineId) (s : State) : State := (s.modMachine out MachineRec.giveUp).lampOff out

/-- The swap up to the scene: the outgoing machine gives up, its lamp goes out, and the successor takes the screen; a PICTURE
claim is released (R114, R124). -/
def State.swapTaken (sc : ScreenId) (out m : MachineId) (s : State) : State :=
  let t := ((s.gaveUp out).modMachine m (MachineRec.takeScreen (some (s.pictureLostNow m)))).modScreen sc (ScreenRec.swappedTo m)
  if (t.screen sc).faultClaim = .picture then t.releaseFault sc else t

/-- What follows as the screen is given: the scene of the entry, the deferred queue, the record, the evaluation of ARMED. -/
def State.givenOver (sc : ScreenId) (m : MachineId) (e : Option SlotEntry) (f : ScreenRec → ScreenRec) (s : State) : State :=
  (((s.issueScene sc e).handOver sc m).modScreen sc f).evaluateScreen sc

section

variable {sc : ScreenId} {m : MachineId} {s : State}

theorem State.openingTake_eq (hwait : s.waitedOn sc = some m) (hstate : (s.screen sc).state = .opening)
    (hready : s.openReady m = true) :
    s.openingTake sc = (s.screenTaken sc m none).givenOver sc m none ScreenRec.showNow := by
  simp only [State.openingTake, hwait]
  rw [if_pos ⟨hstate, hready⟩]
  rfl

theorem State.testReady_dark (hsucc : s.successor sc = some m) (hready : s.swapReady m = true)
    (hstate : (s.screen sc).state = .dark) (hrunup : (s.machine m).state = .runup) :
    s.testReady sc = ((s.screenTaken sc m (some (s.pictureLostNow m))).givenOver sc m (s.onDeckEntry sc)
      (ScreenRec.onTo (s.onDeck sc))).report (.recover sc m (s.onDeck sc) (s.pictureLostNow m) (s.screen sc).point) := by
  simp only [State.testReady, hsucc, hready, if_true, hstate]
  exact if_pos hrunup

theorem State.gaveUp_machine {out : MachineId} (hne : m ≠ out) : (s.gaveUp out).machine m = s.machine m := by
  rw [State.gaveUp, State.lampOff, State.modLamp_machine', if_neg hne, State.modMachine_machine, if_neg hne]

theorem State.testReady_swap {out : MachineId} (hsucc : s.successor sc = some m) (hready : s.swapReady m = true)
    (hstate : (s.screen sc).state = .swapDue) (hon : (s.screen sc).onScreen = some out)
    (hout : (s.machine out).state = .onScreen) (hrunup : (s.machine m).state = .runup) :
    s.testReady sc = ((s.swapTaken sc out m).givenOver sc m (s.onDeckEntry sc) (ScreenRec.onTo (s.onDeck sc))).report
      (.swap sc out m (s.onDeck sc) (s.pictureLostNow m) (s.screen sc).point) := by
  have hne : m ≠ out := by
    rintro rfl
    rw [hrunup] at hout
    exact absurd hout (by decide)
  have hkept : ((s.gaveUp out).machine m).state = .runup := by rw [State.gaveUp_machine hne, hrunup]
  simp only [State.testReady, hsucc, hready, if_true, hstate, hon]
  unfold State.swap
  dsimp only
  rw [if_pos hout]
  exact if_pos hkept

end

/-! ### The state as it is taken -/

/-- Machine `m` has taken the screen in `w`: its record, its queue, and the line as they stood. -/
structure Taken (sc : ScreenId) (m : MachineId) (lost : Option Nat) (s w : State) : Prop where
  machine : w.machine m = ((s.machine m).takeScreen lost).settleDouser
  queue : (w.decoder m).deferred = (s.decoder m).deferred
  line : w.line = s.line
  settings : (w.screen sc).sound = (s.screen sc).sound ∧ (w.screen sc).cueTable = (s.screen sc).cueTable

section

variable {sc : ScreenId} {m : MachineId} {s : State}

/-- A machine that takes the screen keeps its deferred queue. -/
theorem DecoderRec.follow_takeScreen {r : MachineRec} (lost : Option Nat) (hrunup : r.state = .runup) (d : DecoderRec) :
    d.follow r (r.takeScreen lost).settleDouser = d := by
  simp [DecoderRec.follow, MachineRec.takeScreen, hrunup, MachineRec.settleDouser, MachineState.emptiesQueue]

theorem State.screenTaken_taken (lost : Option Nat) (hrunup : (s.machine m).state = .runup) :
    Taken sc m lost s (s.screenTaken sc m lost) where
  machine := by
    rw [State.screenTaken, State.releaseFault_machine, State.modScreen_machine, State.modMachine_machine, if_pos rfl]
  queue := by
    have hdecoder : (s.screenTaken sc m lost).decoder m = (s.modMachine m (MachineRec.takeScreen lost)).decoder m := by
      simp only [State.screenTaken, State.releaseFault, State.releaseThree, State.modScreen_decoder, State.modCircuit_decoder]
    rw [hdecoder, State.modMachine_decoder_self, DecoderRec.follow_takeScreen lost hrunup]
  line := by simp only [State.screenTaken, State.releaseFault, State.releaseThree, State.modScreen_line, State.modCircuit_line,
    State.modMachine_line]
  settings := by
    have hscreen : (s.screenTaken sc m lost).screen sc = { (s.screen sc).openedBy m with faultClaim := .none } := by
      rw [State.screenTaken, State.releaseFault_screen, if_pos rfl, State.modScreen_screen, if_pos rfl]
      rfl
    rw [hscreen]
    exact ⟨rfl, rfl⟩

theorem State.screenTaken_screen (lost : Option Nat) :
    (s.screenTaken sc m lost).screen sc = { (s.screen sc).openedBy m with faultClaim := .none } := by
  rw [State.screenTaken, State.releaseFault_screen, if_pos rfl, State.modScreen_screen, if_pos rfl]
  rfl

theorem State.screenTaken_lights (lost : Option Nat) : SameLights sc (s.screenTaken sc m lost) (s.releaseThree sc .fault) where
  lights := by
    simp only [State.screenTaken, State.releaseFault, State.modScreen_lights]
    rfl
  sound := by rw [State.screenTaken_screen]; rfl
  table := by rw [State.screenTaken_screen]; rfl

end

/-! ### The swap up to the scene -/

section

variable {sc : ScreenId} {out m : MachineId} {s : State}

/-- After the give-up the outgoing machine is in RUNOUT with its douser CLOSED and its lamp out (R8, R72). -/
theorem State.gaveUp_out (hout : (s.machine out).state = .onScreen) :
    ((s.gaveUp out).machine out).state = .runout ∧ ((s.gaveUp out).machine out).douserRequest = .closed
      ∧ ((s.gaveUp out).machine out).douser = .closed
      ∧ ((s.gaveUp out).lamp out).state ≠ .burning ∧ ((s.gaveUp out).lamp out).state ≠ .striking := by
  have hgave : (s.modMachine out MachineRec.giveUp).machine out
      = ({ s.machine out with state := .runout, douserRequest := .closed } : MachineRec).settleDouser := by
    rw [State.modMachine_machine, if_pos rfl]
    simp [MachineRec.giveUp, hout]
  have hlamp : (s.gaveUp out).lamp out = ((s.modMachine out MachineRec.giveUp).lamp out).putOut := by
    rw [State.gaveUp, State.lampOff, State.modLamp_lamp, if_pos rfl]
  rw [hlamp]
  obtain ⟨hdark, hstrike⟩ := LampRec.putOut_out ((s.modMachine out MachineRec.giveUp).lamp out)
  refine ⟨?_, ?_, ?_, hdark, hstrike⟩ <;>
    rw [State.gaveUp, State.lampOff, State.modLamp_machine', if_pos rfl, hgave] <;> split <;> rfl

/-- The swap before a PICTURE claim is released. -/
def State.swapHanded (sc : ScreenId) (out m : MachineId) (s : State) : State :=
  ((s.gaveUp out).modMachine m (MachineRec.takeScreen (some (s.pictureLostNow m)))).modScreen sc (ScreenRec.swappedTo m)

theorem State.swapTaken_eq (sc : ScreenId) (out m : MachineId) (s : State) :
    s.swapTaken sc out m = if (s.screen sc).faultClaim = .picture then (s.swapHanded sc out m).releaseFault sc
      else s.swapHanded sc out m := by
  have hclaim : ((s.swapHanded sc out m).screen sc).faultClaim = (s.screen sc).faultClaim := by
    rw [State.swapHanded, State.modScreen_screen, if_pos rfl, State.modMachine_screen, State.gaveUp, State.lampOff,
      State.modLamp_screen, State.modMachine_screen]
    rfl
  rw [← hclaim]
  rfl

theorem State.swapHanded_screen : (s.swapHanded sc out m).screen sc = (s.screen sc).swappedTo m := by
  rw [State.swapHanded, State.modScreen_screen, if_pos rfl, State.modMachine_screen, State.gaveUp, State.lampOff,
    State.modLamp_screen, State.modMachine_screen]

theorem State.swapTaken_screen : (s.swapTaken sc out m).screen sc
    = { (s.screen sc).swappedTo m with
        faultClaim := if (s.screen sc).faultClaim = .picture then .none else (s.screen sc).faultClaim } := by
  rw [State.swapTaken_eq]
  split
  · rw [State.releaseFault_screen, if_pos rfl, State.swapHanded_screen]
  · rw [State.swapHanded_screen]
    rfl

theorem State.swapTaken_lights :
    SameLights sc (s.swapTaken sc out m) (if (s.screen sc).faultClaim = .picture then s.releaseThree sc .fault else s) where
  lights := by
    have hlights : (s.swapHanded sc out m).lights = s.lights := by
      simp only [State.swapHanded, State.gaveUp, State.lampOff, State.modScreen_lights, State.modMachine_lights,
        State.modLamp_lights]
    rw [State.swapTaken_eq]
    split
    · exact congrArg (fun x => ({ s with lights := x }.releaseThree sc .fault).lights) hlights
    · exact hlights
  sound := by rw [State.swapTaken_screen]; split <;> rfl
  table := by rw [State.swapTaken_screen]; split <;> rfl

/-- What the release of a FAULT claim leaves of a machine that took the screen. -/
theorem Taken.releaseFault {lost : Option Nat} {w : State} (h : Taken sc m lost s w) : Taken sc m lost s (w.releaseFault sc) where
  machine := by rw [State.releaseFault_machine]; exact h.machine
  queue := by
    simp only [State.releaseFault, State.releaseThree, State.modScreen_decoder, State.modCircuit_decoder]
    exact h.queue
  line := by
    simp only [State.releaseFault, State.releaseThree, State.modScreen_line, State.modCircuit_line]
    exact h.line
  settings := by
    rw [State.releaseFault_screen, if_pos rfl]
    exact h.settings

section

variable (hne : m ≠ out) (hrunup : (s.machine m).state = .runup)
include hne hrunup

theorem State.swapHanded_taken : Taken sc m (some (s.pictureLostNow m)) s (s.swapHanded sc out m) where
  machine := by
    rw [State.swapHanded, State.modScreen_machine, State.modMachine_machine, if_pos rfl, State.gaveUp_machine hne]
  queue := by
    have hgave : (s.gaveUp out).decoder m = s.decoder m := by
      rw [State.gaveUp, State.lampOff, State.modLamp_decoder]
      exact Quad.get_set_ne _ _ hne
    rw [State.swapHanded, State.modScreen_decoder, State.modMachine_decoder_self, hgave, State.gaveUp_machine hne,
      DecoderRec.follow_takeScreen _ hrunup]
  line := by
    simp only [State.swapHanded, State.gaveUp, State.lampOff, State.modScreen_line, State.modMachine_line, State.modLamp_line]
  settings := by
    rw [State.swapHanded_screen]
    exact ⟨rfl, rfl⟩

theorem State.swapTaken_taken : Taken sc m (some (s.pictureLostNow m)) s (s.swapTaken sc out m) := by
  rw [State.swapTaken_eq]
  split
  · exact (State.swapHanded_taken hne hrunup).releaseFault
  · exact State.swapHanded_taken hne hrunup

end

/-- The outgoing machine and its lamp, as the give-up left them. -/
theorem State.swapTaken_out (hne : m ≠ out) : (s.swapTaken sc out m).machine out = (s.gaveUp out).machine out
    ∧ (s.swapTaken sc out m).lamp out = (s.gaveUp out).lamp out := by
  have hhanded : (s.swapHanded sc out m).machine out = (s.gaveUp out).machine out
      ∧ (s.swapHanded sc out m).lamp out = (s.gaveUp out).lamp out := by
    refine ⟨?_, rfl⟩
    rw [State.swapHanded, State.modScreen_machine, State.modMachine_machine, if_neg hne.symm]
  rw [State.swapTaken_eq]
  split
  · refine ⟨?_, hhanded.2⟩
    rw [State.releaseFault_machine]
    exact hhanded.1
  · exact hhanded

end

/-! ### The screen given over -/

section

variable {sc : ScreenId} {m : MachineId} {e : Option SlotEntry} {f : ScreenRec → ScreenRec} {w : State}

theorem CuesOnly.cuesRun_issue (w : State) : CuesRun sc w ((w.issueScene sc e).handOver sc m) :=
  (CuesRun.issueScene e w).trans (CuesRun.handOver m _)

/-- The lights and the sound level are those the hand-over leaves. -/
theorem State.givenOver_lights (hshow : ∀ x, (f x).state = .showing) (hsound : ∀ x, (f x).sound = x.sound) :
    (w.givenOver sc m e f).lights = ((w.issueScene sc e).handOver sc m).lights
      ∧ ((w.givenOver sc m e f).screen sc).sound = (((w.issueScene sc e).handOver sc m).screen sc).sound := by
  have hscreen : (((w.issueScene sc e).handOver sc m).modScreen sc f).screen sc
      = f (((w.issueScene sc e).handOver sc m).screen sc) := by rw [State.modScreen_screen, if_pos rfl]
  refine ⟨?_, ?_⟩
  · exact State.evaluateScreen_lights (s := ((w.issueScene sc e).handOver sc m).modScreen sc f)
      (by rw [hscreen, hshow]; decide)
  · have hkept := (State.evaluateScreen_only sc (((w.issueScene sc e).handOver sc m).modScreen sc f)).2.1 sc
    rw [hscreen, hsound] at hkept
    exact hkept

/-- With no start pending the evaluation posts, and no more; the rest is as the hand-over leaves it. -/
theorem State.givenOver_posts (hdeaf : ∀ n, (f { w.screen sc with sound := n }).Deaf) :
    PostingsOnly (((w.issueScene sc e).handOver sc m).modScreen sc f) (w.givenOver sc m e f)
      ∧ ∃ n, (w.givenOver sc m e f).screen sc = f { w.screen sc with sound := n } := by
  obtain ⟨n, hn, -⟩ := (CuesOnly.cuesRun_issue (sc := sc) (m := m) (e := e) w).screen
  have hscreen : (((w.issueScene sc e).handOver sc m).modScreen sc f).screen sc = f { w.screen sc with sound := n } := by
    rw [State.modScreen_screen, if_pos rfl, hn]
  have hposts := State.evaluateScreen_deaf (s := ((w.issueScene sc e).handOver sc m).modScreen sc f)
    (by rw [hscreen]; exact hdeaf n)
  exact ⟨hposts, n, (hposts.screen sc).trans hscreen⟩

end

end Sys2Proof.Machine

/-! Action lists, the hand-over, and both as a screen is given. -/

namespace Sys2Proof.Machine

open Sys2Proof Host

theorem Circuit.place_own (h : Nat) (r : Rank) (l f : Nat) (c : Circuit) :
    ∃ q, (c.place h r l f).claims.get r = some q ∧ q.target = l ∧ q.fade = f := by
  have hsame := Circuit.place_self h r l f c
  unfold sameClaim at hsame
  cases hq : (c.place h r l f).claims.get r with
  | none => simp [hq] at hsame
  | some q =>
    rw [hq, Option.map_some, Option.map_some, Option.some.injEq, Prod.mk.injEq] at hsame
    exact ⟨q, rfl, hsame.1, hsame.2⟩

section

variable {sc : ScreenId} {m : MachineId} {s : State}

/-- The scene of an entry, spelled as a placement (R114). -/
theorem State.issueScene_lit {e : Option SlotEntry} {u : State} (hscenes : u.lights.scenes = s.lights.scenes) :
    u.issueScene sc e = match e.bind (·.scene) with
      | some n => u.placeThree sc .cue (s.lights.scenes.get sc)[n] 50
      | none => u := by
  obtain _ | ⟨_, _, _, _, _, _, scene, _, _, _⟩ := e
  · rfl
  · cases scene with
    | none => rfl
    | some n =>
      rw [← hscenes]
      rfl

theorem State.issueScene_queue (e : Option SlotEntry) (u : State) : (u.issueScene sc e).decoder m = u.decoder m :=
  (CuesOnly.issueScene sc e u).decoder m

/-- The lights and the sound level as the screen is given, by a state of the same lights in which nothing was taken. -/
theorem State.givenOver_same {w base : State} {e : Option SlotEntry} {f : ScreenRec → ScreenRec}
    (hshow : ∀ x, (f x).state = .showing) (hsound : ∀ x, (f x).sound = x.sound) (hlights : SameLights sc w base)
    (hqueue : (w.decoder m).deferred = (base.decoder m).deferred) :
    (∀ y c, (w.givenOver sc m e f).circuit y c = ((base.issueScene sc e).handOver sc m).circuit y c)
      ∧ ((w.givenOver sc m e f).screen sc).sound = (((base.issueScene sc e).handOver sc m).screen sc).sound := by
  have hhanded : SameLights sc ((w.issueScene sc e).handOver sc m) ((base.issueScene sc e).handOver sc m) :=
    (hlights.issueScene e).handOver (by rw [State.issueScene_queue, State.issueScene_queue, hqueue])
  obtain ⟨hlit, hsounds⟩ := State.givenOver_lights (sc := sc) (m := m) (e := e) (w := w) hshow hsound
  refine ⟨fun y c => ?_, hsounds.trans hhanded.sound⟩
  rw [← hhanded.circuits]
  simp only [State.circuit, hlit]

end

/-- Settles O25: action lists, the hand-over, and the lights of a screen that is given. -/
theorem actionListsAreExecuted : Obligations.ActionListsAreExecuted := by
  intro sc m s level claimed
  have hthree : ∀ (l : SceneLevels) (target : CircuitId → Nat) (fade : Nat), (∀ c, l.get c = target c) →
      claimed (fun _ => True) target fade (s.placeThree sc .cue l fade) := by
    intro l target fade hl
    have hcircuit : ∀ c, (s.placeThree sc .cue l fade).circuit sc c
        = (s.circuit sc c).place s.lights.halfCycle .cue (target c) fade := fun c => by
      rw [State.placeThree_circuit, if_pos rfl, hl]
    refine ⟨rfl, rfl, fun y c hnot => ?_, fun c _ => ⟨hcircuit c, ?_⟩⟩
    · obtain h | h := hnot
      · rw [State.placeThree_circuit, if_neg h]
      · exact absurd trivial h
    · rw [hcircuit]
      exact Circuit.place_own _ .cue _ _ _
  refine ⟨fun code frame => ?_, ?_, fun hrunup hm => ?_⟩
  · intro run
    refine ⟨rfl, fun l k => State.execActions_append sc m code frame l k s, fun n fade => hthree _ _ fade fun c => rfl,
      fun k v fade => ⟨rfl, rfl, fun y c hnot => ?_, fun c hc => ?_⟩, fun v fade => hthree _ _ fade fun c => by cases c <;> rfl,
      fun v => rfl, rfl⟩
    · change (s.modCircuit sc k fun h => Circuit.place h .cue v fade).circuit y c = _
      rw [State.modCircuit_circuit, if_neg]
      rintro ⟨rfl, rfl⟩
      obtain h | h := hnot
      · exact h rfl
      · exact h rfl
    · subst hc
      have hcircuit : (s.modCircuit sc c fun h => Circuit.place h .cue v fade).circuit sc c
          = (s.circuit sc c).place s.lights.halfCycle .cue v fade := by
        rw [State.modCircuit_circuit, if_pos ⟨rfl, rfl⟩]
      refine ⟨hcircuit, ?_⟩
      obtain ⟨q, hq⟩ := Circuit.place_own s.lights.halfCycle .cue v fade (s.circuit sc c)
      exact ⟨q, by rw [← hcircuit] at hq; exact hq⟩
  · exact State.execDeferred_fold sc m _ _ _ rfl
  · intro same lit released
    have hlit : ∀ u : State, u.lights.scenes = s.lights.scenes → lit u = u.issueScene sc (s.onDeckEntry sc) := fun u hu =>
      (State.issueScene_lit hu).symm
    refine ⟨fun out hready hsucc hstate hon hout => ?_, fun hready hsucc hstate => ?_, fun hready hwait hstate => ?_⟩
    · have hne : m ≠ out := by
        rintro rfl
        rw [hrunup] at hout
        exact absurd hout (by decide)
      rw [hlit _ (by split <;> rfl), State.testReady_swap hsucc hready hstate hon hout hrunup]
      refine State.givenOver_same (fun _ => rfl) (fun _ => rfl) State.swapTaken_lights ?_
      rw [(State.swapTaken_taken hne hrunup).queue]
      split <;> rfl
    · rw [hlit released rfl, State.testReady_dark hsucc hready hstate hrunup]
      exact State.givenOver_same (fun _ => rfl) (fun _ => rfl) (State.screenTaken_lights _)
        (State.screenTaken_taken _ hrunup).queue
    · rw [State.openingTake_eq hwait hstate hready]
      exact State.givenOver_same (e := none) (fun _ => rfl) (fun _ => rfl) (State.screenTaken_lights none)
        (State.screenTaken_taken none hrunup).queue

end Sys2Proof.Machine

/-! Readiness, the swap, the recovery, the end of an opening, and the postings that bring them about. -/

namespace Sys2Proof.Machine

open Sys2Proof Host

/-! ### Readiness -/

theorem HoldSet.isEmpty_iff_eq (h : HoldSet) :
    h.isEmpty = true ↔ h = { speed := false, lamp := false, brk := false, fire := false, console := false } := by
  obtain ⟨a, b, c, d, e⟩ := h
  cases a <;> cases b <;> cases c <;> cases d <;> cases e <;> simp [HoldSet.isEmpty]

theorem State.openReady_iff (m : MachineId) (s : State) :
    s.openReady m = true ↔ (s.machine m).state = .runup ∧ (s.machine m).speed = .atSpeed
      ∧ s.boundRunUp m ≤ (s.machine m).frameCount
      ∧ (s.machine m).holds = { speed := false, lamp := false, brk := false, fire := false, console := false } := by
  simp only [State.openReady, Bool.and_eq_true, beq_iff_eq, decide_eq_true_eq, HoldSet.isEmpty_iff_eq, and_assoc]

theorem State.testReady_elsewhere {sc : ScreenId} {s : State}
    (h : (s.screen sc).state ≠ .swapDue ∧ (s.screen sc).state ≠ .dark) : s.testReady sc = s := by
  unfold State.testReady
  split
  · rfl
  · split
    · cases hstate : (s.screen sc).state <;> simp_all
    · rfl

theorem State.testReady_unready {sc : ScreenId} {s : State} (h : ∀ m, s.successor sc = some m → s.swapReady m = false) :
    s.testReady sc = s := by
  cases hsucc : s.successor sc with
  | none => simp only [State.testReady, hsucc]
  | some m => simp [State.testReady, hsucc, h m hsucc]

theorem State.openingTake_unready {sc : ScreenId} {s : State}
    (h : (∀ m, s.waitedOn sc = some m → s.openReady m = false) ∨ (s.screen sc).state ≠ .opening) : s.openingTake sc = s := by
  cases hwait : s.waitedOn sc with
  | none => simp only [State.openingTake, hwait]
  | some m =>
    obtain h | h := h
    · exact State.openingTake_of_notReady hwait (h m hwait)
    · simp only [State.openingTake, hwait]
      exact if_neg fun hboth => h hboth.1

/-! ### What the machine that is given the screen shows -/

section

variable {sc : ScreenId} {m : MachineId} {s w : State} {lost : Option Nat} {e : Option SlotEntry}
    {f : ScreenRec → ScreenRec}

theorem MachineRec.takeScreen_fields (hrunup : (s.machine m).state = .runup)
    (hholds : (s.machine m).holds.isEmpty = true) :
    let r := ((s.machine m).takeScreen lost).settleDouser
    r.state = .onScreen ∧ r.douserRequest = .opened ∧ r.douser = .opened
      ∧ r.pictureLost = lost.or (s.machine m).pictureLost := by
  cases lost <;> simp [MachineRec.takeScreen, hrunup, MachineRec.settleDouser, hholds]

/-- The machine that took the screen is ON_SCREEN with its douser open and its queue empty, and the line has the notes of its
queue (R58, R107, R114, R121). -/
theorem State.givenOver_machine (htaken : Taken sc m lost s w) (hrunup : (s.machine m).state = .runup)
    (hholds : (s.machine m).holds.isEmpty = true) (hdeaf : ∀ n, (f { w.screen sc with sound := n }).Deaf) :
    let t := w.givenOver sc m e f
    (t.machine m).state = .onScreen ∧ (t.machine m).douserRequest = .opened ∧ (t.machine m).douser = .opened
      ∧ (t.machine m).pictureLost = lost.or (s.machine m).pictureLost
      ∧ (t.decoder m).deferred = [] ∧ t.line = (s.handOver sc m).line := by
  obtain ⟨hposts, -⟩ := State.givenOver_posts (e := e) (m := m) (f := f) hdeaf
  have hcues := CuesOnly.issueScene sc e w
  have hmachine : (((w.issueScene sc e).handOver sc m).modScreen sc f).machine m
      = ((s.machine m).takeScreen lost).settleDouser := by
    rw [State.modScreen_machine, (CuesOnly.cuesRun_issue w).machine, htaken.machine]
  obtain ⟨hstate, hrequest, hdouser, hlost⟩ := MachineRec.takeScreen_fields (lost := lost) hrunup hholds
  have hkept : (w.givenOver sc m e f).machine m = ((s.machine m).takeScreen lost).settleDouser :=
    (hposts.unjudged (by rw [hmachine, hstate]; rfl)).trans hmachine
  have hline : (w.givenOver sc m e f).line = ((w.issueScene sc e).handOver sc m).line := hposts.line
  have hdecoder : (w.givenOver sc m e f).decoder m = ((w.issueScene sc e).handOver sc m).decoder m := hposts.decoder m
  dsimp only
  rw [hkept, hdecoder, hline]
  refine ⟨hstate, hrequest, hdouser, hlost, State.handOver_decoder sc m _, ?_⟩
  have hissued : (w.issueScene sc e).line = w.line := by
    unfold State.issueScene
    split <;> rfl
  obtain ⟨n, hscreen, -⟩ := (CuesRun.issueScene (sc := sc) e w).screen
  refine State.handOver_line (hissued.trans htaken.line) ?_ ?_
  · rw [hscreen]
    exact htaken.settings.2
  · rw [hcues.decoder]
    exact htaken.queue

/-- Another machine and its lamp, not one that the plan judges, are as the taking left them. -/
theorem State.givenOver_other (hdeaf : ∀ n, (f { w.screen sc with sound := n }).Deaf) {k : MachineId}
    (hunjudged : (w.machine k).state.judged = false) :
    (w.givenOver sc m e f).machine k = w.machine k ∧ (w.givenOver sc m e f).lamp k = w.lamp k := by
  obtain ⟨hposts, -⟩ := State.givenOver_posts (e := e) (m := m) (f := f) hdeaf
  have hmachine : (((w.issueScene sc e).handOver sc m).modScreen sc f).machine k = w.machine k := by
    rw [State.modScreen_machine, (CuesOnly.cuesRun_issue w).machine]
  refine ⟨(hposts.unjudged (by rw [hmachine]; exact hunjudged)).trans hmachine, (hposts.lamp k).trans ?_⟩
  have hlamp : ((w.issueScene sc e).handOver sc m).lamp k = w.lamp k := by
    rw [(State.handOver_only sc m _).lamp]
    exact (CuesOnly.issueScene sc e w).lamp k
  exact hlamp

/-- No FAULT claim comes with a hand-over (R54). -/
theorem State.givenOver_fault (hdeaf : ∀ n, (f { w.screen sc with sound := n }).Deaf) {c : CircuitId}
    (hnone : (w.circuit sc c).claims.fault = none) : ((w.givenOver sc m e f).circuit sc c).claims.fault = none := by
  obtain ⟨hposts, -⟩ := State.givenOver_posts (e := e) (m := m) (f := f) hdeaf
  rw [hposts.circuit]
  change (((w.issueScene sc e).handOver sc m).circuit sc c).claims.fault = none
  have hsome := (CuesOnly.cuesRun_issue (sc := sc) (e := e) (m := m) w).fault sc c
  rw [hnone] at hsome
  simpa using hsome

end

theorem State.screenTaken_fault {sc : ScreenId} {m : MachineId} {lost : Option Nat} {s : State} (c : CircuitId) :
    ((s.screenTaken sc m lost).circuit sc c).claims.fault = none := by
  rw [State.screenTaken, State.releaseFault_circuit, if_pos rfl]
  exact Circuit.release_self _ .fault _

/-! ### A posting of the machine waited on -/

section

variable {m : MachineId} {s : State} (hoff : (s.screen (screenOf m)).onScreen ≠ some m)
include hoff

theorem State.frameNotice_posts : s.frameNotice m = s.machinePosted m := State.frameNotice_off (.inl hoff)

/-- In SWAP_DUE and DARK the posting tests readiness (R113, R120). -/
theorem State.machinePosted_tests
    (hstate : (s.screen (screenOf m)).state = .swapDue ∨ (s.screen (screenOf m)).state = .dark)
    (hsucc : s.successor (screenOf m) = some m) : s.machinePosted m = s.testReady (screenOf m) := by
  have htake : s.openingTake (screenOf m) = s := State.openingTake_unready (.inr (by obtain h | h := hstate <;> simp [h]))
  unfold State.machinePosted
  dsimp only
  rw [if_neg hoff, htake, ite_self, if_pos hsucc]

/-- In OPENING it makes the take-screen (R107): a machine that has taken the screen is not ready a second time. -/
theorem State.machinePosted_takes (hstate : (s.screen (screenOf m)).state = .opening)
    (hwait : s.waitedOn (screenOf m) = some m) : s.machinePosted m = s.openingTake (screenOf m) := by
  unfold State.machinePosted
  dsimp only
  rw [if_neg hoff, if_pos hwait]
  cases hready : s.openReady m with
  | false =>
    rw [State.openingTake_of_notReady hwait hready, State.testReady_elsewhere (by simp [hstate]), ite_self]
  | true =>
    have hrunup := State.openReady_runup hready
    have heq := State.openingTake_eq hwait hstate hready
    have htaken : ((s.openingTake (screenOf m)).machine m).state = .onScreen := by
      have hmachine : ((((s.screenTaken (screenOf m) m none).issueScene (screenOf m) none).handOver (screenOf m) m).modScreen
          (screenOf m) ScreenRec.showNow).machine m = ((s.machine m).takeScreen none).settleDouser := by
        rw [State.modScreen_machine, (CuesOnly.cuesRun_issue (sc := screenOf m) _).machine,
          (State.screenTaken_taken none hrunup).machine]
      have hstate' : (((s.machine m).takeScreen none).settleDouser).state = .onScreen :=
        MachineRec.takeScreen_state hrunup none
      rw [heq, State.givenOver, (State.evaluateScreen_leaves (screenOf m) (by rw [hmachine, hstate']; rfl)).1, hmachine, hstate']
    split
    next hsucc =>
      refine State.testReady_of_notReady hsucc ?_
      simp [State.openReady, htaken]
    next => rfl

end

theorem State.strikeRequest_still (m : MachineId) (s : State) :
    (∀ sc, (s.strikeRequest m).screen sc = s.screen sc) ∧ (∀ sc n, (s.strikeRequest m).slot sc n = s.slot sc n) := by
  rw [State.strikeRequest_eq]
  exact ⟨fun _ => rfl, fun _ _ => rfl⟩

/-- The lamp of a machine waited on and started is asked to strike again (R109). -/
def State.relit (m : MachineId) (s : State) : State :=
  if (s.screen (screenOf m)).startGiven = true ∧ (s.lamp m).state = .dark then s.strikeRequest m else s

theorem State.relit_still (m : MachineId) (s : State) :
    (∀ sc, (s.relit m).screen sc = s.screen sc) ∧ (∀ sc n, (s.relit m).slot sc n = s.slot sc n) := by
  unfold State.relit
  split
  · exact s.strikeRequest_still m
  · exact ⟨fun _ => rfl, fun _ _ => rfl⟩

theorem State.relit_successor (m : MachineId) (s : State) (sc : ScreenId) :
    (s.relit m).successor sc = s.successor sc ∧ (s.relit m).waitedOn sc = s.waitedOn sc := by
  obtain ⟨hscreen, hslot⟩ := s.relit_still m
  have hsucc := (State.onDeck_congr (s := s) (t := s.relit m) (sc := sc) (by rw [hscreen]) (by rw [hscreen]) (hslot sc)).2
  exact ⟨hsucc, by simp only [State.waitedOn, hscreen, hsucc, hslot]⟩

theorem State.lampPosted_eq {m : MachineId} {s : State} (hwait : s.waitedOn (screenOf m) = some m) :
    s.lampPosted m = ((s.relit m).openingStep (screenOf m)).machinePosted m := by
  have hasked : (if s.waitedOn (screenOf m) = some m ∧ (s.screen (screenOf m)).startGiven = true ∧ (s.lamp m).state = .dark
      then s.strikeRequest m else s) = s.relit m := by simp [State.relit, hwait]
  unfold State.lampPosted
  dsimp only
  rw [hasked, if_pos ((s.relit_successor m (screenOf m)).2.trans hwait)]

/-- An opening step acts in OPENING alone (R107). -/
theorem State.openingStep_elsewhere {sc : ScreenId} {s : State} (h : (s.screen sc).state ≠ .opening) :
    s.openingStep sc = s := by
  unfold State.openingStep
  split
  · rfl
  · exact if_neg fun hall => h hall.1

theorem State.waitedOn_of_notOpening' {sc : ScreenId} {s : State} (h : (s.screen sc).state ≠ .opening) :
    s.waitedOn sc = s.successor sc := if_neg h

/-- An opening step leaves the opening waiting on the same machine. -/
theorem State.openingStep_waits_on {m : MachineId} {s : State} (hstate : (s.screen (screenOf m)).state = .opening)
    (hwait : s.waitedOn (screenOf m) = some m) :
    ((s.openingStep (screenOf m)).screen (screenOf m)).state = .opening
      ∧ ((s.openingStep (screenOf m)).screen (screenOf m)).onScreen = (s.screen (screenOf m)).onScreen
      ∧ (s.openingStep (screenOf m)).waitedOn (screenOf m) = some m := by
  have hflags := State.openingStep_flags hstate
  have hslot := (StartsOnly.openingStep hwait).slot (screenOf m)
  have hopening : ((s.openingStep (screenOf m)).screen (screenOf m)).state = .opening := by rw [hflags]; exact hstate
  have hcurrent : ((s.openingStep (screenOf m)).screen (screenOf m)).current = (s.screen (screenOf m)).current := by rw [hflags]
  refine ⟨hopening, by rw [hflags], ?_⟩
  rw [← hwait]
  simp only [State.waitedOn, hopening, hstate, if_true, hcurrent, hslot]

end Sys2Proof.Machine

/-! The swap, the recovery and the end of an opening, as O39 states them. -/

namespace Sys2Proof.Machine

open Sys2Proof Host

theorem ScreenRec.onTo_deaf (deck : Option SlotIx) (x : ScreenRec) : (x.onTo deck).Deaf := ⟨nofun, nofun⟩

theorem ScreenRec.showNow_deaf {x : ScreenRec} (h : x.startPending = false) : x.showNow.Deaf :=
  ⟨nofun, fun hp => by
    have hp' : x.startPending = true := hp
    simp [h] at hp'⟩

/-- Settles O39: readiness, the three ways of giving the screen, and the postings that bring them about. -/
theorem givingTheScreen : Obligations.GivingTheScreen := by
  refine ⟨⟨fun m n e s hbound hentry => ?_, fun sc s => ⟨fun h => ?_, State.openingTake_unready⟩, fun sc m s hrunup hready => ?_⟩,
    fun m s => ?_⟩
  · have hup : s.boundRunUp m = e.runUp := by simp [State.boundRunUp, State.boundEntry, hbound, hentry]
    have hopen := s.openReady_iff m
    rw [hup] at hopen
    refine ⟨hopen, ?_, hup⟩
    rw [State.swapReady, Bool.and_eq_true, beq_iff_eq, hopen]
  · obtain h | h := h
    · exact State.testReady_unready h
    · exact State.testReady_elsewhere h
  · have hopen : s.openReady m = true := by
      rw [State.swapReady, Bool.and_eq_true] at hready
      exact hready.1
    have hholds : (s.machine m).holds.isEmpty = true := (HoldSet.isEmpty_iff_eq _).2 ((s.openReady_iff m).1 hopen).2.2.2
    have hframe : ShowFrame s (s.testReady sc) := (Reactions.testReady sc (.refl' s)).frame
    intro given lost noted
    refine ⟨fun out hsucc hstate hon hout => ?_, fun hsucc hstate => ?_, fun hwait hstate hpending => ?_⟩
    · have hne : m ≠ out := by
        rintro rfl
        rw [hrunup] at hout
        exact absurd hout (by decide)
      have hdeaf : ∀ n, (ScreenRec.onTo (s.onDeck sc) { (s.swapTaken sc out m).screen sc with sound := n }).Deaf :=
        fun n => ScreenRec.onTo_deaf _ _
      obtain ⟨h1, h2, h3, h4, h5, hline⟩ := State.givenOver_machine (e := s.onDeckEntry sc)
        (State.swapTaken_taken (sc := sc) hne hrunup) hrunup hholds hdeaf
      obtain ⟨hgave, hlamp⟩ := State.swapTaken_out (sc := sc) (s := s) hne
      obtain ⟨hrunout, hrequest, hdouser, hdark, hstrike⟩ := State.gaveUp_out hout
      obtain ⟨hkept, hlampKept⟩ := State.givenOver_other (e := s.onDeckEntry sc) (m := m) (k := out) hdeaf
        (by rw [hgave, hrunout]; rfl)
      obtain ⟨-, n, hscreen⟩ := State.givenOver_posts (e := s.onDeckEntry sc) (m := m) hdeaf
      rw [State.swapTaken_screen] at hscreen
      rw [hgave] at hkept
      rw [hlamp] at hlampKept
      intro t
      have ht : t = _ := State.testReady_swap hsucc hready hstate hon hout hrunup
      rw [show s.testReady sc = t from rfl, ht] at hframe
      rw [ht]
      clear_value t
      clear ht t
      generalize (s.swapTaken sc out m).givenOver sc m (s.onDeckEntry sc) (ScreenRec.onTo (s.onDeck sc)) = u at *
      have hfields : (u.screen sc).onScreen = some m ∧ (u.screen sc).state = .showing ∧ (u.screen sc).startGiven = false
          ∧ (u.screen sc).current = s.onDeck sc ∧ (u.screen sc).point = none ∧ (u.screen sc).startPending = false
          ∧ (u.screen sc).mixer = (if (s.screen sc).overlap = 0 then .machine m else .both)
          ∧ (u.screen sc).overlapLeft = (s.screen sc).overlap ∧ (u.screen sc).darkHold = .stopped
          ∧ ((s.screen sc).faultClaim = .picture → (u.screen sc).faultClaim = .none) := by
        rw [hscreen]
        exact ⟨rfl, rfl, rfl, rfl, rfl, rfl, rfl, rfl, rfl, fun h => if_pos h⟩
      obtain ⟨f1, f2, f3, f4, f5, f6, f7, f8, f9, f10⟩ := hfields
      exact ⟨⟨h1, h2, h3, h4, f1, f2, f3, h5, hframe⟩, (congrArg MachineRec.state hkept).trans hrunout,
        (congrArg MachineRec.douserRequest hkept).trans hrequest, (congrArg MachineRec.douser hkept).trans hdouser,
        by rw [State.report_lamp, hlampKept]; exact hdark, by rw [State.report_lamp, hlampKept]; exact hstrike,
        f4, f5, f6, f7, f8, f9, f10, congrArg (LineUnit.report _) hline⟩
    · have hdeaf : ∀ n, (ScreenRec.onTo (s.onDeck sc)
          { (s.screenTaken sc m (some (s.pictureLostNow m))).screen sc with sound := n }).Deaf :=
        fun n => ScreenRec.onTo_deaf _ _
      obtain ⟨h1, h2, h3, h4, h5, hline⟩ := State.givenOver_machine (e := s.onDeckEntry sc)
        (State.screenTaken_taken (sc := sc) (some (s.pictureLostNow m)) hrunup) hrunup hholds hdeaf
      have hfault : ∀ c, _ := fun c => State.givenOver_fault (e := s.onDeckEntry sc) (m := m) hdeaf
        (State.screenTaken_fault c)
      obtain ⟨-, n, hscreen⟩ := State.givenOver_posts (e := s.onDeckEntry sc) (m := m) hdeaf
      rw [State.screenTaken_screen] at hscreen
      intro t
      have ht : t = _ := State.testReady_dark hsucc hready hstate hrunup
      rw [show s.testReady sc = t from rfl, ht] at hframe
      rw [ht]
      clear_value t
      clear ht t
      generalize (s.screenTaken sc m (some (s.pictureLostNow m))).givenOver sc m (s.onDeckEntry sc)
        (ScreenRec.onTo (s.onDeck sc)) = u at *
      have hfields : (u.screen sc).onScreen = some m ∧ (u.screen sc).state = .showing ∧ (u.screen sc).startGiven = false
          ∧ (u.screen sc).current = s.onDeck sc ∧ (u.screen sc).point = none ∧ (u.screen sc).startPending = false
          ∧ (u.screen sc).mixer = .machine m ∧ (u.screen sc).faultClaim = .none := by
        rw [hscreen]
        exact ⟨rfl, rfl, rfl, rfl, rfl, rfl, rfl, rfl⟩
      obtain ⟨f1, f2, f3, f4, f5, f6, f7, f8⟩ := hfields
      exact ⟨⟨h1, h2, h3, h4, f1, f2, f3, h5, hframe⟩, f4, f5, f6, f7, f8, hfault, congrArg (LineUnit.report _) hline⟩
    · have hdeaf : ∀ n, (ScreenRec.showNow { (s.screenTaken sc m none).screen sc with sound := n }).Deaf := fun n =>
        ScreenRec.showNow_deaf (by rw [State.screenTaken_screen]; exact hpending)
      obtain ⟨h1, h2, h3, h4, h5, hline⟩ := State.givenOver_machine (e := none)
        (State.screenTaken_taken (sc := sc) none hrunup) hrunup hholds hdeaf
      have hfault : ∀ c, _ := fun c => State.givenOver_fault (e := none) (m := m) hdeaf (State.screenTaken_fault c)
      obtain ⟨-, n, hscreen⟩ := State.givenOver_posts (e := none) (m := m) hdeaf
      rw [State.screenTaken_screen] at hscreen
      intro t
      have ht : t = _ := State.openingTake_eq hwait hstate hopen
      have hframe' : ShowFrame s t := (Reactions.openingTake sc (.refl' s)).frame
      rw [ht] at hframe' ⊢
      clear_value t
      clear ht t
      generalize (s.screenTaken sc m none).givenOver sc m none ScreenRec.showNow = u at *
      have hfields : (u.screen sc).onScreen = some m ∧ (u.screen sc).state = .showing ∧ (u.screen sc).startGiven = false
          ∧ (u.screen sc).current = (s.screen sc).current ∧ (u.screen sc).mixer = .machine m
          ∧ (u.screen sc).faultClaim = .none := by
        rw [hscreen]
        exact ⟨rfl, rfl, rfl, rfl, rfl, rfl⟩
      obtain ⟨f1, f2, f3, f4, f5, f6⟩ := hfields
      exact ⟨⟨h1, h2, h3, h4, f1, f2, f3, h5, hframe'⟩, f4, f5, f6, hfault, hline⟩
  · intro sc x asked
    have hasked : asked = s.relit m := rfl
    obtain ⟨hkeptScreen, -⟩ := s.relit_still m
    obtain ⟨hkeptSucc, hkeptWait⟩ := s.relit_successor m sc
    refine ⟨fun hoff hstate hsucc => ?_, fun hoff hstate hwait => ?_⟩
    · have hnotOpening : (s.screen sc).state ≠ .opening := by
        obtain h | h := hstate <;> simp [show (s.screen sc).state = _ from h]
      have hpost := State.machinePosted_tests hoff hstate hsucc
      refine ⟨hpost, (State.frameNotice_posts hoff).trans hpost, ?_⟩
      rw [State.lampPosted_eq ((State.waitedOn_of_notOpening' hnotOpening).trans hsucc),
        State.openingStep_elsewhere (by rw [hkeptScreen]; exact hnotOpening), hasked]
      exact State.machinePosted_tests (by rw [hkeptScreen]; exact hoff) (by rw [hkeptScreen]; exact hstate)
        (hkeptSucc.trans hsucc)
    · have hpost := State.machinePosted_takes hoff hstate hwait
      have hstate' : ((s.relit m).screen (screenOf m)).state = .opening := by rw [hkeptScreen]; exact hstate
      obtain ⟨hopening, hon, hwait'⟩ := State.openingStep_waits_on hstate' (hkeptWait.trans hwait)
      have hlamp : s.lampPosted m = (asked.openingStep sc).openingTake sc := by
        rw [State.lampPosted_eq hwait, hasked]
        exact State.machinePosted_takes (by rw [hon, hkeptScreen]; exact hoff) hopening hwait'
      refine ⟨hpost, (State.frameNotice_posts hoff).trans hpost, hlamp, fun harmed hloop hlit hgiven => ?_⟩
      have hnone : asked = s := if_neg fun h => by
        have h' : (s.screen (screenOf m)).startGiven = true := h.1
        rw [show (s.screen (screenOf m)).startGiven = false from hgiven] at h'
        exact absurd h' (by decide)
      have hstarted := State.openingStep_burning hwait hstate hgiven harmed hlit
      obtain ⟨hmachine, hscreen, hline⟩ := hstarted.closed hloop
      obtain ⟨hstarting, hmotor, -⟩ := MachineRec.startedAt_fields (t := s.timebase) harmed
      have hsame : s.lampPosted m = s.openingStep sc := by
        rw [hlamp, hnone]
        refine State.openingTake_unready (.inl fun k hk => ?_)
        have hwait'' := (State.openingStep_waits_on hstate hwait).2.2
        obtain rfl := Option.some.inj (hwait''.symm.trans hk)
        refine Bool.eq_false_iff.2 fun hready => ?_
        have hup := State.openReady_runup hready
        have hdown : ((s.openingStep (screenOf m)).machine m).state = .starting := by rw [hmachine]; exact hstarting
        exact absurd (hdown.symm.trans hup) (by decide)
      intro t
      have ht : t = s.openingStep sc := hsame
      have hslots := (StartsOnly.openingStep hwait).slot
      refine ⟨?_, ?_, ?_, ?_, ?_, fun n hn => ?_, ?_⟩
      · rw [ht, hmachine]; exact hstarting
      · rw [ht, hmachine]; exact hmotor
      · rw [ht, hscreen]; exact hstate
      · rw [ht, hscreen]
      · rw [ht, hscreen]
      · refine State.issueScene_sceneIssued fun c => ?_
        have hentry : s.currentEntry (screenOf m) = (s.slot (screenOf m) n).entry := by
          simp only [State.currentEntry, show (s.screen (screenOf m)).current = some n from hn]
        have hlights := hstarted.lights
        rw [hentry] at hlights
        rw [ht]
        exact congrArg (fun h : HouseLights => (h.circuits.get (screenOf m)).get c) hlights
      · rw [ht]
        exact hline

end Sys2Proof.Machine

/-! RESET m: its tests, and what it releases. -/

namespace Sys2Proof.Machine

open Sys2Proof Host

/-! ### The tests of RESET m, in order (R160) -/

theorem State.resetTests_trip {s : State} {m : MachineId} (h : s.fire.boothLatch.isSome = true) :
    s.resetTests m = .error .trip := by
  have hnone : s.fire.boothLatch.isNone = false := by simpa using h
  simp [State.resetTests, hnone]

theorem State.resetTests_state {s : State} {m : MachineId} (hbooth : s.fire.boothLatch = none)
    (h : s.fire.machineLatch.get m = none ∨ (s.fire.shutters.get m).state = .dropping
      ∨ (s.fire.gates.get m).resetThreshold ≤ (s.fire.gates.get m).count) : s.resetTests m = .error .state := by
  unfold State.resetTests
  rw [hbooth]
  cases hlatch : (s.fire.machineLatch.get m).isSome with
  | false => simp
  | true =>
    cases hdrop : (s.fire.shutters.get m).state != .dropping with
    | false => simp
    | true =>
      have hcount : ¬ (s.fire.gates.get m).count < (s.fire.gates.get m).resetThreshold := by
        obtain h | h | h := h
        · simp [h] at hlatch
        · simp [h] at hdrop
        · omega
      simp [hcount]

theorem State.resetTests_pass {s : State} {m : MachineId} (hbooth : s.fire.boothLatch = none)
    (hlatch : (s.fire.machineLatch.get m).isSome = true) (hdrop : (s.fire.shutters.get m).state ≠ .dropping)
    (hcount : (s.fire.gates.get m).count < (s.fire.gates.get m).resetThreshold) : s.resetTests m = .ok () := by
  have hshut : ((s.fire.shutters.get m).state != .dropping) = true := by simpa using hdrop
  have hcool : decide ((s.fire.gates.get m).count < (s.fire.gates.get m).resetThreshold) = true := by simpa using hcount
  unfold State.resetTests
  rw [hbooth, hlatch, hshut, hcool]
  rfl

theorem exec_resetM_ok {s : State} {w : List Text} {m : MachineId} (hp : s.powered = true) (h : parseReset s w = .ok m) :
    exec (.resetM w) s
      = .next ((((s.taken (.resetM w)).resetMachine m).report (.resetMachine m)).answer (.ok [])) := by
  have hparse : parseReset (s.taken (.resetM w)) w = .ok m := h
  change execResetM w s = _
  simp only [execResetM, State.takeCommand_of_powered hp, hparse]

/-! ### The release of a screen's SAFETY claims (R140) -/

theorem State.releaseSafety_clear {sc : ScreenId} {s : State} (h : s.fire.machineLatch.get (lowerOf sc) = none
    ∧ s.fire.machineLatch.get (upperOf sc) = none) : s.releaseSafety sc = s.releaseThree sc .safety := by
  simp [State.releaseSafety, State.latchClear, h]

theorem State.releaseSafety_latched {sc : ScreenId} {s : State} (h : (s.fire.machineLatch.get (lowerOf sc)).isSome = true
    ∨ (s.fire.machineLatch.get (upperOf sc)).isSome = true) : s.releaseSafety sc = s := by
  unfold State.releaseSafety
  rw [if_neg]
  simp only [State.latchClear, Bool.and_eq_true, Option.isNone_iff_eq_none]
  rintro ⟨hlower, hupper⟩
  obtain h | h := h
  · simp [hlower] at h
  · simp [hupper] at h

theorem State.releaseSafety_circuit_ne {sc x : ScreenId} (hx : x ≠ sc) (k : CircuitId) (s : State) :
    (s.releaseSafety sc).circuit x k = s.circuit x k := by
  unfold State.releaseSafety
  split
  · rw [State.releaseThree_circuit, if_neg hx]
  · rfl

theorem State.releaseSafety_rest (sc : ScreenId) (s : State) :
    s.releaseSafety sc = { s with lights := (s.releaseSafety sc).lights } := by
  unfold State.releaseSafety
  split <;> rfl

/-- The two machines of a screen are a machine of it and its partner. -/
theorem latches_of_pair {m : MachineId} {P : MachineId → Prop} :
    (P (lowerOf (screenOf m)) ∧ P (upperOf (screenOf m)) ↔ P m ∧ P (partnerOf m))
      ∧ (P (lowerOf (screenOf m)) ∨ P (upperOf (screenOf m)) ↔ P m ∨ P (partnerOf m)) := by
  cases m
  · exact ⟨Iff.rfl, Iff.rfl⟩
  · exact ⟨and_comm, or_comm⟩
  · exact ⟨Iff.rfl, Iff.rfl⟩
  · exact ⟨and_comm, or_comm⟩

/-! ### What RESET m leaves before the evaluation -/

/-- The state in which the latch is cleared and the magnet energized (R160). -/
def State.latchReleased (m : MachineId) (s : State) : State :=
  (s.modFire (FireUnit.putLatch m none)).modShutter m ShutterRec.energize

/-- The machine's film given up, the lights not yet released (R21, R97). -/
def State.filmLost (m : MachineId) (s : State) : State :=
  ((s.latchReleased m).endBinding m (s.lostStatus m)).modMachine m MachineRec.releaseLost

theorem State.resetMachineOrders_eq (m : MachineId) (s : State) :
    s.resetMachineOrders m = (s.filmLost m).releaseSafety (screenOf m) := rfl

section

variable (m : MachineId) (s : State)

theorem State.filmLost_rest : s.filmLost m = { s.latchReleased m with
    machines := (s.filmLost m).machines, decoders := (s.filmLost m).decoders, lamps := (s.filmLost m).lamps,
    plan := (s.filmLost m).plan } := by
  obtain ⟨hrest, -, -⟩ := State.endBinding_others m (s.lostStatus m) (s.latchReleased m)
  unfold State.filmLost
  generalize (s.latchReleased m).endBinding m (s.lostStatus m) = w at hrest ⊢
  rw [hrest]
  rfl

theorem State.filmLost_machine : ∃ d, (s.filmLost m).machine m
    = { (s.machine m).releaseLost with boundSlot := none, douser := d } := by
  obtain ⟨d, hrecord⟩ := (s.latchReleased m).endBinding_record m (s.lostStatus m)
  refine ⟨(MachineRec.settleDouser (MachineRec.releaseLost { s.machine m with boundSlot := none, douser := d })).douser, ?_⟩
  rw [State.filmLost, State.modMachine_machine, if_pos rfl, hrecord]
  rfl

theorem State.filmLost_others {j : MachineId} (hj : j ≠ m) : (s.filmLost m).machine j = s.machine j
    ∧ (s.filmLost m).decoder j = s.decoder j ∧ (s.filmLost m).lamp j = s.lamp j := by
  obtain ⟨-, -, hothers⟩ := State.endBinding_others m (s.lostStatus m) (s.latchReleased m)
  obtain ⟨hmachine, hlamp, -⟩ := hothers j hj
  refine ⟨?_, ?_, hlamp⟩
  · rw [State.filmLost, State.modMachine_machine, if_neg hj, hmachine]
    rfl
  · have hdecoder : (s.filmLost m).decoder j = ((s.latchReleased m).endBinding m (s.lostStatus m)).decoder j :=
      Quad.get_set_ne _ _ hj
    rw [hdecoder, State.endBinding_decoder]
    rfl

theorem State.filmLost_lamp : ((s.filmLost m).lamp m).state = (s.lamp m).state ∧ LampKept (s.lamp m) ((s.filmLost m).lamp m) := by
  have hlamp : (s.filmLost m).lamp m = ((s.latchReleased m).endBinding m (s.lostStatus m)).lamp m := rfl
  rw [hlamp]
  cases h : ((s.latchReleased m).machine m).boundSlot with
  | none =>
    rw [State.endBinding_unbound h]
    exact ⟨rfl, by constructor <;> rfl⟩
  | some n =>
    have hunbound : ((s.latchReleased m).endBinding m (s.lostStatus m)).lamp m = (s.lamp m).unbind := by
      rw [State.endBinding_bound h]
      exact Quad.get_set_self _ _ _
    rw [hunbound]
    exact ⟨rfl, by constructor <;> rfl⟩

theorem State.lostStatus_eq {n : SlotIx} (h : (s.machine m).boundSlot = some n) :
    s.lostStatus m = if (s.screen (screenOf m)).state ≠ .idle ∧ (s.screen (screenOf m)).current = some n
      ∧ (s.screen (screenOf m)).state ≠ .opening then .cut else .loaded := by
  simp only [State.lostStatus, h, State.isCurrent, Bool.and_eq_true, bne_iff_ne, beq_iff_eq, and_assoc]

theorem State.filmLost_slot {n : SlotIx} (h : (s.machine m).boundSlot = some n) (x : ScreenId) (k : SlotIx) :
    (s.filmLost m).slot x k = if x = screenOf m ∧ k = n then
        ⟨if (s.screen (screenOf m)).state ≠ .idle ∧ (s.screen (screenOf m)).current = some n
            ∧ (s.screen (screenOf m)).state ≠ .opening then .cut else .loaded, none, (s.slot (screenOf m) n).entry⟩
      else s.slot x k := by
  have hbound : ((s.latchReleased m).machine m).boundSlot = some n := h
  rw [State.filmLost, State.modMachine_slot, State.endBinding_slot hbound, ← State.lostStatus_eq m s h]
  rfl

theorem State.filmLost_slot_unbound (h : (s.machine m).boundSlot = none) (x : ScreenId) (k : SlotIx) :
    (s.filmLost m).slot x k = s.slot x k := by
  have hbound : ((s.latchReleased m).machine m).boundSlot = none := h
  rw [State.filmLost, State.modMachine_slot, State.endBinding_unbound hbound]
  rfl

end

/-- Settles O53: the tests in their order, and the release with film lost. -/
theorem resetReleasesTheMachine : Obligations.ResetReleasesTheMachine := by
  intro m a s hp hnames c sc latch sh g
  have hone := onlyMachine_of_namesMachine hnames
  refine ⟨fun hbooth => exec_refused hp (reasonOf_eq_some.2 ?_), fun hbooth hnot => exec_refused hp (reasonOf_eq_some.2 ?_),
    fun hbooth hlatch hdrop hcount => ?_⟩
  · simp [parseReset, hone, State.resetTests_trip hbooth]
  · simp [parseReset, hone, State.resetTests_state hbooth hnot]
  have hparse : parseReset s [a] = .ok m := by simp [parseReset, hone, State.resetTests_pass hbooth hlatch hdrop hcount]
  have hexec := exec_resetM_ok hp hparse
  have hrest := (s.taken c).filmLost_rest m
  obtain ⟨d, hmachine⟩ := (s.taken c).filmLost_machine m
  have hothers : ∀ j, j ≠ m → _ := fun j hj => (s.taken c).filmLost_others m hj
  have hlamp := (s.taken c).filmLost_lamp m
  have hslot := fun n h => (s.taken c).filmLost_slot m (n := n) h
  have hslot' := (s.taken c).filmLost_slot_unbound m
  have heq : (s.taken c).resetMachine m
      = (((s.taken c).filmLost m).releaseSafety sc).evaluateScreen sc := rfl
  rw [heq] at hexec
  have hfire : ((s.taken c).filmLost m).fire = ((s.taken c).latchReleased m).fire := by rw [hrest]
  have hline : ((s.taken c).filmLost m).line = (s.taken c).line := by rw [hrest]; rfl
  have hscreens : ((s.taken c).filmLost m).screens = s.screens := by rw [hrest]; rfl
  have hcircuit : ∀ x k, ((s.taken c).filmLost m).circuit x k = s.circuit x k := by
    intro x k
    rw [hrest]
    rfl
  generalize (s.taken c).filmLost m = v at *
  have hsafe := v.releaseSafety_rest sc
  have hfire' : (v.releaseSafety sc).fire = ((s.taken c).latchReleased m).fire := by rw [hsafe]; exact hfire
  have hlatches : ∀ j, v.fire.machineLatch.get j = if j = m then none else s.fire.machineLatch.get j := by
    intro j
    rw [hfire]
    exact Quad.get_set _ _ _ _
  have hgate : (v.releaseSafety sc).fire.gates = s.fire.gates ∧ (v.releaseSafety sc).fire.log = s.fire.log
      ∧ (v.releaseSafety sc).fire.nextSequence = s.fire.nextSequence := by
    rw [hfire']
    exact ⟨rfl, rfl, rfl⟩
  obtain ⟨hgates, hlog, hnext⟩ := hgate
  have hfields : let r := (v.releaseSafety sc).machine m
      r.state = .empty ∧ r.reelId = none ∧ r.boundSlot = none ∧ r.frameCount = 0 ∧ r.saturated = false
        ∧ r.armedPosting = false ∧ r.stateBeforeTrip = none ∧ r.holds.fire = false
        ∧ r.accelAllowance = (s.machine m).accelAllowance ∧ r.pictureLost = (s.machine m).pictureLost := by
    rw [State.releaseSafety_machine, hmachine]
    exact ⟨rfl, rfl, rfl, rfl, rfl, rfl, rfl, rfl, rfl, rfl⟩
  obtain ⟨h1, h2, h3, h4, h5, h6, h7, h8, h9, h10⟩ := hfields
  refine ⟨v.releaseSafety sc, hexec, (Reactions.evaluateScreen sc (.refl' _)).frame, fun j => ?_, fun j => ?_,
    hgates, hlog, hnext, (State.releaseSafety_line sc v).trans hline, ?_, fun j hj => ?_, ?_, ?_, h1, h2, h3, h4,
    h5, h6, h7, h8, h9, h10, fun n h x k => ?_, fun h x k => ?_, fun hclear k => ?_, fun hset k => ?_, fun x k hx => ?_⟩
  · rw [State.releaseSafety_fire]; exact hlatches j
  · rw [hfire']
    exact Quad.get_set _ _ _ _
  · rw [hsafe]; exact hscreens
  · rw [State.releaseSafety_machine, State.releaseSafety_lamp]
    obtain ⟨h1, h2, h3⟩ := hothers j hj
    refine ⟨h1, ?_, h3⟩
    rw [hsafe]
    exact h2
  · rw [State.releaseSafety_lamp]; exact hlamp.1
  · rw [State.releaseSafety_lamp]; exact hlamp.2
  · rw [State.releaseSafety_slot]; exact hslot n h x k
  · rw [State.releaseSafety_slot]; exact hslot' h x k
  · rw [State.releaseSafety_clear ((latches_of_pair (m := m) (P := fun j => v.fire.machineLatch.get j = none)).1.2
      ⟨by rw [hlatches, if_pos rfl], by rw [hlatches, if_neg (partnerOf_ne m)]; exact hclear⟩),
      State.releaseThree_circuit, if_pos rfl]
    exact Circuit.release_self _ .safety _
  · rw [State.releaseSafety_latched ((latches_of_pair (m := m) (P := fun j => (v.fire.machineLatch.get j).isSome = true)).2.2
      (.inr (by rw [hlatches, if_neg (partnerOf_ne m)]; exact hset)))]
    exact hcircuit sc k
  · rw [State.releaseSafety_circuit_ne hx]
    exact hcircuit x k

end Sys2Proof.Machine

/-! RESET BOOTH: its tests, and its steps. -/

namespace Sys2Proof.Machine

open Sys2Proof Host

/-! ### The tests of RESET BOOTH (R161) -/

theorem State.loopHealthyEnough_iff (s : State) :
    s.loopHealthyEnough = true ↔ ∃ k, s.fire.loopHealthy = some k ∧ 5 ≤ k := by
  unfold State.loopHealthyEnough
  cases s.fire.loopHealthy with
  | none => simp
  | some t => simp [Config.healthyNeeded]

theorem State.anyDropping_iff (s : State) :
    s.anyDropping = true ↔ ∃ m, (s.fire.shutters.get m).state = .dropping := by
  simp only [State.anyDropping, Bool.or_eq_true, beq_iff_eq]
  constructor
  · rintro (((h | h) | h) | h)
    · exact ⟨.m1, h⟩
    · exact ⟨.m2, h⟩
    · exact ⟨.m3, h⟩
    · exact ⟨.m4, h⟩
  · rintro ⟨m, h⟩
    cases m
    · exact .inl (.inl (.inl h))
    · exact .inl (.inl (.inr h))
    · exact .inl (.inr h)
    · exact .inr h

theorem State.resetBoothTests_state {s : State}
    (h : s.fire.boothLatch = none ∨ s.loopHealthyEnough = false ∨ s.anyDropping = true) :
    s.resetBoothTests = .error .state := by
  unfold State.resetBoothTests
  cases hbooth : s.fire.boothLatch.isSome with
  | false => simp
  | true =>
    cases hloop : s.loopHealthyEnough with
    | false => simp
    | true =>
      obtain h | h | h := h
      · simp [h] at hbooth
      · simp [hloop] at h
      · simp [h]

theorem State.resetBoothTests_pass {s : State} (hbooth : s.fire.boothLatch.isSome = true)
    (hloop : s.loopHealthyEnough = true) (hdrop : s.anyDropping = false) : s.resetBoothTests = .ok () := by
  simp [State.resetBoothTests, hbooth, hloop, hdrop]

theorem exec_resetBooth_ok {s : State} (hp : s.powered = true) (h : parseResetBooth s [] = .ok ()) :
    exec (.resetBooth []) s
      = .next (((s.taken (.resetBooth [])).resetBooth.answer (.ok [])).report .resetBooth) := by
  have hparse : parseResetBooth (s.taken (.resetBooth [])) [] = .ok () := h
  change execResetBooth [] s = _
  simp only [execResetBooth, State.takeCommand_of_powered hp, hparse]

/-! ### A machine released with its film kept (R20) -/

theorem MachineRec.releaseKept_eq (r : MachineRec) :
    let stops := r.stateBeforeTrip ≠ some .broken ∧ r.reelId ≠ none ∧ r.boundSlot = none
    r.releaseKept.settleDouser = { r with
      ring := if stops then [] else r.ring
      pulseRef := if stops then false else r.pulseRef
      periodTimer := if stops then none else r.periodTimer
      average := if stops then none else r.average
      cfps := if stops then none else r.cfps
      inBandRun := if stops then 0 else r.inBandRun
      outBandRun := if stops then 0 else r.outBandRun
      stateBeforeTrip := none
      state := if r.stateBeforeTrip = some .broken then .broken else if r.reelId = none then .empty
        else if r.boundSlot.isSome = true then .threaded else .stopped
      breakCause := if r.stateBeforeTrip = some .broken then some .loop else r.breakCause
      armedPosting := if r.stateBeforeTrip ≠ some .broken ∧ r.reelId ≠ none ∧ r.boundSlot.isSome = true then false
        else r.armedPosting
      holds := { r.holds with fire := false, brk := if r.stateBeforeTrip = some .broken then true else r.holds.brk }
      douser := .closed } := by
  unfold MachineRec.releaseKept
  by_cases hbroken : r.stateBeforeTrip = some .broken
  · simp [hbroken, MachineRec.settleDouser, HoldSet.put]
  · by_cases hreel : r.reelId = none
    · simp [hbroken, hreel, MachineRec.settleDouser, HoldSet.put]
    · cases hbound : r.boundSlot with
      | some n => simp [hbroken, hreel, hbound, MachineRec.settleDouser, HoldSet.put]
      | none => simp [hbroken, hreel, hbound, MachineRec.settleDouser, HoldSet.put, MachineRec.clearRing]

/-! ### The releases of machines, magnets and lights -/

theorem boothReleased_eq (l : Option LatchCause) : boothReleased l = if l = some .gateHeat then some .gateHeat else none := by
  obtain _ | _ | _ := l <;> rfl

section

variable (s : State)

theorem State.releaseKept_machine (w : State) (m k : MachineId) (x : Option LatchCause) : (w.releaseKept m x).machine k
    = if k = m ∧ x = some .booth then (w.machine m).releaseKept.settleDouser else w.machine k := by
  unfold State.releaseKept
  by_cases hx : x = some .booth
  · rw [if_pos hx, State.modMachine_machine]
    simp [hx]
  · simp [hx]

theorem State.energizeClear_machine (m k : MachineId) (w : State) : (w.energizeClear m).machine k = w.machine k :=
  congrArg (Quad.get · k) (w.energizeClear_keeps m).2.2.2.1

theorem State.energizeClear_shutter (m k : MachineId) (w : State) : (w.energizeClear m).fire.shutters.get k
    = if k = m ∧ w.fire.machineLatch.get m = none then { w.fire.shutters.get k with magnet := true }
      else w.fire.shutters.get k := by
  unfold State.energizeClear State.latchClear
  cases hlatch : w.fire.machineLatch.get m with
  | some c => simp
  | none =>
    rw [if_pos (by rfl)]
    change (w.fire.shutters.set m (w.fire.shutters.get m).energize).get k = _
    rw [Quad.get_set]
    by_cases hk : k = m
    · subst hk
      simp [ShutterRec.energize]
    · simp [hk]

/-- RESET BOOTH's releases on the machines, each by its latch as it stood. -/
theorem State.boothReleases_machine (m : MachineId) : s.boothReleases.machine m
    = if s.fire.machineLatch.get m = some .booth then (s.machine m).releaseKept.settleDouser else s.machine m := by
  unfold State.boothReleases
  simp only [State.energizeClear_machine, State.releaseKept_machine]
  cases m <;> simp <;> rfl

theorem State.boothReleases_shutter (m : MachineId) : s.boothReleases.fire.shutters.get m
    = if boothReleased (s.fire.machineLatch.get m) = none then { s.fire.shutters.get m with magnet := true }
      else s.fire.shutters.get m := by
  have hlatch : ∀ k, (s.fire.machineLatch.map boothReleased).get k = boothReleased (s.fire.machineLatch.get k) :=
    fun k => Quad.get_map _ _ _
  unfold State.boothReleases
  simp only [State.energizeClear_shutter, (State.energizeClear_keeps _ _).1, (State.releaseKept_keeps _ _ _).1]
  cases m <;> simp [hlatch]

/-- Neither the fire unit's gates and log nor the screens' records are touched (R161). -/
theorem State.boothReleases_kept : s.boothReleases.fire.gates = s.fire.gates ∧ s.boothReleases.fire.log = s.fire.log
    ∧ s.boothReleases.fire.nextSequence = s.fire.nextSequence ∧ s.boothReleases.screens = s.screens := by
  have henergize : ∀ (m : MachineId) (w : State), (w.energizeClear m).fire.gates = w.fire.gates
      ∧ (w.energizeClear m).fire.log = w.fire.log ∧ (w.energizeClear m).fire.nextSequence = w.fire.nextSequence
      ∧ (w.energizeClear m).screens = w.screens := by
    intro m w
    unfold State.energizeClear
    split <;> exact ⟨rfl, rfl, rfl, rfl⟩
  have hrelease : ∀ (m : MachineId) (x : Option LatchCause) (w : State), (w.releaseKept m x).screens = w.screens := by
    intro m x w
    unfold State.releaseKept
    split <;> rfl
  unfold State.boothReleases
  refine ⟨?_, ?_, ?_, ?_⟩ <;> simp only [henergize, hrelease, (State.releaseKept_keeps _ _ _).1] <;> rfl

end

theorem State.releaseSafety_halfCycle (sc : ScreenId) (w : State) :
    (w.releaseSafety sc).lights.halfCycle = w.lights.halfCycle := by
  unfold State.releaseSafety
  split <;> rfl

/-- What the SAFETY release does on a circuit depends on the latches and on that circuit. -/
theorem State.releaseSafety_circuit_congr {sc : ScreenId} {a b : State} {k : CircuitId} (hfire : a.fire = b.fire)
    (hhalf : a.lights.halfCycle = b.lights.halfCycle) (hcircuit : a.circuit sc k = b.circuit sc k) :
    (a.releaseSafety sc).circuit sc k = (b.releaseSafety sc).circuit sc k := by
  unfold State.releaseSafety State.latchClear
  rw [hfire]
  split
  · rw [State.releaseThree_circuit, State.releaseThree_circuit, if_pos rfl, if_pos rfl, hhalf, hcircuit]
  · exact hcircuit

/-! ### The last claim released -/

theorem ClaimTable.top_eq_none {t : ClaimTable} (hsafety : t.safety = none) (hfault : t.fault = none) (hcue : t.cue = none)
    (hconsole : t.console = none) : t.top = none := by
  simp [ClaimTable.top, hsafety, hfault, hcue, hconsole]

/-- A circuit whose SAFETY claim was the last one is at full (R135). -/
theorem Circuit.release_safety_last {h : Nat} {c : Circuit} (htop : c.claims.top = some .safety) (hfault : c.claims.fault = none)
    (hcue : c.claims.cue = none) (hconsole : c.claims.console = none) : (c.release h .safety).output = 255 :=
  (Circuit.release_last (ClaimTable.top_present htop) (ClaimTable.top_eq_none (Circuit.release_self h .safety c)
    (Circuit.release_other_none (q := .fault) (by decide) hfault) (Circuit.release_other_none (q := .cue) (by decide) hcue)
    (Circuit.release_other_none (q := .console) (by decide) hconsole))).1

/-- Settles O54: the tests in their order, and the steps of RESET BOOTH. -/
theorem resetBoothReleasesTheBooth : Obligations.ResetBoothReleasesTheBooth := by
  intro s hp c healthy dropping
  have hhealthy := s.loopHealthyEnough_iff
  have hdropping := s.anyDropping_iff
  refine ⟨fun hnot => exec_refused hp (reasonOf_eq_some.2 ?_), fun w hw => exec_refused hp (reasonOf_eq_some.2 ?_),
    fun hbooth hloop hdrop => ?_⟩
  · have htests : s.resetBoothTests = .error .state := by
      refine State.resetBoothTests_state ?_
      obtain h | h | h := hnot
      · exact .inl h
      · exact .inr (.inl (Bool.eq_false_iff.2 fun hyes => h (hhealthy.1 hyes)))
      · exact .inr (.inr (hdropping.2 h))
    simp [parseResetBooth, noOperand, htests]
  · obtain ⟨x, xs, rfl⟩ := List.exists_cons_of_ne_nil hw
    rfl
  have hparse : parseResetBooth s [] = .ok () := by
    have htests : s.resetBoothTests = .ok () := State.resetBoothTests_pass hbooth (hhealthy.2 hloop)
      (Bool.eq_false_iff.2 fun hyes => hdrop (hdropping.1 hyes))
    simp [parseResetBooth, noOperand, htests]
  obtain ⟨hlatch, hclear, hlights, hlamps, hline, htables⟩ := (s.taken c).boothReleases_latch
  obtain ⟨hgates, hlog, hnext, hscreens⟩ := (s.taken c).boothReleases_kept
  have hmachine := (s.taken c).boothReleases_machine
  have hshutter := (s.taken c).boothReleases_shutter
  have heq : (s.taken c).resetBooth = ((((s.taken c).boothReleases.releaseSafety .s1).releaseSafety .s2).evaluateScreen
      .s1).evaluateScreen .s2 := rfl
  have hexec := exec_resetBooth_ok hp hparse
  rw [show (s.taken (.resetBooth [])) = s.taken c from rfl, heq] at hexec
  generalize (s.taken c).boothReleases = v at *
  have hfire : ((v.releaseSafety .s1).releaseSafety .s2).fire = v.fire := by
    rw [State.releaseSafety_fire, State.releaseSafety_fire]
  have hlatched : ∀ m, v.fire.machineLatch.get m
      = if s.fire.machineLatch.get m = some .gateHeat then some .gateHeat else none := by
    intro m
    rw [hlatch]
    exact (Quad.get_map _ _ _).trans (boothReleased_eq _)
  have hsafe1 := v.releaseSafety_rest .s1
  have hsafe2 := (v.releaseSafety .s1).releaseSafety_rest .s2
  refine ⟨(v.releaseSafety .s1).releaseSafety .s2, hexec, ?_, ?_, fun m => ?_, fun m => ?_, ?_, ?_, ?_, fun m hm => ?_,
    fun m hm => ?_, fun m => ?_, ?_, ?_, ?_, fun sc => ?_⟩
  · exact (Reactions.evaluateScreen .s2 (Reactions.evaluateScreen .s1 (.refl' _))).frame
  · rw [hfire]; exact hclear
  · rw [hfire]; exact hlatched m
  · rw [hfire, hshutter, boothReleased_eq]
    by_cases hheat : (s.taken c).fire.machineLatch.get m = some .gateHeat
    · rw [if_pos hheat, if_neg (by simp), if_pos (show s.fire.machineLatch.get m = _ from hheat)]
      rfl
    · rw [if_neg hheat, if_pos rfl, if_neg (show s.fire.machineLatch.get m ≠ _ from hheat)]
      rfl
  · rw [hfire]; exact hgates
  · rw [hfire]; exact hlog
  · rw [hfire]; exact hnext
  · rw [State.releaseSafety_machine, State.releaseSafety_machine, hmachine]
    exact if_neg hm
  · intro r stops
    rw [State.releaseSafety_machine, State.releaseSafety_machine, hmachine]
    exact (if_pos hm).trans r.releaseKept_eq
  · rw [State.releaseSafety_lamp, State.releaseSafety_lamp]
    exact congrArg (Quad.get · m) hlamps
  · rw [hsafe2, hsafe1]; exact hscreens
  · rw [hsafe2, hsafe1]; exact htables
  · rw [State.releaseSafety_line, State.releaseSafety_line]; exact hline
  · have hcircuit : ∀ k, v.circuit sc k = s.circuit sc k := fun k => by simp only [State.circuit, hlights]; rfl
    have hone : ∀ k, ((v.releaseSafety .s1).releaseSafety .s2).circuit sc k = (v.releaseSafety sc).circuit sc k := by
      intro k
      cases sc with
      | s1 => exact State.releaseSafety_circuit_ne (by decide) k _
      | s2 =>
        exact State.releaseSafety_circuit_congr (State.releaseSafety_fire .s1 v) (State.releaseSafety_halfCycle .s1 v)
          (State.releaseSafety_circuit_ne (by decide) k v)
    intro held
    have hheld : ∀ m, (v.fire.machineLatch.get m).isSome = true ↔ s.fire.machineLatch.get m = some .gateHeat := by
      intro m
      rw [hlatched]
      split <;> simp [*]
    refine ⟨fun h k => ?_, fun h k => ?_⟩
    · rw [hone, State.releaseSafety_latched (by rw [hheld, hheld]; exact h)]
      exact hcircuit k
    · have hnone : ∀ m, s.fire.machineLatch.get m ≠ some .gateHeat → v.fire.machineLatch.get m = none := fun m hm => by
        rw [hlatched, if_neg hm]
      have hpair := not_or.1 h
      rw [hone, State.releaseSafety_clear ⟨hnone _ hpair.1, hnone _ hpair.2⟩, State.releaseThree_circuit, if_pos rfl, hcircuit]
      exact ⟨Circuit.release_self _ .safety _, fun h1 h2 h3 h4 => Circuit.release_safety_last h1 h2 h3 h4⟩

end Sys2Proof.Machine

/-! Slot notices, the end of an outgoing reel, and ABORT. -/

namespace Sys2Proof.Machine

open Sys2Proof Host

/-! ### What a slot notice writes -/

/-- Slot notices write the plan's tables, the bindings of machines and lamps with what follows from them, and, where a reel
end is reported, the line (R86, R97, R117). -/
structure NoticeOnly (s t : State) : Prop where
  rest : t = { s with machines := t.machines, lamps := t.lamps, plan := t.plan, line := t.line }
  plan : t.plan = { s.plan with tables := t.plan.tables, lastPosting := t.plan.lastPosting }
  machine : ∀ j, t.machine j
    = { s.machine j with boundSlot := (t.machine j).boundSlot, douser := (t.machine j).douser }
  bound : ∀ j, (t.machine j).boundSlot = (s.machine j).boundSlot ∨ (t.machine j).boundSlot = none
  lamp : ∀ j, (t.lamp j).state = (s.lamp j).state

namespace NoticeOnly

variable {s t u : State}

theorem refl (s : State) : NoticeOnly s s := ⟨rfl, rfl, fun _ => rfl, fun _ => .inl rfl, fun _ => rfl⟩

theorem trans (h : NoticeOnly s t) (k : NoticeOnly t u) : NoticeOnly s u where
  rest := by
    have hk := k.rest
    rw [h.rest] at hk
    exact hk
  plan := by
    have hk := k.plan
    rw [h.plan] at hk
    exact hk
  machine j := by
    have hk := k.machine j
    rw [h.machine j] at hk
    exact hk
  bound j := by
    obtain h' | h' := k.bound j
    · rw [h']
      exact h.bound j
    · exact .inr h'
  lamp j := (k.lamp j).trans (h.lamp j)

theorem ofSlot (sc : ScreenId) (n : SlotIx) (f : Slot → Slot) (s : State) : NoticeOnly s (s.modSlot sc n f) :=
  ⟨rfl, rfl, fun _ => rfl, fun _ => .inl rfl, fun _ => rfl⟩

theorem ofReport (r : Report) (s : State) : NoticeOnly s (s.report r) :=
  ⟨rfl, rfl, fun _ => rfl, fun _ => .inl rfl, fun _ => rfl⟩

theorem ofReportIf (yes : Bool) (r : Report) (s : State) : NoticeOnly s (s.reportIf yes r) := by
  unfold State.reportIf
  split
  · exact ofReport r s
  · exact refl s

/-- The end of a machine's binding on its own side and the lamp's. -/
theorem unbind (m : MachineId) (s : State) :
    NoticeOnly s ((s.modMachine m fun r => { r with boundSlot := none }).modLamp m LampRec.unbind) := by
  have hlamp : (s.modMachine m fun r => { r with boundSlot := none }).modLamp m LampRec.unbind
      = { s.modMachine m (fun r => { r with boundSlot := none }) with
          lamps := s.lamps.set m (s.lamp m).unbind } := State.modLamp_of_state rfl
  have hdecoder : (s.modMachine m fun r => { r with boundSlot := none }).decoders = s.decoders := by
    have hfollow : (s.decoder m).follow (s.machine m) (MachineRec.settleDouser { s.machine m with boundSlot := none })
        = s.decoder m := DecoderRec.follow_of_kept _ rfl rfl
    change s.decoders.set m ((s.decoder m).follow (s.machine m) (MachineRec.settleDouser { s.machine m with boundSlot := none })) = _
    rw [hfollow]
    exact Quad.set_get_self _ _
  have hplan := (State.modMachine_planOnly m (fun r => { r with boundSlot := none }) s).1
  have hmachine : ∀ j, (s.modMachine m fun r => { r with boundSlot := none }).machine j
      = if j = m then MachineRec.settleDouser { s.machine m with boundSlot := none } else s.machine j :=
    fun j => State.modMachine_machine ..
  rw [hlamp]
  refine ⟨?_, ?_, fun j => ?_, fun j => ?_, fun j => ?_⟩
  · have hrest : s.modMachine m (fun r => { r with boundSlot := none })
        = { s with
            machines := (s.modMachine m fun r => { r with boundSlot := none }).machines
            decoders := (s.modMachine m fun r => { r with boundSlot := none }).decoders
            plan := (s.modMachine m fun r => { r with boundSlot := none }).plan } := rfl
    rw [hdecoder] at hrest
    generalize s.modMachine m (fun r => { r with boundSlot := none }) = v at hrest ⊢
    rw [hrest]
  · have hshowAt := congrArg PlanStore.showAt hplan
    have hclock := congrArg PlanStore.clock hplan
    have hsecond := congrArg PlanStore.clockSecond hplan
    exact PlanStore.eq_of_clock hshowAt hclock hsecond
  · change (s.modMachine m fun r => { r with boundSlot := none }).machine j = { s.machine j with
      boundSlot := ((s.modMachine m fun r => { r with boundSlot := none }).machine j).boundSlot
      douser := ((s.modMachine m fun r => { r with boundSlot := none }).machine j).douser }
    rw [hmachine]
    split
    next hj => subst hj; rfl
    next => rfl
  · change ((s.modMachine m fun r => { r with boundSlot := none }).machine j).boundSlot = (s.machine j).boundSlot
      ∨ ((s.modMachine m fun r => { r with boundSlot := none }).machine j).boundSlot = none
    rw [hmachine]
    split
    · exact .inr rfl
    · exact .inl rfl
  · change ((s.lamps.set m (s.lamp m).unbind).get j).state = (s.lamp j).state
    rw [Quad.get_set]
    split
    next hj => subst hj; rfl
    next => rfl

theorem slotNotice (sc : ScreenId) (n : SlotIx) (st : SlotStatus) (s : State) : NoticeOnly s (s.slotNotice sc n st) := by
  unfold State.slotNotice
  split
  · dsimp only
    split
    · exact ofSlot sc n _ s
    · exact (ofSlot sc n _ s).trans (unbind _ _)
  · exact ofSlot sc n _ s
  all_goals exact refl s

theorem outgoingReelEnds (m : MachineId) (s : State) : NoticeOnly s (s.outgoingReelEnds m) := by
  unfold State.outgoingReelEnds
  split
  · exact refl s
  · dsimp only
    split
    · exact slotNotice _ _ _ s
    · exact (slotNotice _ _ _ s).trans (ofReportIf _ _ _)

theorem cutCurrent (sc : ScreenId) (s : State) : NoticeOnly s (s.cutCurrent sc) := by
  unfold State.cutCurrent
  split
  · exact refl s
  · exact slotNotice _ _ _ s

section

variable (h : NoticeOnly s t)
include h

theorem screens : t.screens = s.screens := by rw [h.rest]

theorem screen (z : ScreenId) : t.screen z = s.screen z := by rw [h.rest]; rfl

theorem decoder (j : MachineId) : t.decoder j = s.decoder j := by rw [h.rest]; rfl

theorem circuit (z : ScreenId) (c : CircuitId) : t.circuit z c = s.circuit z c := by rw [h.rest]; rfl

theorem lights : t.lights = s.lights := by rw [h.rest]

theorem fire : t.fire = s.fire := by rw [h.rest]

theorem machineState (j : MachineId) : (t.machine j).state = (s.machine j).state ∧ (t.machine j).motor = (s.machine j).motor := by
  rw [h.machine j]
  exact ⟨rfl, rfl⟩

end

end NoticeOnly

/-! ### What it writes of slots and bindings -/

section

variable {sc : ScreenId} {n : SlotIx} {st : SlotStatus} {s : State}

theorem State.slotNotice_slot (x : ScreenId) (k : SlotIx) : (s.slotNotice sc n st).slot x k
    = if x = sc ∧ k = n ∧ (s.slot sc n).status.showable = true then { s.slot sc n with status := st, bound := none }
      else s.slot x k := by
  have hwritten : (s.modSlot sc n fun y => { y with status := st, bound := none }).slot x k
      = if x = sc ∧ k = n then { s.slot sc n with status := st, bound := none } else s.slot x k := by
    rw [State.modSlot_slot]
  unfold State.slotNotice
  cases hstatus : (s.slot sc n).status with
  | bound =>
    simp only [SlotStatus.showable, and_true]
    cases hbound : (s.slot sc n).bound with
    | none => exact hwritten
    | some m =>
      simp only [State.modLamp_slot, State.modMachine_slot]
      exact hwritten
  | loaded =>
    simp only [SlotStatus.showable, and_true]
    exact hwritten
  | empty | shown | cut => simp [SlotStatus.showable]

/-- A machine that the slot is not bound to stands, with its lamp. -/
theorem State.slotNotice_apart {j : MachineId} (h : (s.slot sc n).status = .bound → (s.slot sc n).bound ≠ some j) :
    (s.slotNotice sc n st).machine j = s.machine j ∧ (s.slotNotice sc n st).lamp j = s.lamp j := by
  unfold State.slotNotice
  split
  next hstatus =>
    dsimp only
    split
    · exact ⟨rfl, rfl⟩
    next m hm =>
      have hj : j ≠ m := fun e => h hstatus (by rw [hm, e])
      have hlamp : ∀ u : State, (u.modMachine m fun r => { r with boundSlot := none }).modLamp m LampRec.unbind
          = { u.modMachine m (fun r => { r with boundSlot := none }) with
              lamps := u.lamps.set m (u.lamp m).unbind } := fun u => State.modLamp_of_state rfl
      rw [hlamp]
      exact ⟨Quad.get_set_ne _ _ hj, Quad.get_set_ne _ _ hj⟩
  all_goals exact ⟨rfl, rfl⟩

theorem State.outgoingReelEnds_none {m : MachineId} (h : (s.machine m).boundSlot = none) : s.outgoingReelEnds m = s := by
  simp only [State.outgoingReelEnds, h]

theorem State.outgoingReelEnds_slot {m : MachineId} (h : (s.machine m).boundSlot = some n) (x : ScreenId) (k : SlotIx) :
    (s.outgoingReelEnds m).slot x k = (s.slotNotice (screenOf m) n .shown).slot x k := by
  simp only [State.outgoingReelEnds, h]
  cases (s.slot (screenOf m) n).entry with
  | none => rfl
  | some e =>
    simp only [State.reportIf]
    split <;> rfl

theorem State.outgoingReelEnds_machine {m : MachineId} (h : (s.machine m).boundSlot = some n) (j : MachineId) :
    (s.outgoingReelEnds m).machine j = (s.slotNotice (screenOf m) n .shown).machine j := by
  simp only [State.outgoingReelEnds, h]
  cases (s.slot (screenOf m) n).entry with
  | none => rfl
  | some e =>
    simp only [State.reportIf]
    split <;> rfl

end

/-! ### A machine of an aborted screen (R126) -/

/-- The machine stopped, its lamp out and its queue emptied. -/
def State.abortStopped (m : MachineId) (s : State) : State :=
  ((s.modMachine m MachineRec.stopOrder).lampOff m).modDecoder m fun d => { d with deferred := [] }

theorem State.abortMachine_eq (m : MachineId) (s : State) :
    s.abortMachine m = if (s.machine m).state = .runout then (s.abortStopped m).outgoingReelEnds m else s.abortStopped m := rfl

theorem MachineRec.stopOrder_fields (r : MachineRec) :
    (r.stopOrder.state = if r.state.running then .stopped else r.state)
      ∧ (r.state.running = true → r.stopOrder.motor = false) ∧ r.stopOrder.boundSlot = r.boundSlot := by
  unfold MachineRec.stopOrder
  split
  · refine ⟨r.enterStopped_state, fun _ => r.enterStopped_fields.1, ?_⟩
    unfold MachineRec.enterStopped MachineRec.motorOff
    split <;> rfl
  next h => exact ⟨rfl, fun h' => absurd h' h, rfl⟩

section

variable (m : MachineId) (s : State)

theorem State.abortStopped_machine : ((s.abortStopped m).machine m).state = (if (s.machine m).state.running then .stopped else (s.machine m).state)
    ∧ ((s.machine m).state.running = true → ((s.abortStopped m).machine m).motor = false)
    ∧ ((s.abortStopped m).machine m).boundSlot = (s.machine m).boundSlot := by
  have hstopped : (s.modMachine m MachineRec.stopOrder).machine m = (s.machine m).stopOrder.settleDouser := by
    rw [State.modMachine_machine, if_pos rfl]
  obtain ⟨hstate, hmotor, hbound⟩ := (s.machine m).stopOrder_fields
  have hkept := State.modLamp_machine_kept m m LampRec.putOut (s.modMachine m MachineRec.stopOrder)
  have hrecord : (s.abortStopped m).machine m = ((s.modMachine m MachineRec.stopOrder).modLamp m LampRec.putOut).machine m := rfl
  rw [hrecord, hkept, hstopped]
  exact ⟨hstate, hmotor, hbound⟩

theorem State.abortStopped_lamp : ((s.abortStopped m).lamp m).state ≠ .burning ∧ ((s.abortStopped m).lamp m).state ≠ .striking := by
  have hlamp : (s.abortStopped m).lamp m = (s.lamp m).putOut := by
    change ((s.modMachine m MachineRec.stopOrder).modLamp m LampRec.putOut).lamp m = _
    rw [State.modLamp_lamp, if_pos rfl]
    rfl
  rw [hlamp]
  exact LampRec.putOut_out _

theorem State.abortStopped_queue : ((s.abortStopped m).decoder m).deferred = [] :=
  congrArg DecoderRec.deferred (Quad.get_set_self _ _ _)

theorem State.abortStopped_other {j : MachineId} (hj : j ≠ m) : (s.abortStopped m).machine j = s.machine j
    ∧ (s.abortStopped m).lamp j = s.lamp j ∧ (s.abortStopped m).decoder j = s.decoder j := by
  refine ⟨?_, ?_, ?_⟩
  · change ((s.modMachine m MachineRec.stopOrder).modLamp m LampRec.putOut).machine j = _
    rw [State.modLamp_machine', if_neg hj, State.modMachine_machine, if_neg hj]
  · change ((s.modMachine m MachineRec.stopOrder).modLamp m LampRec.putOut).lamp j = _
    rw [State.modLamp_lamp, if_neg hj]
    rfl
  · have hdecoder : (s.abortStopped m).decoder j = ((s.modMachine m MachineRec.stopOrder).modLamp m LampRec.putOut).decoder j :=
      Quad.get_set_ne _ _ hj
    rw [hdecoder, State.modLamp_decoder]
    exact Quad.get_set_ne _ _ hj

theorem State.abortStopped_slot (x : ScreenId) (k : SlotIx) : (s.abortStopped m).slot x k = s.slot x k := by
  change ((s.modMachine m MachineRec.stopOrder).modLamp m LampRec.putOut).slot x k = _
  rw [State.modLamp_slot, State.modMachine_slot]

theorem State.abortStopped_screen (x : ScreenId) : (s.abortStopped m).screen x = s.screen x := by
  change ((s.modMachine m MachineRec.stopOrder).modLamp m LampRec.putOut).screen x = _
  rw [State.modLamp_screen, State.modMachine_screen]

/-- After the abort of a machine a notice may have come, and no more. -/
theorem State.abortMachine_notice : NoticeOnly (s.abortStopped m) (s.abortMachine m) := by
  rw [State.abortMachine_eq]
  split
  · exact .outgoingReelEnds m _
  · exact .refl _

theorem State.abortMachine_screen (x : ScreenId) : (s.abortMachine m).screen x = s.screen x :=
  ((s.abortMachine_notice m).screen x).trans (s.abortStopped_screen m x)

/-- The slots after the abort of a machine: that of a machine in RUNOUT is SHOWN (R117). -/
theorem State.abortMachine_slot (x : ScreenId) (k : SlotIx) : (s.abortMachine m).slot x k
    = if (s.machine m).state = .runout ∧ (s.machine m).boundSlot = some k ∧ x = screenOf m
        ∧ (s.slot x k).status.showable = true then { s.slot x k with status := .shown, bound := none }
      else s.slot x k := by
  rw [State.abortMachine_eq]
  have hbound := (s.abortStopped_machine m).2.2
  by_cases hrunout : (s.machine m).state = .runout
  · rw [if_pos hrunout]
    cases hb : (s.machine m).boundSlot with
    | none =>
      rw [State.outgoingReelEnds_none (hbound.trans hb), State.abortStopped_slot]
      simp
    | some n =>
      rw [State.outgoingReelEnds_slot (hbound.trans hb), State.slotNotice_slot, State.abortStopped_slot,
        State.abortStopped_slot]
      by_cases hx : x = screenOf m
      · subst hx
        by_cases hk : k = n
        · subst hk
          simp [hrunout]
        · have hk' : n ≠ k := fun e => hk e.symm
          simp [hk, hk']
      · simp [hx]
  · rw [if_neg hrunout, State.abortStopped_slot]
    simp [hrunout]

end

end Sys2Proof.Machine

/-! ABORT of a screen. -/

namespace Sys2Proof.Machine

open Sys2Proof Host

/-- Machine `m` is stopped in `t`, as it stood in `s`: it does not run, its lamp is out and its queue empty (R126). -/
structure Aborted (m : MachineId) (s t : State) : Prop where
  state : (t.machine m).state = if (s.machine m).state.running then .stopped else (s.machine m).state
  motor : (s.machine m).state.running = true → (t.machine m).motor = false
  lamp : (t.lamp m).state ≠ .burning ∧ (t.lamp m).state ≠ .striking
  queue : (t.decoder m).deferred = []

namespace Aborted

variable {m : MachineId} {s t u : State}

theorem notice (h : Aborted m s t) (k : NoticeOnly t u) : Aborted m s u where
  state := (k.machineState m).1.trans h.state
  motor hrun := (k.machineState m).2.trans (h.motor hrun)
  lamp := by rw [k.lamp m]; exact h.lamp
  queue := by rw [k.decoder m]; exact h.queue

theorem ofAbort (m : MachineId) (s : State) : Aborted m s (s.abortMachine m) := by
  obtain ⟨hstate, hmotor, -⟩ := s.abortStopped_machine m
  exact Aborted.notice ⟨hstate, hmotor, s.abortStopped_lamp m, s.abortStopped_queue m⟩ (s.abortMachine_notice m)

theorem other (h : Aborted m s t) {j : MachineId} (hj : m ≠ j) : Aborted m s (t.abortMachine j) := by
  obtain ⟨hmachine, hlamp, hdecoder⟩ := t.abortStopped_other j hj
  exact Aborted.notice ⟨by rw [hmachine]; exact h.state, by rw [hmachine]; exact h.motor, by rw [hlamp]; exact h.lamp,
    by rw [hdecoder]; exact h.queue⟩ (t.abortMachine_notice j)

theorem running (h : Aborted m s t) : (t.machine m).state.running = false := by
  rw [h.state]
  split
  · rfl
  next hnot => simpa using hnot

end Aborted

/-- The abort of one machine leaves the state of another. -/
theorem State.abortMachine_other_state {m j : MachineId} (hj : m ≠ j) (s : State) :
    ((s.abortMachine j).machine m).state = (s.machine m).state := by
  rw [((s.abortMachine_notice j).machineState m).1, (s.abortStopped_other j hj).1]

/-- Both machines of a screen stopped. -/
def State.bothAborted (sc : ScreenId) (s : State) : State := (s.abortMachine (lowerOf sc)).abortMachine (upperOf sc)

theorem lower_ne_upper (sc : ScreenId) : lowerOf sc ≠ upperOf sc := by cases sc <;> decide

theorem eq_lower_or_upper {m : MachineId} {sc : ScreenId} (h : screenOf m = sc) : m = lowerOf sc ∨ m = upperOf sc := by
  subst h
  cases m <;> simp [lowerOf, upperOf, screenOf]

theorem State.bothAborted_aborted {sc : ScreenId} {m : MachineId} (hm : screenOf m = sc) (s : State) :
    Aborted m s (s.bothAborted sc) := by
  have hne := lower_ne_upper sc
  obtain rfl | rfl := eq_lower_or_upper hm
  · exact (Aborted.ofAbort _ s).other hne
  · have hsecond := Aborted.ofAbort (upperOf sc) (s.abortMachine (lowerOf sc))
    have hkept := State.abortMachine_other_state hne.symm s
    exact ⟨by rw [← hkept]; exact hsecond.state, by rw [← hkept]; exact hsecond.motor, hsecond.lamp, hsecond.queue⟩

/-! ### The slots of an aborted screen -/

/-- A slot that no machine in RUNOUT is bound to stands. -/
theorem State.bothAborted_slot_kept {sc : ScreenId} {n : SlotIx} {s : State}
    (h : ∀ m, screenOf m = sc → (s.machine m).state = .runout → (s.machine m).boundSlot ≠ some n) :
    (s.bothAborted sc).slot sc n = s.slot sc n := by
  have hlower : (s.abortMachine (lowerOf sc)).slot sc n = s.slot sc n := by
    rw [State.abortMachine_slot, if_neg]
    rintro ⟨hrunout, hbound, -⟩
    exact h _ (screenOf_lowerOf sc) hrunout hbound
  have hupperState := State.abortMachine_other_state (lower_ne_upper sc).symm s
  rw [State.bothAborted, State.abortMachine_slot, if_neg, hlower]
  rintro ⟨hrunout, hbound, -⟩
  have hnotice := (s.abortMachine_notice (lowerOf sc)).bound (upperOf sc)
  rw [(s.abortStopped_other (lowerOf sc) (lower_ne_upper sc).symm).1] at hnotice
  obtain hkept | hnone := hnotice
  · exact h _ (screenOf_upperOf sc) (hupperState.symm.trans hrunout) (hkept.symm.trans hbound)
  · rw [hnone] at hbound
    exact absurd hbound (by simp)

/-- A machine bound to another slot keeps its binding as one reel ends. -/
theorem State.abortMachine_bound {m j : MachineId} {n : SlotIx} {s : State} (hlaw : PlanLaw s) (hj : m ≠ j)
    (hbound : (s.machine m).boundSlot = some n) : ((s.abortMachine j).machine m).boundSlot = some n := by
  have hstopped := (s.abortStopped_other j hj).1
  rw [State.abortMachine_eq]
  split
  · have hjbound := (s.abortStopped_machine j).2.2
    cases hb : (s.machine j).boundSlot with
    | none => rw [State.outgoingReelEnds_none (hjbound.trans hb), hstopped, hbound]
    | some k =>
      have hapart := State.slotNotice_apart (s := s.abortStopped j) (sc := screenOf j) (n := k) (st := .shown) (j := m)
        fun _ => by
          rw [State.abortStopped_slot, hlaw.toSlot j k hb]
          exact fun h => hj (Option.some.inj h).symm
      rw [State.outgoingReelEnds_machine (hjbound.trans hb), hapart.1, hstopped, hbound]
  · rw [hstopped, hbound]

/-- The slot of a reel in RUNOUT is SHOWN, whichever machine it is (R117). -/
theorem State.bothAborted_slot_shown {sc : ScreenId} {m : MachineId} {n : SlotIx} {s : State} (hlaw : PlanLaw s)
    (hm : screenOf m = sc) (hrunout : (s.machine m).state = .runout) (hbound : (s.machine m).boundSlot = some n)
    (hstatus : (s.slot sc n).status = .bound) : ((s.bothAborted sc).slot sc n).status = .shown := by
  have hshow : (s.slot sc n).status.showable = true := by rw [hstatus]; rfl
  have hne := lower_ne_upper sc
  obtain rfl | rfl := eq_lower_or_upper hm
  · have hfirst : ((s.abortMachine (lowerOf sc)).slot sc n).status = .shown := by
      rw [State.abortMachine_slot, if_pos ⟨hrunout, hbound, hm.symm, hshow⟩]
    rw [State.bothAborted, State.abortMachine_slot]
    split
    · rfl
    · exact hfirst
  · have hkept : (s.abortMachine (lowerOf sc)).slot sc n = s.slot sc n := by
      rw [State.abortMachine_slot, if_neg]
      rintro ⟨-, hother, -⟩
      have h1 := hlaw.toSlot (lowerOf sc) n hother
      have h2 := hlaw.toSlot (upperOf sc) n hbound
      rw [screenOf_lowerOf] at h1
      rw [screenOf_upperOf, h1] at h2
      exact hne (Option.some.inj h2)
    rw [State.bothAborted, State.abortMachine_slot, if_pos]
    rw [hkept, State.abortMachine_other_state hne.symm, State.abortMachine_bound hlaw hne.symm hbound]
    exact ⟨hrunout, rfl, hm.symm, hshow⟩

theorem State.cutCurrent_slot {sc : ScreenId} {n : SlotIx} {s : State} (h : (s.screen sc).current = some n) (k : SlotIx) :
    (s.cutCurrent sc).slot sc k = (s.slotNotice sc n .cut).slot sc k := by
  simp only [State.cutCurrent, h]

/-- A slot that is not to be shown is not cut. -/
theorem State.cutCurrent_stands {sc : ScreenId} {n : SlotIx} {s : State} (h : (s.slot sc n).status.showable = false) :
    (s.cutCurrent sc).slot sc n = s.slot sc n := by
  cases hcurrent : (s.screen sc).current with
  | none => simp only [State.cutCurrent, hcurrent]
  | some k =>
    rw [State.cutCurrent_slot hcurrent, State.slotNotice_slot, if_neg]
    rintro ⟨-, rfl, hshow⟩
    rw [h] at hshow
    exact absurd hshow (by decide)

/-! ### The command -/

theorem exec_abort_ok {s : State} {w : List Text} {sc : ScreenId} (hp : s.powered = true) (h : parseAbort s w = .ok sc) :
    exec (.abort w) s = .next (((s.taken (.abort w)).abort sc).answer (.ok [])) := by
  have hparse : parseAbort (s.taken (.abort w)) w = .ok sc := h
  change execAbort w s = _
  simp only [execAbort, State.takeCommand_of_powered hp, hparse]

/-- The show of a screen ends: claims released, the record IDLE, the evaluation made. -/
theorem State.abort_eq (sc : ScreenId) (s : State) :
    s.abort sc = ((((s.bothAborted sc).cutCurrent sc).releaseThree sc .cue).releaseFault sc).idled sc := rfl

/-- Settles O42: ABORT of a screen that is not IDLE, and the refusal. -/
theorem abortStopsTheScreen : Obligations.AbortStopsTheScreen := by
  intro sc a s hp hsc c
  have hone := onlyScreen_of_namesScreen hsc
  refine ⟨fun hidle => exec_refused hp (reasonOf_eq_some.2 ?_), fun hnot => ?_⟩
  · simp [parseAbort, hone, hidle]
  have hparse : parseAbort s [a] = .ok sc := by
    have hbool : ((s.screen sc).state != .idle) = true := by simpa using hnot
    simp [parseAbort, hone, hbool]
  have hframe : ShowFrame (s.taken c) ((s.taken c).abort sc) := (Reactions.abort sc (.refl' _)).frame
  have hexec := exec_abort_ok hp hparse
  rw [show s.taken (.abort [a]) = s.taken c from rfl] at hexec
  have haborted : ∀ m, screenOf m = sc → Aborted m (s.taken c) (((s.taken c).bothAborted sc).cutCurrent sc) := fun m hm =>
    (State.bothAborted_aborted hm (s.taken c)).notice (.cutCurrent sc _)
  have hcut : ∀ n, (s.screen sc).current = some n → (s.slot sc n).status.showable = true →
      (∀ m, screenOf m = sc → (s.machine m).state = .runout → (s.machine m).boundSlot ≠ some n) →
      ((((s.taken c).bothAborted sc).cutCurrent sc).slot sc n).status = .cut := by
    intro n hcurrent hshow hfree
    have hkept := State.bothAborted_slot_kept (s := s.taken c) hfree
    have hscreen : (((s.taken c).bothAborted sc).screen sc).current = some n := by
      rw [State.bothAborted, State.abortMachine_screen, State.abortMachine_screen]
      exact hcurrent
    rw [State.cutCurrent_slot hscreen, State.slotNotice_slot, if_pos ⟨rfl, rfl, by rw [hkept]; exact hshow⟩]
  have hshown : ∀ m n, PlanLaw s → screenOf m = sc → (s.machine m).state = .runout → (s.machine m).boundSlot = some n →
      (s.slot sc n).status = .bound → ((((s.taken c).bothAborted sc).cutCurrent sc).slot sc n).status = .shown := by
    intro m n hlaw hm hrunout hbound hstatus
    have hlaw' : PlanLaw (s.taken c) := ⟨hlaw.slot, hlaw.toMachine, hlaw.toSlot, hlaw.length, hlaw.reel, hlaw.empty⟩
    have hdone := State.bothAborted_slot_shown hlaw' hm hrunout hbound hstatus
    rw [State.cutCurrent_stands (by rw [hdone]; rfl)]
    exact hdone
  rw [State.abort_eq] at hframe hexec
  generalize ((s.taken c).bothAborted sc).cutCurrent sc = v at haborted hcut hshown hframe hexec
  have hposts := ((v.releaseThree sc .cue).releaseFault sc).idled_posts sc
  have hclaims : ∀ k, _ := fun k => v.releaseFault_claims sc k
  have hcircuit := fun k => ((v.releaseThree sc .cue).releaseFault sc).idled_circuit sc k
  have hscreen := ((v.releaseThree sc .cue).releaseFault sc).idled_screen sc
  have hrecord : ((v.releaseThree sc .cue).releaseFault sc).screen sc = { v.screen sc with faultClaim := .none } := by
    rw [State.releaseFault_screen, if_pos rfl]
    simp only [State.releaseThree, State.modCircuit_screen]
  have hmachine : ∀ m, ((v.releaseThree sc .cue).releaseFault sc).machine m = v.machine m := fun m => by
    rw [State.releaseFault_machine]
    simp only [State.releaseThree, State.modCircuit_machine]
  have hlamp : ∀ m, ((v.releaseThree sc .cue).releaseFault sc).lamp m = v.lamp m := fun m => by
    simp only [State.releaseFault, State.releaseThree, State.modScreen_lamp, State.modCircuit_lamp]
  have hdecoder : ∀ m, ((v.releaseThree sc .cue).releaseFault sc).decoder m = v.decoder m := fun m => by
    simp only [State.releaseFault, State.releaseThree, State.modScreen_decoder, State.modCircuit_decoder]
  have hslot : ∀ n, ((v.releaseThree sc .cue).releaseFault sc).slot sc n = v.slot sc n := fun n => by
    simp only [State.releaseFault, State.releaseThree, State.modScreen_slot, State.modCircuit_slot]
  rw [hrecord] at hscreen
  generalize (v.releaseThree sc .cue).releaseFault sc = w at *
  have hfields : let x := (w.idled sc).screen sc
      x.state = .idle ∧ x.current = none ∧ x.onScreen = none ∧ x.point = none ∧ x.startGiven = false ∧ x.startPending = false
        ∧ x.interval = none ∧ x.mixer = .mute ∧ x.overlapLeft = 0 ∧ x.faultClaim = .none ∧ x.darkHold = .stopped := by
    rw [hscreen]
    exact ⟨rfl, rfl, rfl, rfl, rfl, rfl, rfl, rfl, rfl, rfl, rfl⟩
  obtain ⟨h1, h2, h3, h4, h5, h6, h7, h8, h9, h10, h11⟩ := hfields
  refine ⟨w.idled sc, hexec, hframe, h1, h2, h3, h4, h5, h6, h7, h8, h9, h10, h11, fun k => ?_, fun m hm => ?_,
    fun n hcurrent hshow hfree => ?_, fun m n e hlaw hm hrunout hbound hstatus _ => ?_⟩
  · rw [hcircuit]
    exact hclaims k
  · have hm' := haborted m hm
    have hbefore : ((w.modScreen sc ScreenRec.goIdle).machine m) = v.machine m := hmachine m
    have hnotRunning : ((w.idled sc).machine m).state.running = false := by
      obtain h | ⟨-, h⟩ := hposts.judged m
      · rw [h, hbefore]
        exact hm'.running
      · obtain h | h := (MachineState.judged_iff _).1 h <;> rw [h] <;> rfl
    refine ⟨hnotRunning, fun hrun => ?_, ?_, ?_, ?_⟩
    · have hstopped : (v.machine m).state = .stopped := hm'.state.trans (if_pos hrun)
      have hkept : (w.idled sc).machine m = v.machine m :=
        (hposts.unjudged (by rw [hbefore, hstopped]; rfl)).trans hbefore
      rw [hkept]
      exact ⟨hstopped, hm'.motor hrun⟩
    · rw [hposts.lamp, State.modScreen_lamp, hlamp]
      exact hm'.lamp.1
    · rw [hposts.lamp, State.modScreen_lamp, hlamp]
      exact hm'.lamp.2
    · rw [hposts.decoder, State.modScreen_decoder, hdecoder]
      exact hm'.queue
  · rw [hposts.slot, State.modScreen_slot, hslot]
    exact hcut n hcurrent hshow hfree
  · rw [hposts.slot, State.modScreen_slot, hslot]
    exact hshown m n hlaw hm hrunout hbound hstatus

end Sys2Proof.Machine

/-! CUEMAP: the words of an action list, the list they store, and the refusals. -/

namespace Sys2Proof.Machine

open Sys2Proof Host

/-! ### The words of an action -/

/-- The words that write one action. -/
def ActionWords.WrittenBy (w : List Text) : ActionWords → Prop
  | .scene n fade => ∃ a b, w = [txt "SCENE", a, b] ∧ number? a = some n ∧ number? b = some fade
  | .level c l fade => ∃ a b d, w = [txt "LEVEL", a, b, d] ∧ circuitOperand? a = some c ∧ number? b = some l
      ∧ number? d = some fade
  | .sound l => ∃ a, w = [txt "SOUND", a] ∧ number? a = some l
  | .note => w = [txt "NOTE"]

theorem ActionWords.WrittenBy.ne_nil {w : List Text} {x : ActionWords} (h : x.WrittenBy w) : w ≠ [] := by
  rintro rfl
  cases x <;> simp [ActionWords.WrittenBy] at h

theorem nextAction_scene (a b : Text) (rest : List Text) : nextAction? (txt "SCENE" :: a :: b :: rest)
    = (number? a).bind fun n => (number? b).bind fun f => some (.scene n f, rest) := by
  have h1 : txt "SCENE" ≠ txt "NOTE" := by decide
  have h2 : txt "SCENE" ≠ txt "SOUND" := by decide
  simp only [nextAction?, if_neg h1, if_neg h2, if_true]
  rfl

theorem nextAction_level (a b d : Text) (rest : List Text) : nextAction? (txt "LEVEL" :: a :: b :: d :: rest)
    = (circuitOperand? a).bind fun c => (number? b).bind fun l => (number? d).bind fun f => some (.level c l f, rest) := by
  have h1 : txt "LEVEL" ≠ txt "NOTE" := by decide
  have h2 : txt "LEVEL" ≠ txt "SOUND" := by decide
  have h3 : txt "LEVEL" ≠ txt "SCENE" := by decide
  simp only [nextAction?, if_neg h1, if_neg h2, if_neg h3, if_true]
  rfl

theorem nextAction_sound (a : Text) (rest : List Text) :
    nextAction? (txt "SOUND" :: a :: rest) = (number? a).bind fun l => some (.sound l, rest) := by
  have h1 : txt "SOUND" ≠ txt "NOTE" := by decide
  simp only [nextAction?, if_neg h1, if_true]
  rfl

theorem nextAction_note (rest : List Text) : nextAction? (txt "NOTE" :: rest) = some (.note, rest) := by
  simp [nextAction?]

theorem nextAction_of_writtenBy {w rest : List Text} {x : ActionWords} (h : x.WrittenBy w) :
    nextAction? (w ++ rest) = some (x, rest) := by
  cases x with
  | scene n fade =>
    obtain ⟨a, b, rfl, hn, hf⟩ := h
    simp [nextAction_scene, hn, hf]
  | level c level fade =>
    obtain ⟨a, b, d, rfl, hc, hl, hf⟩ := h
    simp [nextAction_level, hc, hl, hf]
  | sound level =>
    obtain ⟨a, rfl, hl⟩ := h
    simp [nextAction_sound, hl]
  | note =>
    obtain rfl := h
    exact nextAction_note rest

theorem writtenBy_of_nextAction {ws rest : List Text} {x : ActionWords} (h : nextAction? ws = some (x, rest)) :
    ∃ w, x.WrittenBy w ∧ ws = w ++ rest := by
  cases ws with
  | nil => simp [nextAction?] at h
  | cons w ws =>
    by_cases hnote : w = txt "NOTE"
    · rw [hnote, nextAction_note, Option.some.injEq, Prod.mk.injEq] at h
      obtain ⟨rfl, rfl⟩ := h
      exact ⟨[w], by rw [hnote]; rfl, rfl⟩
    by_cases hsound : w = txt "SOUND"
    · match ws with
      | [] => simp [nextAction?, hsound, hsound ▸ hnote] at h
      | a :: ws =>
        rw [hsound, nextAction_sound] at h
        simp only [Option.bind_eq_some_iff, Option.some.injEq, Prod.mk.injEq] at h
        obtain ⟨l, hl, rfl, rfl⟩ := h
        exact ⟨[w, a], ⟨a, by rw [hsound], hl⟩, rfl⟩
    by_cases hscene : w = txt "SCENE"
    · match ws with
      | [] => simp [nextAction?, hscene, hscene ▸ hnote, hscene ▸ hsound] at h
      | [_] => simp [nextAction?, hscene, hscene ▸ hnote, hscene ▸ hsound] at h
      | a :: b :: ws =>
        rw [hscene, nextAction_scene] at h
        simp only [Option.bind_eq_some_iff, Option.some.injEq, Prod.mk.injEq] at h
        obtain ⟨n, hn, f, hf, rfl, rfl⟩ := h
        exact ⟨[w, a, b], ⟨a, b, by rw [hscene], hn, hf⟩, rfl⟩
    by_cases hlevel : w = txt "LEVEL"
    · match ws with
      | [] => simp [nextAction?, hlevel, hlevel ▸ hnote, hlevel ▸ hsound, hlevel ▸ hscene] at h
      | [_] => simp [nextAction?, hlevel, hlevel ▸ hnote, hlevel ▸ hsound, hlevel ▸ hscene] at h
      | [_, _] => simp [nextAction?, hlevel, hlevel ▸ hnote, hlevel ▸ hsound, hlevel ▸ hscene] at h
      | a :: b :: d :: ws =>
        rw [hlevel, nextAction_level] at h
        simp only [Option.bind_eq_some_iff, Option.some.injEq, Prod.mk.injEq] at h
        obtain ⟨c, hc, l, hl, f, hf, rfl, rfl⟩ := h
        exact ⟨[w, a, b, d], ⟨a, b, d, by rw [hlevel], hc, hl, hf⟩, rfl⟩
    simp [nextAction?, hnote, hsound, hscene, hlevel] at h

/-! ### A list of actions -/

theorem actionsWritten_nil (n : Nat) : actionsWritten? n [] = some [] := by
  cases n <;> rfl

theorem actionsWritten_flatten {ls : List (List Text)} {l : List ActionWords}
    (h : List.Forall₂ (fun w x => ActionWords.WrittenBy w x) ls l) {n : Nat} (hlen : ls.length ≤ n) :
    actionsWritten? n ls.flatten = some l := by
  induction h generalizing n with
  | nil => exact actionsWritten_nil n
  | @cons w x ls l hw _ ih =>
    cases n with
    | zero => simp at hlen
    | succ n =>
      have hne : (w ++ ls.flatten) ≠ [] := by simp [hw.ne_nil]
      obtain ⟨v, vs, hcons⟩ := List.exists_cons_of_ne_nil hne
      have hrest : actionsWritten? n ls.flatten = some l := ih (by simpa using hlen)
      have hnext : nextAction? (v :: vs) = some (x, ls.flatten) := hcons ▸ nextAction_of_writtenBy hw
      simp only [List.flatten_cons, hcons, actionsWritten?, hnext, hrest, Option.map_some]

theorem flatten_of_actionsWritten {n : Nat} {ws : List Text} {l : List ActionWords} (h : actionsWritten? n ws = some l) :
    ∃ ls : List (List Text), ls.length ≤ n ∧ (∀ w ∈ ls, ∃ x, ActionWords.WrittenBy w x) ∧ ws = ls.flatten := by
  induction n generalizing ws l with
  | zero =>
    cases ws with
    | nil => exact ⟨[], by simp⟩
    | cons v vs => simp [actionsWritten?] at h
  | succ n ih =>
    cases ws with
    | nil => exact ⟨[], by simp⟩
    | cons v vs =>
      unfold actionsWritten? at h
      split at h
      · cases h
      · next x rest hnext =>
        obtain ⟨l', hl', -⟩ := Option.map_eq_some_iff.1 h
        obtain ⟨w, hw, heq⟩ := writtenBy_of_nextAction hnext
        obtain ⟨ls, hlen, hall, rfl⟩ := ih hl'
        refine ⟨w :: ls, by simpa using hlen, ?_, heq⟩
        rintro u (_ | ⟨_, hu⟩)
        · exact ⟨x, hw⟩
        · exact hall u hu

theorem forall₂_of_written {ls : List (List Text)} (h : ∀ w ∈ ls, ∃ x, ActionWords.WrittenBy w x) :
    ∃ l, List.Forall₂ (fun w x => ActionWords.WrittenBy w x) ls l := by
  induction ls with
  | nil => exact ⟨[], .nil⟩
  | cons w ls ih =>
    obtain ⟨x, hx⟩ := h w (by simp)
    obtain ⟨l, hl⟩ := ih fun u hu => h u (by simp [hu])
    exact ⟨x :: l, .cons hx hl⟩

theorem written_of_mem {ls : List (List Text)} {l : List ActionWords}
    (h : List.Forall₂ (fun w x => ActionWords.WrittenBy w x) ls l) {w : List Text} (hw : w ∈ ls) :
    ∃ x ∈ l, ActionWords.WrittenBy w x := by
  induction h with
  | nil => simp at hw
  | cons hx _ ih =>
    obtain _ | ⟨_, hw⟩ := hw
    · exact ⟨_, by simp, hx⟩
    · obtain ⟨y, hy, hwritten⟩ := ih hw
      exact ⟨y, by simp [hy], hwritten⟩

theorem writtenBy_scene {a b : Text} {x : ActionWords} {n : Nat} (hn : number? a = some n)
    (h : x.WrittenBy [txt "SCENE", a, b]) : ∃ f, x = .scene n f := by
  have hnext := (nextAction_of_writtenBy h).symm.trans (nextAction_scene a b [])
  simp only [hn, Option.bind_some] at hnext
  obtain ⟨f, -, heq⟩ := Option.bind_eq_some_iff.1 hnext.symm
  simp only [Option.some.injEq, Prod.mk.injEq] at heq
  exact ⟨f, heq.1.symm⟩

/-! ### The actions stored -/

theorem sceneOperand_error {n : Nat} {r : Reason} (h : sceneOperand n = .error r) : r = .range ∧ 7 < n := by
  unfold sceneOperand sceneOf? at h
  by_cases hn : n < 8
  · simp [hn] at h
  · simp only [hn, dite_false] at h
    exact ⟨(Except.error.inj h).symm, by omega⟩

theorem sceneOperand_above {n : Nat} (h : 7 < n) : sceneOperand n = .error .range := by
  have hn : ¬ n < 8 := by omega
  simp [sceneOperand, sceneOf?, hn]

theorem storedAction_error {x : ActionWords} {r : Reason} (h : storedAction x = .error r) : r = .range := by
  cases x with
  | scene n fade =>
    simp only [storedAction] at h
    cases hn : sceneOperand n with
    | error q =>
      rw [hn] at h
      exact (Except.error.inj h).symm.trans (sceneOperand_error hn).1
    | ok v => rw [hn] at h; cases h
  | level c level fade => cases h
  | sound level => cases h
  | note => cases h

theorem storedActions_error {l : List ActionWords} {r : Reason} (h : storedActions l = .error r) : r = .range := by
  induction l with
  | nil => cases h
  | cons x l ih =>
    simp only [storedActions] at h
    cases hx : storedAction x with
    | error q =>
      rw [hx] at h
      exact (Except.error.inj h).symm.trans (storedAction_error hx)
    | ok v =>
      rw [hx] at h
      cases hl : storedActions l with
      | error q =>
        rw [hl] at h
        exact ih (hl.trans h)
      | ok vs => rw [hl] at h; cases h

theorem storedActions_cons {x : ActionWords} {l : List ActionWords} {v : CueAction} {vs : List CueAction}
    (hx : storedAction x = .ok v) (hl : storedActions l = .ok vs) : storedActions (x :: l) = .ok (v :: vs) := by
  simp [storedActions, hx, hl]

theorem storedAction_of_mem {l : List ActionWords} {vs : List CueAction} (h : storedActions l = .ok vs) {x : ActionWords}
    (hx : x ∈ l) : ∃ v, storedAction x = .ok v := by
  induction l generalizing vs with
  | nil => simp at hx
  | cons y l ih =>
    simp only [storedActions] at h
    obtain ⟨v, hy, h⟩ := Except.bind_ok h
    obtain ⟨us, hl, -⟩ := Except.bind_ok h
    obtain _ | ⟨_, hx⟩ := hx
    · exact ⟨v, hy⟩
    · exact ih hl hx

/-- The words that store an action, its values limited. -/
def CueAction.StoredBy (w : List Text) (x : CueAction) : Prop :=
  ∃ y, ActionWords.WrittenBy w y ∧ storedAction y = .ok x

theorem CueAction.StoredBy.actions {ws : List (List Text)} {l : List CueAction}
    (h : List.Forall₂ (fun w x => CueAction.StoredBy w x) ws l) :
    ∃ ys, List.Forall₂ (fun w y => ActionWords.WrittenBy w y) ws ys ∧ storedActions ys = .ok l := by
  induction h with
  | nil => exact ⟨[], .nil, rfl⟩
  | cons hw _ ih =>
    obtain ⟨y, hy, hstored⟩ := hw
    obtain ⟨ys, hys, hrest⟩ := ih
    exact ⟨y :: ys, .cons hy hys, storedActions_cons hstored hrest⟩

theorem sceneOperand_val (n : Fin 8) : sceneOperand n.val = .ok n := by
  have h : n.val < 8 := n.isLt
  simp [sceneOperand, sceneOf?, h]

theorem CueAction.storedBy_scene {a b : Text} {n : Fin 8} {f : Nat} (hn : number? a = some n.val)
    (hf : number? b = some f) : CueAction.StoredBy [txt "SCENE", a, b] (.scene n (min 600 f)) :=
  ⟨.scene n.val f, ⟨a, b, rfl, hn, hf⟩, by simp [storedAction, sceneOperand_val, Config.maxFade]⟩

theorem CueAction.storedBy_level {a b d : Text} {c : Option CircuitId} {l f : Nat} (hc : circuitOperand? a = some c)
    (hl : number? b = some l) (hf : number? d = some f) :
    CueAction.StoredBy [txt "LEVEL", a, b, d] (.level c (min 255 l) (min 600 f)) :=
  ⟨.level c l f, ⟨a, b, d, rfl, hc, hl, hf⟩, rfl⟩

theorem CueAction.storedBy_sound {a : Text} {l : Nat} (hl : number? a = some l) :
    CueAction.StoredBy [txt "SOUND", a] (.sound (min 15 l)) := ⟨.sound l, ⟨a, rfl, hl⟩, rfl⟩

theorem CueAction.storedBy_note : CueAction.StoredBy [txt "NOTE"] .note := ⟨.note, rfl, rfl⟩

/-! ### The operands of CUEMAP -/

/-- The list CUEMAP's words give, before its scene numbers are judged: none for the reading form. -/
def listWritten? (ws : List Text) : Option (Option (List ActionWords)) :=
  if ws = [] then some none else if ws = [txt "NONE"] then some (some []) else (actionsWritten? 3 ws).map some

theorem parseCuemap_of_list {s : State} {a b : Text} {ws : List Text} {n k : Nat} {l : Option (List ActionWords)}
    (hn : number? a = some n) (hk : number? b = some k) (hl : listWritten? ws = some l) :
    parseCuemap s (a :: b :: ws) = (do
      let sc ← screenOperand s n
      let code ← match effectOf? k with
        | none => .error .range
        | some c => .ok c
      match l with
      | none => return (sc, code, none)
      | some as => return (sc, code, some (← storedActions as))) := by
  unfold listWritten? at hl
  unfold parseCuemap
  simp only [hn, hk, formOf_some, ok_bind]
  split at hl
  · next hnil =>
    obtain rfl := Option.some.inj hl
    rw [if_pos hnil]
    rfl
  · next hnil =>
    rw [if_neg hnil]
    split at hl
    · next hnone =>
      obtain rfl := Option.some.inj hl
      rw [if_pos hnone]
      rfl
    · next hnone =>
      obtain ⟨as, has, rfl⟩ := Option.map_eq_some_iff.1 hl
      rw [if_neg hnone, has]
      rfl

theorem parseCuemap_form {s : State} {ops : List Text}
    (h : ¬ ∃ a b n k ws l, ops = a :: b :: ws ∧ number? a = some n ∧ number? b = some k ∧ listWritten? ws = some l) :
    parseCuemap s ops = .error .form := by
  match ops with
  | [] => rfl
  | [_] => rfl
  | a :: b :: ws =>
    cases hn : number? a with
    | none => simp [parseCuemap, hn]
    | some n =>
      cases hk : number? b with
      | none => simp [parseCuemap, hn, hk]
      | some k =>
        have hl : listWritten? ws = none := Option.eq_none_iff_forall_ne_some.2 fun l hl =>
          h ⟨a, b, n, k, ws, l, rfl, hn, hk, hl⟩
        unfold listWritten? at hl
        split at hl
        · cases hl
        · next hnil =>
          split at hl
          · cases hl
          · next hnone => simp [parseCuemap, hn, hk, if_neg hnil, if_neg hnone, Option.map_eq_none_iff.1 hl]

theorem screenOperand_error {s : State} {n : Nat} {r : Reason} (h : screenOperand s n = .error r) : r = .range := by
  unfold screenOperand at h
  split at h
  · exact (Except.error.inj h).symm
  · split at h
    · exact (Except.error.inj h).symm
    · cases h

theorem screenOperand_ok {s : State} {n : Nat} {sc : ScreenId} (h : screenOperand s n = .ok sc) :
    1 ≤ n ∧ n ≤ 2 ∧ (n = 2 → s.straps.screen2Fitted = true) := by
  unfold screenOperand at h
  split at h
  · cases h
  · next sc' hsc =>
    split at h
    · cases h
    · next hfit =>
      unfold screenOf? at hsc
      split at hsc
      · simp
      · refine ⟨by simp, by simp, fun _ => ?_⟩
        obtain rfl := Option.some.inj hsc
        simpa using hfit
      · cases hsc

theorem effectOf_some {k : Nat} {c : EffectCode} (h : effectOf? k = some c) : 3 ≤ k ∧ k ≤ 6 := by
  unfold effectOf? at h
  split at h <;> first | omega | cases h

/-- A CUEMAP whose words are well formed is refused for its range alone; one accepted is within it. -/
theorem parseCuemap_range {s : State} {a b : Text} {ws : List Text} {n k : Nat} {l : Option (List ActionWords)}
    (hn : number? a = some n) (hk : number? b = some k) (hl : listWritten? ws = some l)
    (hout : ∀ sc c, screenOperand s n = .ok sc → effectOf? k = some c → ∃ as, l = some as ∧ ∀ vs, storedActions as ≠ .ok vs) :
    parseCuemap s (a :: b :: ws) = .error .range := by
  rw [parseCuemap_of_list hn hk hl]
  cases hsc : screenOperand s n with
  | error r => rw [screenOperand_error hsc]; rfl
  | ok sc =>
    cases hc : effectOf? k with
    | none => rfl
    | some c =>
      obtain ⟨as, rfl, hnone⟩ := hout sc c hsc hc
      cases has : storedActions as with
      | error r => simp [has, storedActions_error has]
      | ok vs => exact absurd has (hnone vs)

theorem listWritten_flatten {ls : List (List Text)} {l : List ActionWords}
    (h : List.Forall₂ (fun w x => ActionWords.WrittenBy w x) ls l) (hlen : ls.length ≤ 3) :
    listWritten? ls.flatten = some (if ls = [] then none else some l) := by
  have hwritten := actionsWritten_flatten h hlen
  unfold listWritten?
  cases h with
  | nil => rfl
  | @cons w x ls l hw hrest =>
    have hne : (w :: ls).flatten ≠ [] := by simp [hw.ne_nil]
    have hnone : (w :: ls).flatten ≠ [txt "NONE"] := fun heq => by
      rw [heq] at hwritten
      have : actionsWritten? 3 [txt "NONE"] = none := by decide
      simp [this] at hwritten
    rw [if_neg hne, if_neg hnone, hwritten]
    simp

theorem exec_cuemap_writes {s : State} {sc : ScreenId} {a b : Text} {k : Nat} {c : EffectCode} {ws : List Text}
    {ys : List ActionWords} {l : List CueAction} (hp : s.powered = true) (ha : s.namesScreen a sc)
    (hk : number? b = some k) (hc : effectOf? k = some c) (hl : listWritten? ws = some (some ys))
    (hys : storedActions ys = .ok l) :
    exec (.cuemap (a :: b :: ws)) s = .next (((s.taken (.cuemap (a :: b :: ws))).modScreen sc
      fun x => { x with cueTable := x.cueTable.set c l }).answer (.ok [])) := by
  obtain ⟨i, hi, hscreen⟩ := screenOperand_of_namesScreen ha
  have hscreen' : screenOperand (s.taken (.cuemap (a :: b :: ws))) i = .ok sc := hscreen
  have hparse : parseCuemap (s.taken (.cuemap (a :: b :: ws))) (a :: b :: ws) = .ok (sc, c, some l) := by
    rw [parseCuemap_of_list hi hk hl, hscreen', hc]
    simp [hys]
  change execCuemap _ s = _
  simp only [execCuemap, State.takeCommand_of_powered hp, hparse]

/-- Settles O26: the words of an action list are read one action after another, so a line is well formed exactly where
its words are the words of up to three actions, and its list is stored where its scene numbers are scenes. -/
theorem cuemapWritesTheList : Obligations.CuemapWritesTheList := by
  unfold Obligations.CuemapWritesTheList
  intro stores action list
  have hstored : ∀ w x, stores w x → CueAction.StoredBy w x := by
    intro w x h
    cases x with
    | scene n fade =>
      obtain ⟨a, b, f, rfl, hn, hf, rfl⟩ := h
      exact CueAction.storedBy_scene hn hf
    | level c level fade =>
      obtain ⟨a, b, d, l, f, rfl, hc, hl, hf, rfl, rfl⟩ := h
      exact CueAction.storedBy_level hc hl hf
    | sound level =>
      obtain ⟨a, l, rfl, hl, rfl⟩ := h
      exact CueAction.storedBy_sound hl
    | note =>
      obtain rfl : w = [txt "NOTE"] := h
      exact CueAction.storedBy_note
  have haction : ∀ w, action w ↔ ∃ y, ActionWords.WrittenBy w y := by
    intro w
    constructor
    · rintro (⟨x, hx⟩ | ⟨a, b, n, f, rfl, hn, hf, -⟩)
      · obtain ⟨y, hy, -⟩ := hstored w x hx
        exact ⟨y, hy⟩
      · exact ⟨.scene n f, a, b, rfl, hn, hf⟩
    · rintro ⟨y, hy⟩
      cases y with
      | scene n f =>
        obtain ⟨a, b, rfl, hn, hf⟩ := hy
        by_cases h : n < 8
        · exact .inl ⟨.scene ⟨n, h⟩ _, a, b, f, rfl, hn, hf, rfl⟩
        · exact .inr ⟨a, b, n, f, rfl, hn, hf, by omega⟩
      | level c l f =>
        obtain ⟨a, b, d, rfl, hc, hl, hf⟩ := hy
        exact .inl ⟨.level c _ _, a, b, d, l, f, rfl, hc, hl, hf, rfl, rfl⟩
      | sound l =>
        obtain ⟨a, rfl, hl⟩ := hy
        exact .inl ⟨.sound _, a, l, rfl, hl, rfl⟩
      | note => exact .inl ⟨.note, hy⟩
  have hlist : ∀ ws, list ws → ∃ l, listWritten? ws = some l := by
    rintro ws (rfl | rfl | ⟨ls, hlen, hall, rfl⟩)
    · exact ⟨_, rfl⟩
    · exact ⟨_, rfl⟩
    · obtain ⟨l, hl⟩ := forall₂_of_written fun w hw => (haction w).1 (hall w hw)
      exact ⟨_, listWritten_flatten hl hlen⟩
  have hlisted : ∀ ws l, listWritten? ws = some l → list ws := by
    intro ws l h
    unfold listWritten? at h
    split at h
    · next hnil => exact .inl hnil
    · split at h
      · next hnone => exact .inr (.inl hnone)
      · obtain ⟨as, has, -⟩ := Option.map_eq_some_iff.1 h
        obtain ⟨ls, hlen, hall, heq⟩ := flatten_of_actionsWritten has
        exact .inr (.inr ⟨ls, hlen, fun w hw => (haction w).2 (hall w hw), heq⟩)
  refine ⟨fun x hx => ?_, fun s hp => ⟨?_, fun ops hops => exec_refused hp (reasonOf_eq_some.2 ?_),
    fun a b n k ws hn hk hws hout => exec_refused hp (reasonOf_eq_some.2 ?_)⟩⟩
  · cases x with
    | scene n fade => exact ⟨fNum n.val, fNum fade, fade, rfl, by simp, by simp, (Nat.min_eq_right hx).symm⟩
    | level c level fade =>
      obtain ⟨hlevel, hfade⟩ := hx
      have hcircuit : ∃ w, circuitOperand? w = some c
          ∧ CueAction.fields (.level c level fade) = [txt "LEVEL", w, fNum level, fNum fade] := by
        cases c with
        | none => exact ⟨txt "ALL", circuitOperand_all, rfl⟩
        | some k => exact ⟨fCircuit k, circuitOperand_fCircuit k, rfl⟩
      obtain ⟨w, hw, hfields⟩ := hcircuit
      exact ⟨w, fNum level, fNum fade, level, fade, hfields, hw, by simp, by simp, (Nat.min_eq_right hlevel).symm,
        (Nat.min_eq_right hfade).symm⟩
    | sound level => exact ⟨fNum level, level, rfl, by simp, (Nat.min_eq_right hx).symm⟩
    | note => rfl
  · intro sc a b k c ha hk hc writes
    refine ⟨exec_cuemap_writes hp ha hk hc rfl rfl, fun ws l hne hlen hws => ?_⟩
    have himp : List.Forall₂ (fun w x => CueAction.StoredBy w x) ws l := List.Forall₂.imp (fun w x h => hstored w x h) hws
    obtain ⟨ys, hys, hok⟩ := CueAction.StoredBy.actions himp
    exact exec_cuemap_writes hp ha hk hc ((listWritten_flatten hys hlen).trans (by rw [if_neg hne])) hok
  · exact parseCuemap_form fun ⟨a, b, n, k, ws, l, hops', hn, hk, hl⟩ =>
      hops ⟨a, b, n, k, ws, hops', hn, hk, hlisted ws l hl⟩
  · obtain ⟨l, hl⟩ := hlist ws hws
    refine parseCuemap_range hn hk hl fun sc c hsc hc => ?_
    obtain ⟨hlow, hhigh, hfit⟩ := screenOperand_ok hsc
    obtain ⟨hklow, hkhigh⟩ := effectOf_some hc
    obtain h | h | ⟨h, hunfit⟩ | h | h | ⟨ls, c', d, v, hlen, hall, rfl, hmem, hv, habove⟩ := hout
    · omega
    · omega
    · simp [hfit h] at hunfit
    · omega
    · omega
    · obtain ⟨ys, hys⟩ := forall₂_of_written fun w hw => (haction w).1 (hall w hw)
      have hls : ls ≠ [] := fun h => by simp [h] at hmem
      have hall' := (listWritten_flatten hys hlen).symm.trans hl
      rw [if_neg hls] at hall'
      refine ⟨ys, (Option.some.inj hall').symm, fun vs hvs => ?_⟩
      obtain ⟨y, hy, hwritten⟩ := written_of_mem hys hmem
      obtain ⟨x, hx⟩ := storedAction_of_mem hvs hy
      obtain ⟨f, rfl⟩ := writtenBy_scene hv hwritten
      simp [storedAction, sceneOperand_above habove] at hx

end Sys2Proof.Machine

/-! The house lights' events: a fade step, a whole fade, a zero crossing and a firing. -/

namespace Sys2Proof.Machine

open Sys2Proof Host

/-! ### The level of a fade step -/

/-- A share `k` of `n` of a difference lies between nothing and the whole. -/
theorem share_bounds {e k n : Nat} (hn : 0 < n) (hk : k ≤ n) :
    0 ≤ ((e : Int) * k).tdiv n ∧ ((e : Int) * k).tdiv n ≤ e := by
  have hcast : ((e : Int) * k).tdiv n = ((e * k / n : Nat) : Int) := by
    rw [← Int.natCast_mul, Int.tdiv_eq_ediv_of_nonneg (Int.natCast_nonneg _), Int.natCast_ediv]
  rw [hcast]
  exact ⟨Int.natCast_nonneg _, Int.ofNat_le.2 (Nat.div_le_of_le_mul (by rw [Nat.mul_comm n]; exact Nat.mul_le_mul_left e hk))⟩

/-- The steps of a fade lie between its start and its target. -/
theorem fadeLevel_between {start target k n : Nat} (hn : 0 < n) (hk : k ≤ n) :
    min start target ≤ fadeLevel start target k n ∧ fadeLevel start target k n ≤ max start target := by
  unfold fadeLevel
  by_cases h : start ≤ target
  · obtain ⟨e, rfl⟩ := Nat.exists_eq_add_of_le h
    have hdiff : ((start + e : Nat) : Int) - start = e := by push_cast; omega
    have hshare := share_bounds (e := e) hn hk
    rw [hdiff]
    omega
  · obtain ⟨e, rfl⟩ := Nat.exists_eq_add_of_le (Nat.le_of_not_le h)
    have hdiff : (target : Int) - ((target + e : Nat) : Int) = -e := by push_cast; omega
    have hshare := share_bounds (e := e) hn hk
    rw [hdiff, Int.neg_mul, Int.neg_tdiv]
    omega

theorem fadeLevel_last {start target n : Nat} (hn : 0 < n) : fadeLevel start target n n = target := by
  have hne : (n : Int) ≠ 0 := by omega
  unfold fadeLevel
  rw [Int.mul_tdiv_cancel _ hne]
  omega

/-! ### A fade step -/

theorem Circuit.fadeStep_governing {c : Circuit} {h : Nat} {r : Rank} {x : Claim} {f : Fade}
    (hmeasure : c.stepMeasure.isSome = true) (htop : c.claims.top = some r) (hclaim : c.claims.get r = some x)
    (hfade : x.governing = some f) (hlt : f.k < f.n) :
    c.fadeStep h = { c.setOutput h (fadeLevel f.start x.target (f.k + 1) f.n) with
      claims := c.claims.set r (some { x with governing := some { f with k := f.k + 1 } })
      stepMeasure := if f.k + 1 < f.n then some 0 else none } := by
  obtain ⟨v, hv⟩ := Option.isSome_iff_exists.1 hmeasure
  obtain ⟨target, fade, governing⟩ := x
  obtain rfl : governing = some f := hfade
  simp only [Circuit.fadeStep, hv, htop, hclaim, if_pos hlt]

theorem Circuit.dueStep_due {c : Circuit} {h : Nat} (hdue : c.stepMeasure = some 20000) : c.dueStep h = c.fadeStep h := by
  rw [Circuit.dueStep_eq, if_pos hdue]

theorem Circuit.dueStep_idle {c : Circuit} {h : Nat} (hidle : c.stepMeasure ≠ some 20000) : c.dueStep h = c := by
  rw [Circuit.dueStep_eq, if_neg hidle]

/-! ### A claim that begins to govern waits out its measure -/

theorem ClaimTable.top_set_some {t : ClaimTable} {r : Rank} {x y : Claim} (h : t.get r = some x) :
    (t.set r (some y)).top = t.top :=
  ClaimTable.top_congr fun q => by
    rw [ClaimTable.get_set]
    split
    · next hq => rw [hq, h]; rfl
    · rfl

theorem Circuit.govern_top {c : Circuit} {h : Nat} {r : Rank} : (c.govern h r).claims.top = c.claims.top := by
  unfold Circuit.govern
  split
  · rfl
  · next x hx =>
    have htop : (c.claims.allWaiting.set r (some { x with governing := some ⟨c.output, 0, x.fade * 5⟩ })).top
        = c.claims.top := ClaimTable.top_congr fun q => by
      rw [ClaimTable.get_set, ClaimTable.get_allWaiting]
      split
      · next hq => rw [hq, hx]; rfl
      · cases c.claims.get q <;> rfl
    dsimp only
    split <;> exact htop

theorem Circuit.govern_undue {c : Circuit} {h : Nat} {r : Rank} (hclaim : (c.claims.get r).isSome = true) :
    (c.govern h r).stepMeasure ≠ some 20000 := by
  obtain ⟨x, hx⟩ := Option.isSome_iff_exists.1 hclaim
  rw [Circuit.govern_stepMeasure hx]
  split <;> simp

theorem Circuit.place_undue {c : Circuit} {h : Nat} {q : Rank} {target fade : Nat} :
    let d := c.place h q target fade
    (d.claims.top = some q → d.dueStep h = d)
      ∧ (d.claims.top ≠ some q → d.stepMeasure = c.stepMeasure ∧ d.output = c.output) := by
  unfold Circuit.place
  dsimp only
  split
  · next htop =>
    exact ⟨fun _ => Circuit.dueStep_idle (Circuit.govern_undue (ClaimTable.top_present htop)),
      fun hne => absurd (Circuit.govern_top.trans htop) hne⟩
  · next htop => exact ⟨fun h => absurd h htop, fun _ => ⟨rfl, rfl⟩⟩

theorem Circuit.release_undue {c : Circuit} {h : Nat} {q : Rank} :
    let d := c.release h q
    (c.claims.top = some q → d.dueStep h = d)
      ∧ (c.claims.top ≠ some q → d.stepMeasure = c.stepMeasure ∧ d.output = c.output) := by
  unfold Circuit.release
  split
  · next hnone =>
    refine ⟨fun htop => ?_, fun _ => ⟨rfl, rfl⟩⟩
    have hsome := ClaimTable.top_present htop
    rw [hnone] at hsome
    exact absurd hsome (by simp)
  · by_cases htop : c.claims.top = some q
    · refine ⟨fun _ => Circuit.dueStep_idle ?_, fun hne => absurd htop hne⟩
      rw [if_pos htop]
      split
      · next r2 hnext => exact Circuit.govern_undue (ClaimTable.top_present hnext)
      · simp
    · rw [if_neg htop]
      exact ⟨fun h => absurd h htop, fun _ => ⟨rfl, rfl⟩⟩

/-! ### A whole fade -/

/-- The circuit `i` steps into the fade `f` of its governing claim `x`. -/
structure Circuit.FadeAt (r : Rank) (x : Claim) (f : Fade) (i : Nat) (c : Circuit) : Prop where
  top : c.claims.top = some r
  claim : c.claims.get r = some { x with governing := some { f with k := i } }
  runs : i < f.n → c.stepMeasure.isSome = true
  ended : i = f.n → c.stepMeasure = none
  level : 0 < i → c.output = fadeLevel f.start x.target i f.n

/-- One measure of 20 ms and the step at its end. -/
def Circuit.measuredStep (h : Nat) (c : Circuit) : Circuit := (c.elapse 20000).dueStep h

theorem Circuit.elapse_due {c : Circuit} (h : c.stepMeasure.isSome = true) : (c.elapse 20000).stepMeasure = some 20000 := by
  obtain ⟨v, hv⟩ := Option.isSome_iff_exists.1 h
  have hmin : min 20000 (v + 20000) = 20000 := by omega
  simp [Circuit.elapse, Timer.advance, hv, hmin]

theorem Circuit.FadeAt.next {h : Nat} {r : Rank} {x : Claim} {f : Fade} {i : Nat} {c : Circuit} (k : c.FadeAt r x f i)
    (hlt : i < f.n) : (c.measuredStep h).FadeAt r x f (i + 1) := by
  have hdue := Circuit.elapse_due (k.runs hlt)
  have hstep : c.measuredStep h = _ := (Circuit.dueStep_due hdue).trans
    (Circuit.fadeStep_governing (c := c.elapse 20000) (h := h) (by rw [hdue]; rfl) k.top k.claim rfl hlt)
  rw [hstep]
  exact {
    top := (ClaimTable.top_set_some k.claim).trans k.top
    claim := by rw [ClaimTable.get_set, if_pos rfl]
    runs := fun hl => by rw [if_pos hl]; rfl
    ended := fun hn => if_neg (by dsimp only; omega)
    level := fun _ => rfl }

theorem Circuit.FadeAt.iterate {h : Nat} {r : Rank} {x : Claim} {f : Fade} {c : Circuit} (k : c.FadeAt r x f 0) :
    ∀ i, i ≤ f.n → ((Circuit.measuredStep h)^[i] c).FadeAt r x f i
  | 0, _ => k
  | i + 1, hi => by
    rw [Function.iterate_succ_apply']
    exact (iterate k i (by omega)).next (by omega)

theorem Circuit.fade_reaches {h : Nat} {r : Rank} {x : Claim} {f : Fade} {c : Circuit} {i : Nat}
    (hmeasure : c.stepMeasure.isSome = true) (htop : c.claims.top = some r) (hclaim : c.claims.get r = some x)
    (hfade : x.governing = some f) (hfirst : f.k = 0) (hn : 0 < f.n) (hpos : 0 < i) (hi : i ≤ f.n) :
    let d := (Circuit.measuredStep h)^[i] c
    (min f.start x.target ≤ d.output ∧ d.output ≤ max f.start x.target)
      ∧ (i = f.n → d.output = x.target ∧ d.stepMeasure = none) := by
  have hstart : c.FadeAt r x f 0 := {
    top := htop
    claim := by rw [hclaim, ← hfirst, ← hfade]
    runs := fun _ => hmeasure
    ended := fun h0 => absurd h0 (by omega)
    level := fun h0 => absurd h0 (by omega) }
  have hat := hstart.iterate (h := h) i hi
  dsimp only
  refine ⟨?_, fun hlast => ⟨?_, hat.ended hlast⟩⟩
  · rw [hat.level hpos]
    exact fadeLevel_between hn hi
  · rw [hat.level hpos, hlast, fadeLevel_last hn]

/-! ### A zero crossing -/

theorem crossingJoin_eq (ring : List Nat) (i : Nat) :
    crossingJoin ring i = (ring ++ [i]).drop (ring.length + 1 - 4) := by
  unfold crossingJoin
  split
  · next h =>
    have h0 : ring.length + 1 - 4 = 0 := by simp only [Config.crossingRing] at h; omega
    rw [h0, List.drop_zero]
  · rw [List.drop_append_of_le_length (by omega)]

/-- The record at a crossing that is timed. -/
theorem HouseLights.timeCrossing_timed {x : HouseLights} {v : Nat} (href : x.crossingRef = true)
    (htimer : x.crossingTimer = some v) :
    x.timeCrossing = { x with crossings := crossingJoin x.crossings v, crossingTimer := some 0 }.formHalfCycle := by
  simp [HouseLights.timeCrossing, href, htimer]

theorem HouseLights.formHalfCycle_kept (x : HouseLights) :
    x.formHalfCycle.crossings = x.crossings ∧ x.formHalfCycle.scenes = x.scenes
      ∧ x.formHalfCycle.crossingRef = x.crossingRef ∧ x.formHalfCycle.crossingTimer = x.crossingTimer := by
  unfold HouseLights.formHalfCycle
  split
  · dsimp only
    split <;> exact ⟨rfl, rfl, rfl, rfl⟩
  · exact ⟨rfl, rfl, rfl, rfl⟩

theorem HouseLights.formHalfCycle_short {x : HouseLights} (h : x.crossings.length ≠ 4) : x.formHalfCycle = x := if_neg h

theorem HouseLights.formHalfCycle_in {x : HouseLights} (h : x.crossings.length = 4) (hlow : 7500 ≤ x.crossings.sum / 4)
    (hhigh : x.crossings.sum / 4 ≤ 11000) :
    x.formHalfCycle = { x with halfCycle := x.crossings.sum / 4, valid := true } :=
  (if_pos h).trans (if_pos ⟨hlow, hhigh⟩)

theorem HouseLights.formHalfCycle_out {x : HouseLights} (h : x.crossings.length = 4)
    (hout : x.crossings.sum / 4 < 7500 ∨ 11000 < x.crossings.sum / 4) : x.formHalfCycle = { x with valid := false } :=
  (if_pos h).trans (if_neg fun ⟨hl, hh⟩ => by
    simp only [Config.minHalfCycle, Config.maxHalfCycle, Config.crossingRing] at hl hh
    omega)

theorem HouseLights.cross_fields (x : HouseLights) :
    x.cross.scenes = x.timeCrossing.scenes ∧ x.cross.crossingRef = x.timeCrossing.crossingRef
      ∧ x.cross.crossingTimer = x.timeCrossing.crossingTimer ∧ x.cross.crossings = x.timeCrossing.crossings
      ∧ x.cross.halfCycle = x.timeCrossing.halfCycle ∧ x.cross.valid = x.timeCrossing.valid :=
  ⟨rfl, rfl, rfl, rfl, rfl, rfl⟩

theorem HouseLights.timeCrossing_starts (x : HouseLights) : x.timeCrossing.scenes = x.scenes
    ∧ x.timeCrossing.crossingRef = true ∧ x.timeCrossing.crossingTimer = some 0 := by
  unfold HouseLights.timeCrossing
  split
  · next href =>
    obtain ⟨-, hscenes, hr, ht⟩ := HouseLights.formHalfCycle_kept
      { x with crossings := crossingJoin x.crossings (x.crossingTimer.getD 0), crossingTimer := some 0 }
    exact ⟨hscenes, hr.trans href, ht⟩
  · exact ⟨rfl, rfl, rfl⟩

theorem HouseLights.timeCrossing_first {x : HouseLights} (href : x.crossingRef = false) :
    x.timeCrossing = { x with crossingRef := true, crossingTimer := some 0 } := by
  simp [HouseLights.timeCrossing, href]

theorem Circuit.crossed_armed (c : Circuit) (h h' : Nat) :
    (c.crossed true h h').output = c.output
      ∧ (c.crossed true h h').delay = (if h' = h then c.delay else firingDelay h' c.output)
      ∧ (c.crossed true h h').armed = (if c.output = 0 then none else (c.crossed true h h').delay)
      ∧ (c.crossed true h h').fired = false := by
  unfold Circuit.crossed
  by_cases hh : h' = h <;> simp [hh, Circuit.cross, Circuit.newHalfCycle]

/-! ### A firing -/

theorem Circuit.fire_armed {c : Circuit} (h : c.armed.isSome = true) : c.fire = { c with armed := none, fired := true } := by
  obtain ⟨d, hd⟩ := Option.isSome_iff_exists.1 h
  simp only [Circuit.fire, hd]

theorem Circuit.fire_idle {c : Circuit} (h : c.armed = none) : c.fire = c := by
  simp only [Circuit.fire, h]

/-! ### The statement -/

theorem State.modCircuit_of_unchanged {s : State} {sc : ScreenId} {k : CircuitId} {f : Nat → Circuit → Circuit}
    (h : f s.lights.halfCycle (s.circuit sc k) = s.circuit sc k) : s.modCircuit sc k f = s := by
  have hcircuits : s.lights.circuits.set sc ((s.lights.circuits.get sc).set k
      (f s.lights.halfCycle ((s.lights.circuits.get sc).get k))) = s.lights.circuits := by
    have hfix : f s.lights.halfCycle ((s.lights.circuits.get sc).get k) = (s.lights.circuits.get sc).get k := h
    rw [hfix]
    cases sc <;> cases k <;> rfl
  simp only [State.modCircuit, State.modLights, hcircuits]

/-- An event of one circuit. -/
theorem State.modCircuit_event (s : State) (sc : ScreenId) (k : CircuitId) (f : Nat → Circuit → Circuit) :
    s.modCircuit sc k f = { s with lights := (s.modCircuit sc k f).lights }
      ∧ (∀ x' k', x' ≠ sc ∨ k' ≠ k → (s.modCircuit sc k f).circuit x' k' = s.circuit x' k')
      ∧ (s.modCircuit sc k f).circuit sc k = f s.lights.halfCycle (s.circuit sc k) := by
  refine ⟨rfl, fun x' k' hne => ?_, ?_⟩
  · rw [State.modCircuit_circuit, if_neg fun ⟨hx, hk⟩ => hne.elim (· hx) (· hk)]
  · rw [State.modCircuit_circuit, if_pos ⟨rfl, rfl⟩]

theorem exec_fadeStep_eq {s : State} (hp : s.powered = true) (sc : ScreenId) (k : CircuitId) :
    exec (.fadeStep sc k) s = .next (s.modCircuit sc k Circuit.dueStep) := congrArg Outcome.next (if_pos hp)

theorem exec_fadeStep_due {s : State} {sc : ScreenId} {k : CircuitId} {r : Rank} {x : Claim} {f : Fade}
    (hp : s.powered = true) (hdue : (s.circuit sc k).stepMeasure = some 20000) (htop : (s.circuit sc k).claims.top = some r)
    (hclaim : (s.circuit sc k).claims.get r = some x) (hfade : x.governing = some f) (hlt : f.k < f.n) :
    ∃ t, exec (.fadeStep sc k) s = .next t ∧ t = { s with lights := t.lights }
      ∧ (∀ x' k', x' ≠ sc ∨ k' ≠ k → t.circuit x' k' = s.circuit x' k')
      ∧ (t.circuit sc k).claims = (s.circuit sc k).claims.set r (some { x with governing := some { f with k := f.k + 1 } })
      ∧ ((t.circuit sc k).output : Int)
          = max 0 (f.start + (((x.target : Int) - f.start) * ((f.k : Int) + 1)).tdiv f.n)
      ∧ (t.circuit sc k).delay = firingDelay s.lights.halfCycle (t.circuit sc k).output
      ∧ (t.circuit sc k).stepMeasure = (if f.k + 1 < f.n then some 0 else none)
      ∧ (t.circuit sc k).armed = (if (t.circuit sc k).output = 0 then none else (s.circuit sc k).armed) := by
  obtain ⟨hrest, hother, hcircuit⟩ := s.modCircuit_event sc k Circuit.dueStep
  rw [Circuit.dueStep_due hdue,
    Circuit.fadeStep_governing (by rw [hdue]; rfl) htop hclaim hfade hlt] at hcircuit
  refine ⟨_, exec_fadeStep_eq hp sc k, hrest, hother, ?_⟩
  rw [hcircuit]
  refine ⟨rfl, ?_, rfl, rfl, rfl⟩
  change ((fadeLevel f.start x.target (f.k + 1) f.n : Nat) : Int) = _
  simp only [fadeLevel, Int.toNat_eq_max, Nat.cast_add, Nat.cast_one]
  omega

section Crossing

variable {s : State} {dt : Nat} {sc : ScreenId} {k : CircuitId}

theorem State.crossed_circuit : (((s.elapse dt).modLights HouseLights.cross).circuit sc k)
    = (((s.circuit sc k).elapse dt).crossed s.lights.crossingRef s.lights.halfCycle
        (s.elapse dt).lights.timeCrossing.halfCycle) := by
  rw [← State.elapse_circuit]
  exact HouseLights.cross_circuit (s.elapse dt).lights sc k

theorem HouseLights.cross_first {x : HouseLights} (href : x.crossingRef = false) :
    x.cross.crossings = x.crossings ∧ x.cross.halfCycle = x.halfCycle ∧ x.cross.valid = x.valid := by
  obtain ⟨-, -, -, hring, hhalf, hvalid⟩ := x.cross_fields
  rw [hring, hhalf, hvalid, HouseLights.timeCrossing_first href]
  exact ⟨rfl, rfl, rfl⟩

/-- The ring after a timed crossing, and what its average makes of H in use. -/
theorem HouseLights.cross_timed {x : HouseLights} {v : Nat} (href : x.crossingRef = true) (htimer : x.crossingTimer = some v) :
    let ring := (x.crossings ++ [v]).drop (x.crossings.length + 1 - 4)
    let avg := ring.sum / 4
    x.cross.crossings = ring
      ∧ (ring.length ≠ 4 → x.cross.halfCycle = x.halfCycle ∧ x.cross.valid = x.valid)
      ∧ (ring.length = 4 → 7500 ≤ avg → avg ≤ 11000 → x.cross.halfCycle = avg ∧ x.cross.valid = true)
      ∧ (ring.length = 4 → avg < 7500 ∨ 11000 < avg → x.cross.halfCycle = x.halfCycle ∧ x.cross.valid = false) := by
  obtain ⟨-, -, -, hring, hhalf, hvalid⟩ := x.cross_fields
  dsimp only
  rw [hring, hhalf, hvalid, HouseLights.timeCrossing_timed href htimer, ← crossingJoin_eq]
  refine ⟨(HouseLights.formHalfCycle_kept _).1, fun h => ?_, fun h hlow hhigh => ?_, fun h hout => ?_⟩
  · rw [HouseLights.formHalfCycle_short h]
    exact ⟨rfl, rfl⟩
  · rw [HouseLights.formHalfCycle_in h hlow hhigh]
    exact ⟨rfl, rfl⟩
  · rw [HouseLights.formHalfCycle_out h hout]
    exact ⟨rfl, rfl⟩

end Crossing

/-- Settles O48: a step forms the level of its number, so that the steps of a fade lead from start to target; a crossing
is timed and then arms each circuit at its delay. -/
theorem lightEventsComplete : Obligations.LightEventsComplete := by
  intro sc k dt s hp c
  refine ⟨fun r x f hdue htop hclaim hfade hlt => exec_fadeStep_due hp hdue htop hclaim hfade hlt, fun hidle => ?_,
    fun h q target fade => Circuit.place_undue, fun h q => Circuit.release_undue,
    fun h r x f i hmeasure htop hclaim hfade hfirst hn hpos hi =>
      Circuit.fade_reaches hmeasure htop hclaim hfade hfirst hn hpos hi, ?_, fun harmed => ?_, fun hidle => ?_⟩
  · rw [exec_fadeStep_eq hp, State.modCircuit_of_unchanged (Circuit.dueStep_idle hidle)]
  · obtain ⟨hscenes, hcrossingRef, htimer, -⟩ := (s.elapse dt).lights.cross_fields
    obtain ⟨kscenes, kref, ktimer⟩ := (s.elapse dt).lights.timeCrossing_starts
    refine ⟨(s.elapse dt).modLights HouseLights.cross, congrArg Outcome.next (if_pos hp), rfl, hscenes.trans kscenes,
      hcrossingRef.trans kref, htimer.trans ktimer, fun href => ?_, fun v href htimed => ?_⟩
    · obtain ⟨hring, hhalf, hvalid⟩ := HouseLights.cross_first (x := (s.elapse dt).lights) href
      refine ⟨hring, hhalf, hvalid, ?_⟩
      have hkept : (s.elapse dt).lights.timeCrossing.halfCycle = s.lights.halfCycle := hhalf
      rw [State.crossed_circuit, State.elapse_circuit, href, hkept]
      simp [Circuit.crossed]
    · have htimer' : (s.elapse dt).lights.crossingTimer = some (min 65535 (v + dt)) := by
        change Timer.advance _ _ s.lights.crossingTimer = _
        rw [htimed]
        rfl
      obtain ⟨hring, hshort, hin, hout⟩ := HouseLights.cross_timed (x := (s.elapse dt).lights) href htimer'
      refine ⟨hring, hshort, hin, hout, ?_⟩
      rw [State.crossed_circuit, href]
      obtain ⟨houtput, hdelay, harmed, hfired⟩ := Circuit.crossed_armed ((s.circuit sc k).elapse dt) s.lights.halfCycle
        (s.elapse dt).lights.timeCrossing.halfCycle
      exact ⟨Circuit.crossed_claims _ _ _ _, houtput, hdelay, harmed, hfired⟩
  · obtain ⟨hrest, hother, hcircuit⟩ := s.modCircuit_event sc k fun _ => Circuit.fire
    exact ⟨_, congrArg Outcome.next (if_pos hp), hrest, hcircuit.trans (Circuit.fire_armed harmed), hother⟩
  · have hexec : exec (.firingDelayExpiry sc k) s = .next (s.modCircuit sc k fun _ => Circuit.fire) :=
      congrArg Outcome.next (if_pos hp)
    rw [hexec, State.modCircuit_of_unchanged (Circuit.fire_idle hidle)]

end Sys2Proof.Machine

/-! REEL, PLANCLR and PLANCOPY: the words of an entry, the tests of a range, and the slots written. -/

namespace Sys2Proof.Machine

open Sys2Proof Host

/-! ### The optional operands of REEL -/

/-- An operand keyword=value is judged by its keyword. -/
theorem ReelOptions.take_keyed {x : ReelOptions} {w k v : Text} (hw : keyValue? w = some (k, v)) : x.take w =
    if k = txt "MODE" then (formOf (cueMode? v)).bind fun t => (once x.mode t).map fun o => { x with mode := o }
    else (formOf (number? v)).bind fun n =>
      if k = txt "CO" then (once x.co n).map fun o => { x with co := o }
      else if k = txt "WIN" then (once x.win n).map fun o => { x with win := o }
      else if k = txt "RUN" then (once x.run n).map fun o => { x with run := o }
      else if k = txt "SCENE" then (once x.scene n).map fun o => { x with scene := o }
      else if k = txt "INT" then (once x.int n).map fun o => { x with int := o }
      else .error .form := by
  have hlast : w ≠ txt "LAST" := by
    rintro rfl
    exact absurd hw (by rw [show keyValue? (txt "LAST") = none by decide]; simp)
  have hnote : w ≠ txt "NOTE" := by
    rintro rfl
    exact absurd hw (by rw [show keyValue? (txt "NOTE") = none by decide]; simp)
  rw [ReelOptions.take, if_neg hlast, if_neg hnote, hw]
  rfl

section Keywords

variable (x : ReelOptions)

theorem ReelOptions.take_co (n : Nat) (h : x.co = none) : x.take (txt "CO=" ++ fNum n) = .ok { x with co := some n } := by
  rw [ReelOptions.take_keyed (w := txt "CO=" ++ fNum n) (keyValue_append (k := txt "CO") (by decide) _), number_fNum, h]
  rfl

theorem ReelOptions.take_win (n : Nat) (h : x.win = none) : x.take (txt "WIN=" ++ fNum n) = .ok { x with win := some n } := by
  rw [ReelOptions.take_keyed (w := txt "WIN=" ++ fNum n) (keyValue_append (k := txt "WIN") (by decide) _), number_fNum, h]
  rfl

theorem ReelOptions.take_run (n : Nat) (h : x.run = none) : x.take (txt "RUN=" ++ fNum n) = .ok { x with run := some n } := by
  rw [ReelOptions.take_keyed (w := txt "RUN=" ++ fNum n) (keyValue_append (k := txt "RUN") (by decide) _), number_fNum, h]
  rfl

theorem ReelOptions.take_scene (n : Nat) (h : x.scene = none) :
    x.take (txt "SCENE=" ++ fNum n) = .ok { x with scene := some n } := by
  rw [ReelOptions.take_keyed (w := txt "SCENE=" ++ fNum n) (keyValue_append (k := txt "SCENE") (by decide) _), number_fNum, h]
  rfl

theorem ReelOptions.take_int (n : Nat) (h : x.int = none) : x.take (txt "INT=" ++ fNum n) = .ok { x with int := some n } := by
  rw [ReelOptions.take_keyed (w := txt "INT=" ++ fNum n) (keyValue_append (k := txt "INT") (by decide) _), number_fNum, h]
  rfl

/-- The word of a cue mode. -/
def modeWord : CueMode → Text
  | .film => txt "FILM"
  | .foot => txt "FOOT"

theorem ReelOptions.take_mode (d : CueMode) (h : x.mode = none) :
    x.take (txt "MODE=" ++ modeWord d) = .ok { x with mode := some d } := by
  have hmode : cueMode? (modeWord d) = some d := by cases d <;> decide
  rw [ReelOptions.take_keyed (w := txt "MODE=" ++ modeWord d) (keyValue_append (k := txt "MODE") (by decide) _), hmode, h]
  rfl

theorem ReelOptions.take_last (h : x.last = false) : x.take (txt "LAST") = .ok { x with last := true } := by
  simp [ReelOptions.take, h]

theorem ReelOptions.take_note (h : x.note = false) : x.take (txt "NOTE") = .ok { x with note := true } := by
  have hne : txt "NOTE" ≠ txt "LAST" := by decide
  simp [ReelOptions.take, h, hne]

/-- A word taken is the first of the operands. -/
theorem ReelOptions.takeAll_cons {x y : ReelOptions} {w : Text} {ws : List Text} (h : x.take w = .ok y) :
    x.takeAll (w :: ws) = y.takeAll ws := by
  simp [ReelOptions.takeAll, h]

theorem ReelOptions.takeAll_append {x y : ReelOptions} {ws vs : List Text} (h : x.takeAll ws = .ok y) :
    x.takeAll (ws ++ vs) = y.takeAll vs := by
  induction ws generalizing x with
  | nil =>
    obtain rfl := Except.ok.inj h
    rfl
  | cons w ws ih =>
    obtain ⟨z, hz, hrest⟩ := Except.bind_ok h
    exact (ReelOptions.takeAll_cons hz).trans (ih hrest)

end Keywords

/-! ### The words of an entry -/

/-- The optional operands that spell an entry. -/
def SlotEntry.words (e : SlotEntry) : List Text :=
  (match e.co with | some c => [txt "CO=" ++ fNum c] | none => [])
    ++ [txt "WIN=" ++ fNum e.window, txt "RUN=" ++ fNum e.runUp,
        txt "MODE=" ++ (match e.mode with | .film => txt "FILM" | .foot => txt "FOOT")]
    ++ (match e.scene with | some k => [txt "SCENE=" ++ fNum k.val] | none => [])
    ++ (if e.last = true then [txt "LAST"] else [])
    ++ (match e.int with | some k => [txt "INT=" ++ fNum k] | none => [])
    ++ (if e.note = true then [txt "NOTE"] else [])

/-- The options those words give. -/
def SlotEntry.options (e : SlotEntry) : ReelOptions :=
  ⟨e.co, some e.window, some e.runUp, some e.mode, e.scene.map Fin.val, e.last, e.int, e.note⟩

theorem SlotEntry.takeAll_words (e : SlotEntry) : ReelOptions.empty.takeAll e.words = .ok e.options := by
  have hco : ReelOptions.empty.takeAll (match e.co with | some c => [txt "CO=" ++ fNum c] | none => [])
      = .ok { ReelOptions.empty with co := e.co } := by
    cases e.co with
    | none => rfl
    | some c => exact ReelOptions.takeAll_cons (ReelOptions.take_co _ c rfl)
  have hthree : ∀ x : ReelOptions, x.win = none → x.run = none → x.mode = none →
      x.takeAll [txt "WIN=" ++ fNum e.window, txt "RUN=" ++ fNum e.runUp,
        txt "MODE=" ++ (match e.mode with | .film => txt "FILM" | .foot => txt "FOOT")]
        = .ok { x with win := some e.window, run := some e.runUp, mode := some e.mode } := by
    intro x hwin hrun hmode
    have hword : (match e.mode with | .film => txt "FILM" | .foot => txt "FOOT") = modeWord e.mode := by cases e.mode <;> rfl
    rw [hword, ReelOptions.takeAll_cons (ReelOptions.take_win x _ hwin),
      ReelOptions.takeAll_cons (ReelOptions.take_run _ _ (by exact hrun)),
      ReelOptions.takeAll_cons (ReelOptions.take_mode _ _ (by exact hmode))]
    rfl
  have hscene : ∀ x : ReelOptions, x.scene = none →
      x.takeAll (match e.scene with | some k => [txt "SCENE=" ++ fNum k.val] | none => [])
        = .ok { x with scene := e.scene.map Fin.val } := by
    intro x hx
    cases e.scene with
    | none => rw [Option.map_none, ← hx]; rfl
    | some k => exact ReelOptions.takeAll_cons (ReelOptions.take_scene x _ hx)
  have hlast : ∀ x : ReelOptions, x.last = false →
      x.takeAll (if e.last = true then [txt "LAST"] else []) = .ok { x with last := e.last } := by
    intro x hx
    cases e.last with
    | false => rw [if_neg (by simp), ← hx]; rfl
    | true => rw [if_pos rfl]; exact ReelOptions.takeAll_cons (ReelOptions.take_last x hx)
  have hint : ∀ x : ReelOptions, x.int = none →
      x.takeAll (match e.int with | some k => [txt "INT=" ++ fNum k] | none => []) = .ok { x with int := e.int } := by
    intro x hx
    cases e.int with
    | none => exact congrArg Except.ok (by rw [← hx])
    | some k => exact ReelOptions.takeAll_cons (ReelOptions.take_int x _ hx)
  have hnote : ∀ x : ReelOptions, x.note = false →
      x.takeAll (if e.note = true then [txt "NOTE"] else []) = .ok { x with note := e.note } := by
    intro x hx
    cases e.note with
    | false => rw [if_neg (by simp), ← hx]; rfl
    | true => rw [if_pos rfl]; exact ReelOptions.takeAll_cons (ReelOptions.take_note x hx)
  unfold SlotEntry.words
  simp only [List.append_assoc]
  rw [ReelOptions.takeAll_append hco, ReelOptions.takeAll_append (hthree _ rfl rfl rfl),
    ReelOptions.takeAll_append (hscene _ rfl), ReelOptions.takeAll_append (hlast _ rfl),
    ReelOptions.takeAll_append (hint _ rfl), hnote _ rfl]
  rfl

theorem SlotEntry.options_agree {e : SlotEntry} (h : EntryLaw e) : e.options.agree = true := by
  have hboth : (e.last && e.int.isSome) = false := by
    cases hlast : e.last with
    | false => rfl
    | true => simp [h.notBoth hlast]
  simp only [ReelOptions.agree, SlotEntry.options, h.coPresent, hboth]
  simp

theorem within_of_some {lo hi : Nat} {v : Option Nat} (h : ∀ n, v = some n → lo ≤ n ∧ n ≤ hi) : within lo hi v = true := by
  cases v with
  | none => rfl
  | some n => simp [within, h n rfl]

theorem SlotEntry.options_inRange {e : SlotEntry} (h : EntryLaw e) : e.options.inRange e.length = true := by
  obtain ⟨hlow, hhigh⟩ := h.length
  have hco : within 1 (e.length - 1) e.co = true := within_of_some h.co
  have hint : within 0 30 e.int = true := within_of_some fun n hn => ⟨Nat.zero_le n, h.int n hn⟩
  have hscene : within 0 7 (e.scene.map Fin.val) = true := within_of_some fun n hn => by
    obtain ⟨k, -, rfl⟩ := Option.map_eq_some_iff.1 hn
    exact ⟨Nat.zero_le _, by omega⟩
  have hwin : within 0 480 (some e.window) = true := within_of_some fun n hn => by cases hn; exact ⟨Nat.zero_le _, h.window⟩
  have hrun : within 0 480 (some e.runUp) = true := within_of_some fun n hn => by cases hn; exact ⟨Nat.zero_le _, h.runUp⟩
  simp only [ReelOptions.inRange, SlotEntry.options, hco, hint, hscene, hwin, hrun, Config.maxFrames]
  simp [hlow, hhigh]

theorem SlotEntry.options_entry (e : SlotEntry) : e.options.entry e.reel e.length = e := by
  have hscene : (e.scene.map Fin.val).bind sceneOf? = e.scene := by
    cases e.scene with
    | none => rfl
    | some k => simp [sceneOf?]
  simp only [ReelOptions.entry, SlotEntry.options, hscene]
  rfl

/-! ### REEL -/

/-- What REEL s n does with words that spell an entry. -/
def ReelWrites (s : State) (sc : ScreenId) (n : SlotIx) (c : Instr) (e : SlotEntry) : Prop :=
  (s.frozen sc n = false → (s.slot sc n).status ≠ .bound →
    ∃ u, exec c s = .next (u.answer (.ok [])) ∧ u.slot sc n = ⟨.loaded, none, some e⟩
      ∧ (∀ x k, x ≠ sc ∨ k ≠ n → u.slot x k = s.slot x k)
      ∧ ShowFrame ((s.taken c).modSlot sc n fun _ => ⟨.loaded, none, some e⟩) u)
  ∧ (s.frozen sc n = true → exec c s = .next (s.answered c (.no .frozen)))
  ∧ (s.frozen sc n = false → (s.slot sc n).status = .bound → exec c s = .next (s.answered c (.no .state)))

theorem reel_writes {s : State} {sc : ScreenId} {n : SlotIx} {a b id : Text} {len : Nat} {ws : List Text} {x : ReelOptions}
    (hp : s.powered = true) (ha : s.namesScreen a sc) (hb : namesSlot b n) (hid : isReelId id = true)
    (hx : ReelOptions.empty.takeAll ws = .ok x) (hagree : x.agree = true) (hrange : x.inRange len = true) :
    ReelWrites s sc n (.reel (a :: b :: id :: fNum len :: ws)) (x.entry id len) := by
  obtain ⟨i, hi, hscreen⟩ := screenOperand_of_namesScreen ha
  obtain ⟨k, hk, hslot⟩ := slotOperand_of_namesSlot hb
  have hparse : ∀ u : State, screenOperand u i = .ok sc → parseReel u (a :: b :: id :: fNum len :: ws)
      = (do
        need (!u.frozen sc n) .frozen
        need ((u.slot sc n).status != .bound) .state
        return (sc, n, x.entry id len)) := by
    intro u hu
    simp [parseReel, hi, hk, hid, hx, hagree, hu, hslot, hrange]
  refine ⟨fun hfree hnot => ?_, fun hfrozen => ?_, fun hfree hbound => ?_⟩
  · have hok : ∀ c, parseReel (s.taken c) (a :: b :: id :: fNum len :: ws) = .ok (sc, n, x.entry id len) := by
      intro c
      have hfree' : (s.taken c).frozen sc n = false := hfree
      have hnot' : (((s.taken c).slot sc n).status != .bound) = true := bne_iff_ne.2 hnot
      rw [hparse (s.taken c) hscreen, hfree', hnot']
      rfl
    obtain ⟨hslots, -, -⟩ := State.evaluateScreen_only sc
      ((s.taken (.reel (a :: b :: id :: fNum len :: ws))).modSlot sc n fun _ => Slot.loadedWith (x.entry id len))
    refine ⟨_, ?_, ?_, fun y j hne => ?_, (State.evaluateScreen_reactions sc _).frame⟩
    · change execReel _ s = _
      simp only [execReel, State.takeCommand_of_powered hp, hok]
      rfl
    · exact (hslots sc n).trans (State.modSlot_slot_self _ _ _ _)
    · exact (hslots y j).trans ((State.modSlot_slot _ _ _ _ _ _).trans
        (if_neg fun ⟨hy, hj⟩ => hne.elim (· hy) (· hj)))
  · refine exec_refused hp (reasonOf_eq_some.2 ?_)
    rw [hparse s hscreen, hfrozen]
    rfl
  · refine exec_refused hp (reasonOf_eq_some.2 ?_)
    rw [hparse s hscreen, hfree, hbound]
    rfl

/-! ### The range of slots of PLANCLR and PLANCOPY -/

theorem anyInRange_iff {f c : Nat} {p : SlotIx → Bool} :
    anyInRange f c p = true ↔ ∃ n : SlotIx, (f ≤ n.val ∧ n.val < f + c) ∧ p n = true := by
  simp [anyInRange, mem_allSlots, and_assoc]

theorem rangeFits_iff {f c : Nat} : rangeFits f c = true ↔ f ≤ 23 ∧ c ≤ 24 ∧ f + c ≤ 24 := by
  simp only [rangeFits, Config.slotCount, Bool.and_eq_true, decide_eq_true_eq, and_assoc]
  omega

section Range

variable {s : State} {sc : ScreenId} {f count : Nat}

theorem writableRange_frozen (h : ∃ n : SlotIx, (f ≤ n.val ∧ n.val < f + count) ∧ s.frozen sc n = true) :
    writableRange s sc f count = .error .frozen := by
  simp [writableRange, anyInRange_iff.2 h]

theorem anyInRange_none {p : SlotIx → Bool} (h : ∀ n : SlotIx, f ≤ n.val ∧ n.val < f + count → p n = false) :
    anyInRange f count p = false :=
  Bool.eq_false_iff.2 fun ht => by
    obtain ⟨n, hn, hpn⟩ := anyInRange_iff.1 ht
    rw [h n hn] at hpn
    cases hpn

theorem writableRange_bound (hfree : ∀ n : SlotIx, f ≤ n.val ∧ n.val < f + count → s.frozen sc n = false)
    (h : ∃ n : SlotIx, (f ≤ n.val ∧ n.val < f + count) ∧ (s.slot sc n).status = .bound) :
    writableRange s sc f count = .error .state := by
  obtain ⟨n, hn, hbound⟩ := h
  have hany : (anyInRange f count fun n => (s.slot sc n).status == .bound) = true :=
    anyInRange_iff.2 ⟨n, hn, by rw [hbound]; rfl⟩
  simp [writableRange, anyInRange_none hfree, hany]

theorem writableRange_free (hfree : ∀ n : SlotIx, f ≤ n.val ∧ n.val < f + count → s.frozen sc n = false)
    (hnot : ∀ n : SlotIx, f ≤ n.val ∧ n.val < f + count → (s.slot sc n).status ≠ .bound) :
    writableRange s sc f count = .ok () := by
  have hnone : (anyInRange f count fun n => (s.slot sc n).status == .bound) = false :=
    anyInRange_none fun n hn => by simpa using hnot n hn
  simp [writableRange, anyInRange_none hfree, hnone]

/-- What a written range is, and what stands beside it. -/
theorem State.written_range (u : State) (sc : ScreenId) (f count : Nat) (g : Nat → Slot) :
    let t := (u.putTable sc (PlanTable.writeRange f count g (u.plan.tables.get sc))).evaluateScreen sc
    (∀ n : SlotIx, f ≤ n.val ∧ n.val < f + count → t.slot sc n = g n.val)
      ∧ (∀ n : SlotIx, ¬ (f ≤ n.val ∧ n.val < f + count) → t.slot sc n = u.slot sc n)
      ∧ (∀ x n, x ≠ sc → t.slot x n = u.slot x n)
      ∧ ShowFrame (u.putTable sc (t.plan.tables.get sc)) t := by
  let v := u.putTable sc (PlanTable.writeRange f count g (u.plan.tables.get sc))
  obtain ⟨hslots, -, -⟩ := State.evaluateScreen_only sc v
  have htable : (v.evaluateScreen sc).plan.tables.get sc = PlanTable.writeRange f count g (u.plan.tables.get sc) := by
    apply Vector.ext
    intro i hi
    have hslot := hslots sc ⟨i, hi⟩
    rw [State.putTable_slot, if_pos rfl] at hslot
    exact hslot
  refine ⟨fun n hn => ?_, fun n hn => ?_, fun x n hx => ?_, ?_⟩
  · rw [hslots, State.putTable_slot, if_pos rfl, PlanTable.writeRange_get, if_pos hn]
  · rw [hslots, State.putTable_slot, if_pos rfl, PlanTable.writeRange_get, if_neg hn]
    rfl
  · rw [hslots, State.putTable_slot, if_neg hx]
  · rw [htable]
    exact (State.evaluateScreen_reactions sc v).frame

end Range

/-- What a command that writes the range of `count` slots from `g` does, `ok` where its ranges lie within a table. -/
def RangeWrites (s : State) (sc : ScreenId) (g count : Nat) (c : Instr) (ok : Prop) (new : SlotIx → Slot) : Prop :=
  let hit := fun (n : SlotIx) => g ≤ n.val ∧ n.val < g + count
  (¬ ok → exec c s = .next (s.answered c (.no .range)))
  ∧ (ok → count = 0 → exec c s = .next (s.answered c (.ok [])))
  ∧ (ok → count ≠ 0 → (∃ n, hit n ∧ s.frozen sc n = true) → exec c s = .next (s.answered c (.no .frozen)))
  ∧ (ok → count ≠ 0 → (∀ n, hit n → s.frozen sc n = false) → (∃ n, hit n ∧ (s.slot sc n).status = .bound) →
      exec c s = .next (s.answered c (.no .state)))
  ∧ (ok → count ≠ 0 → (∀ n, hit n → s.frozen sc n = false) → (∀ n, hit n → (s.slot sc n).status ≠ .bound) →
      ∃ u, exec c s = .next (u.answer (.ok []))
        ∧ (∀ n, hit n → u.slot sc n = new n) ∧ (∀ n, ¬ hit n → u.slot sc n = s.slot sc n)
        ∧ (∀ x n, x ≠ sc → u.slot x n = s.slot x n)
        ∧ ShowFrame ((s.taken c).putTable sc (u.plan.tables.get sc)) u)

section Commands

variable {s : State} {src sc : ScreenId} {a b w1 w2 w3 : Text} {f g count : Nat} (hp : s.powered = true)
  (ha : s.namesScreen a src) (hb : s.namesScreen b sc) (hf : number? w1 = some f) (hg : number? w2 = some g)
  (hcount : number? w3 = some count)
include hp hb hg hcount

theorem planclr_writes : RangeWrites s sc g count (.planclr [b, w2, w3]) (g ≤ 23 ∧ count ≤ 24 ∧ g + count ≤ 24)
    fun _ => ⟨.empty, none, none⟩ := by
  obtain ⟨i, hi, hscreen⟩ := screenOperand_of_namesScreen hb
  have hparse : ∀ u : State, screenOperand u i = .ok sc → parsePlanclr u [b, w2, w3] = (do
      need (rangeFits g count) .range
      if count = 0 then return (sc, g, 0)
      else
        writableRange u sc g count
        return (sc, g, count)) := by
    intro u hu
    simp [parsePlanclr, hi, hg, hcount, hu]
  refine ⟨fun hnot => ?_, fun hok hzero => ?_, fun hok hne hfrozen => ?_, fun hok hne hfree hbound => ?_,
    fun hok hne hfree hnot => ?_⟩
  · refine exec_refused hp (reasonOf_eq_some.2 ?_)
    rw [hparse s hscreen, Bool.eq_false_iff.2 (mt rangeFits_iff.1 hnot)]
    rfl
  · have hparsed : parsePlanclr (s.taken (.planclr [b, w2, w3])) [b, w2, w3] = .ok (sc, g, 0) := by
      rw [hparse (s.taken _) hscreen, rangeFits_iff.2 hok, if_pos hzero]
      rfl
    change execPlanclr _ s = _
    simp only [execPlanclr, State.takeCommand_of_powered hp, hparsed, if_true]
    rfl
  · refine exec_refused hp (reasonOf_eq_some.2 ?_)
    rw [hparse s hscreen, rangeFits_iff.2 hok, if_neg hne, writableRange_frozen hfrozen]
    rfl
  · refine exec_refused hp (reasonOf_eq_some.2 ?_)
    rw [hparse s hscreen, rangeFits_iff.2 hok, if_neg hne, writableRange_bound hfree hbound]
    rfl
  · have hwritable : writableRange (s.taken (.planclr [b, w2, w3])) sc g count = .ok () := writableRange_free hfree hnot
    have hparsed : parsePlanclr (s.taken (.planclr [b, w2, w3])) [b, w2, w3] = .ok (sc, g, count) := by
      rw [hparse (s.taken _) hscreen, rangeFits_iff.2 hok, if_neg hne, hwritable]
      rfl
    refine ⟨_, ?_, State.written_range (s.taken (.planclr [b, w2, w3])) sc g count fun _ => Slot.cleared⟩
    change execPlanclr _ s = _
    simp only [execPlanclr, State.takeCommand_of_powered hp, hparsed, if_neg hne]

include ha hf

theorem plancopy_writes : RangeWrites s sc g count (.plancopy [a, w1, b, w2, w3])
    ((f ≤ 23 ∧ count ≤ 24 ∧ f + count ≤ 24) ∧ (g ≤ 23 ∧ count ≤ 24 ∧ g + count ≤ 24))
    fun n => (PlanTable.at (s.plan.tables.get src) (f + (n.val - g))).copied := by
  obtain ⟨i, hi, hsource⟩ := screenOperand_of_namesScreen ha
  obtain ⟨j, hj, hscreen⟩ := screenOperand_of_namesScreen hb
  have hparse : ∀ u : State, screenOperand u i = .ok src → screenOperand u j = .ok sc →
      parsePlancopy u [a, w1, b, w2, w3] = (do
        need (rangeFits f count && rangeFits g count) .range
        if count = 0 then return ⟨src, f, sc, g, 0⟩
        else
          writableRange u sc g count
          return ⟨src, f, sc, g, count⟩) := by
    intro u hu hv
    simp [parsePlancopy, hi, hj, hf, hg, hcount, hu, hv]
  have hfits : (rangeFits f count && rangeFits g count) = true
      ↔ (f ≤ 23 ∧ count ≤ 24 ∧ f + count ≤ 24) ∧ (g ≤ 23 ∧ count ≤ 24 ∧ g + count ≤ 24) := by
    rw [Bool.and_eq_true, rangeFits_iff, rangeFits_iff]
  refine ⟨fun hnot => ?_, fun hok hzero => ?_, fun hok hne hfrozen => ?_, fun hok hne hfree hbound => ?_,
    fun hok hne hfree hnot => ?_⟩
  · refine exec_refused hp (reasonOf_eq_some.2 ?_)
    rw [hparse s hsource hscreen, Bool.eq_false_iff.2 (mt hfits.1 hnot)]
    rfl
  · have hparsed : parsePlancopy (s.taken (.plancopy [a, w1, b, w2, w3])) [a, w1, b, w2, w3] = .ok ⟨src, f, sc, g, 0⟩ := by
      rw [hparse (s.taken _) hsource hscreen, hfits.2 hok, if_pos hzero]
      rfl
    change execPlancopy _ s = _
    simp only [execPlancopy, State.takeCommand_of_powered hp, hparsed, if_true]
    rfl
  · refine exec_refused hp (reasonOf_eq_some.2 ?_)
    rw [hparse s hsource hscreen, hfits.2 hok, if_neg hne, writableRange_frozen hfrozen]
    rfl
  · refine exec_refused hp (reasonOf_eq_some.2 ?_)
    rw [hparse s hsource hscreen, hfits.2 hok, if_neg hne, writableRange_bound hfree hbound]
    rfl
  · have hwritable : writableRange (s.taken (.plancopy [a, w1, b, w2, w3])) sc g count = .ok () :=
      writableRange_free hfree hnot
    have hparsed : parsePlancopy (s.taken (.plancopy [a, w1, b, w2, w3])) [a, w1, b, w2, w3]
        = .ok ⟨src, f, sc, g, count⟩ := by
      rw [hparse (s.taken _) hsource hscreen, hfits.2 hok, if_neg hne, hwritable]
      rfl
    refine ⟨_, ?_, State.written_range (s.taken (.plancopy [a, w1, b, w2, w3])) sc g count fun i =>
      (PlanTable.at (s.plan.tables.get src) (f + (i - g))).copied⟩
    change execPlancopy _ s = _
    simp only [execPlancopy, State.takeCommand_of_powered hp, hparsed, if_neg hne]
    rfl

end Commands

/-- Settles O33: the words of an entry are taken one by one and give the entry back; a range is tested and written slot
by slot. -/
theorem planEntriesAreWritten : Obligations.PlanEntriesAreWritten := by
  refine ⟨?_, ?_⟩
  · intro sc n a b s hp ha hb written
    refine ⟨fun e he => ?_, fun id len hid hlow hhigh => ?_⟩
    · have hwrites := reel_writes hp ha hb he.reel e.takeAll_words (SlotEntry.options_agree he)
        (SlotEntry.options_inRange he)
      rw [SlotEntry.options_entry] at hwrites
      have hwords : [a, b, e.reel, fNum e.length] ++ e.words = a :: b :: e.reel :: fNum e.length :: e.words := rfl
      rw [← hwords] at hwrites
      simp only [SlotEntry.words, ← List.append_assoc] at hwrites
      exact hwrites
    · have hrange : ({ ReelOptions.empty with last := true } : ReelOptions).inRange len = true := by
        simp [ReelOptions.inRange, ReelOptions.empty, within, hlow, hhigh, Config.maxFrames]
      exact reel_writes hp ha hb hid (ws := [txt "LAST"]) rfl rfl hrange
  · intro src sc a b w1 w2 w3 f g count s hp ha hb hf hg hcount fits hit tests
    refine ⟨planclr_writes hp hb hg hcount, ?_⟩
    have hcopied : ∀ n : SlotIx, (PlanTable.at (s.plan.tables.get src) (f + (n.val - g))).copied
        = match (s.plan.tables.get src).toList[f + (n.val - g)]? with
          | some ⟨_, _, some e⟩ => ⟨.loaded, none, some e⟩
          | _ => ⟨.empty, none, none⟩ := by
      intro n
      simp only [PlanTable.at, List.getD_eq_getElem?_getD]
      rcases (s.plan.tables.get src).toList[f + (n.val - g)]? with _ | ⟨status, bound, _ | e⟩ <;> rfl
    have hwrites := plancopy_writes hp ha hb hf hg hcount
    simp only [hcopied] at hwrites
    exact hwrites

end Sys2Proof.Machine

/-! What a change of a lamp's record brings about: the lamp's own record stands as the change is posted, unless it is
DARK and a new strike is asked for. -/

namespace Sys2Proof.Machine

open Sys2Proof Host

/-! ### A lit lamp stands -/

theorem State.screenTaken_lamp (sc : ScreenId) (j : MachineId) (lost : Option Nat) (s : State) {m : MachineId} :
    (s.screenTaken sc j lost).lamp m = s.lamp m := rfl

/-- The lamp record of `m` stands where it is not DARK. -/
def LampHeld (m : MachineId) (s t : State) : Prop := (s.lamp m).state ≠ .dark → t.lamp m = s.lamp m

namespace LampHeld

variable {m j : MachineId} {sc : ScreenId} {s t u : State}

theorem of_eq (h : t.lamp m = s.lamp m) : LampHeld m s t := fun _ => h

theorem trans (h : LampHeld m s t) (k : LampHeld m t u) : LampHeld m s u := fun hlit => by
  have ht := h hlit
  rw [k (by rw [ht]; exact hlit), ht]

/-- What came before left the lamp alone. -/
theorem after (k : LampHeld m t u) (h : t.lamp m = s.lamp m) : LampHeld m s u := (of_eq h).trans k

theorem report (h : LampHeld m s t) (r : Report) : LampHeld m s (t.report r) := fun hlit => h hlit

theorem strikeRequest (j : MachineId) (s : State) : LampHeld m s (s.strikeRequest j) := by
  intro hlit
  by_cases hj : m = j
  · subst hj
    have hdeclined : (strikeDecline (s.machine m).holds.fire (s.lamp m)).isSome = true := by
      unfold strikeDecline
      split_ifs <;> rfl
    obtain ⟨d, hd⟩ := Option.isSome_iff_exists.1 hdeclined
    simp only [State.strikeRequest, hd]
  · unfold State.strikeRequest
    split
    · rw [State.modLamp_lamp, if_neg hj]
    · rfl

theorem loopCheck (j : MachineId) (s : State) : LampHeld m s (s.loopCheck j) := by
  unfold State.loopCheck
  split
  · exact of_eq rfl
  · exact of_eq rfl

theorem startSuccessor (j : MachineId) (cause : MotorCause) (s : State) : LampHeld m s (s.startSuccessor j cause) := by
  unfold State.startSuccessor
  dsimp only
  refine trans ?_ (loopCheck j _)
  split
  · exact (strikeRequest j _).after rfl
  · exact of_eq rfl

theorem openingStep (sc : ScreenId) (s : State) : LampHeld m s (s.openingStep sc) := by
  unfold State.openingStep
  split
  · exact of_eq rfl
  · split
    · split
      · exact strikeRequest _ s
      · dsimp only
        refine trans ?_ (loopCheck _ _)
        split <;> exact of_eq rfl
      all_goals exact of_eq rfl
    · exact of_eq rfl

theorem onArmed (j : MachineId) (s : State) : LampHeld m s (s.onArmed j) := by
  by_cases hidle : (s.screen (screenOf j)).state = .idle ∨ (s.screen (screenOf j)).state = .interval
      ∨ (s.screen (screenOf j)).state = .halted ∨ s.waitedOn (screenOf j) ≠ some j
  · exact of_eq (by rw [State.onArmed_idle hidle])
  · obtain ⟨hne, hni, hnh, hwait⟩ : (s.screen (screenOf j)).state ≠ .idle ∧ (s.screen (screenOf j)).state ≠ .interval
        ∧ (s.screen (screenOf j)).state ≠ .halted ∧ s.waitedOn (screenOf j) = some j := by
      simpa only [not_or, not_not, ne_eq] using hidle
    by_cases hopening : (s.screen (screenOf j)).state = .opening
    · rw [State.onArmed_opening hwait hopening]
      exact openingStep _ s
    · rw [State.onArmed_pending hwait (by cases h : (s.screen (screenOf j)).state <;> simp_all)]
      split
      · exact startSuccessor _ _ s
      · exact of_eq rfl

theorem evaluate (j : MachineId) (s : State) : LampHeld m s (s.evaluate j) := by
  rcases Bool.eq_false_or_eq_true (s.machine j).state.judged with hjudged | hjudged
  · unfold State.evaluate
    rw [if_pos hjudged]
    dsimp only
    split
    · exact of_eq rfl
    · split
      · exact (onArmed j _).after rfl
      · unfold State.onDisarmed
        dsimp only
        split <;> exact of_eq rfl
  · exact of_eq (by rw [State.evaluate_unjudged hjudged])

theorem evaluateScreen (sc : ScreenId) (s : State) : LampHeld m s (s.evaluateScreen sc) :=
  (evaluate _ s).trans (evaluate _ _)

theorem openingTake (sc : ScreenId) (s : State) : LampHeld m s (s.openingTake sc) := by
  unfold State.openingTake
  split
  · exact of_eq rfl
  · split
    · next j _ _ =>
      refine trans (of_eq ?_) (evaluateScreen sc _)
      exact (State.handOver_only sc j _).lamp m
    · exact of_eq rfl

theorem watchPicture (sc : ScreenId) (s : State) : LampHeld m s (s.watchPicture sc) := by
  unfold State.watchPicture
  split
  · exact of_eq rfl
  · dsimp only
    split <;> exact of_eq rfl

theorem givenOver (sc : ScreenId) (j : MachineId) (e : Option SlotEntry) (f : ScreenRec → ScreenRec) (s : State) :
    LampHeld m s (s.givenOver sc j e f) := by
  refine (evaluateScreen sc _).after ?_
  exact ((State.handOver_only sc j _).lamp m).trans ((CuesOnly.issueScene sc e s).lamp m)

theorem swapTaken {sc : ScreenId} {out j : MachineId} (hout : m ≠ out) (s : State) :
    (s.swapTaken sc out j).lamp m = s.lamp m := by
  have hoff : (s.gaveUp out).lamp m = s.lamp m := by
    rw [State.gaveUp, State.lampOff, State.modLamp_lamp, if_neg hout]
    rfl
  unfold State.swapTaken
  generalize s.gaveUp out = g at hoff ⊢
  dsimp only
  split <;> exact hoff

theorem testReady {sc : ScreenId} {s : State} (hsucc : s.successor sc = some m) : LampHeld m s (s.testReady sc) := by
  by_cases hready : s.swapReady m = true
  swap
  · have hunready : ∀ j, s.successor sc = some j → s.swapReady j = false := fun j hj => by
      obtain rfl := Option.some.inj (hsucc.symm.trans hj)
      simpa using hready
    exact of_eq (by rw [State.testReady_unready hunready])
  have hrunup : (s.machine m).state = .runup := by
    simp only [State.swapReady, State.openReady, Bool.and_eq_true, beq_iff_eq, and_assoc] at hready
    exact hready.1
  by_cases hdark : (s.screen sc).state = .dark
  · rw [State.testReady_dark hsucc hready hdark hrunup]
    exact ((givenOver sc m _ _ _).after (State.screenTaken_lamp sc m _ s)).report _
  by_cases hdue : (s.screen sc).state = .swapDue
  swap
  · exact of_eq (by rw [State.testReady_elsewhere ⟨hdue, hdark⟩])
  cases hon : (s.screen sc).onScreen with
  | none => exact of_eq (by simp [State.testReady, hsucc, hready, hdue, hon])
  | some out =>
    by_cases hout : (s.machine out).state = .onScreen
    · have hne : m ≠ out := by
        rintro rfl
        rw [hrunup] at hout
        cases hout
      rw [State.testReady_swap hsucc hready hdue hon hout hrunup]
      exact ((givenOver sc m _ _ _).after (swapTaken hne s)).report _
    · exact of_eq (by simp [State.testReady, hsucc, hready, hdue, hon, State.swap, hout])

theorem machinePosted (m : MachineId) (s : State) : LampHeld m s (s.machinePosted m) := by
  unfold State.machinePosted
  dsimp only
  have hwatched : LampHeld m s (if (s.screen (screenOf m)).onScreen = some m then s.watchPicture (screenOf m) else s) := by
    split
    · exact watchPicture _ s
    · exact of_eq rfl
  generalize (if (s.screen (screenOf m)).onScreen = some m then s.watchPicture (screenOf m) else s) = a at hwatched ⊢
  have htaken : LampHeld m s (if a.waitedOn (screenOf m) = some m then a.openingTake (screenOf m) else a) := by
    split
    · exact hwatched.trans (openingTake _ a)
    · exact hwatched
  generalize (if a.waitedOn (screenOf m) = some m then a.openingTake (screenOf m) else a) = b at htaken ⊢
  split
  · next hsucc => exact htaken.trans (testReady hsucc)
  · exact htaken

theorem lampPosted (m : MachineId) (s : State) : LampHeld m s (s.lampPosted m) := by
  unfold State.lampPosted
  dsimp only
  refine trans ?_ (machinePosted m _)
  have hasked : LampHeld m s (if s.waitedOn (screenOf m) = some m ∧ (s.screen (screenOf m)).startGiven = true
      ∧ (s.lamp m).state = .dark then s.strikeRequest m else s) := by
    split
    · exact strikeRequest m s
    · exact of_eq rfl
  generalize (if s.waitedOn (screenOf m) = some m ∧ (s.screen (screenOf m)).startGiven = true
      ∧ (s.lamp m).state = .dark then s.strikeRequest m else s) = a at hasked ⊢
  split
  · exact hasked.trans (openingStep _ a)
  · exact hasked

theorem lampSettled (m : MachineId) (before : LampState) (s : State) : LampHeld m s (s.lampSettled m before) := by
  unfold State.lampSettled
  refine trans ?_ (evaluate m _)
  split
  · exact of_eq rfl
  · exact lampPosted m s

end LampHeld

/-! ### A machine that is not waited on -/

section

variable {m : MachineId} {s : State}

/-- Its lamp's record stands as a change is posted, whatever its state: no strike is asked for (R107, R109). -/
theorem State.evaluate_unwaited (hwait : s.waitedOn (screenOf m) ≠ some m) : (s.evaluate m).lamp m = s.lamp m := by
  have hwait' : ∀ yes, (s.posted m yes).waitedOn (screenOf m) ≠ some m := fun yes => by
    rw [State.posted_waitedOn]
    exact hwait
  obtain ⟨heq, -⟩ | ⟨-, heq | heq⟩ := s.evaluate_posted m
  · rw [heq]
  · rw [heq, State.onArmed_idle (.inr (.inr (.inr (hwait' _))))]
    rfl
  · rw [heq, State.onDisarmed, if_neg fun h => hwait' _ h.1]
    rfl

theorem State.machinePosted_unwaited (hwait : s.waitedOn (screenOf m) ≠ some m) :
    (s.machinePosted m).lamp m = s.lamp m ∧ (s.machinePosted m).waitedOn (screenOf m) = s.waitedOn (screenOf m) := by
  have hwatched : ∃ a, s.machinePosted m
      = (if a.successor (screenOf m) = some m then a.testReady (screenOf m) else a) ∧ a.lamp m = s.lamp m
        ∧ a.waitedOn (screenOf m) = s.waitedOn (screenOf m) := by
    unfold State.machinePosted
    dsimp only
    by_cases hon : (s.screen (screenOf m)).onScreen = some m
    · obtain ⟨hcurrent, hstate, hslots⟩ := State.watchPicture_screen hon
      have hsame : (s.watchPicture (screenOf m)).waitedOn (screenOf m) = s.waitedOn (screenOf m) := by
        obtain ⟨-, hsucc⟩ := State.onDeck_congr hcurrent (by rw [hstate]) hslots
        simp only [State.waitedOn, hstate, hcurrent, hslots, hsucc]
      have hwait' : (s.watchPicture (screenOf m)).waitedOn (screenOf m) ≠ some m := by
        rw [hsame]
        exact hwait
      refine ⟨s.watchPicture (screenOf m), ?_, ?_, hsame⟩
      · rw [if_pos hon, if_neg hwait']
      · rw [State.watchPicture_eq hon]
        split <;> rfl
    · exact ⟨s, by rw [if_neg hon, if_neg hwait], rfl, rfl⟩
  obtain ⟨a, heq, hlamp, hsame⟩ := hwatched
  have htest : (if a.successor (screenOf m) = some m then a.testReady (screenOf m) else a) = a := by
    split
    · next hsucc =>
      by_cases hopening : (a.screen (screenOf m)).state = .opening
      · exact State.testReady_elsewhere ⟨by simp [hopening], by simp [hopening]⟩
      · exact absurd ((State.waitedOn_of_notOpening hopening).trans hsucc) (by rw [hsame]; exact hwait)
    · rfl
  rw [heq, htest]
  exact ⟨hlamp, hsame⟩

theorem State.lampSettled_unwaited (hwait : s.waitedOn (screenOf m) ≠ some m) (before : LampState) :
    (s.lampSettled m before).lamp m = s.lamp m := by
  unfold State.lampSettled
  split
  · exact State.evaluate_unwaited hwait
  · have hposted : s.lampPosted m = s.machinePosted m := by
      have hunasked : ¬ (s.waitedOn (screenOf m) = some m ∧ (s.screen (screenOf m)).startGiven = true
          ∧ (s.lamp m).state = .dark) := fun h => hwait h.1
      simp only [State.lampPosted, if_neg hunasked, if_neg hwait]
    obtain ⟨hlamp, hsame⟩ := State.machinePosted_unwaited hwait
    rw [hposted, State.evaluate_unwaited (by rw [hsame]; exact hwait), hlamp]

end

end Sys2Proof.Machine

/-! A lamp's change as it is posted; the lamp's gates and measures, the feed encoder and the buckets. -/

namespace Sys2Proof.Machine

open Sys2Proof Host

/-! ### Two changes of one lamp -/

section

variable {m : MachineId} {s : State}

theorem State.modLamp_modLamp {f g : LampRec → LampRec} (h : (g (f (s.lamp m))).state = (f (s.lamp m)).state) :
    (s.modLamp m f).modLamp m g = s.modLamp m fun l => g (f l) := by
  have hlamp : (s.modLamp m f).lamp m = f (s.lamp m) := by rw [State.modLamp_lamp, if_pos rfl]
  rw [State.modLamp_of_state (f := g) (by rw [hlamp]; exact h), hlamp]
  unfold State.modLamp
  dsimp only
  rw [h]
  split <;> simp [State.holdRequest, State.modMachine, State.machine, State.decoder, State.lamp]

theorem State.modLamp_report (m : MachineId) (f : LampRec → LampRec) (r : Report) (s : State) :
    (s.report r).modLamp m f = (s.modLamp m f).report r := by
  unfold State.modLamp
  dsimp only
  rw [show (s.report r).lamp m = s.lamp m from rfl]
  split <;> rfl

/-- A lamp's change leaves which machine is waited on, and the reel time. -/
theorem State.modLamp_waitedOn (f : LampRec → LampRec) (sc : ScreenId) :
    (s.modLamp m f).waitedOn sc = s.waitedOn sc := by
  have hscreen : (s.modLamp m f).screen sc = s.screen sc := State.modLamp_screen m f s sc
  have hslot : ∀ n, (s.modLamp m f).slot sc n = s.slot sc n := fun n => State.modLamp_slot m f s sc n
  obtain ⟨-, hsucc⟩ := State.onDeck_congr (s := s) (t := s.modLamp m f) (sc := sc) (by rw [hscreen]) (by rw [hscreen]) hslot
  simp only [State.waitedOn, hscreen, hslot, hsucc]

theorem State.modLamp_reelTime (f : LampRec → LampRec) : (s.modLamp m f).reelTime m = s.reelTime m := by
  have hslot : ∀ n, (s.modLamp m f).slot (screenOf m) n = s.slot (screenOf m) n := fun n => State.modLamp_slot m f s _ n
  simp only [State.reelTime, State.boundLength, State.boundEntry, hslot]
  rw [State.modLamp_machine_kept]
  rfl

/-! ### The shortfall test -/

theorem State.shortfallTest_none (h : s.reelTime m = none) : s.shortfallTest m = s := by
  simp only [State.shortfallTest, h]

theorem State.shortfallTest_lamp (m : MachineId) (s : State) : LampIs (s.lamp m) ((s.shortfallTest m).lamp m)
    ∧ (s.shortfallTest m).waitedOn (screenOf m) = s.waitedOn (screenOf m) := by
  unfold State.shortfallTest
  split
  · exact ⟨rfl, rfl⟩
  · split
    · rw [State.modLamp_waitedOn, State.modLamp_lamp, if_pos rfl]
      exact ⟨rfl, rfl⟩
    · exact ⟨rfl, rfl⟩

/-- The test at a recomputation that leaves `x`, with `left` of the reel to run (R79). -/
def State.shortfallTested (m : MachineId) (x : LampRec) (left : Nat) (s : State) : State :=
  if x.forecast < left ∧ x.shortfallReported = false then
    (s.modLamp m fun _ => { x with shortfallReported := true }).report (.carbon m x.forecast left)
  else s.modLamp m fun _ => x

theorem State.shortfallTest_some {x : LampRec} {left : Nat} (hreel : s.reelTime m = some left)
    (hburning : x.state = .burning) :
    (s.modLamp m fun _ => x).shortfallTest m = s.shortfallTested m x left := by
  have hlamp : (s.modLamp m fun _ => x).lamp m = x := by rw [State.modLamp_lamp, if_pos rfl]
  unfold State.shortfallTest State.shortfallTested
  rw [State.modLamp_reelTime, hreel, hlamp]
  dsimp only
  by_cases hshort : x.forecast < left ∧ x.shortfallReported = false
  · rw [if_pos ⟨hburning, hshort⟩, if_pos hshort]
    have htwice : ((s.modLamp m fun _ => x).modLamp m fun l => { l with shortfallReported := true })
        = s.modLamp m fun _ => { x with shortfallReported := true } := State.modLamp_modLamp rfl
    rw [← htwice]
    exact State.modLamp_report _ _ _ _
  · rw [if_neg fun h => hshort h.2, if_neg hshort]

theorem State.shortfallTested_machine {x : LampRec} {left : Nat} :
    ((s.shortfallTested m x left).machine m).state = (s.machine m).state := by
  unfold State.shortfallTested
  split
  · rw [show ((s.modLamp m fun _ => { x with shortfallReported := true }).report (.carbon m x.forecast left)).machine m
      = (s.modLamp m fun _ => { x with shortfallReported := true }).machine m from rfl, State.modLamp_machine_kept]
  · rw [State.modLamp_machine_kept]

theorem State.shortfallTested_lampState {x : LampRec} {left : Nat} :
    ((s.shortfallTested m x left).lamp m).state = x.state := by
  unfold State.shortfallTested
  split
  · rw [show ((s.modLamp m fun _ => { x with shortfallReported := true }).report (.carbon m x.forecast left)).lamp m
      = (s.modLamp m fun _ => { x with shortfallReported := true }).lamp m from rfl, State.modLamp_lamp, if_pos rfl]
  · rw [State.modLamp_lamp, if_pos rfl]

theorem State.lampSettled_tested {x : LampRec} {left : Nat} (hreel : s.reelTime m = some left) :
    (s.shortfallTested m x left).lampSettled m x.state = s.shortfallTested m x left := by
  unfold State.lampSettled
  rw [if_pos State.shortfallTested_lampState]
  refine State.evaluate_unjudged ?_
  rw [State.shortfallTested_machine]
  unfold State.reelTime at hreel
  split at hreel
  · next hon => rw [hon]; rfl
  · cases hreel

/-! ### A change as it is posted -/

theorem LampIs.lit {x : LampRec} {u t : State} (hx : LampIs x (u.lamp m)) (hlit : x.state ≠ .dark) (h : LampHeld m u t) :
    LampIs x (t.lamp m) := by
  have hstate : (u.lamp m).state = x.state := by rw [hx]
  rw [h (by rw [hstate]; exact hlit)]
  exact hx

/-- The record written to `x`, the shortfall tested, the change posted. -/
theorem State.tested_settled (x : LampRec) (before : LampState) :
    let t := ((s.modLamp m fun _ => x).shortfallTest m).lampSettled m before
    ShowFrame (s.modLamp m fun _ => x) t ∧ (x.state ≠ .dark → LampIs x (t.lamp m))
      ∧ (s.waitedOn (screenOf m) ≠ some m → LampIs x (t.lamp m)) := by
  obtain ⟨hlamp, hwaited⟩ := (s.modLamp m fun _ => x).shortfallTest_lamp m
  rw [State.modLamp_lamp, if_pos rfl] at hlamp
  refine ⟨(Reactions.lampSettled m before (Reactions.shortfallTest m (.refl' _))).frame,
    fun hlit => LampIs.lit hlamp hlit (LampHeld.lampSettled m before _), fun hwait => ?_⟩
  rw [State.lampSettled_unwaited (by rw [hwaited, State.modLamp_waitedOn]; exact hwait)]
  exact hlamp

theorem State.settled (x : LampRec) (before : LampState) :
    let t := (s.modLamp m fun _ => x).lampSettled m before
    ShowFrame (s.modLamp m fun _ => x) t ∧ (x.state ≠ .dark → LampIs x (t.lamp m))
      ∧ (s.waitedOn (screenOf m) ≠ some m → LampIs x (t.lamp m)) := by
  have hlamp : (s.modLamp m fun _ => x).lamp m = x := by rw [State.modLamp_lamp, if_pos rfl]
  refine ⟨(Reactions.lampSettled m before (.refl' _)).frame, fun hlit => ?_, fun hwait => ?_⟩
  · exact LampIs.lit (u := s.modLamp m fun _ => x) (by rw [hlamp]; rfl) hlit (LampHeld.lampSettled m before _)
  · rw [State.lampSettled_unwaited (by rw [State.modLamp_waitedOn]; exact hwait), hlamp]
    rfl

end

/-! ### Gates and measures -/

section

variable {m : MachineId} {s : State}

theorem State.lampNews_reactions (m : MachineId) (news : LampNews) (s : State) : Reactions s (s.lampNews m news) := by
  cases news with
  | quiet => exact .refl' s
  | struck attempt => exact .report _ (.shortfallTest m (.refl' s))
  | failed cause => exact .report _ (.refl' s)

theorem State.lampNews_lamp (m : MachineId) (news : LampNews) (s : State) :
    LampIs (s.lamp m) ((s.lampNews m news).lamp m) := by
  cases news with
  | quiet => rfl
  | struck attempt => exact (s.shortfallTest_lamp m).1
  | failed cause => rfl

/-- What an event of the lamp makes of it, of its reports and of the show (R61, R66, R67). -/
theorem State.lampEvent_done (f : LampRec → LampRec × LampNews) :
    let l := s.lamp m
    let u := f l
    let w := s.modLamp m fun _ => u.1
    let t := s.lampEvent m f
    ShowFrame w t ∧ (u.1.state ≠ .dark → LampIs u.1 (t.lamp m))
      ∧ (∀ j, j ≠ m → (t.lamp j).trim = (s.lamp j).trim ∧ (t.lamp j).consumed = (s.lamp j).consumed)
      ∧ (u.2 = .quiet → t = w.lampSettled m l.state)
      ∧ (∀ cause, u.2 = .failed cause → t = (w.report (.arcOut m cause)).lampSettled m l.state)
      ∧ ∀ attempt, u.2 = .struck attempt → s.reelTime m = none →
          t = (w.report (.strike m attempt u.1.forecast)).lampSettled m l.state := by
  intro l u w t
  have hlamp : w.lamp m = u.1 := by rw [State.modLamp_lamp, if_pos rfl]
  have hframe : ShowFrame w t := (Reactions.lampSettled m l.state (w.lampNews_reactions m u.2)).frame
  refine ⟨hframe, fun hlit => ?_, fun j hj => ?_, fun hnews => ?_, fun cause hnews => ?_, fun attempt hnews hreel => ?_⟩
  · have his := w.lampNews_lamp m u.2
    rw [hlamp] at his
    exact LampIs.lit his hlit (LampHeld.lampSettled m l.state _)
  · have hother : w.lamp j = s.lamp j := by rw [State.modLamp_lamp, if_neg hj]
    have hkept := hframe.lamp j
    rw [hother] at hkept
    exact ⟨hkept.trim, hkept.consumed⟩
  · change (w.lampNews m u.2).lampSettled m l.state = _
    rw [hnews]
    rfl
  · change (w.lampNews m u.2).lampSettled m l.state = _
    rw [hnews]
    rfl
  · change (w.lampNews m u.2).lampSettled m l.state = _
    have htest : w.shortfallTest m = w := State.shortfallTest_none ((State.modLamp_reelTime _).trans hreel)
    rw [hnews]
    change ((w.shortfallTest m).report (.strike m attempt (w.lamp m).forecast)).lampSettled m l.state = _
    rw [htest, hlamp]

end

/-- Settles O29: each event is the lamp's rule on its record, then its report and its posting. -/
theorem lampEventsComplete : Obligations.LampEventsComplete := by
  intro m count s hp l done
  have hdone : ∀ (c : Instr) (f : LampRec → LampRec × LampNews), exec c s = .next (s.lampEvent m f) → done c (f l) :=
    fun c f hexec => ⟨_, hexec, State.lampEvent_done f⟩
  exact ⟨hdone (.arcGate m count) (LampRec.takeGate (s.counted m count)) (congrArg Outcome.next (if_pos hp)),
    hdone (.touchMeasureExpiry m) LampRec.touchExpires (congrArg Outcome.next (if_pos hp)),
    hdone (.retractMeasureExpiry m) (fun l => (l.retractExpires, .quiet)) (congrArg Outcome.next (if_pos hp)),
    hdone (.pauseMeasureExpiry m) (fun l => (l.pauseExpires, .quiet)) (congrArg Outcome.next (if_pos hp)),
    hdone (.shortGapRetractExpiry m) (fun l => (l.shortGapExpires, .quiet)) (congrArg Outcome.next (if_pos hp))⟩

end Sys2Proof.Machine

/-! The feed encoder, the buckets, exhaustion and the shortfall report. -/

namespace Sys2Proof.Machine

open Sys2Proof Host

/-! ### Exhaustion (R75) -/

section

variable {m : MachineId} {s : State}

theorem LampRec.exhaustDue_iff (l : LampRec) :
    l.exhaustDue = true ↔ l.remaining = 0 ∧ (l.state = .burning ∨ l.state = .striking) := by
  simp [LampRec.exhaustDue]

theorem State.exhaustTest_due (h : (s.lamp m).exhaustDue = true) :
    s.exhaustTest m = (s.modLamp m LampRec.exhaust).report (.exhaust m) := if_pos h

theorem State.exhaustTest_not (h : (s.lamp m).exhaustDue = false) : s.exhaustTest m = s := by
  simp [State.exhaustTest, h]

theorem LampRec.exhaust_kept (l : LampRec) : LampKept l l.exhaust :=
  ⟨rfl, rfl, rfl, rfl, rfl, rfl, rfl, rfl, rfl, rfl, rfl, rfl⟩

theorem State.exhaustTest_frame (m : MachineId) (s : State) : ShowFrame s (s.exhaustTest m) := by
  rcases Bool.eq_false_or_eq_true (s.lamp m).exhaustDue with hdue | hdue
  · rw [State.exhaustTest_due hdue]
    have hrest : LampRested (s.lamp m) (s.lamp m).exhaust := fun hstate => by
      obtain ⟨-, h⟩ := (LampRec.exhaustDue_iff _).1 hdue
      obtain h | h := h <;> simp [h] at hstate
    exact (ShowFrame.ofLamp m _ s (LampRec.exhaust_kept _) hrest).trans (Reactions.report _ (.refl' _)).frame
  · rw [State.exhaustTest_not hdue]
    exact .refl s

theorem LampRec.exhaust_forecast {l : LampRec} (h : l.remaining = 0) : l.exhaust.forecast = 0 := by
  have hremaining : l.exhaust.remaining = 0 := h
  have hforecast : l.exhaust.forecast = min 65535 (l.exhaust.remaining * 60 / l.exhaust.rateInUse) := rfl
  rw [hforecast, hremaining]
  simp

/-- An exhausted lamp stands as its change is posted. -/
theorem State.exhausted_settled {x : LampRec} (hx : s.lamp m = x) (before : LampState) :
    (((s.modLamp m LampRec.exhaust).report (.exhaust m)).lampSettled m before).lamp m = x.exhaust := by
  have hlamp : ((s.modLamp m LampRec.exhaust).report (.exhaust m)).lamp m = x.exhaust := by
    rw [← hx]
    exact (State.modLamp_lamp m m LampRec.exhaust s).trans (if_pos rfl)
  rw [LampHeld.lampSettled m before _ (by rw [hlamp]; exact nofun), hlamp]

end

/-! ### The operands of LAMPSET -/

theorem settingForm_iff {w : Text} :
    settingForm w = true ↔ ∃ k t v, keyValue? w = some (k, t) ∧ number? t = some v := by
  simp only [settingForm, Option.isSome_iff_exists, Option.bind_eq_some_iff, Prod.exists]
  constructor
  · rintro ⟨v, k, t, hw, hv⟩
    exact ⟨k, t, v, hw, hv⟩
  · rintro ⟨k, t, v, hw, hv⟩
    exact ⟨v, k, t, hw, hv⟩

/-- A word that is not keyword=number is malformed. -/
theorem LampSettings.take_form {x : LampSettings} {w : Text} (h : settingForm w = false) : x.take w = .error .form := by
  unfold LampSettings.take
  cases hw : keyValue? w with
  | none => rfl
  | some kt =>
    obtain ⟨k, t⟩ := kt
    cases hv : number? t with
    | none => simp [hv]
    | some v => exact absurd (settingForm_iff.2 ⟨k, t, v, hw, hv⟩) (by simp [h])

theorem LampSettings.takeAll_forms {x y : LampSettings} {ws : List Text} (h : x.takeAll ws = .ok y) :
    ws.all settingForm = true := by
  induction ws generalizing x with
  | nil => rfl
  | cons w ws ih =>
    obtain ⟨z, hz, hrest⟩ := Except.bind_ok h
    have hw : settingForm w = true := Bool.of_not_eq_false fun hw => by
      rw [LampSettings.take_form hw] at hz
      cases hz
    rw [List.all_cons, hw, ih hrest]
    rfl

/-- Settings in their ranges are accepted (R82). -/
theorem parseLampset_ok {s : State} {m : MachineId} {a : Text} {ws : List Text} {x : LampSettings}
    (hm : s.namesMachine a m) (hne : ws ≠ []) (hx : LampSettings.empty.takeAll ws = .ok x) (hrange : x.inRange = true) :
    parseLampset s (a :: ws) = .ok (m, x) := by
  obtain ⟨i, hi, hmachine⟩ := machineOperand_of_namesMachine hm
  obtain ⟨w, ws, rfl⟩ := List.exists_cons_of_ne_nil hne
  simp [parseLampset, hi, hmachine, LampSettings.takeAll_forms hx, hx, hrange]

theorem exec_lampset_ok {s : State} {m : MachineId} {a : Text} {ws : List Text} {x : LampSettings}
    (hp : s.powered = true) (hm : s.namesMachine a m) (hne : ws ≠ []) (hx : LampSettings.empty.takeAll ws = .ok x)
    (hrange : x.inRange = true) :
    exec (.lampset (a :: ws)) s = .next ((((((s.taken (.lampset (a :: ws))).modLamp m
      (LampRec.withSettings x)).shortfallTest m).exhaustTest m).lampSettled m (s.lamp m).state).answer (.ok [])) := by
  have hparse : parseLampset (s.taken (.lampset (a :: ws))) (a :: ws) = .ok (m, x) := parseLampset_ok hm hne hx hrange
  change execLampset _ s = _
  simp only [execLampset, State.takeCommand_of_powered hp, hparse]
  rfl

/-! ### The statement -/

section

variable {m : MachineId} {s : State} (hp : s.powered = true)
include hp

theorem exec_feedEncoderPulse_wired {flowing : Bool} (hwired : s.wired m = true) :
    exec (.feedEncoderPulse m flowing) s = .next (s.encoderPulse m (s.sense m s.straps.encoderDirection flowing)) :=
  congrArg Outcome.next ((if_pos hp).trans (if_pos hwired))

theorem exec_feedEncoderPulse_unwired {flowing : Bool} (hwired : s.wired m = false) :
    exec (.feedEncoderPulse m flowing) s = .next s :=
  congrArg Outcome.next ((if_pos hp).trans (if_neg (by simp [hwired])))

theorem exec_bucketMeasureExpiry_runs (hburning : (s.lamp m).state = .burning)
    (hmeasure : (s.lamp m).bucketMeasure.isSome = true) :
    exec (.bucketMeasureExpiry m) s
      = .next (((s.modLamp m LampRec.bucketExpires).shortfallTest m).lampSettled m .burning) :=
  congrArg Outcome.next ((if_pos hp).trans (if_pos ⟨hburning, hmeasure⟩))

theorem exec_bucketMeasureExpiry_idle
    (h : ¬ ((s.lamp m).state = .burning ∧ (s.lamp m).bucketMeasure.isSome = true)) :
    exec (.bucketMeasureExpiry m) s = .next s := congrArg Outcome.next ((if_pos hp).trans (if_neg h))

omit hp in
/-- What an encoder pulse makes of the lamp (R74, R75). -/
theorem State.encoderPulse_done (forward : Bool) :
    let l := s.lamp m
    let u := l.encoderPulse forward
    let t := s.encoderPulse m forward
    ShowFrame (s.modLamp m fun _ => u) t ∧ (t.lamp m).consumed = u.consumed
      ∧ (u.remaining ≠ 0 → l.state ≠ .dark → LampIs u (t.lamp m))
      ∧ (u.remaining = 0 → l.state = .burning ∨ l.state = .striking →
          (t.lamp m) = u.exhaust
          ∧ t = (((s.modLamp m fun _ => u).modLamp m LampRec.exhaust).report (.exhaust m)).lampSettled m l.state) := by
  intro l u t
  have hlamp : (s.modLamp m fun _ => u).lamp m = u := by rw [State.modLamp_lamp, if_pos rfl]
  have hframe : ShowFrame (s.modLamp m fun _ => u) t :=
    (State.exhaustTest_frame m _).trans (Reactions.lampSettled m l.state (.refl' _)).frame
  have hconsumed := (hframe.lamp m).consumed
  rw [hlamp] at hconsumed
  refine ⟨hframe, hconsumed, fun hleft hlit => ?_, fun hempty hstate => ?_⟩
  · have hnot : u.exhaustDue = false := Bool.eq_false_iff.2 fun h => hleft ((LampRec.exhaustDue_iff u).1 h).1
    have ht : t = (s.modLamp m fun _ => u).lampSettled m l.state :=
      congrArg (State.lampSettled m l.state) (State.exhaustTest_not (s := s.modLamp m fun _ => u) (by rw [hlamp]; exact hnot))
    rw [ht]
    exact (State.settled u l.state).2.1 hlit
  · have hdue : u.exhaustDue = true := (LampRec.exhaustDue_iff u).2 ⟨hempty, hstate⟩
    have ht : t = (((s.modLamp m fun _ => u).modLamp m LampRec.exhaust).report (.exhaust m)).lampSettled m l.state :=
      congrArg (State.lampSettled m l.state) (State.exhaustTest_due (s := s.modLamp m fun _ => u) (by rw [hlamp]; exact hdue))
    refine ⟨?_, ht⟩
    rw [ht]
    exact State.exhausted_settled hlamp l.state

/-- The third PROVE gate that holds the arc, with reel time remaining (R66, R79). -/
theorem exec_arcGate_established {count left : Nat} (hreel : s.reelTime m = some left)
    (hstate : (s.lamp m).state = .striking) (hphase : (s.lamp m).phase = some .prove)
    (hgate : (s.lamp m).gate.isSome = true) (hthird : 3 ≤ (s.lamp m).proveGates + 1) (hheld : s.counted m count < 1000) :
    let l := s.lamp m
    let x := (l.takeGate (s.counted m count)).1
    exec (.arcGate m count) s = .next (((s.shortfallTested m x left).report
        (.strike m (if l.restrike = true then none else some l.attempt) x.forecast)).lampSettled m .striking)
      ∧ x.shortfallReported = l.shortfallReported := by
  intro l x
  have hcount : ¬ Config.arcOutCount ≤ (l.gateCounted (s.counted m count)).arcCount := by
    change ¬ 1000 ≤ min 1500 (s.counted m count)
    omega
  have htake : l.takeGate (s.counted m count) = (LampRec.established { l.gateCounted (s.counted m count) with
      feedForward := true, feedDuty := (l.gateCounted (s.counted m count)).regulationDuty, proveGates := l.proveGates + 1 }) := by
    rw [LampRec.takeGate_of_prove _ hgate hstate hphase, LampRec.proveGate]
    dsimp only
    rw [if_neg hcount]
    exact if_pos hthird
  have hnews : (l.takeGate (s.counted m count)).2 = .struck (if l.restrike = true then none else some l.attempt) := by
    rw [htake]
    rfl
  have hx : x = _ := congrArg Prod.fst htake
  have hburning : x.state = .burning := by rw [hx]; rfl
  have hlamp : (s.modLamp m fun _ => x).lamp m = x := by rw [State.modLamp_lamp, if_pos rfl]
  refine ⟨?_, by rw [hx]; rfl⟩
  have hexec : exec (.arcGate m count) s
      = .next (((s.modLamp m fun _ => x).lampNews m (l.takeGate (s.counted m count)).2).lampSettled m l.state) :=
    congrArg Outcome.next (if_pos hp)
  rw [hexec, hnews, show l.state = .striking from hstate]
  change Outcome.next ((((s.modLamp m fun _ => x).shortfallTest m).report
    (.strike m _ ((s.modLamp m fun _ => x).lamp m).forecast)).lampSettled m .striking) = _
  rw [State.shortfallTest_some hreel hburning, hlamp]

/-- A LAMPSET that leaves a BURNING lamp carbon, with reel time remaining (R79, R82). -/
theorem exec_lampset_tested {a : Text} {ws : List Text} {x : LampSettings} {left : Nat} (hm : s.namesMachine a m)
    (hne : ws ≠ []) (hx : LampSettings.empty.takeAll ws = .ok x) (hrange : x.inRange = true)
    (hreel : s.reelTime m = some left) (hburning : (s.lamp m).state = .burning)
    (hleft : ((s.lamp m).withSettings x).remaining ≠ 0) :
    exec (.lampset (a :: ws)) s = .next (((s.taken (.lampset (a :: ws))).shortfallTested m
      ((s.lamp m).withSettings x) left).answer (.ok [])) := by
  have hx' : ((s.lamp m).withSettings x).state = .burning := hburning
  have htested : ((s.taken (.lampset (a :: ws))).modLamp m (LampRec.withSettings x)).shortfallTest m
      = (s.taken (.lampset (a :: ws))).shortfallTested m ((s.lamp m).withSettings x) left :=
    State.shortfallTest_some (s := s.taken (.lampset (a :: ws))) (x := (s.lamp m).withSettings x) hreel hx'
  have hlamp := (((s.taken (.lampset (a :: ws))).modLamp m (LampRec.withSettings x)).shortfallTest_lamp m).1
  rw [State.modLamp_lamp, if_pos rfl, htested] at hlamp
  have hnot : (((s.taken (.lampset (a :: ws))).shortfallTested m ((s.lamp m).withSettings x) left).lamp m).exhaustDue
      = false := Bool.eq_false_iff.2 fun h => hleft (by
        have hzero := ((LampRec.exhaustDue_iff _).1 h).1
        rw [hlamp] at hzero
        exact hzero)
  rw [exec_lampset_ok hp hm hne hx hrange, htested, State.exhaustTest_not hnot,
    show (s.lamp m).state = ((s.lamp m).withSettings x).state from rfl]
  exact congrArg (fun t => Outcome.next (State.answer (.ok []) t))
    (State.lampSettled_tested (s := s.taken (.lampset (a :: ws))) hreel)

end

/-- Settles O31: a pulse moves the account and may exhaust the lamp; a bucket's end, a LAMPSET and an arc established
are tested for a shortfall. -/
theorem carbonEventsComplete : Obligations.CarbonEventsComplete := by
  intro m flowing s hp l forward u
  obtain ⟨hframe, hconsumed, hleft, hempty⟩ := State.encoderPulse_done (s := s) (m := m) forward
  have htested : ∀ (t : State) (x : LampRec) (left : Nat), x.shortfallReported = l.shortfallReported →
      t.shortfallTested m x left = if x.forecast < left ∧ l.shortfallReported = false then
        (t.modLamp m fun _ => { x with shortfallReported := true }).report (.carbon m x.forecast left)
      else t.modLamp m fun _ => x := fun t x left h => by rw [← h]; rfl
  have hbucket : l.state = .burning → l.bucketExpires.state = .burning := fun h => h
  refine ⟨exec_feedEncoderPulse_unwired hp, fun hwired => ⟨_, exec_feedEncoderPulse_wired hp hwired, hframe, hconsumed,
    hleft, fun hzero hstate => ?_⟩, exec_bucketMeasureExpiry_idle hp, fun hburning hmeasure => ?_, ?_⟩
  · obtain ⟨hlamp, ht⟩ := hempty hzero hstate
    refine ⟨?_, ?_, ?_, ?_, ?_, ?_, ?_, ?_, ht⟩
    case refine_8 =>
      rw [hlamp]
      exact LampRec.exhaust_forecast hzero
    all_goals
      rw [hlamp]
      rfl
  · obtain ⟨htframe, hlit, -⟩ := State.tested_settled (s := s) (m := m) l.bucketExpires .burning
    have hlen : (l.buckets ++ [(max 0 (l.openBucket.getD 0)).toNat]).length - 6 = l.buckets.length + 1 - 6 := by simp
    have his := hlit (by rw [hbucket hburning]; exact nofun)
    refine ⟨_, exec_bucketMeasureExpiry_runs hp hburning hmeasure, ?_, htframe⟩
    rw [← hlen]
    exact his
  · intro left hreel tested
    refine ⟨fun hburning hmeasure => ?_, fun a ws x hm hne hx hrange hburning hcarbon => ?_,
      fun count hstate hphase hgate hthird hheld => ?_⟩
    · have hsome : (s.modLamp m LampRec.bucketExpires).shortfallTest m = s.shortfallTested m l.bucketExpires left :=
        State.shortfallTest_some (x := l.bucketExpires) hreel (hbucket hburning)
      rw [exec_bucketMeasureExpiry_runs hp hburning hmeasure, hsome, ← hbucket hburning,
        State.lampSettled_tested hreel]
      exact congrArg Outcome.next (htested s l.bucketExpires left rfl)
    · rw [exec_lampset_tested hp hm hne hx hrange hreel hburning hcarbon]
      exact congrArg (fun t => Outcome.next (State.answer (.ok []) t)) (htested _ (l.withSettings x) left rfl)
    · obtain ⟨hexec, hreported⟩ := exec_arcGate_established hp hreel hstate hphase hgate hthird hheld
      rw [htested _ _ _ hreported] at hexec
      exact hexec

end Sys2Proof.Machine

/-! STRIKE, ARCOFF, TRIM and LAMPSET. -/

namespace Sys2Proof.Machine

open Sys2Proof Host

/-! ### The keywords of LAMPSET -/

/-- The settings of a lamp (R82). -/
inductive Setting | set | hold | gain | rate | stub | lead | res

/-- The setting of a keyword. -/
def settingOf? (k : Text) : Option Setting :=
  if k = txt "SET" then some .set
  else if k = txt "HOLD" then some .hold
  else if k = txt "GAIN" then some .gain
  else if k = txt "RATE" then some .rate
  else if k = txt "STUB" then some .stub
  else if k = txt "LEAD" then some .lead
  else if k = txt "RES" then some .res
  else none

/-- The value given to a setting. -/
def LampSettings.value (x : LampSettings) : Setting → Option Nat
  | .set => x.set
  | .hold => x.hold
  | .gain => x.gain
  | .rate => x.rate
  | .stub => x.stub
  | .lead => x.lead
  | .res => x.res

/-- A setting is given a value. -/
def LampSettings.give (x : LampSettings) (v : Nat) : Setting → LampSettings
  | .set => { x with set := some v }
  | .hold => { x with hold := some v }
  | .gain => { x with gain := some v }
  | .rate => { x with rate := some v }
  | .stub => { x with stub := some v }
  | .lead => { x with lead := some v }
  | .res => { x with res := some v }

theorem LampSettings.value_give_same (x : LampSettings) (v : Nat) (g : Setting) : (x.give v g).value g = some v := by
  cases g <;> rfl

/-- What a setting is given takes no value from another. -/
theorem LampSettings.value_of_give {x : LampSettings} {v : Nat} {g j : Setting} (h : (x.give v g).value j = none) :
    x.value j = none := by
  cases g <;> cases j <;> first | exact h | cases h

theorem settingOf_known {k : Text} {g : Setting} (h : settingOf? k = some g) :
    k ∈ [txt "SET", txt "HOLD", txt "GAIN", txt "RATE", txt "STUB", txt "LEAD", txt "RES"] := by
  unfold settingOf? at h
  split_ifs at h with h1 h2 h3 h4 h5 h6 h7 <;> simp [*]

/-- A setting not yet given takes its value; one given twice, and a keyword of no setting, is malformed. -/
theorem LampSettings.take_spelled {x : LampSettings} {w k t : Text} {v : Nat} (hw : keyValue? w = some (k, t))
    (hv : number? t = some v) : x.take w = match settingOf? k with
      | none => .error .form
      | some g => if (x.value g).isSome then .error .form else .ok (x.give v g) := by
  have honce : ∀ (old : Option Nat) (f : Option Nat → LampSettings),
      ((once old v).bind fun o => .ok (f o) : Except Reason LampSettings)
        = if old.isSome then .error .form else .ok (f (some v)) := by
    intro old f
    cases old <;> rfl
  simp only [LampSettings.take, hw, hv, formOf_some, ok_bind, settingOf?]
  split_ifs
  · exact honce x.set fun o => { x with set := o }
  · exact honce x.hold fun o => { x with hold := o }
  · exact honce x.gain fun o => { x with gain := o }
  · exact honce x.rate fun o => { x with rate := o }
  · exact honce x.stub fun o => { x with stub := o }
  · exact honce x.lead fun o => { x with lead := o }
  · exact honce x.res fun o => { x with res := o }
  · rfl

theorem LampSettings.take_given {x : LampSettings} {w k t : Text} {v : Nat} {g : Setting} (hw : keyValue? w = some (k, t))
    (hv : number? t = some v) (hk : settingOf? k = some g) (hnone : x.value g = none) : x.take w = .ok (x.give v g) := by
  rw [LampSettings.take_spelled hw hv, hk]
  simp [hnone]

theorem LampSettings.take_ok {x y : LampSettings} {w : Text} (h : x.take w = .ok y) :
    ∃ k t v g, keyValue? w = some (k, t) ∧ settingOf? k = some g ∧ x.value g = none ∧ y = x.give v g := by
  have hform : settingForm w = true := Bool.of_not_eq_false fun hw => by
    rw [LampSettings.take_form hw] at h
    cases h
  obtain ⟨k, t, v, hw, hv⟩ := settingForm_iff.1 hform
  rw [LampSettings.take_spelled hw hv] at h
  cases hk : settingOf? k with
  | none => simp [hk] at h
  | some g =>
    cases hg : x.value g with
    | some u => simp [hk, hg] at h
    | none => exact ⟨k, t, v, g, hw, hk, hg, by simpa [hk, hg] using h.symm⟩

theorem LampSettings.take_error {x : LampSettings} {w : Text} {r : Reason} (h : x.take w = .error r) : r = .form := by
  by_cases hform : settingForm w = true
  · obtain ⟨k, t, v, hw, hv⟩ := settingForm_iff.1 hform
    rw [LampSettings.take_spelled hw hv] at h
    split at h
    · exact (Except.error.inj h).symm
    · split at h
      · exact (Except.error.inj h).symm
      · cases h
  · rw [LampSettings.take_form (Bool.eq_false_iff.2 hform)] at h
    exact (Except.error.inj h).symm

theorem LampSettings.takeAll_error {x : LampSettings} {ws : List Text} {r : Reason} (h : x.takeAll ws = .error r) :
    r = .form := by
  induction ws generalizing x with
  | nil => cases h
  | cons w ws ih =>
    cases hw : x.take w with
    | error e =>
      rw [LampSettings.takeAll, hw, error_bind] at h
      exact (Except.error.inj h).symm.trans (LampSettings.take_error hw)
    | ok y =>
      rw [LampSettings.takeAll, hw, ok_bind] at h
      exact ih h

theorem LampSettings.takeAll_cons {x y : LampSettings} {w : Text} {ws : List Text} (h : x.take w = .ok y) :
    x.takeAll (w :: ws) = y.takeAll ws := by
  rw [LampSettings.takeAll, h, ok_bind]

/-- The keywords of the operands. -/
def keysOf (ws : List Text) : List Text := ws.filterMap fun w => (keyValue? w).map Prod.fst

theorem keysOf_cons {w k t : Text} {ws : List Text} (hw : keyValue? w = some (k, t)) : keysOf (w :: ws) = k :: keysOf ws := by
  simp [keysOf, hw]

/-- Operands that are taken have known keywords, none twice and none of a setting given before. -/
theorem LampSettings.takeAll_keys {x y : LampSettings} {ws : List Text} (h : x.takeAll ws = .ok y) :
    (∀ k ∈ keysOf ws, ∃ g, settingOf? k = some g ∧ x.value g = none) ∧ (keysOf ws).Nodup := by
  induction ws generalizing x with
  | nil => simp [keysOf]
  | cons w ws ih =>
    obtain ⟨z, hz, hrest⟩ := Except.bind_ok h
    obtain ⟨k, t, v, g, hw, hk, hnone, rfl⟩ := LampSettings.take_ok hz
    obtain ⟨hknown, hnodup⟩ := ih hrest
    rw [keysOf_cons hw]
    refine ⟨fun k' hk' => ?_, List.nodup_cons.2 ⟨fun hmem => ?_, hnodup⟩⟩
    · obtain rfl | hk' := List.mem_cons.1 hk'
      · exact ⟨g, hk, hnone⟩
      · obtain ⟨j, hj, hvalue⟩ := hknown k' hk'
        exact ⟨j, hj, LampSettings.value_of_give hvalue⟩
    · obtain ⟨j, hj, hvalue⟩ := hknown k hmem
      obtain rfl := Option.some.inj (hk.symm.trans hj)
      rw [LampSettings.value_give_same] at hvalue
      cases hvalue

/-- Operands that are not taken are malformed (R82). -/
theorem parseLampset_form {s : State} {m : MachineId} {a : Text} {ws : List Text} (hm : s.namesMachine a m)
    (h : ∀ x, LampSettings.empty.takeAll ws = .ok x → ws = []) : parseLampset s (a :: ws) = .error .form := by
  obtain ⟨i, hi, hmachine⟩ := machineOperand_of_namesMachine hm
  cases ws with
  | nil => rfl
  | cons w ws =>
    cases hall : (w :: ws).all settingForm with
    | false => simp only [parseLampset, hi, formOf_some, ok_bind, hall, need_false, error_bind]
    | true =>
      cases htaken : LampSettings.empty.takeAll (w :: ws) with
      | ok x => exact absurd (h x htaken) (by simp)
      | error r =>
        simp only [parseLampset, hi, formOf_some, ok_bind, hall, need_true, hmachine, htaken, error_bind,
          LampSettings.takeAll_error htaken]

/-- The seven settings, each given once. -/
theorem LampSettings.takeAll_seven (set hold gain rate stub lead res : Nat) :
    LampSettings.empty.takeAll [txt "SET=" ++ fNum set, txt "HOLD=" ++ fNum hold, txt "GAIN=" ++ fNum gain,
      txt "RATE=" ++ fNum rate, txt "STUB=" ++ fNum stub, txt "LEAD=" ++ fNum lead, txt "RES=" ++ fNum res]
      = .ok ⟨some set, some hold, some gain, some rate, some stub, some lead, some res⟩ := by
  have hgive : ∀ (x : LampSettings) (k : Text) (v : Nat) (g : Setting) (ws : List Text), '=' ∉ k → settingOf? k = some g →
      x.value g = none → x.takeAll ((k ++ txt "=" ++ fNum v) :: ws) = (x.give v g).takeAll ws :=
    fun x k v g ws hk hg hnone =>
      LampSettings.takeAll_cons (LampSettings.take_given (keyValue_append hk _) (number_fNum v) hg hnone)
  exact (hgive _ (txt "SET") set .set _ (by decide) rfl rfl).trans
    ((hgive _ (txt "HOLD") hold .hold _ (by decide) rfl rfl).trans
      ((hgive _ (txt "GAIN") gain .gain _ (by decide) rfl rfl).trans
        ((hgive _ (txt "RATE") rate .rate _ (by decide) rfl rfl).trans
          ((hgive _ (txt "STUB") stub .stub _ (by decide) rfl rfl).trans
            ((hgive _ (txt "LEAD") lead .lead _ (by decide) rfl rfl).trans
              (hgive _ (txt "RES") res .res _ (by decide) rfl rfl))))))

theorem LampSettings.inRange_seven (set hold gain rate stub lead res : Nat) :
    LampSettings.inRange ⟨some set, some hold, some gain, some rate, some stub, some lead, some res⟩ = true ↔
      400 ≤ set ∧ set ≤ 800 ∧ hold ≤ 255 ∧ 1 ≤ gain ∧ gain ≤ 32 ∧ 20 ≤ rate ∧ rate ≤ 600 ∧ 20 ≤ stub ∧ stub ≤ 100
        ∧ 20 ≤ lead ∧ lead ≤ 180 ∧ res ≤ 300 := by
  simp only [LampSettings.inRange, within, Bool.and_eq_true, decide_eq_true_eq]
  omega

/-! ### STRIKE -/

section

variable {s : State} {m : MachineId} {a : Text} (hp : s.powered = true) (hm : s.namesMachine a m)
include hp hm

theorem exec_strike_begins (hfire : (s.machine m).holds.fire = false) (hdark : (s.lamp m).state = .dark)
    (hcarbon : (s.lamp m).remaining ≠ 0) :
    ∃ u, exec (.strike [a]) s = .next (u.answer (.ok [])) ∧ u.lamp m = (s.lamp m).beginStrike
      ∧ ShowFrame ((s.taken (.strike [a])).modLamp m LampRec.beginStrike) u := by
  have hparse : parseStrike (s.taken (.strike [a])) [a] = .ok m := by
    have hnone : strikeDecline ((s.taken (.strike [a])).machine m).holds.fire ((s.taken (.strike [a])).lamp m) = none := by
      change strikeDecline (s.machine m).holds.fire (s.lamp m) = none
      simp [strikeDecline, hfire, hdark, hcarbon]
    have hone : onlyMachine (s.taken (.strike [a])) [a] = .ok m := onlyMachine_of_namesMachine hm
    simp only [parseStrike, hone, ok_bind, hnone]
    rfl
  have hlamp : ((s.taken (.strike [a])).modLamp m LampRec.beginStrike).lamp m = (s.lamp m).beginStrike :=
    (State.modLamp_lamp m m _ _).trans (if_pos rfl)
  refine ⟨((s.taken (.strike [a])).modLamp m LampRec.beginStrike).lampSettled m (s.lamp m).state, ?_, ?_,
    (Reactions.lampSettled m _ (.refl' _)).frame⟩
  · change execStrike _ s = _
    simp only [execStrike, State.takeCommand_of_powered hp, hparse]
    rfl
  · rw [LampHeld.lampSettled m _ _ (by rw [hlamp]; exact nofun), hlamp]

theorem exec_strike_trip (hfire : (s.machine m).holds.fire = true) :
    exec (.strike [a]) s = .next (s.answered (.strike [a]) (.no .trip)) := by
  refine exec_refused hp (reasonOf_eq_some.2 ?_)
  simp [parseStrike, onlyMachine_of_namesMachine hm, strikeDecline, hfire]

theorem exec_strike_state (hfire : (s.machine m).holds.fire = false)
    (h : (s.lamp m).state ≠ .dark ∨ (s.lamp m).remaining = 0) :
    exec (.strike [a]) s = .next (s.answered (.strike [a]) (.no .state)) := by
  refine exec_refused hp (reasonOf_eq_some.2 ?_)
  by_cases hdark : (s.lamp m).state = .dark
  · simp [parseStrike, onlyMachine_of_namesMachine hm, strikeDecline, hfire, hdark, h.resolve_left (not_not.2 hdark)]
  · simp [parseStrike, onlyMachine_of_namesMachine hm, strikeDecline, hfire, hdark]

/-! ### ARCOFF, TRIM and LAMPSET -/

/-- What ARCOFF, TRIM and LAMPSET do: the record `v` is written, the change posted, OK answered. -/
def LampWritten (s : State) (m : MachineId) (c : Instr) (v : LampRec) : Prop :=
  ∃ u, exec c s = .next (u.answer (.ok [])) ∧ ShowFrame ((s.taken c).modLamp m fun _ => v) u
    ∧ (s.waitedOn (screenOf m) ≠ some m → LampIs v (u.lamp m))

theorem exec_arcoff_writes : LampWritten s m (.arcoff [a]) (s.lamp m).arcOff := by
  have hone : onlyMachine (s.taken (.arcoff [a])) [a] = .ok m := onlyMachine_of_namesMachine hm
  obtain ⟨hframe, -, hlamp⟩ := State.settled (s := s.taken (.arcoff [a])) (m := m) (s.lamp m).arcOff (s.lamp m).state
  refine ⟨_, ?_, hframe, hlamp⟩
  change execArcoff _ s = _
  simp only [execArcoff, State.takeCommand_of_powered hp, hone]
  rfl

theorem exec_trim_writes {w : Text} {mm : Nat} (hmm : number? w = some mm) (hlow : 50 ≤ mm) (hhigh : mm ≤ 600)
    (hopen : (s.lamp m).contactorClosed = false) (hstate : (s.lamp m).state ≠ .striking) :
    LampWritten s m (.trim [a, w]) ((s.lamp m).newTrim mm) := by
  obtain ⟨i, hi, hmachine⟩ := machineOperand_of_namesMachine hm
  have hmachine' : machineOperand (s.taken (.trim [a, w])) i = .ok m := hmachine
  have htest : (!((s.taken (.trim [a, w])).lamp m).contactorClosed
      && ((s.taken (.trim [a, w])).lamp m).state != .striking) = true := by
    change (!(s.lamp m).contactorClosed && (s.lamp m).state != .striking) = true
    rw [hopen, bne_iff_ne.2 hstate]
    rfl
  have hrange : (decide (50 ≤ mm) && decide (mm ≤ 600)) = true := by simp [hlow, hhigh]
  have hparse : parseTrim (s.taken (.trim [a, w])) [a, w] = .ok (m, mm) := by
    simp only [parseTrim, hi, hmm, formOf_some, ok_bind, hmachine', hrange, htest, need_true, pure_ok]
  obtain ⟨hframe, -, hlamp⟩ := State.tested_settled (s := s.taken (.trim [a, w])) (m := m) ((s.lamp m).newTrim mm)
    (s.lamp m).state
  refine ⟨_, ?_, hframe, hlamp⟩
  change execTrim _ s = _
  simp only [execTrim, State.takeCommand_of_powered hp, hparse]
  rfl

theorem exec_trim_range {w : Text} {mm : Nat} (hmm : number? w = some mm) (hout : mm < 50 ∨ 600 < mm) :
    exec (.trim [a, w]) s = .next (s.answered (.trim [a, w]) (.no .range)) := by
  obtain ⟨i, hi, hmachine⟩ := machineOperand_of_namesMachine hm
  have hrange : (decide (50 ≤ mm) && decide (mm ≤ 600)) = false := by
    rw [Bool.and_eq_false_iff, decide_eq_false_iff_not, decide_eq_false_iff_not]
    omega
  refine exec_refused hp (reasonOf_eq_some.2 ?_)
  simp only [parseTrim, hi, hmm, formOf_some, ok_bind, hmachine, hrange, need_false, error_bind]

theorem exec_trim_state {w : Text} {mm : Nat} (hmm : number? w = some mm) (hlow : 50 ≤ mm) (hhigh : mm ≤ 600)
    (hlit : (s.lamp m).contactorClosed = true ∨ (s.lamp m).state = .striking) :
    exec (.trim [a, w]) s = .next (s.answered (.trim [a, w]) (.no .state)) := by
  obtain ⟨i, hi, hmachine⟩ := machineOperand_of_namesMachine hm
  have htest : (!(s.lamp m).contactorClosed && (s.lamp m).state != .striking) = false := by
    obtain h | h := hlit <;> simp [h]
  refine exec_refused hp (reasonOf_eq_some.2 ?_)
  simp [parseTrim, hi, hmm, hmachine, hlow, hhigh, htest]

theorem exec_lampset_range {ws : List Text} {x : LampSettings} (hne : ws ≠ [])
    (hx : LampSettings.empty.takeAll ws = .ok x) (hout : x.inRange = false) :
    exec (.lampset (a :: ws)) s = .next (s.answered (.lampset (a :: ws)) (.no .range)) := by
  obtain ⟨i, hi, hmachine⟩ := machineOperand_of_namesMachine hm
  obtain ⟨w, ws, rfl⟩ := List.exists_cons_of_ne_nil hne
  refine exec_refused hp (reasonOf_eq_some.2 ?_)
  simp [parseLampset, hi, hmachine, LampSettings.takeAll_forms hx, hx, hout]

theorem exec_lampset_writes {ws : List Text} {x : LampSettings} (hne : ws ≠ [])
    (hx : LampSettings.empty.takeAll ws = .ok x) (hrange : x.inRange = true)
    (hleft : ¬ (((s.lamp m).withSettings x).remaining = 0 ∧ ((s.lamp m).state = .burning ∨ (s.lamp m).state = .striking))) :
    LampWritten s m (.lampset (a :: ws)) ((s.lamp m).withSettings x) := by
  obtain ⟨hframe, -, hlamp⟩ := State.tested_settled (s := s.taken (.lampset (a :: ws))) (m := m)
    ((s.lamp m).withSettings x) (s.lamp m).state
  refine ⟨_, ?_, hframe, hlamp⟩
  have his := (((s.taken (.lampset (a :: ws))).modLamp m (LampRec.withSettings x)).shortfallTest_lamp m).1
  rw [State.modLamp_lamp, if_pos rfl] at his
  have hnot : ((((s.taken (.lampset (a :: ws))).modLamp m (LampRec.withSettings x)).shortfallTest m).lamp m).exhaustDue
      = false := Bool.eq_false_iff.2 fun h => hleft (by
        have hdue := (LampRec.exhaustDue_iff _).1 h
        rw [his] at hdue
        exact hdue)
  rw [exec_lampset_ok hp hm hne hx hrange, State.exhaustTest_not hnot]
  rfl

theorem exec_lampset_exhausts {ws : List Text} {x : LampSettings} (hne : ws ≠ [])
    (hx : LampSettings.empty.takeAll ws = .ok x) (hrange : x.inRange = true)
    (hempty : ((s.lamp m).withSettings x).remaining = 0)
    (hstate : (s.lamp m).state = .burning ∨ (s.lamp m).state = .striking) :
    let u := ((((((s.taken (.lampset (a :: ws))).modLamp m (LampRec.withSettings x)).shortfallTest m).modLamp m
      LampRec.exhaust).report (.exhaust m)).lampSettled m (s.lamp m).state)
    exec (.lampset (a :: ws)) s = .next (u.answer (.ok []))
      ∧ ∃ b, u.lamp m = { (s.lamp m).withSettings x with shortfallReported := b }.exhaust := by
  have his := (((s.taken (.lampset (a :: ws))).modLamp m (LampRec.withSettings x)).shortfallTest_lamp m).1
  rw [State.modLamp_lamp, if_pos rfl] at his
  have hdue : ((((s.taken (.lampset (a :: ws))).modLamp m (LampRec.withSettings x)).shortfallTest m).lamp m).exhaustDue
      = true := (LampRec.exhaustDue_iff _).2 (by
        rw [his]
        exact ⟨hempty, hstate⟩)
  refine ⟨by rw [exec_lampset_ok hp hm hne hx hrange, State.exhaustTest_due hdue], _, State.exhausted_settled his _⟩

end

theorem LampRec.arcOff_burning {l : LampRec} (h : l.state = .burning) :
    l.arcOff = ({ l.stopMeasures.openContactor.discardBucket with state := .dark } : LampRec).recompute := by
  simp only [LampRec.arcOff, LampRec.putOut, h]

theorem LampRec.arcOff_striking {l : LampRec} (h : l.state = .striking) :
    l.arcOff = ({ l.stopMeasures.openContactor with state := .dark, phase := none, attempt := 0, restrike := false }
      : LampRec).recompute := by
  simp only [LampRec.arcOff, LampRec.putOut, h]

theorem LampRec.arcOff_fault {l : LampRec} (h : l.state = .fault) :
    l.arcOff = { l with state := .dark, faultCause := none } := by
  simp only [LampRec.arcOff, h]

theorem LampRec.arcOff_out {l : LampRec} (h : l.state = .dark ∨ l.state = .exhausted) : l.arcOff = l := by
  obtain h | h := h <;> simp only [LampRec.arcOff, LampRec.putOut, h]

/-! ### Malformed operands and machines that there are not -/

section

variable {s : State} (hp : s.powered = true)
include hp

theorem exec_trim_form {ops : List Text}
    (h : ¬ ∃ a w n k, ops = [a, w] ∧ number? a = some n ∧ number? w = some k) :
    exec (.trim ops) s = .next (s.answered (.trim ops) (.no .form)) := by
  refine exec_refused hp (reasonOf_eq_some.2 ?_)
  match ops with
  | [] | [_] | _ :: _ :: _ :: _ => rfl
  | [a, w] =>
    cases hn : number? a with
    | none => simp [parseTrim, hn]
    | some n =>
      cases hk : number? w with
      | none => simp [parseTrim, hn, hk]
      | some k => exact absurd ⟨a, w, n, k, rfl, hn, hk⟩ h

theorem exec_lampset_form {a : Text} {ws : List Text}
    (h : number? a = none ∨ ws = [] ∨ ∃ w ∈ ws, settingForm w = false) :
    exec (.lampset (a :: ws)) s = .next (s.answered (.lampset (a :: ws)) (.no .form)) := by
  refine exec_refused hp (reasonOf_eq_some.2 ?_)
  cases ws with
  | nil => rfl
  | cons w ws =>
    cases hn : number? a with
    | none => simp [parseLampset, hn]
    | some n =>
      obtain h | h | ⟨v, hv, hform⟩ := h
      · simp [hn] at h
      · simp at h
      · have hall : (w :: ws).all settingForm = false := List.all_eq_false.2 ⟨v, hv, by simp [hform]⟩
        simp only [parseLampset, hn, formOf_some, ok_bind, hall, need_false, error_bind]

theorem lamp_commands_range {a : Text} {n : Nat} (hn : number? a = some n)
    (hout : n < 1 ∨ 4 < n ∨ (3 ≤ n ∧ s.straps.screen2Fitted = false)) :
    let range := fun c => exec c s = .next (s.answered c (.no .range))
    range (.strike [a]) ∧ range (.arcoff [a]) ∧ range (.lstat [a])
      ∧ (∀ w k, number? w = some k → range (.trim [a, w]))
      ∧ ∀ ws, ws ≠ [] → (∀ w ∈ ws, settingForm w = true) → range (.lampset (a :: ws)) := by
  have hrange := machineOperand_range hout
  have hone := onlyMachine_range hn hrange
  refine ⟨exec_refused hp (reasonOf_eq_some.2 ?_), exec_refused hp (reasonOf_eq_some.2 hone),
    exec_refused hp (reasonOf_eq_some.2 hone), fun w k hk => exec_refused hp (reasonOf_eq_some.2 ?_),
    fun ws hne hforms => exec_refused hp (reasonOf_eq_some.2 ?_)⟩
  · simp [parseStrike, hone]
  · simp [parseTrim, hn, hk, hrange]
  · obtain ⟨w, ws, rfl⟩ := List.exists_cons_of_ne_nil hne
    have hall : (w :: ws).all settingForm = true := List.all_eq_true.2 hforms
    simp only [parseLampset, hn, formOf_some, ok_bind, hall, need_true, hrange, error_bind]

end

/-- Settles O32: each command's operands are read and tested; the lamp's record is written, tested for a shortfall and
for exhaustion, and posted. -/
theorem strikeAndLampCommandsComplete : Obligations.StrikeAndLampCommandsComplete := by
  refine ⟨fun m a s hp hm => ⟨exec_strike_begins hp hm, exec_strike_trip hp hm, exec_strike_state hp hm⟩, ?_,
    fun s hp => ⟨fun ops h => ?_, fun ops => exec_trim_form hp, ?_, fun a ws => exec_lampset_form hp,
      fun a n hn hout => lamp_commands_range hp hn hout⟩⟩
  · intro m a s hp hm l done out
    have harcoff : done (.arcoff [a]) l.arcOff := exec_arcoff_writes hp hm
    refine ⟨fun h => ?_, fun h => ?_, fun h => ?_, fun h => ?_,
      fun w mm hmm hlow hhigh hopen hstate => exec_trim_writes hp hm hmm hlow hhigh hopen hstate,
      fun w mm hmm hout => exec_trim_range hp hm hmm hout,
      fun w mm hmm hlow hhigh hlit => exec_trim_state hp hm hmm hlow hhigh hlit, ?_,
      fun ws x hne hx hout => exec_lampset_range hp hm hne hx hout, fun ws x hne hx hrange hempty hstate => ?_,
      fun ws x hne hx hrange hleft => exec_lampset_writes hp hm hne hx hrange hleft,
      fun set hold gain rate stub lead res => ⟨LampSettings.takeAll_seven .., LampSettings.inRange_seven ..⟩⟩
    · rw [LampRec.arcOff_burning h] at harcoff
      exact harcoff
    · rw [LampRec.arcOff_striking h] at harcoff
      exact harcoff
    · rw [LampRec.arcOff_fault h] at harcoff
      exact harcoff
    · rw [LampRec.arcOff_out h] at harcoff
      exact harcoff
    · intro ws keys h
      refine exec_refused hp (reasonOf_eq_some.2 (parseLampset_form hm fun x hx => ?_))
      obtain ⟨hknown, hnodup⟩ := LampSettings.takeAll_keys hx
      obtain h | ⟨k, hk, hunknown⟩ | h := h
      · exact h
      · obtain ⟨g, hg, -⟩ := hknown k hk
        exact absurd (settingOf_known hg) hunknown
      · exact absurd hnodup h
    · obtain ⟨hexec, b, hlamp⟩ := exec_lampset_exhausts hp hm hne hx hrange hempty hstate
      refine ⟨_, hexec, rfl, ?_⟩
      rw [hlamp]
      exact ⟨rfl, rfl, rfl, rfl, rfl, rfl, rfl, LampRec.exhaust_forecast hempty, rfl, rfl, rfl, rfl, rfl, rfl, rfl⟩
  · have hone := onlyMachine_form (s := s) h
    exact ⟨exec_refused hp (reasonOf_eq_some.2 (by simp [parseStrike, hone])),
      exec_refused hp (reasonOf_eq_some.2 hone), exec_refused hp (reasonOf_eq_some.2 hone)⟩
  · exact exec_refused hp (reasonOf_eq_some.2 (show parseLampset s [] = .error .form from rfl))

end Sys2Proof.Machine

/-! The lamp's record in a strike and in BURNING: its gates and its measures. -/

namespace Sys2Proof.Machine

open Sys2Proof Host

/-! ### A strike -/

section

variable {l : LampRec} {count : Nat}

theorem LampRec.takeGate_touch (hstate : l.state = .striking) (hgate : l.gate.isSome = true) (hphase : l.phase = some .feed)
    (hcount : count ≤ 50) : l.takeGate count = ((l.gateCounted count).touchFound, .quiet) := by
  obtain ⟨g, hg⟩ := Option.isSome_iff_exists.mp hgate
  have htouch : min Config.maxArcCount count ≤ Config.touchCount := by simp only [Config.touchCount]; omega
  simp only [LampRec.takeGate, LampRec.gateCounted, hg, hstate, hphase, if_pos htouch]

theorem LampRec.takeGate_open (hstate : l.state = .striking) (hgate : l.gate.isSome = true) (hphase : l.phase = some .feed)
    (hcount : 50 < count) : l.takeGate count = (l.gateCounted count, .quiet) := by
  obtain ⟨g, hg⟩ := Option.isSome_iff_exists.mp hgate
  have htouch : ¬ min Config.maxArcCount count ≤ Config.touchCount := by
    simp only [Config.touchCount, Config.maxArcCount]
    omega
  simp only [LampRec.takeGate, LampRec.gateCounted, hg, hstate, hphase, if_neg htouch]

/-- The record of a PROVE gate before it is judged. -/
def LampRec.proved (l : LampRec) : LampRec :=
  { l with feedForward := true, feedDuty := l.regulationDuty, proveGates := l.proveGates + 1 }

theorem LampRec.proveGate_lost (h : 1000 ≤ l.arcCount) : l.proveGate = l.proved.attemptFails := if_pos h

theorem LampRec.proveGate_early (h : l.arcCount < 1000) (hearly : l.proveGates + 1 < 3) :
    l.proveGate = (l.proved, .quiet) := by
  have hheld : ¬ Config.arcOutCount ≤ l.arcCount := by simp only [Config.arcOutCount]; omega
  exact (if_neg hheld).trans (if_neg (by omega))

theorem LampRec.proveGate_third (h : l.arcCount < 1000) (hthird : 3 ≤ l.proveGates + 1) :
    l.proveGate = l.proved.established := by
  have hheld : ¬ Config.arcOutCount ≤ l.arcCount := by simp only [Config.arcOutCount]; omega
  exact (if_neg hheld).trans (if_pos hthird)

theorem LampRec.takeGate_late (hgate : l.gate = none) : l.takeGate count = (l.takeLateGate count, .quiet) := by
  simp only [LampRec.takeGate, hgate]

theorem LampRec.takeLateGate_none (h : l.lateGate = false) : l.takeLateGate count = l := by
  simp [LampRec.takeLateGate, h]

theorem LampRec.takeLateGate_some (h : l.lateGate = true) :
    l.takeLateGate count = { l with arcCount := min 1500 count, lateGate := false } := if_pos h

/-! ### BURNING -/

/-- A gate of BURNING, its runs counted and its order formed. -/
def LampRec.regulated (l : LampRec) : LampRec :=
  { l with
    feedForward := true
    feedDuty := l.regulationDuty
    shortGapRun := if l.arcCount ≤ 200 then l.shortGapRun + 1 else 0
    arcOutRun := if 1000 ≤ l.arcCount then l.arcOutRun + 1 else 0 }

theorem LampRec.burningGate_steady (hgap : l.regulated.shortGapRun < 3) (harc : l.regulated.arcOutRun < 3) :
    l.burningGate = l.regulated := (if_neg (Nat.not_le.2 hgap)).trans (if_neg (Nat.not_le.2 harc))

theorem LampRec.burningGate_gap (hgap : 3 ≤ l.regulated.shortGapRun) :
    l.burningGate = l.regulated.retractShortGap := if_pos hgap

theorem LampRec.burningGate_arc (hgap : l.regulated.shortGapRun < 3) (harc : 3 ≤ l.regulated.arcOutRun) :
    l.burningGate = l.regulated.arcGoesOut := (if_neg (Nat.not_le.2 hgap)).trans (if_pos harc)

/-- The re-strike of an arc that is out, its account as it stands (R71). -/
theorem LampRec.arcGoesOut_eq (l : LampRec) : l.arcGoesOut =
    { l with
      shortGapRun := 0, arcOutRun := 0, state := .striking, restrike := true, attempt := 1, phase := some .feed,
      proveGates := 0, feedForward := true, feedDuty := 255, touchMeasure := some 0, retractMeasure := none,
      pauseMeasure := none, shortGapRetract := none, contactorClosed := true, gate := some 0, lateGate := false,
      openBucket := none, bucketMeasure := none, forecast := l.forecastNow
      carbonOk := l.boundLength.map fun len => decide (l.need len ≤ l.forecastNow) } := rfl

end

/-- Settles O27: the rule of each state and phase, written out on the record. -/
theorem strikeAndBurningGates : Obligations.StrikeAndBurningGates := by
  refine ⟨?_, ?_⟩
  · intro l count hstate x out begun
    have hprove : l.gate.isSome = true → l.phase = some .prove → l.takeGate count = (l.gateCounted count).proveGate :=
      fun hgate hphase => LampRec.takeGate_of_prove count hgate hstate hphase
    have hlost : 1000 ≤ count → 1000 ≤ (l.gateCounted count).arcCount := fun h => by
      change 1000 ≤ min 1500 count
      omega
    have hheld : count < 1000 → (l.gateCounted count).arcCount < 1000 := fun h => by
      change min 1500 count < 1000
      omega
    refine ⟨fun hgate hphase hcount => LampRec.takeGate_touch hstate hgate hphase hcount,
      fun hgate hphase hcount => LampRec.takeGate_open hstate hgate hphase hcount,
      fun hgate hphase hcount => (hprove hgate hphase).trans (LampRec.proveGate_lost (hlost hcount)),
      fun hgate hphase hcount hearly => (hprove hgate hphase).trans (LampRec.proveGate_early (hheld hcount) hearly),
      fun hgate hphase hcount hthird => ⟨_, _, (hprove hgate hphase).trans
        (LampRec.proveGate_third (hheld hcount) hthird), rfl, rfl⟩,
      fun hgate hlate => (LampRec.takeGate_late hgate).trans (by rw [LampRec.takeLateGate_none hlate]),
      fun hgate hlate => (LampRec.takeGate_late hgate).trans (by rw [LampRec.takeLateGate_some hlate]),
      fun hre => if_pos hre, fun hre hfew => (if_neg (by simp [hre])).trans (if_pos hfew),
      fun hre hmany => (if_neg (by simp [hre])).trans (if_neg (Nat.not_lt.2 hmany)),
      fun hphase hmeasure => if_pos ⟨hstate, hphase, hmeasure⟩, fun dt hdt => ?_, ?_,
      fun hphase hmeasure => if_pos ⟨hstate, hphase, hmeasure⟩, fun hphase hmeasure => ?_⟩
    · simp [LampRec.elapse, hdt.ne']
    · simp [LampRec.elapse]
    · exact (if_pos ⟨hstate, hphase, hmeasure⟩).trans (by simp only [begun, LampRec.beginAttempt, LampRec.stopMeasures, hstate])
  · intro l count hstate n a b x
    have hburning : l.gate.isSome = true → l.takeGate count = ((l.gateCounted count).burningGate, .quiet) :=
      fun hgate => LampRec.takeGate_of_burning count hgate hstate
    refine ⟨fun hgate hgap harc => ?_, fun hgate hgap => ?_, fun hgate hgap harc => ?_,
      fun hgate hlate => (LampRec.takeGate_late hgate).trans (by rw [LampRec.takeLateGate_none hlate]),
      fun hmeasure => if_pos ⟨hstate, hmeasure⟩⟩
    · exact (hburning hgate).trans (by rw [LampRec.burningGate_steady (l := l.gateCounted count) hgap harc]; rfl)
    · exact (hburning hgate).trans (by rw [LampRec.burningGate_gap (l := l.gateCounted count) hgap]; rfl)
    · refine ⟨l.forecastNow, l.boundLength.map fun len => decide (l.need len ≤ l.forecastNow), ?_, rfl, rfl⟩
      rw [hburning hgate, LampRec.burningGate_arc (l := l.gateCounted count) hgap harc, LampRec.arcGoesOut_eq]
      rfl

end Sys2Proof.Machine

/-! The line that spells a console command: its words, its command, and its characters received one by one. -/

namespace Sys2Proof.Machine

open Sys2Proof Host

/-! ### The words of a line -/

theorem wordsFrom_append {w : Text} (h : ' ' ∉ w) (acc rest : Text) :
    wordsFrom acc (w ++ rest) = wordsFrom (w.reverse ++ acc) rest := by
  induction w generalizing acc with
  | nil => rfl
  | cons c w ih =>
    obtain ⟨hc, hw⟩ : ' ' ≠ c ∧ ' ' ∉ w := by simpa using h
    simp [wordsFrom, hc.symm, ih hw]

theorem wordsOf_joinBy {ws : List Text} (h : ∀ w ∈ ws, w ≠ [] ∧ ' ' ∉ w) : wordsOf (joinBy ' ' ws) = ws := by
  induction ws with
  | nil => rfl
  | cons w ws ih =>
    obtain ⟨hne, hw⟩ := h w (by simp)
    have hrest : wordsOf (joinBy ' ' ws) = ws := ih fun v hv => h v (by simp [hv])
    cases ws with
    | nil =>
      have hword : joinBy ' ' [w] = w ++ [] := by simp [joinBy]
      rw [wordsOf, hword, wordsFrom_append hw]
      simp [wordsFrom, hne]
    | cons v vs =>
      rw [wordsOf, joinBy, wordsFrom_append hw]
      · simp [wordsFrom, hne]
        exact hrest
      · simp

theorem joinBy_length (ws : List Text) (h : ws ≠ []) : (joinBy ' ' ws).length + 1 = spacedLength ws := by
  induction ws with
  | nil => exact absurd rfl h
  | cons w ws ih =>
    cases ws with
    | nil => simp [joinBy, spacedLength]
    | cons v vs =>
      have hlen := ih (by simp)
      simp only [spacedLength, List.map_cons, List.sum_cons] at hlen ⊢
      rw [joinBy]
      · simp only [List.length_append, List.length_cons]
        omega
      · simp

theorem joinBy_printable {ws : List Text} (h : ∀ w ∈ ws, wellFormedWord w = true) :
    ∀ c ∈ joinBy ' ' ws, printable c = true := by
  induction ws with
  | nil => simp [joinBy]
  | cons w ws ih =>
    have hw : ∀ c ∈ w, printable c = true := fun c hc => by
      have hword := h w (by simp)
      simp only [wellFormedWord, Bool.and_eq_true, List.all_eq_true] at hword
      exact (hword.2 c hc).1
    cases ws with
    | nil => simpa [joinBy] using hw
    | cons v vs =>
      rw [joinBy]
      · intro c hc
        obtain hc | hc := List.mem_append.1 hc
        · exact hw c hc
        · obtain rfl | hc := List.mem_cons.1 hc
          · decide
          · exact ih (fun u hu => h u (by simp [hu])) c hc
      · simp

/-! ### A sendable command -/

/-- Its operand words are words, leave its verb to it, and fit the line with it. -/
theorem Instr.wellFormed_words {i : Instr} {ws : List Text} (h : i.wellFormed = true) (ho : i.operands? = some ws) :
    (∀ w ∈ ws, wellFormedWord w = true) ∧ i.operandsFit ws = true ∧ spacedLength (i.verbWords ++ ws) ≤ 73 := by
  unfold Instr.wellFormed at h
  split at h
  · simp [Instr.operands?] at ho
  · simp [Instr.operands?] at ho
  · rw [ho] at h
    simp only [Bool.and_eq_true, List.all_eq_true, decide_eq_true_eq] at h
    exact ⟨h.1.1, h.1.2, h.2⟩

theorem Instr.verbWords_wellFormed (i : Instr) : ∀ w ∈ i.verbWords, wellFormedWord w = true := by
  cases i <;> (simp only [Instr.verbWords]; decide)

/-- The verb and its operands spell the command (Table 9-5, R161). -/
theorem commandOf_words {i : Instr} {ws : List Text} (ho : i.operands? = some ws) (hfit : i.operandsFit ws = true) :
    ∃ verb ops, i.verbWords ++ ws = verb :: ops ∧ commandOf? verb ops = some i := by
  cases i
  case resetM ops =>
    obtain rfl := Option.some.inj ho
    refine ⟨txt "RESET", ops, rfl, ?_⟩
    cases ops with
    | nil => rfl
    | cons w rest =>
      have hne : ¬ w = txt "BOOTH" := by simpa [Instr.operandsFit] using hfit
      exact if_neg hne
  all_goals first
    | (cases ho; done)
    | (obtain rfl := Option.some.inj ho
       exact ⟨_, _, rfl, rfl⟩)

section

variable {i : Instr} (h : i.wellFormed = true) (ho : i.operands?.isSome = true)
include h ho

theorem Instr.line_words :
    ∃ verb ops, wordsOf i.line = verb :: ops ∧ commandOf? verb ops = some i
      ∧ i.line.length ≤ 72 ∧ ∀ c ∈ i.line, printable c = true := by
  obtain ⟨ws, hws⟩ := Option.isSome_iff_exists.1 ho
  obtain ⟨hwords, hfit, hlen⟩ := Instr.wellFormed_words h hws
  obtain ⟨verb, ops, heq, hcommand⟩ := commandOf_words hws hfit
  have hall : ∀ w ∈ i.verbWords ++ ws, wellFormedWord w = true := fun w hw =>
    (List.mem_append.1 hw).elim (Instr.verbWords_wellFormed i w) (hwords w)
  have hline : i.line = joinBy ' ' (i.verbWords ++ ws) := by rw [Instr.line, hws]; rfl
  have hlength := joinBy_length (i.verbWords ++ ws) (by rw [heq]; simp)
  refine ⟨verb, ops, ?_, hcommand, ?_, ?_⟩
  · rw [hline, wordsOf_joinBy fun w hw => Laws.SenderWords.word_of_wellFormed (hall w hw), heq]
  · rw [hline]
    omega
  · rw [hline]
    exact joinBy_printable hall

theorem Instr.line_test : ReceivedLine.test ⟨i.line, false, false⟩ = .inr i := by
  obtain ⟨verb, ops, hwords, hcommand, -, -⟩ := Instr.line_words h ho
  simp [ReceivedLine.test, hwords, hcommand]

end

/-! ### The characters of a line -/

theorem LineUnit.receive_printable {l : LineUnit} {c : Char} (hbreak : l.breakHeld = false) (hc : printable c = true)
    (hroom : l.assembly.length < 72) :
    l.receive (BitVec.ofNat 7 c.toNat) false = { l with assembly := l.assembly ++ [c] } := by
  simp only [printable, Bool.and_eq_true, decide_eq_true_eq] at hc
  have hcode : (BitVec.ofNat 7 c.toNat).toNat = c.toNat := by
    rw [BitVec.toNat_ofNat]
    exact Nat.mod_eq_of_lt (by omega)
  have hnot : ¬ (c.toNat < 32 ∨ c.toNat = 127) := by omega
  have hreturn : ¬ c.toNat = 13 := by omega
  simp only [LineUnit.receive, hbreak, hcode, if_neg hnot, if_neg hreturn, Char.ofNat_toNat, LineUnit.join]
  exact if_pos hroom

theorem LineUnit.receiveAll_printable {t : Text} {l : LineUnit} (hbreak : l.breakHeld = false)
    (ht : ∀ c ∈ t, printable c = true) (hroom : l.assembly.length + t.length ≤ 72) :
    l.receiveAll t = { l with assembly := l.assembly ++ t } := by
  induction t generalizing l with
  | nil => simp [LineUnit.receiveAll]
  | cons c t ih =>
    have hlen : (c :: t).length = t.length + 1 := rfl
    rw [LineUnit.receiveAll, LineUnit.receive_printable hbreak (ht c (by simp)) (by omega),
      ih (l := { l with assembly := l.assembly ++ [c] }) hbreak (fun d hd => ht d (by simp [hd])) ?_]
    · simp
    · have happend : (l.assembly ++ [c]).length = l.assembly.length + 1 := by simp
      dsimp only
      omega

/-- Settles O58: the words of a command's line are read back, and the line completed hands it to its owner. -/
theorem consoleLineRoundTrip : Obligations.ConsoleLineRoundTrip := by
  intro i h ho
  refine ⟨Instr.line_test h ho, fun l hassembly hchar hlong hbuffers hbreak hplace hhanded => ?_⟩
  obtain ⟨verb, ops, hwords, -, hlength, hprintable⟩ := Instr.line_words h ho
  rw [LineUnit.receiveAll_printable hbreak hprintable (by rw [hassembly]; simpa using hlength), hassembly]
  have htest := Instr.line_test h ho
  obtain ⟨⟩ := l
  simp only at hassembly hchar hlong hbuffers hbreak hplace hhanded
  subst hassembly hchar hlong hbuffers hbreak hplace hhanded
  simp [LineUnit.receive, LineUnit.complete, hwords, LineUnit.dispatch, htest, Config.lineBuffers]

end Sys2Proof.Machine

/-! The events of the console line: a character, a line sent, a break. -/

namespace Sys2Proof.Machine

open Sys2Proof Host

/-! ### The dispatch of a line -/

section

variable {l : LineUnit} {read : Instr → Option DispatchReading}

theorem LineUnit.noteReading_same : l.noteReading l.handed read = l := by
  unfold LineUnit.noteReading
  cases h : l.handed <;> rfl

theorem LineUnit.noteReading_idle (h : l.handed = none) (b : Option Instr) : l.noteReading b read = l := by
  unfold LineUnit.noteReading
  split
  · next i hhanded => exact absurd (h.symm.trans hhanded) (by simp)
  · rfl

theorem LineUnit.noteReading_handed {i : Instr} (h : l.handed = some i) :
    l.noteReading none read = { l with reading := read i } := by
  unfold LineUnit.noteReading
  split
  · next j hhanded => rw [Option.some.inj (h.symm.trans hhanded)]
  · next hother => exact absurd h (hother i rfl)

/-- A reading is noted beside what the transmitter takes. -/
theorem LineUnit.pump_noteReading (b : Option Instr) : l.pump.noteReading b read = (l.noteReading b read).pump := by
  have hpump : ∀ x : Option DispatchReading, { l with reading := x }.pump = { l.pump with reading := x } := by
    intro x
    unfold LineUnit.pump
    dsimp only
    split
    · rfl
    · split
      · rfl
      · split <;> rfl
      · rfl
      · rfl
  have hhanded : l.pump.handed = l.handed := (LineUnit.pump_receiver l).handed
  cases b with
  | some j => rfl
  | none =>
    cases h : l.handed with
    | none => rw [LineUnit.noteReading_idle (hhanded.trans h), LineUnit.noteReading_idle h]
    | some i =>
      rw [LineUnit.noteReading_handed (hhanded.trans h), LineUnit.noteReading_handed h]
      exact (hpump _).symm

/-- The oldest line `b` is taken out and tested: a reply by the line unit, or a command handed with its reading. -/
def LineUnit.takeLine (read : Instr → Option DispatchReading) (b : ReceivedLine) (bs : List ReceivedLine) (l : LineUnit) :
    LineUnit :=
  match b.test with
  | .inl r => { l with buffers := bs }.answer (.no r)
  | .inr i => { l with buffers := bs, replyPlace := .reserved, handed := some i, reading := read i }

/-- A dispatch with its reading. -/
def LineUnit.dispatchReading (read : Instr → Option DispatchReading) (l : LineUnit) : LineUnit :=
  match l.buffers with
  | b :: bs => if l.replyPlace = .empty ∧ l.handed = none then l.takeLine read b bs else l
  | [] => l

theorem LineUnit.dispatch_busy (h : ¬ (l.replyPlace = .empty ∧ l.handed = none)) : l.dispatch = l := by
  unfold LineUnit.dispatch
  split
  · next hplace hhanded _ => exact absurd ⟨hplace, hhanded⟩ h
  · rfl

theorem LineUnit.dispatch_free {b : ReceivedLine} {bs : List ReceivedLine} (hplace : l.replyPlace = .empty)
    (hhanded : l.handed = none) (hbuffers : l.buffers = b :: bs) :
    l.dispatch.noteReading l.handed read = l.takeLine read b bs := by
  have htake : l.dispatch = match b.test with
      | .inl r => { l with buffers := bs }.answer (.no r)
      | .inr i => { l with buffers := bs, replyPlace := .reserved, handed := some i } := by
    unfold LineUnit.dispatch
    split
    · next hbuffers' =>
      obtain ⟨rfl, rfl⟩ := List.cons.inj (hbuffers.symm.trans hbuffers')
      rfl
    · next hother => exact absurd hbuffers (hother b bs hplace hhanded)
  rw [hhanded, htake]
  unfold LineUnit.takeLine
  cases b.test with
  | inl r =>
    have hnone : (({ l with buffers := bs } : LineUnit).answer (.no r)).handed = none :=
      (LineUnit.pump_receiver _).handed.trans hhanded
    exact LineUnit.noteReading_idle hnone none
  | inr i => rfl

theorem LineUnit.dispatch_noteReading : l.dispatch.noteReading l.handed read = l.dispatchReading read := by
  unfold LineUnit.dispatchReading
  cases hbuffers : l.buffers with
  | nil =>
    have hidle : l.dispatch = l := by
      unfold LineUnit.dispatch
      split
      · next hsome => exact absurd (hbuffers.symm.trans hsome) (by simp)
      · rfl
    rw [hidle, LineUnit.noteReading_same]
  | cons b bs =>
    dsimp only
    by_cases hfree : l.replyPlace = .empty ∧ l.handed = none
    · rw [if_pos hfree, LineUnit.dispatch_free hfree.1 hfree.2 hbuffers]
    · rw [if_neg hfree, LineUnit.dispatch_busy hfree, LineUnit.noteReading_same]

end

/-! ### A completed line -/

theorem wordsFrom_nil_iff {t acc : Text} : wordsFrom acc t = [] ↔ acc = [] ∧ ∀ c ∈ t, c = ' ' := by
  induction t generalizing acc with
  | nil => cases acc <;> simp [wordsFrom]
  | cons c t ih =>
    by_cases hc : c = ' '
    · subst hc
      cases acc with
      | nil => simp [wordsFrom, ih]
      | cons a acc => simp [wordsFrom]
    · simp [wordsFrom, hc, ih]

section

variable {l : LineUnit}

/-- Nothing was received: no word and no mark. -/
def LineUnit.Blank (l : LineUnit) : Prop := (∀ c ∈ l.assembly, c = ' ') ∧ l.charMark = false ∧ l.longMark = false

theorem LineUnit.blank_iff :
    ((wordsOf l.assembly).isEmpty && !l.charMark && !l.longMark) = true ↔ l.Blank := by
  simp [LineUnit.Blank, wordsOf, wordsFrom_nil_iff, and_assoc]

theorem LineUnit.complete_discarded (h : l.Blank ∨ 2 ≤ l.buffers.length) :
    l.complete = { l with assembly := [], charMark := false, longMark := false } := by
  unfold LineUnit.complete
  dsimp only
  by_cases hblank : l.Blank
  · rw [if_pos (LineUnit.blank_iff.2 hblank)]
  · rw [if_neg (mt LineUnit.blank_iff.1 hblank)]
    exact if_neg (Nat.not_lt.2 (h.resolve_left hblank))

theorem LineUnit.complete_buffered (hblank : ¬ l.Blank) (hroom : l.buffers.length < 2) :
    l.complete = { l with
      assembly := [], charMark := false, longMark := false
      buffers := l.buffers ++ [(⟨l.assembly, l.charMark, l.longMark⟩ : ReceivedLine)] }.dispatch := by
  unfold LineUnit.complete
  dsimp only
  rw [if_neg (mt LineUnit.blank_iff.1 hblank)]
  exact if_pos hroom

/-! ### A received character -/

theorem LineUnit.receive_held {code : BitVec 7} {bad : Bool} (h : l.breakHeld = true) : l.receive code bad = l := if_pos h

theorem LineUnit.receive_bad {code : BitVec 7} (h : l.breakHeld = false) :
    l.receive code true = { l with charMark := true } := (if_neg (by simp [h])).trans (if_pos rfl)

theorem LineUnit.receive_good {code : BitVec 7} (h : l.breakHeld = false) : l.receive code false =
    if code.toNat = 13 then l.complete
    else if code.toNat < 32 ∨ code.toNat = 127 then l
    else l.join (Char.ofNat code.toNat) := (if_neg (by simp [h])).trans (if_neg (by simp))

/-! ### A break -/

theorem LineUnit.breakReset_none (h : l.breakMeasure = none) : l.breakReset = l := by
  simp only [LineUnit.breakReset, h]

theorem ReplyPlace.afterBreak_eq (p : ReplyPlace) : p.afterBreak = if p = .reserved then .reserved else .empty := by
  cases p <;> rfl

/-- The line unit as a break leaves it, before *READY is made. -/
def LineUnit.broken (l : LineUnit) : LineUnit :=
  { l with
    assembly := [], charMark := false, longMark := false, buffers := []
    replyPlace := if l.replyPlace = .reserved then .reserved else .empty
    queue := [], breakMeasure := none, breakHeld := true }

theorem LineUnit.breakReset_some (h : l.breakMeasure.isSome = true) :
    l.breakReset = { l.broken with queue := [⟨.ready, l.nextOrder⟩], nextOrder := l.nextOrder + 1 }.pump := by
  obtain ⟨v, hv⟩ := Option.isSome_iff_exists.1 h
  simp only [LineUnit.breakReset, hv, LineUnit.report, ReplyPlace.afterBreak_eq]
  rfl

theorem LineUnit.breakReset_sending (h : l.breakMeasure.isSome = true) (hsending : l.transmitter.isSome = true) :
    l.breakReset = { l.broken with queue := [⟨.ready, l.nextOrder⟩], nextOrder := l.nextOrder + 1 } := by
  obtain ⟨t, ht⟩ := Option.isSome_iff_exists.1 hsending
  rw [LineUnit.breakReset_some h]
  have hbusy : l.broken.transmitter = some t := ht
  simp only [LineUnit.pump, hbusy]

theorem LineUnit.breakReset_idle (h : l.breakMeasure.isSome = true) (hidle : l.transmitter = none) :
    l.breakReset = { l.broken with
      queue := [], transmitter := some ⟨.report .ready, l.nextOrder⟩, nextOrder := l.nextOrder + 1 } := by
  rw [LineUnit.breakReset_some h]
  have hidle' : l.broken.transmitter = none := hidle
  have hplace : l.broken.replyPlace = .reserved ∨ l.broken.replyPlace = .empty := by
    change (if l.replyPlace = .reserved then ReplyPlace.reserved else .empty) = _
      ∨ (if l.replyPlace = .reserved then ReplyPlace.reserved else .empty) = _
    split
    · exact .inl rfl
    · exact .inr rfl
  obtain hplace | hplace := hplace <;> simp only [LineUnit.pump, hidle', hplace]

end

/-! ### The statement -/

/-- Settles O57: a character joins, marks or completes the assembly; a dispatch tests the oldest line with its reading; a
break leaves *READY alone. -/
theorem lineEventsComplete : Obligations.LineEventsComplete := by
  intro s hp l held full taken dispatched
  have htaken : ∀ (x : LineUnit) (b : ReceivedLine) (bs : List ReceivedLine),
      x.takeLine s.readAtDispatch b bs = taken x b bs := by
    intro x b bs
    simp only [LineUnit.takeLine, ReceivedLine.test, taken]
    by_cases hchar : b.charMark = true
    · rw [if_pos hchar, if_pos hchar]
      rfl
    rw [if_neg hchar, if_neg hchar]
    by_cases hlong : b.longMark = true
    · rw [if_pos hlong, if_pos hlong]
      rfl
    rw [if_neg hlong, if_neg hlong]
    cases wordsOf b.text with
    | nil => rfl
    | cons verb ops =>
      dsimp only
      cases commandOf? verb ops <;> rfl
  have hdispatched : ∀ x : LineUnit, x.dispatch.noteReading x.handed s.readAtDispatch = dispatched x := by
    intro x
    rw [LineUnit.dispatch_noteReading]
    unfold LineUnit.dispatchReading
    change _ = match x.buffers with
      | b :: bs => if x.replyPlace = ReplyPlace.empty ∧ x.handed = none then taken x b bs else x
      | [] => x
    cases x.buffers with
    | nil => rfl
    | cons b bs => exact congrArg (fun y => if x.replyPlace = ReplyPlace.empty ∧ x.handed = none then y else x) (htaken x b bs)
  have hevent : ∀ f : LineUnit → LineUnit, s.whenPowered (State.lineEvent f)
      = { s with line := (f l).noteReading l.handed s.readAtDispatch } := fun f => if_pos hp
  have hquiet : ∀ f : LineUnit → LineUnit, (f l).handed = l.handed →
      s.whenPowered (State.lineEvent f) = { s with line := f l } := fun f hf => by
    rw [hevent, ← hf, LineUnit.noteReading_same]
  refine ⟨?_, fun hidle => ?_, fun t ht => ?_, fun hnone => ?_, fun hsome => ?_,
    fun space => ?_⟩
  · intro code badParity badStop answers
    have hexec : ∀ x, (l.receive code (badParity || badStop)).noteReading l.handed s.readAtDispatch = x → answers x :=
      fun x hx => congrArg Outcome.next ((hevent _).trans (by rw [hx]))
    have hsame : ∀ x, l.receive code (badParity || badStop) = x → x.handed = l.handed → answers x := fun x hx hh =>
      hexec x (by rw [hx, ← hh, LineUnit.noteReading_same])
    refine ⟨fun hheld => hsame l (LineUnit.receive_held hheld) rfl, fun hfree hbad => ?_, fun hfree hparity hstop => ?_⟩
    · have hor : (badParity || badStop) = true := by simpa using hbad
      exact hsame _ (by rw [hor, LineUnit.receive_bad hfree]) rfl
    · have hor : (badParity || badStop) = false := by simp [hparity, hstop]
      have hgood := LineUnit.receive_good (l := l) (code := code) hfree
      rw [← hor] at hgood
      refine ⟨fun hnot hcontrol => ?_, fun hlow hdel => ?_, fun hreturn => ?_⟩
      · rw [if_neg hnot, if_pos hcontrol] at hgood
        exact hsame l hgood rfl
      · rw [if_neg (by omega), if_neg (by omega)] at hgood
        refine hsame _ hgood ?_
        split <;> rfl
      · rw [if_pos hreturn] at hgood
        intro cleared blank
        refine ⟨fun h => hsame _ (hgood.trans (LineUnit.complete_discarded h)) rfl, fun hblank hroom => ?_⟩
        rw [LineUnit.complete_buffered hblank hroom] at hgood
        refine hexec _ ?_
        rw [hgood]
        exact hdispatched { cleared with buffers := l.buffers ++ [⟨l.assembly, l.charMark, l.longMark⟩] }
  · have hsent : l.lineSent = l := by simp only [LineUnit.lineSent, hidle]
    refine congrArg Outcome.next ((hquiet _ (by rw [hsent])).trans ?_)
    rw [hsent]
  · have hsent : l.lineSent = ({ l with transmitter := none, replyPlace := l.replyPlace.afterSending t }
        : LineUnit).dispatch.pump := by simp only [LineUnit.lineSent, ht]
    refine congrArg Outcome.next ((hevent _).trans ?_)
    rw [hsent, LineUnit.pump_noteReading]
    exact congrArg (fun x => { s with line := LineUnit.pump x })
      (hdispatched { l with transmitter := none, replyPlace := l.replyPlace.afterSending t })
  · have hexec : exec .breakMeasureExpiry s = .next { s with line := l.breakReset } := congrArg Outcome.next (if_pos hp)
    rw [hexec, LineUnit.breakReset_none hnone]
  · have hexec : exec .breakMeasureExpiry s = .next { s with line := l.breakReset } := congrArg Outcome.next (if_pos hp)
    by_cases hsending : l.transmitter.isSome = true
    · rw [LineUnit.breakReset_sending hsome hsending] at hexec
      exact ⟨_, _, hexec, fun _ => ⟨rfl, rfl⟩, fun hidle => by simp [hidle] at hsending⟩
    · have hidle : l.transmitter = none := by simpa using hsending
      rw [LineUnit.breakReset_idle hsome hidle] at hexec
      exact ⟨_, _, hexec, fun h => absurd h hsending, fun _ => ⟨rfl, rfl⟩⟩
  · refine congrArg Outcome.next ((if_pos hp).trans ?_)
    have hlevel : l.levelChange space = if space = l.atSpace then l
        else if space then { l with atSpace := true, breakMeasure := some 0 }
        else { l with atSpace := false, breakMeasure := none, breakHeld := false } := by
      unfold LineUnit.levelChange
      simp only [eq_comm]
    exact congrArg (fun x => { s with line := x }) hlevel

end Sys2Proof.Machine

/-! What the evaluation of ARMED leaves, and a machine that stops or breaks. -/

namespace Sys2Proof.Machine

open Sys2Proof Host

/-! ### An evaluation that starts nothing -/

section

variable {m : MachineId} {s : State}

/-- An evaluation of `m` starts nothing: its screen is deaf to it, waits on another machine, or is told nothing new, or the
machine is not judged. -/
def State.Unstirred (s : State) (m : MachineId) : Prop :=
  (s.screen (screenOf m)).Deaf ∨ s.waitedOn (screenOf m) ≠ some m
    ∨ (s.screen (screenOf m)).state ≠ .opening ∧ (s.armedCondition m = true → s.plan.lastPosting.get m = true)
    ∨ (s.machine m).state.judged = false

theorem State.onDisarmed_elsewhere (h : s.waitedOn (screenOf m) ≠ some m ∨ (s.screen (screenOf m)).state ≠ .opening) :
    s.onDisarmed m = s := if_neg fun ⟨hwait, hopening, _⟩ => h.elim (absurd hwait) (absurd hopening)

theorem State.evaluate_unstirred (h : s.Unstirred m) : PostingsOnly s (s.evaluate m) := by
  obtain hdeaf | hwait | ⟨hopening, hknown⟩ | hunjudged := h
  · exact State.evaluate_deaf hdeaf
  · have hposted : ∀ yes, (s.posted m yes).waitedOn (screenOf m) ≠ some m := fun yes => by
      rw [State.posted_waitedOn]
      exact hwait
    obtain ⟨e, -⟩ | ⟨hjudged, e | e⟩ := s.evaluate_posted m <;> rw [e]
    · exact .refl s
    · rw [State.onArmed_idle (.inr (.inr (.inr (hposted _))))]
      exact .posted _ hjudged
    · rw [State.onDisarmed_elsewhere (.inl (hposted _))]
      exact .posted _ hjudged
  · obtain ⟨e, -⟩ | ⟨hjudged, hyes, hlast, -⟩ | ⟨hjudged, -, -, e⟩ := s.evaluate_cases m
    · rw [e]
      exact .refl s
    · exact absurd (hknown hyes) (by rw [hlast]; decide)
    · rw [e]
      exact State.onDisarmed_elsewhere (s := s.posted m false) (.inr hopening) ▸ .posted false hjudged
  · rw [State.evaluate_unjudged hunjudged]
    exact .refl s

/-- Postings of another machine leave what an evaluation of `m` reads. -/
theorem State.Unstirred.after {j : MachineId} (hj : m ≠ j) (h : s.Unstirred m) (hother : s.Unstirred j) :
    (s.evaluate j).Unstirred m := by
  have hposts := State.evaluate_unstirred hother
  have hstarts : StartsOnly j s (s.evaluate j) := StartsOnly.evaluate
  have hwaited : (s.evaluate j).waitedOn (screenOf m) = s.waitedOn (screenOf m) :=
    (hstarts.waitedOn (by rw [hposts.screen]) _).1
  have harmed : (s.evaluate j).armedCondition m = s.armedCondition m := by
    have hnext : (s.evaluate j).nextSlot (screenOf m) = s.nextSlot (screenOf m) := by
      simp only [State.nextSlot, State.onDeck, State.showableAbove, State.lowestShowable, hposts.screen, hposts.slot]
    have hfire : (s.evaluate j).fire = s.fire := by rw [hposts.rest]
    simp only [State.armedCondition, (hstarts.others m hj).1, (hstarts.others m hj).2.2, hnext, hfire]
  unfold State.Unstirred
  rw [hposts.screen, hwaited, harmed, hstarts.posting m hj, (hstarts.others m hj).1]
  exact h

theorem State.evaluateScreen_unstirred {sc : ScreenId} (h : ∀ j, screenOf j = sc → s.Unstirred j) :
    PostingsOnly s (s.evaluateScreen sc) := by
  have hlower := h _ (screenOf_lowerOf sc)
  have hupper := h _ (screenOf_upperOf sc)
  exact (State.evaluate_unstirred hlower).trans
    (State.evaluate_unstirred (hupper.after (lower_ne_upper sc).symm hlower))

end

/-! ### An evaluation on a screen that is not OPENING -/

section

variable {s : State}

/-- A started successor leaves a DARK screen DARK, and no screen becomes OPENING. -/
theorem State.startSuccessor_awake (m : MachineId) (cause : MotorCause)
    (hopening : (s.screen (screenOf m)).state ≠ .opening) :
    ((s.startSuccessor m cause).screen (screenOf m)).state ≠ .opening
      ∧ ((s.screen (screenOf m)).state = .dark → ((s.startSuccessor m cause).screen (screenOf m)).state = .dark) := by
  have hordered : ((s.startOrdered m cause).screen (screenOf m)).state = (s.screen (screenOf m)).startGivenNow.state := by
    rw [State.startOrdered_screen]
  have hlost : ∀ u : State, ((u.breakMachine m .loop).successorLost (screenOf m)).screen (screenOf m)
      = { u.screen (screenOf m) with
          startGiven := false, startPending := true
          state := if (u.screen (screenOf m)).state = .runup ∨ (u.screen (screenOf m)).state = .swapDue then .showing
            else (u.screen (screenOf m)).state } := fun u => by
    rw [State.successorLost, State.modScreen_screen, if_pos rfl]
    rfl
  rw [State.startSuccessor_eq]
  unfold State.loopCheck
  split
  · rw [hlost]
    dsimp only
    rw [hordered]
    generalize s.screen (screenOf m) = x at *
    cases hstate : x.state <;> simp_all [ScreenRec.startGivenNow] <;> cases x.point <;> simp
  · rw [hordered]
    generalize s.screen (screenOf m) = x at *
    cases hstate : x.state <;> simp_all [ScreenRec.startGivenNow] <;> cases x.point <;> simp

theorem State.onArmed_awake {m : MachineId} (h : (s.screen (screenOf m)).state ≠ .opening) :
    s.onArmed m = s ∨ ∃ cause, s.onArmed m = s.startSuccessor m cause := by
  have hpending : (if (s.screen (screenOf m)).startPending then s.startSuccessor m .pending else s) = s
      ∨ ∃ cause, (if (s.screen (screenOf m)).startPending then s.startSuccessor m .pending else s)
        = s.startSuccessor m cause := by
    split
    · exact .inr ⟨_, rfl⟩
    · exact .inl rfl
  unfold State.onArmed
  dsimp only
  split
  · cases hstate : (s.screen (screenOf m)).state with
    | opening => exact absurd hstate h
    | showing | runup | swapDue | dark => exact hpending
    | idle | interval | halted => exact .inl rfl
  · exact .inl rfl

theorem State.evaluate_awake (m : MachineId) {sc : ScreenId} (h : (s.screen sc).state ≠ .opening) (hm : screenOf m = sc) :
    (s.evaluate m).lights = s.lights ∧ ((s.evaluate m).screen sc).state ≠ .opening
      ∧ ((s.screen sc).state = .dark → ((s.evaluate m).screen sc).state = .dark) := by
  subst hm
  have hposts : ∀ {t : State}, PostingsOnly s t → t.lights = s.lights ∧ (t.screen (screenOf m)).state ≠ .opening
      ∧ ((s.screen (screenOf m)).state = .dark → (t.screen (screenOf m)).state = .dark) := fun k => by
    rw [k.screen]
    exact ⟨k.lights, h, id⟩
  obtain ⟨e, -⟩ | ⟨hjudged, hyes, -, e⟩ | ⟨hjudged, -, -, e⟩ := s.evaluate_cases m <;> rw [e]
  · exact hposts (.refl s)
  · change (State.onArmed m (s.posted m true)).lights = _ ∧ ((State.onArmed m (s.posted m true)).screen _).state ≠ _
      ∧ (_ → ((State.onArmed m (s.posted m true)).screen _).state = _)
    obtain hidle | ⟨cause, hstart⟩ := State.onArmed_awake (s := s.posted m true) h
    · rw [hidle]
      exact hposts (.posted true hjudged)
    · rw [hstart]
      obtain ⟨hopening, hdark⟩ := State.startSuccessor_awake (s := s.posted m true) m cause h
      exact ⟨State.startSuccessor_lights m cause _, hopening, hdark⟩
  · exact hposts (State.onDisarmed_elsewhere (s := s.posted m false) (.inr h) ▸ .posted false hjudged)

theorem State.evaluateScreen_awake {sc : ScreenId} (h : (s.screen sc).state ≠ .opening) :
    (s.evaluateScreen sc).lights = s.lights
      ∧ ((s.screen sc).state = .dark → ((s.evaluateScreen sc).screen sc).state = .dark) := by
  obtain ⟨hlights, hopening, hdark⟩ := State.evaluate_awake (lowerOf sc) h (screenOf_lowerOf sc)
  obtain ⟨hlights', -, hdark'⟩ := State.evaluate_awake (upperOf sc) hopening (screenOf_upperOf sc)
  exact ⟨hlights'.trans hlights, fun h => hdark' (hdark h)⟩

end

end Sys2Proof.Machine

/-! A machine that stops or breaks, and what its lamp's change brings. -/

namespace Sys2Proof.Machine

open Sys2Proof Host

/-! ### A machine that stops or breaks -/

/-- A running machine enters STOPPED or BROKEN: its own record and its decoder, the last posting and the line alone
change, and it keeps its binding, its reel and its count (R9, R13). -/
structure Rests (m : MachineId) (s t : State) : Prop where
  rest : t = { s with machines := t.machines, decoders := t.decoders, plan := t.plan, line := t.line }
  plan : t.plan = { s.plan with lastPosting := t.plan.lastPosting }
  posting : ∀ j, j ≠ m → t.plan.lastPosting.get j = s.plan.lastPosting.get j
  others : ∀ j, j ≠ m → t.machine j = s.machine j
  unjudged : (t.machine m).state.judged = false
  kept : (t.machine m).boundSlot = (s.machine m).boundSlot ∧ (t.machine m).reelId = (s.machine m).reelId
    ∧ (t.machine m).frameCount = (s.machine m).frameCount

namespace Rests

variable {m : MachineId} {s t : State}

theorem ofMachine (f : MachineRec → MachineRec) (hunjudged : (f (s.machine m)).state.judged = false)
    (hbound : (f (s.machine m)).boundSlot = (s.machine m).boundSlot) (hreel : (f (s.machine m)).reelId = (s.machine m).reelId)
    (hcount : (f (s.machine m)).frameCount = (s.machine m).frameCount) : Rests m s (s.modMachine m f) where
  rest := rfl
  plan := (State.modMachine_planOnly m f s).1
  posting := (State.modMachine_planOnly m f s).2
  others j hj := by rw [State.modMachine_machine, if_neg hj]
  unjudged := by
    rw [State.modMachine_machine, if_pos rfl]
    exact hunjudged
  kept := by
    rw [State.modMachine_machine, if_pos rfl]
    exact ⟨hbound, hreel, hcount⟩

theorem enterStopped (m : MachineId) (s : State) : Rests m s (s.modMachine m MachineRec.enterStopped) := by
  refine ofMachine _ (by rw [MachineRec.enterStopped_state]; rfl) ?_ ?_ (s.machine m).enterStopped_fields.2.2.2.2 <;>
    (unfold MachineRec.enterStopped MachineRec.motorOff; split <;> rfl)

theorem breakMachine (m : MachineId) (cause : BreakCause) (s : State) : Rests m s (s.breakMachine m cause) := by
  obtain ⟨hstate, -, -, -, -, -, hcount, -⟩ := (s.machine m).enterBroken_fields cause
  have hbroken : Rests m s (s.modMachine m (MachineRec.enterBroken cause)) := by
    refine ofMachine _ (by rw [hstate]; rfl) ?_ ?_ hcount <;>
      (unfold MachineRec.enterBroken MachineRec.motorOff; split <;> rfl)
  exact ⟨rfl, hbroken.plan, hbroken.posting, hbroken.others, hbroken.unjudged, hbroken.kept⟩

section

variable (h : Rests m s t)
include h

theorem screen (z : ScreenId) : t.screen z = s.screen z := by rw [h.rest]; rfl

theorem slot (z : ScreenId) (n : SlotIx) : t.slot z n = s.slot z n := by
  unfold State.slot
  rw [h.plan]

theorem circuit (z : ScreenId) (c : CircuitId) : t.circuit z c = s.circuit z c := by rw [h.rest]; rfl

theorem lights : t.lights = s.lights := by rw [h.rest]

theorem lamp (k : MachineId) : t.lamp k = s.lamp k := by rw [h.rest]; rfl

theorem fire : t.fire = s.fire := by rw [h.rest]

theorem onDeck (z : ScreenId) : t.onDeck z = s.onDeck z := by
  simp only [State.onDeck, State.showableAbove, h.screen, h.slot]

theorem waitedOn (z : ScreenId) : t.waitedOn z = s.waitedOn z := by
  simp only [State.waitedOn, State.successor, h.onDeck, h.screen, h.slot]

end

end Rests

/-! ### The lamp of a machine that has stopped -/

/-- A lamp's change: the lamp, the LAMP hold of its machine and what follows. -/
structure LampMoves (m : MachineId) (s t : State) : Prop where
  rest : t = { s with machines := t.machines, decoders := t.decoders, lamps := t.lamps, plan := t.plan }
  slot : ∀ z n, t.slot z n = s.slot z n
  machine : (t.machine m).boundSlot = (s.machine m).boundSlot ∧ (t.machine m).state = (s.machine m).state
    ∧ (t.machine m).reelId = (s.machine m).reelId

namespace LampMoves

variable {m : MachineId} {s t u : State}

theorem refl (m : MachineId) (s : State) : LampMoves m s s := ⟨rfl, fun _ _ => rfl, rfl, rfl, rfl⟩

theorem trans (h : LampMoves m s t) (k : LampMoves m t u) : LampMoves m s u where
  rest := by
    have hk := k.rest
    rw [h.rest] at hk
    exact hk
  slot z n := (k.slot z n).trans (h.slot z n)
  machine := ⟨k.machine.1.trans h.machine.1, k.machine.2.1.trans h.machine.2.1, k.machine.2.2.trans h.machine.2.2⟩

theorem modLamp (f : LampRec → LampRec) : LampMoves m s (s.modLamp m f) where
  rest := by
    obtain e | ⟨b, e⟩ := s.modLamp_split m f <;> rw [e] <;> rfl
  slot z n := State.modLamp_slot m f s z n
  machine := State.modLamp_boundSlot m m f s

theorem strikeRequest : LampMoves m s (s.strikeRequest m) := by
  unfold State.strikeRequest
  split
  · exact modLamp _
  · exact refl m s

section

variable (h : LampMoves m s t)
include h

theorem screen (z : ScreenId) : t.screen z = s.screen z := by rw [h.rest]; rfl

theorem circuit (z : ScreenId) (c : CircuitId) : t.circuit z c = s.circuit z c := by rw [h.rest]; rfl

theorem line : t.line = s.line := by rw [h.rest]

theorem waitedOn (z : ScreenId) : t.waitedOn z = s.waitedOn z := by
  simp only [State.waitedOn, State.successor, State.onDeck, State.showableAbove, h.screen, h.slot]

end

/-- The lamp's state posted for a machine that has stopped brings a strike at the most (R109). -/
theorem lampPosted (hstopped : (s.machine m).state = .stopped) (hon : (s.screen (screenOf m)).onScreen ≠ some m) :
    LampMoves m s (s.lampPosted m) := by
  have hasked : LampMoves m s (if s.waitedOn (screenOf m) = some m ∧ (s.screen (screenOf m)).startGiven = true
      ∧ (s.lamp m).state = .dark then s.strikeRequest m else s) := by
    split
    · exact strikeRequest
    · exact refl m s
  unfold State.lampPosted
  dsimp only
  generalize (if s.waitedOn (screenOf m) = some m ∧ (s.screen (screenOf m)).startGiven = true
      ∧ (s.lamp m).state = .dark then s.strikeRequest m else s) = v at hasked ⊢
  have hstate : (v.machine m).state = .stopped := hasked.machine.2.1.trans hstopped
  have hopening : (if v.waitedOn (screenOf m) = some m then v.openingStep (screenOf m) else v) = v := by
    split
    next hwait =>
      simp only [State.openingStep, hwait]
      rw [if_neg]
      rintro ⟨-, -, harmed⟩
      exact absurd (hstate.symm.trans harmed) (by decide)
    next => rfl
  rw [hopening]
  have hready : v.openReady m = false := by simp [State.openReady, hstate]
  have hposted : v.machinePosted m = v := by
    unfold State.machinePosted
    dsimp only
    have hwatch : (if (v.screen (screenOf m)).onScreen = some m then v.watchPicture (screenOf m) else v) = v :=
      if_neg (by rw [hasked.screen]; exact hon)
    have htaken : (if v.waitedOn (screenOf m) = some m then v.openingTake (screenOf m) else v) = v := by
      split
      next hwait =>
        refine State.openingTake_unready (.inl fun j hj => ?_)
        obtain rfl := Option.some.inj (hj.symm.trans hwait)
        exact hready
      next => rfl
    rw [hwatch, htaken]
    split
    next hsucc =>
      refine State.testReady_unready fun j hj => ?_
      obtain rfl := Option.some.inj (hj.symm.trans hsucc)
      simp [State.swapReady, hready]
    next => rfl
  rw [hposted]
  exact hasked

theorem lampSettled (hstopped : (s.machine m).state = .stopped) (hon : (s.screen (screenOf m)).onScreen ≠ some m)
    (before : LampState) : LampMoves m s (s.lampSettled m before) := by
  have hposted : LampMoves m s (if (s.lamp m).state = before then s else s.lampPosted m) := by
    split
    · exact refl m s
    · exact lampPosted hstopped hon
  unfold State.lampSettled
  rw [State.evaluate_unjudged (by rw [hposted.machine.2.1, hstopped]; rfl)]
  exact hposted

/-- A stopped machine's lamp is put out, and nothing more follows (R72). -/
theorem putOut (hstopped : (s.machine m).state = .stopped) (hon : (s.screen (screenOf m)).onScreen ≠ some m)
    (before : LampState) : LampMoves m s ((s.lampOff m).lampSettled m before) := by
  have hoff : LampMoves m s (s.lampOff m) := modLamp _
  exact hoff.trans (lampSettled (hoff.machine.2.1.trans hstopped) (by rw [hoff.screen]; exact hon) before)

end LampMoves

end Sys2Proof.Machine

/-! What a reel end and a break make of the screen of the ON_SCREEN machine. -/

namespace Sys2Proof.Machine

open Sys2Proof Host

/-! ### Slot notices -/

section

variable {m j : MachineId} {sc : ScreenId} {n : SlotIx} {st : SlotStatus} {s : State}

theorem State.slotNotice_bound (hstatus : (s.slot sc n).status = .bound) (hbound : (s.slot sc n).bound = some m) :
    s.slotNotice sc n st
      = ((s.modSlot sc n fun x => { x with status := st, bound := none }).modMachine m
          fun r => { r with boundSlot := none }).modLamp m LampRec.unbind := by
  simp only [State.slotNotice, hstatus, hbound]

theorem State.slotNotice_unbinds (hstatus : (s.slot sc n).status = .bound) (hbound : (s.slot sc n).bound = some m) :
    ((s.slotNotice sc n st).machine m).boundSlot = none := by
  rw [State.slotNotice_bound hstatus hbound, (State.modLamp_boundSlot ..).1, State.modMachine_machine, if_pos rfl]
  rfl

theorem State.slotNotice_line : (s.slotNotice sc n st).line = s.line := by
  unfold State.slotNotice
  split
  · dsimp only
    split
    · rfl
    · rw [State.modLamp_line]
      rfl
  all_goals rfl

/-- A machine that is THREADED or ARMED keeps its last posting. -/
theorem State.slotNotice_posting (hjudged : (s.machine j).state.judged = true) :
    (s.slotNotice sc n st).plan.lastPosting.get j = s.plan.lastPosting.get j := by
  unfold State.slotNotice
  split
  · dsimp only
    split
    · rfl
    next m _ =>
      have hlamp : ∀ u : State, ((u.modMachine m fun r => { r with boundSlot := none }).modLamp m LampRec.unbind).plan
          = (u.modMachine m fun r => { r with boundSlot := none }).plan := fun u => by
        rw [State.modLamp_of_state rfl]
      rw [hlamp]
      by_cases hj : j = m
      · subst hj
        have hplan : ∀ u : State, (u.machine j).state.judged = true →
            (u.modMachine j fun r => { r with boundSlot := none }).plan = u.plan := fun u hu => if_pos hu
        exact congrArg (fun p => p.lastPosting.get j) (hplan (s.modSlot sc n fun x => { x with status := st, bound := none }) hjudged)
      · rw [(State.modMachine_planOnly m _ _).2 j hj]
        rfl
  all_goals rfl

end

/-! ### An evaluation and its screen -/

theorem State.evaluateScreen_screen (sc : ScreenId) (s : State) :
    (s.evaluateScreen sc).screen sc = { s.screen sc with
      state := ((s.evaluateScreen sc).screen sc).state, startGiven := ((s.evaluateScreen sc).screen sc).startGiven
      startPending := ((s.evaluateScreen sc).screen sc).startPending } := by
  have hlower := (StartsOnly.evaluate (m := lowerOf sc) (s := s)).screen
  have hupper := (StartsOnly.evaluate (m := upperOf sc) (s := s.evaluate (lowerOf sc))).screen
  rw [screenOf_lowerOf] at hlower
  rw [screenOf_upperOf, hlower] at hupper
  exact hupper

/-! ### A screen goes DARK -/

section

variable (sc : ScreenId) (cause : DarkCause) (m : MachineId) (f : Nat) (s : State)

/-- The screen gone DARK, before the evaluation of ARMED on it (R119). -/
def State.darkened : State :=
  ((((s.modScreen sc ScreenRec.vacate).placeScene sc .fault 4 Config.faultFade).modScreen sc fun x =>
    { x with faultClaim := .dark, state := .dark })).report (.dark sc cause m (some f))

theorem State.enterDark_eq : s.enterDark sc cause m f = (s.darkened sc cause m f).evaluateScreen sc := rfl

theorem State.darkened_screen :
    (s.darkened sc cause m f).screen sc = { (s.screen sc).vacate with faultClaim := .dark, state := .dark } := by
  have hplaced : ((s.modScreen sc ScreenRec.vacate).placeScene sc .fault 4 Config.faultFade).screen sc
      = (s.screen sc).vacate := by
    simp only [State.placeScene, State.placeThree, State.modCircuit_screen, State.modScreen_screen, if_true]
  unfold State.darkened
  rw [State.report_screen, State.modScreen_screen, if_pos rfl, hplaced]

theorem State.darkened_line : (s.darkened sc cause m f).line = s.line.report (.dark sc cause m (some f)) := rfl

theorem State.darkened_claims (c : CircuitId) : ∃ x, ((s.darkened sc cause m f).circuit sc c).claims.fault = some x
    ∧ x.target = (s.sceneLevels sc 4).get c ∧ x.fade = 30 := by
  have hplaced : (s.darkened sc cause m f).circuit sc c
      = (s.circuit sc c).place s.lights.halfCycle .fault ((s.sceneLevels sc 4).get c) 30 := by
    change ((s.modScreen sc ScreenRec.vacate).placeThree sc .fault _ 30).circuit sc c = _
    rw [State.placeThree_circuit, if_pos rfl]
    rfl
  rw [hplaced]
  exact Circuit.place_own _ .fault _ _ _

/-- What a screen is that has gone DARK (R118, R119). -/
theorem State.enterDark_dark {t : State} (ht : t = s.enterDark sc cause m f) :
    (t.screen sc).state = .dark ∧ (t.screen sc).onScreen = none ∧ (t.screen sc).mixer = .mute
      ∧ (t.screen sc).overlapLeft = 0 ∧ (t.screen sc).faultClaim = .dark
      ∧ (t.screen sc).current = (s.screen sc).current ∧ (t.screen sc).darkHold = .stopped
      ∧ ∀ c, ∃ x, (t.circuit sc c).claims.fault = some x ∧ x.target = (s.sceneLevels sc 4).get c ∧ x.fade = 30 := by
  subst ht
  have hscreen := s.darkened_screen sc cause m f
  have hclaims := s.darkened_claims sc cause m f
  rw [State.enterDark_eq]
  generalize s.darkened sc cause m f = w at *
  have hstate : (w.screen sc).state = .dark := by rw [hscreen]
  obtain ⟨hlights, hdark⟩ := State.evaluateScreen_awake (s := w) (sc := sc) (by rw [hstate]; decide)
  have hkept := State.evaluateScreen_screen sc w
  have hcircuit : ∀ c, (w.evaluateScreen sc).circuit sc c = w.circuit sc c := fun c => by
    unfold State.circuit
    rw [hlights]
  refine ⟨hdark hstate, ?_, ?_, ?_, ?_, ?_, ?_, fun c => by rw [hcircuit]; exact hclaims c⟩ <;>
    rw [hkept, hscreen] <;> rfl

end

/-- A screen gone DARK starts nothing by its evaluation where the successor's last posting stands (R109, R99). -/
theorem State.dark_unstirred {m : MachineId} {sc : ScreenId} {n : SlotIx} {s w : State}
    (hstate : (w.screen sc).state = .dark) (hcurrent : (w.screen sc).current = some n)
    (hpending : (w.screen sc).startPending = (s.screen sc).startPending) (hshows : (s.screen sc).state.shows = true)
    (hn : (s.screen sc).current = some n) (hslot : ∀ k, k ≠ n → w.slot sc k = s.slot sc k)
    (hfire : w.fire = s.fire) (hm : (w.machine m).state.judged = false)
    (hothers : ∀ j, j ≠ m → (w.machine j).boundSlot = none
      ∨ w.machine j = s.machine j ∧ w.lamp j = s.lamp j
        ∧ ((s.machine j).state.judged = true → w.plan.lastPosting.get j = s.plan.lastPosting.get j))
    (hwaits : ∀ j, s.successor sc = some j → j ≠ m
      ∧ ((s.screen sc).startPending = true → (s.machine j).state.judged = true → s.armedCondition j = s.plan.lastPosting.get j))
    {j : MachineId} (hj : screenOf j = sc) : w.Unstirred j := by
  subst hj
  have habove : w.showableAbove (screenOf j) n = s.showableAbove (screenOf j) n := by
    unfold State.showableAbove
    congr 1
    funext k
    by_cases hk : k = n
    · subst hk; simp
    · rw [hslot k hk]
  have hidle : (s.screen (screenOf j)).state ≠ .idle := fun h => by rw [h] at hshows; exact absurd hshows (by decide)
  have hdeck : w.onDeck (screenOf j) = s.showableAbove (screenOf j) n := by
    rw [← habove, State.onDeck, hstate, hcurrent]
  have hdeck' : s.onDeck (screenOf j) = s.showableAbove (screenOf j) n := by
    rw [State.onDeck, hn]
    cases h : (s.screen (screenOf j)).state with
    | idle => exact absurd h hidle
    | opening | showing | runup | swapDue | dark | interval | halted => rfl
  have hopening : (w.screen (screenOf j)).state ≠ .opening := by rw [hstate]; decide
  cases hstarts : (s.screen (screenOf j)).startPending with
  | false => exact .inl ⟨hopening, fun h => by rw [hpending, hstarts] at h; exact absurd h (by decide)⟩
  | true =>
    by_cases hwait : w.waitedOn (screenOf j) = some j
    · have hsucc : s.successor (screenOf j) = some j := by
        rw [State.waitedOn_of_notOpening hopening] at hwait
        have habove_ne : ∀ k, s.showableAbove (screenOf j) n = some k → k ≠ n := fun k hk e => by
          have hfound := List.find?_some hk
          simp [e] at hfound
        rw [State.successor, hdeck] at hwait
        rw [State.successor, hdeck']
        cases hk : s.showableAbove (screenOf j) n with
        | none => rw [hk] at hwait; exact hwait
        | some k =>
          rw [hk] at hwait
          dsimp only at hwait ⊢
          rw [← hslot k (habove_ne k hk)]
          exact hwait
      obtain ⟨hjm, hknown⟩ := hwaits j hsucc
      refine .inr (.inr (.inl ⟨hopening, fun harmed => ?_⟩))
      obtain hunbound | ⟨hmachine, hlamp, hposting⟩ := hothers j hjm
      · simp [State.armedCondition, hunbound] at harmed
      · have hnext : w.nextSlot (screenOf j) = s.nextSlot (screenOf j) := by
          have hw : w.nextSlot (screenOf j) = w.onDeck (screenOf j) := by rw [State.nextSlot, hstate]
          have hs : s.nextSlot (screenOf j) = s.onDeck (screenOf j) := by
            rw [State.nextSlot]
            cases h : (s.screen (screenOf j)).state with
            | showing | runup | swapDue | dark | interval => rfl
            | idle | opening | halted => exact absurd hshows (by rw [h]; decide)
          rw [hw, hs, hdeck, hdeck']
        have hcondition : s.armedCondition j = true := by
          rw [← harmed]
          simp only [State.armedCondition, hmachine, hlamp, hnext, hfire]
        have hjudged : (s.machine j).state.judged = true := by
          simp only [State.armedCondition, Bool.and_eq_true] at hcondition
          exact hcondition.1.1.1.1.1.1.1.1
        rw [hposting hjudged, ← hknown hstarts hjudged, hcondition]
    · exact .inr (.inl hwait)

end Sys2Proof.Machine

/-! What the screen does when a reel ends or a machine breaks. -/

namespace Sys2Proof.Machine

open Sys2Proof Host

/-! ### The end of a reel on the screen -/

section

variable (sc : ScreenId) (s : State)

/-- The screen in INTERVAL, before the evaluation of ARMED on it (R125). -/
def State.paused (k : Nat) : State :=
  ((((s.modScreen sc fun x => { x with mixer := .mute, overlapLeft := 0 }).releaseFault sc).placeScene sc .cue 3
    Config.intervalFade).modScreen sc fun x =>
      { x with
        interval := some (if k = 0 then .wait else .seconds (k * 60))
        intervalSub := 0
        state := .interval })

theorem State.enterInterval_eq (k : Nat) : s.enterInterval sc k
    = ((s.paused sc k).evaluateScreen sc).report (.interval sc (s.screen sc).current k) := rfl

theorem State.paused_screen (k : Nat) : (s.paused sc k).screen sc = { s.screen sc with
    mixer := .mute, overlapLeft := 0, faultClaim := .none
    interval := some (if k = 0 then .wait else .seconds (k * 60)), intervalSub := 0, state := .interval } := by
  have hplaced : (((s.modScreen sc fun x => { x with mixer := .mute, overlapLeft := 0 }).releaseFault sc).placeScene sc
      .cue 3 Config.intervalFade).screen sc
      = { s.screen sc with mixer := .mute, overlapLeft := 0, faultClaim := .none } := by
    simp only [State.placeScene, State.placeThree, State.modCircuit_screen]
    rw [State.releaseFault_screen, if_pos rfl, State.modScreen_screen, if_pos rfl]
  unfold State.paused
  rw [State.modScreen_screen, if_pos rfl, hplaced]

theorem State.paused_line (k : Nat) : (s.paused sc k).line = s.line := by
  simp only [State.paused, State.placeScene, State.placeThree, State.releaseFault, State.releaseThree, State.modScreen_line,
    State.modCircuit_line]

/-- Scene 3 stands as a CUE claim, and no FAULT claim is left. -/
theorem State.paused_claims (k : Nat) (c : CircuitId) : ((s.paused sc k).circuit sc c).claims.fault = none
    ∧ ∃ x, ((s.paused sc k).circuit sc c).claims.cue = some x ∧ x.target = (s.sceneLevels sc 3).get c ∧ x.fade = 100 := by
  have hrest : ((s.modScreen sc fun x => { x with mixer := .mute, overlapLeft := 0 }).releaseFault sc).lights.halfCycle
        = s.lights.halfCycle
      ∧ ((s.modScreen sc fun x => { x with mixer := .mute, overlapLeft := 0 }).releaseFault sc).sceneLevels sc 3
        = s.sceneLevels sc 3 := by
    refine ⟨?_, ?_⟩
    · simp only [State.releaseFault, State.releaseThree, State.modScreen_lights, State.modCircuit_halfCycle]
    · simp only [State.sceneLevels, State.releaseFault, State.releaseThree, State.modScreen_lights,
        State.modCircuit_scenes]
  have hreleased : ((s.modScreen sc fun x => { x with mixer := .mute, overlapLeft := 0 }).releaseFault sc).circuit sc c
      = (s.circuit sc c).release s.lights.halfCycle .fault := by
    rw [State.releaseFault_circuit, if_pos rfl, State.modScreen_lights, State.modScreen_circuit]
  have hcircuit : (s.paused sc k).circuit sc c
      = ((s.circuit sc c).release s.lights.halfCycle .fault).place s.lights.halfCycle .cue ((s.sceneLevels sc 3).get c) 100 := by
    unfold State.paused
    rw [State.modScreen_circuit, State.placeScene, State.placeThree_circuit, if_pos rfl, hreleased, hrest.1, hrest.2]
  rw [hcircuit]
  have hfault := Circuit.place_claims s.lights.halfCycle .cue ((s.sceneLevels sc 3).get c) 100
    ((s.circuit sc c).release s.lights.halfCycle .fault) .fault (by decide)
  rw [Circuit.release_self] at hfault
  exact ⟨hfault.eq_none, Circuit.place_own _ .cue _ _ _⟩

/-- What a screen is that has entered INTERVAL (R125). -/
theorem State.enterInterval_told (k : Nat) :
    (s.enterInterval sc k).screen sc = (s.paused sc k).screen sc
      ∧ (s.enterInterval sc k).line = s.line.report (.interval sc (s.screen sc).current k)
      ∧ ∀ c, (s.enterInterval sc k).circuit sc c = (s.paused sc k).circuit sc c := by
  have hposts : PostingsOnly (s.paused sc k) ((s.paused sc k).evaluateScreen sc) :=
    State.evaluateScreen_deaf (by rw [State.paused_screen]; exact ⟨nofun, fun _ => .inr (.inl rfl)⟩)
  refine ⟨hposts.screen sc, ?_, fun c => hposts.circuit sc c⟩
  rw [State.enterInterval_eq, State.report_line, hposts.line, State.paused_line]

end

section

variable {sc : ScreenId} {m : MachineId} {n : SlotIx} {e : SlotEntry} {s : State}

/-- The slot of the ON_SCREEN machine is SHOWN and its reel end told; no machine is ON_SCREEN (R118). -/
def State.reelShown (sc : ScreenId) (n : SlotIx) (e : SlotEntry) (s : State) : State :=
  ((s.slotNotice sc n .shown).reportIf e.note (.reelEnd sc n e.reel)).modScreen sc ScreenRec.unscreen

theorem State.onScreenReelEnds_eq (hcurrent : (s.screen sc).current = some n) (hentry : (s.slot sc n).entry = some e) :
    s.onScreenReelEnds sc m = if e.last then (s.reelShown sc n e).endProgramme sc else
      match e.int with
      | some k => (s.reelShown sc n e).enterInterval sc k
      | none => (s.reelShown sc n e).enterDark sc .runout m (s.machine m).frameCount := by
  simp only [State.onScreenReelEnds, hcurrent, hentry]
  rfl

theorem State.reelShown_screen : (s.reelShown sc n e).screen sc = (s.screen sc).unscreen := by
  unfold State.reelShown
  rw [State.modScreen_screen, if_pos rfl,
    ((NoticeOnly.slotNotice sc n .shown s).trans (.ofReportIf e.note _ _)).screen]

theorem State.reelShown_line : (s.reelShown sc n e).line
    = if e.note = true then s.line.report (.reelEnd sc n e.reel) else s.line := by
  unfold State.reelShown State.reportIf
  rw [State.modScreen_line]
  split
  · rw [State.report_line, State.slotNotice_line]
  · rw [State.slotNotice_line]

/-- What of the state the reel's end leaves as the slot notice made it. -/
theorem State.reelShown_rest : (s.reelShown sc n e).machines = (s.slotNotice sc n .shown).machines
    ∧ (s.reelShown sc n e).lamps = (s.slotNotice sc n .shown).lamps
    ∧ (s.reelShown sc n e).plan = (s.slotNotice sc n .shown).plan
    ∧ (s.reelShown sc n e).fire = (s.slotNotice sc n .shown).fire
    ∧ (s.reelShown sc n e).lights = (s.slotNotice sc n .shown).lights := by
  unfold State.reelShown State.reportIf
  split <;> exact ⟨rfl, rfl, rfl, rfl, rfl⟩

theorem State.slot_of_tables {s t : State} (h : t.plan.tables = s.plan.tables) (z : ScreenId) (k : SlotIx) :
    t.slot z k = s.slot z k := by
  unfold State.slot
  rw [h]

theorem State.slot_of_plan {s t : State} (h : t.plan = s.plan) (z : ScreenId) (k : SlotIx) : t.slot z k = s.slot z k := by
  unfold State.slot
  rw [h]

theorem State.enterDark_slot (cause : DarkCause) (f : Nat) (k : SlotIx) :
    (s.enterDark sc cause m f).slot sc k = s.slot sc k := by
  rw [State.enterDark_eq, (State.evaluateScreen_only sc _).1]
  exact State.slot_of_plan (by simp only [State.darkened, State.placeScene, State.placeThree, State.report_plan,
    State.modScreen_plan, State.modCircuit_plan]) sc k

theorem State.endProgramme_slot (k : SlotIx) : (s.endProgramme sc).slot sc k = s.slot sc k := by
  rw [State.endProgramme_eq, State.report_slot, (State.idled_posts sc _).slot]
  exact State.slot_of_plan (by simp only [State.releaseFault, State.releaseThree, State.modScreen_plan,
    State.modCircuit_plan]) sc k

theorem State.enterInterval_slot (i : Nat) (k : SlotIx) : (s.enterInterval sc i).slot sc k = s.slot sc k := by
  rw [State.enterInterval_eq, State.report_slot, (State.evaluateScreen_only sc _).1]
  exact State.slot_of_plan (by simp only [State.paused, State.placeScene, State.placeThree, State.releaseFault,
    State.releaseThree, State.modScreen_plan, State.modCircuit_plan]) sc k

end

/-! ### DARK without a start -/

theorem State.darkened_rest (sc : ScreenId) (cause : DarkCause) (m : MachineId) (f : Nat) (u : State) :
    (u.darkened sc cause m f).machines = u.machines ∧ (u.darkened sc cause m f).lamps = u.lamps
      ∧ (u.darkened sc cause m f).plan = u.plan ∧ (u.darkened sc cause m f).fire = u.fire := by
  simp only [State.darkened, State.placeScene, State.placeThree, State.report_machines, State.report_lamps,
    State.report_plan, State.report_fire, State.modScreen_machines, State.modScreen_lamps, State.modScreen_plan,
    State.modScreen_fire, State.modCircuit_machines, State.modCircuit_lamps, State.modCircuit_plan, State.modCircuit_fire,
    and_self]

/-- The screen goes DARK and starts nothing, where its successor is another machine whose last posting stands. -/
theorem State.enterDark_quiet {sc : ScreenId} {m : MachineId} {n : SlotIx} {st : SlotStatus} {s v u : State}
    (hv : Rests m s v) (hn : (s.screen sc).current = some n) (hshows : (s.screen sc).state.shows = true)
    (hwaits : ∀ j, s.successor sc = some j → j ≠ m ∧ ((s.screen sc).startPending = true →
      (s.machine j).state.judged = true → s.armedCondition j = s.plan.lastPosting.get j))
    (hscreen : (u.screen sc).current = some n ∧ (u.screen sc).startPending = (s.screen sc).startPending)
    (hrest : u.machines = (v.slotNotice sc n st).machines ∧ u.lamps = (v.slotNotice sc n st).lamps
      ∧ u.plan = (v.slotNotice sc n st).plan ∧ u.fire = (v.slotNotice sc n st).fire) (cause : DarkCause) (f : Nat) :
    (u.enterDark sc cause m f).line = u.line.report (.dark sc cause m (some f)) := by
  obtain ⟨hmachines, hlamps, hplan, hfire⟩ := hrest
  obtain ⟨hmachines', hlamps', hplan', hfire'⟩ := State.darkened_rest sc cause m f u
  have hnotice := NoticeOnly.slotNotice sc n st v
  have hdark := u.darkened_screen sc cause m f
  have hline := State.darkened_line sc cause m f u
  rw [State.enterDark_eq]
  generalize u.darkened sc cause m f = w at *
  have hslot : ∀ k, k ≠ n → w.slot sc k = s.slot sc k := fun k hk => by
    rw [State.slot_of_plan (hplan'.trans hplan), State.slotNotice_slot, if_neg fun h => hk h.2.1, hv.slot]
  have hmachine : ∀ j, w.machine j = (v.slotNotice sc n st).machine j := fun j => by
    unfold State.machine
    rw [hmachines', hmachines]
  have hlamp : ∀ j, w.lamp j = (v.slotNotice sc n st).lamp j := fun j => by
    unfold State.lamp
    rw [hlamps', hlamps]
  have hposting : w.plan.lastPosting = (v.slotNotice sc n st).plan.lastPosting := by rw [hplan', hplan]
  have hposts : PostingsOnly w (w.evaluateScreen sc) := by
    refine State.evaluateScreen_unstirred fun j hj => State.dark_unstirred (m := m) (by rw [hdark])
      (by rw [hdark]; exact hscreen.1) (by rw [hdark]; exact hscreen.2) hshows hn hslot
      (by rw [hfire', hfire, hnotice.fire, hv.fire]) ?_ (fun j hj => ?_) hwaits hj
    · rw [hmachine, (hnotice.machineState m).1]
      exact hv.unjudged
    · rw [hmachine, hlamp, hposting, ← hv.others j hj, ← hv.lamp j, ← hv.posting j hj]
      by_cases hbound : (v.slot sc n).status = .bound ∧ (v.slot sc n).bound = some j
      · exact .inl (State.slotNotice_unbinds hbound.1 hbound.2)
      · obtain ⟨hm, hl⟩ := State.slotNotice_apart (st := st) (fun h h' => hbound ⟨h, h'⟩)
        exact .inr ⟨hm, hl, State.slotNotice_posting⟩
  rw [hposts.line, hline]

end Sys2Proof.Machine

/-! What the screen does when the reel or the run ends of a machine that is not ON_SCREEN; the statement. -/

namespace Sys2Proof.Machine

open Sys2Proof Host

/-! ### A bound slot -/

theorem PlanLaw.bound_of_boundSlot {m : MachineId} {n : SlotIx} {s : State} (h : PlanLaw s)
    (hbound : (s.machine m).boundSlot = some n) :
    (s.slot (screenOf m) n).status = .bound ∧ (s.slot (screenOf m) n).bound = some m := by
  have hslot := h.toSlot m n hbound
  have hlaw := (h.slot (screenOf m) n).bound
  rw [hslot] at hlaw
  exact ⟨by simpa using hlaw.symm, hslot⟩

theorem Slot.machine_eq_some {x : Slot} {m : MachineId} (h : x.machine? = some m) : x.status = .bound ∧ x.bound = some m := by
  unfold Slot.machine? at h
  split at h
  next hstatus => exact ⟨hstatus, h⟩
  next => exact absurd h (by simp)

theorem State.waitedOn_of_opening {sc : ScreenId} {n : SlotIx} {s : State} (hopening : (s.screen sc).state = .opening)
    (hcurrent : (s.screen sc).current = some n) : s.waitedOn sc = (s.slot sc n).machine? := by
  simp only [State.waitedOn, hopening, hcurrent, if_true]

/-! ### A machine in RUNOUT -/

section

variable {m : MachineId} {n : SlotIx} {e : SlotEntry} {s : State}

theorem State.outgoingReelEnds_line (hbound : (s.machine m).boundSlot = some n)
    (hentry : (s.slot (screenOf m) n).entry = some e) : (s.outgoingReelEnds m).line
      = if e.note = true then s.line.report (.reelEnd (screenOf m) n e.reel) else s.line := by
  simp only [State.outgoingReelEnds, hbound, hentry, State.reportIf]
  split
  · rw [State.report_line, State.slotNotice_line]
  · exact State.slotNotice_line

/-- The reel of a machine in RUNOUT ends: its slot is SHOWN, and the screen stands but for its start (R117). -/
structure OutgoingEnds (m : MachineId) (n : SlotIx) (e : SlotEntry) (s t : State) : Prop where
  shown : t.slot (screenOf m) n = { s.slot (screenOf m) n with status := .shown, bound := none }
  slots : ∀ k, k ≠ n → t.slot (screenOf m) k = s.slot (screenOf m) k
  machine : (t.machine m).boundSlot = none ∧ (t.machine m).reelId = (s.machine m).reelId
  screen : t.screen (screenOf m) = { s.screen (screenOf m) with
    state := (t.screen (screenOf m)).state, startGiven := (t.screen (screenOf m)).startGiven
    startPending := (t.screen (screenOf m)).startPending }
  deaf : (s.screen (screenOf m)).Deaf → t.screen (screenOf m) = s.screen (screenOf m)
    ∧ t.line = if e.note = true then s.line.report (.reelEnd (screenOf m) n e.reel) else s.line

theorem State.outgoing_ends (hunjudged : (s.machine m).state.judged = false) (hbound : (s.machine m).boundSlot = some n)
    (hslot : (s.slot (screenOf m) n).status = .bound ∧ (s.slot (screenOf m) n).bound = some m)
    (hentry : (s.slot (screenOf m) n).entry = some e) :
    OutgoingEnds m n e s ((s.outgoingReelEnds m).evaluateScreen (screenOf m)) := by
  have hnotice := NoticeOnly.outgoingReelEnds m s
  have hslots := fun k => State.outgoingReelEnds_slot hbound (screenOf m) k
  have hmachine := State.outgoingReelEnds_machine hbound m
  have hline := State.outgoingReelEnds_line hbound hentry
  generalize s.outgoingReelEnds m = u at *
  have hunbound : (u.machine m).boundSlot = none := by
    rw [hmachine]
    exact State.slotNotice_unbinds hslot.1 hslot.2
  have hkept := (State.evaluateScreen_leaves (screenOf m) (s := u) (m := m) (by
    rw [(hnotice.machineState m).1]
    exact hunjudged)).1
  have hleft := (State.evaluateScreen_only (screenOf m) u).1
  refine ⟨?_, fun k hk => ?_, ⟨by rw [hkept]; exact hunbound, by rw [hkept, hnotice.machine m]⟩, ?_, fun hdeaf => ?_⟩
  · rw [hleft, hslots, State.slotNotice_slot, if_pos ⟨rfl, rfl, by rw [hslot.1]; rfl⟩]
  · rw [hleft, hslots, State.slotNotice_slot, if_neg fun h => hk h.2.1]
  · have hscreen := State.evaluateScreen_screen (screenOf m) u
    rw [hnotice.screen] at hscreen
    exact hscreen
  · have hposts := State.evaluateScreen_deaf (sc := screenOf m) (s := u) (by rw [hnotice.screen]; exact hdeaf)
    exact ⟨(hposts.screen _).trans (hnotice.screen _), hposts.line.trans hline⟩

end

/-! ### The machine waited on -/

section

variable {sc : ScreenId} {m : MachineId} {n : SlotIx} {s : State}

/-- The machine waited on breaks: the start is taken back, pending again (R123, R120, R108). -/
theorem State.successorLost_told (hm : screenOf m = sc) (hunjudged : (s.machine m).state.judged = false)
    (hwait : s.waitedOn sc = some m) :
    PostingsOnly (s.successorLost sc) ((s.successorLost sc).evaluateScreen sc) := by
  have hscreen : (s.successorLost sc).screen sc = { s.screen sc with
      startGiven := false, startPending := true
      state := if (s.screen sc).state = .runup ∨ (s.screen sc).state = .swapDue then .showing else (s.screen sc).state } := by
    rw [State.successorLost, State.modScreen_screen, if_pos rfl]
  have hwait' : (s.successorLost sc).waitedOn sc = some m := by
    have hslot : ∀ z k, (s.successorLost sc).slot z k = s.slot z k := fun _ _ => rfl
    by_cases hback : (s.screen sc).state = .runup ∨ (s.screen sc).state = .swapDue
    · rw [if_pos hback] at hscreen
      have hawake : (s.screen sc).state ≠ .opening ∧ (s.screen sc).state ≠ .idle := by
        obtain h | h := hback <;> rw [h] <;> decide
      have hstate : ((s.successorLost sc).screen sc).state = .showing := by rw [hscreen]
      rw [State.waitedOn_of_notOpening hawake.1] at hwait
      rw [State.waitedOn_of_notOpening (by rw [hstate]; decide), (State.onDeck_congr (by rw [hscreen])
        ⟨fun h => absurd (hstate.symm.trans h) (by decide), fun h => absurd h hawake.2⟩ (hslot sc)).2]
      exact hwait
    · rw [if_neg hback] at hscreen
      rw [← hwait]
      simp only [State.waitedOn, State.successor, State.onDeck, State.showableAbove, hscreen, hslot]
  refine State.evaluateScreen_unstirred fun j hj => ?_
  by_cases hjm : j = m
  · subst hjm
    exact .inr (.inr (.inr hunjudged))
  · refine .inr (.inl ?_)
    rw [hj, hwait']
    exact fun h => hjm (Option.some.inj h).symm

/-- The machine of an opening runs its reel without the screen: the slot is CUT and the screen IDLE (R108). -/
theorem State.openingReelEnds_told (hcurrent : (s.screen sc).current = some n) :
    (s.openingReelEnds sc).screen sc = { (s.screen sc).goIdle with faultClaim := .none }
      ∧ (s.openingReelEnds sc).line = s.line.report (.missed sc (some n) .cut)
      ∧ (∀ c, ((s.openingReelEnds sc).circuit sc c).claims.fault = none)
      ∧ (∀ k, (s.openingReelEnds sc).slot sc k = (s.slotNotice sc n .cut).slot sc k)
      ∧ ∀ j, ((s.slotNotice sc n .cut).machine j).state.judged = false →
        (s.openingReelEnds sc).machine j = (s.slotNotice sc n .cut).machine j := by
  have heq : s.openingReelEnds sc
      = (((s.slotNotice sc n .cut).report (.missed sc (some n) .cut)).releaseFault sc).idled sc := by
    simp only [State.openingReelEnds, hcurrent]
    rfl
  have hscreen : (((s.slotNotice sc n .cut).report (.missed sc (some n) .cut)).releaseFault sc).screen sc
      = { s.screen sc with faultClaim := .none } := by
    rw [State.releaseFault_screen, if_pos rfl, State.report_screen, (NoticeOnly.slotNotice sc n .cut s).screen]
  have hline : (((s.slotNotice sc n .cut).report (.missed sc (some n) .cut)).releaseFault sc).line
      = s.line.report (.missed sc (some n) .cut) := by
    simp only [State.releaseFault, State.releaseThree, State.modScreen_line, State.modCircuit_line, State.report_line,
      State.slotNotice_line]
  have hclaims : ∀ c, ((((s.slotNotice sc n .cut).report (.missed sc (some n) .cut)).releaseFault sc).circuit sc c).claims.fault
      = none := fun c => by
    rw [State.releaseFault_circuit, if_pos rfl]
    exact Circuit.release_self _ .fault _
  have hplan : (((s.slotNotice sc n .cut).report (.missed sc (some n) .cut)).releaseFault sc).plan
      = (s.slotNotice sc n .cut).plan := by
    simp only [State.releaseFault, State.releaseThree, State.modScreen_plan, State.modCircuit_plan, State.report_plan]
  have hmachine : ∀ j, (((s.slotNotice sc n .cut).report (.missed sc (some n) .cut)).releaseFault sc).machine j
      = (s.slotNotice sc n .cut).machine j := fun j => by
    unfold State.machine
    simp only [State.releaseFault, State.releaseThree, State.modScreen_machines, State.modCircuit_machines,
      State.report_machines]
  rw [heq]
  generalize ((s.slotNotice sc n .cut).report (.missed sc (some n) .cut)).releaseFault sc = u at *
  have hposts := u.idled_posts sc
  refine ⟨?_, (u.idled_line sc).trans hline, fun c => by rw [u.idled_circuit]; exact hclaims c, fun k => ?_, fun j hj => ?_⟩
  · rw [u.idled_screen, hscreen]
    rfl
  · exact (hposts.slot sc k).trans (State.slot_of_plan hplan sc k)
  · rw [hposts.unjudged (by rw [State.modScreen_machine, hmachine]; exact hj), State.modScreen_machine, hmachine]

/-- The screen's record as its successor has run its reel behind a closed douser (R122). -/
def ScreenRec.successorMissed (x : ScreenRec) : ScreenRec :=
  { x with
    startGiven := false, point := none
    state := if x.state = .runup ∨ x.state = .swapDue then .showing else x.state }

theorem State.successorReelEnds_told (hdeck : s.onDeck sc = some n) (hopening : (s.screen sc).state ≠ .opening) :
    let t := s.successorReelEnds sc
    (t.screen sc = { (s.screen sc).successorMissed with
        state := (t.screen sc).state, startGiven := (t.screen sc).startGiven, startPending := (t.screen sc).startPending })
      ∧ (∀ c, t.circuit sc c = s.circuit sc c)
      ∧ (∀ k, t.slot sc k = (s.slotNotice sc n .cut).slot sc k)
      ∧ (∀ j, ((s.slotNotice sc n .cut).machine j).state.judged = false → t.machine j = (s.slotNotice sc n .cut).machine j)
      ∧ ((s.screen sc).startPending = false →
        t.screen sc = (s.screen sc).successorMissed ∧ t.line = s.line.report (.missed sc (some n) .cut)) := by
  have hnotice := NoticeOnly.slotNotice sc n .cut s
  have heq : s.successorReelEnds sc = (((s.slotNotice sc n .cut).modScreen sc ScreenRec.successorMissed).report
      (.missed sc (some n) .cut)).evaluateScreen sc := by
    simp only [State.successorReelEnds, hdeck]
    rfl
  have hscreen : (((s.slotNotice sc n .cut).modScreen sc ScreenRec.successorMissed).report (.missed sc (some n) .cut)).screen sc
      = (s.screen sc).successorMissed := by
    rw [State.report_screen, State.modScreen_screen, if_pos rfl, hnotice.screen]
  have hline : (((s.slotNotice sc n .cut).modScreen sc ScreenRec.successorMissed).report (.missed sc (some n) .cut)).line
      = s.line.report (.missed sc (some n) .cut) := by
    rw [State.report_line, State.modScreen_line, State.slotNotice_line]
  have hlights : (((s.slotNotice sc n .cut).modScreen sc ScreenRec.successorMissed).report (.missed sc (some n) .cut)).lights
      = s.lights := hnotice.lights
  have hslot : ∀ k, (((s.slotNotice sc n .cut).modScreen sc ScreenRec.successorMissed).report
      (.missed sc (some n) .cut)).slot sc k = (s.slotNotice sc n .cut).slot sc k := fun _ => rfl
  have hmachine : ∀ j, (((s.slotNotice sc n .cut).modScreen sc ScreenRec.successorMissed).report
      (.missed sc (some n) .cut)).machine j = (s.slotNotice sc n .cut).machine j := fun _ => rfl
  dsimp only
  rw [heq]
  generalize ((s.slotNotice sc n .cut).modScreen sc ScreenRec.successorMissed).report (.missed sc (some n) .cut) = u at *
  have hstate : (s.screen sc).successorMissed.state ≠ .opening := by
    unfold ScreenRec.successorMissed
    dsimp only
    split
    · decide
    · exact hopening
  refine ⟨?_, fun c => ?_, fun k => ?_, fun j hj => ?_, fun hpending => ?_⟩
  · have hkept := State.evaluateScreen_screen sc u
    rw [hscreen] at hkept
    exact hkept
  · have hawake := (State.evaluateScreen_awake (s := u) (sc := sc) (by rw [hscreen]; exact hstate)).1
    unfold State.circuit
    rw [hawake, hlights]
  · rw [(State.evaluateScreen_only sc u).1, hslot]
  · rw [(State.evaluateScreen_leaves sc (s := u) (m := j) (by rw [hmachine]; exact hj)).1, hmachine]
  · have hposts := State.evaluateScreen_deaf (sc := sc) (s := u) (by
      rw [hscreen]
      exact ⟨hstate, fun h => absurd (hpending.symm.trans h) (by decide)⟩)
    exact ⟨(hposts.screen sc).trans hscreen, hposts.line.trans hline⟩

end

end Sys2Proof.Machine

/-! The statement about a screen and its reel. -/

namespace Sys2Proof.Machine

open Sys2Proof Host

section

variable {m : MachineId} {s : State}

/-- A reel end is the notice to the screen, and then the lamp's change. -/
theorem State.reelEnd_moves
    (h : (((s.modMachine m MachineRec.enterStopped).reelEndNotice m (s.machine m).state).screen (screenOf m)).onScreen ≠ some m) :
    LampMoves m ((s.modMachine m MachineRec.enterStopped).reelEndNotice m (s.machine m).state) (s.reelEnd m) :=
  LampMoves.putOut (Reactions.reelEndNotice m _ (.refl' (s.modMachine m MachineRec.enterStopped))).machine_of_stopped.1 h _

/-- The current slot of the screen given, the ON_SCREEN machine breaks: its slot is CUT and the screen DARK. -/
theorem State.breakRun_onScreen {cause : BreakCause} {n : SlotIx} (hon : (s.screen (screenOf m)).onScreen = some m)
    (hcurrent : (s.screen (screenOf m)).current = some n) (hstate : (s.machine m).state = .onScreen) :
    s.breakRun m cause = ((s.breakMachine m cause).slotNotice (screenOf m) n .cut).enterDark (screenOf m) .brk m
      (s.machine m).frameCount := by
  have hrests := Rests.breakMachine m cause s
  have hcount := hrests.kept.2.2
  have hscreen := hrests.screen (screenOf m)
  unfold State.breakRun State.breakNotice
  generalize s.breakMachine m cause = v at *
  simp only [hscreen, hon, hcurrent, hstate, hcount, reduceCtorEq, if_false, if_true]

theorem State.reelEndNotice_onScreen {v : State} (hon : (v.screen (screenOf m)).onScreen = some m) :
    v.reelEndNotice m .onScreen = v.onScreenReelEnds (screenOf m) m := by
  simp only [State.reelEndNotice, hon, reduceCtorEq, if_false, if_true]

theorem State.reelEndNotice_runout (v : State) :
    v.reelEndNotice m .runout = (v.outgoingReelEnds m).evaluateScreen (screenOf m) := by
  unfold State.reelEndNotice
  exact if_pos rfl

theorem State.breakRun_runout {cause : BreakCause} (hstate : (s.machine m).state = .runout) :
    s.breakRun m cause = ((s.breakMachine m cause).outgoingReelEnds m).evaluateScreen (screenOf m) := by
  unfold State.breakRun State.breakNotice
  rw [hstate]
  exact if_pos rfl

theorem State.breakRun_awaited {cause : BreakCause} (hon : (s.screen (screenOf m)).onScreen ≠ some m)
    (hwait : s.waitedOn (screenOf m) = some m) (hawaits : (s.screen (screenOf m)).state.awaits = true)
    (hrunout : (s.machine m).state ≠ .runout) :
    s.breakRun m cause = ((s.breakMachine m cause).successorLost (screenOf m)).evaluateScreen (screenOf m) := by
  have hrests := Rests.breakMachine m cause s
  unfold State.breakRun State.breakNotice
  dsimp only
  rw [if_neg hrunout, if_neg (by rw [hrests.screen]; exact hon),
    if_pos ⟨by rw [hrests.waitedOn]; exact hwait, by rw [hrests.screen]; exact hawaits⟩]

theorem State.reelEndNotice_awaited {v : State} {left : MachineState} (hleft : left ≠ .runout)
    (hon : (v.screen (screenOf m)).onScreen ≠ some m) (hwait : v.waitedOn (screenOf m) = some m) :
    v.reelEndNotice m left = if (v.screen (screenOf m)).state = .opening then v.openingReelEnds (screenOf m)
      else v.successorReelEnds (screenOf m) := by
  unfold State.reelEndNotice
  dsimp only
  rw [if_neg hleft, if_neg hon, if_pos hwait]

end

/-- Settles O40: the reel or the run of a machine ends by what the machine is to its screen. -/
theorem screenFollowsItsReel : Obligations.ScreenFollowsItsReel := by
  intro m s sc x back
  refine ⟨?_, ?_, ?_, ?_, ?_⟩
  · intro n e hon hcurrent hentry hshow hstate dark waits frame ended
    have hbeginsDark : ∀ {st : SlotStatus} {v u : State} (cause : DarkCause), Rests m s v →
        (u.screen sc).current = some n → u.lights = s.lights → dark (u.enterDark sc cause m frame) := by
      intro st v u cause hv hu hlights
      have hdark := State.enterDark_dark sc cause m frame u rfl
      rw [hu, State.sceneLevels, hlights] at hdark
      exact hdark
    refine ⟨fun cause => ?_, ?_⟩
    · have hv := Rests.breakMachine m cause s
      have hline : (s.breakMachine m cause).line = s.line.report (.broke m cause frame) := rfl
      rw [State.breakRun_onScreen hon hcurrent hstate]
      generalize s.breakMachine m cause = v at *
      have hnotice := NoticeOnly.slotNotice sc n .cut v
      have hscreen : (v.slotNotice sc n .cut).screen sc = s.screen sc := (hnotice.screen sc).trans (hv.screen sc)
      refine ⟨?_, ?_, fun hwaits => ?_⟩
      · exact hbeginsDark (st := .cut) .brk hv (by rw [hscreen]; exact hcurrent) (hnotice.lights.trans hv.lights)
      · change (((v.slotNotice sc n .cut).enterDark sc .brk m _).slot sc n).status = _
        rw [State.enterDark_slot, State.slotNotice_slot, if_pos ⟨rfl, rfl, by rw [hv.slot]; exact hshow⟩]
      · refine (State.enterDark_quiet (st := .cut) hv hcurrent hwaits.1 hwaits.2 (by rw [hscreen]; exact ⟨hcurrent, rfl⟩)
          ⟨rfl, rfl, rfl, rfl⟩ .brk frame).trans ?_
        rw [State.slotNotice_line, hline]
    · intro t
      have hv := Rests.enterStopped m s
      have hline : (s.modMachine m MachineRec.enterStopped).line = s.line := rfl
      have hmoves := State.reelEnd_moves (m := m) (s := s)
      rw [hstate, State.reelEndNotice_onScreen (by rw [hv.screen]; exact hon),
        State.onScreenReelEnds_eq (by rw [hv.screen]; exact hcurrent) (by rw [hv.slot]; exact hentry), hv.kept.2.2] at hmoves
      generalize s.modMachine m MachineRec.enterStopped = v at *
      have hscreen : (v.reelShown sc n e).screen sc = x.unscreen := by
        rw [State.reelShown_screen, hv.screen]
      have hrest := State.reelShown_rest (sc := sc) (n := n) (e := e) (s := v)
      have hshown : (v.reelShown sc n e).slot sc n = { v.slot sc n with status := .shown, bound := none } := by
        rw [State.slot_of_plan hrest.2.2.1, State.slotNotice_slot, if_pos ⟨rfl, rfl, by rw [hv.slot]; exact hshow⟩]
      have htold : (v.reelShown sc n e).line = ended := by
        rw [State.reelShown_line, hline]
      have hlights : (v.reelShown sc n e).lights = s.lights :=
        hrest.2.2.2.2.trans ((NoticeOnly.slotNotice sc n .shown v).lights.trans hv.lights)
      generalize v.reelShown sc n e = u at *
      have hended : ∀ w, (w = u.endProgramme sc ∨ (∃ k, w = u.enterInterval sc k) ∨ w = u.enterDark sc .runout m frame) →
          (w.screen sc).onScreen = none ∧ w.slot sc n = u.slot sc n := by
        rintro w (rfl | ⟨k, rfl⟩ | rfl)
        · rw [(u.endProgramme_told sc).1, State.endProgramme_slot]
          exact ⟨rfl, rfl⟩
        · rw [(u.enterInterval_told sc k).1, State.paused_screen, State.enterInterval_slot, hscreen]
          exact ⟨rfl, rfl⟩
        · rw [State.enterDark_slot]
          exact ⟨(u.enterDark_dark sc .runout m frame rfl).2.1, rfl⟩
      generalize hw : (if e.last = true then u.endProgramme sc else
        match e.int with
        | some k => u.enterInterval sc k
        | none => u.enterDark sc .runout m (s.machine m).frameCount) = w at hmoves
      have hkind : w = u.endProgramme sc ∨ (∃ k, w = u.enterInterval sc k) ∨ w = u.enterDark sc .runout m frame := by
        rw [← hw]
        split
        · exact .inl rfl
        · split
          next k _ => exact .inr (.inl ⟨k, rfl⟩)
          next => exact .inr (.inr rfl)
      obtain ⟨hnone, hslot⟩ := hended w hkind
      have hmoves := hmoves (by rw [hnone]; exact nofun)
      have htscreen : t.screen sc = w.screen sc := hmoves.screen sc
      have htcircuit : ∀ c, t.circuit sc c = w.circuit sc c := hmoves.circuit sc
      have htline : t.line = w.line := hmoves.line
      have htslot : t.slot sc n = { v.slot sc n with status := .shown, bound := none } :=
        (hmoves.slot sc n).trans (hslot.trans hshown)
      refine ⟨by rw [htslot], by rw [htslot], fun hlast => ?_, fun k hlast hint => ?_, fun hlast hint => ?_⟩
      · rw [if_pos hlast] at hw
        obtain ⟨hend, hendLine, hclaims⟩ := u.endProgramme_told sc
        rw [hw] at hend hendLine
        rw [hw] at hclaims
        rw [htscreen, hend]
        refine ⟨rfl, rfl, rfl, rfl, rfl, rfl, rfl, rfl, fun _ => ?_, fun c => ?_⟩
        · rw [htline, hendLine, htold, hscreen]
          exact congrArg (fun o => ended.report (.planEnd sc o)) hcurrent
        · rw [htcircuit]
          exact hclaims c
      · rw [if_neg (by rw [hlast]; decide), hint] at hw
        obtain ⟨hpaused, hpausedLine, hpausedCircuit⟩ := u.enterInterval_told sc k
        have hclaims := fun c => u.paused_claims sc k c
        dsimp only at hw
        rw [hw] at hpaused hpausedLine hpausedCircuit
        rw [htscreen, hpaused, State.paused_screen, hscreen]
        refine ⟨rfl, rfl, rfl, rfl, rfl, hcurrent, fun _ => ?_, fun c => ?_⟩
        · rw [htline, hpausedLine, htold, hscreen]
          exact congrArg (fun o => ended.report (.interval sc o k)) hcurrent
        · obtain ⟨hfault, y, hcue, htarget, hfade⟩ := hclaims c
          rw [htcircuit, hpausedCircuit]
          refine ⟨hfault, y, hcue, ?_, hfade⟩
          rw [htarget, State.sceneLevels, hlights]
          rfl
      · rw [if_neg (by rw [hlast]; decide), hint] at hw
        dsimp only at hw
        have hdark : dark w := hw ▸ hbeginsDark (st := .shown) .runout hv (by rw [hscreen]; exact hcurrent) hlights
        refine ⟨?_, fun hwaits => ?_⟩
        · obtain ⟨h1, h2, h3, h4, h5, h6, h7, h8⟩ := hdark
          rw [← htscreen] at h1 h2 h3 h4 h5 h6 h7
          exact ⟨h1, h2, h3, h4, h5, h6, h7, fun c => by rw [htcircuit]; exact h8 c⟩
        · rw [htline, ← hw, ← htold]
          exact State.enterDark_quiet (st := .shown) hv hcurrent hwaits.1 hwaits.2
            (by rw [hscreen]; exact ⟨hcurrent, rfl⟩) ⟨hrest.1, hrest.2.1, hrest.2.2.1, hrest.2.2.2.1⟩ .runout frame
  · intro n e cause t hplan hon hstate hbound hentry ht
    have hslot := hplan.bound_of_boundSlot hbound
    -- what follows the reel's end, at a machine that has come to rest as `v`
    have hends : ∀ v, Rests m s v → OutgoingEnds m n e v ((v.outgoingReelEnds m).evaluateScreen sc) := fun v hv =>
      State.outgoing_ends hv.unjudged (hv.kept.1.trans hbound) (by rw [hv.slot]; exact hslot)
        (by rw [hv.slot]; exact hentry)
    have hclaims : ∀ v u, Rests m s v → OutgoingEnds m n e v u → LampMoves m u t →
        (t.slot sc n = { s.slot sc n with status := .shown, bound := none }
          ∧ (∀ k, k ≠ n → t.slot sc k = s.slot sc k)
          ∧ (t.machine m).boundSlot = none ∧ (t.machine m).reelId = (s.machine m).reelId)
        ∧ t.screen sc = { x with
            state := (t.screen sc).state, startGiven := (t.screen sc).startGiven, startPending := (t.screen sc).startPending }
        ∧ (x.startPending = false → x.state ≠ .opening → t.screen sc = x
          ∧ t.line = if e.note = true then v.line.report (.reelEnd sc n e.reel) else v.line) := by
      intro v u hv hu hmoves
      refine ⟨⟨?_, fun k hk => ?_, hmoves.machine.1.trans hu.machine.1,
        hmoves.machine.2.2.trans (hu.machine.2.trans hv.kept.2.1)⟩, ?_, fun hpending hopening => ?_⟩
      · rw [hmoves.slot, hu.shown, hv.slot]
      · rw [hmoves.slot, hu.slots k hk, hv.slot]
      · have hscreen := hu.screen
        rw [hv.screen] at hscreen
        rw [hmoves.screen]
        exact hscreen
      · obtain ⟨hscreen, hline⟩ := hu.deaf (by
          rw [hv.screen]
          exact ⟨hopening, fun h => absurd (hpending.symm.trans h) (by decide)⟩)
        exact ⟨(hmoves.screen sc).trans (hscreen.trans (hv.screen sc)), hmoves.line.trans hline⟩
    have hstops := Rests.enterStopped m s
    have hbreaks := Rests.breakMachine m cause s
    have hofEnd := fun h : t = s.reelEnd m => hclaims _ _ hstops (hends _ hstops) (by
      have hmoves := State.reelEnd_moves (m := m) (s := s)
      rw [hstate, State.reelEndNotice_runout] at hmoves
      rw [h]
      refine hmoves ?_
      rw [(hends _ hstops).screen, hstops.screen]
      exact hon)
    have hofBreak := fun h : t = s.breakRun m cause => hclaims _ _ hbreaks (hends _ hbreaks) (by
      rw [h, State.breakRun_runout hstate]
      exact .refl m _)
    have hkept : _ ∧ t.screen sc = _ := ht.elim (fun h => ⟨(hofEnd h).1, (hofEnd h).2.1⟩)
      (fun h => ⟨(hofBreak h).1, (hofBreak h).2.1⟩)
    obtain ⟨⟨hshown, hothers, hunbound, hreel⟩, hscreen⟩ := hkept
    refine ⟨hshown, hothers, hunbound, hreel, by rw [hscreen], by rw [hscreen], by rw [hscreen], by rw [hscreen],
      by rw [hscreen], by rw [hscreen], by rw [hscreen], by rw [hscreen], ?_⟩
    intro hpending hopening ended
    refine ⟨ht.elim (fun h => ((hofEnd h).2.2 hpending hopening).1) (fun h => ((hofBreak h).2.2 hpending hopening).1),
      fun h => ((hofEnd h).2.2 hpending hopening).2, fun h => ((hofBreak h).2.2 hpending hopening).2⟩
  · intro cause hon hwait hawaits _ hrunout t
    have hv := Rests.breakMachine m cause s
    have ht : t = ((s.breakMachine m cause).successorLost sc).evaluateScreen sc :=
      State.breakRun_awaited hon hwait hawaits hrunout
    have hstate : ((s.breakMachine m cause).machine m).state = .broken := by
      rw [State.breakMachine_machine]
      exact ((s.machine m).brokenNow_fields cause).1
    have hline : (s.breakMachine m cause).line = s.line.report (.broke m cause (s.machine m).frameCount) := rfl
    generalize s.breakMachine m cause = v at *
    have hposts := State.successorLost_told (s := v) rfl hv.unjudged (by rw [hv.waitedOn]; exact hwait)
    rw [← ht] at hposts
    have hmachine : t.machine m = v.machine m := hposts.unjudged hv.unjudged
    refine ⟨?_, fun k => (hposts.slot sc k).trans (hv.slot sc k), by rw [hmachine]; exact hstate,
      by rw [hmachine]; exact hv.kept.1, fun c => (hposts.circuit sc c).trans (hv.circuit sc c), hposts.line.trans hline⟩
    rw [hposts.screen, State.successorLost, State.modScreen_screen, if_pos rfl, hv.screen]
    change ({ x with
      startGiven := false, startPending := true
      state := if x.state = .runup ∨ x.state = .swapDue then .showing else x.state } : ScreenRec) = _
    cases x.state <;> rfl
  · intro n hplan hon hwait hopening hcurrent hstate t
    have hslot : (s.slot sc n).status = .bound ∧ (s.slot sc n).bound = some m :=
      Slot.machine_eq_some ((State.waitedOn_of_opening hopening hcurrent).symm.trans hwait)
    have hv := Rests.enterStopped m s
    have hrunout : (s.machine m).state ≠ .runout := by obtain h | h := hstate <;> rw [h] <;> decide
    have hmoves := State.reelEnd_moves (m := m) (s := s)
    have hline : (s.modMachine m MachineRec.enterStopped).line = s.line := rfl
    have hstopped := (s.reelEnd_reactions m).machine_of_stopped.1
    rw [State.reelEndNotice_awaited hrunout (by rw [hv.screen]; exact hon) (by rw [hv.waitedOn]; exact hwait),
      if_pos (by rw [hv.screen]; exact hopening)] at hmoves
    generalize s.modMachine m MachineRec.enterStopped = v at *
    obtain ⟨hscreen, htold, hclaims, hslots, hmachine⟩ :=
      State.openingReelEnds_told (sc := sc) (n := n) (s := v) (by rw [hv.screen]; exact hcurrent)
    have hmoves := hmoves (by rw [hscreen]; exact nofun)
    have hunbound : ((v.slotNotice sc n .cut).machine m).boundSlot = none :=
      State.slotNotice_unbinds (by rw [hv.slot]; exact hslot.1) (by rw [hv.slot]; exact hslot.2)
    have hkept := hmachine m (by rw [((NoticeOnly.slotNotice sc n .cut v).machineState m).1]; exact hv.unjudged)
    refine ⟨?_, ?_, hstopped, fun c => ?_, ?_, ?_⟩
    · rw [hmoves.slot, hslots, State.slotNotice_slot, hv.slot, if_pos ⟨rfl, rfl, by rw [hslot.1]; rfl⟩]
    · rw [hmoves.machine.1, hkept, hunbound]
    · rw [hmoves.circuit]
      exact hclaims c
    · rw [hmoves.line, htold, hline]
    · rw [hmoves.screen, hscreen, hv.screen]
      rfl
  · intro n hplan hon hwait hopening hdeck hstate t
    have hslot : (s.slot sc n).status = .bound ∧ (s.slot sc n).bound = some m :=
      Slot.machine_eq_some (by simpa only [State.successor, hdeck] using hwait)
    have hv := Rests.enterStopped m s
    have hrunout : (s.machine m).state ≠ .runout := by obtain h | h := hstate <;> rw [h] <;> decide
    have hmoves := State.reelEnd_moves (m := m) (s := s)
    have hline : (s.modMachine m MachineRec.enterStopped).line = s.line := rfl
    have hstopped := (s.reelEnd_reactions m).machine_of_stopped.1
    rw [State.reelEndNotice_awaited hrunout (by rw [hv.screen]; exact hon)
      (by rw [hv.waitedOn, State.waitedOn_of_notOpening hopening]; exact hwait),
      if_neg (by rw [hv.screen]; exact hopening)] at hmoves
    generalize s.modMachine m MachineRec.enterStopped = v at *
    obtain ⟨hscreen, hcircuit, hslots, hmachine, hquiet⟩ :=
      State.successorReelEnds_told (sc := sc) (n := n) (s := v) (by rw [hv.onDeck]; exact hdeck)
        (by rw [hv.screen]; exact hopening)
    rw [hv.screen] at hscreen hquiet
    have hmoves := hmoves (by rw [hscreen]; exact hon)
    have hunbound : ((v.slotNotice sc n .cut).machine m).boundSlot = none :=
      State.slotNotice_unbinds (by rw [hv.slot]; exact hslot.1) (by rw [hv.slot]; exact hslot.2)
    have hkept := hmachine m (by rw [((NoticeOnly.slotNotice sc n .cut v).machineState m).1]; exact hv.unjudged)
    have hback : x.successorMissed = { x with startGiven := false, point := none, state := back x.state } := by
      unfold ScreenRec.successorMissed
      cases x.state <;> rfl
    refine ⟨?_, ?_, hstopped, ?_, ?_, ?_, fun c => ?_, fun hpending => ⟨?_, ?_⟩⟩
    · rw [hmoves.slot, hslots, State.slotNotice_slot, hv.slot, if_pos ⟨rfl, rfl, by rw [hslot.1]; rfl⟩]
    · rw [hmoves.machine.1, hkept, hunbound]
    · rw [hmoves.screen, hscreen]
      rfl
    · rw [hmoves.screen, hscreen]
      rfl
    · rw [hmoves.screen, hscreen]
      rfl
    · rw [hmoves.circuit, hcircuit, hv.circuit]
    · rw [hmoves.screen, (hquiet hpending).1, ← hback]
    · rw [hmoves.line, (hquiet hpending).2, hline]

end Sys2Proof.Machine

/-! What the orders of a trip make of the machines, the lamps and the lights. -/

namespace Sys2Proof.Machine

open Sys2Proof Host

/-! ### The record of a machine that is tripped -/

/-- Record `x` is what a trip makes of `r` (R19). -/
structure MachineRec.TrippedFrom (r x : MachineRec) : Prop where
  state : x.state = .tripped
  douser : x.douser = .closed
  already : r.state = .tripped → x.stateBeforeTrip = r.stateBeforeTrip ∧ x.motor = r.motor
  now : r.state ≠ .tripped → x.stateBeforeTrip = some r.state ∧ x.motor = false ∧ x.holds.fire = true
    ∧ x.douserRequest = .closed
  kept : MachineKept { r with holds := { r.holds with fire := x.holds.fire } } x

namespace MachineRec.TrippedFrom

variable {r x y : MachineRec}

theorem trip (r : MachineRec) : r.TrippedFrom r.trip.settleDouser := by
  have hstate := r.trip_state
  have hdouser : r.trip.settleDouser.douser = .closed := MachineRec.settleDouser_closed (by rw [hstate]; decide)
  refine ⟨hstate, hdouser, fun h => ?_, fun h => ?_, ?_⟩
  · have htrip : r.trip = r := if_pos h
    rw [htrip]
    exact ⟨rfl, rfl⟩
  · have htrip : r.trip = ({ r.leaveBroken with
        stateBeforeTrip := some r.state
        holds := r.leaveBroken.holds.put .fire true
        douserRequest := .closed
        state := .tripped } : MachineRec).motorOff := if_neg h
    rw [htrip]
    refine ⟨?_, MachineRec.motorOff_motor _, ?_, ?_⟩ <;> (unfold MachineRec.motorOff; split <;> rfl)
  · unfold MachineRec.trip MachineRec.leaveBroken MachineRec.motorOff
    split
    · exact ⟨rfl, rfl, rfl, rfl, rfl, rfl, rfl, rfl, rfl⟩
    · split <;> split <;> exact ⟨rfl, rfl, rfl, rfl, rfl, rfl, rfl, rfl, rfl⟩

/-- A tripped machine takes its LAMP hold. -/
theorem lampHold (h : r.TrippedFrom x) (b : Bool) :
    r.TrippedFrom (MachineRec.settleDouser { x with holds := x.holds.put .lamp b }) := by
  refine ⟨h.state, MachineRec.settleDouser_closed ?_, h.already, h.now, ?_⟩
  · change x.state ≠ .onScreen
    rw [h.state]
    decide
  · exact ⟨h.kept.reelId, h.kept.frameCount, h.kept.saturated, h.kept.console, rfl, h.kept.allowance,
      h.kept.lastAverage, h.kept.loopSwitch, h.kept.contactorSense⟩

/-- What the show does afterwards leaves a tripped machine so. -/
theorem reacts {s t : State} {m : MachineId} (h : r.TrippedFrom (s.machine m)) (hreact : Reactions s t) :
    r.TrippedFrom (t.machine m) := by
  have hkept := hreact.machine_of_resting (m := m) (by rw [h.state]; rfl) h.douser
  rw [hkept]
  exact ⟨h.state, h.douser, h.already, h.now, h.kept.reelId, h.kept.frameCount, h.kept.saturated, h.kept.console, rfl,
    h.kept.allowance, h.kept.lastAverage, h.kept.loopSwitch, h.kept.contactorSense⟩

end MachineRec.TrippedFrom

/-! ### Trip orders -/

/-- The machines of `l` are tripped and their lamps put out; nothing else changes but the decoders and the last
postings (R19, R73). -/
structure TripOrders (l : List MachineId) (s t : State) : Prop where
  rest : t = { s with machines := t.machines, decoders := t.decoders, lamps := t.lamps, plan := t.plan }
  plan : t.plan = { s.plan with lastPosting := t.plan.lastPosting }
  tripped : ∀ m ∈ l, (s.machine m).TrippedFrom (t.machine m) ∧ t.lamp m = (s.lamp m).putOut
  others : ∀ m, m ∉ l → t.machine m = s.machine m ∧ t.lamp m = s.lamp m
  bound : ∀ m, (t.machine m).boundSlot = (s.machine m).boundSlot

namespace TripOrders

variable {l : List MachineId} {s t : State}

theorem nil (s : State) : TripOrders [] s s := ⟨rfl, rfl, nofun, fun _ _ => ⟨rfl, rfl⟩, fun _ => rfl⟩

theorem tripped_tripOrder (m : MachineId) (s : State) : (s.machine m).TrippedFrom ((s.tripOrder m).machine m) := by
  have htrip : (s.machine m).TrippedFrom ((s.modMachine m MachineRec.trip).machine m) := by
    rw [State.modMachine_machine, if_pos rfl]
    exact .trip _
  unfold State.tripOrder
  rw [State.modLamp_machine', if_pos rfl]
  split
  · exact htrip
  · exact htrip.lampHold _

theorem plan_tripOrder (m : MachineId) (s : State) :
    (s.tripOrder m).plan = { s.plan with lastPosting := (s.tripOrder m).plan.lastPosting } := by
  have hlamp := State.modLamp_plan m LampRec.putOut (s.modMachine m MachineRec.trip)
  rw [(State.modMachine_planOnly m MachineRec.trip s).1] at hlamp
  exact hlamp

theorem cons {m : MachineId} (h : TripOrders l s t) (hm : m ∉ l) : TripOrders (m :: l) s (t.tripOrder m) := by
  obtain ⟨hmachine, hlamp⟩ := h.others m hm
  have hother : ∀ k, k ≠ m → (t.tripOrder m).machine k = t.machine k ∧ (t.tripOrder m).lamp k = t.lamp k := fun k hk =>
    ⟨(State.tripOrder_machine m k t).2.1 hk, ((State.tripOrder_machine m k t).1).trans (if_neg hk)⟩
  have hrest : t.tripOrder m = { t with
      machines := (t.tripOrder m).machines, decoders := (t.tripOrder m).decoders, lamps := (t.tripOrder m).lamps
      plan := (t.tripOrder m).plan } := by
    unfold State.tripOrder
    obtain e | ⟨b, e⟩ := (t.modMachine m MachineRec.trip).modLamp_split m LampRec.putOut <;> rw [e] <;> rfl
  refine ⟨?_, ?_, fun k hk => ?_, fun k hk => ?_, fun k => ?_⟩
  · generalize t.tripOrder m = u at hrest ⊢
    rw [h.rest] at hrest
    exact hrest
  · have hplan := plan_tripOrder m t
    rw [h.plan] at hplan
    exact hplan
  · by_cases hkm : k = m
    · subst hkm
      refine ⟨?_, ((State.tripOrder_machine k k t).1.trans (if_pos rfl)).trans (by rw [hlamp])⟩
      rw [← hmachine]
      exact tripped_tripOrder k t
    · obtain ⟨hmk, hlk⟩ := hother k hkm
      rw [hmk, hlk]
      exact h.tripped k ((List.mem_cons.1 hk).resolve_left hkm)
  · obtain ⟨hkm, hkl⟩ := not_or.1 (mt List.mem_cons.2 hk)
    obtain ⟨hmk, hlk⟩ := hother k hkm
    rw [hmk, hlk]
    exact h.others k hkl
  · by_cases hkm : k = m
    · subst hkm
      rw [((State.tripOrder_machine k k t).2.2 rfl).2.2.2.1, (t.machine k).trip_kept.1, h.bound]
    · rw [(hother k hkm).1, h.bound]

/-- A booth trip orders every machine (R152). -/
theorem tripAll (s : State) : TripOrders [.m4, .m3, .m2, .m1] s s.tripAll :=
  ((((nil s).cons (m := .m1) (by decide)).cons (m := .m2) (by decide)).cons (m := .m3) (by decide)).cons (m := .m4)
    (by decide)

section

variable (h : TripOrders l s t)
include h

theorem screen (z : ScreenId) : t.screen z = s.screen z := by rw [h.rest]; rfl

theorem slot (z : ScreenId) (n : SlotIx) : t.slot z n = s.slot z n := State.slot_of_tables (by rw [h.plan]) z n

theorem circuit (z : ScreenId) (c : CircuitId) : t.circuit z c = s.circuit z c := by rw [h.rest]; rfl

end

end TripOrders

/-! ### The lights under SAFETY -/

/-- SAFETY governs at once at 255, and the other claims stand (R139, R136). -/
theorem Circuit.place_safety_full (h : Nat) (c : Circuit) :
    (c.place h .safety 255 0).output = 255
      ∧ (∃ x, (c.place h .safety 255 0).claims.safety = some x ∧ x.target = 255 ∧ x.fade = 0)
      ∧ sameClaim (c.place h .safety 255 0).claims.fault c.claims.fault
      ∧ sameClaim (c.place h .safety 255 0).claims.cue c.claims.cue
      ∧ sameClaim (c.place h .safety 255 0).claims.console c.claims.console := by
  have hfree : ¬ c.claims.Outranked .safety := fun ⟨q, hq, _⟩ => absurd hq (by simp [Rank.above])
  have hplaced := (Circuit.place_governs h 255 0 hfree).1 rfl
  refine ⟨by rw [hplaced], Circuit.place_own h .safety 255 0 c, Circuit.place_claims h .safety 255 0 c .fault (by decide),
    Circuit.place_claims h .safety 255 0 c .cue (by decide), Circuit.place_claims h .safety 255 0 c .console (by decide)⟩

theorem State.placeSafety_circuit (sc k : ScreenId) (c : CircuitId) (s : State) :
    (s.placeSafety sc).circuit k c
      = if k = sc then (s.circuit sc c).place s.lights.halfCycle .safety 255 0 else s.circuit k c := by
  rw [State.placeSafety, State.placeThree_circuit]
  cases c <;> rfl

end Sys2Proof.Machine

/-! The reels that end at a trip, and what a trip leaves. -/

namespace Sys2Proof.Machine

open Sys2Proof Host

/-! ### The reels of the machines that leave RUNOUT -/

/-- The bound reels of the machines of `l` that were in RUNOUT in `s` have ended in `u` (R117). -/
structure ReelsEnded (s : State) (l : List MachineId) (u : State) : Prop where
  ended : ∀ m ∈ l, (s.machine m).state = .runout → ∀ k, (s.machine m).boundSlot = some k →
    (u.machine m).boundSlot = none
      ∧ u.slot (screenOf m) k = { s.slot (screenOf m) k with status := .shown, bound := none }
  bound : ∀ m, ¬ (m ∈ l ∧ (s.machine m).state = .runout) → (u.machine m).boundSlot = (s.machine m).boundSlot
  slots : ∀ x k, (∀ m, screenOf m = x → m ∈ l → (s.machine m).state = .runout → (s.machine m).boundSlot ≠ some k) →
    u.slot x k = s.slot x k
  entry : ∀ x k, (u.slot x k).entry = (s.slot x k).entry

theorem State.slotNotice_entry {sc : ScreenId} {n : SlotIx} {st : SlotStatus} {s : State} (x : ScreenId) (k : SlotIx) :
    ((s.slotNotice sc n st).slot x k).entry = (s.slot x k).entry := by
  rw [State.slotNotice_slot]
  split
  next h => rw [h.1, h.2.1]
  next => rfl

namespace ReelsEnded

variable {s u v : State} {l : List MachineId}

theorem nil (hbound : ∀ m, (u.machine m).boundSlot = (s.machine m).boundSlot) (hslot : ∀ x k, u.slot x k = s.slot x k) :
    ReelsEnded s [] u :=
  ⟨nofun, fun m _ => hbound m, fun x k _ => hslot x k, fun x k => by rw [hslot]⟩

theorem congr (h : ReelsEnded s l u) (hbound : ∀ m, (v.machine m).boundSlot = (u.machine m).boundSlot)
    (hslot : ∀ x k, v.slot x k = u.slot x k) : ReelsEnded s l v :=
  ⟨fun m hm hr k hk => by rw [hbound, hslot]; exact h.ended m hm hr k hk, fun m hm => (hbound m).trans (h.bound m hm),
    fun x k hk => (hslot x k).trans (h.slots x k hk), fun x k => by rw [hslot]; exact h.entry x k⟩

/-- The slot of a machine whose reel has not ended is as it was. -/
theorem own (h : ReelsEnded s l u) (hplan : PlanLaw s) {m : MachineId} (hm : m ∉ l) {n : SlotIx}
    (hn : (s.machine m).boundSlot = some n) : u.slot (screenOf m) n = s.slot (screenOf m) n := by
  refine h.slots _ _ fun j hj hjl _ hjn => hm ?_
  have hother := hplan.toSlot j n hjn
  rw [hj, hplan.toSlot m n hn] at hother
  rw [Option.some.inj hother]
  exact hjl

theorem cons (h : ReelsEnded s l u) (hplan : PlanLaw s) {m : MachineId} (hm : m ∉ l) :
    ReelsEnded s (m :: l) (u.leftRunout m (s.machine m).state) := by
  have hbound := h.bound m fun hl => hm hl.1
  by_cases hrunout : (s.machine m).state = .runout
  · have hleft : u.leftRunout m (s.machine m).state = u.outgoingReelEnds m := if_pos hrunout
    rw [hleft]
    cases hn : (s.machine m).boundSlot with
    | none =>
      rw [State.outgoingReelEnds_none (hbound.trans hn)]
      refine ⟨fun j hj hr k hk => ?_, fun j hj => ?_, fun x k hk => ?_, h.entry⟩
      · by_cases hjm : j = m
        · rw [hjm, hn] at hk
          exact absurd hk (by simp)
        · exact h.ended j ((List.mem_cons.1 hj).resolve_left hjm) hr k hk
      · exact h.bound j fun hl => hj ⟨List.mem_cons_of_mem _ hl.1, hl.2⟩
      · exact h.slots x k fun j hj hl => hk j hj (List.mem_cons_of_mem _ hl)
    | some n =>
      have hown := h.own hplan hm hn
      have hstands := hplan.bound_of_boundSlot hn
      have hslot := fun x k => State.outgoingReelEnds_slot (hbound.trans hn) x k
      have hmachine := fun j => State.outgoingReelEnds_machine (hbound.trans hn) j
      have hapart : ∀ j, j ≠ m → ((u.outgoingReelEnds m).machine j).boundSlot = (u.machine j).boundSlot := fun j hj => by
        rw [hmachine, (State.slotNotice_apart (j := j) fun _ hb => hj ?_).1]
        rw [hown, hstands.2] at hb
        exact (Option.some.inj hb).symm
      have hwritten : ∀ x k, (u.outgoingReelEnds m).slot x k = if x = screenOf m ∧ k = n then
          { s.slot (screenOf m) n with status := .shown, bound := none } else u.slot x k := fun x k => by
        rw [hslot, State.slotNotice_slot, hown, hstands.1]
        simp only [SlotStatus.showable, and_true]
      refine ⟨fun j hj hr k hk => ?_, fun j hj => ?_, fun x k hk => ?_, fun x k => ?_⟩
      · by_cases hjm : j = m
        · subst hjm
          obtain rfl := Option.some.inj (hn.symm.trans hk)
          refine ⟨?_, by rw [hwritten, if_pos ⟨rfl, rfl⟩]⟩
          rw [hmachine]
          exact State.slotNotice_unbinds (by rw [hown]; exact hstands.1) (by rw [hown]; exact hstands.2)
        · obtain ⟨hnone, hshown⟩ := h.ended j ((List.mem_cons.1 hj).resolve_left hjm) hr k hk
          refine ⟨by rw [hapart j hjm]; exact hnone, ?_⟩
          rw [hwritten, if_neg, hshown]
          rintro ⟨hs, rfl⟩
          have hother := hplan.toSlot j k hk
          rw [hs, hstands.2] at hother
          exact hjm (Option.some.inj hother).symm
      · have hjm : j ≠ m := fun e => hj ⟨by rw [e]; exact List.mem_cons_self, by rw [e]; exact hrunout⟩
        rw [hapart j hjm]
        exact h.bound j fun hl => hj ⟨List.mem_cons_of_mem _ hl.1, hl.2⟩
      · rw [hwritten, if_neg]
        · exact h.slots x k fun j hj hl => hk j hj (List.mem_cons_of_mem _ hl)
        · rintro ⟨rfl, rfl⟩
          exact hk m rfl List.mem_cons_self hrunout hn
      · rw [hslot, State.slotNotice_entry]
        exact h.entry x k
  · have hleft : u.leftRunout m (s.machine m).state = u := if_neg hrunout
    rw [hleft]
    refine ⟨fun j hj hr k hk => ?_, fun j hj => h.bound j fun hl => hj ⟨List.mem_cons_of_mem _ hl.1, hl.2⟩,
      fun x k hk => h.slots x k fun j hj hl => hk j hj (List.mem_cons_of_mem _ hl), h.entry⟩
    refine h.ended j ((List.mem_cons.1 hj).resolve_left fun e => hrunout ?_) hr k hk
    rw [← e]
    exact hr

/-- The end of the reel is told as the machine's slot stood (R117). -/
theorem told (h : ReelsEnded s l u) {m : MachineId} (hm : m ∉ l) :
    (u.leftRunout m (s.machine m).state).line = s.reelEnded m u.line := by
  have hbound := h.bound m fun hl => hm hl.1
  by_cases hrunout : (s.machine m).state = .runout
  · have hleft : u.leftRunout m (s.machine m).state = u.outgoingReelEnds m := if_pos hrunout
    rw [hleft]
    unfold State.reelEnded State.boundEntry
    rw [hrunout]
    cases hn : (s.machine m).boundSlot with
    | none =>
      rw [State.outgoingReelEnds_none (hbound.trans hn)]
    | some n =>
      have hentry := h.entry (screenOf m) n
      cases he : (s.slot (screenOf m) n).entry with
      | none =>
        simp only [State.outgoingReelEnds, hbound, hn, hentry, he, State.slotNotice_line]
      | some e => 
        rw [State.outgoingReelEnds_line (hbound.trans hn) (hentry.trans he)]
        simp only [he]
  · have hleft : u.leftRunout m (s.machine m).state = u := if_neg hrunout
    rw [hleft]
    unfold State.reelEnded
    split
    next hr _ _ => exact absurd hr hrunout
    next => rfl

end ReelsEnded

/-! ### What a trip leaves -/

namespace TripFrame

variable {s t u : State}

theorem trans (h : TripFrame s t) (k : TripFrame t u) : TripFrame s u where
  powered := k.powered.trans h.powered
  straps := k.straps.trans h.straps
  timebase := k.timebase.trans h.timebase
  pending := k.pending.trans h.pending
  machine m :=
    ⟨(k.machine m).reelId.trans (h.machine m).reelId, (k.machine m).frameCount.trans (h.machine m).frameCount,
      (k.machine m).saturated.trans (h.machine m).saturated, (k.machine m).console.trans (h.machine m).console, rfl,
      (k.machine m).allowance.trans (h.machine m).allowance, (k.machine m).lastAverage.trans (h.machine m).lastAverage,
      (k.machine m).loopSwitch.trans (h.machine m).loopSwitch,
      (k.machine m).contactorSense.trans (h.machine m).contactorSense⟩
  lamp m := (h.lamp m).trans (k.lamp m)
  slots sc n := (h.slots sc n).trans (k.slots sc n)
  showAt := k.showAt.trans h.showAt
  clock := ⟨k.clock.1.trans h.clock.1, k.clock.2.trans h.clock.2⟩
  settings sc := ⟨(k.settings sc).1.trans (h.settings sc).1, (k.settings sc).2.1.trans (h.settings sc).2.1,
    (k.settings sc).2.2.1.trans (h.settings sc).2.2.1, (k.settings sc).2.2.2.trans (h.settings sc).2.2.2⟩
  scenes := k.scenes.trans h.scenes
  mains := ⟨k.mains.1.trans h.mains.1, k.mains.2.1.trans h.mains.2.1, k.mains.2.2.1.trans h.mains.2.2.1,
    k.mains.2.2.2.1.trans h.mains.2.2.2.1, k.mains.2.2.2.2.trans h.mains.2.2.2.2⟩
  console sc c := (k.console sc c).trans (h.console sc c)
  loop := ⟨k.loop.1.trans h.loop.1, k.loop.2.1.trans h.loop.2.1, k.loop.2.2.trans h.loop.2.2⟩
  receiver := h.receiver.trans k.receiver

/-- What the show does stays in the frame, where the sound level is left. -/
theorem ofShow (h : ShowFrame s t) (hsound : ∀ sc, (t.screen sc).sound = (s.screen sc).sound) : TripFrame s t where
  powered := h.powered
  straps := h.straps
  timebase := h.timebase
  pending := h.pending
  machine m := ⟨(h.machine m).reelId, (h.machine m).frameCount, (h.machine m).saturated, (h.machine m).console, rfl,
    (h.machine m).allowance, (h.machine m).lastAverage, (h.machine m).loopSwitch, (h.machine m).contactorSense⟩
  lamp := h.lamp
  slots := h.slots
  showAt := h.showAt
  clock := h.clock
  settings sc := ⟨(h.settings sc).1, (h.settings sc).2.1, hsound sc, (h.settings sc).2.2⟩
  scenes := h.scenes
  mains := h.mains
  console := h.console
  loop := by rw [h.fire]; exact ⟨rfl, rfl, rfl⟩
  receiver := h.receiver

/-- The fire unit writes what is not the loop's record. -/
theorem ofFire (f : FireUnit → FireUnit) (hloop : (f s.fire).loopClosed = s.fire.loopClosed
    ∧ (f s.fire).loopHealthy = s.fire.loopHealthy ∧ (f s.fire).loopHealthySub = s.fire.loopHealthySub) :
    TripFrame s (s.modFire f) :=
  ⟨rfl, rfl, rfl, rfl, fun m => .refl (s.machine m), fun m => .refl (s.lamp m), fun sc n => .refl (s.slot sc n), rfl,
    ⟨rfl, rfl⟩, fun _ => ⟨rfl, rfl, rfl, rfl⟩, rfl, ⟨rfl, rfl, rfl, rfl, rfl⟩, fun _ _ => rfl, hloop, .refl s.line⟩

theorem ofReport (r : Report) (s : State) : TripFrame s (s.report r) :=
  .ofShow (Reactions.report r (.refl' s)).frame fun _ => rfl

theorem ofOrders {l : List MachineId} (h : TripOrders l s t) : TripFrame s t := by
  have hmachine : ∀ m, MachineKept
      { s.machine m with holds := { (s.machine m).holds with fire := (t.machine m).holds.fire } } (t.machine m) := fun m => by
    by_cases hm : m ∈ l
    · exact (h.tripped m hm).1.kept
    · rw [(h.others m hm).1]
      exact .refl _
  have hlamp : ∀ m, LampKept (s.lamp m) (t.lamp m) := fun m => by
    by_cases hm : m ∈ l
    · rw [(h.tripped m hm).2]
      exact LampRec.putOut_kept _
    · rw [(h.others m hm).2]
      exact .refl _
  have hslot := h.slot
  have hplan := h.plan
  have hrest := h.rest
  refine ⟨by rw [hrest], by rw [hrest], by rw [hrest], by rw [hrest], hmachine, hlamp, fun sc n => by rw [hslot]; exact .refl _,
    by rw [hplan], by rw [hplan]; exact ⟨rfl, rfl⟩, fun sc => by rw [h.screen]; exact ⟨rfl, rfl, rfl, rfl⟩, by rw [hrest],
    by rw [hrest]; exact ⟨rfl, rfl, rfl, rfl, rfl⟩, fun sc c => by rw [h.circuit]; rfl,
    by rw [hrest]; exact ⟨rfl, rfl, rfl⟩, by rw [hrest]; exact .refl _⟩

theorem ofSafety (sc : ScreenId) (s : State) : TripFrame s (s.placeSafety sc) where
  powered := rfl
  straps := rfl
  timebase := rfl
  pending := rfl
  machine m := by rw [State.placeSafety_machine]; exact .refl _
  lamp m := by rw [State.placeSafety_lamp]; exact .refl _
  slots z n := by rw [State.placeSafety_slot]; exact .refl _
  showAt := rfl
  clock := ⟨rfl, rfl⟩
  settings _ := ⟨rfl, rfl, rfl, rfl⟩
  scenes := rfl
  mains := ⟨rfl, rfl, rfl, rfl, rfl⟩
  console z c := by
    rw [State.placeSafety_circuit]
    split
    next hz =>
      rw [hz]
      exact (Circuit.place_safety_full _ _).2.2.2.2
    next => rfl
  loop := ⟨rfl, rfl, rfl⟩
  receiver := by rw [State.placeSafety_line]; exact .refl _

end TripFrame

/-! ### The lamps of machines whose reels end -/

/-- The end of a binding leaves a lamp's state, contactor and duty. -/
def LampRec.StillLit (l x : LampRec) : Prop :=
  x.state = l.state ∧ x.contactorClosed = l.contactorClosed ∧ x.feedDuty = l.feedDuty

theorem LampRec.StillLit.trans {l x y : LampRec} (h : l.StillLit x) (k : x.StillLit y) : l.StillLit y :=
  ⟨k.1.trans h.1, k.2.1.trans h.2.1, k.2.2.trans h.2.2⟩

theorem State.slotNotice_lamp {sc : ScreenId} {n : SlotIx} {st : SlotStatus} {s : State} (j : MachineId) :
    (s.lamp j).StillLit ((s.slotNotice sc n st).lamp j) := by
  by_cases h : (s.slot sc n).status = .bound ∧ (s.slot sc n).bound = some j
  · rw [State.slotNotice_bound h.1 h.2, State.modLamp_lamp, if_pos rfl]
    exact ⟨rfl, rfl, rfl⟩
  · rw [(State.slotNotice_apart fun hs hb => h ⟨hs, hb⟩).2]
    exact ⟨rfl, rfl, rfl⟩

theorem State.outgoingReelEnds_lamp {s : State} (m j : MachineId) : (s.lamp j).StillLit ((s.outgoingReelEnds m).lamp j) := by
  unfold State.outgoingReelEnds State.reportIf
  split
  · exact ⟨rfl, rfl, rfl⟩
  · dsimp only
    split
    · exact State.slotNotice_lamp j
    · split
      · exact State.slotNotice_lamp j
      · exact State.slotNotice_lamp j

theorem State.leftRunout_lamp {s : State} (m j : MachineId) (left : MachineState) :
    (s.lamp j).StillLit ((s.leftRunout m left).lamp j) := by
  unfold State.leftRunout
  split
  · exact State.outgoingReelEnds_lamp m j
  · exact ⟨rfl, rfl, rfl⟩

/-- A lamp put out (R73). -/
theorem LampRec.putOut_lit (l : LampRec) : (l.state = .burning ∨ l.state = .striking →
      l.putOut.state = .dark ∧ l.putOut.contactorClosed = false ∧ l.putOut.feedDuty = 0)
    ∧ (l.state ≠ .burning → l.state ≠ .striking → l.putOut = l) := by
  unfold LampRec.putOut
  cases hstate : l.state with
  | burning => exact ⟨fun _ => ⟨rfl, rfl, rfl⟩, fun h => absurd rfl h⟩
  | striking => exact ⟨fun _ => ⟨rfl, rfl, rfl⟩, fun _ h => absurd rfl h⟩
  | dark | fault | exhausted => exact ⟨by simp, fun _ _ => rfl⟩

end Sys2Proof.Machine

/-! The booth trip. -/

namespace Sys2Proof.Machine

open Sys2Proof Host

/-! ### The screens at a booth trip -/

section

variable {s u : State}

theorem NoticeOnly.leftRunout (m : MachineId) (left : MachineState) (s : State) : NoticeOnly s (s.leftRunout m left) := by
  unfold State.leftRunout
  split
  · exact .outgoingReelEnds m s
  · exact .refl s

/-- The reels that end as a screen takes the order. -/
def State.reelsLeft (sc : ScreenId) (a b : MachineState) (s : State) : State :=
  (s.leftRunout (lowerOf sc) a).leftRunout (upperOf sc) b

theorem State.boothHalt_or (sc : ScreenId) (a b : MachineState) (s : State) :
    s.boothHalt sc a b = s.reelsLeft sc a b ∨ s.boothHalt sc a b = (s.reelsLeft sc a b).modScreen sc ScreenRec.halt := by
  unfold State.boothHalt
  dsimp only
  split
  · exact .inl rfl
  · exact .inr rfl

/-- A screen's order reaches neither the lights nor more of a lamp than its binding. -/
theorem State.boothHalt_leaves (sc : ScreenId) (a b : MachineState) (s : State) :
    (∀ z c, (s.boothHalt sc a b).circuit z c = s.circuit z c)
      ∧ ∀ j, (s.lamp j).StillLit ((s.boothHalt sc a b).lamp j) := by
  have hleft : (∀ z c, (s.reelsLeft sc a b).circuit z c = s.circuit z c)
      ∧ ∀ j, (s.lamp j).StillLit ((s.reelsLeft sc a b).lamp j) :=
    ⟨fun z c => ((NoticeOnly.leftRunout _ a s).trans (.leftRunout _ b _)).circuit z c,
      fun j => (State.leftRunout_lamp _ j a).trans (State.leftRunout_lamp _ j b)⟩
  obtain h | h := State.boothHalt_or sc a b s <;> rw [h] <;> exact hleft

theorem ReelsEnded.boothHalt {l : List MachineId} (h : ReelsEnded s l u) (hplan : PlanLaw s) {sc : ScreenId}
    (hlower : lowerOf sc ∉ l) (hupper : upperOf sc ∉ l) :
    let v := u.boothHalt sc (s.machine (lowerOf sc)).state (s.machine (upperOf sc)).state
    ReelsEnded s (upperOf sc :: lowerOf sc :: l) v
      ∧ v.line = s.reelEnded (upperOf sc) (s.reelEnded (lowerOf sc) u.line) := by
  have hfirst := h.cons hplan hlower
  have hnot : upperOf sc ∉ lowerOf sc :: l := fun hm =>
    (List.mem_cons.1 hm).elim (lower_ne_upper sc).symm hupper
  have hboth := hfirst.cons hplan hnot
  have htold := hfirst.told hnot
  rw [h.told hlower] at htold
  dsimp only
  obtain e | e := State.boothHalt_or sc (s.machine (lowerOf sc)).state (s.machine (upperOf sc)).state u <;> rw [e]
  · exact ⟨hboth, htold⟩
  · exact ⟨hboth.congr (fun _ => rfl) fun _ _ => rfl, htold⟩

end

/-! ### The orders -/

/-- The loop open measure stops as the trip begins. -/
def State.loopExpired (s : State) : State := s.modFire fun u => { u with loopOpenMeasure := none }

/-- The screens have taken the order (R127). -/
def State.boothHalted (o : State) (s : State) : State :=
  (o.boothHalt .s1 (s.machine .m1).state (s.machine .m2).state).boothHalt .s2 (s.machine .m3).state (s.machine .m4).state

/-- The incident of a booth trip (R163); `o` is the state in which its orders have been taken. -/
def State.boothIncident (s o : State) : IncidentRec where
  sequence := s.fire.nextSequence
  timeOfDay := s.plan.clock
  cause := .loop
  scope := .booth
  machines := [s.snapshot .m1, s.snapshot .m2, s.snapshot .m3, s.snapshot .m4]
  lights := s.lightLevels .s1 ++ s.lightLevels .s2
  outcomes := [o.outcomeOf .m1, o.outcomeOf .m2, o.outcomeOf .m3, o.outcomeOf .m4]
  related := none

section

variable (s : State)

/-- The state in which the orders of a booth trip by the loop have been taken. -/
def State.loopOrders : State := s.loopExpired.boothTripOrders s.fire.nextSequence

theorem State.loopOpenExpires_eq (h : s.fire.loopOpenMeasure.isSome = true) : s.loopOpenExpires
    = ((s.loopOrders.boothHalted s).modFire (FireUnit.record (s.boothIncident s.loopOrders))).report
        (.trip .loop .booth s.fire.nextSequence) := by
  obtain ⟨v, hv⟩ := Option.isSome_iff_exists.1 h
  simp only [State.loopOpenExpires, hv]
  rfl

theorem State.loopOrders_eq : s.loopOrders
    = ((s.loopExpired.boothLatches s.fire.nextSequence).tripAll.placeSafety .s1).placeSafety .s2 := rfl

theorem State.loopOrders_trips : TripOrders [.m4, .m3, .m2, .m1] (s.loopExpired.boothLatches s.fire.nextSequence)
    (s.loopExpired.boothLatches s.fire.nextSequence).tripAll := .tripAll _

theorem State.loopOrders_fire : s.loopOrders.fire = (s.loopExpired.boothLatches s.fire.nextSequence).fire := by
  rw [State.loopOrders_eq, State.placeSafety_fire, State.placeSafety_fire, (s.loopOrders_trips).rest]

theorem State.loopOrders_frame : TripFrame s s.loopOrders :=
  ((TripFrame.ofFire _ ⟨rfl, rfl, rfl⟩).trans (.ofFire _ ⟨rfl, rfl, rfl⟩)).trans
    (((TripFrame.ofOrders s.loopOrders_trips).trans (.ofSafety .s1 _)).trans (.ofSafety .s2 _))

theorem State.loopOrders_tripped (m : MachineId) :
    (s.machine m).TrippedFrom (s.loopOrders.machine m) ∧ s.loopOrders.lamp m = (s.lamp m).putOut := by
  rw [State.loopOrders_eq, State.placeSafety_machine, State.placeSafety_machine, State.placeSafety_lamp,
    State.placeSafety_lamp]
  exact s.loopOrders_trips.tripped m (by cases m <;> decide)

theorem State.loopOrders_plan (x : ScreenId) (k : SlotIx) : s.loopOrders.slot x k = s.slot x k := by
  rw [State.loopOrders_eq, State.placeSafety_slot, State.placeSafety_slot, s.loopOrders_trips.slot]
  rfl

theorem State.loopOrders_bound (m : MachineId) : (s.loopOrders.machine m).boundSlot = (s.machine m).boundSlot := by
  rw [State.loopOrders_eq, State.placeSafety_machine, State.placeSafety_machine]
  exact s.loopOrders_trips.bound m

theorem State.loopOrders_line : s.loopOrders.line = s.line := by
  rw [State.loopOrders_eq, State.placeSafety_line, State.placeSafety_line, s.loopOrders_trips.rest]
  rfl

theorem State.loopOrders_screen (sc : ScreenId) : s.loopOrders.screen sc = s.screen sc := by
  rw [State.loopOrders_eq, (ScreensStill.placeSafety .s2 _).screen, (ScreensStill.placeSafety .s1 _).screen,
    s.loopOrders_trips.screen]
  rfl

theorem State.loopOrders_circuit (sc : ScreenId) (c : CircuitId) :
    ∃ h, s.loopOrders.circuit sc c = (s.circuit sc c).place h .safety 255 0 := by
  have hcircuit := s.loopOrders_trips.circuit
  rw [State.loopOrders_eq]
  generalize (s.loopExpired.boothLatches s.fire.nextSequence).tripAll = o at *
  rw [State.placeSafety_circuit, State.placeSafety_circuit, State.placeSafety_circuit, hcircuit, hcircuit]
  cases sc <;> exact ⟨_, rfl⟩

theorem State.loopOrders_outcome (m : MachineId) : s.loopOrders.outcomeOf m = (m, match (s.fire.shutters.get m).state with
    | .closed => .closed
    | .stuck => .stuck
    | .opened | .dropping => .pending) := by
  have hshutter : s.loopOrders.fire.shutters.get m = (s.fire.shutters.get m).drop s.fire.nextSequence (s.snapshot m) := by
    rw [s.loopOrders_fire]
    cases m <;> rfl
  unfold State.outcomeOf ShutterState.outcome
  rw [hshutter]
  unfold ShutterRec.drop
  cases hstate : (s.fire.shutters.get m).state <;> simp [hstate]

end

/-! ### The statement -/

/-- Settles O50: the orders, the screens, the record and the report of a booth trip by the loop. -/
theorem boothTripIsTaken : Obligations.BoothTripIsTaken := by
  intro s hp
  have hexec : exec .loopOpenMeasureExpiry s = .next s.loopOpenExpires := congrArg Outcome.next (if_pos hp)
  refine ⟨fun hnone => ?_, fun hsome => ?_⟩
  · rw [hexec]
    simp only [State.loopOpenExpires, hnone]
  intro n
  rw [hexec, s.loopOpenExpires_eq hsome]
  have hreact : Reactions s.loopOrders (s.loopOrders.boothHalted s) := .boothHalt .s2 _ _ (.boothHalt .s1 _ _ (.refl' _))
  have hfire : (s.loopOrders.boothHalted s).fire = (s.loopExpired.boothLatches n).fire :=
    hreact.frame.fire.trans s.loopOrders_fire
  have hscreen : ∀ sc, (s.loopOrders.boothHalted s).screen sc = (s.screen sc).boothHalted := fun sc => by
    unfold State.boothHalted
    rw [(State.boothHalt_screens .s2 _ _ _).1, (State.boothHalt_screens .s1 _ _ _).1,
      (State.boothHalt_screens .s1 _ _ _).1, s.loopOrders_screen, s.loopOrders_screen]
    cases sc <;> rfl
  have hcircuit : ∀ sc c, (s.loopOrders.boothHalted s).circuit sc c = s.loopOrders.circuit sc c := fun sc c =>
    ((State.boothHalt_leaves .s2 _ _ _).1 sc c).trans ((State.boothHalt_leaves .s1 _ _ _).1 sc c)
  have hlamp : ∀ j, (s.loopOrders.lamp j).StillLit ((s.loopOrders.boothHalted s).lamp j) := fun j =>
    ((State.boothHalt_leaves .s1 _ _ _).2 j).trans ((State.boothHalt_leaves .s2 _ _ _).2 j)
  have htripped : ∀ m, (s.machine m).TrippedFrom ((s.loopOrders.boothHalted s).machine m) := fun m =>
    (s.loopOrders_tripped m).1.reacts hreact
  have hreels : PlanLaw s → ReelsEnded s [.m4, .m3, .m2, .m1] (s.loopOrders.boothHalted s)
      ∧ (s.loopOrders.boothHalted s).line
        = s.reelEnded .m4 (s.reelEnded .m3 (s.reelEnded .m2 (s.reelEnded .m1 s.line))) := fun hplan => by
    have hnone : ReelsEnded s [] s.loopOrders := .nil s.loopOrders_bound s.loopOrders_plan
    obtain ⟨hfirst, htold⟩ := hnone.boothHalt hplan (sc := .s1) (by decide) (by decide)
    obtain ⟨hboth, htold'⟩ := hfirst.boothHalt hplan (sc := .s2) (by decide) (by decide)
    refine ⟨hboth, ?_⟩
    rw [htold, s.loopOrders_line] at htold'
    exact htold'
  have hframe : TripFrame s (s.loopOrders.boothHalted s) := s.loopOrders_frame.trans (.ofShow hreact.frame fun sc => by
    rw [hscreen, s.loopOrders_screen]
    unfold ScreenRec.boothHalted
    split <;> rfl)
  have hincident : s.boothIncident s.loopOrders = { s.boothIncident s with
      outcomes := [s.loopOrders.outcomeOf .m1, s.loopOrders.outcomeOf .m2, s.loopOrders.outcomeOf .m3,
        s.loopOrders.outcomeOf .m4] } := rfl
  simp only [State.loopOrders_outcome] at hincident
  generalize hw : s.loopOrders.boothHalted s = w at *
  refine ⟨_, w.line, rfl, (hframe.trans (.ofFire _ ⟨rfl, rfl, rfl⟩)).trans (.ofReport _ _), ?_, ?_, ?_, fun m => ?_,
    fun m => ?_, fun m => ?_, fun m => ?_, fun sc => ?_, fun sc c => ?_, ?_, ?_, rfl, fun hplan => ?_⟩
  · change w.fire.gates = _
    rw [hfire]
    rfl
  · change w.fire.loopOpenMeasure = _
    rw [hfire]
    rfl
  · change w.fire.boothLatch = _
    rw [hfire]
    rfl
  · change w.fire.machineLatch.get m = _
    rw [hfire]
    change (s.fire.machineLatch.map boothLatched).get m = _
    rw [Quad.get_map]
    cases s.fire.machineLatch.get m with
    | none => rfl
    | some c => cases c <;> rfl
  · change w.fire.shutters.get m = _
    rw [hfire]
    cases m <;> rfl
  · have h := htripped m
    exact ⟨h.state, h.kept.frameCount, h.kept.reelId, h.douser, h.already, h.now⟩
  · obtain ⟨hstate, hcontactor, hduty⟩ := hlamp m
    obtain ⟨hlit, hdark⟩ := (s.lamp m).putOut_lit
    rw [(s.loopOrders_tripped m).2] at hstate hcontactor hduty
    refine ⟨fun h => ?_, fun hburning hstriking => ?_⟩
    · obtain ⟨hout, hopen, hzero⟩ := hlit h
      exact ⟨hstate.trans hout, hcontactor.trans hopen, hduty.trans hzero⟩
    · rw [hdark hburning hstriking] at hstate hcontactor
      exact ⟨hstate, hcontactor⟩
  · exact hscreen sc
  · obtain ⟨h, hplaced⟩ := s.loopOrders_circuit sc c
    change (w.circuit sc c).output = 255 ∧ _
    rw [State.report_circuit, State.modFire_circuit, hcircuit, hplaced]
    exact Circuit.place_safety_full h _
  · change (s.boothIncident s.loopOrders :: w.fire.log).take 8 = _
    rw [hfire, hincident]
    rfl
  · change (w.fire.nextSequence + 1) % 65536 = _
    rw [hfire]
    rfl
  · obtain ⟨hended, hline⟩ := hreels hplan
    have hall : ∀ m : MachineId, m ∈ [MachineId.m4, .m3, .m2, .m1] := fun m => by cases m <;> decide
    exact ⟨hline, fun m k hr hk => hended.ended m (hall m) hr k hk, fun m hm => hended.bound m fun h => hm h.2,
      fun x k hk => hended.slots x k fun m hm _ => hk m hm⟩

end Sys2Proof.Machine

/-! The machine trip at a gate, and the loop input. -/

namespace Sys2Proof.Machine

open Sys2Proof Host

/-! ### The orders of a machine trip -/

/-- A gate's count has been taken (R153). -/
def State.gateTaken (m : MachineId) (count : Nat) (s : State) : State :=
  s.modFire fun u => { u with gates := u.gates.set m ((u.gates.get m).take count) }

/-- The state in which the orders of a machine trip have been taken; its incident has the number of `s` (R154). -/
def State.gateOrders (m : MachineId) (count : Nat) (s : State) : State :=
  (s.gateTaken m count).machineTripOrders m s.fire.nextSequence

/-- The state in which the screen too has taken the order (R128). -/
def State.gateHalted (m : MachineId) (count : Nat) (s : State) : State :=
  (s.gateOrders m count).machineHalt m (s.machine m).state

/-- The incident of a machine trip (R163); `o` is the state in which its orders have been taken. -/
def State.gateIncident (m : MachineId) (s o : State) : IncidentRec where
  sequence := s.fire.nextSequence
  timeOfDay := s.plan.clock
  cause := .gateHeat
  scope := .machine m
  machines := [s.snapshot m]
  lights := s.lightLevels (screenOf m)
  outcomes := [o.outcomeOf m]
  related := none

section

variable (m : MachineId) (count : Nat) (s : State)

theorem State.gateTaken_trips : (s.gateTaken m count).machineTrip m
    = (((s.gateHalted m count).modFire (FireUnit.record (s.gateIncident m (s.gateOrders m count)))).report
        (.trip .gateHeat (.machine m) s.fire.nextSequence)).evaluateScreen (screenOf m) := rfl

theorem State.gateOrders_eq : s.gateOrders m count
    = (((s.gateTaken m count).machineLatches m s.fire.nextSequence).tripOrder m).placeSafety (screenOf m) := rfl

theorem State.gateOrders_trips : TripOrders [m] ((s.gateTaken m count).machineLatches m s.fire.nextSequence)
    (((s.gateTaken m count).machineLatches m s.fire.nextSequence).tripOrder m) :=
  (TripOrders.nil _).cons nofun

theorem State.gateOrders_fire :
    (s.gateOrders m count).fire = ((s.gateTaken m count).machineLatches m s.fire.nextSequence).fire := by
  rw [State.gateOrders_eq, State.placeSafety_fire, (s.gateOrders_trips m count).rest]

theorem State.gateOrders_frame : TripFrame s (s.gateOrders m count) := by
  have hlatched : TripFrame s ((s.gateTaken m count).machineLatches m s.fire.nextSequence) :=
    .ofFire (fun _ => ((s.gateTaken m count).machineLatches m s.fire.nextSequence).fire) ⟨rfl, rfl, rfl⟩
  exact hlatched.trans ((TripFrame.ofOrders (s.gateOrders_trips m count)).trans (.ofSafety _ _))

theorem State.gateOrders_tripped : (s.machine m).TrippedFrom ((s.gateOrders m count).machine m)
    ∧ (s.gateOrders m count).lamp m = (s.lamp m).putOut := by
  rw [State.gateOrders_eq, State.placeSafety_machine, State.placeSafety_lamp]
  exact (s.gateOrders_trips m count).tripped m List.mem_cons_self

theorem State.gateOrders_others {j : MachineId} (hj : j ≠ m) :
    (s.gateOrders m count).machine j = s.machine j ∧ (s.gateOrders m count).lamp j = s.lamp j := by
  rw [State.gateOrders_eq, State.placeSafety_machine, State.placeSafety_lamp]
  exact (s.gateOrders_trips m count).others j (by simpa using hj)

theorem State.gateOrders_slot (x : ScreenId) (k : SlotIx) : (s.gateOrders m count).slot x k = s.slot x k := by
  rw [State.gateOrders_eq, State.placeSafety_slot, (s.gateOrders_trips m count).slot]
  rfl

theorem State.gateOrders_bound (j : MachineId) : ((s.gateOrders m count).machine j).boundSlot = (s.machine j).boundSlot := by
  rw [State.gateOrders_eq, State.placeSafety_machine]
  exact (s.gateOrders_trips m count).bound j

theorem State.gateOrders_line : (s.gateOrders m count).line = s.line := by
  rw [State.gateOrders_eq, State.placeSafety_line, (s.gateOrders_trips m count).rest]
  rfl

theorem State.gateOrders_screen (z : ScreenId) : (s.gateOrders m count).screen z = s.screen z := by
  rw [State.gateOrders_eq, (ScreensStill.placeSafety _ _).screen, (s.gateOrders_trips m count).screen]
  rfl

theorem State.gateOrders_waitedOn (z : ScreenId) : (s.gateOrders m count).waitedOn z = s.waitedOn z := by
  simp only [State.waitedOn, State.successor, State.onDeck, State.showableAbove, State.gateOrders_screen,
    State.gateOrders_slot]

theorem State.gateOrders_circuit (x : ScreenId) (c : CircuitId) : ∃ h, (s.gateOrders m count).circuit x c
    = if x = screenOf m then (s.circuit (screenOf m) c).place h .safety 255 0 else s.circuit x c := by
  have hcircuit := (s.gateOrders_trips m count).circuit
  rw [State.gateOrders_eq]
  generalize ((s.gateTaken m count).machineLatches m s.fire.nextSequence).tripOrder m = o at *
  rw [State.placeSafety_circuit, hcircuit, hcircuit]
  exact ⟨_, rfl⟩

theorem State.gateOrders_outcome : (s.gateOrders m count).outcomeOf m = (m, match (s.fire.shutters.get m).state with
    | .closed => .closed
    | .stuck => .stuck
    | .opened | .dropping => .pending) := by
  have hshutter : (s.gateOrders m count).fire.shutters.get m
      = (s.fire.shutters.get m).drop s.fire.nextSequence (s.snapshot m) := by
    rw [State.gateOrders_fire, (State.machineLatches_latch m m _ _).2, if_pos rfl]
    rfl
  unfold State.outcomeOf ShutterState.outcome
  rw [hshutter]
  unfold ShutterRec.drop
  cases hstate : (s.fire.shutters.get m).state <;> simp [hstate]

end

/-! ### The screen at a machine trip -/

section

variable {m : MachineId} {s : State}

/-- The partner of a tripped ON_SCREEN machine is stopped and its lamp put out (R128). -/
def State.partnerStopped (m : MachineId) (s : State) : State :=
  (s.modMachine (partnerOf m) MachineRec.stopOrder).lampOff (partnerOf m)

theorem State.partnerStopped_moves (m : MachineId) (s : State) : LampMoves (partnerOf m)
    (s.modMachine (partnerOf m) MachineRec.stopOrder) (s.partnerStopped m) := .modLamp _

theorem State.partnerStopped_slot (m : MachineId) (s : State) (x : ScreenId) (k : SlotIx) :
    (s.partnerStopped m).slot x k = s.slot x k :=
  ((s.partnerStopped_moves m).slot x k).trans (State.modMachine_slot ..)

theorem State.machineHalt_shown {left : MachineState}
    (h : (s.screen (screenOf m)).onScreen = some m ∧ (s.screen (screenOf m)).state.shows = true) :
    s.machineHalt m left = ((s.partnerStopped m).leftRunout (partnerOf m) (s.machine (partnerOf m)).state).modScreen
      (screenOf m) ScreenRec.halt := if_pos h

theorem State.machineHalt_unshown {left : MachineState}
    (h : ¬ ((s.screen (screenOf m)).onScreen = some m ∧ (s.screen (screenOf m)).state.shows = true)) :
    s.machineHalt m left = if left ≠ .runout ∧ s.waitedOn (screenOf m) = some m
        ∧ (s.screen (screenOf m)).state.awaits = true then (s.leftRunout m left).successorLost (screenOf m)
      else s.leftRunout m left := by
  unfold State.machineHalt
  dsimp only
  rw [if_neg h]
  by_cases hleft : left = .runout
  · rw [if_pos hleft, if_neg fun h => h.1 hleft]
    exact (if_pos hleft).symm
  · have hsame : s.leftRunout m left = s := if_neg hleft
    rw [if_neg hleft, hsame]
    simp only [ne_eq, hleft, not_false_iff, true_and]

theorem State.partnerStopped_partner (m : MachineId) (s : State) :
    ((s.partnerStopped m).machine (partnerOf m)).state.running = false
      ∧ ((s.partnerStopped m).machine (partnerOf m)).boundSlot = (s.machine (partnerOf m)).boundSlot
      ∧ (s.partnerStopped m).lamp (partnerOf m) = (s.lamp (partnerOf m)).putOut := by
  obtain ⟨hstate, -, hbound⟩ := (s.machine (partnerOf m)).stopOrder_fields
  have hstopped : (s.modMachine (partnerOf m) MachineRec.stopOrder).machine (partnerOf m)
      = (s.machine (partnerOf m)).stopOrder.settleDouser := by rw [State.modMachine_machine, if_pos rfl]
  obtain ⟨hbound', hstate', -⟩ := (s.partnerStopped_moves m).machine
  rw [hstate', hbound', hstopped]
  refine ⟨?_, hbound, ?_⟩
  · change (s.machine (partnerOf m)).stopOrder.state.running = false
    rw [hstate]
    split
    · rfl
    next h => exact Bool.not_eq_true _ ▸ h
  · unfold State.partnerStopped State.lampOff
    rw [State.modLamp_lamp, if_pos rfl]
    rfl

theorem State.partnerStopped_others {j : MachineId} (hj : j ≠ partnerOf m) :
    (s.partnerStopped m).machine j = s.machine j ∧ (s.partnerStopped m).lamp j = s.lamp j := by
  unfold State.partnerStopped State.lampOff
  rw [State.modLamp_machine', if_neg hj, State.modMachine_machine, if_neg hj, State.modLamp_lamp, if_neg hj]
  exact ⟨rfl, rfl⟩

/-- A reel that ends by its binding reaches no other machine and lamp. -/
theorem State.leftRunout_apart {left : MachineState} {j : MachineId} (hj : j ≠ m)
    (hbound : ∀ n, (s.machine m).boundSlot = some n → (s.slot (screenOf m) n).bound = some m) :
    (s.leftRunout m left).machine j = s.machine j ∧ (s.leftRunout m left).lamp j = s.lamp j := by
  unfold State.leftRunout
  split
  · cases hn : (s.machine m).boundSlot with
    | none =>
      rw [State.outgoingReelEnds_none hn]
      exact ⟨rfl, rfl⟩
    | some n =>
      obtain ⟨hmachine, hlamp⟩ := State.slotNotice_apart (s := s) (sc := screenOf m) (n := n) (st := .shown) (j := j)
        (fun _ h => hj (Option.some.inj ((hbound n hn).symm.trans h)).symm)
      rw [State.outgoingReelEnds_machine hn]
      refine ⟨hmachine, ?_⟩
      rw [← hlamp]
      simp only [State.outgoingReelEnds, hn]
      cases (s.slot (screenOf m) n).entry with
      | none => rfl
      | some e =>
        simp only [State.reportIf]
        split <;> rfl
  · exact ⟨rfl, rfl⟩

end

end Sys2Proof.Machine

/-! The statement about gate counts and the loop input. -/

namespace Sys2Proof.Machine

open Sys2Proof Host

section

variable {m : MachineId} {count : Nat} {s : State}

/-- Whether the trip halts the screen: the machine is ON_SCREEN (R128). -/
def State.tripHalts (m : MachineId) (s : State) : Prop :=
  (s.screen (screenOf m)).onScreen = some m ∧ (s.screen (screenOf m)).state.shows = true

/-- Whether the trip leaves a pending start: the machine waited on is lost (R128). -/
def State.tripLoses (m : MachineId) (s : State) : Prop :=
  (s.machine m).state ≠ .runout ∧ s.waitedOn (screenOf m) = some m ∧ (s.screen (screenOf m)).state.awaits = true

theorem State.gateHalted_shown (h : s.tripHalts m) : s.gateHalted m count
    = (((s.gateOrders m count).partnerStopped m).leftRunout (partnerOf m) (s.machine (partnerOf m)).state).modScreen
        (screenOf m) ScreenRec.halt := by
  have hpartner := (s.gateOrders_others m count (partnerOf_ne m)).1
  unfold State.gateHalted
  rw [State.machineHalt_shown (by rw [State.gateOrders_screen]; exact h), hpartner]

theorem State.gateHalted_lost (hshown : ¬ s.tripHalts m) (h : s.tripLoses m) : s.gateHalted m count
    = ((s.gateOrders m count).leftRunout m (s.machine m).state).successorLost (screenOf m) := by
  unfold State.gateHalted
  rw [State.machineHalt_unshown (by rw [State.gateOrders_screen]; exact hshown), if_pos]
  rw [State.gateOrders_waitedOn, State.gateOrders_screen]
  exact h

theorem State.gateHalted_apart (hshown : ¬ s.tripHalts m) (h : ¬ s.tripLoses m) :
    s.gateHalted m count = (s.gateOrders m count).leftRunout m (s.machine m).state := by
  unfold State.gateHalted
  rw [State.machineHalt_unshown (by rw [State.gateOrders_screen]; exact hshown), if_neg]
  rw [State.gateOrders_waitedOn, State.gateOrders_screen]
  exact h

/-- What is left of the machines' reels where the screen is not halted by the trip. -/
theorem State.gateHalted_unshown (hshown : ¬ s.tripHalts m) : ∃ f : ScreenRec → ScreenRec, s.gateHalted m count
    = ((s.gateOrders m count).leftRunout m (s.machine m).state).modScreen (screenOf m) f := by
  by_cases h : s.tripLoses m
  · exact ⟨_, State.gateHalted_lost hshown h⟩
  · refine ⟨id, (State.gateHalted_apart hshown h).trans ?_⟩
    have hset : ∀ u : State, u.screens.set (screenOf m) (u.screens.get (screenOf m)) = u.screens := fun u =>
      Pair.set_get_self _ _
    unfold State.modScreen State.screen
    rw [id, hset]

theorem State.gateHalted_reactions (m : MachineId) (count : Nat) (s : State) :
    Reactions (s.gateOrders m count) (s.gateHalted m count) := .machineHalt m _ (.refl' _)

/-- The reels that end (R117). -/
theorem State.gateHalted_reels (hplan : PlanLaw s) :
    (s.tripHalts m → ReelsEnded s [partnerOf m] (s.gateHalted m count)
        ∧ (s.gateHalted m count).line = s.reelEnded (partnerOf m) s.line)
      ∧ (¬ s.tripHalts m → ReelsEnded s [m] (s.gateHalted m count)
        ∧ (s.gateHalted m count).line = s.reelEnded m s.line) := by
  have hnone : ReelsEnded s [] (s.gateOrders m count) := .nil (s.gateOrders_bound m count) (s.gateOrders_slot m count)
  refine ⟨fun h => ?_, fun h => ?_⟩
  · have hstopped : ReelsEnded s [] ((s.gateOrders m count).partnerStopped m) := by
      refine hnone.congr (fun j => ?_) fun x k => State.partnerStopped_slot m _ x k
      by_cases hj : j = partnerOf m
      · rw [hj]
        exact ((s.gateOrders m count).partnerStopped_partner m).2.1
      · rw [(State.partnerStopped_others hj).1]
    have hline : ((s.gateOrders m count).partnerStopped m).line = s.line :=
      ((s.gateOrders m count).partnerStopped_moves m).line.trans (s.gateOrders_line m count)
    rw [State.gateHalted_shown h]
    refine ⟨(hstopped.cons hplan nofun).congr (fun _ => rfl) fun _ _ => rfl, ?_⟩
    rw [State.modScreen_line, hstopped.told nofun, hline]
  · obtain ⟨f, hf⟩ := State.gateHalted_unshown (count := count) h
    rw [hf]
    refine ⟨(hnone.cons hplan nofun).congr (fun _ => rfl) fun _ _ => rfl, ?_⟩
    rw [State.modScreen_line, hnone.told nofun, s.gateOrders_line]

/-- The other screen's machines and lamps stand. -/
theorem State.gateHalted_beyond (hplan : PlanLaw s) {j : MachineId} (hj : screenOf j ≠ screenOf m) :
    (s.gateHalted m count).machine j = s.machine j ∧ (s.gateHalted m count).lamp j = s.lamp j := by
  have hjm : j ≠ m := fun e => hj (by rw [e])
  have hjp : j ≠ partnerOf m := fun e => hj (by rw [e, screenOf_partnerOf])
  obtain ⟨hmachine, hlamp⟩ := s.gateOrders_others m count hjm
  by_cases h : s.tripHalts m
  · have hown : ∀ n, (((s.gateOrders m count).partnerStopped m).machine (partnerOf m)).boundSlot = some n →
        (((s.gateOrders m count).partnerStopped m).slot (screenOf (partnerOf m)) n).bound = some (partnerOf m) := by
      intro n hn
      rw [((s.gateOrders m count).partnerStopped_partner m).2.1, s.gateOrders_bound] at hn
      rw [State.partnerStopped_slot, s.gateOrders_slot]
      exact hplan.toSlot _ n hn
    rw [State.gateHalted_shown h]
    obtain ⟨ha, hb⟩ := State.leftRunout_apart (left := (s.machine (partnerOf m)).state) hjp hown
    obtain ⟨hc, hd⟩ := State.partnerStopped_others (s := s.gateOrders m count) hjp
    exact ⟨ha.trans (hc.trans hmachine), hb.trans (hd.trans hlamp)⟩
  · obtain ⟨f, hf⟩ := State.gateHalted_unshown (count := count) h
    rw [hf]
    obtain ⟨ha, hb⟩ := State.leftRunout_apart (s := s.gateOrders m count) (left := (s.machine m).state) hjm fun n hn => by
      rw [s.gateOrders_bound] at hn
      rw [s.gateOrders_slot]
      exact hplan.toSlot m n hn
    exact ⟨ha.trans hmachine, hb.trans hlamp⟩

/-- Of the tripped machine's own lamp no more than its binding follows, and nothing of the lights. -/
theorem State.gateHalted_leaves (m : MachineId) (count : Nat) (s : State) :
    ((s.gateOrders m count).lamp m).StillLit ((s.gateHalted m count).lamp m)
      ∧ ∀ x c, (s.gateHalted m count).circuit x c = (s.gateOrders m count).circuit x c := by
  by_cases h : s.tripHalts m
  · rw [State.gateHalted_shown h]
    refine ⟨?_, fun x c => ?_⟩
    · rw [← (State.partnerStopped_others (s := s.gateOrders m count) (partnerOf_ne m).symm).2]
      exact State.leftRunout_lamp _ m _
    · exact ((NoticeOnly.leftRunout _ _ _).circuit x c).trans (((s.gateOrders m count).partnerStopped_moves m).circuit x c)
  · obtain ⟨f, hf⟩ := State.gateHalted_unshown (count := count) h
    rw [hf]
    exact ⟨State.leftRunout_lamp _ m _, fun x c => (NoticeOnly.leftRunout _ _ _).circuit x c⟩

/-- The screens at the trip (R128). -/
theorem State.gateHalted_screen (m : MachineId) (count : Nat) (s : State) :
    (∀ x, x ≠ screenOf m → (s.gateHalted m count).screen x = s.screen x)
      ∧ (s.tripHalts m → (s.gateHalted m count).screen (screenOf m) = (s.screen (screenOf m)).halt)
      ∧ (¬ s.tripHalts m → s.tripLoses m → (s.gateHalted m count).screen (screenOf m) = { s.screen (screenOf m) with
          startGiven := false, startPending := true
          state := if (s.screen (screenOf m)).state = .runup ∨ (s.screen (screenOf m)).state = .swapDue then .showing
            else (s.screen (screenOf m)).state })
      ∧ (¬ s.tripHalts m → ¬ s.tripLoses m → (s.gateHalted m count).screen (screenOf m) = s.screen (screenOf m)) := by
  have hleft : ∀ x, ((s.gateOrders m count).leftRunout m (s.machine m).state).screen x = s.screen x := fun x =>
    ((NoticeOnly.leftRunout m _ _).screen x).trans (s.gateOrders_screen m count x)
  have hpartner : ∀ x, (((s.gateOrders m count).partnerStopped m).leftRunout (partnerOf m)
      (s.machine (partnerOf m)).state).screen x = s.screen x := fun x =>
    ((NoticeOnly.leftRunout _ _ _).screen x).trans
      ((((s.gateOrders m count).partnerStopped_moves m).screen x).trans (s.gateOrders_screen m count x))
  refine ⟨fun x hx => ?_, fun h => ?_, fun h hloses => ?_, fun h hkeeps => ?_⟩
  · by_cases h : s.tripHalts m
    · rw [State.gateHalted_shown h, State.modScreen_screen, if_neg hx, hpartner]
    · obtain ⟨f, hf⟩ := State.gateHalted_unshown (count := count) h
      rw [hf, State.modScreen_screen, if_neg hx, hleft]
  · rw [State.gateHalted_shown h, State.modScreen_screen, if_pos rfl, hpartner]
  · rw [State.gateHalted_lost h hloses, State.successorLost, State.modScreen_screen, if_pos rfl, hleft]
  · rw [State.gateHalted_apart h hkeeps, hleft]

/-- The partner of a tripped ON_SCREEN machine does not run, and its lamp is out. -/
theorem State.gateHalted_partner (h : s.tripHalts m) :
    ((s.gateHalted m count).machine (partnerOf m)).state.running = false
      ∧ ((s.gateHalted m count).lamp (partnerOf m)).state ≠ .burning
      ∧ ((s.gateHalted m count).lamp (partnerOf m)).state ≠ .striking := by
  obtain ⟨hrunning, -, hlamp⟩ := (s.gateOrders m count).partnerStopped_partner m
  have hnotice := NoticeOnly.leftRunout (partnerOf m) (s.machine (partnerOf m)).state ((s.gateOrders m count).partnerStopped m)
  rw [State.gateHalted_shown h, State.modScreen_machine, State.modScreen_lamp, (hnotice.machineState _).1, hnotice.lamp,
    hlamp]
  exact ⟨hrunning, LampRec.putOut_out _⟩

end

/-- Settles O51: a gate count by its hot run, the orders, the screen, the reels and the record of a machine trip, and the
loop input. -/
theorem gateCountTripsTheMachine : Obligations.GateCountTripsTheMachine := by
  intro m count s hp sc g v hot counted
  have hexec : exec (.gateCount m count) s = .next (s.takeGateCount m (s.counted m count)) :=
    congrArg Outcome.next (if_pos hp)
  have hcounted : s.gateTaken m (s.counted m count) = counted := rfl
  have hhot : ((s.gateTaken m (s.counted m count)).fire.gates.get m).hotRun = hot := by
    change ((s.fire.gates.set m _).get m).hotRun = hot
    rw [Quad.get_set_self]
    rfl
  refine ⟨fun hquiet => ?_, fun hhot2 hlatch => ?_, ?_⟩
  · have hstands : s.takeGateCount m (s.counted m count) = s.gateTaken m (s.counted m count) := by
      refine if_neg fun h => ?_
      obtain hcool | hset := hquiet
      · exact hcool (hhot.symm.trans h.1)
      · exact h.2 hset
    rw [hexec, hstands, hcounted]
  · intro n
    have htrips : s.takeGateCount m (s.counted m count) = (s.gateTaken m (s.counted m count)).machineTrip m :=
      if_pos ⟨hhot.trans hhot2, hlatch⟩
    generalize s.counted m count = k at *
    have hreact := s.gateHalted_reactions m k
    have hfire : (s.gateHalted m k).fire = ((s.gateTaken m k).machineLatches m n).fire :=
      hreact.frame.fire.trans (s.gateOrders_fire m k)
    have htripped := (s.gateOrders_tripped m k).1.reacts hreact
    obtain ⟨hlit, hcircuit⟩ := s.gateHalted_leaves m k
    rw [(s.gateOrders_tripped m k).2] at hlit
    obtain ⟨hbeyond, hhalts, hloses, hkeeps⟩ := s.gateHalted_screen m k
    have hpartner := State.gateHalted_partner (m := m) (count := k) (s := s)
    have hframe : TripFrame s (s.gateHalted m k) := (s.gateOrders_frame m k).trans (.ofShow hreact.frame fun z => by
      rw [s.gateOrders_screen]
      by_cases hz : z = sc
      · subst hz
        by_cases h : s.tripHalts m
        · rw [hhalts h]
          rfl
        · by_cases h' : s.tripLoses m
          · rw [hloses h h']
          · rw [hkeeps h h']
      · rw [hbeyond z hz])
    have hreels := fun hplan => State.gateHalted_reels (m := m) (count := k) (s := s) hplan
    have hother := fun (hplan : PlanLaw s) (j : MachineId) (hj : screenOf j ≠ sc) =>
      State.gateHalted_beyond (count := k) hplan hj
    have hlatches := fun j => (s.gateTaken m k).machineLatches_latch m j n
    have hincident : s.gateIncident m (s.gateOrders m k) = { s.gateIncident m s with
        outcomes := [(s.gateOrders m k).outcomeOf m] } := rfl
    rw [s.gateOrders_outcome] at hincident
    have hplaced := s.gateOrders_circuit m k
    rw [hexec, htrips, s.gateTaken_trips]
    generalize s.gateIncident m (s.gateOrders m k) = incident at *
    generalize s.gateOrders m k = o at *
    generalize s.gateHalted m k = w at *
    have hpast : ∀ f, TripFrame w ((w.modFire (FireUnit.record incident)).report f) := fun f =>
      (TripFrame.ofFire _ ⟨rfl, rfl, rfl⟩).trans (.ofReport f _)
    refine ⟨(w.modFire (FireUnit.record incident)).report (.trip .gateHeat (.machine m) n), w.line, rfl,
      hframe.trans (hpast _), (State.evaluateScreen_reactions sc _).frame, ?_, ?_, ?_, hother,
      fun j => ?_, fun j => ?_, htripped.state, htripped.douser, htripped.kept.frameCount, htripped.now, ?_, ?_, fun h => ?_,
      fun c => ?_, fun x c hx => ?_, fun x hx => hbeyond x hx, fun hon hshows => ?_, fun hon hrunout hwait hawaits => ?_,
      fun hon hnot => ?_, fun hplan => ?_, ?_, ?_, rfl⟩
    · change w.fire.gates = _
      rw [hfire, ← hcounted]
      rfl
    · change w.fire.boothLatch = _
      rw [hfire]
      rfl
    · change w.fire.loopOpenMeasure = _
      rw [hfire]
      rfl
    · change w.fire.machineLatch.get j = _
      rw [hfire]
      exact (hlatches j).1
    · change w.fire.shutters.get j = _
      rw [hfire, (hlatches j).2]
      by_cases hj : j = m
      · subst hj
        rw [if_pos rfl, if_neg (not_not.2 rfl)]
        rfl
      · rw [if_neg hj, if_pos hj]
        rfl
    · change (w.lamp m).state ≠ .burning
      rw [hlit.1]
      exact (s.lamp m).putOut_out.1
    · change (w.lamp m).state ≠ .striking
      rw [hlit.1]
      exact (s.lamp m).putOut_out.2
    · obtain ⟨hdark, hopen, -⟩ := (s.lamp m).putOut_lit.1 h
      exact ⟨hlit.1.trans hdark, hlit.2.1.trans hopen⟩
    · obtain ⟨h, hc⟩ := hplaced sc c
      rw [if_pos rfl] at hc
      rw [State.report_circuit, State.modFire_circuit, hcircuit, hc]
      exact ⟨(Circuit.place_safety_full h _).1, (Circuit.place_safety_full h _).2.1⟩
    · obtain ⟨h, hc⟩ := hplaced x c
      rw [if_neg hx] at hc
      rw [State.report_circuit, State.modFire_circuit, hcircuit, hc]
    · exact ⟨hhalts ⟨hon, hshows⟩, hpartner ⟨hon, hshows⟩⟩
    · refine (hloses (fun h => hon h.1) ⟨hrunout, hwait, hawaits⟩).trans ?_
      change ({ s.screen sc with
        startGiven := false, startPending := true
        state := if (s.screen sc).state = .runup ∨ (s.screen sc).state = .swapDue then .showing
          else (s.screen sc).state } : ScreenRec) = _
      cases (s.screen sc).state <;> rfl
    · refine hkeeps (fun h => hon h.1) fun ⟨hrunout, hwait, hawaits⟩ => ?_
      obtain h | h | h := hnot
      · exact h hwait
      · exact absurd (hawaits.symm.trans h) (by decide)
      · exact hrunout h
    · intro halts ends
      have hhalted : halts ↔ s.tripHalts m := Iff.rfl
      obtain ⟨hshown, hunshown⟩ := hreels hplan
      -- the one machine whose reel may end
      have hone : ∃ e, screenOf e = sc ∧ ReelsEnded s [e] w ∧ ∀ j, ends j ↔ j ∈ [e] ∧ (s.machine j).state = .runout := by
        by_cases h : halts
        · refine ⟨partnerOf m, screenOf_partnerOf m, (hshown h).1, fun j => ?_⟩
          change (s.machine j).state = .runout ∧ ((¬ halts ∧ j = m) ∨ (halts ∧ j = partnerOf m)) ↔ _
          simp [h, and_comm]
        · refine ⟨m, rfl, (hunshown h).1, fun j => ?_⟩
          change (s.machine j).state = .runout ∧ ((¬ halts ∧ j = m) ∨ (halts ∧ j = partnerOf m)) ↔ _
          simp [h, and_comm]
      obtain ⟨e, he, hended, hends⟩ := hone
      refine ⟨fun h => (hshown h).2, fun h => (hunshown h).2, fun j i hj hi => ?_, fun j hj => ?_, fun x i hx => ?_,
        fun x i => (State.evaluateScreen_only sc _).1 x i⟩
      · obtain ⟨hmem, hrunout⟩ := (hends j).1 hj
        have hsc : screenOf j = sc := by rw [List.mem_singleton.1 hmem, he]
        have h := hended.ended j hmem hrunout i hi
        rw [hsc] at h
        exact h
      · exact hended.bound j fun h => hj ((hends j).2 h)
      · exact hended.slots x i fun j hjx hmem hrunout => hx j hjx ((hends j).2 ⟨hmem, hrunout⟩)
    · change (incident :: w.fire.log).take 8 = _
      rw [hfire, hincident]
      rfl
    · change (w.fire.nextSequence + 1) % 65536 = _
      rw [hfire]
      rfl
  · intro flowing closed
    have hloop : exec (.loopInputChange flowing) s = .next (s.modFire (FireUnit.loopChange closed)) :=
      congrArg Outcome.next (if_pos hp)
    rw [hloop]
    refine ⟨fun hsame => ?_, fun hclosed hwas => ?_, fun hopen hwas => ?_⟩
    · have hstands : s.fire.loopChange closed = s.fire := if_pos hsame.symm
      unfold State.modFire
      rw [hstands]
    · have hcloses : s.fire.loopChange closed
          = { s.fire with loopClosed := true, loopOpenMeasure := none, loopHealthy := some 0, loopHealthySub := 0 } := by
        simp [FireUnit.loopChange, hclosed, hwas]
      unfold State.modFire
      rw [hcloses]
    · have hopens : s.fire.loopChange closed
          = { s.fire with
              loopClosed := false, loopHealthy := none
              loopOpenMeasure := if s.fire.boothLatch = some .loop then none else some 0 } := by
        simp [FireUnit.loopChange, hopen, hwas]
      unfold State.modFire
      rw [hopens]

end Sys2Proof.Machine

/-! Cue groups, frame by frame. -/

namespace Sys2Proof.Machine

open Sys2Proof Host

/-! ### The states of a group -/

/-- In a patch of `p` foil frames, the `c`th of its group; `q` is the deferred queue. -/
def DecoderRec.inPatch (q : List DeferredCue) (c p : Nat) : DecoderRec :=
  { decode := .patch, patchCount := c, patchLength := p, gapFrames := 0, deferred := q }

/-- In a clear stretch of `g` frames after `c` patches. -/
def DecoderRec.inGap (q : List DeferredCue) (c g : Nat) : DecoderRec :=
  { decode := .gap, patchCount := c, patchLength := 0, gapFrames := g, deferred := q }

/-- A splice is skipped. -/
def DecoderRec.inSkip (q : List DeferredCue) : DecoderRec :=
  { decode := .skip, patchCount := 0, patchLength := 0, gapFrames := 0, deferred := q }

/-- No group is read. -/
def DecoderRec.atRest (q : List DeferredCue) : DecoderRec :=
  { decode := .idle, patchCount := 0, patchLength := 0, gapFrames := 0, deferred := q }

namespace DecoderRec

variable {q : List DeferredCue} {c p g : Nat}

theorem sample_idle {d : DecoderRec} (h : d.decode = .idle) : d.sample true = (inPatch d.deferred 1 1, .quiet) := by
  simp only [sample, h]
  rfl

theorem sample_inPatch_foil (h : p ≤ 23) : (inPatch q c p).sample true = (inPatch q c (p + 1), .quiet) :=
  if_neg (by change ¬ 25 ≤ p + 1; omega)

theorem sample_inPatch_splice : (inPatch q c 24).sample true = (inSkip q, .splice) := rfl

theorem sample_inPatch_clear : (inPatch q c p).sample false = (inGap q c 1, .quiet) := rfl

theorem sample_inGap_clear (h : g ≤ 6) : (inGap q c g).sample false = (inGap q c (g + 1), .quiet) :=
  if_neg (by change ¬ 8 ≤ g + 1; omega)

theorem sample_inGap_foil : (inGap q c g).sample true = (inPatch q (min 7 (c + 1)) 1, .quiet) := rfl

theorem sample_inSkip_foil : (inSkip q).sample true = (inSkip q, .quiet) := rfl

/-! ### Runs of frames -/

theorem read_append (d : DecoderRec) (a b : List Bool) :
    d.read (a ++ b) = (((d.read a).1.read b).1, (d.read a).2 ++ ((d.read a).1.read b).2) := by
  induction a generalizing d with
  | nil => rfl
  | cons x a ih => simp only [List.cons_append, read, ih]

theorem read_cons {d e : DecoderRec} {b : Bool} {news : GroupNews} (h : d.sample b = (e, news)) (bs : List Bool) :
    d.read (b :: bs) = ((e.read bs).1, news :: (e.read bs).2) := by
  simp only [read, h]

/-- Foil frames lengthen a patch up to 24. -/
theorem read_patch (k : Nat) (h : p + k ≤ 24) :
    (inPatch q c p).read (List.replicate k true) = (inPatch q c (p + k), List.replicate k .quiet) := by
  induction k generalizing p with
  | zero => rfl
  | succ k ih =>
    rw [List.replicate_succ, read_cons (sample_inPatch_foil (by omega)), ih (by omega), List.replicate_succ,
      Nat.add_right_comm, Nat.add_assoc]

/-- Clear frames lengthen a clear stretch up to 7. -/
theorem read_gap (k : Nat) (h : g + k ≤ 7) :
    (inGap q c g).read (List.replicate k false) = (inGap q c (g + k), List.replicate k .quiet) := by
  induction k generalizing g with
  | zero => rfl
  | succ k ih =>
    rw [List.replicate_succ, read_cons (sample_inGap_clear (by omega)), ih (by omega), List.replicate_succ,
      Nat.add_right_comm, Nat.add_assoc]

theorem read_skip (k : Nat) : (inSkip q).read (List.replicate k true) = (inSkip q, List.replicate k .quiet) := by
  induction k with
  | zero => rfl
  | succ k ih => rw [List.replicate_succ, read_cons sample_inSkip_foil, ih, List.replicate_succ]

/-- The first patch of a group. -/
theorem read_first {d : DecoderRec} (h : d.decode = .idle) (hp : 1 ≤ p) (hp' : p ≤ 24) :
    d.read (List.replicate p true) = (inPatch d.deferred 1 p, List.replicate p .quiet) := by
  obtain ⟨k, rfl⟩ : ∃ k, p = k + 1 := ⟨p - 1, by omega⟩
  rw [List.replicate_succ, read_cons (sample_idle h), read_patch k (by omega), List.replicate_succ, Nat.add_comm 1 k]

/-- A clear stretch and the next patch of its group. -/
theorem read_next {n : Nat} (hg : 1 ≤ g ∧ g ≤ 7) (hn : 1 ≤ n ∧ n ≤ 24) :
    (inPatch q c p).read (List.replicate g false ++ List.replicate n true)
      = (inPatch q (min 7 (c + 1)) n, List.replicate (g + n) .quiet) := by
  obtain ⟨i, rfl⟩ : ∃ i, g = i + 1 := ⟨g - 1, by omega⟩
  obtain ⟨j, rfl⟩ : ∃ j, n = j + 1 := ⟨n - 1, by omega⟩
  have hgap : (inPatch q c p).read (List.replicate (i + 1) false) = (inGap q c (1 + i), List.replicate (i + 1) .quiet) := by
    rw [List.replicate_succ, read_cons sample_inPatch_clear, read_gap i (by omega), List.replicate_succ]
  have hpatch : (inGap q c (1 + i)).read (List.replicate (j + 1) true)
      = (inPatch q (min 7 (c + 1)) (1 + j), List.replicate (j + 1) .quiet) := by
    rw [List.replicate_succ, read_cons sample_inGap_foil, read_patch j (by omega), List.replicate_succ]
  rw [read_append, hgap, hpatch, List.replicate_append_replicate, Nat.add_comm 1 j]

/-- The further patches of a group; the count stays at 7 (R45). -/
theorem read_rest (rest : List (Nat × Nat)) (h : ∀ x ∈ rest, 1 ≤ x.1 ∧ x.1 ≤ 7 ∧ 1 ≤ x.2 ∧ x.2 ≤ 24) (hc : c ≤ 7) :
    ∃ n k, (inPatch q c p).read (rest.flatMap fun x => List.replicate x.1 false ++ List.replicate x.2 true)
      = (inPatch q (min 7 (c + rest.length)) n, List.replicate k .quiet) := by
  induction rest generalizing c p with
  | nil => exact ⟨p, 0, by rw [List.length_nil, Nat.add_zero, min_eq_right hc]; rfl⟩
  | cons x rest ih =>
    obtain ⟨hg, hg', hn, hn'⟩ := h x List.mem_cons_self
    obtain ⟨n, k, hread⟩ := ih (c := min 7 (c + 1)) (p := x.2) (fun y hy => h y (List.mem_cons_of_mem _ hy)) (min_le_left _ _)
    have hcount : min 7 (min 7 (c + 1) + rest.length) = min 7 (c + (rest.length + 1)) := by omega
    refine ⟨n, x.1 + x.2 + k, ?_⟩
    rw [List.flatMap_cons, read_append, read_next ⟨hg, hg'⟩ ⟨hn, hn'⟩]
    dsimp only
    rw [hread, List.replicate_append_replicate, List.length_cons, hcount]

/-- The eighth clear frame closes the group. -/
theorem read_closing : (inPatch q c p).read (List.replicate 8 false) = (atRest q, List.replicate 7 .quiet ++ [.closed c]) := by
  have hsplit : List.replicate 8 false = false :: (List.replicate 6 false ++ [false]) := rfl
  rw [hsplit, read_cons sample_inPatch_clear, read_append, read_gap 6 (by omega)]
  rfl

theorem read_group {d : DecoderRec} (h : d.decode = .idle) {first : Nat} (hp : 1 ≤ first) (hp' : first ≤ 24)
    {rest : List (Nat × Nat)} (hrest : ∀ x ∈ rest, 1 ≤ x.1 ∧ x.1 ≤ 7 ∧ 1 ≤ x.2 ∧ x.2 ≤ 24) :
    ∃ k, d.read (groupSamples first rest)
      = (atRest d.deferred, List.replicate k .quiet ++ [.closed (min 7 (1 + rest.length))]) := by
  obtain ⟨n, k, hread⟩ := read_rest (q := d.deferred) (c := 1) (p := first) rest hrest (by omega)
  refine ⟨first + k + 7, ?_⟩
  unfold groupSamples
  rw [read_append, read_append, read_first h hp hp']
  dsimp only
  rw [hread]
  dsimp only
  rw [read_closing, ← List.append_assoc, List.replicate_append_replicate, List.replicate_append_replicate]

theorem read_splice {d : DecoderRec} (h : d.decode = .idle) {n : Nat} (hn : 25 ≤ n) :
    d.read (List.replicate n true ++ [false])
      = (atRest d.deferred, List.replicate 24 .quiet ++ [.splice] ++ List.replicate (n - 24) .quiet) := by
  obtain ⟨k, rfl⟩ : ∃ k, n = 24 + (k + 1) := ⟨n - 25, by omega⟩
  have hskip : (inPatch d.deferred 1 24).read (List.replicate (k + 1) true ++ [false])
      = (atRest d.deferred, .splice :: List.replicate (k + 1) .quiet) := by
    rw [List.replicate_succ, List.cons_append, read_cons sample_inPatch_splice, read_append, read_skip, List.replicate_succ']
    rfl
  rw [← List.replicate_append_replicate, List.append_assoc, read_append, read_first h (by omega) (by omega)]
  dsimp only
  rw [hskip, Nat.add_sub_cancel_left, List.append_assoc]
  rfl

end DecoderRec

end Sys2Proof.Machine

/-! A frame pulse and the cue group; the statement. -/

namespace Sys2Proof.Machine

open Sys2Proof Host

/-! ### What a pulse leaves of the motor and the state -/

/-- A speed evaluation leaves motor and lace-up run, and of the states starts RUNUP alone (R32). -/
theorem MachineRec.judgeSpeed_standing (isIn : Bool) (r : MachineRec) :
    (r.judgeSpeed isIn).motor = r.motor ∧ (r.judgeSpeed isIn).laceUp = r.laceUp
      ∧ ((r.judgeSpeed isIn).state = r.state ∨ r.state = .starting ∧ (r.judgeSpeed isIn).state = .runup) := by
  have hfirst : ∀ x : MachineRec, x.firstAtSpeed.motor = x.motor ∧ x.firstAtSpeed.laceUp = x.laceUp
      ∧ (x.firstAtSpeed.state = x.state ∨ x.state = .starting ∧ x.firstAtSpeed.state = .runup) := fun x => by
    unfold MachineRec.firstAtSpeed
    split
    next h => exact ⟨rfl, rfl, .inr ⟨h, rfl⟩⟩
    next => exact ⟨rfl, rfl, .inl rfl⟩
  cases hs : r.speed with
  | stopped => rw [MachineRec.judgeSpeed_of_stopped hs]; exact ⟨rfl, rfl, .inl rfl⟩
  | accel =>
    rw [MachineRec.judgeSpeed_of_accel hs]
    split
    · exact hfirst _
    · exact ⟨rfl, rfl, .inl rfl⟩
  | atSpeed => rw [MachineRec.judgeSpeed_of_atSpeed hs]; split <;> exact ⟨rfl, rfl, .inl rfl⟩
  | offSpeed => rw [MachineRec.judgeSpeed_of_offSpeed hs]; split <;> exact ⟨rfl, rfl, .inl rfl⟩

theorem MachineRec.pulse_standing (r : MachineRec) :
    r.pulse.motor = r.motor ∧ r.pulse.laceUp = r.laceUp
      ∧ (r.pulse.state = r.state ∨ r.state = .starting ∧ r.pulse.state = .runup) := by
  have hcount : r.countFrame.motor = r.motor ∧ r.countFrame.laceUp = r.laceUp ∧ r.countFrame.state = r.state := by
    rw [MachineRec.countFrame_kept]
    exact ⟨rfl, rfl, rfl⟩
  obtain ⟨hmotor, hlace, hstate⟩ := hcount
  cases hon : r.motor with
  | false =>
    rw [MachineRec.pulse_of_off hon]
    exact ⟨hmotor.trans hon, hlace, .inl hstate⟩
  | true =>
    cases href : r.pulseRef with
    | false =>
      rw [MachineRec.pulse_of_reference hon href]
      exact ⟨hmotor.trans hon, hlace, .inl hstate⟩
    | true =>
      by_cases hfull : r.timed.ring.length = 8
      · rw [MachineRec.pulse_of_fullRing hon href hfull]
        obtain ⟨hm, hl, hs⟩ := MachineRec.judgeSpeed_standing
          (decide (2352 ≤ 100000000 / (r.timed.ring.sum / 8) ∧ 100000000 / (r.timed.ring.sum / 8) ≤ 2448))
          { r.timed with average := some (r.timed.ring.sum / 8), lastAverage := some (r.timed.ring.sum / 8)
                         cfps := some (100000000 / (r.timed.ring.sum / 8)) }
        rw [hm, hl]
        refine ⟨hmotor.trans hon, hlace, ?_⟩
        have htimed : r.timed.state = r.state := hstate
        rw [← htimed]
        exact hs
      · rw [MachineRec.pulse_of_openRing hon href hfull]
        exact ⟨hmotor.trans hon, hlace, .inl hstate⟩

/-- The decoder is left by what a pulse posts of the machine (R47). -/
theorem State.pulsed_decoder (m : MachineId) (s : State) : (s.modMachine m MachineRec.pulse).decoder m = s.decoder m := by
  obtain ⟨hmotor, -, hstate⟩ := (s.machine m).pulse_standing
  rw [State.modMachine_decoder_self]
  obtain h | ⟨-, h⟩ := hstate
  · exact DecoderRec.follow_of_kept _ hmotor h
  · simp [DecoderRec.follow, hmotor, h, MachineState.emptiesQueue]

theorem State.speedReport_decoder (m : MachineId) (before : SpeedStatus) (s : State) (k : MachineId) :
    (s.speedReport m before).decoder k = s.decoder k := by
  obtain ⟨l, h⟩ := s.speedReport_line m before
  rw [h]
  rfl

/-! ### The frame notice -/

/-- At a frame notice of a machine that is neither ON_SCREEN nor ready the controller does nothing. -/
theorem State.frameNotice_unready {m : MachineId} {s : State} (hon : (s.screen (screenOf m)).onScreen ≠ some m)
    (hready : s.openReady m = false) : s.frameNotice m = s := by
  unfold State.frameNotice
  dsimp only
  rw [if_neg fun h => hon h.1, State.machinePosted_of_notReady (by rw [if_neg hon]; exact hready), if_neg hon]

/-- The decoder with the motor ON: it samples, and what the sample made of the group is told. -/
theorem State.decoderNotice_on {m : MachineId} {foil : Bool} {s : State} (h : (s.machine m).motor = true) :
    s.decoderNotice m foil
      = (s.modDecoder m fun _ => ((s.decoder m).sample foil).1).groupNews m ((s.decoder m).sample foil).2 := if_pos h

/-! ### The state at the decoder's sample -/

section

variable (m : MachineId) (dt : Nat) (s : State)

/-- The pulse counted and timed, and a change of the speed status reported (R4, R14). -/
def State.pulseTaken : State := ((s.elapse dt).modMachine m MachineRec.pulse).speedReport m (s.machine m).speed

/-- The decoder has taken its sample of the foil. -/
def State.foilRead (foil : Bool) : State :=
  (s.pulseTaken m dt).modDecoder m fun _ => ((s.decoder m).sample (s.sense m s.straps.foil foil)).1

theorem State.pulseTaken_record : (s.pulseTaken m dt).machine m = ((s.machine m).elapse dt).pulse.settleDouser := by
  unfold State.pulseTaken
  rw [State.speedReport_machine, State.modMachine_machine, if_pos rfl, State.elapse_machine]

theorem State.pulseTaken_motor : ((s.pulseTaken m dt).machine m).motor = (s.machine m).motor
    ∧ ((s.pulseTaken m dt).machine m).laceUp = (s.machine m).laceUp := by
  obtain ⟨hmotor, hlace, -⟩ := ((s.machine m).elapse dt).pulse_standing
  rw [State.pulseTaken_record]
  exact ⟨hmotor, hlace⟩

theorem State.pulseTaken_empty (h : (s.machine m).state = .empty) : ((s.pulseTaken m dt).machine m).state = .empty
    ∧ ((s.pulseTaken m dt).machine m).frameCount = (s.machine m).frameCount := by
  have h' : ((s.machine m).elapse dt).state = .empty := h
  rw [State.pulseTaken_record]
  refine ⟨?_, ?_⟩
  · change ((s.machine m).elapse dt).pulse.state = .empty
    obtain hstate | ⟨hstate, -⟩ := ((s.machine m).elapse dt).pulse_standing.2.2
    · exact hstate.trans h'
    · exact absurd (h'.symm.trans hstate) (by decide)
  · change ((s.machine m).elapse dt).pulse.frameCount = (s.machine m).frameCount
    rw [(MachineRec.pulse_count _).1, MachineRec.countFrame_of_empty h']
    rfl

theorem State.pulseTaken_decoder : (s.pulseTaken m dt).decoder m = s.decoder m := by
  unfold State.pulseTaken
  rw [State.speedReport_decoder, State.pulsed_decoder]
  rfl

theorem State.pulseTaken_onScreen (z : ScreenId) : ((s.pulseTaken m dt).screen z).onScreen = (s.screen z).onScreen := by
  obtain ⟨l, h⟩ := ((s.elapse dt).modMachine m MachineRec.pulse).speedReport_line m (s.machine m).speed
  unfold State.pulseTaken
  rw [h]
  change ((s.elapse dt).screen z).onScreen = _
  rw [State.elapse_screen]
  unfold ScreenRec.elapse
  dsimp only
  split <;> rfl

theorem State.pulseTaken_atReelEnd :
    (s.pulseTaken m dt).atReelEnd m = ((s.elapse dt).modMachine m MachineRec.pulse).atReelEnd m :=
  State.speedReport_atReelEnd m _ _

variable {m dt s} {foil : Bool}

theorem exec_framePulse_taken (hp : s.powered = true) (hw : s.wired m = true) : exec (.framePulse m dt foil) s
    = .next (((if (s.pulseTaken m dt).atReelEnd m then (s.pulseTaken m dt).reelEnd m else s.pulseTaken m dt).decoderNotice m
        (s.sense m s.straps.foil foil)).frameNotice m) := by
  have hspeed : ((s.elapse dt).machine m).speed = (s.machine m).speed := by
    rw [State.elapse_machine]
    rfl
  rw [exec_framePulse_wired hp hw]
  unfold State.framePulse State.pulseTaken
  rw [← hspeed]

/-- Short of the reel's end and with the motor ON, the decoder samples and the controller takes the frame notice. -/
theorem exec_framePulse_read (hp : s.powered = true) (hw : s.wired m = true) (hend : (s.pulseTaken m dt).atReelEnd m = false)
    (hmotor : (s.machine m).motor = true) : exec (.framePulse m dt foil) s
      = .next (((s.foilRead m dt foil).groupNews m ((s.decoder m).sample (s.sense m s.straps.foil foil)).2).frameNotice m) := by
  rw [exec_framePulse_taken hp hw, hend, if_neg (by decide),
    State.decoderNotice_on ((s.pulseTaken_motor m dt).1.trans hmotor), s.pulseTaken_decoder]
  rfl

/-- What is made of a group outside a lace-up run (R45, R46, R48). -/
theorem State.groupNews_disposed {u : State} (h : (u.machine m).laceUp = false) (news : GroupNews) :
    u.groupNews m news = match news with
      | .quiet => u
      | .splice => u.rejectCue m none (u.machine m).frameCount .splice
      | .closed n => u.disposeCode m n (u.machine m).frameCount := by
  cases news <;> simp [State.groupNews, h]

/-- In a lace-up run it is reported TEST (R48). -/
theorem State.groupNews_tested {u : State} (h : (u.machine m).laceUp = true) (news : GroupNews) :
    u.groupNews m news = match news with
      | .quiet => u
      | .splice => u.report (.cue (screenOf m) m .splice (u.machine m).framesSinceOn .test)
      | .closed n =>
        u.report (.cue (screenOf m) m (if n < 7 then .code n else .invalid) (u.machine m).framesSinceOn .test) := by
  cases news <;> simp [State.groupNews, h, Config.maxPatches]

end

/-! ### The statement -/

/-- Settles O23: the group run by run, and the pulse by what its sample makes of the group. -/
theorem cueGroupsAreReadAndTested : Obligations.CueGroupsAreReadAndTested := by
  refine ⟨fun d hd => ⟨fun first rest hfirst hfirst' hrest => ?_, fun n hn => d.read_splice hd hn⟩, ?_, ?_⟩
  · obtain ⟨k, hread⟩ := DecoderRec.read_group hd hfirst hfirst' hrest
    rw [hread]
    exact ⟨rfl, k, rfl⟩
  · intro m dt foil s hp hw hempty hlace hmotor hon u x read
    obtain ⟨hempty', hcount⟩ := s.pulseTaken_empty m dt hempty
    have hend : (s.pulseTaken m dt).atReelEnd m = false := by
      unfold State.atReelEnd
      rw [hempty']
      rfl
    have hlaceUp : (read.machine m).laceUp = true := (s.pulseTaken_motor m dt).2.trans hlace
    have hexec : exec (.framePulse m dt foil) s = .next ((read.groupNews m x.2).frameNotice m) :=
      exec_framePulse_read hp hw hend hmotor
    rw [State.groupNews_tested hlaceUp] at hexec
    have hunready : ∀ t : State, (∀ z, t.screen z = u.screen z) → t.machine m = u.machine m → t.frameNotice m = t :=
      fun t hs ht => by
        have hstate : (t.machine m).state = .empty := by rw [ht]; exact hempty'
        refine State.frameNotice_unready ?_ (by simp [State.openReady, hstate])
        rw [hs]
        exact fun h => hon ((s.pulseTaken_onScreen m dt _).symm.trans h)
    refine ⟨hcount, fun hnews => ?_, fun hnews => ?_, fun n hnews => ?_⟩ <;> rw [hexec, hnews] <;>
      exact congrArg Outcome.next (hunready _ (fun _ => rfl) rfl)
  · intro m dt foil s hp hw hlace w u x read f
    have hatEnd : (s.pulseTaken m dt).atReelEnd m = w.atReelEnd m := s.pulseTaken_atReelEnd m dt
    have hexec := exec_framePulse_taken (dt := dt) (foil := foil) hp hw
    rw [hatEnd] at hexec
    have hlaceUp : (read.machine m).laceUp = false := (s.pulseTaken_motor m dt).2.trans hlace
    have hframe : (read.machine m).frameCount = f := by
      change (u.machine m).frameCount = f
      rw [State.speedReport_machine]
    refine ⟨fun hend hmotor => ?_, fun hend hoff => ?_, fun hend => ?_⟩
    · have hread : exec (.framePulse m dt foil) s = .next ((read.groupNews m x.2).frameNotice m) :=
        exec_framePulse_read hp hw (hatEnd.trans hend) hmotor
      rw [State.groupNews_disposed hlaceUp, hframe] at hread
      refine ⟨fun hnews => ?_, fun hnews => ?_, fun n hnews _ => ?_, fun hnews => ?_⟩ <;> rw [hread, hnews]
      rfl
    · rw [hexec, hend, if_neg (by decide), State.decoderNotice_of_motorOff _ ((s.pulseTaken_motor m dt).1.trans hoff)]
      rfl
    · rw [hexec, hend, if_pos rfl,
        State.decoderNotice_of_motorOff _ ((s.pulseTaken m dt).reelEnd_reactions m).machine_of_stopped.2.1]
      rfl

end Sys2Proof.Machine

/-! The inquiries of the screens, the plan and the lights: what each reads and answers. -/

namespace Sys2Proof.Machine

open Sys2Proof Host

/-! ### A console command that only answers -/

section

variable {s : State} {sc : ScreenId} {a b : Text}

theorem exec_pstat_answered {n : SlotIx} (hp : s.powered = true) (ha : s.namesScreen a sc) (hb : namesSlot b n) :
    exec (.pstat [a, b]) s = .next (s.answered (.pstat [a, b]) (.ok (s.pstatFields sc n))) := by
  have hparse : screenAndSlot (s.taken (.pstat [a, b])) [a, b] = .ok (sc, n) := by
    obtain ⟨i, hi, hsc⟩ := screenOperand_of_namesScreen (s := s.taken (.pstat [a, b])) ha
    obtain ⟨j, hj, hn⟩ := slotOperand_of_namesSlot hb
    simp [screenAndSlot, hi, hj, hsc, hn]
  exact next_takeCommand_answered hp (by simp only [hparse]; rfl)

theorem exec_sstat_answered (hp : s.powered = true) (ha : s.namesScreen a sc) :
    exec (.sstat [a]) s = .next (s.answered (.sstat [a]) (.ok (s.sstatFields sc))) := by
  have hparse : onlyScreen (s.taken (.sstat [a])) [a] = .ok sc := onlyScreen_of_namesScreen ha
  exact next_takeCommand_answered hp (by simp only [hparse]; rfl)

theorem exec_time_answered (hp : s.powered = true) :
    exec (.time []) s = .next (s.answered (.time []) (.ok [fClock s.plan.clock])) :=
  next_takeCommand_answered hp rfl

theorem exec_showat_answered (hp : s.powered = true) (ha : s.namesScreen a sc) :
    exec (.showat [a]) s = .next (s.answered (.showat [a])
      (.ok [match s.plan.showAt.get sc with | none => txt "OFF" | some t => fHourMinute t])) := by
  have hparse : parseShowat (s.taken (.showat [a])) [a] = .ok (sc, .read) := by
    obtain ⟨i, hi, hsc⟩ := screenOperand_of_namesScreen (s := s.taken (.showat [a])) ha
    simp [parseShowat, hi, hsc]
  exact next_takeCommand_answered hp (by simp only [hparse]; rfl)

theorem exec_sound_answered (hp : s.powered = true) (ha : s.namesScreen a sc) :
    exec (.sound [a]) s = .next (s.answered (.sound [a]) (.ok [fNum (s.screen sc).sound])) := by
  have hparse : parseSound (s.taken (.sound [a])) [a] = .ok (sc, none) := by
    obtain ⟨i, hi, hsc⟩ := screenOperand_of_namesScreen (s := s.taken (.sound [a])) ha
    simp [parseSound, hi, hsc]
  exact next_takeCommand_answered hp (by simp only [hparse]; rfl)

theorem exec_cuemap_answered {k : Nat} {c : EffectCode} (hp : s.powered = true) (ha : s.namesScreen a sc)
    (hb : number? b = some k) (hk : effectOf? k = some c) :
    exec (.cuemap [a, b]) s
      = .next (s.answered (.cuemap [a, b]) (.ok (actionListFields ((s.screen sc).cueTable.get c)))) := by
  have hparse : parseCuemap (s.taken (.cuemap [a, b])) [a, b] = .ok (sc, c, none) := by
    obtain ⟨i, hi, hsc⟩ := screenOperand_of_namesScreen (s := s.taken (.cuemap [a, b])) ha
    simp [parseCuemap, hi, hb, hsc, hk]
  exact next_takeCommand_answered hp (by simp only [hparse]; rfl)

theorem exec_scenedef_answered {n : Fin 8} (hp : s.powered = true) (ha : s.namesScreen a sc) (hb : namesScene b n) :
    exec (.scenedef [a, b]) s = .next (s.answered (.scenedef [a, b]) (.ok
      [fNum (s.sceneLevels sc n).house, fNum (s.sceneLevels sc n).aisle, fNum (s.sceneLevels sc n).stage])) := by
  have hparse : parseScenedef (s.taken (.scenedef [a, b])) [a, b] = .ok (sc, n, none) := by
    obtain ⟨i, hi, hsc⟩ := screenOperand_of_namesScreen (s := s.taken (.scenedef [a, b])) ha
    obtain ⟨j, hj, hn⟩ := sceneOperand_of_namesScene hb
    simp [parseScenedef, hi, hj, hsc, hn]
  exact next_takeCommand_answered hp (by simp only [hparse]; rfl)

theorem exec_fstat_answered (hp : s.powered = true) :
    exec (.fstat []) s = .next (s.answered (.fstat []) (.ok s.fire.fields)) :=
  next_takeCommand_answered hp rfl

theorem exec_ident_answered (hp : s.powered = true) :
    exec (.ident []) s = .next (s.answered (.ident []) (.ok (identFields s.straps))) :=
  next_takeCommand_answered hp rfl

theorem exec_status_answered (hp : s.powered = true) :
    exec (.status []) s = .next (s.answered (.status []) (.ok (s.statusRead []))) :=
  next_takeCommand_answered hp rfl

theorem exec_incident_answered {n : Nat} {r : IncidentRec} (hp : s.powered = true) (ha : number? a = some n) (hn : 1 ≤ n)
    (hn' : n ≤ 8) (hr : s.fire.log[n - 1]? = some r) :
    exec (.incident [a]) s = .next (s.answered (.incident [a]) (.ok r.fields)) := by
  have hparse : parseIncident (s.taken (.incident [a])) [a] = .ok r := by
    have hlog : (s.taken (.incident [a])).fire.log[n - 1]? = some r := hr
    simp [parseIncident, ha, hn, hn', Config.logSize, hlog]
  exact next_takeCommand_answered hp (by simp only [hparse])

end

/-! ### The fields answered -/

/-- STATUS as read at its dispatch, where it is the command handed; else as the records stand. -/
theorem State.statusRead_of_dispatched {s : State} {ops read : List Text} (h : s.line.handed = some (.status ops))
    (hread : s.line.reading = some (.status read)) : s.statusRead ops = read := by
  simp [State.statusRead, State.readingFor, h, hread]

theorem State.statusRead_of_direct {s : State} {ops : List Text} (h : s.line.handed ≠ some (.status ops)) :
    s.statusRead ops = s.statusFields := by
  simp [State.statusRead, State.readingFor, h]

/-! A field that may be absent is a hyphen then (R94). -/

theorem fOpt_number (x : Option Nat) : fOpt fNum x = match x with | some n => fNum n | none => txt "-" := by
  cases x <;> rfl

theorem fOpt_scene (x : Option (Fin 8)) :
    fOpt (fun k => fNum k.val) x = match x with | some k => fNum k.val | none => txt "-" := by
  cases x <;> rfl

theorem fOpt_machine (x : Option MachineId) : fOpt fMachine x = match x with | some m => fMachine m | none => txt "-" := by
  cases x <;> rfl

/-- The entry's ten fields, each a hyphen where there is no entry or the field is absent (R94). -/
theorem entryFields_eq (x : Option SlotEntry) : entryFields x =
    [fOpt (·.reel) x, fOpt (fun e => fNum e.length) x, fOpt (fun e => fOpt fNum e.co) x, fOpt (fun e => fNum e.window) x,
      fOpt (fun e => fNum e.runUp) x, fOpt (fun e => match e.mode with | .film => txt "FILM" | .foot => txt "FOOT") x,
      fOpt (fun e => fOpt (fun k => fNum k.val) e.scene) x, fOpt (fun e => if e.last then txt "LAST" else fAbsent) x,
      fOpt (fun e => fOpt fNum e.int) x, fOpt (fun e => if e.note then txt "NOTE" else fAbsent) x] := by
  cases x with
  | none => rfl
  | some e => cases h : e.mode <;> simp [entryFields, fOpt, h]

/-- The role: the current slot is the one named while the screen is not IDLE (R105). -/
theorem State.slotRole_eq (s : State) (sc : ScreenId) (n : SlotIx) : s.slotRole sc n =
    if (s.screen sc).state ≠ .idle ∧ (s.screen sc).current = some n then txt "CURRENT"
    else if s.onDeck sc = some n then txt "ONDECK"
    else if ((s.screen sc).state = .idle ∨ (s.screen sc).state = .halted) ∧ s.nextSlot sc = some n then txt "NEXT"
    else if s.frozen sc n then txt "FROZEN" else fAbsent := by
  have hcurrent : s.isCurrent sc n = true ↔ (s.screen sc).state ≠ .idle ∧ (s.screen sc).current = some n := by
    simp [State.isCurrent]
  exact if_congr hcurrent rfl rfl

theorem actionListFields_eq (l : List CueAction) :
    actionListFields l = if l = [] then [txt "NONE"] else l.flatMap CueAction.fields := by
  cases l <;> rfl

theorem lightFields_eq (l : List LightLevel) :
    lightFields l = if l = [] then [txt "-"] else l.flatMap LightLevel.fields := by
  cases l <;> rfl

theorem latchFields_booth (l : Option BoothCause) : latchFields fBoothCause l = match l with
    | none => [txt "CLEAR"]
    | some .power => [txt "SET", txt "POWER"]
    | some .loop => [txt "SET", txt "LOOP"] := by
  rcases l with _ | (_ | _) <;> rfl

theorem latchFields_machine (l : Option LatchCause) : latchFields fLatchCause l = match l with
    | none => [txt "CLEAR"]
    | some .gateHeat => [txt "SET", txt "GATE_HEAT"]
    | some .booth => [txt "SET", txt "BOOTH"] := by
  rcases l with _ | (_ | _) <;> rfl

/-- A screen's seven fields in STATUS: hyphens for a screen that is not fitted, and after the state of an IDLE one. -/
theorem State.screenFields_eq (s : State) (z : ScreenId) : s.screenFields z =
    if z = .s2 ∧ s.straps.screen2Fitted = false then
      [fAbsent, fAbsent, fAbsent, fAbsent, fAbsent, fAbsent, fAbsent]
    else if (s.screen z).state = .idle then [fScreen z, txt "IDLE", fAbsent, fAbsent, fAbsent, fAbsent, fAbsent]
    else [fScreen z, fScreenState (s.screen z).state, fOpt fSlot (s.screen z).current, fOpt fMachine (s.screen z).onScreen,
      (match (s.screen z).onScreen with | some m => fNum (s.machine m).frameCount | none => txt "-"),
      (match (s.screen z).onScreen with | some m => fOpt fNum (s.reelTime m) | none => txt "-"),
      fYesNo (s.screen z).startPending] := by
  refine ite_congr rfl (fun _ => rfl) fun _ => ite_congr rfl (fun hidle => ?_) fun _ => ?_
  · rw [hidle]
    rfl
  · cases (s.screen z).onScreen <;> rfl

/-- A latch's two fields in STATUS. -/
theorem State.latchWord_eq (s : State) (m : MachineId) : s.latchWord m = [fMachine m, match s.fire.machineLatch.get m with
    | none => txt "CLEAR"
    | some .gateHeat => txt "GATE_HEAT"
    | some .booth => txt "BOOTH"] := by
  unfold State.latchWord
  rcases s.fire.machineLatch.get m with _ | (_ | _) <;> rfl

/-- The rate the strips select: 300 unless one other strip alone is fitted (R174). -/
theorem fNum_baudRate (p : Straps) : fNum (baudRate p) = match p.baud300, p.baud1200, p.baud2400 with
    | false, true, false => txt "1200"
    | false, false, true => txt "2400"
    | _, _, _ => txt "300" := by
  unfold baudRate
  cases p.baud300 <;> cases p.baud1200 <;> cases p.baud2400 <;> decide

end Sys2Proof.Machine

/-! The inquiries change nothing; the statement. -/

namespace Sys2Proof.Machine

open Sys2Proof Host

/-- Settles O22: each inquiry is read and answered, and its fields agree with the rules' one by one. -/
theorem readsChangeNothing : Obligations.ReadsChangeNothing := by
  refine ⟨?_, ?_, ?_⟩
  · intro sc n a b s hp ha hb x field
    have hfield : ∀ f g : SlotEntry → Text, (∀ e, f e = g e) → fOpt f (s.slot sc n).entry = field g := fun f g h => by
      simp only [field, x]
      cases (s.slot sc n).entry with
      | none => rfl
      | some e => exact h e
    rw [exec_pstat_answered hp ha hb, State.pstatFields, State.slotRole_eq, fOpt_machine, entryFields_eq,
      hfield _ _ fun _ => rfl, hfield _ _ fun _ => rfl, hfield _ _ fun e => fOpt_number e.co, hfield _ _ fun _ => rfl,
      hfield _ _ fun _ => rfl, hfield _ _ fun _ => rfl, hfield _ _ fun e => fOpt_scene e.scene, hfield _ _ fun _ => rfl,
      hfield _ _ fun e => fOpt_number e.int, hfield _ _ fun _ => rfl] <;> rfl
  · intro sc a s hp ha
    refine ⟨exec_sstat_answered hp ha, ?_, ?_, exec_sound_answered hp ha, fun b k c hb hk => ?_,
      fun b n hb => exec_scenedef_answered hp ha hb⟩
    · rw [exec_time_answered hp]
      cases s.plan.clock <;> rfl
    · rw [exec_showat_answered hp ha]
      cases s.plan.showAt.get sc <;> rfl
    · rw [exec_cuemap_answered hp ha hb hk, actionListFields_eq]
  · intro s hp
    refine ⟨?_, ?_, ?_, fun a n r ha hn hn' hr => ?_⟩
    · intro machine
      have hmachine : ∀ m, s.fire.machineFields m = machine m := fun m => by
        rw [FireUnit.machineFields, latchFields_machine] <;> rfl
      rw [exec_fstat_answered hp, FireUnit.fields, hmachine, hmachine, hmachine, hmachine, latchFields_booth,
        fOpt_number] <;> rfl
    · rw [exec_ident_answered hp, identFields, fNum_baudRate] <;> rfl
    · intro screen latch fields
      have hscreen : ∀ z, s.screenFields z = screen z := s.screenFields_eq
      have hlatch : ∀ m, s.latchWord m = latch m := s.latchWord_eq
      have hfields : s.statusFields = fields := by
        rw [State.statusFields, hscreen, hscreen, hlatch, hlatch, hlatch, hlatch]
        unfold fields
        rcases s.plan.clock with _ | t <;> rcases s.fire.boothLatch with _ | (_ | _) <;> rfl
      refine ⟨fun w => congrArg (fun l => some (DispatchReading.status l)) hfields, fun hdirect => ?_, fun read hhanded hread => ?_⟩
      · rw [exec_status_answered hp, State.statusRead_of_direct hdirect, hfields]
      · rw [exec_status_answered hp, State.statusRead_of_dispatched hhanded hread]
    · rw [exec_incident_answered hp ha hn hn' hr, IncidentRec.fields, lightFields_eq]
      cases r.timeOfDay <;> cases r.related <;> rfl

end Sys2Proof.Machine
